-- ==== Sys2Proof/Word.lean ====
section
/-! DEFINITION. The word and byte types of the machine (spec 00_scope.md R3, 11_scalar.md R259) and their plainest
arithmetic: sizes, widening and the little-endian order of bytes. -/

namespace Sys2Proof

/-- A scalar register, an address or a control register: 64 bits (R259, R174). -/
abbrev Word := BitVec 64

/-- The smallest addressable unit of memory (R3). -/
abbrev Byte := BitVec 8

/-- A 7-bit register field of an instruction word (R28). -/
abbrev Reg := Fin 128

/-- The number of a 1024-byte unit: sizes use binary prefixes (R4). -/
def kib (n : Nat) : Nat := 1024 * n

/-- `n` low bits of a natural number. -/
def lowBits (n x : Nat) : Nat := x % 2 ^ n

/-- Bit `i` of a natural number. -/
def bitOf (x i : Nat) : Nat := x / 2 ^ i % 2

/-- The two's complement value of the low `n` bits of `x`. -/
def signedOf (n x : Nat) : Int :=
  let v := x % 2 ^ n
  if 2 * v < 2 ^ n then (v : Int) else (v : Int) - (2 ^ n : Nat)

/-- The `n`-bit code of an integer: its low `n` bits. -/
def codeOf (n : Nat) (i : Int) : Nat := (i % (2 ^ n : Nat)).toNat

/-- `k` little-endian bytes of a natural number (R3). -/
def toBytes : Nat → Nat → List Byte
  | 0, _ => []
  | k + 1, x => BitVec.ofNat 8 x :: toBytes k (x / 256)

/-- The number that little-endian bytes hold (R3). -/
def ofBytes : List Byte → Nat
  | [] => 0
  | b :: bs => b.toNat + 256 * ofBytes bs

/-- Quotient rounded up. -/
def ceilDiv (a b : Nat) : Nat := (a + b - 1) / b

/-- `x` rounded up to a multiple of `n`. -/
def roundUp (n x : Nat) : Nat := ceilDiv x n * n

/-- The lowest `e` of `lo, lo+1, …, lo+n-1` that `p` accepts. -/
def firstFrom (p : Nat → Bool) (lo : Nat) : Nat → Option Nat
  | 0 => none
  | n + 1 => if p lo then some lo else firstFrom p (lo + 1) n

/-- The numbers `lo, lo+1, …, hi-1`. -/
def span (lo hi : Nat) : List Nat := (List.range (hi - lo)).map (lo + ·)

end Sys2Proof
end

