-- ==== Sys2Proof/Config.lean ====
section
/-! DEFINITION. What the module fixes (counts, addresses and codes the spec states), the values the spec leaves to
something outside it (constants with no body), and the names of agents, accesses, causes and management requests. -/

namespace Sys2Proof

/-- Who executes words (R5, R354): a context by its id, or the handler context of a route tag of a tenant's chain on a slice. -/
inductive Agent where
  | ctx (id : Nat)
  | handler (tenant slice tag : Nat)
  deriving DecidableEq, Repr

/-- The kind of an access that is translated (R380): fetch, load, store, or both load and store (an atomic). -/
inductive Access where
  | fetch
  | load
  | store
  | atomic
  deriving DecidableEq, Repr

/-- The page attribute (R172, R379). -/
inductive PageAttr where
  | normal
  | capacity
  | remote
  deriving DecidableEq, Repr

/-- The trap causes of R397. -/
inductive Cause where
  | illop | unimpl | illcfg | priv | fetchfault | loadfault | storefault | window | align | integrity | dataloss
  | sparsemeta | elfull | nocollect | emptywait | wlfull | tile | trapinsn | ecall | barrierdead | queuegone | stripnest
  deriving DecidableEq, Repr

/-- The header of a management request and its signature (R390). `keyId` names the key it was signed with: the
operator key when `operator` holds, else a key registered to the tenant. -/
structure MgmtHeader where
  tenant   : Nat
  flags    : Nat
  oplen    : Nat
  seq      : Nat
  operator : Bool
  keyId    : Word
  sig      : List Byte
  deriving DecidableEq, Repr

/-- A stage-two window record (R382). -/
structure Window where
  tbase : Nat
  size  : Nat
  dbase : Nat
  perm  : Nat
  kind  : Nat
  zero  : Nat := 0
  deriving DecidableEq, Repr

/-- The initial register block of R431: the mask and the ten words. -/
structure RegBlock where
  given : Nat
  words : List Nat
  deriving DecidableEq, Repr

/-- The operands of a create-tenant request (R374, R390, R431); `pool` is where the tenant's context images lie
(DESIGN CHOICE, log 9) and `keys` holds the first key. -/
structure TenantReq where
  cores     : List Nat
  wayMask   : Nat
  groups    : List Nat
  capSlots  : Nat
  windows   : List Window
  l1Kib     : Nat
  spbase    : Nat
  mustSign  : Bool
  endpoints : Nat
  regs      : RegBlock
  key       : Word × List Byte
  pool      : Word
  deriving DecidableEq, Repr

/-- The configuration record of a queue (R327). -/
structure QueueReq where
  base   : Nat
  lslots : Nat
  kind   : Nat
  fvec   : Nat
  zero   : Nat
  notify : Nat
  deriving DecidableEq, Repr

/-- The record of a chain (R353). -/
structure ChainReq where
  slice : Nat
  first : Nat
  rods  : Nat
  fvec  : Nat
  zero  : Nat
  tags  : List Nat
  deriving DecidableEq, Repr

/-- The endpoint of a tenant at which an operation of Ultra Ethernet arrives (R387, R390). -/
structure RmaPort where
  tenant   : Nat
  endpoint : Nat
  deriving DecidableEq, Repr

/-- What arrives from a peer of a collective (R367, R368): the call that its rank stands at, as that call's descriptor fields name it, and
the bytes of its chunk, if any. -/
structure CollChunk where
  call  : List Nat
  bytes : List Byte
  deriving DecidableEq, Repr

/-- What a loader is given (R73, R95): a file, and the handler templates in its data whose code handle and entry it fills, each by its
address and the place of its kernel in the file's kernel table. -/
structure LoadFile where
  bytes     : List Byte
  templates : List (Word × Nat)
  deriving DecidableEq, Repr

/-- The atomics that Ultra Ethernet carries (R387). -/
inductive RmaOp where
  | add
  | swap
  | cas
  deriving DecidableEq, Repr

namespace Config

/-- Cores of the package (R5). -/
def cores : Nat := 192
/-- Contexts of the package (R5). -/
def contexts : Nat := 1536
/-- Slices of the package (R16). -/
def slices : Nat := 192
/-- Entries of HomeMap (R169). -/
def homeEntries : Nat := 3072
/-- Entries of the rule window (R107). -/
def windowEntries : Nat := 64
/-- Entries of the vector instruction queue (R129). -/
def queueEntries : Nat := 32
/-- Entries of the interlock table (R177). -/
def interlockEntries : Nat := 32
/-- Bytes of a vector register (R116). -/
def vregBytes : Nat := 4096
/-- Lines of the register file of a core (R118). -/
def rfLines : Nat := 8192
/-- Lines a context may pin (R119). -/
def pinCap : Nat := 768
/-- Lines of the instruction cache of a core: 256 KiB of 128 bytes (R10). -/
def icacheLines : Nat := 2048
/-- HBM4E bytes: 768 GiB (R375). -/
def hbmBytes : Nat := 768 * 2 ^ 30
/-- The first capacity address (R375). -/
def capBase : Nat := 0x100000000000
/-- The bytes of one capacity buffer (R375). -/
def capBytes : Nat := 2 ^ 38
/-- The exit address (R40). -/
def exitAddress : Nat := 0x00FFFFFFFFFFF000
/-- The reserved 64 KiB page of the exit address (R40). -/
def exitPage : Nat := 0x00FFFFFFFFFF0000
/-- The vtype of a task's start (R40). -/
def taskVtype : Nat := 0x24002
/-- The vtype of a handler's start (R402). -/
def trapVtype : Nat := 0x4002
/-- The vtype of a fabric handler's start: sew 8, int, RNE, scope die (R354). -/
def fabricVtype : Nat := 0xC000
/-- Bytes of the three parts of a context's memory, from one context to the next (R398). -/
def contextStride : Nat := 0x4F0000
/-- Start of the state block from ctximg (R398). -/
def stateBlock : Nat := 0x420000
/-- Messages that wait for delivery (R389). -/
def interruptPlaces : Nat := 1024
/-- Launches of a tenant between WAITING and DRAINING (R328). -/
def launchPlaces : Nat := 256
/-- Hardware queue slots of the scheduler (R328). -/
def hwQueues : Nat := 256
/-- Messages of one tag queue (R358). -/
def tagPlaces : Nat := 16
/-- Words that a context runs on at most while a rule of it stands whose element will fault (DESIGN CHOICE, log 4). -/
def faultWords : Nat := 64
/-- ns that a queue polls before it stalls (R330). -/
def stallNs : Nat := 100000
/-- The first re-poll interval in ns, and the largest (R330). -/
def pollFirst : Nat := 500
def pollLast : Nat := 16000
/-- ns after which a park ends (R340). -/
def parkNs : Nat := 100000
/-- Stores that the store queue of a context holds (R184). -/
def storeQueue : Nat := 16
/-- ns after which a wait on a remote page reads its word again (R343). -/
def rereadNs : Nat := 10000
/-- ns after which an unacknowledged remote access is lost (R371). -/
def remoteNs : Nat := 10000000

/-- This module's number in the pod (R22, R367): set by the installation, not by the spec (log 16). -/
opaque moduleNumber : Nat
/-- Whether a signature over a message verifies under a key: SLH-DSA-SHA2-128s of FIPS 205, which the spec names and
does not give (R23, R85, R93, R390; log 7). Arguments: the public key, the message, the signature. -/
opaque sigValid : List Byte → List Byte → List Byte → Bool
/-- The signature that the device identity key makes over an attestation report (R392; log 7). -/
opaque identitySign : List Byte → List Byte
/-- The vendor key fused into the part (R391). -/
opaque vendorKey : List Byte
/-- The operator key held in firmware (R390). -/
opaque operatorKey : List Byte
/-- The firmware image in flash, and its signature by the vendor key (R391). -/
opaque flashImage : List Byte
opaque flashSignature : List Byte
/-- The module serial number (R392). -/
opaque serialNumber : List Byte
/-- What a byte of a collective's rbuf that did not arrive holds when its call does not end OK: 'unchanged or
arbitrary' (R370; log 17). Arguments: the count of such bytes so far and the old byte. -/
opaque collJunk : Nat → Byte → Byte
/-- The words of a weight buffer's column that an `mwl` passed over because of vstart, in the version that it installs: the spec
does not say (R111, R305; log 19). Argument: the count of open values so far. -/
opaque skippedWord : Nat → BitVec 32

end Config

end Sys2Proof
end

