-- ==== Sys2Proof/Syntax.lean ====
section
/-! DEFINITION. Every row of the opcode table as one constructor: the instruction words of
02_encoding.md R24-R46, and the events of 95_what_each_step_holds.md, which have no encoding. Register fields are
named as R26 names them; `m` is the mask field and `dt` the density-time bit (R30). The words that may take a rule entry
stand first: Lean compiles the building of a constructor only up to number 244, and the meanings build only those. -/

namespace Sys2Proof

/-- An instruction or an event of the machine. -/
inductive Instr where
  /-- R132: Sets vtype and vl, writes vl to X[d] and renegotiates spans. -/
  | vset (d a b : Reg)
  /-- R133: Sets vl under the current vtype and writes it to X[d]. -/
  | vsetl (d a : Reg)
  /-- R134: Writes mtype and changes tile claims. -/
  | mset (a : Reg)
  /-- R135: Sets the vector window base. -/
  | wbase (a : Reg)
  /-- R136: Opens a strip loop. -/
  | vstrip (d a : Reg)
  /-- R136: Opens a strip loop whose strips are declared independent. -/
  | vstripI (d a : Reg)
  /-- R137: Closes one strip, renegotiates, and loops back or closes the loop. -/
  | vnext
  /-- R138: Waits for element X[b] of V[a] and moves it to X[d]. -/
  | vmvXs (d a b : Reg)
  /-- R139: Writes X[a] into element X[b] of V[d]. -/
  | vmvSx (d a b : Reg)
  /-- R140: Broadcasts X[a] into the elements of V[d]. -/
  | vbcst (d a : Reg)
  /-- R141: Sets mask bits from a 64-bit scalar pattern. -/
  | qset (d a : Reg)
  /-- R142: Records the presence of V[a]'s elements at issue into a mask. -/
  | vpresq (d a : Reg)
  /-- R275: Elementwise add, vector-vector. -/
  | vaddVv (d a b : Reg) (m : Fin 4) (dt : Bool)
  /-- R275: Elementwise subtract, vector-vector. -/
  | vsubVv (d a b : Reg) (m : Fin 4) (dt : Bool)
  /-- R275: Elementwise reverse subtract, vector-vector. -/
  | vrsubVv (d a b : Reg) (m : Fin 4) (dt : Bool)
  /-- R275: Elementwise multiply, vector-vector. -/
  | vmulVv (d a b : Reg) (m : Fin 4) (dt : Bool)
  /-- R275: Elementwise high half of the product, vector-vector. -/
  | vmulhVv (d a b : Reg) (m : Fin 4) (dt : Bool)
  /-- R275: Elementwise divide, vector-vector. -/
  | vdivVv (d a b : Reg) (m : Fin 4) (dt : Bool)
  /-- R275: Elementwise remainder, vector-vector. -/
  | vremVv (d a b : Reg) (m : Fin 4) (dt : Bool)
  /-- R275: Elementwise absolute difference, vector-vector. -/
  | vabsdVv (d a b : Reg) (m : Fin 4) (dt : Bool)
  /-- R275: Elementwise minimum, vector-vector. -/
  | vminVv (d a b : Reg) (m : Fin 4) (dt : Bool)
  /-- R275: Elementwise maximum, vector-vector. -/
  | vmaxVv (d a b : Reg) (m : Fin 4) (dt : Bool)
  /-- R275: Elementwise saturating add, vector-vector. -/
  | vsaddVv (d a b : Reg) (m : Fin 4) (dt : Bool)
  /-- R275: Elementwise saturating subtract, vector-vector. -/
  | vssubVv (d a b : Reg) (m : Fin 4) (dt : Bool)
  /-- R275: Elementwise AND, vector-vector. -/
  | vandVv (d a b : Reg) (m : Fin 4) (dt : Bool)
  /-- R275: Elementwise OR, vector-vector. -/
  | vorVv (d a b : Reg) (m : Fin 4) (dt : Bool)
  /-- R275: Elementwise XOR, vector-vector. -/
  | vxorVv (d a b : Reg) (m : Fin 4) (dt : Bool)
  /-- R275: Elementwise AND NOT, vector-vector. -/
  | vandnVv (d a b : Reg) (m : Fin 4) (dt : Bool)
  /-- R275: Elementwise shift left, vector-vector. -/
  | vsllVv (d a b : Reg) (m : Fin 4) (dt : Bool)
  /-- R275: Elementwise logical shift right, vector-vector. -/
  | vsrlVv (d a b : Reg) (m : Fin 4) (dt : Bool)
  /-- R275: Elementwise arithmetic shift right, vector-vector. -/
  | vsraVv (d a b : Reg) (m : Fin 4) (dt : Bool)
  /-- R275: Sign copy, vector-vector. -/
  | vsgnjVv (d a b : Reg) (m : Fin 4) (dt : Bool)
  /-- R275: Fused multiply-add a*b+d, vector-vector. -/
  | vfmaVv (d a b : Reg) (m : Fin 4) (dt : Bool)
  /-- R275: Fused a*b-d, vector-vector. -/
  | vfmsVv (d a b : Reg) (m : Fin 4) (dt : Bool)
  /-- R275: Fused d-a*b, vector-vector. -/
  | vfnmaVv (d a b : Reg) (m : Fin 4) (dt : Bool)
  /-- R276: Selects b or a per mask bit, vector-vector. -/
  | vmergeVv (d a b : Reg) (m : Fin 4) (dt : Bool)
  /-- R275: Elementwise add with a scalar operand. -/
  | vaddVx (d a b : Reg) (m : Fin 4) (dt : Bool)
  /-- R275: Elementwise subtract with a scalar operand. -/
  | vsubVx (d a b : Reg) (m : Fin 4) (dt : Bool)
  /-- R275: Elementwise reverse subtract with a scalar operand. -/
  | vrsubVx (d a b : Reg) (m : Fin 4) (dt : Bool)
  /-- R275: Elementwise multiply with a scalar operand. -/
  | vmulVx (d a b : Reg) (m : Fin 4) (dt : Bool)
  /-- R275: Elementwise high product with a scalar operand. -/
  | vmulhVx (d a b : Reg) (m : Fin 4) (dt : Bool)
  /-- R275: Elementwise divide by a scalar operand. -/
  | vdivVx (d a b : Reg) (m : Fin 4) (dt : Bool)
  /-- R275: Elementwise remainder by a scalar operand. -/
  | vremVx (d a b : Reg) (m : Fin 4) (dt : Bool)
  /-- R275: Elementwise absolute difference with a scalar operand. -/
  | vabsdVx (d a b : Reg) (m : Fin 4) (dt : Bool)
  /-- R275: Elementwise minimum with a scalar operand. -/
  | vminVx (d a b : Reg) (m : Fin 4) (dt : Bool)
  /-- R275: Elementwise maximum with a scalar operand. -/
  | vmaxVx (d a b : Reg) (m : Fin 4) (dt : Bool)
  /-- R275: Saturating add with a scalar operand. -/
  | vsaddVx (d a b : Reg) (m : Fin 4) (dt : Bool)
  /-- R275: Saturating subtract with a scalar operand. -/
  | vssubVx (d a b : Reg) (m : Fin 4) (dt : Bool)
  /-- R275: Elementwise AND with a scalar operand. -/
  | vandVx (d a b : Reg) (m : Fin 4) (dt : Bool)
  /-- R275: Elementwise OR with a scalar operand. -/
  | vorVx (d a b : Reg) (m : Fin 4) (dt : Bool)
  /-- R275: Elementwise XOR with a scalar operand. -/
  | vxorVx (d a b : Reg) (m : Fin 4) (dt : Bool)
  /-- R275: Elementwise AND NOT with a scalar operand. -/
  | vandnVx (d a b : Reg) (m : Fin 4) (dt : Bool)
  /-- R275: Shift left by a scalar amount. -/
  | vsllVx (d a b : Reg) (m : Fin 4) (dt : Bool)
  /-- R275: Logical shift right by a scalar amount. -/
  | vsrlVx (d a b : Reg) (m : Fin 4) (dt : Bool)
  /-- R275: Arithmetic shift right by a scalar amount. -/
  | vsraVx (d a b : Reg) (m : Fin 4) (dt : Bool)
  /-- R275: Sign copy from a scalar operand. -/
  | vsgnjVx (d a b : Reg) (m : Fin 4) (dt : Bool)
  /-- R275: Fused multiply-add with a scalar operand. -/
  | vfmaVx (d a b : Reg) (m : Fin 4) (dt : Bool)
  /-- R275: Fused a*b-d with a scalar operand. -/
  | vfmsVx (d a b : Reg) (m : Fin 4) (dt : Bool)
  /-- R275: Fused d-a*b with a scalar operand. -/
  | vfnmaVx (d a b : Reg) (m : Fin 4) (dt : Bool)
  /-- R276: Selects the scalar or V[a] per mask bit. -/
  | vmergeVx (d a b : Reg) (m : Fin 4) (dt : Bool)
  /-- R277: Elementwise add of a sign-extended 8-bit immediate. -/
  | vaddi (d a : Reg) (i : BitVec 8) (m : Fin 4)
  /-- R277: Elementwise shift left by an immediate. -/
  | vslli (d a : Reg) (i : BitVec 8) (m : Fin 4)
  /-- R277: Elementwise logical shift right by an immediate. -/
  | vsrli (d a : Reg) (i : BitVec 8) (m : Fin 4)
  /-- R277: Elementwise arithmetic shift right by an immediate. -/
  | vsrai (d a : Reg) (i : BitVec 8) (m : Fin 4)
  /-- R278: Writes s8 + e*t8 into each element. -/
  | vidx (d : Reg) (s t : BitVec 8)
  /-- R278: Broadcasts the sign-extended s8 into each element. -/
  | vbcsti (d : Reg) (s : BitVec 8)
  /-- R279: Compare equal into a mask, vector-vector. -/
  | veqVv (d a b : Reg) (m : Fin 4) (dt : Bool)
  /-- R279: Compare not equal into a mask, vector-vector. -/
  | vneVv (d a b : Reg) (m : Fin 4) (dt : Bool)
  /-- R279: Compare less than into a mask, vector-vector. -/
  | vltVv (d a b : Reg) (m : Fin 4) (dt : Bool)
  /-- R279: Compare less or equal into a mask, vector-vector. -/
  | vle (d a b : Reg) (m : Fin 4) (dt : Bool)
  /-- R279: Compare equal against a scalar into a mask. -/
  | veqVx (d a b : Reg) (m : Fin 4) (dt : Bool)
  /-- R279: Compare not equal against a scalar into a mask. -/
  | vneVx (d a b : Reg) (m : Fin 4) (dt : Bool)
  /-- R279: Compare less than a scalar into a mask. -/
  | vltVx (d a b : Reg) (m : Fin 4) (dt : Bool)
  /-- R279: Compare greater or equal to a scalar into a mask. -/
  | vge (d a b : Reg) (m : Fin 4) (dt : Bool)
  /-- R280: Packs the selected elements into the low positions. -/
  | vcompress (d a b : Reg) (m : Fin 4) (dt : Bool)
  /-- R280: Spreads low elements into the selected positions. -/
  | vexpand (d a b : Reg) (m : Fin 4) (dt : Bool)
  /-- R281: Gathers elements of V[a] by the indices in V[b]. -/
  | vpick (d a b : Reg) (m : Fin 4) (dt : Bool)
  /-- R281: Reverses the elements below vl. -/
  | vrev (d a : Reg) (m : Fin 4) (dt : Bool)
  /-- R282: Element shift up by a scalar count. -/
  | vshup (d a b : Reg) (m : Fin 4) (dt : Bool)
  /-- R282: Element shift down by a scalar count. -/
  | vshdn (d a b : Reg) (m : Fin 4) (dt : Bool)
  /-- R282: Shift up by one, inserting a scalar at element 0. -/
  | vinsup (d a b : Reg) (m : Fin 4) (dt : Bool)
  /-- R282: Shift down by one, inserting a scalar at element vl-1. -/
  | vinsdn (d a b : Reg) (m : Fin 4) (dt : Bool)
  /-- R283: Ordered sum reduction into V[d].0. -/
  | vredsumO (d a b : Reg) (m : Fin 4) (dt : Bool)
  /-- R283: Tree sum reduction into V[d].0. -/
  | vredsumT (d a b : Reg) (m : Fin 4) (dt : Bool)
  /-- R283: Minimum reduction into V[d].0. -/
  | vredmin (d a b : Reg) (m : Fin 4) (dt : Bool)
  /-- R283: Maximum reduction into V[d].0. -/
  | vredmax (d a b : Reg) (m : Fin 4) (dt : Bool)
  /-- R284: Mask AND. -/
  | qand (d a b : Reg)
  /-- R284: Mask OR. -/
  | qor (d a b : Reg)
  /-- R284: Mask XOR. -/
  | qxor (d a b : Reg)
  /-- R284: Mask AND NOT. -/
  | qandn (d a b : Reg)
  /-- R285: Counts the active set bits of a mask into X[d]. -/
  | qpopc (d a : Reg) (m : Fin 4)
  /-- R285: Writes the lowest active set bit of a mask, or all ones, into X[d]. -/
  | qfirst (d a : Reg) (m : Fin 4)
  /-- R286: Writes bit X[b] of each element into a mask. -/
  | vbitq (d a b : Reg) (m : Fin 4) (dt : Bool)
  /-- R286: Counts the 1 bits of each element. -/
  | vpopc (d a : Reg) (m : Fin 4) (dt : Bool)
  /-- R287: Converts each element to the class and width of the type code. -/
  | vcvt (d a b : Reg) (m : Fin 4) (dt : Bool)
  /-- R288: Converts binary32 blocks into bfp mantissas and scales. -/
  | vtobfp (d a b : Reg) (m : Fin 4) (dt : Bool)
  /-- R289: Converts bfp mantissas and scales into binary32. -/
  | vfrombfp (d a b : Reg) (m : Fin 4) (dt : Bool)
  /-- R290: Correctly rounded log2 of each element. -/
  | vlog2 (d a : Reg) (m : Fin 4) (dt : Bool)
  /-- R290: Correctly rounded square root. -/
  | vsqrt (d a : Reg) (m : Fin 4) (dt : Bool)
  /-- R290: Correctly rounded reciprocal. -/
  | vrcp (d a : Reg) (m : Fin 4) (dt : Bool)
  /-- R290: Correctly rounded reciprocal square root. -/
  | vrsqrt (d a : Reg) (m : Fin 4) (dt : Bool)
  /-- R290: Correctly rounded 2^x. -/
  | vexp2 (d a : Reg) (m : Fin 4) (dt : Bool)
  /-- R188: Unit-stride vector load. -/
  | vld (v b : Reg) (m : Fin 4) (dt : Bool)
  /-- R189: Fault-only-first load that trims vl at the first faulting element. -/
  | vldff (v b : Reg) (m : Fin 4) (dt : Bool)
  /-- R188: Unit-stride vector store. -/
  | vst (v b : Reg) (m : Fin 4) (dt : Bool)
  /-- R188: Strided vector load. -/
  | vlds (v b s : Reg) (m : Fin 4) (dt : Bool)
  /-- R188: Strided vector store. -/
  | vsts (v b s : Reg) (m : Fin 4) (dt : Bool)
  /-- R188: Indexed (gather) load with unordered elements. -/
  | vldx (v b i : Reg) (m : Fin 4) (dt : Bool)
  /-- R188: Indexed load with elements in ascending order. -/
  | vldxo (v b i : Reg) (m : Fin 4) (dt : Bool)
  /-- R188: Indexed (scatter) store with unordered elements. -/
  | vstx (v b i : Reg) (m : Fin 4) (dt : Bool)
  /-- R188: Indexed store with elements in ascending order. -/
  | vstxo (v b i : Reg) (m : Fin 4) (dt : Bool)
  /-- R190: Per-element atomic add; the old values are returned. -/
  | vamoadd (v b i : Reg) (m : Fin 4) (dt : Bool)
  /-- R190: Per-element atomic minimum. -/
  | vamomin (v b i : Reg) (m : Fin 4) (dt : Bool)
  /-- R190: Per-element atomic maximum. -/
  | vamomax (v b i : Reg) (m : Fin 4) (dt : Bool)
  /-- R190: Per-element atomic swap. -/
  | vamoswap (v b i : Reg) (m : Fin 4) (dt : Bool)
  /-- R207: Vector load from the scratchpad, waiting on empty lines. -/
  | vspld (v b : Reg) (m : Fin 4) (dt : Bool)
  /-- R207: Vector store to the scratchpad. -/
  | vspst (v b : Reg) (m : Fin 4) (dt : Bool)
  /-- R210: Stores bfp mantissas as bit planes, with a header and scales. -/
  | vpst (v b s : Reg)
  /-- R210: Loads a bit-plane region back into mantissas and scales. -/
  | vpld (v b s : Reg)
  /-- R212: Captures the source copy layout from V[a]. -/
  | cpls (a : Reg)
  /-- R212: Captures the destination copy layout from V[a]. -/
  | cpld (a : Reg)
  /-- R215: Starts a memory-to-memory copy on a tag. -/
  | cpgoMm (d a b : Reg)
  /-- R215: Starts a memory-to-scratchpad copy on a tag. -/
  | cpgoMs (d a b : Reg)
  /-- R215: Starts a scratchpad-to-memory copy on a tag. -/
  | cpgoSm (d a b : Reg)
  /-- R215: Starts a scratchpad-to-scratchpad copy on a tag. -/
  | cpgoSs (d a b : Reg)
  /-- R219: Waits until any tag of the mask is set or none is pending, and returns the lowest set tag. -/
  | cwany (d a : Reg)
  /-- R219: Waits until no tag of the mask is pending. -/
  | cwall (a : Reg)
  /-- R219: Returns the lowest set tag of the mask, or -1, without waiting. -/
  | cffr (d a : Reg)
  /-- R219: Clears the tags of the mask. -/
  | ctclr (a : Reg)
  /-- R317: Pools the bags of a bag list from a capacity-tier table into V[d]. -/
  | spool (d a b : Reg)
  /-- R370: Runs a collective from a descriptor and completes with a status word. -/
  | coll (a : Reg)
  /-- R364: Scores pages against a query, selects the top k and copies them to the scratchpad. -/
  | kvsel (a : Reg)
  /-- R358: Sends a payload message on a route tag to the chain at the destination's home slice. -/
  | fsend (d a b : Reg)
  /-- R359: Ends a handler, which then starts on its next message. -/
  | fdone
  /-- R191: Per-element atomic compare-and-swap. -/
  | vamocas (d a b : Reg)
  /-- R348: Pushes a launch record into a device-fed queue, with a stamp and check, as a pkg release. -/
  | lpush (a b : Reg)
  /-- R347: Appends the elements of V[b] to a work list. -/
  | wlpush (a b : Reg)
  /-- R347: Appends the values not yet in the list's seen set. -/
  | wlins (a b : Reg)
  /-- R347: Pops up to vl entries into V[d] and writes the count to X[b]. -/
  | wlpop (d a b : Reg)
  /-- R347: Closes a work list. -/
  | wlclose (a : Reg)
  /-- R347: Starts a new seen-set epoch and reopens the list. -/
  | wlclear (a : Reg)
  /-- R225: Enters collecting mode with a fresh handle and calls X[a]. -/
  | ccall (d a b : Reg)
  /-- R226: Seals the current list and returns. -/
  | cret
  /-- R236: Concatenates two sealed lists into a new handle. -/
  | elcat (d a b : Reg)
  /-- R236: Appends an address filter step to a list view. -/
  | elfilt (d a b : Reg)
  /-- R236: Appends a rebase step to a list view. -/
  | elrebase (d a b : Reg)
  /-- R238: Applies a sealed list's records as stores, or appends them to the active list in collecting mode. -/
  | elapply (a : Reg)
  /-- R237: Frees a sealed handle. -/
  | eldrop (a : Reg)
  /-- R237: Counts the records of a list that keep at least one byte. -/
  | elinfo (d a : Reg)
  /-- R232: Adds a region segment to an open handle (level S). -/
  | elgrow (a b : Reg)
  /-- R300: Accumulates the product of A and B in registers into a tile. -/
  | mop (t : Fin 4) (a b : Reg) (m : Fin 4)
  /-- R301: Accumulates a 2:4 sparse product into a tile after checking the metadata. -/
  | mops (t : Fin 4) (a b c : Reg) (m : Fin 4)
  /-- R308: Zeroes every accumulator and partial word of a tile. -/
  | mzero (d : Reg)
  /-- R307: Folds bfp partial words into the accumulators with their block scales. -/
  | mfold (d a b : Reg)
  /-- R308: Reads a tile row into a vector register. -/
  | mrd (d a b : Reg)
  /-- R308: Writes a vector register into a tile row. -/
  | mwr (d a b : Reg)
  /-- R308: Reads a tile column into a vector register. -/
  | mrdc (d a b : Reg)
  /-- R305: Loads a weight buffer from memory under a format word. -/
  | mwl (d a b : Reg)
  /-- R309: Writes the claim, mapping and weight-buffer status to X[d]. -/
  | mstat (d : Reg)
  /-- R302: Accumulates a product whose B operand is read from device memory, column by column. -/
  | mopm (t : Fin 4) (a b c : Reg) (m : Fin 4)
  /-- R306: Accumulates a product whose B operand is taken from a weight buffer, possibly plane-truncated. -/
  | mvw (t : Fin 4) (a b c : Reg) (m : Fin 4)
  /-- R261: Scalar add: X[d] gets (X[a] + X[b]) mod 2^64. -/
  | add (d a b : Reg)
  /-- R261: Scalar subtract: X[d] gets (X[a] - X[b]) mod 2^64. -/
  | sub (d a b : Reg)
  /-- R261: Scalar bitwise AND of X[a] and X[b]. -/
  | and (d a b : Reg)
  /-- R261: Scalar bitwise OR of X[a] and X[b]. -/
  | or (d a b : Reg)
  /-- R261: Scalar bitwise XOR of X[a] and X[b]. -/
  | xor (d a b : Reg)
  /-- R261: Scalar X[a] AND NOT X[b]. -/
  | andn (d a b : Reg)
  /-- R261: Scalar logical shift left of X[a] by X[b][5:0]. -/
  | sll (d a b : Reg)
  /-- R261: Scalar logical shift right of X[a] by X[b][5:0]. -/
  | srl (d a b : Reg)
  /-- R261: Scalar arithmetic shift right of X[a] by X[b][5:0]. -/
  | sra (d a b : Reg)
  /-- R261: Scalar rotate right of X[a] by X[b][5:0]. -/
  | rot (d a b : Reg)
  /-- R261: X[d] gets 1 if X[a] < X[b] signed, else 0. -/
  | slt (d a b : Reg)
  /-- R261: X[d] gets 1 if X[a] < X[b] unsigned, else 0. -/
  | sltn (d a b : Reg)
  /-- R261: Signed minimum of X[a] and X[b]. -/
  | min (d a b : Reg)
  /-- R261: Signed maximum of X[a] and X[b]. -/
  | max (d a b : Reg)
  /-- R261: Unsigned minimum of X[a] and X[b]. -/
  | minn (d a b : Reg)
  /-- R261: Unsigned maximum of X[a] and X[b]. -/
  | maxn (d a b : Reg)
  /-- R261: Low 64 bits of the product of X[a] and X[b]. -/
  | mul (d a b : Reg)
  /-- R261: High 64 bits of the signed 128-bit product. -/
  | mulh (d a b : Reg)
  /-- R261: High 64 bits of the unsigned 128-bit product. -/
  | mulhn (d a b : Reg)
  /-- R261: Signed quotient as R243 defines, with division by zero giving all ones. -/
  | div (d a b : Reg)
  /-- R261: Unsigned quotient as R243 defines. -/
  | divn (d a b : Reg)
  /-- R261: Signed remainder as R243 defines. -/
  | rem (d a b : Reg)
  /-- R261: Unsigned remainder as R243 defines. -/
  | remn (d a b : Reg)
  /-- R261: Count of 1 bits in X[a]. -/
  | popc (d a : Reg)
  /-- R261: Count of leading zeros of X[a]. -/
  | clz (d a : Reg)
  /-- R261: Count of trailing zeros of X[a]. -/
  | ctz (d a : Reg)
  /-- R261: Sign-extend byte 0 of X[a]. -/
  | sxb (d a : Reg)
  /-- R261: Sign-extend the low 16 bits of X[a]. -/
  | sxh (d a : Reg)
  /-- R261: Sign-extend the low 32 bits of X[a]. -/
  | sxw (d a : Reg)
  /-- R261: Zero-extend the low 32 bits of X[a]. -/
  | zxw (d a : Reg)
  /-- R261: Reverse the byte order of X[a]. -/
  | bswap (d a : Reg)
  /-- R262: X[d] gets X[a] plus the sign-extended immediate. -/
  | addi (d a : Reg) (i : BitVec 12)
  /-- R262: X[d] gets X[a] AND the sign-extended immediate. -/
  | andi (d a : Reg) (i : BitVec 12)
  /-- R262: X[d] gets X[a] OR the sign-extended immediate. -/
  | ori (d a : Reg) (i : BitVec 12)
  /-- R262: X[d] gets X[a] XOR the sign-extended immediate. -/
  | xori (d a : Reg) (i : BitVec 12)
  /-- R263: Shift X[a] left by an immediate amount. -/
  | slli (d a : Reg) (s : BitVec 6)
  /-- R263: Logical shift of X[a] right by an immediate amount. -/
  | srli (d a : Reg) (s : BitVec 6)
  /-- R263: Arithmetic shift of X[a] right by an immediate amount. -/
  | srai (d a : Reg) (s : BitVec 6)
  /-- R263: Rotate X[a] right by an immediate amount. -/
  | roti (d a : Reg) (s : BitVec 6)
  /-- R262: X[d] gets 1 if X[a] is below the immediate as signed values. -/
  | slti (d a : Reg) (i : BitVec 12)
  /-- R262: X[d] gets 1 if X[a] is below the sign-extended immediate as unsigned values. -/
  | sltni (d a : Reg) (i : BitVec 12)
  /-- R32: Prefix that executes with the following SI partner as one unit and supplies immediate bits 30:12. -/
  | lim (i : BitVec 19) (partner : BitVec 32)
  /-- R264: X[d] gets PC + (sext(imm19) << 12). -/
  | pcrel (d : Reg) (i : BitVec 19)
  /-- R184: Scalar load of a sign-extended byte. -/
  | ldB (d a : Reg) (o : BitVec 9)
  /-- R184: Scalar load of a sign-extended 2-byte value. -/
  | ldH (d a : Reg) (o : BitVec 9)
  /-- R184: Scalar load of a sign-extended 4-byte value. -/
  | ldW (d a : Reg) (o : BitVec 9)
  /-- R184: Scalar load of an 8-byte value. -/
  | ldD (d a : Reg) (o : BitVec 9)
  /-- R184: Scalar load of a zero-extended byte. -/
  | ldBn (d a : Reg) (o : BitVec 9)
  /-- R184: Scalar load of a zero-extended 2-byte value. -/
  | ldHn (d a : Reg) (o : BitVec 9)
  /-- R184: Scalar load of a zero-extended 4-byte value. -/
  | ldWn (d a : Reg) (o : BitVec 9)
  /-- R184: Scalar store of one byte. -/
  | stB (d a : Reg) (o : BitVec 9)
  /-- R184: Scalar store of 2 bytes. -/
  | stH (d a : Reg) (o : BitVec 9)
  /-- R184: Scalar store of 4 bytes. -/
  | stW (d a : Reg) (o : BitVec 9)
  /-- R184: Scalar store of 8 bytes. -/
  | stD (d a : Reg) (o : BitVec 9)
  /-- R265: Branch if X[a] = X[b]. -/
  | beq (a b : Reg) (o : BitVec 12)
  /-- R265: Branch if X[a] is not equal to X[b]. -/
  | bne (a b : Reg) (o : BitVec 12)
  /-- R265: Branch if X[a] < X[b], signed. -/
  | blt (a b : Reg) (o : BitVec 12)
  /-- R265: Branch if X[a] >= X[b], signed. -/
  | bge (a b : Reg) (o : BitVec 12)
  /-- R265: Branch if X[a] < X[b], unsigned. -/
  | bltn (a b : Reg) (o : BitVec 12)
  /-- R265: Branch if X[a] >= X[b], unsigned. -/
  | bgen (a b : Reg) (o : BitVec 12)
  /-- R266: Jump PC-relative and write the link PC + 4 to X[d]. -/
  | jal (d : Reg) (o : BitVec 19)
  /-- R266: Jump to X[a] + imm, trapping ALIGN on a misaligned target, and write the link. -/
  | jalr (d a : Reg) (i : BitVec 12)
  /-- R186: 64-bit atomic add at X[a]; the old value goes to X[d]. -/
  | amoaddD (d a b : Reg)
  /-- R186: 64-bit atomic AND. -/
  | amoandD (d a b : Reg)
  /-- R186: 64-bit atomic OR. -/
  | amoorD (d a b : Reg)
  /-- R186: 64-bit atomic XOR. -/
  | amoxorD (d a b : Reg)
  /-- R186: 64-bit atomic signed minimum. -/
  | amominD (d a b : Reg)
  /-- R186: 64-bit atomic signed maximum. -/
  | amomaxD (d a b : Reg)
  /-- R186: 64-bit atomic unsigned minimum. -/
  | amominnD (d a b : Reg)
  /-- R186: 64-bit atomic unsigned maximum. -/
  | amomaxnD (d a b : Reg)
  /-- R186: 64-bit atomic swap. -/
  | amoswapD (d a b : Reg)
  /-- R186: 64-bit atomic compare-and-swap against X[d]. -/
  | amocasD (d a b : Reg)
  /-- R186: 32-bit atomic add. -/
  | amoaddW (d a b : Reg)
  /-- R186: 32-bit atomic AND. -/
  | amoandW (d a b : Reg)
  /-- R186: 32-bit atomic OR. -/
  | amoorW (d a b : Reg)
  /-- R186: 32-bit atomic XOR. -/
  | amoxorW (d a b : Reg)
  /-- R186: 32-bit atomic signed minimum. -/
  | amominW (d a b : Reg)
  /-- R186: 32-bit atomic signed maximum. -/
  | amomaxW (d a b : Reg)
  /-- R186: 32-bit atomic unsigned minimum. -/
  | amominnW (d a b : Reg)
  /-- R186: 32-bit atomic unsigned maximum. -/
  | amomaxnW (d a b : Reg)
  /-- R186: 32-bit atomic swap. -/
  | amoswapW (d a b : Reg)
  /-- R186: 32-bit atomic compare-and-swap. -/
  | amocasW (d a b : Reg)
  /-- R195: Orders older vector-stream accesses before younger scalar-stream accesses. -/
  | fenceSv
  /-- R195: Orders older scalar-stream accesses before younger vector-stream accesses. -/
  | fenceVs
  /-- R151: Scoped release fence over both streams. -/
  | fenceRel
  /-- R151: Scoped acquire fence over both streams. -/
  | fenceAcq
  /-- R151: Scoped full fence: release, acquire and store-load ordering. -/
  | fenceFull
  /-- R165: Performs older stores at the scope, then invalidates the instruction caches in the scope instance. -/
  | ifence
  /-- R342: Gang barrier: fence, arrive and hold until every participant arrives. -/
  | bar (a : Reg)
  /-- R343: Re-read a memory word until it differs from X[d] or the wait limit passes. -/
  | waitNe (d a : Reg)
  /-- R343: Re-read a memory word until it is at least X[d] (unsigned) or the wait limit passes. -/
  | waitGe (d a : Reg)
  /-- R340: Does nothing, or, with a yield request pending, saves the context and returns the task to its launch. -/
  | yield
  /-- R340: Gives up spans and holds the context until a rule retires, a tag is set or 100 us pass. -/
  | park
  /-- R200: Writes zero to the 128-byte line at X[a]. -/
  | zline (a : Reg)
  /-- R408: Reads control register n into X[d], with the waits for vl, fflags, ctb and spg. -/
  | ctlRd (d : Reg) (n : BitVec 10)
  /-- R408: Writes X[a] into a control register that has no row of its own, with the access checks of R39. -/
  | ctlWr (a : Reg) (n : BitVec 10)
  /-- R111: Writes vstart, which applies to the next instruction that takes a rule-window entry. -/
  | ctlWrVstart (a : Reg)
  /-- R255: Waits for older flag-raising rules to retire, then writes fflags. -/
  | ctlWrFflags (a : Reg)
  /-- R408: Writes back and invalidates the resident image lines, then moves the context image to the new address. -/
  | ctlWrCtximg (a : Reg)
  /-- R409: Raises TRAPINSN at the depth in force. -/
  | trap
  /-- R411: Returns from a handler: restores the level area and bank, installs the slot's rule records and resumes. -/
  | rtr
  /-- R409: Raises ECALL at the depth in force. -/
  | ecall
  /-- R410: Waits for older work, releases at pkg scope and ends the task; it is fatal at depth 1 or 2. -/
  | halt
  /-- R412: Stacks hvl, hvtype and hvstart at X[a] and sets stacked. -/
  | stkvec (a : Reg)
  /-- R412: Reloads the bank from X[a] and clears stacked and bankloss. -/
  | unstkvec (a : Reg)
  /-- R414: Releases at pkg scope and drops the tenant's translation-cache entries for X[a], or all of them when the a field is 0. -/
  | tlbinv (a : Reg)
  /-- R415: Performs older stores and invalidates one instruction-cache line in every core and chain of the tenant. -/
  | icinv (a : Reg)
  /-- R413: Loads and checks a rule-slot image into the on-chip slot copy. -/
  | ldrule (a : Reg)
  /-- R413: Stores the on-chip rule-slot copy to memory. -/
  | strule (a : Reg)
  /-- R89: Twin word of vtobfp in microcode major 0x3D, run by its bundle routine. -/
  | vtobfpTwin (d a b : Reg) (m : Fin 4) (dt : Bool)
  /-- R89: Twin word of vfrombfp in microcode major 0x3D. -/
  | vfrombfpTwin (d a b : Reg) (m : Fin 4) (dt : Bool)
  /-- R89: Twin word of kvsel in microcode major 0x3E. -/
  | kvselTwin (a : Reg)
  /-- R89: Twin word of mops in microcode major 0x3A. -/
  | mopsTwin (t : Fin 4) (a b c : Reg) (m : Fin 4)
  /-- R89: Twin word of mwl in microcode major 0x3C. -/
  | mwlTwin (d a b : Reg)
  /-- R89: Twin word of mvw in microcode major 0x3B. -/
  | mvwTwin (t : Fin 4) (a b c : Reg) (m : Fin 4)
  /-- R52: Routine word of major 0x39 by which a microcode routine rejects its trigger with ILLOP. -/
  | ureject
  /-- R49: A word of majors 0x3A-0x3F is matched against the directory and enters its routine, or raises UNIMPL. -/
  | microcodeTrigger (w : BitVec 32)
  /-- R40: A fetch at the exit address ends the task as halt does at the depth in force. -/
  | exitAddressFetch
  /-- R110: A standing rule fires an element once its mask, sources and write conditions are met. -/
  | elementFire (g : Agent) (k e : Nat)
  /-- R123: A freed span passes to its new owner once every element mapped onto it has fired. -/
  | spanHandover (core span : Nat)
  /-- R118: A missing register line arrives from the context image and the waiting firing proceeds. -/
  | registerLineFill (g : Agent) (line : Nat)
  /-- R384: A two-stage page walk ends and fills the translation caches, or raises a translation fault or WINDOW. -/
  | pageWalkComplete (tenant core : Nat) (va : Word) (kind : Access)
  /-- R167: A line fetched from the home slice merges into the L1 under the bytes already valid. -/
  | l1LineFill (tenant core line : Nat)
  /-- R170: A written-through store reaches its home slice, which invalidates the other L1 copies and acknowledges. -/
  | homeSliceStore (k : Nat)
  /-- R168: The home slice's acknowledgement clears the pending marks of a store's L1 bytes. -/
  | storeAcknowledge (k : Nat)
  /-- R170: A line arrives at its slice from HBM4E or a buffer, evicting a victim, or is answered as a zero line. -/
  | l2MissFill (tenant line : Nat) (zeroHint : Bool)
  /-- R312: A store written through to a capacity page is performed at its buffer chip. -/
  | capacityStorePerformed (k : Nat)
  /-- R215: The copy engine performs one transfer of a copy's loop nest. -/
  | copyTransfer (g : Agent) (k j : Nat)
  /-- R205: A read waiting on an empty scratchpad line past the scratchpad-wait-limit raises EMPTYWAIT. -/
  | emptywaitTimeout (g : Agent) (k e : Nat)
  /-- R303: A completed weight-buffer load replaces the contents and format once no mvw reads the buffer. -/
  | mwlComplete (g : Agent) (k : Nat)
  /-- R317: The descriptor and bag-list head arrive, are checked, and the tail elements are released. -/
  | spoolHeaderRead (g : Agent) (k : Nat)
  /-- R318: A capacity buffer pools its entries of a bag into a partial. -/
  | spoolBufferPartial (g : Agent) (k bag buffer : Nat)
  /-- R318: The pooling combiner combines a bag's partials and writes its result elements. -/
  | spoolBagComplete (g : Agent) (k bag : Nat)
  /-- R364: The chains' scores are merged, the index words written, and the page copies started. -/
  | kvselScoreMerge (g : Agent) (k : Nat)
  /-- R402: After the drain, a trap writes the rules, registers and frame and enters the handler at tvec. -/
  | trapEntry (g : Agent)
  /-- R417: At the yield deadline the victim context is drained and saved into its pre-emption slot. -/
  | preempt (g : Agent)
  /-- R417: A pre-empted or yielded task is restored on a core that can hold it and its slot installed. -/
  | resumeTask (g : Agent) (target : Nat)
  /-- R340: A parked context wakes when a rule retires or a copy tag is set, and retakes its spans. -/
  | parkWake (g : Agent)
  /-- R340: A parked context wakes after 100 us. -/
  | parkTimeout (g : Agent)
  /-- R342: When every participant has arrived, the barrier releases them after a fence. -/
  | barrierComplete (g : Agent) (pod : Bool)
  /-- R342: The network detects that no barrier of a launch can complete and raises BARRIERDEAD. -/
  | barrierdead (tenant launch : Nat)
  /-- R343: A write of the waited word's line makes the wait read the word again. -/
  | waitReread (g : Agent)
  /-- R343: At the wait limit the wait completes without a trap. -/
  | waitLimitExpiry (g : Agent)
  /-- R328: A write of the producer count to a notify address lands in its slot or memory and maps the queue. -/
  | notifyKick (tenant : Nat) (addr p : Word)
  /-- R328: The scheduler reads a ring slot and consumes the record, finds it not arrived, or fails it BADRECORD. -/
  | slotFetch (tenant queue : Nat)
  /-- R330: A polling queue re-reads its slot after each doubling interval. -/
  | queuePollTimer (tenant queue : Nat)
  /-- R330: After 100 us of mismatches the queue becomes STALLED and raises fvec. -/
  | queueStallTimeout (tenant queue : Nat)
  /-- R330: The slot in progress ends and a draining queue goes OFF, writing its notify word to memory. -/
  | queueDrainEnd (tenant queue : Nat)
  /-- R331: The local time reaches a launch's start time. -/
  | launchStartTime (tenant launch : Nat)
  /-- R331: A write to a trigger word's line makes the scheduler re-read it and may make the launch eligible. -/
  | launchTriggerWrite (tenant launch : Nat) (trig : Fin 2)
  /-- R332: A launch passes its deadline; with droplate its undispatched tickets are discarded. -/
  | launchDeadline (tenant launch : Nat)
  /-- R334: An idle core takes a ticket of the first launch it may serve and starts a task. -/
  | dispatchTask (tenant core : Nat)
  /-- R358: A message waiting for a place in its tag queue is enqueued and the fsend retires. -/
  | fsendAccept (g : Agent) (k : Nat)
  /-- R354: A handler context starts on the next message of its tag, as an acquire. -/
  | handlerStart (tenant slice tag : Nat)
  /-- R368: A collective's chunk or partial from a peer rank arrives and is combined or written. -/
  | collChunkArrival (g : Agent) (k peer : Nat) (acked : Bool) (data : CollChunk)
  /-- R370: A collective writes its status word, then sets its tag or adds to its counter. -/
  | collComplete (g : Agent) (k : Nat)
  /-- R370: A collective not complete within the wait limit ends with status TIMEOUT. -/
  | collTimeout (g : Agent) (k : Nat)
  /-- R371: A remote access unacknowledged for 10 ms raises DATALOSS at its element. -/
  | remoteAccessTimeout (g : Agent) (k : Nat)
  /-- R388: A host RMA write is translated through the tenant's stages and performed at pkg scope. -/
  | rmaWrite (port : RmaPort) (va : Word) (data : List Byte)
  /-- R388: A host RMA read is translated and returned, or failed with a UET error completion. -/
  | rmaRead (port : RmaPort) (va : Word) (len : Nat)
  /-- R388: A host 8-byte atomic is translated and performed. -/
  | rmaAtomic (port : RmaPort) (va : Word) (op : RmaOp) (operand compare : Word)
  /-- R389: The host endpoint acknowledges a message, freeing its place in the queue. -/
  | interruptDeliveryAck (tenant : Nat)
  /-- R374: Operator request that creates a tenant with its resources, windows and initial registers. -/
  | createTenant (h : MgmtHeader) (r : TenantReq)
  /-- R376: Operator request that ends a tenant's tasks and queues and clears its resources. -/
  | destroyTenant (h : MgmtHeader)
  /-- R382: Operator request that sets or revokes a tenant's stage-two window. -/
  | setWindow (h : MgmtHeader) (index : Nat) (w : Option Window)
  /-- R327: Tenant request that configures a queue. -/
  | configureQueue (h : MgmtHeader) (queue : Nat) (r : QueueReq)
  /-- R350: Tenant request that puts a queue into DRAIN. -/
  | destroyQueue (h : MgmtHeader) (queue : Nat)
  /-- R353: Tenant request that builds a chain of rods on a slice. -/
  | buildChain (h : MgmtHeader) (r : ChainReq)
  /-- R390: Tenant request that frees the chain on a slice. -/
  | freeChain (h : MgmtHeader) (slice : Nat)
  /-- R362: Tenant request that restarts a faulted handler with the same message and resumes the chain. -/
  | retryChain (h : MgmtHeader) (slice : Nat)
  /-- R362: Tenant request that declares the faulting message lost and resumes the chain. -/
  | discardMessage (h : MgmtHeader) (slice : Nat)
  /-- R390: Tenant request that registers a signing key. -/
  | registerKey (h : MgmtHeader) (id : Word) (key : List Byte)
  /-- R390: Tenant request that removes a signing key. -/
  | removeKey (h : MgmtHeader) (id : Word)
  /-- R390: Tenant request that binds a fabric endpoint to a port and UET address. -/
  | configureEndpoint (h : MgmtHeader) (index port : Nat) (uet : List Byte)
  /-- R93: Operator request that checks a signed microcode bundle for installation. -/
  | loadMicrocodeBundle (h : MgmtHeader) (bundle : List Byte)
  /-- R53: A checked bundle is installed in every core once no task runs and no image is inside a routine. -/
  | microcodeInstall
  /-- R92: Request that returns the accepted-class list with its hashes. -/
  | readAcceptedClasses (h : MgmtHeader)
  /-- R392: Request that returns a signed attestation report for a nonce. -/
  | attest (h : MgmtHeader) (nonce : List Byte)
  /-- R95: The loader checks a WOF file, selects an accepted text section and returns a load status. -/
  | loadObject (tenant : Nat) (file : LoadFile) (base : Word)
  /-- R391: The boot ROM checks the firmware, measures images and initialises every memory line. -/
  | powerOn
  /-- R20: IEEE 1588 messages discipline the nanosecond counter. -/
  | timeBaseSync (ns : Word)
  /-- R393: A die near its junction limit makes the management core lower the clock by a step and report it. -/
  | thermalClockStep (die : Nat)
  /-- R423: The management core fences a lost die, rehomes its lines, re-dispatches or fails its tasks and logs the loss. -/
  | dieLoss (die : Nat)
  /-- R180: The owning device of a remote page returns the data or acknowledgement of a remote access, which performs the load or store and frees its interlock entry. -/
  | owningDeviceAcknowledge (g : Agent) (k : Nat) (ok : Bool) (data : List Byte)
  /-- R343: A wait on a word of a remote page reads the word again every 10 us. -/
  | remoteWaitReread (g : Agent) (v : Word)
  /-- R390: A management request whose opcode is not in the table is answered with status 3. -/
  | unknownOpcode (h : MgmtHeader) (opcode : Nat)
  /-- R393: A supply rail leaves or returns to its range, and the module withdraws or presents link-up on its ports. -/
  | railOutOfRange (inRange : Bool)
  deriving DecidableEq, Repr

end Sys2Proof
end

