-- ==== Sys2Proof/WellFormed.lean ====
section
/-! DEFINITION. Which instructions are well formed: the ranges of R28, R44 and R45 that the types of the fields do not
already keep, `dt` without a mask and `vmerge` without a mask (R30, R41, R47 step 6). An event has no encoding and is
always well formed. -/

namespace Sys2Proof

/-- A mask register q0-q7 (R28). -/
def isMask (r : Reg) : Bool := decide (r.val < 8)
/-- A tile in a 7-bit field (R28). -/
def isTile (r : Reg) : Bool := decide (r.val < 4)
/-- A weight buffer (R28). -/
def isBuffer (r : Reg) : Bool := decide (r.val < 2)
/-- A copy tag (R28). -/
def isCopyTag (r : Reg) : Bool := decide (r.val < 64)
/-- A route tag (R28). -/
def isRouteTag (r : Reg) : Bool := decide (r.val < 8)
/-- `dt = 1` needs a mask (R30). -/
def dtOk (m : Fin 4) (dt : Bool) : Bool := !dt || decide (m.val ≠ 0)
/-- `vmerge` needs a mask (R41). -/
def masked (m : Fin 4) : Bool := decide (m.val ≠ 0)
/-- The amount of an immediate vector shift: bits 7:6 are zero (R27). -/
def shiftOk (i : BitVec 8) : Bool := decide (i.toNat < 64)
/-- The control registers whose writes have rows of their own: vstart, fflags and ctximg. -/
def ownRow (n : BitVec 10) : Bool := n == 0x002 || n == 0x006 || n == 0x02A
/-- The pairs of class and width code that vtype allows (R115): class 0 int, 1 nat, 2 ieee, 3 bf16, 4 e4m3, 5 e5m2,
6 bfp; width 0: 8, 1: 16, 2: 32, 3: 64. -/
def pairOk (cls sew : Nat) : Bool :=
  match cls with
  | 0 | 1 => decide (sew < 4)
  | 2 => decide (1 ≤ sew) && decide (sew < 4)
  | 3 => sew == 1
  | 4 | 5 | 6 => sew == 0
  | _ => false
/-- A type code of `vcvt` (R44): bits 6:5 zero, class 0-5, and a pair that vtype allows. -/
def typeCodeOk (b : Reg) : Bool :=
  decide (b.val < 32) && decide (b.val / 4 < 6) && pairOk (b.val / 4) (b.val % 4)
/-- A word of majors 0x3A-0x3F that is none of the twin words of R89. -/
def isPlainTrigger (w : Nat) : Bool :=
  decide (0xE8000000 ≤ w) && decide (w < 0x100000000) &&
  !(w / 0x4000000 == 0x3A && w % 2 == 1) &&
  !(w / 0x4000000 == 0x3B && w % 2 == 1) &&
  !(w / 0x4000000 == 0x3C && w % 32 == 5) &&
  !(w / 0x4000000 == 0x3D && (w % 4 == 1 || w % 4 == 2)) &&
  !(w / 0x4000000 == 0x3E && w % 4096 == 0xC && w / 0x80000 % 128 == 0)

/-- The checks of R47 step 6 that the fields of an instruction must pass. -/
def Instr.wf : Instr → Bool
  | .vset _ _ _ => true
  | .vsetl _ _ => true
  | .mset _ => true
  | .wbase _ => true
  | .vstrip _ _ => true
  | .vstripI _ _ => true
  | .vnext => true
  | .vmvXs _ _ _ => true
  | .vmvSx _ _ _ => true
  | .vbcst _ _ => true
  | .qset d _ => isMask d
  | .vpresq d _ => isMask d
  | .vaddVv _ _ _ m dt => dtOk m dt
  | .vsubVv _ _ _ m dt => dtOk m dt
  | .vrsubVv _ _ _ m dt => dtOk m dt
  | .vmulVv _ _ _ m dt => dtOk m dt
  | .vmulhVv _ _ _ m dt => dtOk m dt
  | .vdivVv _ _ _ m dt => dtOk m dt
  | .vremVv _ _ _ m dt => dtOk m dt
  | .vabsdVv _ _ _ m dt => dtOk m dt
  | .vminVv _ _ _ m dt => dtOk m dt
  | .vmaxVv _ _ _ m dt => dtOk m dt
  | .vsaddVv _ _ _ m dt => dtOk m dt
  | .vssubVv _ _ _ m dt => dtOk m dt
  | .vandVv _ _ _ m dt => dtOk m dt
  | .vorVv _ _ _ m dt => dtOk m dt
  | .vxorVv _ _ _ m dt => dtOk m dt
  | .vandnVv _ _ _ m dt => dtOk m dt
  | .vsllVv _ _ _ m dt => dtOk m dt
  | .vsrlVv _ _ _ m dt => dtOk m dt
  | .vsraVv _ _ _ m dt => dtOk m dt
  | .vsgnjVv _ _ _ m dt => dtOk m dt
  | .vfmaVv _ _ _ m dt => dtOk m dt
  | .vfmsVv _ _ _ m dt => dtOk m dt
  | .vfnmaVv _ _ _ m dt => dtOk m dt
  | .vmergeVv _ _ _ m dt => dtOk m dt && masked m
  | .vaddVx _ _ _ m dt => dtOk m dt
  | .vsubVx _ _ _ m dt => dtOk m dt
  | .vrsubVx _ _ _ m dt => dtOk m dt
  | .vmulVx _ _ _ m dt => dtOk m dt
  | .vmulhVx _ _ _ m dt => dtOk m dt
  | .vdivVx _ _ _ m dt => dtOk m dt
  | .vremVx _ _ _ m dt => dtOk m dt
  | .vabsdVx _ _ _ m dt => dtOk m dt
  | .vminVx _ _ _ m dt => dtOk m dt
  | .vmaxVx _ _ _ m dt => dtOk m dt
  | .vsaddVx _ _ _ m dt => dtOk m dt
  | .vssubVx _ _ _ m dt => dtOk m dt
  | .vandVx _ _ _ m dt => dtOk m dt
  | .vorVx _ _ _ m dt => dtOk m dt
  | .vxorVx _ _ _ m dt => dtOk m dt
  | .vandnVx _ _ _ m dt => dtOk m dt
  | .vsllVx _ _ _ m dt => dtOk m dt
  | .vsrlVx _ _ _ m dt => dtOk m dt
  | .vsraVx _ _ _ m dt => dtOk m dt
  | .vsgnjVx _ _ _ m dt => dtOk m dt
  | .vfmaVx _ _ _ m dt => dtOk m dt
  | .vfmsVx _ _ _ m dt => dtOk m dt
  | .vfnmaVx _ _ _ m dt => dtOk m dt
  | .vmergeVx _ _ _ m dt => dtOk m dt && masked m
  | .vaddi _ _ _ _ => true
  | .vslli _ _ i _ => shiftOk i
  | .vsrli _ _ i _ => shiftOk i
  | .vsrai _ _ i _ => shiftOk i
  | .vidx _ _ _ => true
  | .vbcsti _ _ => true
  | .veqVv d _ _ m dt => isMask d && dtOk m dt
  | .vneVv d _ _ m dt => isMask d && dtOk m dt
  | .vltVv d _ _ m dt => isMask d && dtOk m dt
  | .vle d _ _ m dt => isMask d && dtOk m dt
  | .veqVx d _ _ m dt => isMask d && dtOk m dt
  | .vneVx d _ _ m dt => isMask d && dtOk m dt
  | .vltVx d _ _ m dt => isMask d && dtOk m dt
  | .vge d _ _ m dt => isMask d && dtOk m dt
  | .vcompress _ _ b m dt => isMask b && dtOk m dt
  | .vexpand _ _ b m dt => isMask b && dtOk m dt
  | .vpick _ _ _ m dt => dtOk m dt
  | .vrev _ _ m dt => dtOk m dt
  | .vshup _ _ _ m dt => dtOk m dt
  | .vshdn _ _ _ m dt => dtOk m dt
  | .vinsup _ _ _ m dt => dtOk m dt
  | .vinsdn _ _ _ m dt => dtOk m dt
  | .vredsumO _ _ _ m dt => dtOk m dt
  | .vredsumT _ _ _ m dt => dtOk m dt
  | .vredmin _ _ _ m dt => dtOk m dt
  | .vredmax _ _ _ m dt => dtOk m dt
  | .qand d a b => isMask d && isMask a && isMask b
  | .qor d a b => isMask d && isMask a && isMask b
  | .qxor d a b => isMask d && isMask a && isMask b
  | .qandn d a b => isMask d && isMask a && isMask b
  | .qpopc _ a _ => isMask a
  | .qfirst _ a _ => isMask a
  | .vbitq d _ _ m dt => isMask d && dtOk m dt
  | .vpopc _ _ m dt => dtOk m dt
  | .vcvt _ _ b m dt => typeCodeOk b && dtOk m dt
  | .vtobfp _ _ _ m dt => dtOk m dt
  | .vfrombfp _ _ _ m dt => dtOk m dt
  | .vlog2 _ _ m dt => dtOk m dt
  | .vsqrt _ _ m dt => dtOk m dt
  | .vrcp _ _ m dt => dtOk m dt
  | .vrsqrt _ _ m dt => dtOk m dt
  | .vexp2 _ _ m dt => dtOk m dt
  | .vld _ _ m dt => dtOk m dt
  | .vldff _ _ m dt => dtOk m dt
  | .vst _ _ m dt => dtOk m dt
  | .vlds _ _ _ m dt => dtOk m dt
  | .vsts _ _ _ m dt => dtOk m dt
  | .vldx _ _ _ m dt => dtOk m dt
  | .vldxo _ _ _ m dt => dtOk m dt
  | .vstx _ _ _ m dt => dtOk m dt
  | .vstxo _ _ _ m dt => dtOk m dt
  | .vamoadd _ _ _ m dt => dtOk m dt
  | .vamomin _ _ _ m dt => dtOk m dt
  | .vamomax _ _ _ m dt => dtOk m dt
  | .vamoswap _ _ _ m dt => dtOk m dt
  | .vspld _ _ m dt => dtOk m dt
  | .vspst _ _ m dt => dtOk m dt
  | .vpst _ _ _ => true
  | .vpld _ _ _ => true
  | .cpls _ => true
  | .cpld _ => true
  | .cpgoMm d _ _ => isCopyTag d
  | .cpgoMs d _ _ => isCopyTag d
  | .cpgoSm d _ _ => isCopyTag d
  | .cpgoSs d _ _ => isCopyTag d
  | .cwany _ _ => true
  | .cwall _ => true
  | .cffr _ _ => true
  | .ctclr _ => true
  | .spool _ _ _ => true
  | .coll _ => true
  | .kvsel _ => true
  | .fsend d _ _ => isRouteTag d
  | .fdone => true
  | .vamocas d _ _ => decide (d.val ≠ 127)
  | .lpush _ _ => true
  | .wlpush _ _ => true
  | .wlins _ _ => true
  | .wlpop _ _ _ => true
  | .wlclose _ => true
  | .wlclear _ => true
  | .ccall _ _ _ => true
  | .cret => true
  | .elcat _ _ _ => true
  | .elfilt _ _ b => decide (b.val ≤ 126)
  | .elrebase _ _ b => decide (b.val ≤ 125)
  | .elapply _ => true
  | .eldrop _ => true
  | .elinfo _ _ => true
  | .elgrow _ _ => true
  | .mop _ _ _ _ => true
  | .mops _ _ _ _ _ => true
  | .mzero d => isTile d
  | .mfold d _ _ => isTile d
  | .mrd _ a _ => isTile a
  | .mwr d _ _ => isTile d
  | .mrdc _ a _ => isTile a
  | .mwl d _ _ => isBuffer d
  | .mstat _ => true
  | .mopm _ _ _ _ _ => true
  | .mvw _ _ b _ _ => isBuffer b
  | .add _ _ _ => true
  | .sub _ _ _ => true
  | .and _ _ _ => true
  | .or _ _ _ => true
  | .xor _ _ _ => true
  | .andn _ _ _ => true
  | .sll _ _ _ => true
  | .srl _ _ _ => true
  | .sra _ _ _ => true
  | .rot _ _ _ => true
  | .slt _ _ _ => true
  | .sltn _ _ _ => true
  | .min _ _ _ => true
  | .max _ _ _ => true
  | .minn _ _ _ => true
  | .maxn _ _ _ => true
  | .mul _ _ _ => true
  | .mulh _ _ _ => true
  | .mulhn _ _ _ => true
  | .div _ _ _ => true
  | .divn _ _ _ => true
  | .rem _ _ _ => true
  | .remn _ _ _ => true
  | .popc _ _ => true
  | .clz _ _ => true
  | .ctz _ _ => true
  | .sxb _ _ => true
  | .sxh _ _ => true
  | .sxw _ _ => true
  | .zxw _ _ => true
  | .bswap _ _ => true
  | .addi _ _ _ => true
  | .andi _ _ _ => true
  | .ori _ _ _ => true
  | .xori _ _ _ => true
  | .slli _ _ _ => true
  | .srli _ _ _ => true
  | .srai _ _ _ => true
  | .roti _ _ _ => true
  | .slti _ _ _ => true
  | .sltni _ _ _ => true
  | .lim _ _ => true
  | .pcrel _ _ => true
  | .ldB _ _ _ => true
  | .ldH _ _ _ => true
  | .ldW _ _ _ => true
  | .ldD _ _ _ => true
  | .ldBn _ _ _ => true
  | .ldHn _ _ _ => true
  | .ldWn _ _ _ => true
  | .stB _ _ _ => true
  | .stH _ _ _ => true
  | .stW _ _ _ => true
  | .stD _ _ _ => true
  | .beq _ _ _ => true
  | .bne _ _ _ => true
  | .blt _ _ _ => true
  | .bge _ _ _ => true
  | .bltn _ _ _ => true
  | .bgen _ _ _ => true
  | .jal _ _ => true
  | .jalr _ _ _ => true
  | .amoaddD _ _ _ => true
  | .amoandD _ _ _ => true
  | .amoorD _ _ _ => true
  | .amoxorD _ _ _ => true
  | .amominD _ _ _ => true
  | .amomaxD _ _ _ => true
  | .amominnD _ _ _ => true
  | .amomaxnD _ _ _ => true
  | .amoswapD _ _ _ => true
  | .amocasD _ _ _ => true
  | .amoaddW _ _ _ => true
  | .amoandW _ _ _ => true
  | .amoorW _ _ _ => true
  | .amoxorW _ _ _ => true
  | .amominW _ _ _ => true
  | .amomaxW _ _ _ => true
  | .amominnW _ _ _ => true
  | .amomaxnW _ _ _ => true
  | .amoswapW _ _ _ => true
  | .amocasW _ _ _ => true
  | .fenceSv => true
  | .fenceVs => true
  | .fenceRel => true
  | .fenceAcq => true
  | .fenceFull => true
  | .ifence => true
  | .bar _ => true
  | .waitNe _ _ => true
  | .waitGe _ _ => true
  | .yield => true
  | .park => true
  | .zline _ => true
  | .ctlRd _ _ => true
  | .ctlWr _ n => !ownRow n
  | .ctlWrVstart _ => true
  | .ctlWrFflags _ => true
  | .ctlWrCtximg _ => true
  | .trap => true
  | .rtr => true
  | .ecall => true
  | .halt => true
  | .stkvec _ => true
  | .unstkvec _ => true
  | .tlbinv _ => true
  | .icinv _ => true
  | .ldrule _ => true
  | .strule _ => true
  | .vtobfpTwin _ _ _ _ _ => true
  | .vfrombfpTwin _ _ _ _ _ => true
  | .kvselTwin _ => true
  | .mopsTwin _ _ _ _ _ => true
  | .mwlTwin _ _ _ => true
  | .mvwTwin _ _ _ _ _ => true
  | .ureject => true
  | .microcodeTrigger w => isPlainTrigger w.toNat
  | .exitAddressFetch => true
  | .elementFire _ _ _ => true
  | .spanHandover _ _ => true
  | .registerLineFill _ _ => true
  | .pageWalkComplete _ _ _ _ => true
  | .l1LineFill _ _ _ => true
  | .homeSliceStore _ => true
  | .storeAcknowledge _ => true
  | .l2MissFill _ _ _ => true
  | .capacityStorePerformed _ => true
  | .copyTransfer _ _ _ => true
  | .emptywaitTimeout _ _ _ => true
  | .mwlComplete _ _ => true
  | .spoolHeaderRead _ _ => true
  | .spoolBufferPartial _ _ _ _ => true
  | .spoolBagComplete _ _ _ => true
  | .kvselScoreMerge _ _ => true
  | .trapEntry _ => true
  | .preempt _ => true
  | .resumeTask _ _ => true
  | .parkWake _ => true
  | .parkTimeout _ => true
  | .barrierComplete _ _ => true
  | .barrierdead _ _ => true
  | .waitReread _ => true
  | .waitLimitExpiry _ => true
  | .notifyKick _ _ _ => true
  | .slotFetch _ _ => true
  | .queuePollTimer _ _ => true
  | .queueStallTimeout _ _ => true
  | .queueDrainEnd _ _ => true
  | .launchStartTime _ _ => true
  | .launchTriggerWrite _ _ _ => true
  | .launchDeadline _ _ => true
  | .dispatchTask _ _ => true
  | .fsendAccept _ _ => true
  | .handlerStart _ _ _ => true
  | .collChunkArrival _ _ _ _ _ => true
  | .collComplete _ _ => true
  | .collTimeout _ _ => true
  | .remoteAccessTimeout _ _ => true
  | .rmaWrite _ _ _ => true
  | .rmaRead _ _ _ => true
  | .rmaAtomic _ _ _ _ _ => true
  | .interruptDeliveryAck _ => true
  | .createTenant _ _ => true
  | .destroyTenant _ => true
  | .setWindow _ _ _ => true
  | .configureQueue _ _ _ => true
  | .destroyQueue _ _ => true
  | .buildChain _ _ => true
  | .freeChain _ _ => true
  | .retryChain _ _ => true
  | .discardMessage _ _ => true
  | .registerKey _ _ _ => true
  | .removeKey _ _ => true
  | .configureEndpoint _ _ _ _ => true
  | .loadMicrocodeBundle _ _ => true
  | .microcodeInstall => true
  | .readAcceptedClasses _ => true
  | .attest _ _ => true
  | .loadObject _ _ _ => true
  | .powerOn => true
  | .timeBaseSync _ => true
  | .thermalClockStep _ => true
  | .dieLoss _ => true
  | .owningDeviceAcknowledge _ _ _ _ => true
  | .remoteWaitReread _ _ => true
  | .unknownOpcode _ _ => true
  | .railOutOfRange _ => true

end Sys2Proof
end

