-- ==== Sys2Proof/Decode.lean ====
section
/-! DEFINITION. Decoding, total on any bytes (02_encoding.md R24-R48), and the encoder that inverts it. A word that is
no instruction is refused by the name of the step of R47 it fails; the machine raises ILLOP for each of them. -/

namespace Sys2Proof

/-- Why bytes are no instruction (R47). -/
inductive DecodeError where
  /-- Fewer bytes than the word, or the lim pair, takes. -/
  | short
  /-- Step 3: majors 0x00 and 0x39. -/
  | reservedMajor
  /-- Step 5: an fn, code12, function code or w value that names nothing. -/
  | unassignedSelector
  /-- Step 6: a must-be-zero field that is not zero (or a lim with d not zero, step 2). -/
  | nonzeroField
  /-- Step 6: a value outside its range, dt without a mask, or vmerge without a mask. -/
  | illFormed
  deriving DecidableEq, Repr

/-- What a decoder answers. -/
abbrev Decoded := Except DecodeError Instr

/-- The 7-bit register field of `w` whose lowest bit is `lo`. -/
def regAt (w lo : Nat) : Reg := ⟨w / 2 ^ lo % 128, Nat.mod_lt _ (by decide)⟩
/-- The 2-bit field of `w` whose lowest bit is `lo`. -/
def maskAt (w lo : Nat) : Fin 4 := ⟨w / 2 ^ lo % 4, Nat.mod_lt _ (by decide)⟩
/-- The bit `lo` of `w`. -/
def flagAt (w lo : Nat) : Bool := w / 2 ^ lo % 2 == 1
/-- The `n`-bit field of `w` whose lowest bit is `lo`. -/
def bitsAt (n w lo : Nat) : BitVec n := BitVec.ofNat n (w / 2 ^ lo)
/-- An instruction whose must-be-zero field, `width` bits of `w` from `lo`, is zero. -/
def tied (w lo width : Nat) (i : Instr) : Decoded :=
  if w / 2 ^ lo % 2 ^ width = 0 then .ok i else .error .nonzeroField

/-- Major 0x01 (R34). -/
def decodeAlu (w : Nat) : Decoded :=
  match w % 32 with
  | 0 => .ok (.add (regAt w 19) (regAt w 12) (regAt w 5))
  | 1 => .ok (.sub (regAt w 19) (regAt w 12) (regAt w 5))
  | 2 => .ok (.and (regAt w 19) (regAt w 12) (regAt w 5))
  | 3 => .ok (.or (regAt w 19) (regAt w 12) (regAt w 5))
  | 4 => .ok (.xor (regAt w 19) (regAt w 12) (regAt w 5))
  | 5 => .ok (.andn (regAt w 19) (regAt w 12) (regAt w 5))
  | 6 => .ok (.sll (regAt w 19) (regAt w 12) (regAt w 5))
  | 7 => .ok (.srl (regAt w 19) (regAt w 12) (regAt w 5))
  | 8 => .ok (.sra (regAt w 19) (regAt w 12) (regAt w 5))
  | 9 => .ok (.rot (regAt w 19) (regAt w 12) (regAt w 5))
  | 10 => .ok (.slt (regAt w 19) (regAt w 12) (regAt w 5))
  | 11 => .ok (.sltn (regAt w 19) (regAt w 12) (regAt w 5))
  | 12 => .ok (.min (regAt w 19) (regAt w 12) (regAt w 5))
  | 13 => .ok (.max (regAt w 19) (regAt w 12) (regAt w 5))
  | 14 => .ok (.minn (regAt w 19) (regAt w 12) (regAt w 5))
  | 15 => .ok (.maxn (regAt w 19) (regAt w 12) (regAt w 5))
  | 16 => .ok (.mul (regAt w 19) (regAt w 12) (regAt w 5))
  | 17 => .ok (.mulh (regAt w 19) (regAt w 12) (regAt w 5))
  | 18 => .ok (.mulhn (regAt w 19) (regAt w 12) (regAt w 5))
  | 19 => .ok (.div (regAt w 19) (regAt w 12) (regAt w 5))
  | 20 => .ok (.divn (regAt w 19) (regAt w 12) (regAt w 5))
  | 21 => .ok (.rem (regAt w 19) (regAt w 12) (regAt w 5))
  | 22 => .ok (.remn (regAt w 19) (regAt w 12) (regAt w 5))
  | 23 => tied w 5 7 (.popc (regAt w 19) (regAt w 12))
  | 24 => tied w 5 7 (.clz (regAt w 19) (regAt w 12))
  | 25 => tied w 5 7 (.ctz (regAt w 19) (regAt w 12))
  | 26 => tied w 5 7 (.sxb (regAt w 19) (regAt w 12))
  | 27 => tied w 5 7 (.sxh (regAt w 19) (regAt w 12))
  | 28 => tied w 5 7 (.sxw (regAt w 19) (regAt w 12))
  | 29 => tied w 5 7 (.zxw (regAt w 19) (regAt w 12))
  | 30 => tied w 5 7 (.bswap (regAt w 19) (regAt w 12))
  | _ => .error .unassignedSelector

/-- Major 0x06 (R36). -/
def decodeShift (w : Nat) : Decoded :=
  match w / 1024 % 4 with
  | 0 => tied w 6 4 (.slli (regAt w 19) (regAt w 12) (bitsAt 6 w 0))
  | 1 => tied w 6 4 (.srli (regAt w 19) (regAt w 12) (bitsAt 6 w 0))
  | 2 => tied w 6 4 (.srai (regAt w 19) (regAt w 12) (bitsAt 6 w 0))
  | 3 => tied w 6 4 (.roti (regAt w 19) (regAt w 12) (bitsAt 6 w 0))
  | _ => .error .unassignedSelector

/-- Major 0x0B (R36). -/
def decodeLoad (w : Nat) : Decoded :=
  match w / 512 % 8 with
  | 0 => .ok (.ldB (regAt w 19) (regAt w 12) (bitsAt 9 w 0))
  | 1 => .ok (.ldH (regAt w 19) (regAt w 12) (bitsAt 9 w 0))
  | 2 => .ok (.ldW (regAt w 19) (regAt w 12) (bitsAt 9 w 0))
  | 3 => .ok (.ldD (regAt w 19) (regAt w 12) (bitsAt 9 w 0))
  | 4 => .ok (.ldBn (regAt w 19) (regAt w 12) (bitsAt 9 w 0))
  | 5 => .ok (.ldHn (regAt w 19) (regAt w 12) (bitsAt 9 w 0))
  | 6 => .ok (.ldWn (regAt w 19) (regAt w 12) (bitsAt 9 w 0))
  | _ => .error .unassignedSelector

/-- Major 0x0C (R36). -/
def decodeStore (w : Nat) : Decoded :=
  match w / 512 % 8 with
  | 0 => .ok (.stB (regAt w 19) (regAt w 12) (bitsAt 9 w 0))
  | 1 => .ok (.stH (regAt w 19) (regAt w 12) (bitsAt 9 w 0))
  | 2 => .ok (.stW (regAt w 19) (regAt w 12) (bitsAt 9 w 0))
  | 3 => .ok (.stD (regAt w 19) (regAt w 12) (bitsAt 9 w 0))
  | _ => .error .unassignedSelector

/-- Major 0x15 (R35). -/
def decodeAtomic (w : Nat) : Decoded :=
  match w % 32 with
  | 0 => .ok (.amoaddD (regAt w 19) (regAt w 12) (regAt w 5))
  | 1 => .ok (.amoandD (regAt w 19) (regAt w 12) (regAt w 5))
  | 2 => .ok (.amoorD (regAt w 19) (regAt w 12) (regAt w 5))
  | 3 => .ok (.amoxorD (regAt w 19) (regAt w 12) (regAt w 5))
  | 4 => .ok (.amominD (regAt w 19) (regAt w 12) (regAt w 5))
  | 5 => .ok (.amomaxD (regAt w 19) (regAt w 12) (regAt w 5))
  | 6 => .ok (.amominnD (regAt w 19) (regAt w 12) (regAt w 5))
  | 7 => .ok (.amomaxnD (regAt w 19) (regAt w 12) (regAt w 5))
  | 8 => .ok (.amoswapD (regAt w 19) (regAt w 12) (regAt w 5))
  | 9 => .ok (.amocasD (regAt w 19) (regAt w 12) (regAt w 5))
  | 16 => .ok (.amoaddW (regAt w 19) (regAt w 12) (regAt w 5))
  | 17 => .ok (.amoandW (regAt w 19) (regAt w 12) (regAt w 5))
  | 18 => .ok (.amoorW (regAt w 19) (regAt w 12) (regAt w 5))
  | 19 => .ok (.amoxorW (regAt w 19) (regAt w 12) (regAt w 5))
  | 20 => .ok (.amominW (regAt w 19) (regAt w 12) (regAt w 5))
  | 21 => .ok (.amomaxW (regAt w 19) (regAt w 12) (regAt w 5))
  | 22 => .ok (.amominnW (regAt w 19) (regAt w 12) (regAt w 5))
  | 23 => .ok (.amomaxnW (regAt w 19) (regAt w 12) (regAt w 5))
  | 24 => .ok (.amoswapW (regAt w 19) (regAt w 12) (regAt w 5))
  | 25 => .ok (.amocasW (regAt w 19) (regAt w 12) (regAt w 5))
  | _ => .error .unassignedSelector

/-- Major 0x16 (R37). -/
noncomputable def decodeFence (w : Nat) : Decoded :=
  match w % 4096 with
  | 0x000 => tied w 12 14 .fenceSv
  | 0x001 => tied w 12 14 .fenceVs
  | 0x002 => tied w 12 14 .fenceRel
  | 0x003 => tied w 12 14 .fenceAcq
  | 0x004 => tied w 12 14 .fenceFull
  | 0x005 => tied w 12 14 .ifence
  | 0x010 => tied w 19 7 (.bar (regAt w 12))
  | 0x020 => .ok (.waitNe (regAt w 19) (regAt w 12))
  | 0x021 => .ok (.waitGe (regAt w 19) (regAt w 12))
  | 0x030 => tied w 12 14 .yield
  | 0x031 => tied w 12 14 .park
  | 0x050 => tied w 19 7 (.zline (regAt w 12))
  | _ => .error .unassignedSelector

/-- Major 0x17 (R38, R39): bits 11:10 divide control reads, control writes and the miscellaneous codes. The control
writes of vstart, fflags and ctximg have rows of their own. -/
noncomputable def decodeControl (w : Nat) : Decoded :=
  match w / 1024 % 4 with
  | 0 => tied w 12 7 (.ctlRd (regAt w 19) (bitsAt 10 w 0))
  | 1 =>
    match w % 1024 with
    | 0x002 => tied w 19 7 (.ctlWrVstart (regAt w 12))
    | 0x006 => tied w 19 7 (.ctlWrFflags (regAt w 12))
    | 0x02A => tied w 19 7 (.ctlWrCtximg (regAt w 12))
    | _ => tied w 19 7 (.ctlWr (regAt w 12) (bitsAt 10 w 0))
  | 2 =>
    match w % 1024 with
    | 0 => tied w 12 14 .trap
    | 1 => tied w 12 14 .rtr
    | 2 => tied w 12 14 .ecall
    | 3 => tied w 12 14 .halt
    | 4 => tied w 19 7 (.stkvec (regAt w 12))
    | 5 => tied w 19 7 (.unstkvec (regAt w 12))
    | 6 => tied w 19 7 (.tlbinv (regAt w 12))
    | 7 => tied w 19 7 (.icinv (regAt w 12))
    | 8 => tied w 19 7 (.ldrule (regAt w 12))
    | 9 => tied w 19 7 (.strule (regAt w 12))
    | _ => .error .unassignedSelector
  | _ => .error .unassignedSelector

/-- Major 0x18 (R42). -/
def decodeConfig (w : Nat) : Decoded :=
  match w % 32 with
  | 0 => .ok (.vset (regAt w 19) (regAt w 12) (regAt w 5))
  | 1 => tied w 5 7 (.vsetl (regAt w 19) (regAt w 12))
  | 2 => if w / 2 ^ 5 % 2 ^ 7 = 0 then tied w 19 7 (.mset (regAt w 12)) else .error .nonzeroField
  | 3 => if w / 2 ^ 5 % 2 ^ 7 = 0 then tied w 19 7 (.wbase (regAt w 12)) else .error .nonzeroField
  | 4 => tied w 5 7 (.vstrip (regAt w 19) (regAt w 12))
  | 5 => tied w 5 7 (.vstripI (regAt w 19) (regAt w 12))
  | 6 => tied w 5 21 .vnext
  | 7 => .ok (.vmvXs (regAt w 19) (regAt w 12) (regAt w 5))
  | 8 => .ok (.vmvSx (regAt w 19) (regAt w 12) (regAt w 5))
  | 9 => tied w 5 7 (.vbcst (regAt w 19) (regAt w 12))
  | 10 => tied w 5 7 (.qset (regAt w 19) (regAt w 12))
  | 12 => tied w 5 7 (.vpresq (regAt w 19) (regAt w 12))
  | _ => .error .unassignedSelector

/-- Major 0x19 (R41). -/
def decodeV19 (w : Nat) : Decoded :=
  match w % 4 with
  | 0 => .ok (.vaddVv (regAt w 19) (regAt w 12) (regAt w 5) (maskAt w 3) (flagAt w 2))
  | 1 => .ok (.vsubVv (regAt w 19) (regAt w 12) (regAt w 5) (maskAt w 3) (flagAt w 2))
  | 2 => .ok (.vrsubVv (regAt w 19) (regAt w 12) (regAt w 5) (maskAt w 3) (flagAt w 2))
  | 3 => .ok (.vmulVv (regAt w 19) (regAt w 12) (regAt w 5) (maskAt w 3) (flagAt w 2))
  | _ => .error .unassignedSelector

/-- Major 0x1A (R41). -/
def decodeV1A (w : Nat) : Decoded :=
  match w % 4 with
  | 0 => .ok (.vmulhVv (regAt w 19) (regAt w 12) (regAt w 5) (maskAt w 3) (flagAt w 2))
  | 1 => .ok (.vdivVv (regAt w 19) (regAt w 12) (regAt w 5) (maskAt w 3) (flagAt w 2))
  | 2 => .ok (.vremVv (regAt w 19) (regAt w 12) (regAt w 5) (maskAt w 3) (flagAt w 2))
  | 3 => .ok (.vabsdVv (regAt w 19) (regAt w 12) (regAt w 5) (maskAt w 3) (flagAt w 2))
  | _ => .error .unassignedSelector

/-- Major 0x1B (R41). -/
def decodeV1B (w : Nat) : Decoded :=
  match w % 4 with
  | 0 => .ok (.vminVv (regAt w 19) (regAt w 12) (regAt w 5) (maskAt w 3) (flagAt w 2))
  | 1 => .ok (.vmaxVv (regAt w 19) (regAt w 12) (regAt w 5) (maskAt w 3) (flagAt w 2))
  | 2 => .ok (.vsaddVv (regAt w 19) (regAt w 12) (regAt w 5) (maskAt w 3) (flagAt w 2))
  | 3 => .ok (.vssubVv (regAt w 19) (regAt w 12) (regAt w 5) (maskAt w 3) (flagAt w 2))
  | _ => .error .unassignedSelector

/-- Major 0x1C (R41). -/
def decodeV1C (w : Nat) : Decoded :=
  match w % 4 with
  | 0 => .ok (.vandVv (regAt w 19) (regAt w 12) (regAt w 5) (maskAt w 3) (flagAt w 2))
  | 1 => .ok (.vorVv (regAt w 19) (regAt w 12) (regAt w 5) (maskAt w 3) (flagAt w 2))
  | 2 => .ok (.vxorVv (regAt w 19) (regAt w 12) (regAt w 5) (maskAt w 3) (flagAt w 2))
  | 3 => .ok (.vandnVv (regAt w 19) (regAt w 12) (regAt w 5) (maskAt w 3) (flagAt w 2))
  | _ => .error .unassignedSelector

/-- Major 0x1D (R41). -/
def decodeV1D (w : Nat) : Decoded :=
  match w % 4 with
  | 0 => .ok (.vsllVv (regAt w 19) (regAt w 12) (regAt w 5) (maskAt w 3) (flagAt w 2))
  | 1 => .ok (.vsrlVv (regAt w 19) (regAt w 12) (regAt w 5) (maskAt w 3) (flagAt w 2))
  | 2 => .ok (.vsraVv (regAt w 19) (regAt w 12) (regAt w 5) (maskAt w 3) (flagAt w 2))
  | 3 => .ok (.vsgnjVv (regAt w 19) (regAt w 12) (regAt w 5) (maskAt w 3) (flagAt w 2))
  | _ => .error .unassignedSelector

/-- Major 0x1E (R41). -/
def decodeV1E (w : Nat) : Decoded :=
  match w % 4 with
  | 0 => .ok (.vfmaVv (regAt w 19) (regAt w 12) (regAt w 5) (maskAt w 3) (flagAt w 2))
  | 1 => .ok (.vfmsVv (regAt w 19) (regAt w 12) (regAt w 5) (maskAt w 3) (flagAt w 2))
  | 2 => .ok (.vfnmaVv (regAt w 19) (regAt w 12) (regAt w 5) (maskAt w 3) (flagAt w 2))
  | 3 => .ok (.vmergeVv (regAt w 19) (regAt w 12) (regAt w 5) (maskAt w 3) (flagAt w 2))
  | _ => .error .unassignedSelector

/-- Major 0x1F (R41). -/
def decodeV1F (w : Nat) : Decoded :=
  match w % 4 with
  | 0 => .ok (.vaddVx (regAt w 19) (regAt w 12) (regAt w 5) (maskAt w 3) (flagAt w 2))
  | 1 => .ok (.vsubVx (regAt w 19) (regAt w 12) (regAt w 5) (maskAt w 3) (flagAt w 2))
  | 2 => .ok (.vrsubVx (regAt w 19) (regAt w 12) (regAt w 5) (maskAt w 3) (flagAt w 2))
  | 3 => .ok (.vmulVx (regAt w 19) (regAt w 12) (regAt w 5) (maskAt w 3) (flagAt w 2))
  | _ => .error .unassignedSelector

/-- Major 0x20 (R41). -/
def decodeV20 (w : Nat) : Decoded :=
  match w % 4 with
  | 0 => .ok (.vmulhVx (regAt w 19) (regAt w 12) (regAt w 5) (maskAt w 3) (flagAt w 2))
  | 1 => .ok (.vdivVx (regAt w 19) (regAt w 12) (regAt w 5) (maskAt w 3) (flagAt w 2))
  | 2 => .ok (.vremVx (regAt w 19) (regAt w 12) (regAt w 5) (maskAt w 3) (flagAt w 2))
  | 3 => .ok (.vabsdVx (regAt w 19) (regAt w 12) (regAt w 5) (maskAt w 3) (flagAt w 2))
  | _ => .error .unassignedSelector

/-- Major 0x21 (R41). -/
def decodeV21 (w : Nat) : Decoded :=
  match w % 4 with
  | 0 => .ok (.vminVx (regAt w 19) (regAt w 12) (regAt w 5) (maskAt w 3) (flagAt w 2))
  | 1 => .ok (.vmaxVx (regAt w 19) (regAt w 12) (regAt w 5) (maskAt w 3) (flagAt w 2))
  | 2 => .ok (.vsaddVx (regAt w 19) (regAt w 12) (regAt w 5) (maskAt w 3) (flagAt w 2))
  | 3 => .ok (.vssubVx (regAt w 19) (regAt w 12) (regAt w 5) (maskAt w 3) (flagAt w 2))
  | _ => .error .unassignedSelector

/-- Major 0x22 (R41). -/
def decodeV22 (w : Nat) : Decoded :=
  match w % 4 with
  | 0 => .ok (.vandVx (regAt w 19) (regAt w 12) (regAt w 5) (maskAt w 3) (flagAt w 2))
  | 1 => .ok (.vorVx (regAt w 19) (regAt w 12) (regAt w 5) (maskAt w 3) (flagAt w 2))
  | 2 => .ok (.vxorVx (regAt w 19) (regAt w 12) (regAt w 5) (maskAt w 3) (flagAt w 2))
  | 3 => .ok (.vandnVx (regAt w 19) (regAt w 12) (regAt w 5) (maskAt w 3) (flagAt w 2))
  | _ => .error .unassignedSelector

/-- Major 0x23 (R41). -/
def decodeV23 (w : Nat) : Decoded :=
  match w % 4 with
  | 0 => .ok (.vsllVx (regAt w 19) (regAt w 12) (regAt w 5) (maskAt w 3) (flagAt w 2))
  | 1 => .ok (.vsrlVx (regAt w 19) (regAt w 12) (regAt w 5) (maskAt w 3) (flagAt w 2))
  | 2 => .ok (.vsraVx (regAt w 19) (regAt w 12) (regAt w 5) (maskAt w 3) (flagAt w 2))
  | 3 => .ok (.vsgnjVx (regAt w 19) (regAt w 12) (regAt w 5) (maskAt w 3) (flagAt w 2))
  | _ => .error .unassignedSelector

/-- Major 0x24 (R41). -/
def decodeV24 (w : Nat) : Decoded :=
  match w % 4 with
  | 0 => .ok (.vfmaVx (regAt w 19) (regAt w 12) (regAt w 5) (maskAt w 3) (flagAt w 2))
  | 1 => .ok (.vfmsVx (regAt w 19) (regAt w 12) (regAt w 5) (maskAt w 3) (flagAt w 2))
  | 2 => .ok (.vfnmaVx (regAt w 19) (regAt w 12) (regAt w 5) (maskAt w 3) (flagAt w 2))
  | 3 => .ok (.vmergeVx (regAt w 19) (regAt w 12) (regAt w 5) (maskAt w 3) (flagAt w 2))
  | _ => .error .unassignedSelector

/-- Major 0x25 (R41). -/
def decodeV25 (w : Nat) : Decoded :=
  match w % 4 with
  | 0 => .ok (.vaddi (regAt w 19) (regAt w 12) (bitsAt 8 w 4) (maskAt w 2))
  | 1 => .ok (.vslli (regAt w 19) (regAt w 12) (bitsAt 8 w 4) (maskAt w 2))
  | 2 => .ok (.vsrli (regAt w 19) (regAt w 12) (bitsAt 8 w 4) (maskAt w 2))
  | 3 => .ok (.vsrai (regAt w 19) (regAt w 12) (bitsAt 8 w 4) (maskAt w 2))
  | _ => .error .unassignedSelector

/-- Major 0x26 (R41). -/
def decodeIndex (w : Nat) : Decoded :=
  match w % 8 with
  | 0 => .ok (.vidx (regAt w 19) (bitsAt 8 w 11) (bitsAt 8 w 3))
  | 1 => tied w 3 8 (.vbcsti (regAt w 19) (bitsAt 8 w 11))
  | _ => .error .unassignedSelector

/-- Major 0x27 (R41). -/
def decodeV27 (w : Nat) : Decoded :=
  match w % 4 with
  | 0 => .ok (.veqVv (regAt w 19) (regAt w 12) (regAt w 5) (maskAt w 3) (flagAt w 2))
  | 1 => .ok (.vneVv (regAt w 19) (regAt w 12) (regAt w 5) (maskAt w 3) (flagAt w 2))
  | 2 => .ok (.vltVv (regAt w 19) (regAt w 12) (regAt w 5) (maskAt w 3) (flagAt w 2))
  | 3 => .ok (.vle (regAt w 19) (regAt w 12) (regAt w 5) (maskAt w 3) (flagAt w 2))
  | _ => .error .unassignedSelector

/-- Major 0x28 (R41). -/
def decodeV28 (w : Nat) : Decoded :=
  match w % 4 with
  | 0 => .ok (.veqVx (regAt w 19) (regAt w 12) (regAt w 5) (maskAt w 3) (flagAt w 2))
  | 1 => .ok (.vneVx (regAt w 19) (regAt w 12) (regAt w 5) (maskAt w 3) (flagAt w 2))
  | 2 => .ok (.vltVx (regAt w 19) (regAt w 12) (regAt w 5) (maskAt w 3) (flagAt w 2))
  | 3 => .ok (.vge (regAt w 19) (regAt w 12) (regAt w 5) (maskAt w 3) (flagAt w 2))
  | _ => .error .unassignedSelector

/-- Major 0x29 (R41). -/
def decodeV29 (w : Nat) : Decoded :=
  match w % 4 with
  | 0 => .ok (.vcompress (regAt w 19) (regAt w 12) (regAt w 5) (maskAt w 3) (flagAt w 2))
  | 1 => .ok (.vexpand (regAt w 19) (regAt w 12) (regAt w 5) (maskAt w 3) (flagAt w 2))
  | 2 => .ok (.vpick (regAt w 19) (regAt w 12) (regAt w 5) (maskAt w 3) (flagAt w 2))
  | 3 => tied w 5 7 (.vrev (regAt w 19) (regAt w 12) (maskAt w 3) (flagAt w 2))
  | _ => .error .unassignedSelector

/-- Major 0x2A (R41). -/
def decodeV2A (w : Nat) : Decoded :=
  match w % 4 with
  | 0 => .ok (.vshup (regAt w 19) (regAt w 12) (regAt w 5) (maskAt w 3) (flagAt w 2))
  | 1 => .ok (.vshdn (regAt w 19) (regAt w 12) (regAt w 5) (maskAt w 3) (flagAt w 2))
  | 2 => .ok (.vinsup (regAt w 19) (regAt w 12) (regAt w 5) (maskAt w 3) (flagAt w 2))
  | 3 => .ok (.vinsdn (regAt w 19) (regAt w 12) (regAt w 5) (maskAt w 3) (flagAt w 2))
  | _ => .error .unassignedSelector

/-- Major 0x2B (R41). -/
def decodeV2B (w : Nat) : Decoded :=
  match w % 4 with
  | 0 => .ok (.vredsumO (regAt w 19) (regAt w 12) (regAt w 5) (maskAt w 3) (flagAt w 2))
  | 1 => .ok (.vredsumT (regAt w 19) (regAt w 12) (regAt w 5) (maskAt w 3) (flagAt w 2))
  | 2 => .ok (.vredmin (regAt w 19) (regAt w 12) (regAt w 5) (maskAt w 3) (flagAt w 2))
  | 3 => .ok (.vredmax (regAt w 19) (regAt w 12) (regAt w 5) (maskAt w 3) (flagAt w 2))
  | _ => .error .unassignedSelector

/-- Major 0x2C (R41). -/
def decodeV2C (w : Nat) : Decoded :=
  match w % 4 with
  | 0 => tied w 2 3 (.qand (regAt w 19) (regAt w 12) (regAt w 5))
  | 1 => tied w 2 3 (.qor (regAt w 19) (regAt w 12) (regAt w 5))
  | 2 => tied w 2 3 (.qxor (regAt w 19) (regAt w 12) (regAt w 5))
  | 3 => tied w 2 3 (.qandn (regAt w 19) (regAt w 12) (regAt w 5))
  | _ => .error .unassignedSelector

/-- Major 0x2D (R41). -/
def decodeV2D (w : Nat) : Decoded :=
  match w % 4 with
  | 0 => if w / 2 ^ 2 % 2 ^ 1 = 0 then tied w 5 7 (.qpopc (regAt w 19) (regAt w 12) (maskAt w 3)) else .error .nonzeroField
  | 1 => if w / 2 ^ 2 % 2 ^ 1 = 0 then tied w 5 7 (.qfirst (regAt w 19) (regAt w 12) (maskAt w 3)) else .error .nonzeroField
  | 2 => .ok (.vbitq (regAt w 19) (regAt w 12) (regAt w 5) (maskAt w 3) (flagAt w 2))
  | 3 => tied w 5 7 (.vpopc (regAt w 19) (regAt w 12) (maskAt w 3) (flagAt w 2))
  | _ => .error .unassignedSelector

/-- Major 0x2E (R41). -/
def decodeV2E (w : Nat) : Decoded :=
  match w % 4 with
  | 0 => .ok (.vcvt (regAt w 19) (regAt w 12) (regAt w 5) (maskAt w 3) (flagAt w 2))
  | 1 => .ok (.vtobfp (regAt w 19) (regAt w 12) (regAt w 5) (maskAt w 3) (flagAt w 2))
  | 2 => .ok (.vfrombfp (regAt w 19) (regAt w 12) (regAt w 5) (maskAt w 3) (flagAt w 2))
  | 3 => tied w 5 7 (.vlog2 (regAt w 19) (regAt w 12) (maskAt w 3) (flagAt w 2))
  | _ => .error .unassignedSelector

/-- Major 0x2F (R41). -/
def decodeV2F (w : Nat) : Decoded :=
  match w % 4 with
  | 0 => tied w 5 7 (.vsqrt (regAt w 19) (regAt w 12) (maskAt w 3) (flagAt w 2))
  | 1 => tied w 5 7 (.vrcp (regAt w 19) (regAt w 12) (maskAt w 3) (flagAt w 2))
  | 2 => tied w 5 7 (.vrsqrt (regAt w 19) (regAt w 12) (maskAt w 3) (flagAt w 2))
  | 3 => tied w 5 7 (.vexp2 (regAt w 19) (regAt w 12) (maskAt w 3) (flagAt w 2))
  | _ => .error .unassignedSelector

/-- Major 0x30 (R43). -/
def decodeV30 (w : Nat) : Decoded :=
  match w % 4 with
  | 0 => tied w 5 7 (.vld (regAt w 19) (regAt w 12) (maskAt w 3) (flagAt w 2))
  | 1 => tied w 5 7 (.vldff (regAt w 19) (regAt w 12) (maskAt w 3) (flagAt w 2))
  | 2 => tied w 5 7 (.vst (regAt w 19) (regAt w 12) (maskAt w 3) (flagAt w 2))
  | _ => .error .unassignedSelector

/-- Major 0x31 (R43). -/
def decodeV31 (w : Nat) : Decoded :=
  match w % 4 with
  | 0 => .ok (.vlds (regAt w 19) (regAt w 12) (regAt w 5) (maskAt w 3) (flagAt w 2))
  | 2 => .ok (.vsts (regAt w 19) (regAt w 12) (regAt w 5) (maskAt w 3) (flagAt w 2))
  | _ => .error .unassignedSelector

/-- Major 0x32 (R43). -/
def decodeV32 (w : Nat) : Decoded :=
  match w % 4 with
  | 0 => .ok (.vldx (regAt w 19) (regAt w 12) (regAt w 5) (maskAt w 3) (flagAt w 2))
  | 1 => .ok (.vldxo (regAt w 19) (regAt w 12) (regAt w 5) (maskAt w 3) (flagAt w 2))
  | 2 => .ok (.vstx (regAt w 19) (regAt w 12) (regAt w 5) (maskAt w 3) (flagAt w 2))
  | 3 => .ok (.vstxo (regAt w 19) (regAt w 12) (regAt w 5) (maskAt w 3) (flagAt w 2))
  | _ => .error .unassignedSelector

/-- Major 0x33 (R43). -/
def decodeV33 (w : Nat) : Decoded :=
  match w % 4 with
  | 0 => .ok (.vamoadd (regAt w 19) (regAt w 12) (regAt w 5) (maskAt w 3) (flagAt w 2))
  | 1 => .ok (.vamomin (regAt w 19) (regAt w 12) (regAt w 5) (maskAt w 3) (flagAt w 2))
  | 2 => .ok (.vamomax (regAt w 19) (regAt w 12) (regAt w 5) (maskAt w 3) (flagAt w 2))
  | 3 => .ok (.vamoswap (regAt w 19) (regAt w 12) (regAt w 5) (maskAt w 3) (flagAt w 2))
  | _ => .error .unassignedSelector

/-- Major 0x34 (R43). -/
def decodeV34 (w : Nat) : Decoded :=
  match w % 4 with
  | 0 => tied w 5 7 (.vspld (regAt w 19) (regAt w 12) (maskAt w 3) (flagAt w 2))
  | 1 => tied w 5 7 (.vspst (regAt w 19) (regAt w 12) (maskAt w 3) (flagAt w 2))
  | 2 => tied w 2 3 (.vpst (regAt w 19) (regAt w 12) (regAt w 5))
  | 3 => tied w 2 3 (.vpld (regAt w 19) (regAt w 12) (regAt w 5))
  | _ => .error .unassignedSelector

/-- Major 0x35 (R45). -/
def decodeEngine (w : Nat) : Decoded :=
  match w % 32 with
  | 0 => if w / 2 ^ 5 % 2 ^ 7 = 0 then tied w 19 7 (.cpls (regAt w 12)) else .error .nonzeroField
  | 1 => if w / 2 ^ 5 % 2 ^ 7 = 0 then tied w 19 7 (.cpld (regAt w 12)) else .error .nonzeroField
  | 2 => .ok (.cpgoMm (regAt w 19) (regAt w 12) (regAt w 5))
  | 3 => .ok (.cpgoMs (regAt w 19) (regAt w 12) (regAt w 5))
  | 4 => .ok (.cpgoSm (regAt w 19) (regAt w 12) (regAt w 5))
  | 5 => .ok (.cpgoSs (regAt w 19) (regAt w 12) (regAt w 5))
  | 6 => tied w 5 7 (.cwany (regAt w 19) (regAt w 12))
  | 7 => if w / 2 ^ 5 % 2 ^ 7 = 0 then tied w 19 7 (.cwall (regAt w 12)) else .error .nonzeroField
  | 8 => tied w 5 7 (.cffr (regAt w 19) (regAt w 12))
  | 9 => if w / 2 ^ 5 % 2 ^ 7 = 0 then tied w 19 7 (.ctclr (regAt w 12)) else .error .nonzeroField
  | 10 => .ok (.spool (regAt w 19) (regAt w 12) (regAt w 5))
  | 11 => if w / 2 ^ 5 % 2 ^ 7 = 0 then tied w 19 7 (.coll (regAt w 12)) else .error .nonzeroField
  | 12 => if w / 2 ^ 5 % 2 ^ 7 = 0 then tied w 19 7 (.kvsel (regAt w 12)) else .error .nonzeroField
  | 13 => .ok (.fsend (regAt w 19) (regAt w 12) (regAt w 5))
  | 14 => tied w 5 21 .fdone
  | 15 => .ok (.vamocas (regAt w 19) (regAt w 12) (regAt w 5))
  | 16 => tied w 19 7 (.lpush (regAt w 12) (regAt w 5))
  | 17 => tied w 19 7 (.wlpush (regAt w 12) (regAt w 5))
  | 18 => tied w 19 7 (.wlins (regAt w 12) (regAt w 5))
  | 19 => .ok (.wlpop (regAt w 19) (regAt w 12) (regAt w 5))
  | 20 => if w / 2 ^ 5 % 2 ^ 7 = 0 then tied w 19 7 (.wlclose (regAt w 12)) else .error .nonzeroField
  | 21 => if w / 2 ^ 5 % 2 ^ 7 = 0 then tied w 19 7 (.wlclear (regAt w 12)) else .error .nonzeroField
  | 22 => .ok (.ccall (regAt w 19) (regAt w 12) (regAt w 5))
  | 23 => tied w 5 21 .cret
  | 24 => .ok (.elcat (regAt w 19) (regAt w 12) (regAt w 5))
  | 25 => .ok (.elfilt (regAt w 19) (regAt w 12) (regAt w 5))
  | 26 => .ok (.elrebase (regAt w 19) (regAt w 12) (regAt w 5))
  | 27 => if w / 2 ^ 5 % 2 ^ 7 = 0 then tied w 19 7 (.elapply (regAt w 12)) else .error .nonzeroField
  | 28 => if w / 2 ^ 5 % 2 ^ 7 = 0 then tied w 19 7 (.eldrop (regAt w 12)) else .error .nonzeroField
  | 29 => tied w 5 7 (.elinfo (regAt w 19) (regAt w 12))
  | 30 => tied w 19 7 (.elgrow (regAt w 12) (regAt w 5))
  | _ => .error .unassignedSelector

/-- Major 0x36 (R46). -/
def decodeProduct (w : Nat) : Decoded :=
  match w % 2 with
  | 0 => tied w 3 7 (.mop (maskAt w 24) (regAt w 17) (regAt w 10) (maskAt w 1))
  | 1 => .ok (.mops (maskAt w 24) (regAt w 17) (regAt w 10) (regAt w 3) (maskAt w 1))
  | _ => .error .unassignedSelector

/-- Major 0x37 (R46). -/
def decodeTile (w : Nat) : Decoded :=
  match w % 32 with
  | 0 => tied w 5 14 (.mzero (regAt w 19))
  | 1 => .ok (.mfold (regAt w 19) (regAt w 12) (regAt w 5))
  | 2 => .ok (.mrd (regAt w 19) (regAt w 12) (regAt w 5))
  | 3 => .ok (.mwr (regAt w 19) (regAt w 12) (regAt w 5))
  | 4 => .ok (.mrdc (regAt w 19) (regAt w 12) (regAt w 5))
  | 5 => .ok (.mwl (regAt w 19) (regAt w 12) (regAt w 5))
  | 6 => tied w 5 14 (.mstat (regAt w 19))
  | _ => .error .unassignedSelector

/-- Major 0x38 (R46). -/
def decodeProductMem (w : Nat) : Decoded :=
  match w % 2 with
  | 0 => .ok (.mopm (maskAt w 24) (regAt w 17) (regAt w 10) (regAt w 3) (maskAt w 1))
  | 1 => .ok (.mvw (maskAt w 24) (regAt w 17) (regAt w 10) (regAt w 3) (maskAt w 1))
  | _ => .error .unassignedSelector

/-- Majors 0x3A-0x3F (R49, R89): the twin words, and every other word as a plain trigger. The hardware checks no field of
a triggering word. -/
noncomputable def decodeTrigger (w : Nat) : Decoded :=
  if isPlainTrigger w then .ok (.microcodeTrigger (bitsAt 32 w 0)) else
  match w / 0x4000000 with
  | 0x3A => .ok (.mopsTwin (maskAt w 24) (regAt w 17) (regAt w 10) (regAt w 3) (maskAt w 1))
  | 0x3B => .ok (.mvwTwin (maskAt w 24) (regAt w 17) (regAt w 10) (regAt w 3) (maskAt w 1))
  | 0x3C => .ok (.mwlTwin (regAt w 19) (regAt w 12) (regAt w 5))
  | 0x3D => if w % 4 = 1 then .ok (.vtobfpTwin (regAt w 19) (regAt w 12) (regAt w 5) (maskAt w 3) (flagAt w 2)) else .ok (.vfrombfpTwin (regAt w 19) (regAt w 12) (regAt w 5) (maskAt w 3) (flagAt w 2))
  | 0x3E => .ok (.kvselTwin (regAt w 12))
  | _ => .error .reservedMajor

/-- The words of majors 0x18-0x38 (R41-R46): vector, engine and matrix instructions. -/
def decodeVector (w : Nat) : Decoded :=
  match w / 0x4000000 with
  | 0x18 => decodeConfig w
  | 0x19 => decodeV19 w
  | 0x1A => decodeV1A w
  | 0x1B => decodeV1B w
  | 0x1C => decodeV1C w
  | 0x1D => decodeV1D w
  | 0x1E => decodeV1E w
  | 0x1F => decodeV1F w
  | 0x20 => decodeV20 w
  | 0x21 => decodeV21 w
  | 0x22 => decodeV22 w
  | 0x23 => decodeV23 w
  | 0x24 => decodeV24 w
  | 0x25 => decodeV25 w
  | 0x26 => decodeIndex w
  | 0x27 => decodeV27 w
  | 0x28 => decodeV28 w
  | 0x29 => decodeV29 w
  | 0x2A => decodeV2A w
  | 0x2B => decodeV2B w
  | 0x2C => decodeV2C w
  | 0x2D => decodeV2D w
  | 0x2E => decodeV2E w
  | 0x2F => decodeV2F w
  | 0x30 => decodeV30 w
  | 0x31 => decodeV31 w
  | 0x32 => decodeV32 w
  | 0x33 => decodeV33 w
  | 0x34 => decodeV34 w
  | 0x35 => decodeEngine w
  | 0x36 => decodeProduct w
  | 0x37 => decodeTile w
  | 0x38 => decodeProductMem w
  | _ => .error .reservedMajor

/-- The fields of one word (R33-R46), before the range checks of `Instr.wf`. `partner` is the word after it, which only
a lim reads (R31). The one word of major 0x39 that a routine may hold is the rejection word (R52). -/
noncomputable def decodeFields (w partner : Nat) : Decoded :=
  match w / 0x4000000 with
  | 0x09 => tied w 19 7 (.lim (bitsAt 19 w 0) (bitsAt 32 partner 0))
  | 0x39 => if w = 0xE4000000 then .ok .ureject else .error .reservedMajor
  | 0x01 => decodeAlu w
  | 0x02 => .ok (.addi (regAt w 19) (regAt w 12) (bitsAt 12 w 0))
  | 0x03 => .ok (.andi (regAt w 19) (regAt w 12) (bitsAt 12 w 0))
  | 0x04 => .ok (.ori (regAt w 19) (regAt w 12) (bitsAt 12 w 0))
  | 0x05 => .ok (.xori (regAt w 19) (regAt w 12) (bitsAt 12 w 0))
  | 0x06 => decodeShift w
  | 0x07 => .ok (.slti (regAt w 19) (regAt w 12) (bitsAt 12 w 0))
  | 0x08 => .ok (.sltni (regAt w 19) (regAt w 12) (bitsAt 12 w 0))
  | 0x0A => .ok (.pcrel (regAt w 19) (bitsAt 19 w 0))
  | 0x0B => decodeLoad w
  | 0x0C => decodeStore w
  | 0x0D => .ok (.beq (regAt w 19) (regAt w 12) (bitsAt 12 w 0))
  | 0x0E => .ok (.bne (regAt w 19) (regAt w 12) (bitsAt 12 w 0))
  | 0x0F => .ok (.blt (regAt w 19) (regAt w 12) (bitsAt 12 w 0))
  | 0x10 => .ok (.bge (regAt w 19) (regAt w 12) (bitsAt 12 w 0))
  | 0x11 => .ok (.bltn (regAt w 19) (regAt w 12) (bitsAt 12 w 0))
  | 0x12 => .ok (.bgen (regAt w 19) (regAt w 12) (bitsAt 12 w 0))
  | 0x13 => .ok (.jal (regAt w 19) (bitsAt 19 w 0))
  | 0x14 => .ok (.jalr (regAt w 19) (regAt w 12) (bitsAt 12 w 0))
  | 0x15 => decodeAtomic w
  | 0x16 => decodeFence w
  | 0x17 => decodeControl w
  | 0x00 => .error .reservedMajor
  | major => if major < 0x39 then decodeVector w else decodeTrigger w

/-- One instruction from a word and the word that follows it (R47 steps 2-6). -/
noncomputable def decodePair (w partner : Nat) : Decoded :=
  match decodeFields w partner with
  | .error e => .error e
  | .ok i => if i.wf then .ok i else .error .illFormed

/-- Whether the word is a lim, which takes the next word with it (R31). -/
def isLim (w : Nat) : Bool := w / 0x4000000 == 0x09

/-- One instruction from the front of a list of bytes, with the bytes that follow it. -/
noncomputable def decode : List Byte → Except DecodeError (Instr × List Byte)
  | a :: b :: c :: d :: rest =>
    let w := ofBytes [a, b, c, d]
    if isLim w then
      match rest with
      | e :: f :: g :: h :: rest' => (decodePair w (ofBytes [e, f, g, h])).map fun i => (i, rest')
      | _ => .error .short
    else (decodePair w 0).map fun i => (i, rest)
  | _ => .error .short

/-- The number of a flag bit. -/
def flagBit (b : Bool) : Nat := if b then 1 else 0

/-- The words of an instruction, from the encoding tables R26 and R34-R46; an event has none. -/
def encode : Instr → List Nat
  | .vset d a b => [0x60000000 + d.val * 524288 + a.val * 4096 + b.val * 32]
  | .vsetl d a => [0x60000001 + d.val * 524288 + a.val * 4096]
  | .mset a => [0x60000002 + a.val * 4096]
  | .wbase a => [0x60000003 + a.val * 4096]
  | .vstrip d a => [0x60000004 + d.val * 524288 + a.val * 4096]
  | .vstripI d a => [0x60000005 + d.val * 524288 + a.val * 4096]
  | .vnext => [0x60000006]
  | .vmvXs d a b => [0x60000007 + d.val * 524288 + a.val * 4096 + b.val * 32]
  | .vmvSx d a b => [0x60000008 + d.val * 524288 + a.val * 4096 + b.val * 32]
  | .vbcst d a => [0x60000009 + d.val * 524288 + a.val * 4096]
  | .qset d a => [0x6000000A + d.val * 524288 + a.val * 4096]
  | .vpresq d a => [0x6000000C + d.val * 524288 + a.val * 4096]
  | .vaddVv d a b m dt => [0x64000000 + d.val * 524288 + a.val * 4096 + b.val * 32 + m.val * 8 + flagBit dt * 4]
  | .vsubVv d a b m dt => [0x64000001 + d.val * 524288 + a.val * 4096 + b.val * 32 + m.val * 8 + flagBit dt * 4]
  | .vrsubVv d a b m dt => [0x64000002 + d.val * 524288 + a.val * 4096 + b.val * 32 + m.val * 8 + flagBit dt * 4]
  | .vmulVv d a b m dt => [0x64000003 + d.val * 524288 + a.val * 4096 + b.val * 32 + m.val * 8 + flagBit dt * 4]
  | .vmulhVv d a b m dt => [0x68000000 + d.val * 524288 + a.val * 4096 + b.val * 32 + m.val * 8 + flagBit dt * 4]
  | .vdivVv d a b m dt => [0x68000001 + d.val * 524288 + a.val * 4096 + b.val * 32 + m.val * 8 + flagBit dt * 4]
  | .vremVv d a b m dt => [0x68000002 + d.val * 524288 + a.val * 4096 + b.val * 32 + m.val * 8 + flagBit dt * 4]
  | .vabsdVv d a b m dt => [0x68000003 + d.val * 524288 + a.val * 4096 + b.val * 32 + m.val * 8 + flagBit dt * 4]
  | .vminVv d a b m dt => [0x6C000000 + d.val * 524288 + a.val * 4096 + b.val * 32 + m.val * 8 + flagBit dt * 4]
  | .vmaxVv d a b m dt => [0x6C000001 + d.val * 524288 + a.val * 4096 + b.val * 32 + m.val * 8 + flagBit dt * 4]
  | .vsaddVv d a b m dt => [0x6C000002 + d.val * 524288 + a.val * 4096 + b.val * 32 + m.val * 8 + flagBit dt * 4]
  | .vssubVv d a b m dt => [0x6C000003 + d.val * 524288 + a.val * 4096 + b.val * 32 + m.val * 8 + flagBit dt * 4]
  | .vandVv d a b m dt => [0x70000000 + d.val * 524288 + a.val * 4096 + b.val * 32 + m.val * 8 + flagBit dt * 4]
  | .vorVv d a b m dt => [0x70000001 + d.val * 524288 + a.val * 4096 + b.val * 32 + m.val * 8 + flagBit dt * 4]
  | .vxorVv d a b m dt => [0x70000002 + d.val * 524288 + a.val * 4096 + b.val * 32 + m.val * 8 + flagBit dt * 4]
  | .vandnVv d a b m dt => [0x70000003 + d.val * 524288 + a.val * 4096 + b.val * 32 + m.val * 8 + flagBit dt * 4]
  | .vsllVv d a b m dt => [0x74000000 + d.val * 524288 + a.val * 4096 + b.val * 32 + m.val * 8 + flagBit dt * 4]
  | .vsrlVv d a b m dt => [0x74000001 + d.val * 524288 + a.val * 4096 + b.val * 32 + m.val * 8 + flagBit dt * 4]
  | .vsraVv d a b m dt => [0x74000002 + d.val * 524288 + a.val * 4096 + b.val * 32 + m.val * 8 + flagBit dt * 4]
  | .vsgnjVv d a b m dt => [0x74000003 + d.val * 524288 + a.val * 4096 + b.val * 32 + m.val * 8 + flagBit dt * 4]
  | .vfmaVv d a b m dt => [0x78000000 + d.val * 524288 + a.val * 4096 + b.val * 32 + m.val * 8 + flagBit dt * 4]
  | .vfmsVv d a b m dt => [0x78000001 + d.val * 524288 + a.val * 4096 + b.val * 32 + m.val * 8 + flagBit dt * 4]
  | .vfnmaVv d a b m dt => [0x78000002 + d.val * 524288 + a.val * 4096 + b.val * 32 + m.val * 8 + flagBit dt * 4]
  | .vmergeVv d a b m dt => [0x78000003 + d.val * 524288 + a.val * 4096 + b.val * 32 + m.val * 8 + flagBit dt * 4]
  | .vaddVx d a b m dt => [0x7C000000 + d.val * 524288 + a.val * 4096 + b.val * 32 + m.val * 8 + flagBit dt * 4]
  | .vsubVx d a b m dt => [0x7C000001 + d.val * 524288 + a.val * 4096 + b.val * 32 + m.val * 8 + flagBit dt * 4]
  | .vrsubVx d a b m dt => [0x7C000002 + d.val * 524288 + a.val * 4096 + b.val * 32 + m.val * 8 + flagBit dt * 4]
  | .vmulVx d a b m dt => [0x7C000003 + d.val * 524288 + a.val * 4096 + b.val * 32 + m.val * 8 + flagBit dt * 4]
  | .vmulhVx d a b m dt => [0x80000000 + d.val * 524288 + a.val * 4096 + b.val * 32 + m.val * 8 + flagBit dt * 4]
  | .vdivVx d a b m dt => [0x80000001 + d.val * 524288 + a.val * 4096 + b.val * 32 + m.val * 8 + flagBit dt * 4]
  | .vremVx d a b m dt => [0x80000002 + d.val * 524288 + a.val * 4096 + b.val * 32 + m.val * 8 + flagBit dt * 4]
  | .vabsdVx d a b m dt => [0x80000003 + d.val * 524288 + a.val * 4096 + b.val * 32 + m.val * 8 + flagBit dt * 4]
  | .vminVx d a b m dt => [0x84000000 + d.val * 524288 + a.val * 4096 + b.val * 32 + m.val * 8 + flagBit dt * 4]
  | .vmaxVx d a b m dt => [0x84000001 + d.val * 524288 + a.val * 4096 + b.val * 32 + m.val * 8 + flagBit dt * 4]
  | .vsaddVx d a b m dt => [0x84000002 + d.val * 524288 + a.val * 4096 + b.val * 32 + m.val * 8 + flagBit dt * 4]
  | .vssubVx d a b m dt => [0x84000003 + d.val * 524288 + a.val * 4096 + b.val * 32 + m.val * 8 + flagBit dt * 4]
  | .vandVx d a b m dt => [0x88000000 + d.val * 524288 + a.val * 4096 + b.val * 32 + m.val * 8 + flagBit dt * 4]
  | .vorVx d a b m dt => [0x88000001 + d.val * 524288 + a.val * 4096 + b.val * 32 + m.val * 8 + flagBit dt * 4]
  | .vxorVx d a b m dt => [0x88000002 + d.val * 524288 + a.val * 4096 + b.val * 32 + m.val * 8 + flagBit dt * 4]
  | .vandnVx d a b m dt => [0x88000003 + d.val * 524288 + a.val * 4096 + b.val * 32 + m.val * 8 + flagBit dt * 4]
  | .vsllVx d a b m dt => [0x8C000000 + d.val * 524288 + a.val * 4096 + b.val * 32 + m.val * 8 + flagBit dt * 4]
  | .vsrlVx d a b m dt => [0x8C000001 + d.val * 524288 + a.val * 4096 + b.val * 32 + m.val * 8 + flagBit dt * 4]
  | .vsraVx d a b m dt => [0x8C000002 + d.val * 524288 + a.val * 4096 + b.val * 32 + m.val * 8 + flagBit dt * 4]
  | .vsgnjVx d a b m dt => [0x8C000003 + d.val * 524288 + a.val * 4096 + b.val * 32 + m.val * 8 + flagBit dt * 4]
  | .vfmaVx d a b m dt => [0x90000000 + d.val * 524288 + a.val * 4096 + b.val * 32 + m.val * 8 + flagBit dt * 4]
  | .vfmsVx d a b m dt => [0x90000001 + d.val * 524288 + a.val * 4096 + b.val * 32 + m.val * 8 + flagBit dt * 4]
  | .vfnmaVx d a b m dt => [0x90000002 + d.val * 524288 + a.val * 4096 + b.val * 32 + m.val * 8 + flagBit dt * 4]
  | .vmergeVx d a b m dt => [0x90000003 + d.val * 524288 + a.val * 4096 + b.val * 32 + m.val * 8 + flagBit dt * 4]
  | .vaddi d a i m => [0x94000000 + d.val * 524288 + a.val * 4096 + i.toNat * 16 + m.val * 4]
  | .vslli d a i m => [0x94000001 + d.val * 524288 + a.val * 4096 + i.toNat * 16 + m.val * 4]
  | .vsrli d a i m => [0x94000002 + d.val * 524288 + a.val * 4096 + i.toNat * 16 + m.val * 4]
  | .vsrai d a i m => [0x94000003 + d.val * 524288 + a.val * 4096 + i.toNat * 16 + m.val * 4]
  | .vidx d s t => [0x98000000 + d.val * 524288 + s.toNat * 2048 + t.toNat * 8]
  | .vbcsti d s => [0x98000001 + d.val * 524288 + s.toNat * 2048]
  | .veqVv d a b m dt => [0x9C000000 + d.val * 524288 + a.val * 4096 + b.val * 32 + m.val * 8 + flagBit dt * 4]
  | .vneVv d a b m dt => [0x9C000001 + d.val * 524288 + a.val * 4096 + b.val * 32 + m.val * 8 + flagBit dt * 4]
  | .vltVv d a b m dt => [0x9C000002 + d.val * 524288 + a.val * 4096 + b.val * 32 + m.val * 8 + flagBit dt * 4]
  | .vle d a b m dt => [0x9C000003 + d.val * 524288 + a.val * 4096 + b.val * 32 + m.val * 8 + flagBit dt * 4]
  | .veqVx d a b m dt => [0xA0000000 + d.val * 524288 + a.val * 4096 + b.val * 32 + m.val * 8 + flagBit dt * 4]
  | .vneVx d a b m dt => [0xA0000001 + d.val * 524288 + a.val * 4096 + b.val * 32 + m.val * 8 + flagBit dt * 4]
  | .vltVx d a b m dt => [0xA0000002 + d.val * 524288 + a.val * 4096 + b.val * 32 + m.val * 8 + flagBit dt * 4]
  | .vge d a b m dt => [0xA0000003 + d.val * 524288 + a.val * 4096 + b.val * 32 + m.val * 8 + flagBit dt * 4]
  | .vcompress d a b m dt => [0xA4000000 + d.val * 524288 + a.val * 4096 + b.val * 32 + m.val * 8 + flagBit dt * 4]
  | .vexpand d a b m dt => [0xA4000001 + d.val * 524288 + a.val * 4096 + b.val * 32 + m.val * 8 + flagBit dt * 4]
  | .vpick d a b m dt => [0xA4000002 + d.val * 524288 + a.val * 4096 + b.val * 32 + m.val * 8 + flagBit dt * 4]
  | .vrev d a m dt => [0xA4000003 + d.val * 524288 + a.val * 4096 + m.val * 8 + flagBit dt * 4]
  | .vshup d a b m dt => [0xA8000000 + d.val * 524288 + a.val * 4096 + b.val * 32 + m.val * 8 + flagBit dt * 4]
  | .vshdn d a b m dt => [0xA8000001 + d.val * 524288 + a.val * 4096 + b.val * 32 + m.val * 8 + flagBit dt * 4]
  | .vinsup d a b m dt => [0xA8000002 + d.val * 524288 + a.val * 4096 + b.val * 32 + m.val * 8 + flagBit dt * 4]
  | .vinsdn d a b m dt => [0xA8000003 + d.val * 524288 + a.val * 4096 + b.val * 32 + m.val * 8 + flagBit dt * 4]
  | .vredsumO d a b m dt => [0xAC000000 + d.val * 524288 + a.val * 4096 + b.val * 32 + m.val * 8 + flagBit dt * 4]
  | .vredsumT d a b m dt => [0xAC000001 + d.val * 524288 + a.val * 4096 + b.val * 32 + m.val * 8 + flagBit dt * 4]
  | .vredmin d a b m dt => [0xAC000002 + d.val * 524288 + a.val * 4096 + b.val * 32 + m.val * 8 + flagBit dt * 4]
  | .vredmax d a b m dt => [0xAC000003 + d.val * 524288 + a.val * 4096 + b.val * 32 + m.val * 8 + flagBit dt * 4]
  | .qand d a b => [0xB0000000 + d.val * 524288 + a.val * 4096 + b.val * 32]
  | .qor d a b => [0xB0000001 + d.val * 524288 + a.val * 4096 + b.val * 32]
  | .qxor d a b => [0xB0000002 + d.val * 524288 + a.val * 4096 + b.val * 32]
  | .qandn d a b => [0xB0000003 + d.val * 524288 + a.val * 4096 + b.val * 32]
  | .qpopc d a m => [0xB4000000 + d.val * 524288 + a.val * 4096 + m.val * 8]
  | .qfirst d a m => [0xB4000001 + d.val * 524288 + a.val * 4096 + m.val * 8]
  | .vbitq d a b m dt => [0xB4000002 + d.val * 524288 + a.val * 4096 + b.val * 32 + m.val * 8 + flagBit dt * 4]
  | .vpopc d a m dt => [0xB4000003 + d.val * 524288 + a.val * 4096 + m.val * 8 + flagBit dt * 4]
  | .vcvt d a b m dt => [0xB8000000 + d.val * 524288 + a.val * 4096 + b.val * 32 + m.val * 8 + flagBit dt * 4]
  | .vtobfp d a b m dt => [0xB8000001 + d.val * 524288 + a.val * 4096 + b.val * 32 + m.val * 8 + flagBit dt * 4]
  | .vfrombfp d a b m dt => [0xB8000002 + d.val * 524288 + a.val * 4096 + b.val * 32 + m.val * 8 + flagBit dt * 4]
  | .vlog2 d a m dt => [0xB8000003 + d.val * 524288 + a.val * 4096 + m.val * 8 + flagBit dt * 4]
  | .vsqrt d a m dt => [0xBC000000 + d.val * 524288 + a.val * 4096 + m.val * 8 + flagBit dt * 4]
  | .vrcp d a m dt => [0xBC000001 + d.val * 524288 + a.val * 4096 + m.val * 8 + flagBit dt * 4]
  | .vrsqrt d a m dt => [0xBC000002 + d.val * 524288 + a.val * 4096 + m.val * 8 + flagBit dt * 4]
  | .vexp2 d a m dt => [0xBC000003 + d.val * 524288 + a.val * 4096 + m.val * 8 + flagBit dt * 4]
  | .vld v b m dt => [0xC0000000 + v.val * 524288 + b.val * 4096 + m.val * 8 + flagBit dt * 4]
  | .vldff v b m dt => [0xC0000001 + v.val * 524288 + b.val * 4096 + m.val * 8 + flagBit dt * 4]
  | .vst v b m dt => [0xC0000002 + v.val * 524288 + b.val * 4096 + m.val * 8 + flagBit dt * 4]
  | .vlds v b s m dt => [0xC4000000 + v.val * 524288 + b.val * 4096 + s.val * 32 + m.val * 8 + flagBit dt * 4]
  | .vsts v b s m dt => [0xC4000002 + v.val * 524288 + b.val * 4096 + s.val * 32 + m.val * 8 + flagBit dt * 4]
  | .vldx v b i m dt => [0xC8000000 + v.val * 524288 + b.val * 4096 + i.val * 32 + m.val * 8 + flagBit dt * 4]
  | .vldxo v b i m dt => [0xC8000001 + v.val * 524288 + b.val * 4096 + i.val * 32 + m.val * 8 + flagBit dt * 4]
  | .vstx v b i m dt => [0xC8000002 + v.val * 524288 + b.val * 4096 + i.val * 32 + m.val * 8 + flagBit dt * 4]
  | .vstxo v b i m dt => [0xC8000003 + v.val * 524288 + b.val * 4096 + i.val * 32 + m.val * 8 + flagBit dt * 4]
  | .vamoadd v b i m dt => [0xCC000000 + v.val * 524288 + b.val * 4096 + i.val * 32 + m.val * 8 + flagBit dt * 4]
  | .vamomin v b i m dt => [0xCC000001 + v.val * 524288 + b.val * 4096 + i.val * 32 + m.val * 8 + flagBit dt * 4]
  | .vamomax v b i m dt => [0xCC000002 + v.val * 524288 + b.val * 4096 + i.val * 32 + m.val * 8 + flagBit dt * 4]
  | .vamoswap v b i m dt => [0xCC000003 + v.val * 524288 + b.val * 4096 + i.val * 32 + m.val * 8 + flagBit dt * 4]
  | .vspld v b m dt => [0xD0000000 + v.val * 524288 + b.val * 4096 + m.val * 8 + flagBit dt * 4]
  | .vspst v b m dt => [0xD0000001 + v.val * 524288 + b.val * 4096 + m.val * 8 + flagBit dt * 4]
  | .vpst v b s => [0xD0000002 + v.val * 524288 + b.val * 4096 + s.val * 32]
  | .vpld v b s => [0xD0000003 + v.val * 524288 + b.val * 4096 + s.val * 32]
  | .cpls a => [0xD4000000 + a.val * 4096]
  | .cpld a => [0xD4000001 + a.val * 4096]
  | .cpgoMm d a b => [0xD4000002 + d.val * 524288 + a.val * 4096 + b.val * 32]
  | .cpgoMs d a b => [0xD4000003 + d.val * 524288 + a.val * 4096 + b.val * 32]
  | .cpgoSm d a b => [0xD4000004 + d.val * 524288 + a.val * 4096 + b.val * 32]
  | .cpgoSs d a b => [0xD4000005 + d.val * 524288 + a.val * 4096 + b.val * 32]
  | .cwany d a => [0xD4000006 + d.val * 524288 + a.val * 4096]
  | .cwall a => [0xD4000007 + a.val * 4096]
  | .cffr d a => [0xD4000008 + d.val * 524288 + a.val * 4096]
  | .ctclr a => [0xD4000009 + a.val * 4096]
  | .spool d a b => [0xD400000A + d.val * 524288 + a.val * 4096 + b.val * 32]
  | .coll a => [0xD400000B + a.val * 4096]
  | .kvsel a => [0xD400000C + a.val * 4096]
  | .fsend d a b => [0xD400000D + d.val * 524288 + a.val * 4096 + b.val * 32]
  | .fdone => [0xD400000E]
  | .vamocas d a b => [0xD400000F + d.val * 524288 + a.val * 4096 + b.val * 32]
  | .lpush a b => [0xD4000010 + a.val * 4096 + b.val * 32]
  | .wlpush a b => [0xD4000011 + a.val * 4096 + b.val * 32]
  | .wlins a b => [0xD4000012 + a.val * 4096 + b.val * 32]
  | .wlpop d a b => [0xD4000013 + d.val * 524288 + a.val * 4096 + b.val * 32]
  | .wlclose a => [0xD4000014 + a.val * 4096]
  | .wlclear a => [0xD4000015 + a.val * 4096]
  | .ccall d a b => [0xD4000016 + d.val * 524288 + a.val * 4096 + b.val * 32]
  | .cret => [0xD4000017]
  | .elcat d a b => [0xD4000018 + d.val * 524288 + a.val * 4096 + b.val * 32]
  | .elfilt d a b => [0xD4000019 + d.val * 524288 + a.val * 4096 + b.val * 32]
  | .elrebase d a b => [0xD400001A + d.val * 524288 + a.val * 4096 + b.val * 32]
  | .elapply a => [0xD400001B + a.val * 4096]
  | .eldrop a => [0xD400001C + a.val * 4096]
  | .elinfo d a => [0xD400001D + d.val * 524288 + a.val * 4096]
  | .elgrow a b => [0xD400001E + a.val * 4096 + b.val * 32]
  | .mop t a b m => [0xD8000000 + t.val * 16777216 + a.val * 131072 + b.val * 1024 + m.val * 2]
  | .mops t a b c m => [0xD8000001 + t.val * 16777216 + a.val * 131072 + b.val * 1024 + c.val * 8 + m.val * 2]
  | .mzero d => [0xDC000000 + d.val * 524288]
  | .mfold d a b => [0xDC000001 + d.val * 524288 + a.val * 4096 + b.val * 32]
  | .mrd d a b => [0xDC000002 + d.val * 524288 + a.val * 4096 + b.val * 32]
  | .mwr d a b => [0xDC000003 + d.val * 524288 + a.val * 4096 + b.val * 32]
  | .mrdc d a b => [0xDC000004 + d.val * 524288 + a.val * 4096 + b.val * 32]
  | .mwl d a b => [0xDC000005 + d.val * 524288 + a.val * 4096 + b.val * 32]
  | .mstat d => [0xDC000006 + d.val * 524288]
  | .mopm t a b c m => [0xE0000000 + t.val * 16777216 + a.val * 131072 + b.val * 1024 + c.val * 8 + m.val * 2]
  | .mvw t a b c m => [0xE0000001 + t.val * 16777216 + a.val * 131072 + b.val * 1024 + c.val * 8 + m.val * 2]
  | .add d a b => [0x04000000 + d.val * 524288 + a.val * 4096 + b.val * 32]
  | .sub d a b => [0x04000001 + d.val * 524288 + a.val * 4096 + b.val * 32]
  | .and d a b => [0x04000002 + d.val * 524288 + a.val * 4096 + b.val * 32]
  | .or d a b => [0x04000003 + d.val * 524288 + a.val * 4096 + b.val * 32]
  | .xor d a b => [0x04000004 + d.val * 524288 + a.val * 4096 + b.val * 32]
  | .andn d a b => [0x04000005 + d.val * 524288 + a.val * 4096 + b.val * 32]
  | .sll d a b => [0x04000006 + d.val * 524288 + a.val * 4096 + b.val * 32]
  | .srl d a b => [0x04000007 + d.val * 524288 + a.val * 4096 + b.val * 32]
  | .sra d a b => [0x04000008 + d.val * 524288 + a.val * 4096 + b.val * 32]
  | .rot d a b => [0x04000009 + d.val * 524288 + a.val * 4096 + b.val * 32]
  | .slt d a b => [0x0400000A + d.val * 524288 + a.val * 4096 + b.val * 32]
  | .sltn d a b => [0x0400000B + d.val * 524288 + a.val * 4096 + b.val * 32]
  | .min d a b => [0x0400000C + d.val * 524288 + a.val * 4096 + b.val * 32]
  | .max d a b => [0x0400000D + d.val * 524288 + a.val * 4096 + b.val * 32]
  | .minn d a b => [0x0400000E + d.val * 524288 + a.val * 4096 + b.val * 32]
  | .maxn d a b => [0x0400000F + d.val * 524288 + a.val * 4096 + b.val * 32]
  | .mul d a b => [0x04000010 + d.val * 524288 + a.val * 4096 + b.val * 32]
  | .mulh d a b => [0x04000011 + d.val * 524288 + a.val * 4096 + b.val * 32]
  | .mulhn d a b => [0x04000012 + d.val * 524288 + a.val * 4096 + b.val * 32]
  | .div d a b => [0x04000013 + d.val * 524288 + a.val * 4096 + b.val * 32]
  | .divn d a b => [0x04000014 + d.val * 524288 + a.val * 4096 + b.val * 32]
  | .rem d a b => [0x04000015 + d.val * 524288 + a.val * 4096 + b.val * 32]
  | .remn d a b => [0x04000016 + d.val * 524288 + a.val * 4096 + b.val * 32]
  | .popc d a => [0x04000017 + d.val * 524288 + a.val * 4096]
  | .clz d a => [0x04000018 + d.val * 524288 + a.val * 4096]
  | .ctz d a => [0x04000019 + d.val * 524288 + a.val * 4096]
  | .sxb d a => [0x0400001A + d.val * 524288 + a.val * 4096]
  | .sxh d a => [0x0400001B + d.val * 524288 + a.val * 4096]
  | .sxw d a => [0x0400001C + d.val * 524288 + a.val * 4096]
  | .zxw d a => [0x0400001D + d.val * 524288 + a.val * 4096]
  | .bswap d a => [0x0400001E + d.val * 524288 + a.val * 4096]
  | .addi d a i => [0x08000000 + d.val * 524288 + a.val * 4096 + i.toNat]
  | .andi d a i => [0x0C000000 + d.val * 524288 + a.val * 4096 + i.toNat]
  | .ori d a i => [0x10000000 + d.val * 524288 + a.val * 4096 + i.toNat]
  | .xori d a i => [0x14000000 + d.val * 524288 + a.val * 4096 + i.toNat]
  | .slli d a s => [0x18000000 + d.val * 524288 + a.val * 4096 + s.toNat]
  | .srli d a s => [0x18000400 + d.val * 524288 + a.val * 4096 + s.toNat]
  | .srai d a s => [0x18000800 + d.val * 524288 + a.val * 4096 + s.toNat]
  | .roti d a s => [0x18000C00 + d.val * 524288 + a.val * 4096 + s.toNat]
  | .slti d a i => [0x1C000000 + d.val * 524288 + a.val * 4096 + i.toNat]
  | .sltni d a i => [0x20000000 + d.val * 524288 + a.val * 4096 + i.toNat]
  | .lim i partner => [0x24000000 + i.toNat, partner.toNat]
  | .pcrel d i => [0x28000000 + d.val * 524288 + i.toNat]
  | .ldB d a o => [0x2C000000 + d.val * 524288 + a.val * 4096 + o.toNat]
  | .ldH d a o => [0x2C000200 + d.val * 524288 + a.val * 4096 + o.toNat]
  | .ldW d a o => [0x2C000400 + d.val * 524288 + a.val * 4096 + o.toNat]
  | .ldD d a o => [0x2C000600 + d.val * 524288 + a.val * 4096 + o.toNat]
  | .ldBn d a o => [0x2C000800 + d.val * 524288 + a.val * 4096 + o.toNat]
  | .ldHn d a o => [0x2C000A00 + d.val * 524288 + a.val * 4096 + o.toNat]
  | .ldWn d a o => [0x2C000C00 + d.val * 524288 + a.val * 4096 + o.toNat]
  | .stB d a o => [0x30000000 + d.val * 524288 + a.val * 4096 + o.toNat]
  | .stH d a o => [0x30000200 + d.val * 524288 + a.val * 4096 + o.toNat]
  | .stW d a o => [0x30000400 + d.val * 524288 + a.val * 4096 + o.toNat]
  | .stD d a o => [0x30000600 + d.val * 524288 + a.val * 4096 + o.toNat]
  | .beq a b o => [0x34000000 + a.val * 524288 + b.val * 4096 + o.toNat]
  | .bne a b o => [0x38000000 + a.val * 524288 + b.val * 4096 + o.toNat]
  | .blt a b o => [0x3C000000 + a.val * 524288 + b.val * 4096 + o.toNat]
  | .bge a b o => [0x40000000 + a.val * 524288 + b.val * 4096 + o.toNat]
  | .bltn a b o => [0x44000000 + a.val * 524288 + b.val * 4096 + o.toNat]
  | .bgen a b o => [0x48000000 + a.val * 524288 + b.val * 4096 + o.toNat]
  | .jal d o => [0x4C000000 + d.val * 524288 + o.toNat]
  | .jalr d a i => [0x50000000 + d.val * 524288 + a.val * 4096 + i.toNat]
  | .amoaddD d a b => [0x54000000 + d.val * 524288 + a.val * 4096 + b.val * 32]
  | .amoandD d a b => [0x54000001 + d.val * 524288 + a.val * 4096 + b.val * 32]
  | .amoorD d a b => [0x54000002 + d.val * 524288 + a.val * 4096 + b.val * 32]
  | .amoxorD d a b => [0x54000003 + d.val * 524288 + a.val * 4096 + b.val * 32]
  | .amominD d a b => [0x54000004 + d.val * 524288 + a.val * 4096 + b.val * 32]
  | .amomaxD d a b => [0x54000005 + d.val * 524288 + a.val * 4096 + b.val * 32]
  | .amominnD d a b => [0x54000006 + d.val * 524288 + a.val * 4096 + b.val * 32]
  | .amomaxnD d a b => [0x54000007 + d.val * 524288 + a.val * 4096 + b.val * 32]
  | .amoswapD d a b => [0x54000008 + d.val * 524288 + a.val * 4096 + b.val * 32]
  | .amocasD d a b => [0x54000009 + d.val * 524288 + a.val * 4096 + b.val * 32]
  | .amoaddW d a b => [0x54000010 + d.val * 524288 + a.val * 4096 + b.val * 32]
  | .amoandW d a b => [0x54000011 + d.val * 524288 + a.val * 4096 + b.val * 32]
  | .amoorW d a b => [0x54000012 + d.val * 524288 + a.val * 4096 + b.val * 32]
  | .amoxorW d a b => [0x54000013 + d.val * 524288 + a.val * 4096 + b.val * 32]
  | .amominW d a b => [0x54000014 + d.val * 524288 + a.val * 4096 + b.val * 32]
  | .amomaxW d a b => [0x54000015 + d.val * 524288 + a.val * 4096 + b.val * 32]
  | .amominnW d a b => [0x54000016 + d.val * 524288 + a.val * 4096 + b.val * 32]
  | .amomaxnW d a b => [0x54000017 + d.val * 524288 + a.val * 4096 + b.val * 32]
  | .amoswapW d a b => [0x54000018 + d.val * 524288 + a.val * 4096 + b.val * 32]
  | .amocasW d a b => [0x54000019 + d.val * 524288 + a.val * 4096 + b.val * 32]
  | .fenceSv => [0x58000000]
  | .fenceVs => [0x58000001]
  | .fenceRel => [0x58000002]
  | .fenceAcq => [0x58000003]
  | .fenceFull => [0x58000004]
  | .ifence => [0x58000005]
  | .bar a => [0x58000010 + a.val * 4096]
  | .waitNe d a => [0x58000020 + d.val * 524288 + a.val * 4096]
  | .waitGe d a => [0x58000021 + d.val * 524288 + a.val * 4096]
  | .yield => [0x58000030]
  | .park => [0x58000031]
  | .zline a => [0x58000050 + a.val * 4096]
  | .ctlRd d n => [0x5C000000 + d.val * 524288 + n.toNat]
  | .ctlWr a n => [0x5C000400 + a.val * 4096 + n.toNat]
  | .ctlWrVstart a => [0x5C000402 + a.val * 4096]
  | .ctlWrFflags a => [0x5C000406 + a.val * 4096]
  | .ctlWrCtximg a => [0x5C00042A + a.val * 4096]
  | .trap => [0x5C000800]
  | .rtr => [0x5C000801]
  | .ecall => [0x5C000802]
  | .halt => [0x5C000803]
  | .stkvec a => [0x5C000804 + a.val * 4096]
  | .unstkvec a => [0x5C000805 + a.val * 4096]
  | .tlbinv a => [0x5C000806 + a.val * 4096]
  | .icinv a => [0x5C000807 + a.val * 4096]
  | .ldrule a => [0x5C000808 + a.val * 4096]
  | .strule a => [0x5C000809 + a.val * 4096]
  | .vtobfpTwin d a b m dt => [0xF4000001 + d.val * 524288 + a.val * 4096 + b.val * 32 + m.val * 8 + flagBit dt * 4]
  | .vfrombfpTwin d a b m dt => [0xF4000002 + d.val * 524288 + a.val * 4096 + b.val * 32 + m.val * 8 + flagBit dt * 4]
  | .kvselTwin a => [0xF800000C + a.val * 4096]
  | .mopsTwin t a b c m => [0xE8000001 + t.val * 16777216 + a.val * 131072 + b.val * 1024 + c.val * 8 + m.val * 2]
  | .mwlTwin d a b => [0xF0000005 + d.val * 524288 + a.val * 4096 + b.val * 32]
  | .mvwTwin t a b c m => [0xEC000001 + t.val * 16777216 + a.val * 131072 + b.val * 1024 + c.val * 8 + m.val * 2]
  | .ureject => [0xE4000000]
  | .microcodeTrigger w => [w.toNat]
  | .exitAddressFetch => []
  | .elementFire _ _ _ => []
  | .spanHandover _ _ => []
  | .registerLineFill _ _ => []
  | .pageWalkComplete _ _ _ _ => []
  | .l1LineFill _ _ _ => []
  | .homeSliceStore _ => []
  | .storeAcknowledge _ => []
  | .l2MissFill _ _ _ => []
  | .capacityStorePerformed _ => []
  | .copyTransfer _ _ _ => []
  | .emptywaitTimeout _ _ _ => []
  | .mwlComplete _ _ => []
  | .spoolHeaderRead _ _ => []
  | .spoolBufferPartial _ _ _ _ => []
  | .spoolBagComplete _ _ _ => []
  | .kvselScoreMerge _ _ => []
  | .trapEntry _ => []
  | .preempt _ => []
  | .resumeTask _ _ => []
  | .parkWake _ => []
  | .parkTimeout _ => []
  | .barrierComplete _ _ => []
  | .barrierdead _ _ => []
  | .waitReread _ => []
  | .waitLimitExpiry _ => []
  | .notifyKick _ _ _ => []
  | .slotFetch _ _ => []
  | .queuePollTimer _ _ => []
  | .queueStallTimeout _ _ => []
  | .queueDrainEnd _ _ => []
  | .launchStartTime _ _ => []
  | .launchTriggerWrite _ _ _ => []
  | .launchDeadline _ _ => []
  | .dispatchTask _ _ => []
  | .fsendAccept _ _ => []
  | .handlerStart _ _ _ => []
  | .collChunkArrival _ _ _ _ _ => []
  | .collComplete _ _ => []
  | .collTimeout _ _ => []
  | .remoteAccessTimeout _ _ => []
  | .rmaWrite _ _ _ => []
  | .rmaRead _ _ _ => []
  | .rmaAtomic _ _ _ _ _ => []
  | .interruptDeliveryAck _ => []
  | .createTenant _ _ => []
  | .destroyTenant _ => []
  | .setWindow _ _ _ => []
  | .configureQueue _ _ _ => []
  | .destroyQueue _ _ => []
  | .buildChain _ _ => []
  | .freeChain _ _ => []
  | .retryChain _ _ => []
  | .discardMessage _ _ => []
  | .registerKey _ _ _ => []
  | .removeKey _ _ => []
  | .configureEndpoint _ _ _ _ => []
  | .loadMicrocodeBundle _ _ => []
  | .microcodeInstall => []
  | .readAcceptedClasses _ => []
  | .attest _ _ => []
  | .loadObject _ _ _ => []
  | .powerOn => []
  | .timeBaseSync _ => []
  | .thermalClockStep _ => []
  | .dieLoss _ => []
  | .owningDeviceAcknowledge _ _ _ _ => []
  | .remoteWaitReread _ _ => []
  | .unknownOpcode _ _ => []
  | .railOutOfRange _ => []

/-- The bytes of an instruction as memory holds them (R24, R31). -/
def encodeBytes (i : Instr) : List Byte := (encode i).flatMap (toBytes 4)

/-- Whether the instruction has an encoding. -/
def Instr.isWord (i : Instr) : Bool := !(encode i).isEmpty

/-- The instruction of `nbits` bits `w`, its words little-endian in rising order and every higher bit zero. -/
noncomputable def decodeTableWord (nbits w : Nat) : Option Instr :=
  if nbits = 0 then none else
  match decode (toBytes 8 (w % 2 ^ nbits)) with
  | .ok (i, _) => some i
  | .error _ => none

/-- The instruction with each of its 7-bit register fields replaced: what R51 makes of the alias values inside a
routine. -/
noncomputable def Instr.mapRegs (f : Reg → Reg) : Instr → Instr
  | .vset d a b => .vset (f d) (f a) (f b)
  | .vsetl d a => .vsetl (f d) (f a)
  | .mset a => .mset (f a)
  | .wbase a => .wbase (f a)
  | .vstrip d a => .vstrip (f d) (f a)
  | .vstripI d a => .vstripI (f d) (f a)
  | .vmvXs d a b => .vmvXs (f d) (f a) (f b)
  | .vmvSx d a b => .vmvSx (f d) (f a) (f b)
  | .vbcst d a => .vbcst (f d) (f a)
  | .qset d a => .qset (f d) (f a)
  | .vpresq d a => .vpresq (f d) (f a)
  | .vaddVv d a b m dt => .vaddVv (f d) (f a) (f b) m dt
  | .vsubVv d a b m dt => .vsubVv (f d) (f a) (f b) m dt
  | .vrsubVv d a b m dt => .vrsubVv (f d) (f a) (f b) m dt
  | .vmulVv d a b m dt => .vmulVv (f d) (f a) (f b) m dt
  | .vmulhVv d a b m dt => .vmulhVv (f d) (f a) (f b) m dt
  | .vdivVv d a b m dt => .vdivVv (f d) (f a) (f b) m dt
  | .vremVv d a b m dt => .vremVv (f d) (f a) (f b) m dt
  | .vabsdVv d a b m dt => .vabsdVv (f d) (f a) (f b) m dt
  | .vminVv d a b m dt => .vminVv (f d) (f a) (f b) m dt
  | .vmaxVv d a b m dt => .vmaxVv (f d) (f a) (f b) m dt
  | .vsaddVv d a b m dt => .vsaddVv (f d) (f a) (f b) m dt
  | .vssubVv d a b m dt => .vssubVv (f d) (f a) (f b) m dt
  | .vandVv d a b m dt => .vandVv (f d) (f a) (f b) m dt
  | .vorVv d a b m dt => .vorVv (f d) (f a) (f b) m dt
  | .vxorVv d a b m dt => .vxorVv (f d) (f a) (f b) m dt
  | .vandnVv d a b m dt => .vandnVv (f d) (f a) (f b) m dt
  | .vsllVv d a b m dt => .vsllVv (f d) (f a) (f b) m dt
  | .vsrlVv d a b m dt => .vsrlVv (f d) (f a) (f b) m dt
  | .vsraVv d a b m dt => .vsraVv (f d) (f a) (f b) m dt
  | .vsgnjVv d a b m dt => .vsgnjVv (f d) (f a) (f b) m dt
  | .vfmaVv d a b m dt => .vfmaVv (f d) (f a) (f b) m dt
  | .vfmsVv d a b m dt => .vfmsVv (f d) (f a) (f b) m dt
  | .vfnmaVv d a b m dt => .vfnmaVv (f d) (f a) (f b) m dt
  | .vmergeVv d a b m dt => .vmergeVv (f d) (f a) (f b) m dt
  | .vaddVx d a b m dt => .vaddVx (f d) (f a) (f b) m dt
  | .vsubVx d a b m dt => .vsubVx (f d) (f a) (f b) m dt
  | .vrsubVx d a b m dt => .vrsubVx (f d) (f a) (f b) m dt
  | .vmulVx d a b m dt => .vmulVx (f d) (f a) (f b) m dt
  | .vmulhVx d a b m dt => .vmulhVx (f d) (f a) (f b) m dt
  | .vdivVx d a b m dt => .vdivVx (f d) (f a) (f b) m dt
  | .vremVx d a b m dt => .vremVx (f d) (f a) (f b) m dt
  | .vabsdVx d a b m dt => .vabsdVx (f d) (f a) (f b) m dt
  | .vminVx d a b m dt => .vminVx (f d) (f a) (f b) m dt
  | .vmaxVx d a b m dt => .vmaxVx (f d) (f a) (f b) m dt
  | .vsaddVx d a b m dt => .vsaddVx (f d) (f a) (f b) m dt
  | .vssubVx d a b m dt => .vssubVx (f d) (f a) (f b) m dt
  | .vandVx d a b m dt => .vandVx (f d) (f a) (f b) m dt
  | .vorVx d a b m dt => .vorVx (f d) (f a) (f b) m dt
  | .vxorVx d a b m dt => .vxorVx (f d) (f a) (f b) m dt
  | .vandnVx d a b m dt => .vandnVx (f d) (f a) (f b) m dt
  | .vsllVx d a b m dt => .vsllVx (f d) (f a) (f b) m dt
  | .vsrlVx d a b m dt => .vsrlVx (f d) (f a) (f b) m dt
  | .vsraVx d a b m dt => .vsraVx (f d) (f a) (f b) m dt
  | .vsgnjVx d a b m dt => .vsgnjVx (f d) (f a) (f b) m dt
  | .vfmaVx d a b m dt => .vfmaVx (f d) (f a) (f b) m dt
  | .vfmsVx d a b m dt => .vfmsVx (f d) (f a) (f b) m dt
  | .vfnmaVx d a b m dt => .vfnmaVx (f d) (f a) (f b) m dt
  | .vmergeVx d a b m dt => .vmergeVx (f d) (f a) (f b) m dt
  | .vaddi d a i m => .vaddi (f d) (f a) i m
  | .vslli d a i m => .vslli (f d) (f a) i m
  | .vsrli d a i m => .vsrli (f d) (f a) i m
  | .vsrai d a i m => .vsrai (f d) (f a) i m
  | .vidx d s t => .vidx (f d) s t
  | .vbcsti d s => .vbcsti (f d) s
  | .veqVv d a b m dt => .veqVv (f d) (f a) (f b) m dt
  | .vneVv d a b m dt => .vneVv (f d) (f a) (f b) m dt
  | .vltVv d a b m dt => .vltVv (f d) (f a) (f b) m dt
  | .vle d a b m dt => .vle (f d) (f a) (f b) m dt
  | .veqVx d a b m dt => .veqVx (f d) (f a) (f b) m dt
  | .vneVx d a b m dt => .vneVx (f d) (f a) (f b) m dt
  | .vltVx d a b m dt => .vltVx (f d) (f a) (f b) m dt
  | .vge d a b m dt => .vge (f d) (f a) (f b) m dt
  | .vcompress d a b m dt => .vcompress (f d) (f a) (f b) m dt
  | .vexpand d a b m dt => .vexpand (f d) (f a) (f b) m dt
  | .vpick d a b m dt => .vpick (f d) (f a) (f b) m dt
  | .vrev d a m dt => .vrev (f d) (f a) m dt
  | .vshup d a b m dt => .vshup (f d) (f a) (f b) m dt
  | .vshdn d a b m dt => .vshdn (f d) (f a) (f b) m dt
  | .vinsup d a b m dt => .vinsup (f d) (f a) (f b) m dt
  | .vinsdn d a b m dt => .vinsdn (f d) (f a) (f b) m dt
  | .vredsumO d a b m dt => .vredsumO (f d) (f a) (f b) m dt
  | .vredsumT d a b m dt => .vredsumT (f d) (f a) (f b) m dt
  | .vredmin d a b m dt => .vredmin (f d) (f a) (f b) m dt
  | .vredmax d a b m dt => .vredmax (f d) (f a) (f b) m dt
  | .qand d a b => .qand (f d) (f a) (f b)
  | .qor d a b => .qor (f d) (f a) (f b)
  | .qxor d a b => .qxor (f d) (f a) (f b)
  | .qandn d a b => .qandn (f d) (f a) (f b)
  | .qpopc d a m => .qpopc (f d) (f a) m
  | .qfirst d a m => .qfirst (f d) (f a) m
  | .vbitq d a b m dt => .vbitq (f d) (f a) (f b) m dt
  | .vpopc d a m dt => .vpopc (f d) (f a) m dt
  | .vcvt d a b m dt => .vcvt (f d) (f a) (f b) m dt
  | .vtobfp d a b m dt => .vtobfp (f d) (f a) (f b) m dt
  | .vfrombfp d a b m dt => .vfrombfp (f d) (f a) (f b) m dt
  | .vlog2 d a m dt => .vlog2 (f d) (f a) m dt
  | .vsqrt d a m dt => .vsqrt (f d) (f a) m dt
  | .vrcp d a m dt => .vrcp (f d) (f a) m dt
  | .vrsqrt d a m dt => .vrsqrt (f d) (f a) m dt
  | .vexp2 d a m dt => .vexp2 (f d) (f a) m dt
  | .vld v b m dt => .vld (f v) (f b) m dt
  | .vldff v b m dt => .vldff (f v) (f b) m dt
  | .vst v b m dt => .vst (f v) (f b) m dt
  | .vlds v b s m dt => .vlds (f v) (f b) (f s) m dt
  | .vsts v b s m dt => .vsts (f v) (f b) (f s) m dt
  | .vldx v b i m dt => .vldx (f v) (f b) (f i) m dt
  | .vldxo v b i m dt => .vldxo (f v) (f b) (f i) m dt
  | .vstx v b i m dt => .vstx (f v) (f b) (f i) m dt
  | .vstxo v b i m dt => .vstxo (f v) (f b) (f i) m dt
  | .vamoadd v b i m dt => .vamoadd (f v) (f b) (f i) m dt
  | .vamomin v b i m dt => .vamomin (f v) (f b) (f i) m dt
  | .vamomax v b i m dt => .vamomax (f v) (f b) (f i) m dt
  | .vamoswap v b i m dt => .vamoswap (f v) (f b) (f i) m dt
  | .vspld v b m dt => .vspld (f v) (f b) m dt
  | .vspst v b m dt => .vspst (f v) (f b) m dt
  | .vpst v b s => .vpst (f v) (f b) (f s)
  | .vpld v b s => .vpld (f v) (f b) (f s)
  | .cpls a => .cpls (f a)
  | .cpld a => .cpld (f a)
  | .cpgoMm d a b => .cpgoMm (f d) (f a) (f b)
  | .cpgoMs d a b => .cpgoMs (f d) (f a) (f b)
  | .cpgoSm d a b => .cpgoSm (f d) (f a) (f b)
  | .cpgoSs d a b => .cpgoSs (f d) (f a) (f b)
  | .cwany d a => .cwany (f d) (f a)
  | .cwall a => .cwall (f a)
  | .cffr d a => .cffr (f d) (f a)
  | .ctclr a => .ctclr (f a)
  | .spool d a b => .spool (f d) (f a) (f b)
  | .coll a => .coll (f a)
  | .kvsel a => .kvsel (f a)
  | .fsend d a b => .fsend (f d) (f a) (f b)
  | .vamocas d a b => .vamocas (f d) (f a) (f b)
  | .lpush a b => .lpush (f a) (f b)
  | .wlpush a b => .wlpush (f a) (f b)
  | .wlins a b => .wlins (f a) (f b)
  | .wlpop d a b => .wlpop (f d) (f a) (f b)
  | .wlclose a => .wlclose (f a)
  | .wlclear a => .wlclear (f a)
  | .ccall d a b => .ccall (f d) (f a) (f b)
  | .elcat d a b => .elcat (f d) (f a) (f b)
  | .elfilt d a b => .elfilt (f d) (f a) (f b)
  | .elrebase d a b => .elrebase (f d) (f a) (f b)
  | .elapply a => .elapply (f a)
  | .eldrop a => .eldrop (f a)
  | .elinfo d a => .elinfo (f d) (f a)
  | .elgrow a b => .elgrow (f a) (f b)
  | .mop t a b m => .mop t (f a) (f b) m
  | .mops t a b c m => .mops t (f a) (f b) (f c) m
  | .mzero d => .mzero (f d)
  | .mfold d a b => .mfold (f d) (f a) (f b)
  | .mrd d a b => .mrd (f d) (f a) (f b)
  | .mwr d a b => .mwr (f d) (f a) (f b)
  | .mrdc d a b => .mrdc (f d) (f a) (f b)
  | .mwl d a b => .mwl (f d) (f a) (f b)
  | .mstat d => .mstat (f d)
  | .mopm t a b c m => .mopm t (f a) (f b) (f c) m
  | .mvw t a b c m => .mvw t (f a) (f b) (f c) m
  | .add d a b => .add (f d) (f a) (f b)
  | .sub d a b => .sub (f d) (f a) (f b)
  | .and d a b => .and (f d) (f a) (f b)
  | .or d a b => .or (f d) (f a) (f b)
  | .xor d a b => .xor (f d) (f a) (f b)
  | .andn d a b => .andn (f d) (f a) (f b)
  | .sll d a b => .sll (f d) (f a) (f b)
  | .srl d a b => .srl (f d) (f a) (f b)
  | .sra d a b => .sra (f d) (f a) (f b)
  | .rot d a b => .rot (f d) (f a) (f b)
  | .slt d a b => .slt (f d) (f a) (f b)
  | .sltn d a b => .sltn (f d) (f a) (f b)
  | .min d a b => .min (f d) (f a) (f b)
  | .max d a b => .max (f d) (f a) (f b)
  | .minn d a b => .minn (f d) (f a) (f b)
  | .maxn d a b => .maxn (f d) (f a) (f b)
  | .mul d a b => .mul (f d) (f a) (f b)
  | .mulh d a b => .mulh (f d) (f a) (f b)
  | .mulhn d a b => .mulhn (f d) (f a) (f b)
  | .div d a b => .div (f d) (f a) (f b)
  | .divn d a b => .divn (f d) (f a) (f b)
  | .rem d a b => .rem (f d) (f a) (f b)
  | .remn d a b => .remn (f d) (f a) (f b)
  | .popc d a => .popc (f d) (f a)
  | .clz d a => .clz (f d) (f a)
  | .ctz d a => .ctz (f d) (f a)
  | .sxb d a => .sxb (f d) (f a)
  | .sxh d a => .sxh (f d) (f a)
  | .sxw d a => .sxw (f d) (f a)
  | .zxw d a => .zxw (f d) (f a)
  | .bswap d a => .bswap (f d) (f a)
  | .addi d a i => .addi (f d) (f a) i
  | .andi d a i => .andi (f d) (f a) i
  | .ori d a i => .ori (f d) (f a) i
  | .xori d a i => .xori (f d) (f a) i
  | .slli d a s => .slli (f d) (f a) s
  | .srli d a s => .srli (f d) (f a) s
  | .srai d a s => .srai (f d) (f a) s
  | .roti d a s => .roti (f d) (f a) s
  | .slti d a i => .slti (f d) (f a) i
  | .sltni d a i => .sltni (f d) (f a) i
  | .pcrel d i => .pcrel (f d) i
  | .ldB d a o => .ldB (f d) (f a) o
  | .ldH d a o => .ldH (f d) (f a) o
  | .ldW d a o => .ldW (f d) (f a) o
  | .ldD d a o => .ldD (f d) (f a) o
  | .ldBn d a o => .ldBn (f d) (f a) o
  | .ldHn d a o => .ldHn (f d) (f a) o
  | .ldWn d a o => .ldWn (f d) (f a) o
  | .stB d a o => .stB (f d) (f a) o
  | .stH d a o => .stH (f d) (f a) o
  | .stW d a o => .stW (f d) (f a) o
  | .stD d a o => .stD (f d) (f a) o
  | .beq a b o => .beq (f a) (f b) o
  | .bne a b o => .bne (f a) (f b) o
  | .blt a b o => .blt (f a) (f b) o
  | .bge a b o => .bge (f a) (f b) o
  | .bltn a b o => .bltn (f a) (f b) o
  | .bgen a b o => .bgen (f a) (f b) o
  | .jal d o => .jal (f d) o
  | .jalr d a i => .jalr (f d) (f a) i
  | .amoaddD d a b => .amoaddD (f d) (f a) (f b)
  | .amoandD d a b => .amoandD (f d) (f a) (f b)
  | .amoorD d a b => .amoorD (f d) (f a) (f b)
  | .amoxorD d a b => .amoxorD (f d) (f a) (f b)
  | .amominD d a b => .amominD (f d) (f a) (f b)
  | .amomaxD d a b => .amomaxD (f d) (f a) (f b)
  | .amominnD d a b => .amominnD (f d) (f a) (f b)
  | .amomaxnD d a b => .amomaxnD (f d) (f a) (f b)
  | .amoswapD d a b => .amoswapD (f d) (f a) (f b)
  | .amocasD d a b => .amocasD (f d) (f a) (f b)
  | .amoaddW d a b => .amoaddW (f d) (f a) (f b)
  | .amoandW d a b => .amoandW (f d) (f a) (f b)
  | .amoorW d a b => .amoorW (f d) (f a) (f b)
  | .amoxorW d a b => .amoxorW (f d) (f a) (f b)
  | .amominW d a b => .amominW (f d) (f a) (f b)
  | .amomaxW d a b => .amomaxW (f d) (f a) (f b)
  | .amominnW d a b => .amominnW (f d) (f a) (f b)
  | .amomaxnW d a b => .amomaxnW (f d) (f a) (f b)
  | .amoswapW d a b => .amoswapW (f d) (f a) (f b)
  | .amocasW d a b => .amocasW (f d) (f a) (f b)
  | .bar a => .bar (f a)
  | .waitNe d a => .waitNe (f d) (f a)
  | .waitGe d a => .waitGe (f d) (f a)
  | .zline a => .zline (f a)
  | .ctlRd d n => .ctlRd (f d) n
  | .ctlWr a n => .ctlWr (f a) n
  | .ctlWrVstart a => .ctlWrVstart (f a)
  | .ctlWrFflags a => .ctlWrFflags (f a)
  | .ctlWrCtximg a => .ctlWrCtximg (f a)
  | .stkvec a => .stkvec (f a)
  | .unstkvec a => .unstkvec (f a)
  | .tlbinv a => .tlbinv (f a)
  | .icinv a => .icinv (f a)
  | .ldrule a => .ldrule (f a)
  | .strule a => .strule (f a)
  | .vtobfpTwin d a b m dt => .vtobfpTwin (f d) (f a) (f b) m dt
  | .vfrombfpTwin d a b m dt => .vfrombfpTwin (f d) (f a) (f b) m dt
  | .kvselTwin a => .kvselTwin (f a)
  | .mopsTwin t a b c m => .mopsTwin t (f a) (f b) (f c) m
  | .mwlTwin d a b => .mwlTwin (f d) (f a) (f b)
  | .mvwTwin t a b c m => .mvwTwin t (f a) (f b) (f c) m
  | i => i

end Sys2Proof
end

