-- ==== Sys2Proof/Machine/State.lean ====
section
/-! DEFINITION. The state of a whole module as plain data, and the state right after reset. A list keyed by a number holds
only what differs from the default of its entry. Presence (05_elements.md R108) and the interlock
entries (07_memory.md R177, R178) are no fields: a grain is pending exactly while a standing rule still has an element to write
in it (R109), and an entry's sides are those of the accesses its rule still has to perform, so both are computed from the rules. -/

namespace Sys2Proof.Machine

/-- Why the machine stops with a fault. No step of this machine does: every cause of R397 is taken as a trap, which is a
next state. Nobody raises it, so it is neither safe nor unsafe. -/
inductive Fault where
  deriving DecidableEq, Repr

/-- Why a step has no meaning. -/
inductive Refusal where
  /-- Raised only by an arm of `exec` that has no meaning yet: the machine stops there. Safe: no claim about that instruction
  can be proved. -/
  | notModelled (mnemonic : String)
  deriving DecidableEq, Repr

/-- Bytes by address: addresses strictly rise and no entry is zero, which is what an unlisted address reads as (R420). -/
abbrev Memory := List Host.Cell

/-- A partial sum of a bag at one buffer (14_pooling.md R317, R318): one word per output column. -/
structure Partial where
  bag    : Nat
  buffer : Nat
  sums   : List Nat
  deriving DecidableEq, Repr

/-- A step of a list's chain (R236). -/
structure ChainStep where
  rebase : Bool
  lo     : Word
  hi     : Word
  delta  : Word
  deriving DecidableEq, Repr

/-- A segment of a handle (R398): its region, the bytes used, and its chain. -/
structure Segment where
  base     : Word
  capacity : Word
  used     : Word
  steps    : List ChainStep
  deriving DecidableEq, Repr

/-- What an engine rule, or a rule that waits, carries beside its done mask: layouts and performed transfers of a copy (R215), index
words of `kvsel` (R364) or of a load (log 74), pooling partials (R317), the chunks and acknowledgements of a collective (R368) or the
entries and faulting bags of a `spool` (R319), the data that a load's elements have taken and not yet written (R112), the instants at which waits for the scratchpad (R205, by element) and for peers (R370)
began, the lists that a load or `elapply` reads (R233, R238), the step reached, the step at which a `kvsel` was stopped (R365) or, of a
collective whose task has ended, that task's tag mask, whether the task of a collective has ended (R404), and a collective's place in the order of issue and its number on its endpoint (R367). -/
structure Engine where
  phase  : Nat := 0
  src    : List Word := []
  dst    : List Word := []
  xfers  : List Nat := []
  index  : List Nat := []
  header : List Nat := []
  parts  : List Partial := []
  chunks : List (Nat × List Byte) := []
  acks   : List Nat := []
  held   : List (Nat × Nat) := []
  waits  : List (Nat × Word) := []
  segs   : List Segment := []
  since  : Word := 0
  stopped : Nat := 0
  orphan : Bool := false
  ticket : Nat := 0
  call   : Nat := 0
  deriving DecidableEq, Repr

/-- The hull of the lines that the performed accesses of a rule touched (R178): in device memory what it read and wrote, in the
scratchpad what it read and wrote; each from the lowest line to the highest. -/
structure Hull where
  rd  : Option (Nat × Nat) := none
  wr  : Option (Nat × Nat) := none
  srd : Option (Nat × Nat) := none
  swr : Option (Nat × Nat) := none
  deriving DecidableEq, Repr

/-- Bytes that a vector-stream read of the rule `seq` took while an older rule had reads to make, from a physical address on
(R148; log 87). -/
structure Ahead where
  seq   : Nat
  pa    : Nat
  bytes : List Byte
  deriving DecidableEq, Repr

/-- A standing rule, or an instruction in the vector queue, with its snapshot (R107) and what is done of it (R110). `opD`,
`opA`, `opB` are the scalar operands captured at issue, `r` the resume index (R401), `lanes` the grant L and `spans` the spans it is made of (R107, R124), `strip` the
loop and the strip under vstrip.i (R127), `seq` a number that no other standing
rule of the context has, `hull` its performed accesses, `owes` the grains that it has to write and that its image held as not present (R117), `fault` the fault of an element that is not yet taken (R396): cause, telem, taddr. `issued` tells a rule
that stands in the window from one that still waits in the queue; `stood` counts the words that its context has run while it stood (log 4). -/
structure Rule where
  pc       : Word
  instr    : Instr
  routine  : Bool := false
  cdepth   : Nat := 0
  chandle  : Nat := 0
  wb       : Nat := 0
  vtype    : Word := 0
  mtype    : Word := 0
  vl       : Nat := 0
  vstart   : Nat := 0
  opD      : Word := 0
  opA      : Word := 0
  opB      : Word := 0
  r        : Nat := 0
  done     : BitVec 4096 := 0
  issued   : Bool := false
  detached : Bool := false
  fault    : Option (Cause × Nat × Word) := none
  lanes    : Nat := 16
  spans    : List Nat := []
  strip    : Option (Nat × Nat) := none
  seq      : Nat := 0
  stood    : Nat := 0
  hull     : Hull := {}
  owes     : List Nat := []
  eng      : Engine := {}
  deriving DecidableEq, Repr

/-- Strip state (R125). -/
structure Strip where
  sc          : Word := 0
  sb          : Word := 0
  sbody       : Word := 0
  sbend       : Word := 0
  isOpen      : Bool := false
  independent : Bool := false
  reg         : Reg := 0
  deriving DecidableEq, Repr

/-- The state of a handle (R222). -/
inductive HandleState where
  | free
  | opened
  | sealed
  deriving DecidableEq, Repr

/-- An entry of the handle table (R222, R398). -/
structure Handle where
  state : HandleState := .free
  segs  : List Segment := []
  deriving DecidableEq, Repr

/-- A collecting frame (R221, R225). -/
structure CollFrame where
  handle : Nat := 0
  d      : Reg := 0
  deriving DecidableEq, Repr

/-- A position inside a microcode routine (R49-R52): the trigger, and the routine in the store. -/
structure Routine where
  word  : BitVec 32
  pc    : Word
  entry : Nat
  words : Nat
  fmt   : Nat
  off   : Nat
  deriving DecidableEq, Repr

/-- A message on a route tag (R358). -/
structure Message where
  addr    : Word
  payload : List Byte
  sender  : Nat
  deriving DecidableEq, Repr

/-- The task of a context: its tenant, its launch, its ticket and what its launch asked for (R334, R40). -/
structure Task where
  tenant   : Nat
  launch   : Nat
  ticket   : Word := 0
  launchid : Word := 0
  scratch  : Nat := 0
  gang     : Bool := false
  gangkey  : Nat := 0
  deriving DecidableEq, Repr

/-- A fault of a scalar instruction whose trap is not yet taken (R396): what its frame will say (R400), the event flag of
R399, and whether a routine goes on at its next word, as after `trap` and `ecall` (R409). -/
structure Pending where
  cause : Cause
  pc    : Word
  rpc   : Word
  elem  : Nat := 0
  addr  : Word := 0
  event : Bool := false
  next  : Bool := false
  deriving DecidableEq, Repr

/-- What the front end of a context is doing. -/
inductive Hold where
  /-- No task. -/
  | idle
  /-- Runs the word at its pc. -/
  | run
  /-- Waits for older work; the word at its pc executes again (R130). -/
  | stall
  /-- Waits at `wait.ne`, or at `wait.ge` where `ge` holds, since the first read (R343): the limit register and the address
  register. -/
  | memory (since : Word) (ge : Bool) (d a : Reg)
  /-- Parked since then (R340); `woken` once its park is over and it waits for a span. -/
  | park (since : Word) (woken : Bool)
  /-- Held at a barrier (R342): scope, id, and whether it was saved while it was held. -/
  | barrier (scope id : Nat) (saved : Bool)
  /-- Saved by pre-emption (R417) or, with `yielded`, by `yield` (R340). -/
  | saved (yielded parked : Bool)
  /-- A handler stopped in a faulted chain (R362). -/
  | stopped
  deriving DecidableEq, Repr

/-- What a request asks of another module: a load, a store, one of the atomics that Ultra Ethernet carries (R186, R387), or that the
instruction caches of every module of the pod be emptied (R197). -/
inductive RemoteOp where
  | load
  | store
  | add
  | swap
  | cas
  | ifence
  deriving DecidableEq, Repr

/-- A remote access that has left the module (R163, R371): which instruction (the pc of a scalar one, the `key` of a rule) and
element, what it asks and where, its operands (of a compare-and-swap the new value, then the compare value), and the answer. -/
structure Remote where
  key    : Word
  elem   : Nat
  owner  : Nat
  tpa    : Nat
  op     : RemoteOp
  bytes  : List Byte
  issued : Word
  answer : Option (List Byte) := none
  lost   : Bool := false
  deriving DecidableEq, Repr

/-- A context, or the handler context of a route tag. A task that is saved while another runs in its context stands under an id
from 1536 on, and `origin` is the context that it was saved in. `absent` are the grains that the presence bits of a fetched register line
say are not present (R117). `userFrames` and `hndFrames` are the collecting frames of the levels that traps suspended (R239). `svFence` is the number of the first rule younger than the last
`fence.sv` (R195), `userFence` and `hndFence` those of the levels that traps suspended. `userImg` and `hndImg` are the slot images that
`ldrule` last read (R413). `ahead` are reads that went before older ones (R148). `released` are the stores that the context's last
release orders before its next stores, `heard` those ordered before stores that its loads returned, `acquired` those that its
acquires order before its further accesses, all by their numbers (R156). -/
structure Ctx where
  agent      : Agent
  origin     : Nat := 0
  pc         : Word := 0
  x          : Vector Word 128 := Vector.replicate 128 0
  v          : Memory := []
  backed     : List Nat := []
  allBacked  : Bool := false
  dirty      : List Nat := []
  absent     : List Nat := []
  q          : Vector (BitVec 4096) 8 := Vector.replicate 8 0
  vl         : Word := 0
  vtype      : Word := 0
  vstart     : Word := 0
  mtype      : Word := 0
  wb         : Word := 0
  fflags     : Word := 0
  strip      : Strip := {}
  cdepth     : Nat := 0
  frames     : Vector CollFrame 4 := Vector.replicate 4 {}
  userFrames : Vector CollFrame 4 := Vector.replicate 4 {}
  hndFrames  : Vector CollFrame 4 := Vector.replicate 4 {}
  handles    : Vector Handle 16 := Vector.replicate 16 {}
  filter     : BitVec 32768 := 0
  srcLayout  : List Word := []
  dstLayout  : List Word := []
  ctb        : Word := 0
  tagMask    : Word := 0
  tagMap     : List (Nat × Nat) := []
  tileMap    : Vector (Option Nat) 4 := Vector.replicate 4 none
  claims     : Nat := 0
  hvl        : Word := 0
  hvtype     : Word := 0
  hvstart    : Word := 0
  tstat      : Word := 0
  tcause     : Word := 0
  tpc        : Word := 0
  telem      : Word := 0
  taddr      : Word := 0
  trule      : Word := 0
  tvec       : Word := 0
  ctximg     : Word := 0
  stkaddr    : Word := 0
  rules      : List Rule := []
  queue      : List Rule := []
  userSlot   : List Rule := []
  hndSlot    : List Rule := []
  preSlot    : List Rule := []
  routine    : Option Routine := none
  outer      : Vector Word 8 := Vector.replicate 8 0
  userRtn    : Option Routine := none
  hndRtn     : Option Routine := none
  task       : Option Task := none
  want       : Nat := 0
  pending    : Option Pending := none
  hold       : Hold := .idle
  yieldBy    : Option Word := none
  arrivals   : List (Nat × Nat × Nat) := []
  remotes    : List Remote := []
  message    : Option Message := none
  stripLoop  : Nat := 0
  stripCount : Nat := 0
  seq        : Nat := 0
  svFence    : Option Nat := none
  userFence  : Option Nat := none
  hndFence   : Option Nat := none
  userImg    : Option (List Byte) := none
  hndImg     : Option (List Byte) := none
  ahead      : List Ahead := []
  released   : List Nat := []
  heard      : List Nat := []
  acquired   : List Nat := []
  deriving DecidableEq, Repr

/-- A line of an L1 (R167): its valid bytes by offset. Which bytes are pending (R168) is computed from the stores in flight.
Listed most recently used first. -/
structure L1Line where
  line  : Nat
  bytes : List Host.Cell
  deriving DecidableEq, Repr

/-- A line of an instruction cache, by tenant and virtual line (R165). -/
structure CodeLine where
  tenant : Nat
  line   : Nat
  bytes  : List Byte
  deriving DecidableEq, Repr

/-- A leaf entry of a translation cache, a complete two-stage result (R384): the page of 2^bits bytes, its frame, its leaf bits R, W,
X and U (`perm` bits 0 to 3), and the window that stage two found for it; none on a remote page. -/
structure TlbEntry where
  tenant : Nat
  page   : Nat
  bits   : Nat
  frame  : Nat
  perm   : Nat
  attr   : PageAttr
  zero   : Bool
  window : Option Window := none
  deriving DecidableEq, Repr

/-- A table entry of levels 4-2 in a table cache (R384): where the next table of a region of virtual addresses lies. -/
structure TableEntry where
  tenant : Nat
  level  : Nat
  region : Nat
  table  : Nat
  deriving DecidableEq, Repr

/-- A weight buffer's latched format and words (13_matrix.md R303). -/
structure Weights where
  format : Word
  words  : List (Nat × Nat)
  deriving DecidableEq, Repr

/-- The translation caches of a place (R384): leaf entries, and table entries of levels 4-2. -/
structure Tlb where
  leaves : List TlbEntry := []
  tables : List TableEntry := []
  deriving DecidableEq, Repr

/-- A core. `micro` are the micro-TLBs of its spans (R384). `back` lists the contexts that come back from a park and still want spans (R340); `former` names, for a span that was
freed, the contexts whose rules may still have elements mapped onto it (R123). -/
structure Core where
  spans     : Vector (Option Nat) 8 := Vector.replicate 8 none
  want      : Vector Nat 8 := Vector.replicate 8 0
  last      : Nat := 7
  back      : List Nat := []
  former    : Vector (List Nat) 8 := Vector.replicate 8 []
  rf        : List (Nat × Nat) := []
  l1        : List L1Line := []
  l1Kib     : Nat := 512
  scratch   : Memory := []
  icache    : List CodeLine := []
  cells     : List (Nat × Nat) := []
  tileOwner : Vector (Option Nat) 4 := Vector.replicate 4 none
  weights   : Vector (Option Weights) 2 := Vector.replicate 2 none
  tlb       : Tlb := {}
  micro     : Vector (List TlbEntry) 8 := Vector.replicate 8 []
  stopped   : Bool := false
  deriving DecidableEq, Repr

/-- A line of the L2 (R170, R171): its contents, whether they differ from memory, the zero flag and the cores whose L1 may
hold it; `sound` are the units of its memory that got an error after it was filled (R421). Listed most recently used first. -/
structure L2Line where
  line    : Nat
  data    : Memory
  dirty   : Bool
  zero    : Bool
  owner   : Nat
  sharers : List Nat
  sound   : List Nat := []
  deriving DecidableEq, Repr

/-- Where a store stands: in its context's store queue (R184); in the L1 and on its way to the home slice (R152); performed there
and, on a capacity page, on its way to the buffer chip (R161); performed at the buffer chip. -/
inductive Stage where
  | queued
  | toHome
  | toBuffer
  | acked
  deriving DecidableEq, Repr

/-- A unit whose error ECC could not correct (R421, R422): 32 bytes of device memory; 64 bits of a core's scratchpad or of a
context's vector registers; a cell of a core's tiles; 64 bits of a weight buffer; 64 bits of
a modified line of the L2, by address; a rule of the rule store or the vector queue, by its number. -/
inductive ErrUnit where
  | memory (n : Nat)
  | scratch (core n : Nat)
  | register (g : Agent) (n : Nat)
  | cell (core n : Nat)
  | weight (core buf n : Nat)
  | l2 (n : Nat)
  | rule (g : Agent) (seq : Nat)
  deriving DecidableEq, Repr

/-- A store that is not yet acknowledged (R152, R168, R184): its line, its bytes, who wrote it, the attribute and the zero-hint of its
page, for a store of the scalar stream the number `seq` that its context's next rule had (log 68), its own number `id`, and the stores
`after` that a release orders before it (R156; log 76). -/
structure Flight where
  agent    : Agent
  tenant   : Nat
  line     : Nat
  bytes    : List Host.Cell
  capacity : Bool
  zero     : Bool := false
  seq      : Nat := 0
  id       : Nat := 0
  after    : List Nat := []
  stage    : Stage
  deriving DecidableEq, Repr

/-- A microcode directory entry (R93). -/
structure MicroEntry where
  major : Nat
  mask  : Nat
  value : Nat
  fmt   : Nat
  entry : Nat
  words : Nat
  deriving DecidableEq, Repr

/-- A microcode bundle as the stores hold it (R53, R93). -/
structure Bundle where
  id       : Nat := 3
  entries  : List MicroEntry := []
  code     : List (BitVec 32) := []
  presents : List Nat := []
  twins    : Bool := false
  deriving DecidableEq, Repr

/-- A row of the accepted-class list (R92): the class by the eight bytes of its name, the bundle id, and whether the section holds
the W20 additions as twin words (1) or as native words (0) (R91). -/
structure Accepted where
  cls    : Nat
  bundle : Nat
  via    : Nat
  deriving DecidableEq, Repr

/-- A kernel descriptor of a loaded object (R86). -/
structure Kernel where
  entry   : Word
  spans   : Nat
  tiles   : Nat
  tags    : Word
  scratch : Nat
  gang    : Bool
  deriving DecidableEq, Repr

/-- A code handle that LOADED returned (R95, R96). -/
structure CodeHandle where
  id      : Nat
  base    : Word
  size    : Nat
  kernels : List Kernel
  deriving DecidableEq, Repr

/-- The states of a queue (R330). -/
inductive QueueState where
  | off
  | idle
  | fetch
  | held
  | poll (since last interval : Word)
  | stalled
  | drain
  deriving DecidableEq, Repr

/-- A queue of a tenant (R327, R328): its record, state, counts, whether it holds a hardware slot, and whether a notify reached it while it
was STALLED and could not be mapped (R351). -/
structure Queue where
  number   : Nat
  base     : Word
  lslots   : Nat
  device   : Bool
  fvec     : Nat
  notify   : Word
  state    : QueueState
  consumed : Word
  produced : Word
  mapped   : Bool
  kicked   : Nat
  woken    : Bool := false
  deriving DecidableEq, Repr

/-- The states of a launch (R333). -/
inductive LaunchState where
  | waiting
  | ready
  | draining
  deriving DecidableEq, Repr

/-- A launch in the table (R325, R333): the fields of its record, and what has become of it. `ranges` are the tickets left to
each die (R335), `extra` the tickets that the loss of a die left to another die, or, under die 4, to any (R423); `running` counts
the tasks that have not ended, the saved ones among them. -/
structure Launch where
  id       : Nat
  queue    : Nat
  arrival  : Nat
  record   : Word
  fields   : List Byte
  code     : Nat
  kernel   : Nat
  state    : LaunchState := .waiting
  met0     : Bool := false
  met1     : Bool := false
  ranges   : List (Nat × Nat) := []
  extra    : List (Nat × Nat × Nat) := []
  running  : Nat := 0
  failed   : Nat := 0
  outcome  : Nat := 0
  late     : Bool := false
  actFault : Bool := false
  listGone : Bool := false
  placed   : Bool := false
  dead     : Bool := false
  deriving DecidableEq, Repr

/-- An interrupt message that waits for its acknowledgement (R389). -/
structure Interrupt where
  vector : Nat
  kind   : Nat
  lost   : Nat
  status : Word
  now    : Word
  source : Word
  deriving DecidableEq, Repr

/-- A call that has taken its number on an endpoint of this module (R367): the endpoint, what the call says (`Rule.callOf`), and whether
the die of its context was lost before it completed (R370, R424). -/
structure Made where
  endpoint : Nat
  call     : List Nat
  lost     : Bool := false
  deriving DecidableEq, Repr

/-- A tenant: what it owns (R374), its system registers (R386, R405, R431), and what the scheduler and the management core
hold for it. `revoked` are the windows it had, `stale` the device ranges of those that no window has covered since. `colls` counts its collectives in the order of their issue, `calls` those performed on each of its endpoints, and `made` are those (R367). -/
structure Tenant where
  id        : Nat
  cores     : List Nat := []
  wayMask   : Nat := 0xFFFF
  groups    : List Nat := []
  capSlots  : Nat := 0
  windows   : List (Nat × Window) := []
  revoked   : List Window := []
  stale     : List (Nat × Nat) := []
  mustSign  : Bool := false
  endpoints : Nat := 1
  ports     : List (Nat × Nat × List Byte) := []
  keys      : List (Word × List Byte) := []
  pool      : Word := 0
  spbase    : Word := 0
  spwait    : Word := 1024
  ygrace    : Word := 20000
  wlimit    : Word := 0xFFFFFFFFFFFFFFFF
  ptroot    : Word := 0
  hostvec   : Word := 0
  tvecdef   : Word := 0
  rlogbase  : Word := 0
  rlogsize  : Word := 32
  rlogseq   : Word := 0
  rvec      : Word := 0
  xmask     : Word := 0
  cecount   : Word := 0
  code      : List CodeHandle := []
  queues    : List Queue := []
  launches  : List Launch := []
  consumed  : Nat := 0
  pendInts  : List Interrupt := []
  lostInts  : Nat := 0
  colls     : Nat := 0
  calls     : List (Nat × Nat) := []
  made      : List Made := []
  deriving DecidableEq, Repr

/-- A fabric chain (R353, R362). `tags` are the handler entries, `queues` the messages of each tag. -/
structure Chain where
  tenant  : Nat
  slice   : Nat
  first   : Nat
  rods    : Nat
  fvec    : Nat
  tags    : List Word
  queues  : List (Nat × Message) := []
  faulted : Bool := false
  fault   : Option (Nat × Pending) := none
  icache  : List CodeLine := []
  deriving DecidableEq, Repr

/-- What leaves the module: answers to the host and the management endpoint, interrupts, and traffic to other modules. A chunk says
which call it belongs to: its number on the endpoint, op, dtype, redop, wire, count, n and the rank entries (R367). -/
inductive Output where
  | response (seq : Word) (status : Nat) (payload : List Byte)
  | completion (ok : Bool) (data : List Byte)
  | interrupt (tenant endpoint : Nat) (payload : List Byte)
  | chainFault (slice tag cause : Nat) (tpc taddr : Word) (message : List Byte)
  | remote (owner tpa : Nat) (op : RemoteOp) (data : List Byte)
  | chunk (endpoint peer : Nat) (call : List Nat) (data : List Byte)
  | loaded (status handle : Nat) (data : List Byte)
  deriving DecidableEq, Repr

/-- A move of some agent, as the agenda `moves` lists it (log 2). -/
inductive Move where
  /-- An event of the machine or of the outside, executed as its instruction. -/
  | event (i : Instr)
  /-- The front end turns to that context (R338). -/
  | turn (g : Agent)
  /-- The context whose turn it is runs one word, and nothing else happens. -/
  | word
  /-- The oldest store in the store queue of a context is written into the L1 (R184, R195). -/
  | storeQueue (g : Agent)
  /-- The head of the vector queue of a context issues (R107, R129). -/
  | issue (g : Agent)
  /-- Another module asks for the instruction caches to be emptied (R197). -/
  | podIfence
  /-- Another module is declared lost (R370). -/
  | moduleLost (module : Nat)
  /-- The die of a rank on another module, named by its rank entry, is declared lost (R370). -/
  | rankLost (rank : Nat)
  /-- Time passes (R20). -/
  | tick (ns : Word)
  /-- The check value of a line no longer fits its data (R419). -/
  | corrupt (line : Nat)
  /-- A unit gets an error that ECC cannot correct (R421, R422). -/
  | uncorrectable (u : ErrUnit)
  /-- ECC corrects an error in a tenant's resources (R421). -/
  | corrected (tenant : Nat)
  deriving DecidableEq, Repr

/-- The addresses that a store has written and nothing has overwritten since, where a release of its context ordered the stores `after`
before it (R156). -/
structure Trail where
  agent : Agent
  bytes : List Nat
  after : List Nat
  deriving DecidableEq, Repr

/-- The state of the module. `stores` counts the stores made, `trails` are the stores of released contexts that same-core loads may still
return (R156). `ctx` is the context whose turn at the front end it is; `others` are all other contexts that
differ from an idle one; `served` is the one whose rules an engine of the module served last (R338). `lists` names the work lists in use, each by its tenant and the line of its descriptor, with whether its
slice was lost (R424). -/
structure State where
  ctx         : Ctx
  others      : List Ctx
  served      : Agent
  cores       : List (Nat × Core)
  hbm         : Memory
  l2          : List L2Line
  homeMap     : List (Nat × Nat)
  flights     : List Flight
  stores      : Nat
  trails      : List Trail
  now         : Word
  mismatch    : List Nat
  lostUnits   : List ErrUnit
  bundle      : Bundle
  newBundle   : Option Bundle
  classes     : List Accepted
  tenants     : List Tenant
  chains      : List Chain
  ioTlb       : Vector Tlb 2
  lists       : List (Nat × Nat × Bool)
  sequences   : List (List Byte × Word)
  measures    : Vector (List Byte) 8
  firmware    : Bool
  linkUp      : Bool
  clockSteps  : Vector Nat 4
  diesLost    : List Nat
  modulesLost : List Nat
  out         : List Output
  junk        : Nat
  moves       : List Move
  deriving DecidableEq, Repr

/-- A context as reset leaves it. -/
def Ctx.reset (g : Agent) : Ctx := { agent := g }

/-- A core as reset leaves it. -/
def Core.reset : Core := {}

/-- The module right after reset, before its firmware runs (R391): no tenant, no task, empty caches, HomeMap as R169 gives
it, memory with nothing listed (R420). The values that the spec does not give are those of log 1. -/
def State.reset : State where
  ctx        := Ctx.reset (.ctx 0)
  others     := []
  served     := .ctx 0
  cores      := []
  hbm        := []
  l2         := []
  homeMap    := []
  flights    := []
  stores     := 0
  trails     := []
  now        := 0
  mismatch   := []
  lostUnits  := []
  bundle     := {}
  newBundle  := none
  classes    := []
  tenants    := []
  chains     := []
  ioTlb      := Vector.replicate 2 {}
  lists      := []
  sequences  := []
  measures   := Vector.replicate 8 (List.replicate 32 0)
  firmware   := false
  linkUp     := false
  clockSteps := Vector.replicate 4 0
  diesLost   := []
  modulesLost := []
  out        := []
  junk       := 0
  moves      := []

end Sys2Proof.Machine
end

