-- ==== Sys2Proof/Machine/Memory.lean ====
section
/-! DEFINITION. Memory in its one canonical form, the agents' parts of the state, the home slices and the L2 (07_memory.md
R169-R171), the L1 (R166-R168), and stores on their way (06_ordering.md R152). Only this file decides byte order (R3). -/

namespace Sys2Proof.Machine

/-- The byte at an address; an unlisted address reads as zero (R420). -/
def Memory.read : Memory → Nat → Byte
  | [], _ => 0
  | (k, b) :: t, a => if k = a then b else if a < k then 0 else Memory.read t a

/-- Writes one byte and keeps the canonical form: a zero is not listed. -/
def Memory.write : Memory → Nat → Byte → Memory
  | [], a, b => if b = 0 then [] else [(a, b)]
  | (k, c) :: t, a, b =>
    if a < k then (if b = 0 then (k, c) :: t else (a, b) :: (k, c) :: t)
    else if a = k then (if b = 0 then t else (a, b) :: t)
    else (k, c) :: Memory.write t a b

/-- Addresses strictly rise from `lo` on, and no entry is zero. -/
def Memory.wfFrom : Nat → Memory → Bool
  | _, [] => true
  | lo, (k, b) :: t => decide (lo ≤ k) && decide (b ≠ 0) && Memory.wfFrom (k + 1) t

/-- The canonical form. -/
def Memory.wf (m : Memory) : Bool := Memory.wfFrom 0 m

/-- `n` bytes from an address on. -/
def Memory.readBytes (m : Memory) (a : Nat) : Nat → List Byte
  | 0 => []
  | n + 1 => m.read a :: Memory.readBytes m (a + 1) n

/-- Writes bytes from an address on. -/
def Memory.writeBytes (m : Memory) (a : Nat) : List Byte → Memory
  | [] => m
  | b :: bs => Memory.writeBytes (m.write a b) (a + 1) bs

/-- Writes cells, each at its own address. -/
def Memory.writeCells (m : Memory) : List Host.Cell → Memory
  | [] => m
  | (a, b) :: cs => Memory.writeCells (m.write a b) cs

/-- Every byte from `lo` up to `hi` becomes zero. -/
def Memory.clear (m : Memory) (lo hi : Nat) : Memory := m.filter fun c => decide (c.1 < lo) || decide (hi ≤ c.1)

/-- The cells from `lo` up to `hi`, their addresses counted from `lo`. -/
def Memory.slice (m : Memory) (lo hi : Nat) : Memory :=
  (m.filter fun c => decide (lo ≤ c.1) && decide (c.1 < hi)).map fun c => (c.1 - lo, c.2)

/-- A little-endian number of `n` bytes (R3). -/
def Memory.readNat (m : Memory) (a n : Nat) : Nat := ofBytes (m.readBytes a n)

/-- The cells that hold `bytes` from an address on. -/
def cellsAt (a : Nat) : List Byte → List Host.Cell
  | [] => []
  | b :: bs => (a, b) :: cellsAt (a + 1) bs

/-- The value listed for a key. -/
def lookup? {α : Type} (k : Nat) : List (Nat × α) → Option α
  | [] => none
  | (j, a) :: t => if j = k then some a else lookup? k t

/-- Lists a value for a key, in its place or at the end. -/
def assign {α : Type} (k : Nat) (a : α) : List (Nat × α) → List (Nat × α)
  | [] => [(k, a)]
  | (j, b) :: t => if j = k then (k, a) :: t else (j, b) :: assign k a t

/-! ## Contexts, cores, tenants -/

/-- The core of an agent; a handler has none. -/
def coreOf : Agent → Option Nat
  | .ctx id => some (id / 8)
  | .handler _ _ _ => none

/-- The core whose scratchpad, tiles and weight buffers an agent reaches. -/
def scratchCore (g : Agent) : Nat := (coreOf g).getD 0

/-- The first context of an agent in a list. -/
def findCtx (g : Agent) : List Ctx → Option Ctx
  | [] => none
  | c :: t => if c.agent = g then some c else findCtx g t

/-- Puts a context in the place of its agent's, or at the end. -/
def putCtx (c : Ctx) : List Ctx → List Ctx
  | [] => [c]
  | d :: t => if d.agent = c.agent then c :: t else d :: putCtx c t

/-- The context of an agent. -/
def State.getCtx (s : State) (g : Agent) : Ctx :=
  if s.ctx.agent = g then s.ctx else (findCtx g s.others).getD (Ctx.reset g)

/-- Stores a context under its agent. -/
def State.setCtx (s : State) (c : Ctx) : State :=
  if s.ctx.agent = c.agent then { s with ctx := c } else { s with others := putCtx c s.others }

/-- Every context that is not at its reset value. -/
def State.allCtx (s : State) : List Ctx := s.ctx :: s.others

/-- Changes the context of an agent. -/
def State.mapCtx (s : State) (g : Agent) (f : Ctx → Ctx) : State := s.setCtx (f (s.getCtx g))

/-- The front end turns to another context (R338). -/
def State.turnTo (s : State) (g : Agent) : State :=
  if s.ctx.agent = g then s else
  { s with ctx := s.getCtx g, others := putCtx s.ctx (s.others.filter fun c => decide (c.agent ≠ g)) }

/-- A core. -/
def State.core (s : State) (k : Nat) : Core := (lookup? k s.cores).getD Core.reset

/-- Stores a core. -/
def State.setCore (s : State) (k : Nat) (c : Core) : State := { s with cores := assign k c s.cores }

/-- Changes a core. -/
def State.mapCore (s : State) (k : Nat) (f : Core → Core) : State := s.setCore k (f (s.core k))

/-- The first tenant of a number in a list. -/
def findTenant (t : Nat) : List Tenant → Option Tenant
  | [] => none
  | a :: r => if a.id = t then some a else findTenant t r

/-- A tenant; one that does not exist owns nothing. -/
def State.tenant (s : State) (t : Nat) : Tenant := (findTenant t s.tenants).getD { id := t, wayMask := 0, endpoints := 0 }

/-- Changes a tenant that exists. -/
def State.mapTenant (s : State) (t : Nat) (f : Tenant → Tenant) : State :=
  { s with tenants := s.tenants.map fun a => if a.id = t then f a else a }

/-- The tenant that an agent works for: that of its task, or of its chain; for a context without a task the tenant whose core it
stands on (R374). -/
def State.tenantOf (s : State) (g : Agent) : Nat :=
  match (s.getCtx g).task with
  | some k => k.tenant
  | none =>
    match g with
    | .ctx id => ((s.tenants.find? fun a => a.cores.contains (id / 8)).map (·.id)).getD 0
    | .handler t _ _ => t

/-! ## Home slices and the L2 -/

/-- The 24-bit fold of a line number (R169). -/
def foldLine (line : Nat) : Nat :=
  Nat.xor (Nat.xor (line % 2 ^ 24) (line / 2 ^ 24 % 2 ^ 24)) (line / 2 ^ 48 % 2 ^ 16)

/-- The home slice of a line (R169). -/
def State.homeSlice (s : State) (line : Nat) : Nat :=
  let i := foldLine line % 3072
  (lookup? i s.homeMap).getD (i % 192)

/-- The set of a line within its slice (R169). -/
def homeSet (line : Nat) : Nat := foldLine line / 3072 % 2048

/-- The L2's copy of a line. -/
def State.l2Find (s : State) (line : Nat) : Option L2Line := s.l2.find? fun e => e.line == line

/-- Whether a store is performed at its home slice and on its way to a buffer chip (R161). -/
def Flight.toChip (f : Flight) : Bool := f.capacity && decide (f.stage = .toBuffer)

/-- Memory as a read finds it behind the stores that are on their way to its buffer chip: a read of a line follows them (R161). -/
def State.behind (s : State) : Memory :=
  s.flights.foldl (fun (m : Memory) f => if f.toChip then m.writeCells f.bytes else m) s.hbm

/-- The byte that the home slice holds for a physical address: the L2's, else memory's. -/
def State.homeByte (s : State) (pa : Nat) : Byte :=
  match s.l2Find (pa / 128) with
  | some e => e.data.read (pa % 128)
  | none => s.behind.read pa

/-- `n` bytes at home. -/
def State.homeBytes (s : State) (pa : Nat) : Nat → List Byte
  | 0 => []
  | n + 1 => s.homeByte pa :: State.homeBytes s (pa + 1) n

/-- Drops a line from the L1 of every core but one (R170). -/
def State.invalidateL1 (s : State) (line : Nat) (except : Option Nat) : State :=
  { s with cores := s.cores.map fun (k, c) =>
      if some k = except then (k, c) else (k, { c with l1 := c.l1.filter fun e => e.line != line }) }

/-- Whether the store's write-through is not yet acknowledged (R168). -/
def Flight.isPending (f : Flight) : Bool := decide (f.stage ≠ .acked)

/-- Whether the store of a number is not yet acknowledged. -/
def State.underway (s : State) (id : Nat) : Bool := s.flights.any fun f => f.id == id && f.isPending

/-- Bytes are written: the trails of stores lose them that `whose` accepts (R156). -/
def State.overwritten (s : State) (whose : Agent → Bool) (bytes : List Host.Cell) : State :=
  if s.trails.isEmpty then s else
  let cut := s.trails.map (fun (t : Trail) =>
    if whose t.agent then { t with bytes := t.bytes.filter fun a => !bytes.any fun c => c.1 == a } else t)
  { s with trails := cut.filter (fun (t : Trail) => !t.bytes.isEmpty && t.after.any s.underway) }

/-- Writes a line of the L2 back and drops it from the L1s (R170, R171). Its errors go with it (R422). -/
def State.l2Evict (s : State) (e : L2Line) : State :=
  let s := { s with l2 := s.l2.filter fun x => x.line != e.line }
  let s := if e.dirty then
      { s with
        hbm := (s.hbm.clear (128 * e.line) (128 * e.line + 128)).writeCells (e.data.map fun c => (128 * e.line + c.1, c.2))
        lostUnits := (s.lostUnits.filter (fun u => match u with
          | .memory k => !(k / 4 == e.line && e.sound.contains (k % 4))
          | _ => true)).map (fun u => match u with
          | .l2 w => if w / 16 = e.line then .memory (w / 4) else u
          | u => u) }
    else s
  s.invalidateL1 e.line none

/-- How many ones a number has. -/
def popcount : Nat → Nat → Nat
  | 0, _ => 0
  | n + 1, x => x % 2 + popcount n (x / 2)

/-- Makes room for a line of a tenant: the least recently used line of its ways in the set goes (R170, R374). -/
def State.l2Room (s : State) (tenant line : Nat) : State :=
  let mine := s.l2.filter fun e => e.owner == tenant && homeSet e.line == homeSet line && s.homeSlice e.line == s.homeSlice line
  if mine.length < max 1 (popcount 16 (s.tenant tenant).wayMask) then s
  else match mine.getLast? with
    | some e => s.l2Evict e
    | none => s

/-- The L2 holds the line afterwards, most recently used: filled from memory, or as a zero line where the page has its
zero-hint (R171, R381). -/
def State.l2Fill (s : State) (tenant line : Nat) (zeroHint : Bool) : State :=
  match s.l2Find line with
  | some e => { s with l2 := e :: s.l2.filter fun x => x.line != line }
  | none =>
    let s := s.l2Room tenant line
    let data := if zeroHint then [] else s.behind.slice (128 * line) (128 * line + 128)
    { s with l2 := { line := line, data := data, dirty := false, zero := zeroHint, owner := tenant, sharers := [] } :: s.l2 }

/-- A write of a whole line replaces its check value, and one of a whole unit clears its uncorrectable error; a partial write
leaves either (R419, R422). `whole` says whether the write covers a run of bytes. -/
def State.repair (s : State) (whole : Nat → Nat → Bool) : State :=
  { s with
    mismatch := s.mismatch.filter fun l => !whole (128 * l) 128
    lostUnits := s.lostUnits.filter fun u => match u with
      | .memory k => !whole (32 * k) 32
      | .l2 w => !whole (8 * w) 8
      | _ => true }

/-- Whether bytes cover a run of addresses. -/
def coversRun (bytes : List Host.Cell) (lo n : Nat) : Bool :=
  decide (n ≤ bytes.length) && (List.range n).all fun i => bytes.any fun c => c.1 == lo + i

/-- A store is performed at the home slice of its line (R152, R170, R171): the L2 takes the bytes, every other core's L1
copy goes, and an all-zero line becomes a zero line. `zeroHint` is that of the page (R381). -/
def State.homeWrite (s : State) (tenant line : Nat) (bytes : List Host.Cell) (capacity zeroHint : Bool) (writer : Option Nat) :
    State :=
  let s := s.l2Fill tenant line zeroHint
  let s := { s with l2 := s.l2.map fun (e : L2Line) =>
      if e.line == line then
        let d := e.data.writeCells (bytes.map fun (c : Host.Cell) => (c.1 % 128, c.2))
        { e with data := d, dirty := e.dirty || !capacity, zero := d.isEmpty, sharers := writer.toList }
      else e }
  ((s.invalidateL1 line writer).repair (coversRun bytes)).overwritten (fun g => decide (coreOf g ≠ writer) || writer.isNone) bytes

/-- Bytes reach memory behind the L2: a capacity store at its buffer chip (R161). -/
def State.bufferWrite (s : State) (bytes : List Host.Cell) : State := { s with hbm := s.hbm.writeCells bytes }

/-- Every store on its way to a buffer chip arrives there whose bytes lie from `lo` up to `hi` (R161). -/
def State.bufferRange (s : State) (lo hi : Nat) : State :=
  let here := fun f : Flight => f.toChip && decide (lo < 128 * f.line + 128) && decide (128 * f.line < hi)
  { s with
    hbm := s.flights.foldl (fun (m : Memory) f => if here f then m.writeCells f.bytes else m) s.hbm
    flights := s.flights.map fun f => if here f then { f with stage := .acked } else f }

/-- Whether an agent is another, or stands on the same core: whose stores its reads at the home slices and at the buffer chips follow. -/
def sameCore (g h : Agent) : Bool := decide (h = g) || (coreOf h).isSome && decide (coreOf h = coreOf g)

/-- A store is written into the L1 of its core: what loads of its core may return of it is behind the stores that a release of its
context ordered before it (R156). -/
def State.leaveTrail (s : State) (f : Flight) : State :=
  let s := s.overwritten (sameCore f.agent) f.bytes
  if f.after.isEmpty then s else
  { s with trails := s.trails ++ [{ agent := f.agent, bytes := f.bytes.map (·.1), after := f.after }] }

/-- A store that an agent makes at the home slice itself, an atomic's or a handler's (R158, R356): performed there at once, on a
capacity page then on its way to the buffer chip. -/
def State.homeStore (s : State) (g : Agent) (tenant line : Nat) (bytes : List Host.Cell) (capacity zeroHint : Bool) : State :=
  let f : Flight := { agent := g, tenant := tenant, line := line, bytes := bytes, capacity := true, zero := zeroHint, id := s.stores
                      after := (s.getCtx g).released.filter s.underway, stage := .toBuffer }
  let s := (s.homeWrite tenant line bytes capacity zeroHint none).leaveTrail f
  if capacity then { s with stores := s.stores + 1, flights := s.flights ++ [f] } else s

/-- A store of the device itself, performed at pkg scope at once (R152, R161). -/
def State.deviceStore (s : State) (tenant line : Nat) (bytes : List Host.Cell) (capacity zeroHint : Bool) : State :=
  let s := s.homeWrite tenant line bytes capacity zeroHint none
  if capacity then (s.bufferRange (128 * line) (128 * line + 128)).bufferWrite bytes else s

/-! ## The L1 and stores on their way -/

/-- Sets of an L1 (R166). -/
def Core.l1Sets (c : Core) : Nat := c.l1Kib

/-- The scratchpad size of a core: what the L1 leaves of 4 MiB (R166). -/
def Core.scratchBytes (c : Core) : Nat := 4 * 2 ^ 20 - kib c.l1Kib

/-- The L1's copy of a line. -/
def Core.l1Find (c : Core) (line : Nat) : Option L1Line := c.l1.find? fun e => e.line == line

/-- Puts a line into the L1 as most recently used; the least recently used line of a full set goes (R167). -/
def Core.l1Put (c : Core) (e : L1Line) : Core :=
  let rest := c.l1.filter fun x => x.line != e.line
  let mates := rest.filter fun x => x.line % c.l1Sets == e.line % c.l1Sets
  let rest := if mates.length < 8 then rest else
    match mates.getLast? with
    | some v => rest.filter fun x => x.line != v.line
    | none => rest
  { c with l1 := e :: rest }

/-- Writes valid bytes into a line's cells, keeping rising offsets. -/
def putCell (a : Nat) (b : Byte) : List Host.Cell → List Host.Cell
  | [] => [(a, b)]
  | (k, c) :: t => if a < k then (a, b) :: (k, c) :: t else if a = k then (a, b) :: t else (k, c) :: putCell a b t

/-- Writes valid bytes into a line's cells. -/
def putCells (cs : List Host.Cell) : List Host.Cell → List Host.Cell
  | [] => cs
  | (a, b) :: t => putCells (putCell a b cs) t

/-- A store writes its bytes into the line and marks them valid, allocating the line where it is absent (R167). -/
def Core.l1Store (c : Core) (line : Nat) (bytes : List Host.Cell) : Core :=
  let old := ((c.l1Find line).map (·.bytes)).getD []
  c.l1Put { line := line, bytes := putCells old (bytes.map fun b => (b.1 % 128, b.2)) }

/-- A line of the L1 becomes the most recently used. -/
def Core.l1Touch (c : Core) (line : Nat) : Core :=
  match c.l1Find line with
  | some e => { c with l1 := e :: c.l1.filter fun x => x.line != line }
  | none => c

/-- Whether a store of a core stands in the L1 and is not yet performed at its home slice. -/
def Flight.leaves (f : Flight) (core : Nat) : Bool := decide (f.stage = .toHome) && decide (coreOf f.agent = some core)

/-- The youngest store of those that `p` accepts to a physical address: its byte and its writer. -/
def youngestByte (p : Flight → Bool) (pa : Nat) : List Flight → Option (Byte × Agent)
  | [] => none
  | f :: t =>
    match youngestByte p pa t with
    | some b => some b
    | none => if p f then (lookup? pa f.bytes).map fun b => (b, f.agent) else none

/-- The line is fetched from its home slice and merged under the bytes already valid (R167), the core's stores that are not yet
performed at home among them. -/
def State.l1Fill (s : State) (tenant core line : Nat) (zeroHint : Bool) : State :=
  let s := s.l2Fill tenant line zeroHint
  let fresh := cellsAt 0 (s.homeBytes (128 * line) 128)
  let old := (((s.core core).l1Find line).map (·.bytes)).getD []
  let byte := fun c : Host.Cell =>
    match youngestByte (fun f => f.leaves core) (128 * line + c.1) s.flights with
    | some (b, _) => b
    | none => (lookup? c.1 old).getD c.2
  let s := s.mapCore core fun k => k.l1Put { line := line, bytes := fresh.map fun c => (c.1, byte c) }
  { s with l2 := s.l2.map fun (e : L2Line) => if e.line == line && !e.sharers.contains core then { e with sharers := core :: e.sharers } else e }

/-- A load returns bytes that another context of its core has stored: the stores ordered before that one are noted (R156). -/
def State.hear (s : State) (g : Agent) (pa n : Nat) : State :=
  if s.trails.isEmpty then s else
  let got := s.trails.filter fun t => decide (t.agent ≠ g) && sameCore g t.agent && t.bytes.any fun a => decide (pa ≤ a) && decide (a < pa + n)
  if got.isEmpty then s else
  s.mapCtx g fun c => { c with heard := (c.heard ++ got.flatMap (·.after)).eraseDups.filter s.underway }

/-- A store of a context is written into its L1 and sent to its home slice (R152, R167, R168). A handler bypasses the L1: its
store is performed at the home slice at once (R356). -/
def State.sendStore (s : State) (g : Agent) (tenant line : Nat) (bytes : List Host.Cell) (capacity zeroHint : Bool) : State :=
  match coreOf g with
  | none => s.homeStore g tenant line bytes capacity zeroHint
  | some k =>
    let f : Flight := { agent := g, tenant := tenant, line := line, bytes := bytes, capacity := capacity, zero := zeroHint
                        id := s.stores, after := (s.getCtx g).released.filter s.underway, stage := .toHome }
    let s := (s.mapCore k fun c => c.l1Store line bytes).leaveTrail f
    { s with stores := s.stores + 1, flights := s.flights ++ [f] }

/-- A store of the scalar stream of a context enters its store queue (R184); a handler has none. -/
def State.queueStore (s : State) (g : Agent) (tenant line : Nat) (bytes : List Host.Cell) (capacity zeroHint : Bool) : State :=
  match coreOf g with
  | none => s.homeStore g tenant line bytes capacity zeroHint
  | some _ =>
    { s with
      stores := s.stores + 1
      flights := s.flights ++ [{ agent := g, tenant := tenant, line := line, bytes := bytes, capacity := capacity, zero := zeroHint
                                 seq := (s.getCtx g).seq, id := s.stores, after := (s.getCtx g).released.filter s.underway
                                 stage := .queued }] }

/-- Whether a store stands in the store queue of an agent. -/
def Flight.queuedOf (f : Flight) (g : Agent) : Bool := decide (f.stage = .queued) && decide (f.agent = g)

/-- The stores in the store queue of an agent. -/
def State.storeQueue (s : State) (g : Agent) : List Flight := s.flights.filter fun f => f.queuedOf g

/-- What a load may read a byte from (R153, R168). -/
inductive ByteSource where
  /-- The byte, known already. -/
  | value (b : Byte)
  /-- The byte stands at the home slice. -/
  | home
  /-- Another context's store to the byte is pending: the load waits. -/
  | wait
  deriving DecidableEq, Repr

/-- Where a load of a context takes a byte from (R153, R167, R168): a store of its core that stands in the L1, else a valid byte of the
L1, else the home slice. Above core scope it waits for a pending store of another context of the core. A core's stores to a line
are performed in their order, so those not yet performed at home are the younger ones. -/
def State.byteSource (s : State) (g : Agent) (scope pa : Nat) : ByteSource :=
  match coreOf g with
  | none => .home
  | some k =>
    match youngestByte (fun f => f.leaves k) pa s.flights with
    | some (b, w) => if scope ≤ 1 ∨ w = g then .value b else .wait
    | none =>
      let near : ByteSource := match ((s.core k).l1Find (pa / 128)).bind fun e => lookup? (pa % 128) e.bytes with
        | some b => .value b
        | none => .home
      if scope ≤ 1 then near
      else
        match youngestByte (fun f => decide (f.stage = .toBuffer) && decide (coreOf f.agent = some k)) pa s.flights with
        | some (_, w) => if w = g then near else .wait
        | none => near

/-- Whether a load of `n` bytes must wait for another context's pending store (R168). -/
def State.loadWaits (s : State) (g : Agent) (scope pa : Nat) : Nat → Bool
  | 0 => false
  | n + 1 => decide (s.byteSource g scope pa = .wait) || State.loadWaits s g scope (pa + 1) n

/-- The bytes that a load takes. -/
def State.loadBytes (s : State) (g : Agent) (scope pa : Nat) : Nat → List Byte
  | 0 => []
  | n + 1 =>
    (match s.byteSource g scope pa with
      | .value b => b
      | _ => s.homeByte pa) :: State.loadBytes s g scope (pa + 1) n

/-- What a load of the scalar stream takes from its context's store queue (R148, R184). -/
def State.queueBytes (s : State) (g : Agent) (pa n : Nat) : List (Option Byte) :=
  (List.range n).map fun i => (youngestByte (fun f => f.queuedOf g) (pa + i) s.flights).map (·.1)

/-- Whether any byte of a load comes from the home slice. -/
def State.loadMisses (s : State) (g : Agent) (scope pa : Nat) : Nat → Bool
  | 0 => false
  | n + 1 => decide (s.byteSource g scope pa = .home) || State.loadMisses s g scope (pa + 1) n

/-- What a load leaves in the caches (R167, R170): after a miss the line in the L2 and in its core's L1, after a hit in the L1 its line
as the most recently used. -/
def State.loadFill (s : State) (g : Agent) (tenant scope pa n : Nat) (zeroHint : Bool) : State :=
  match coreOf g with
  | none => if s.loadMisses g scope pa n then s.l2Fill tenant (pa / 128) zeroHint else s
  | some k =>
    if s.loadMisses g scope pa n then s.l1Fill tenant k (pa / 128) zeroHint
    else s.mapCore k fun c => c.l1Touch (pa / 128)

/-- Whether a pending store of the core touches the bytes: an atomic above core scope waits for it (R168). -/
def State.touchesPending (s : State) (core pa n : Nat) : Bool :=
  s.flights.any fun f => decide (coreOf f.agent = some core) && f.isPending && decide (f.stage ≠ .queued) &&
    f.bytes.any fun c => decide (pa ≤ c.1) && decide (c.1 < pa + n)

/-- Whether every store of an agent is acknowledged. -/
def State.storesDone (s : State) (g : Agent) : Bool :=
  s.flights.all fun f => decide (f.agent ≠ g) || !f.isPending

/-- Whether every store that happens before the next accesses of an agent is acknowledged: its own, and those of other contexts of its
core that its acquires have ordered before them (R151, R156). -/
def State.allBefore (s : State) (g : Agent) : Bool := s.storesDone g && !(s.getCtx g).acquired.any s.underway

/-- A release of a context at core scope or wider orders its stores, and those acquired, before its next stores (R156). -/
def State.releases (s : State) (g : Agent) (scope : Nat) : State :=
  if scope = 0 then s else
  let own := (s.flights.filter fun f => decide (f.agent = g) && f.isPending).map (·.id)
  s.mapCtx g fun c => { c with released := own ++ c.acquired.filter fun i => s.underway i && !own.contains i }

/-- An acquire of a context at core scope or wider orders the stores that its loads were ordered behind before its further accesses
(R156). -/
def State.acquires (s : State) (g : Agent) (scope : Nat) : State :=
  if scope = 0 then s else
  s.mapCtx g fun c => { c with acquired := ((c.acquired ++ c.heard).eraseDups).filter s.underway, heard := [] }

/-- Whether no store of an agent to the lines of `n` bytes is still on its way to where `spool`, `kvsel` and `coll` read and write:
the home slice, or with `chip` the buffer chip. `same` tells whose stores count. -/
def State.linesDone (s : State) (same : Agent → Bool) (chip : Bool) (pa n : Nat) : Bool :=
  s.flights.all fun f => !same f.agent || decide (128 * f.line + 128 ≤ pa) || decide (pa + n ≤ 128 * f.line) ||
    !(decide (f.stage = .toHome) || (chip && f.toChip))

/-- The k-th store leaves its context's store queue: it is written into the L1, the oldest first (R184). -/
def State.queueStoreAt (s : State) (k : Nat) : State :=
  match s.flights[k]? with
  | some f =>
    match coreOf f.agent with
    | some c =>
      if f.stage = .queued && (s.flights.take k).all fun e => !e.queuedOf f.agent then
        let s := (s.mapCore c fun x => x.l1Store f.line f.bytes).leaveTrail f
        { s with flights := s.flights.eraseIdx k ++ [{ f with stage := .toHome }] }
      else s
    | none => s
  | none => s

/-- The oldest store in the store queue of an agent leaves it. -/
def State.leaveQueue (s : State) (g : Agent) : State :=
  match s.flights.findIdx? fun f => f.queuedOf g with
  | some k => s.queueStoreAt k
  | none => s

/-- The stores in the store queue of an agent leave it, oldest first. -/
def State.emptyQueue (s : State) (g : Agent) : Nat → State
  | 0 => s
  | n + 1 => if (s.storeQueue g).isEmpty then s else State.emptyQueue (s.leaveQueue g) g n

/-- Every store of the scalar stream of an agent is in the L1 afterwards (R184, R195). -/
def State.drainQueue (s : State) (g : Agent) : State := s.emptyQueue g (s.storeQueue g).length

/-- HOME_SLICE_STORE: the k-th store in flight is performed at its home slice (R152, R155). A store to a line that an older
store of its core still waits for keeps behind it (R180). It then stands behind every store that is performed already, so
that the stores reach a buffer chip in the order of the home slice (R161, R312). -/
def State.homeSliceStoreAt (s : State) (k : Nat) : State :=
  match s.flights[k]? with
  | some f =>
    if f.stage = .toHome && (s.flights.take k).all fun e =>
        decide (e.line ≠ f.line) || decide (coreOf e.agent ≠ coreOf f.agent) || decide (e.stage ≠ .toHome) then
      let s := s.homeWrite f.tenant f.line f.bytes f.capacity f.zero (coreOf f.agent)
      { s with flights := s.flights.eraseIdx k ++ [{ f with stage := .toBuffer }] }
    else s
  | none => s

/-- CAPACITY_STORE_PERFORMED: a store to a capacity page reaches its buffer chip, in the order of its line (R161, R312). -/
def State.capacityStoreAt (s : State) (k : Nat) : State :=
  match s.flights[k]? with
  | some f =>
    if f.toChip && (s.flights.take k).all fun e => decide (e.line ≠ f.line) || !e.toChip then
      let s := s.bufferWrite f.bytes
      { s with flights := s.flights.set k { f with stage := .acked } }
    else s
  | none => s

/-- STORE_ACKNOWLEDGE: the home slice's acknowledgement ends the store (R152, R168); a capacity store's is the buffer chip's. -/
def State.ackStoreAt (s : State) (k : Nat) : State :=
  match s.flights[k]? with
  | some f =>
    if (f.stage = .toBuffer && !f.capacity) || f.stage = .acked then { s with flights := s.flights.eraseIdx k } else s
  | none => s

/-- The first store goes one place further. -/
def State.moveStore (s : State) : State :=
  match s.flights with
  | [] => s
  | f :: _ =>
    match f.stage with
    | .queued => s.queueStoreAt 0
    | .toHome => s.homeSliceStoreAt 0
    | .toBuffer | .acked => (s.capacityStoreAt 0).ackStoreAt 0

/-- Every store in flight is performed and acknowledged. -/
def State.moveStores (s : State) : Nat → State
  | 0 => s
  | n + 1 => if s.flights.isEmpty then s else State.moveStores s.moveStore n

/-- Every store in flight is performed and acknowledged: each goes three places. -/
def State.drainStores (s : State) : State := s.moveStores (3 * s.flights.length)

end Sys2Proof.Machine
end

