-- ==== Sys2Proof/Machine/Translate.lean ====
section
/-! DEFINITION. Address translation (17_isolation.md R378-R385): canonical form (07_memory.md R174), the stage-one walk, the
windows of stage two, and the translation caches. -/

namespace Sys2Proof.Machine

/-- Bits 63:57 equal bit 56 (R174). -/
def isCanonical (va : Word) : Bool := va.toNat / 2 ^ 56 == 0 || va.toNat / 2 ^ 56 == 255

/-- The cause of a translation fault (R380). -/
def faultOf : Access → Cause
  | .fetch => .fetchfault
  | .load => .loadfault
  | .store => .storefault
  | .atomic => .storefault

/-- The permission bits an access needs: R 1, W 2, X 4 (R379, R382). -/
def needs : Access → List Nat
  | .fetch => [2]
  | .load => [0]
  | .store => [1]
  | .atomic => [0, 1]

/-- Whether a permission mask grants an access. -/
def grants (perm : Nat) (acc : Access) : Bool := (needs acc).all fun i => bitOf perm i == 1

/-- The window that holds a TPA (R383). -/
def Tenant.windowOf (t : Tenant) (tpa : Nat) : Option Window :=
  (t.windows.find? fun w => decide (w.2.tbase ≤ tpa) && decide (tpa < w.2.tbase + w.2.size)).map (·.2)

/-- Why no window holds a TPA: it lay in a window that was revoked (R350), or in none (R383). -/
def Tenant.missing (t : Tenant) (tpa : Nat) : Cause :=
  if t.revoked.any fun w => decide (w.tbase ≤ tpa) && decide (tpa < w.tbase + w.size) then .queuegone else .window

/-- Stage two of a table read: the device address, or WINDOW (R380, R383). -/
def Tenant.tableAddress (t : Tenant) (tpa : Nat) : Except Cause Nat :=
  match t.windowOf tpa with
  | some w => if bitOf w.perm 0 = 1 then .ok (w.dbase + (tpa - w.tbase)) else .error .window
  | none => .error (t.missing tpa)

/-- The lowest virtual address bit that a level indexes (R378). -/
def levelShift : Nat → Nat
  | 0 => 16
  | n + 1 => 21 + 9 * n

/-- Entries of a table of a level (R378). -/
def levelEntries (level : Nat) : Nat := if level = 0 then 32 else 512

/-- The level whose leaf a size code allows (R379). -/
def leafLevel : Nat → Option Nat
  | 1 => some 0
  | 2 => some 1
  | 3 => some 2
  | _ => none

/-- The attribute of an attr code (R379). -/
def attrOf : Nat → Option PageAttr
  | 0 => some .normal
  | 1 => some .capacity
  | 2 => some .remote
  | _ => none

/-- What an entry says at a level (R379): a leaf, the next table, or nothing legal. -/
inductive Entry where
  | leaf (e : TlbEntry)
  | table (tpa : Nat)
  | bad
  deriving DecidableEq, Repr

/-- Reads an entry (R379). -/
def readEntry (tenant level va w : Nat) : Entry :=
  let size := w / 2 ^ 7 % 4
  let frame := w / 2 ^ 12 % 2 ^ 40 * 2 ^ 12
  if bitOf w 0 = 0 ∨ w / 2 ^ 10 % 4 ≠ 0 ∨ w / 2 ^ 52 ≠ 0 then .bad
  else if size = 0 then
    if level = 0 ∨ w % 128 ≠ 1 ∨ bitOf w 9 = 1 then .bad else .table frame
  else
    match attrOf (w / 2 ^ 5 % 4) with
    | none => .bad
    | some attr =>
      if leafLevel size ≠ some level ∨ frame % 2 ^ levelShift level ≠ 0 ∨ (bitOf w 9 = 1 ∧ bitOf w 2 = 1) then .bad
      else .leaf { tenant := tenant, page := va / 2 ^ levelShift level, bits := levelShift level, frame := frame,
                   perm := w / 2 % 16, attr := attr, zero := bitOf w 9 == 1 }

/-- The walk from a level's table down (R378-R380): the leaf, and the table entries of levels 4-2 it passed. -/
def State.walkFrom (s : State) (t : Tenant) (acc : Access) (va : Nat) : Nat → Nat → Except Cause (TlbEntry × List TableEntry)
  | level, table =>
    match t.tableAddress (table + 8 * (va / 2 ^ levelShift level % levelEntries level)) with
    | .error c => .error c
    | .ok pa =>
      match readEntry t.id level va (ofBytes (s.homeBytes pa 8)) with
      | .bad => .error (faultOf acc)
      | .leaf e => .ok (e, [])
      | .table next =>
        match level with
        | 0 => .error (faultOf acc)
        | n + 1 =>
          match State.walkFrom s t acc va n next with
          | .error c => .error c
          | .ok (e, passed) =>
            .ok (e, if 2 ≤ n + 1 then
                { tenant := t.id, level := n + 1, region := va / 2 ^ levelShift (n + 1), table := next } :: passed
              else passed)

/-- The table that a table cache holds for a level's region of an address (R384). -/
def cachedTable (tables : List TableEntry) (tenant va level : Nat) : Option Nat :=
  (tables.find? fun e => e.tenant == tenant && e.level == level && e.region == va / 2 ^ levelShift level).map (·.table)

/-- A walk, from the lowest table that the table cache holds, else from ptroot (R378, R384). -/
def State.walk (s : State) (tables : List TableEntry) (t : Tenant) (acc : Access) (va : Nat) :
    Except Cause (TlbEntry × List TableEntry) :=
  match cachedTable tables t.id va 2 with
  | some tb => s.walkFrom t acc va 1 tb
  | none =>
    match cachedTable tables t.id va 3 with
    | some tb => s.walkFrom t acc va 2 tb
    | none =>
      match cachedTable tables t.id va 4 with
      | some tb => s.walkFrom t acc va 3 tb
      | none => s.walkFrom t acc va 4 t.ptroot.toNat

/-- The stage-one result of a leaf for an address (R379). -/
def TlbEntry.tpa (e : TlbEntry) (va : Nat) : Nat := e.frame + va % 2 ^ e.bits

/-- A leaf of a walk with what stage two finds for an address (R383). -/
def Tenant.resolve (t : Tenant) (va : Nat) (e : TlbEntry) : TlbEntry :=
  match e.attr with
  | .remote => e
  | _ => { e with window := t.windowOf (e.tpa va) }

/-- Whether a leaf holds a complete two-stage result (R384). -/
def TlbEntry.complete (e : TlbEntry) : Bool := decide (e.attr = .remote) || e.window.isSome

/-- Where an access goes: a device physical address, or the owner's TPA for a remote page (R172, R379). -/
structure Phys where
  pa    : Nat
  attr  : PageAttr
  owner : Nat
  zero  : Bool
  deriving DecidableEq, Repr

/-- Permission, level and stage two of a leaf (R380, R383). -/
def Tenant.permit (t : Tenant) (acc : Access) (user : Bool) (va : Nat) (e : TlbEntry) : Except Cause Phys :=
  if grants e.perm acc = false ∨ (user ∧ bitOf e.perm 3 = 0) then .error (faultOf acc)
  else
    let tpa := e.tpa va
    match e.attr with
    | .remote => if acc = .fetch then .error .fetchfault
        else .ok { pa := tpa % 2 ^ 40, attr := .remote, owner := tpa / 2 ^ 40 % 4096, zero := false }
    | a =>
      match e.window with
      | none => .error (t.missing tpa)
      | some w =>
        if grants w.perm acc = false ∨ (w.kind = 1) ≠ (a = .capacity) then .error .window
        else .ok { pa := w.dbase + (tpa - w.tbase), attr := a, owner := 0, zero := e.zero }

/-- A place with translation caches (R384): a core, a span of a core, which asks its micro-TLB first, or an I/O die. -/
inductive Place where
  | core (k : Nat)
  | span (k i : Nat)
  | io (die : Nat)
  deriving DecidableEq, Repr

/-- The place whose translation caches an agent uses: its core; a handler that of the I/O die nearest to its slice (log 69). -/
def placeOf : Agent → Place
  | .ctx id => .core (id / 8)
  | .handler _ sl _ => .io (sl / 96)

/-- The I/O die whose translation caches the management core and the scheduler use (log 69). -/
def deviceDie : Place := .io 0

/-- The translation caches of a place. -/
def State.tlbOf (s : State) : Place → Tlb
  | .core k => (s.core k).tlb
  | .span k i =>
    let c := s.core k
    { c.tlb with leaves := (c.micro.toList[i]?).getD [] ++ c.tlb.leaves }
  | .io d => (s.ioTlb.toList[d]?).getD {}

/-- Whether a leaf answers for an address: its page, within the window of its result. -/
def TlbEntry.answers (e : TlbEntry) (tenant va : Nat) : Bool :=
  e.tenant == tenant && e.page == va / 2 ^ e.bits && match e.window with
    | some w => decide (w.tbase ≤ e.tpa va) && decide (e.tpa va < w.tbase + w.size)
    | none => true

/-- The cached leaf of an address. -/
def cachedLeaf (leaves : List TlbEntry) (tenant va : Nat) : Option TlbEntry := leaves.find? fun e => e.answers tenant va

/-- Translation of an address by a place, for a tenant, at level U or not: the leaf from the cache or a walk, then R380 and
R383. The reserved page of R40 and a non-canonical address fault as an unmapped one does (R174). -/
def State.translate (s : State) (place : Place) (tenant : Nat) (acc : Access) (user : Bool) (va : Word) :
    Except Cause Phys :=
  let a := va.toNat % 2 ^ 57
  let t := s.tenant tenant
  if isCanonical va = false ∨ va.toNat / 2 ^ 16 = Config.exitPage / 2 ^ 16 then .error (faultOf acc)
  else
    match cachedLeaf (s.tlbOf place).leaves tenant a with
    | some e => t.permit acc user a e
    | none =>
      match s.walk (s.tlbOf place).tables t acc a with
      | .error c => .error c
      | .ok (e, _) => t.permit acc user a (t.resolve a e)

/-- A cache with one more leaf and the table entries of its walk. -/
def Tlb.learn (c : Tlb) (e : TlbEntry) (passed : List TableEntry) : Tlb :=
  { leaves := (e :: c.leaves).take 4096, tables := (passed ++ c.tables).take 256 }

/-- The micro-TLB of a span learns a leaf. -/
def Core.learn (c : Core) (i : Nat) (e : TlbEntry) : Core :=
  { c with micro := c.micro.setIfInBounds i ((e :: (c.micro.toList[i]?).getD []).take 64) }

/-- What a translation leaves in the caches of its place (R384): a complete result, and in a core the table entries of its walk. -/
def State.fillTlb (s : State) (place : Place) (tenant : Nat) (acc : Access) (va : Word) : State :=
  let a := va.toNat % 2 ^ 57
  let learnt := fun (c : Tlb) =>
    match cachedLeaf c.leaves tenant a with
    | some e => (c, some e)
    | none =>
      match s.walk c.tables (s.tenant tenant) acc a with
      | .error _ => (c, none)
      | .ok (e, passed) =>
        let e := (s.tenant tenant).resolve a e
        if e.complete then (c.learn e passed, some e) else (c, none)
  match place with
  | .core k => s.mapCore k fun c => { c with tlb := (learnt c.tlb).1 }
  | .span k i =>
    match cachedLeaf (((s.core k).micro.toList[i]?).getD []) tenant a with
    | some _ => s
    | none =>
      s.mapCore k fun c =>
        let p := learnt c.tlb
        match p.2 with
        | some e => { c with tlb := p.1 }.learn i e
        | none => c
  | .io d => { s with ioTlb := s.ioTlb.setIfInBounds d { leaves := (learnt ((s.ioTlb.toList[d]?).getD {})).1.leaves } }

/-- A cache without the entries that `leaf` and `table` name. -/
def Tlb.drop (c : Tlb) (leaf : TlbEntry → Bool) (table : TableEntry → Bool) : Tlb :=
  { leaves := c.leaves.filter fun e => !leaf e, tables := c.tables.filter fun e => !table e }

/-- A core without the entries that `leaf` and `table` name. -/
def Core.dropTlb (c : Core) (leaf : TlbEntry → Bool) (table : TableEntry → Bool) : Core :=
  { c with tlb := c.tlb.drop leaf table, micro := c.micro.map fun l => l.filter fun e => !leaf e }

/-- Drops the entries of a tenant that `leaf` and `table` name from every translation cache of the package (R414). -/
def State.dropTlb (s : State) (leaf : TlbEntry → Bool) (table : TableEntry → Bool) : State :=
  { s with
    cores := s.cores.map fun (k, c) => (k, c.dropTlb leaf table)
    ioTlb := s.ioTlb.map fun c => c.drop leaf table }

/-- Whether a leaf in some translation cache maps a device line for a tenant, with the zero-hint or without (R381, R384). -/
def TlbEntry.mapsLine (e : TlbEntry) (tenant line : Nat) (zeroHint : Bool) : Bool :=
  e.tenant == tenant && e.zero == zeroHint && match e.window with
    | some w =>
      let tpa := w.tbase + (128 * line - w.dbase)
      decide (w.dbase ≤ 128 * line) && decide (tpa < w.tbase + w.size) && decide (e.frame ≤ tpa) && decide (tpa < e.frame + 2 ^ e.bits)
    | none => false

/-- Whether a place's cache maps a device line for a tenant, with the zero-hint or without. -/
def State.lineMapped (s : State) (tenant line : Nat) (zeroHint : Bool) : Bool :=
  let hit := fun (c : Tlb) => c.leaves.any fun e => e.mapsLine tenant line zeroHint
  s.cores.any (fun x => hit x.2.tlb) || s.ioTlb.toList.any hit

end Sys2Proof.Machine
end

