-- ==== Sys2Proof/Machine/Flags.lean ====
section
/-! DEFINITION. The fields of vtype (05_elements.md R114-R116), of mtype (13_matrix.md R293), of tstat (18_recovery.md R399),
the exception flags (10_numbers.md R253), and the word that each control register reads as. -/

namespace Sys2Proof.Machine

/-- sew code of a vtype (R114). -/
def sewOf (vt : Word) : Nat := vt.toNat % 4
/-- Element bytes. -/
def bytesOf (vt : Word) : Nat := 2 ^ sewOf vt
/-- Element bits. -/
def bitsOf (vt : Word) : Nat := 8 * bytesOf vt
/-- Class code (R114). -/
def clsOf (vt : Word) : Nat := vt.toNat / 2 ^ 2 % 8
/-- Mantissa bits of a bfp element (R114). -/
def bfpBits (vt : Word) : Nat := vt.toNat / 2 ^ 5 % 8 + 2
/-- Block size of bfp (R114). -/
def blockOf (vt : Word) : Nat := 16 * 2 ^ (vt.toNat / 2 ^ 8 % 4)
/-- Rounding mode (R114). -/
def frmOf (vt : Word) : Nat := vt.toNat / 2 ^ 10 % 8
/-- Saturation (R114). -/
def satOf (vt : Word) : Bool := bitOf vt.toNat 13 == 1
/-- Scope (R14). -/
def scopeOf (vt : Word) : Nat := vt.toNat / 2 ^ 14 % 8
/-- Spans asked for (R114). -/
def spansOf (vt : Word) : Nat := vt.toNat / 2 ^ 17 % 16
/-- VLMAX (R116). -/
def vlmax (vt : Word) : Nat := 4096 / bytesOf vt

/-- Whether a vtype is legal (R114, R115, R15). -/
def vtypeOk (vt : Word) : Bool :=
  pairOk (clsOf vt) (sewOf vt) && decide (vt.toNat / 2 ^ 5 % 8 < 7) && decide (vt.toNat / 2 ^ 8 % 4 < 3) &&
  decide (frmOf vt < 5) && decide (scopeOf vt < 6) && decide (spansOf vt < 9) && decide (vt.toNat / 2 ^ 21 = 0)

/-- Trap depth (R399). -/
def depthOf (tstat : Word) : Nat := tstat.toNat % 4
/-- Bit `i` of a word replaced. -/
def withBit (w : Word) (i : Nat) (b : Bool) : Word :=
  if b then w ||| BitVec.ofNat 64 (2 ^ i) else w &&& ~~~ BitVec.ofNat 64 (2 ^ i)
/-- tstat with a depth (R399). -/
def withDepth (w : Word) (d : Nat) : Word := (w &&& ~~~ 3#64) ||| BitVec.ofNat 64 (d % 4)
/-- The stacked flag (R399). -/
def isStacked (w : Word) : Bool := bitOf w.toNat 2 == 1
/-- The bankloss flag (R399). -/
def isBankloss (w : Word) : Bool := bitOf w.toNat 3 == 1

/-- Flags raised by OR (R253, R254): inexact 1, underflow 2, overflow 4, division by zero 8, invalid 16. -/
def raiseFlags (old : Word) (flags : Nat) : Word := old ||| BitVec.ofNat 64 (flags % 32)

/-- cmode: depth and active handle (R221). -/
def Ctx.cmode (c : Ctx) : Word :=
  if c.cdepth = 0 then 0
  else BitVec.ofNat 64 (c.cdepth + 16 * (((c.frames.toList[c.cdepth - 1]?).map (·.handle)).getD 0))

/-- Whether the context runs in collecting mode (R221). -/
def Ctx.collecting (c : Ctx) : Bool := decide (0 < c.cdepth)

/-- Whether the context executes at level U (R38, R354). -/
def Ctx.user (c : Ctx) : Bool :=
  match c.agent with
  | .handler _ _ _ => true
  | .ctx _ => depthOf c.tstat == 0

/-- Spans that a context holds (R123); a handler has none. -/
def State.heldSpans (s : State) (g : Agent) : Nat :=
  match g with
  | .ctx id => ((s.core (id / 8)).spans.toList.filter fun o => o == some (id % 8)).length
  | .handler _ _ _ => 0

/-- The spans that an agent holds, ascending (R124); a handler has none. -/
def State.spanList (s : State) (g : Agent) : List Nat :=
  match g with
  | .ctx id => (List.range 8).filter fun i => decide ((s.core (id / 8)).spans.toList[i]? = some (some (id % 8)))
  | .handler _ _ _ => []

/-- The spans that a rule of a strip uses (R127): of an even grant the lower half for an even strip of `vstrip.i`, the upper half for an odd
one; else all of the grant. R127 lets the hardware do so; that the model always does is its choice (log 92). -/
def spansFor (held : List Nat) (strip : Option (Nat × Nat)) : List Nat :=
  let n := held.length
  match strip with
  | some (_, i) => if n = 0 ∨ n % 2 = 1 then held else if i % 2 = 0 then held.take (n / 2) else held.drop (n / 2)
  | none => held

/-- The lanes L of an agent (R107, R124, R353). -/
def State.lanesOf (s : State) (g : Agent) : Nat :=
  match g with
  | .ctx _ => 16 * s.heldSpans g
  | .handler ten sl _ => 8 * ((s.chains.find? fun (c : Chain) => c.tenant == ten && c.slice == sl).map (·.rods)).getD 0

/-! ## mtype and the weight buffers -/

/-- fmt (R293). -/
def fmtOf (mt : Word) : Nat := mt.toNat % 16
/-- B (R293). -/
def mbits (mt : Word) : Nat := mt.toNat / 2 ^ 4 % 8 + 2
/-- Rows (R293). -/
def mvlOf (mt : Word) : Nat := mt.toNat / 2 ^ 8 % 128 + 1
/-- Columns (R293). -/
def nvlOf (mt : Word) : Nat := mt.toNat / 2 ^ 16 % 128 + 1
/-- Operand depth (R293). -/
def kdOf (mt : Word) : Nat := mt.toNat / 2 ^ 24 % 8 + 1
/-- Claim field (R293). -/
def claimOf (mt : Word) : Nat := mt.toNat / 2 ^ 28 % 16

/-- The tile mask of the kernel (R292). -/
def Ctx.tileMask (c : Ctx) : Nat :=
  (List.range 4).foldl (fun n t => if (c.tileMap.toList[t]?).getD none = none then n else n + 2 ^ t) 0

/-- The tile that an instruction of majors 0x36-0x38 names (R295). -/
def tileOf : Instr → Option Nat
  | .mop t _ _ _ | .mops t _ _ _ _ | .mopm t _ _ _ _ | .mvw t _ _ _ _ => some t.val
  | .mopsTwin t _ _ _ _ | .mvwTwin t _ _ _ _ => some t.val
  | .mzero d | .mfold d _ _ | .mwr d _ _ => some d.val
  | .mrd _ a _ | .mrdc _ a _ => some a.val
  | _ => none

/-- Whether a standing or queued rule names a tile (R294). -/
def Ctx.namesTile (c : Ctx) (t : Nat) : Bool := (c.rules ++ c.queue).any fun r => decide (tileOf r.instr = some t)

/-- Whether a rule that a slot keeps names a tile: its claim lasts until that rule has retired (R294). -/
def Ctx.keepsTile (c : Ctx) (t : Nat) : Bool :=
  c.namesTile t || (c.userSlot ++ c.hndSlot).any fun r => decide (tileOf r.instr = some t)

/-- The claims of a context: those of its mtype, and those that ended while an older rule still names the tile (R294). -/
def Ctx.endClaims (c : Ctx) : Ctx :=
  { c with claims := (List.range 4).foldl (fun n t =>
      if bitOf (claimOf c.mtype) t = 1 || bitOf c.claims t = 1 && c.keepsTile t then Nat.lor n (2 ^ t) else n) 0 }

/-- Whether the current version of a weight buffer fits an mtype and a plane count (R306). -/
def State.weightsFit (s : State) (g : Agent) (buf : Nat) (mt p : Word) : Bool :=
  match ((s.core (scratchCore g)).weights.toList[buf]?).getD none with
  | none => false
  | some x =>
    let f := x.format
    fmtOf f == fmtOf mt && mbits f == mbits mt && f.toNat / 2 ^ 8 % 128 + 1 == nvlOf mt && f.toNat / 2 ^ 16 % 8 + 1 == kdOf mt &&
    decide (p.toNat ≤ if fmtOf mt = 6 then mbits mt else 0)

end Sys2Proof.Machine
end

