-- ==== Sys2Proof/Machine/Operands.lean ====
section
/-! DEFINITION. Operands: scalar registers with the hard-wired x0 (11_scalar.md R259), window names (02_encoding.md R29),
elements of vector registers, mask bits (R30), index words (07_memory.md R187), and immediates (R27). -/

namespace Sys2Proof.Machine

/-- X[r]; x0 reads zero (R259). -/
def Ctx.getX (c : Ctx) (r : Reg) : Word := if r.val = 0 then 0 else c.x[r.val]
/-- X[r] written; a write of x0 is discarded (R259). -/
def Ctx.setX (c : Ctx) (r : Reg) (w : Word) : Ctx := if r.val = 0 then c else { c with x := c.x.set r.val w }

/-- X[r] of the context whose turn it is. -/
def State.getX (s : State) (r : Reg) : Word := s.ctx.getX r
/-- X[r] of the context whose turn it is, written. -/
def State.setX (s : State) (r : Reg) (w : Word) : State := { s with ctx := s.ctx.setX r w }

/-- imm12 widened (R27). -/
def imm12 (i : BitVec 12) : Word := i.signExtend 64
/-- off9 widened and scaled by the access size (R27). -/
def off9 (o : BitVec 9) (n : Nat) : Word := o.signExtend 64 * BitVec.ofNat 64 n
/-- off12 of a branch, widened and scaled (R27). -/
def off12 (o : BitVec 12) : Word := o.signExtend 64 * 4
/-- off19 of a jump, widened and scaled (R27). -/
def off19 (o : BitVec 19) : Word := o.signExtend 64 * 4
/-- imm19 of pcrel, widened and shifted (R27). -/
def imm19 (i : BitVec 19) : Word := i.signExtend 64 <<< 12
/-- The immediate of a lim pair (R31). -/
def limImm (hi : BitVec 19) (lo : BitVec 12) : Word := (hi ++ lo).signExtend 64

/-- The architectural register that a name means under a window base (R29). -/
def archReg (wb name : Nat) : Nat := (wb + name % 128) % 1024

/-- Where byte `off` of a named register stands in the image (R117). -/
def vaddr (wb name off : Nat) : Nat := 4096 * archReg wb (name + off / 4096) + off % 4096

/-- Element `e` of `n` bytes of a named register. -/
def Ctx.elem (c : Ctx) (wb name n e : Nat) : Nat := c.v.readNat (vaddr wb name (e * n)) n

/-- The register line (R118) of an image byte. -/
def lineOfByte (b : Nat) : Nat := b / 256

/-- Marks a register line modified. -/
def Ctx.touchLine (c : Ctx) (line : Nat) : Ctx := if c.dirty.contains line then c else { c with dirty := line :: c.dirty }

/-- Element `e` of `n` bytes of a named register, written. -/
def Ctx.setElem (c : Ctx) (wb name n e val : Nat) : Ctx :=
  let a := vaddr wb name (e * n)
  { c with v := c.v.writeBytes a (toBytes n val) }.touchLine (lineOfByte a)

/-- Index word `e` of an index group: 32 bits, signed, element e mod 1024 of name idx + e/1024 (R187). -/
def Ctx.indexWord (c : Ctx) (wb idx e : Nat) : Word :=
  (BitVec.ofNat 32 (c.v.readNat (vaddr wb idx (4 * e)) 4)).signExtend 64

/-- Mask bit `e` of q register `n`. -/
def Ctx.maskBit (c : Ctx) (n e : Nat) : Bool := (c.q.toList[n]?.getD 0).getLsbD e

/-- A 4096-bit mask with one bit replaced. -/
def setBit (m : BitVec 4096) (e : Nat) (b : Bool) : BitVec 4096 :=
  if b then m ||| BitVec.twoPow 4096 e else m &&& ~~~ BitVec.twoPow 4096 e

/-- Mask bit `e` of q register `n`, written. -/
def Ctx.setMaskBit (c : Ctx) (n e : Nat) (b : Bool) : Ctx :=
  if h : n < 8 then { c with q := c.q.set n (setBit c.q[n] e b) } else c

/-- Ones below position `n`. -/
def lowOnes (n : Nat) : BitVec 4096 := BitVec.ofNat 4096 (2 ^ min n 4096 - 1)

/-- The governing mask of a word's m field (R30): all ones where m = 0. -/
def Ctx.governing (c : Ctx) (m : Fin 4) : BitVec 4096 :=
  if m.val = 0 then BitVec.allOnes 4096 else c.q.toList[m.val]?.getD 0

/-- Active(e): e below vl, and its bit of the governing mask set (R7, R30). -/
def isActive (mask : BitVec 4096) (vl e : Nat) : Bool := decide (e < vl) && mask.getLsbD e

end Sys2Proof.Machine
end

