-- ==== Sys2Proof/Machine/Numbers.lean ====
section
/-! DEFINITION. The arithmetic promise (10_numbers.md R240-R258): formats, exact values, the one rounding function, conversions
and the correctly rounded functions. Flags are numbers of R253: NX 1, UF 2, OF 4, DZ 8, NV 16. -/

namespace Sys2Proof.Machine

/-- Inexact. -/
abbrev flagNX : Nat := 1
/-- Underflow. -/
abbrev flagUF : Nat := 2
/-- Overflow. -/
abbrev flagOF : Nat := 4
/-- Division by zero. -/
abbrev flagDZ : Nat := 8
/-- Invalid. -/
abbrev flagNV : Nat := 16

/-- A floating-point format (R241): exponent and mantissa field widths, bias, whether it has infinities. -/
structure Format where
  w     : Nat
  t     : Nat
  bias  : Nat
  infs  : Bool
  narrow : Bool
  deriving DecidableEq, Repr

/-- binary32 (R241). -/
def binary32 : Format := ⟨8, 23, 127, true, false⟩
/-- binary64 (R241). -/
def binary64 : Format := ⟨11, 52, 1023, true, false⟩
/-- binary16 (R241). -/
def binary16 : Format := ⟨5, 10, 15, true, true⟩
/-- bf16 (R241). -/
def bfloat16 : Format := ⟨8, 7, 127, true, true⟩
/-- e4m3 (R241). -/
def e4m3 : Format := ⟨4, 3, 7, false, true⟩
/-- e5m2 (R241). -/
def e5m2 : Format := ⟨5, 2, 15, true, true⟩

/-- The float format of a class and sew code (R241). -/
def formatOf (cls sew : Nat) : Format :=
  match cls, sew with
  | 2, 1 => binary16
  | 2, 3 => binary64
  | 3, _ => bfloat16
  | 4, _ => e4m3
  | 5, _ => e5m2
  | _, _ => binary32

/-- Whether a class is a float class (R114, R241). -/
def isFloatCls (cls : Nat) : Bool := decide (2 ≤ cls) && decide (cls ≤ 5)
/-- Whether a class is int or nat. -/
def isIntCls (cls : Nat) : Bool := decide (cls < 2)

/-- A value: NaN, an infinity, or the sign, number and exponent of (-1)^neg * num * 2^exp. With `sticky` the value lies strictly
between num and num + 1 times 2^exp. -/
inductive Val where
  | nan
  | inf (neg : Bool)
  | fin (neg : Bool) (num : Nat) (exp : Int) (sticky : Bool)
  deriving DecidableEq, Repr

/-- Bits of a number, found by halving the search `k` times: below 2^(2^k) every number is measured. -/
def bitLengthFrom : Nat → Nat → Nat
  | 0, n => if n = 0 then 0 else 1
  | k + 1, n => if n < 2 ^ (2 ^ k) then bitLengthFrom k n else 2 ^ k + bitLengthFrom k (n / 2 ^ (2 ^ k))

/-- Bits of a number, 0 for 0; no number here reaches 2^65536. -/
def bitLength (n : Nat) : Nat := bitLengthFrom 16 n

/-- The exponent field of all ones. -/
def Format.eTop (f : Format) : Nat := 2 ^ f.w - 1
/-- Total bits of a code. -/
def Format.bits (f : Format) : Nat := 1 + f.w + f.t
/-- The canonical NaN (R241). -/
def Format.cnan (f : Format) : Nat := if f.infs then f.eTop * 2 ^ f.t + 2 ^ (f.t - 1) else 2 ^ (f.w + f.t) - 1
/-- The largest finite code's magnitude bits (R241). -/
def Format.maxCode (f : Format) : Nat := if f.infs then f.eTop * 2 ^ f.t - 1 else 2 ^ (f.w + f.t) - 2
/-- The sign bit's weight. -/
def Format.signBit (f : Format) : Nat := 2 ^ (f.w + f.t)
/-- A magnitude with a sign. -/
def Format.signed (f : Format) (neg : Bool) (m : Nat) : Nat := if neg then f.signBit + m else m
/-- An infinity's code. -/
def Format.infCode (f : Format) (neg : Bool) : Nat := f.signed neg (f.eTop * 2 ^ f.t)

/-- The value of a code (R241). -/
def Format.value (f : Format) (code : Nat) : Val :=
  let neg := bitOf code (f.w + f.t) == 1
  let e := code / 2 ^ f.t % 2 ^ f.w
  let m := code % 2 ^ f.t
  if f.infs && e == f.eTop then (if m = 0 then .inf neg else .nan)
  else if !f.infs && e == f.eTop && m == 2 ^ f.t - 1 then .nan
  else if e = 0 then .fin neg m (1 - (f.bias : Int) - f.t) false
  else .fin neg (2 ^ f.t + m) ((e : Int) - f.bias - f.t) false

/-- A number scaled by 2^(-shift) and rounded by a mode (R247): the result and whether it differs. -/
def roundShift (frm : Nat) (neg : Bool) (num : Nat) (shift : Int) (sticky : Bool) : Nat × Bool :=
  if shift ≤ 0 then
    let k := num * 2 ^ (-shift).toNat
    if sticky = false then (k, false)
    else ((match frm with
      | 2 => if neg then k + 1 else k
      | 3 => if neg then k else k + 1
      | _ => k), true)
  else
    let s := shift.toNat
    let k := num / 2 ^ s
    let r := num % 2 ^ s
    let half := 2 ^ (s - 1)
    let inexact := decide (r ≠ 0) || sticky
    let above := decide (half < r) || (decide (r = half) && sticky)
    let tie := decide (r = half) && !sticky
    let up := match frm with
      | 0 => above || (tie && k % 2 == 1)
      | 1 => false
      | 2 => neg && inexact
      | 3 => !neg && inexact
      | _ => above || tie
    (if up then k + 1 else k, inexact)

/-- `Round(x, cls, frm, sat)`: the code and the flags it raises (R248). -/
def Format.round (f : Format) (frm : Nat) (sat : Bool) : Val → Nat × Nat
  | .nan => (f.cnan, 0)
  | .inf neg =>
    if f.infs then (f.infCode neg, 0)
    else if sat then (f.signed neg f.maxCode, flagOF + flagNX)
    else (f.cnan, flagNV)
  | .fin neg num exp sticky =>
    if num = 0 && !sticky then (f.signed neg 0, 0)
    else
      let top : Int := (bitLength num : Int) - 1 + exp
      let emin : Int := 1 - (f.bias : Int)
      let q : Int := max top emin - f.t
      let (k, inexact) := roundShift frm neg num (q - exp) sticky
      let nx := if inexact then flagNX else 0
      let eMax : Int := (if f.infs then (f.eTop : Int) - 1 else f.eTop) - f.bias - f.t
      let mMax : Nat := if f.infs then 2 ^ (f.t + 1) - 1 else 2 ^ (f.t + 1) - 2
      if eMax < q ∨ (q = eMax ∧ mMax < k) then
        let flags := flagOF + flagNX
        if sat && f.narrow then (f.signed neg f.maxCode, flags)
        else
          let toInf := match frm with
            | 0 | 4 => true
            | 1 => false
            | 2 => neg
            | _ => !neg
          if toInf then (if f.infs then f.infCode neg else f.cnan, flags) else (f.signed neg f.maxCode, flags)
      else
        let (k2, _) := roundShift frm neg num (top - f.t - exp) sticky
        let tiny := decide (top < emin) && !(decide (top = emin - 1) && k2 == 2 ^ (f.t + 1))
        let uf := if inexact && tiny then flagUF else 0
        (f.signed neg (((q + f.t + f.bias).toNat - 1) * 2 ^ f.t + k), nx + uf)

/-! ## Exact operations -/

/-- The value with the other sign. -/
def Val.neg : Val → Val
  | .nan => .nan
  | .inf s => .inf (!s)
  | .fin s n e k => .fin (!s) n e k

/-- Whether a value is a zero. -/
def Val.isZero : Val → Bool
  | .fin _ 0 _ false => true
  | _ => false

/-- The sign of a value. -/
def Val.isNeg : Val → Bool
  | .nan => false
  | .inf s => s
  | .fin s _ _ _ => s

/-- An integer as a value. -/
def Val.ofInt (i : Int) : Val := .fin (decide (i < 0)) i.natAbs 0 false

/-- A finite value's number at a lower exponent. -/
def scaled (neg : Bool) (num : Nat) (exp base : Int) : Int :=
  let m : Int := num * 2 ^ (exp - base).toNat
  if neg then -m else m

/-- The exact sum, with the sign of an exact zero of R248; NV for opposite infinities (R254). -/
def Val.add (frm : Nat) : Val → Val → Val × Nat
  | .nan, _ => (.nan, 0)
  | _, .nan => (.nan, 0)
  | .inf a, .inf b => if a = b then (.inf a, 0) else (.nan, flagNV)
  | .inf a, _ => (.inf a, 0)
  | _, .inf b => (.inf b, 0)
  | .fin s n e _, .fin s' n' e' _ =>
    let lo := min e e'
    let sum := scaled s n e lo + scaled s' n' e' lo
    if sum = 0 then (.fin (if n = 0 ∧ n' = 0 ∧ s = s' then s else decide (frm = 2)) 0 0 false, 0)
    else (.fin (decide (sum < 0)) sum.natAbs lo false, 0)

/-- The exact product; NV for zero times infinity (R254). -/
def Val.mul : Val → Val → Val × Nat
  | .nan, _ => (.nan, 0)
  | _, .nan => (.nan, 0)
  | .inf a, b => if b.isZero then (.nan, flagNV) else (.inf (xor a b.isNeg), 0)
  | a, .inf b => if a.isZero then (.nan, flagNV) else (.inf (xor a.isNeg b), 0)
  | .fin s n e _, .fin s' n' e' _ => (.fin (xor s s') (n * n') (e + e') false, 0)

/-- a * b + c, exact (R256, R275). A NaN operand raises nothing, an invalid product NV. -/
def Val.fma (frm : Nat) (a b c : Val) : Val × Nat :=
  if c = .nan then (.nan, 0)
  else if (a.mul b).2 ≠ 0 then a.mul b
  else (a.mul b).1.add frm c

/-- The exact quotient; NV for 0/0 and inf/inf, DZ for a finite value over zero (R253, R254). -/
def Val.div : Val → Val → Val × Nat
  | .nan, _ => (.nan, 0)
  | _, .nan => (.nan, 0)
  | .inf _, .inf _ => (.nan, flagNV)
  | .inf a, b => (.inf (xor a b.isNeg), 0)
  | .fin s _ _ _, .inf b => (.fin (xor s b) 0 0 false, 0)
  | .fin s n e _, .fin s' n' e' _ =>
    if n' = 0 then (if n = 0 then (.nan, flagNV) else (.inf (xor s s'), flagDZ))
    else if n = 0 then (.fin (xor s s') 0 0 false, 0)
    else
      let k := 80 + bitLength n'
      (.fin (xor s s') (n * 2 ^ k / n') (e - e' - k) (decide (n * 2 ^ k % n' ≠ 0)), 0)

/-- Compares two values that are not NaN; the zeros are equal. -/
def Val.lt : Val → Val → Bool
  | .inf a, .inf b => a && !b
  | .inf a, .fin _ _ _ _ => a
  | .fin _ _ _ _, .inf b => !b
  | .fin s n e _, .fin s' n' e' _ =>
    let lo := min e e'
    decide (scaled s n e lo < scaled s' n' e' lo)
  | _, _ => false

/-- Whether two values that are not NaN are equal; the zeros are. -/
def Val.eq (a b : Val) : Bool := decide (a ≠ .nan) && decide (b ≠ .nan) && !a.lt b && !b.lt a

/-! ## Functions -/

/-- The integer square root by bits, from a root already found and a bit to try (fuel is the bit number plus one). -/
def isqrtFrom (n : Nat) : Nat → Nat → Nat
  | 0, r => r
  | i + 1, r => isqrtFrom n i (if (r + 2 ^ i) * (r + 2 ^ i) ≤ n then r + 2 ^ i else r)

/-- The integer square root. -/
def isqrt (n : Nat) : Nat := isqrtFrom n (bitLength n / 2 + 1) 0

/-- vsqrt (R257). -/
def Val.sqrt : Val → Val × Nat
  | .nan => (.nan, 0)
  | .inf true => (.nan, flagNV)
  | .inf false => (.inf false, 0)
  | .fin s n e _ =>
    if n = 0 then (.fin s 0 0 false, 0)
    else if s then (.nan, flagNV)
    else
      let odd := (e % 2).toNat
      let m := n * 2 ^ (odd + 160)
      let r := isqrt m
      (.fin false r ((e - odd) / 2 - 80) (decide (r * r ≠ m)), 0)

/-- vrcp (R257). -/
def Val.rcp (v : Val) : Val × Nat :=
  match v with
  | .nan => (.nan, 0)
  | .inf s => (.fin s 0 0 false, 0)
  | v => Val.div (.fin false 1 0 false) v

/-- vrsqrt (R257). -/
def Val.rsqrt : Val → Val × Nat
  | .nan => (.nan, 0)
  | .inf true => (.nan, flagNV)
  | .inf false => (.fin false 0 0 false, 0)
  | .fin s n e _ =>
    if n = 0 then (.inf s, flagDZ)
    else if s then (.nan, flagNV)
    else
      let odd := (e % 2).toNat
      let m := n * 2 ^ odd
      let k := 2 * (80 + bitLength m)
      let r := isqrt (2 ^ k / m)
      (.fin false r (-((e - odd) / 2) - (k / 2 : Nat)) (decide (r * r * m ≠ 2 ^ k)), 0)

/-- Fraction bits of the fixed-point series (log 14). -/
abbrev seriesBits : Nat := 320

/-- The terms z^(2k+1)/(2k+1) of atanh, in fixed point: `p` is z^(2k+1), `zz` is z^2. -/
def atanhTerms (zz : Int) : Nat → Nat → Int → Int
  | 0, _, _ => 0
  | fuel + 1, k, p => p / (2 * k + 1 : Nat) + atanhTerms zz fuel (k + 1) (p * zz / 2 ^ seriesBits)

/-- ln(a/b) in fixed point, for a/b near 1: 2 atanh((a-b)/(a+b)). -/
def lnRatio (a b : Nat) : Int :=
  let z : Int := ((a : Int) - b) * 2 ^ seriesBits / ((a : Int) + b)
  2 * atanhTerms (z * z / 2 ^ seriesBits) 120 0 z

/-- ln 2 in fixed point. -/
def ln2 : Int := lnRatio 2 1

/-- The terms y^k/k! of exp, in fixed point: `p` is the term k. -/
def expTerms (y : Int) : Nat → Nat → Int → Int
  | 0, _, _ => 0
  | fuel + 1, k, p => p + expTerms y fuel (k + 1) (p * y / 2 ^ seriesBits / (k + 1 : Nat))

/-- vexp2 (R257): exact for an integer; else from a 320-bit series, which decides every rounding (log 14). -/
def Val.exp2 : Val → Val × Nat
  | .nan => (.nan, 0)
  | .inf true => (.fin false 0 0 false, 0)
  | .inf false => (.inf false, 0)
  | .fin s n e _ =>
    let top : Int := (bitLength n : Int) + e
    if n = 0 then (.fin false 1 0 false, 0)
    else if 17 < top then (.fin false 1 (if s then -70000 else 70000) false, 0)
    else if top < -100 then
      (if s then .fin false (2 ^ 101 - 1) (-101) true else .fin false (2 ^ 100) (-100) true, 0)
    else
      let x : Int := scaled s n (e + seriesBits) 0
      let whole := x / 2 ^ seriesBits
      let frac := x % 2 ^ seriesBits
      if frac = 0 then (.fin false 1 whole false, 0)
      else
        let y := frac * ln2 / 2 ^ seriesBits
        let r := (expTerms y 120 0 (2 ^ seriesBits)).natAbs / 2 ^ 40
        (.fin false r (whole - (seriesBits - 40 : Nat)) true, 0)

/-- vlog2 (R257): exact for a power of two; else from a 320-bit series (log 14). -/
def Val.log2 : Val → Val × Nat
  | .nan => (.nan, 0)
  | .inf true => (.nan, flagNV)
  | .inf false => (.inf false, 0)
  | .fin s n e _ =>
    if n = 0 then (.inf true, flagDZ)
    else if s then (.nan, flagNV)
    else
      let b := bitLength n
      if n = 2 ^ (b - 1) then (Val.ofInt ((b : Int) - 1 + e), 0)
      else
        let up := decide (2 * 2 ^ (2 * (b - 1)) < n * n)
        let k : Int := (b : Int) - 1 + e + (if up then 1 else 0)
        let den := if up then 2 ^ b else 2 ^ (b - 1)
        let l := k * 2 ^ seriesBits + lnRatio n den * 2 ^ seriesBits / ln2
        (.fin (decide (l < 0)) l.natAbs (-(seriesBits : Int)) true, 0)

/-! ## Conversions (R250-R252) -/

/-- The integer of a code of class int or nat. -/
def intValue (cls bits code : Nat) : Int := if cls = 0 then signedOf bits code else (code % 2 ^ bits : Nat)

/-- The exact value of a code of a class that is not bfp. -/
def valueOf (cls sew code : Nat) : Val :=
  if isIntCls cls then Val.ofInt (intValue cls (8 * 2 ^ sew) code) else (formatOf cls sew).value code

/-- The range of an integer class. -/
def intRange (cls bits : Nat) : Int × Int := if cls = 0 then (-(2 ^ (bits - 1)), 2 ^ (bits - 1) - 1) else (0, 2 ^ bits - 1)

/-- An integer clamped to a range. -/
def clampInt (r : Int × Int) (i : Int) : Int := if i < r.1 then r.1 else if r.2 < i then r.2 else i

/-- A finite value rounded to an integer by a mode, and whether it changed (R250). -/
def Val.toInt (frm : Nat) : Val → Int × Bool
  | .fin s n e k =>
    let (m, inexact) := roundShift frm s n (-e) k
    (if s then -(m : Int) else m, inexact)
  | _ => (0, false)

/-- A float value into an integer class (R250): NaN gives 0 and NV, a clamp gives NV, else NX where rounding changed it. -/
def Val.toIntClass (cls bits frm : Nat) (v : Val) : Nat × Nat :=
  let r := intRange cls bits
  match v with
  | .nan => (0, flagNV)
  | .inf s => (codeOf bits (if s then r.1 else r.2), flagNV)
  | v =>
    let (i, inexact) := v.toInt frm
    if clampInt r i ≠ i then (codeOf bits (clampInt r i), flagNV) else (codeOf bits i, if inexact then flagNX else 0)

/-- A value into a class at a sew code, rounded (R248, R250). -/
def intoClass (cls sew frm : Nat) (sat : Bool) (v : Val) : Nat × Nat :=
  if isIntCls cls then v.toIntClass cls (8 * 2 ^ sew) frm else (formatOf cls sew).round frm sat v

/-- A conversion between integer classes (R250). -/
def convertInt (scls sbits dcls dbits : Nat) (sat : Bool) (code : Nat) : Nat :=
  let v := intValue scls sbits code
  let fits := (scls == dcls && decide (sbits ≤ dbits)) || (scls == 1 && dcls == 0 && decide (sbits < dbits))
  if fits || !sat then codeOf dbits v else codeOf dbits (clampInt (intRange dcls dbits) v)

/-- A conversion of one element (R250). -/
def convert (scls ssew dcls dsew frm : Nat) (sat : Bool) (code : Nat) : Nat × Nat :=
  if isIntCls scls && isIntCls dcls then (convertInt scls (8 * 2 ^ ssew) dcls (8 * 2 ^ dsew) sat code, 0)
  else intoClass dcls dsew frm sat (valueOf scls ssew code)

/-- The value of a bfp element from its mantissa byte and its block's scale code (R245). -/
def bfpValue (b mant scale : Nat) : Val :=
  if scale = 255 then .nan
  else
    let m := signedOf b mant
    .fin (decide (m < 0)) m.natAbs ((scale : Int) - 127 - ((b : Int) - 2)) false

/-- Whether a value is NaN or infinite. -/
def Val.isSpecial : Val → Bool
  | .fin _ _ _ _ => false
  | _ => true

/-- floor(log2 |v|) of a finite value that is not zero. -/
def Val.top : Val → Int
  | .fin _ n e _ => (bitLength n : Int) - 1 + e
  | _ => 0

/-- A block into bfpB (R251): the scale code, the mantissa of each source element, and the flags. -/
def toBfpBlock (b frm : Nat) (vs : List Val) : Nat × List Int × Nat :=
  if vs.any Val.isSpecial then (255, vs.map fun _ => 0, flagNV)
  else
    let live := vs.filter fun v => !v.isZero
    match live with
    | [] => (0, vs.map fun _ => 0, 0)
    | v :: rest =>
      let e := rest.foldl (fun m w => max m w.top) v.top
      let x : Int := clampInt (0, 254) (e + 127)
      let step : Int := x - 127 - ((b : Int) - 2)
      let one := fun (w : Val) => match w with
        | .fin s n e _ =>
          let (m, inexact) := roundShift frm s n (step - e) false
          let i : Int := if s then -(m : Int) else m
          let c := clampInt (-(2 ^ (b - 1)), 2 ^ (b - 1) - 1) i
          (c, inexact || decide (c ≠ i))
        | _ => (0, false)
      (x.toNat, vs.map fun w => (one w).1, if vs.any fun w => (one w).2 then flagNX else 0)

end Sys2Proof.Machine
end

