-- ==== Sys2Proof/Machine/Access.lean ====
section
/-! DEFINITION. One access of an agent to device memory: translation, check values, the place where it is performed, and
remote pages (06_ordering.md R145-R163, 07_memory.md R172-R186, 16_fabric.md R356, R371). -/

namespace Sys2Proof.Machine

/-- Who accesses, at which scope, for which instruction (`key`) and element; `user` is level U, `scalar` an access of the scalar
stream (R145), `span` the span whose micro-TLB a lane's access asks (R384). An element's accesses are numbered from 2^20 times
the element on, the reads of records that it makes first from 2^19 further. -/
structure Acc where
  g      : Agent
  scope  : Nat
  user   : Bool
  key    : Word
  elem   : Nat
  scalar : Bool := false
  span   : Option Nat := none
  deriving DecidableEq, Repr

/-- Whether a remote access means that its part of the work has begun: a mere look at records does not (R396). -/
def Remote.begun (r : Remote) : Bool := decide (r.elem % 2 ^ 20 < 2 ^ 19)

/-- What an access comes to: its result and the state it leaves, a wait, or a fault with its cause. -/
inductive Got (α : Type) where
  | ok (a : α) (s : State)
  | wait (s : State)
  | fault (c : Cause) (s : State)

/-- What follows an access that has its result. -/
def Got.andThen {α β : Type} (r : Got α) (f : α → State → Got β) : Got β :=
  match r with
  | .ok a s => f a s
  | .wait s => .wait s
  | .fault c s => .fault c s

/-- The place whose translation caches an access uses (R384). -/
def Acc.place (q : Acc) : Place :=
  match q.g, q.span with
  | .ctx id, some i => .span (id / 8) i
  | g, _ => placeOf g

/-- The scope that holds for the agent: a handler's lane, core and quad scopes act as die scope (R356). -/
def Acc.scopeFor (q : Acc) : Nat :=
  match q.g with
  | .ctx _ => q.scope
  | .handler _ _ _ => max q.scope 3

/-- The error that `n` bytes of device memory in one line raise at their consumer: the check value of their line, or a unit of theirs in
the L2 or, where the L2 holds no good copy of it, in memory (R419, R421, R422). A fill by the zero-hint reads no memory (R171, R381). -/
def State.lineErrorAt (s : State) (pa n : Nat) (zeroHint : Bool) : Option Cause :=
  let copy := s.l2Find (pa / 128)
  if zeroHint && copy.isNone then none
  else if s.mismatch.contains (pa / 128) then some .integrity
  else if s.lostUnits.any fun u => match u with
      | .memory k => decide (32 * k < pa + n) && decide (pa < 32 * k + 32) && !((copy.map (·.sound)).getD []).contains (k % 4)
      | .l2 w => decide (8 * w < pa + n) && decide (pa < 8 * w + 8)
      | _ => false then some .dataloss
  else none

/-- The error that a read of `n` bytes at their buffer chip raises, the lowest line's first (R319, R421). -/
def State.chipError (s : State) (pa n : Nat) : Option Cause :=
  (span (pa / 128) ((pa + n - 1) / 128 + 1)).findSome? fun l =>
    if s.mismatch.contains l then some .integrity
    else if s.lostUnits.any fun u => match u with
        | .memory k => decide (k / 4 = l) && decide (32 * k < pa + n) && decide (pa < 32 * k + 32)
        | _ => false then some .dataloss
    else none

/-- The error that `n` bytes of device memory raise at their consumer, the lowest line's first. -/
def State.lineError (s : State) (pa n : Nat) (zeroHint : Bool) : Option Cause :=
  (span (pa / 128) ((pa + n - 1) / 128 + 1)).findSome? fun l =>
    let lo := max pa (128 * l)
    s.lineErrorAt lo (min (pa + n) (128 * l + 128) - lo) zeroHint

/-- The error that a load raises (R419, R421): one that hits the L1 reads no other place than that. -/
def State.loadError (s : State) (g : Agent) (scope pa n : Nat) (zeroHint : Bool) : Option Cause :=
  if s.loadMisses g scope pa n then s.lineError pa n zeroHint
  else if s.mismatch.contains (pa / 128) then some .integrity else none

/-! ## Reads that go before older ones (R148; log 87) -/

/-- The number of the rule that an access belongs to; none for a word of the scalar stream. -/
def ruleOfKey (key : Word) : Option Nat :=
  if 2 ^ 63 ≤ key.toNat ∧ key.toNat < 2 ^ 63 + 2 ^ 62 then some (key.toNat - 2 ^ 63) else none

/-- Whether an instruction has vector-stream reads of device memory (R145). -/
def readsAhead : Instr → Bool
  | .vld _ _ _ _ | .vldff _ _ _ _ | .vlds _ _ _ _ _ | .vldx _ _ _ _ _ | .vldxo _ _ _ _ _ | .mopm _ _ _ _ _ | .mwl _ _ _
  | .cpgoMm _ _ _ | .cpgoMs _ _ _ | .spool _ _ _ | .coll _ | .kvsel _ | .kvselTwin _ | .elapply _ | .lpush _ _
  | .wlpush _ _ | .wlins _ _ | .wlpop _ _ _ | .wlclose _ | .wlclear _ => true
  | _ => false

/-- How many elements an instruction with vector-stream reads has. -/
def Rule.readCount (r : Rule) : Nat :=
  match r.instr with
  | .mopm _ _ _ _ _ => nvlOf r.mtype
  | .mwl _ _ _ => r.opB.toNat / 2 ^ 8 % 128 + 1
  | .vld _ _ _ _ | .vldff _ _ _ _ | .vlds _ _ _ _ _ | .vldx _ _ _ _ _ | .vldxo _ _ _ _ _ | .spool _ _ _ => r.vl
  | _ => 1

/-- Whether an older rule of a context, standing or kept in a slot, may still have reads to make. -/
def Ctx.readsBehind (c : Ctx) (seq : Nat) : Bool :=
  (c.rules ++ c.userSlot ++ c.hndSlot ++ c.preSlot).any fun r => decide (r.seq < seq) && !r.detached && readsAhead r.instr &&
    decide ((r.done &&& lowOnes r.readCount) ≠ lowOnes r.readCount)

/-- What a read of the rule `seq` takes for a byte from the oldest younger read that went before it. -/
def Ctx.aheadByte (c : Ctx) (seq pa : Nat) : Option Byte :=
  (c.ahead.foldl (fun (best : Option Ahead) a =>
    if seq < a.seq ∧ a.pa ≤ pa ∧ pa < a.pa + a.bytes.length then
      match best with
      | some b => if a.seq < b.seq then some a else best
      | none => some a
    else best) none).bind fun a => a.bytes[pa - a.pa]?

/-- A vector-stream read of the rule `seq` takes bytes at a physical address: those of a younger read that went before it are the same
bytes again, and where an older rule has reads to make they are kept for those. -/
def State.vectorRead (s : State) (g : Agent) (seq : Option Nat) (pa : Nat) (bs : List Byte) : List Byte × State :=
  match seq with
  | none => (bs, s)
  | some q =>
    let c := s.getCtx g
    let bs := if c.ahead.isEmpty then bs else bs.zipIdx.map fun (b, i) => (c.aheadByte q (pa + i)).getD b
    if c.readsBehind q then (bs, s.setCtx { c with ahead := c.ahead ++ [{ seq := q, pa := pa, bytes := bs }] }) else (bs, s)

/-- A handler's store takes the place of what reads before it took there. -/
def State.dropAhead (s : State) (g : Agent) (pa n : Nat) : State :=
  let c := s.getCtx g
  if c.ahead.isEmpty || c.user then s else
  s.setCtx { c with ahead := c.ahead.filter fun a => decide (a.pa + a.bytes.length ≤ pa) || decide (pa + n ≤ a.pa) }

/-- The remote access that belongs to an instruction's element. -/
def findRemote (q : Acc) (tpa : Nat) (op : RemoteOp) (rs : List Remote) : Option Remote :=
  rs.find? fun r => r.key == q.key && r.elem == q.elem && r.tpa == tpa && decide (r.op = op)

/-- An instruction, or one part of a rule, an element or a numbered piece, is through with its remote accesses. -/
def Ctx.forget (c : Ctx) (key : Word) (e : Option Nat) : Ctx :=
  { c with remotes := c.remotes.filter fun r => decide (r.key ≠ key) || (e.map fun k => decide (r.elem / 2 ^ 20 ≠ k)).getD false }

/-- A remote access is sent once and waits until the owning device acknowledges it (R163); its answer of `n` bytes stands until the
instruction is through with it. -/
def State.remoteAt (s : State) (q : Acc) (owner tpa : Nat) (op : RemoteOp) (n : Nat) (bytes : List Byte) : Got (List Byte) :=
  let c := s.getCtx q.g
  match findRemote q tpa op c.remotes with
  | none =>
    let s := s.setCtx { c with remotes := c.remotes ++
      [{ key := q.key, elem := q.elem, owner := owner, tpa := tpa, op := op, bytes := bytes, issued := s.now }] }
    .wait { s with out := s.out ++ [.remote owner tpa op bytes] }
  | some r =>
    if r.lost then .fault .dataloss (s.setCtx (c.forget q.key (some (q.elem / 2 ^ 20))))
    else
      match r.answer with
      | none => .wait s
      | some data => .ok ((data ++ List.replicate n 0).take n) s

/-- The compare-and-swap loop of a 32-bit atomic on a remote page (R186): attempt `i` on the aligned 8-byte unit, which has last
been read as `unit`; `off` is where the 4 bytes lie in it. The loop goes as far as its answers have arrived. -/
def State.remoteLoop (s : State) (q : Acc) (p : Phys) (off : Nat) (new : Nat → Option Nat) : Nat → Nat → List Byte → Got (List Byte)
  | 0, _, _ => .wait s
  | fuel + 1, i, unit =>
    let old := (unit.drop off).take 4
    match new (ofBytes old) with
    | none => .ok old s
    | some w =>
      let next := unit.take off ++ toBytes 4 w ++ unit.drop (off + 4)
      (s.remoteAt { q with elem := q.elem + i } p.owner (p.pa - off) .cas 8 (next ++ unit)).andThen fun got s =>
        if got = unit then .ok old s else State.remoteLoop s q p off new fuel (i + 1) got

/-- An atomic that Ultra Ethernet carries to a remote page: 8 bytes as one atomic, 4 bytes as a read of their unit and a
compare-and-swap loop (R186, R192, R387). -/
def State.remoteAtomic (s : State) (q : Acc) (p : Phys) (op : RemoteOp) (n : Nat) (operand : List Byte) (new : Nat → Option Nat) :
    Got (List Byte) :=
  if n = 8 then s.remoteAt q p.owner p.pa op 8 operand
  else
    let off := p.pa % 8
    (s.remoteAt q p.owner (p.pa - off) .load 8 []).andThen fun unit s =>
      s.remoteLoop q p off new ((s.getCtx q.g).remotes.length + 1) 1 unit

/-- A load of `n` bytes within one line; `own` holds the bytes that the context's own records give (R233). A load of the scalar
stream takes first what its store queue holds (R148, R184). -/
def State.loadAt (s : State) (q : Acc) (va : Word) (n : Nat) (own : List (Option Byte)) : Got (List Byte) :=
  let t := s.tenantOf q.g
  match s.translate q.place t .load q.user va with
  | .error c => .fault c s
  | .ok p =>
    let s := s.fillTlb q.place t .load va
    let merge := fun (bs : List Byte) (top : List (Option Byte)) => (bs.zip (top ++ List.replicate n none)).map fun x => x.2.getD x.1
    match p.attr with
    | .remote =>
      match q.g with
      | .handler _ _ _ => .fault .loadfault s
      | .ctx _ => (s.remoteAt q p.owner p.pa .load n []).andThen fun bs s => .ok (merge bs own) s
    | _ =>
      if s.loadWaits q.g q.scopeFor p.pa n then .wait s
      else
        match s.loadError q.g q.scopeFor p.pa n p.zero with
        | some c => .fault c s
        | none =>
          let s := (s.loadFill q.g t q.scopeFor p.pa n p.zero).hear q.g p.pa n
          let bs := s.loadBytes q.g q.scopeFor p.pa n
          if q.scalar then .ok (merge (merge bs (s.queueBytes q.g p.pa n)) own) s
          else
            let p := s.vectorRead q.g (ruleOfKey q.key) p.pa bs
            .ok (merge p.1 own) p.2

/-- A store of bytes within one line: one of the scalar stream enters the store queue (R184). -/
def State.storeAt (s : State) (q : Acc) (va : Word) (bytes : List Byte) : Got Unit :=
  let t := s.tenantOf q.g
  match s.translate q.place t .store q.user va with
  | .error c => .fault c s
  | .ok p =>
    let s := s.fillTlb q.place t .store va
    match p.attr with
    | .remote =>
      match q.g with
      | .handler _ _ _ => .fault .storefault s
      | .ctx _ => (s.remoteAt q p.owner p.pa .store 0 bytes).andThen fun _ s => .ok () s
    | a =>
      let cap := decide (a = .capacity)
      let s := s.dropAhead q.g p.pa bytes.length
      .ok () (if q.scalar then s.queueStore q.g t (p.pa / 128) (cellsAt p.pa bytes) cap p.zero
        else s.sendStore q.g t (p.pa / 128) (cellsAt p.pa bytes) cap p.zero)

/-- An atomic on `n` bytes: `new` gives what is written for an old value, if anything. It is performed as one event at the
place that R158 fixes for its scope. `carried` is the operation as Ultra Ethernet carries it to a remote page, if it does, and
`operand` its operands there (R186, R192). -/
def State.atomicAt (s : State) (q : Acc) (va : Word) (n : Nat) (carried : Option RemoteOp) (operand : List Byte)
    (new : Nat → Option Nat) : Got Nat :=
  let t := s.tenantOf q.g
  match s.translate q.place t .atomic q.user va with
  | .error c => .fault c s
  | .ok p =>
    let s := s.fillTlb q.place t .atomic va
    match p.attr with
    | .remote =>
      match q.g, carried with
      | .ctx _, some op => (s.remoteAtomic q p op n operand new).andThen fun bs s => .ok (ofBytes bs) s
      | _, _ => .fault .storefault s
    | a =>
      let cap := decide (a = .capacity)
      let local' := decide (q.scope ≤ 1) && (coreOf q.g).isSome
      match s.lineError p.pa n p.zero with
      | some c => .fault c s
      | none =>
        let s := s.hear q.g p.pa n
        if local' then
          let s := s.loadFill q.g t q.scope p.pa n p.zero
          let old := ofBytes (s.loadBytes q.g q.scope p.pa n)
          .ok old (match new old with
            | some w => s.sendStore q.g t (p.pa / 128) (cellsAt p.pa (toBytes n w)) cap p.zero
            | none => s)
        else if ((coreOf q.g).map fun k => s.touchesPending k p.pa n).getD false then .wait s
        else
          let s := s.l2Fill t (p.pa / 128) p.zero
          let old := ofBytes (s.homeBytes p.pa n)
          .ok old (match new old with
            | some w => s.homeStore q.g t (p.pa / 128) (cellsAt p.pa (toBytes n w)) cap p.zero
            | none => s)

/-- Bytes read line by line from an address of no alignment: a descriptor, a transfer or a record (R147). The second part of
a fault is the address it met. -/
def State.readSpan (s : State) (q : Acc) (va : Word) : Nat → Nat → Except (Cause × Word) (Option (List Byte)) × State
  | 0, _ => (.ok (some []), s)
  | fuel + 1, n =>
    if n = 0 then (.ok (some []), s) else
    let here := min n (128 - va.toNat % 128)
    match s.loadAt q va here [] with
    | .fault c s => (.error (c, va), s)
    | .wait s => (.ok none, s)
    | .ok bs s =>
      match State.readSpan s { q with elem := q.elem + 1 } (va + BitVec.ofNat 64 here) fuel (n - here) with
      | (.ok (some rest), s) => (.ok (some (bs ++ rest)), s)
      | r => r

/-- Whether every page of a span translates for an access: the lowest address that does not, with its cause. -/
def State.spanFault (s : State) (q : Acc) (acc : Access) (va : Word) : Nat → Nat → Option (Cause × Word)
  | 0, _ => none
  | fuel + 1, n =>
    if n = 0 then none else
    match s.translate q.place (s.tenantOf q.g) acc q.user va with
    | .error c => some (c, va)
    | .ok _ =>
      let here := min n (65536 - va.toNat % 65536)
      State.spanFault s q acc (va + BitVec.ofNat 64 here) fuel (n - here)

/-- Bytes written line by line; `remote` says which lines: those of remote pages, or the others. -/
def State.writeLines (s : State) (q : Acc) (remote : Bool) (va : Word) : Nat → List Byte → Except (Cause × Word) Bool × State
  | 0, _ => (.ok true, s)
  | fuel + 1, bs =>
    if bs.isEmpty then (.ok true, s) else
    let here := min bs.length (128 - va.toNat % 128)
    let far := match s.translate q.place (s.tenantOf q.g) .store q.user va with
      | .ok p => decide (p.attr = .remote)
      | .error _ => false
    let rest := fun (s : State) =>
      State.writeLines s { q with elem := q.elem + 1 } remote (va + BitVec.ofNat 64 here) fuel (bs.drop here)
    if far = remote then
      match s.storeAt q va (bs.take here) with
      | .fault c s => (.error (c, va), s)
      | .wait s => match rest s with
        | (.error e, s) => (.error e, s)
        | (.ok _, s) => (.ok false, s)
      | .ok _ s => rest s
    else rest s

/-- Bytes written to an address of no alignment: nothing where a page of it does not translate, and the lines of remote pages first, so
that no line is written twice while one of those waits for its owning device (R8, R163). -/
def State.writeSpan (s : State) (q : Acc) (va : Word) (fuel : Nat) (bs : List Byte) : Except (Cause × Word) Bool × State :=
  match s.spanFault q .store va fuel bs.length with
  | some e => (.error e, s)
  | none =>
    match s.writeLines q true va fuel bs with
    | (.ok true, s) => s.writeLines q false va fuel bs
    | r => r

/-- The device's own access to a tenant's memory by the caches of a place: `n` bytes read at their home slice (R326, R356). -/
def State.placeRead (s : State) (place : Place) (tenant : Nat) (user : Bool) (va : Word) (n : Nat) : Except Cause (List Byte) :=
  match s.translate place tenant .load user va with
  | .error c => .error c
  | .ok p =>
    match p.attr with
    | .remote => .error .loadfault
    | _ =>
      match s.lineError p.pa n p.zero with
      | some c => .error c
      | none => .ok ((s.l2Fill tenant (p.pa / 128) p.zero).homeBytes p.pa n)

/-- The device's own store to a tenant's memory by the caches of a place, performed at pkg scope at once (R326, R406). -/
def State.placeWrite (s : State) (place : Place) (tenant : Nat) (user : Bool) (va : Word) (bytes : List Byte) : Except Cause State :=
  match s.translate place tenant .store user va with
  | .error c => .error c
  | .ok p =>
    match p.attr with
    | .remote => .error .storefault
    | a => .ok ((s.fillTlb place tenant .store va).deviceStore tenant (p.pa / 128) (cellsAt p.pa bytes) (decide (a = .capacity)) p.zero)

/-- A read by the management core or the scheduler. -/
def State.deviceRead (s : State) (tenant : Nat) (user : Bool) (va : Word) (n : Nat) : Except Cause (List Byte) :=
  s.placeRead deviceDie tenant user va n

/-- An access of the device's own to a remote page leaves for its owning device (R163, R172; log 88). -/
def State.sendRemote (s : State) (p : Phys) (op : RemoteOp) (bytes : List Byte) : State :=
  { s with out := s.out ++ [.remote p.owner p.pa op bytes] }

/-- A store by the management core or the scheduler. -/
def State.deviceWrite (s : State) (tenant : Nat) (user : Bool) (va : Word) (bytes : List Byte) : Except Cause State :=
  match s.translate deviceDie tenant .store user va with
  | .ok p => if p.attr = .remote then .ok (s.sendRemote p .store bytes) else s.placeWrite deviceDie tenant user va bytes
  | .error c => .error c

/-- A device store of bytes of any length, line by line; it stops at the first line that fails. -/
def State.placeWriteSpan (s : State) (place : Place) (tenant : Nat) (user : Bool) (va : Word) :
    Nat → List Byte → Except (Cause × State) State
  | 0, _ => .ok s
  | fuel + 1, bs =>
    if bs.isEmpty then .ok s else
    let here := min bs.length (128 - va.toNat % 128)
    match s.placeWrite place tenant user va (bs.take here) with
    | .error c => .error (c, s)
    | .ok s => State.placeWriteSpan s place tenant user (va + BitVec.ofNat 64 here) fuel (bs.drop here)

/-- A device read of bytes of any length, line by line. -/
def State.placeReadSpan (s : State) (place : Place) (tenant : Nat) (user : Bool) (va : Word) : Nat → Nat → Except Cause (List Byte)
  | 0, _ => .ok []
  | fuel + 1, n =>
    if n = 0 then .ok [] else
    let here := min n (128 - va.toNat % 128)
    match s.placeRead place tenant user va here with
    | .error c => .error c
    | .ok bs => (State.placeReadSpan s place tenant user (va + BitVec.ofNat 64 here) fuel (n - here)).map (bs ++ ·)

/-- A store of any length by the management core or the scheduler. -/
def State.deviceWriteSpan (s : State) (tenant : Nat) (user : Bool) (va : Word) (fuel : Nat) (bs : List Byte) :
    Except (Cause × State) State :=
  match fuel with
  | 0 => .ok s
  | fuel + 1 =>
    if bs.isEmpty then .ok s else
    let here := min bs.length (128 - va.toNat % 128)
    match s.deviceWrite tenant user va (bs.take here) with
    | .error c => .error (c, s)
    | .ok s => State.deviceWriteSpan s tenant user (va + BitVec.ofNat 64 here) fuel (bs.drop here)

/-- A read of any length by the management core or the scheduler. -/
def State.deviceReadSpan (s : State) (tenant : Nat) (user : Bool) (va : Word) (fuel n : Nat) : Except Cause (List Byte) :=
  s.placeReadSpan deviceDie tenant user va fuel n

end Sys2Proof.Machine
end

