-- ==== Sys2Proof/Machine/Ends.lean ====
section
/-! DEFINITION. What happens around a task and never inside one instruction: the lane allocation table (05_elements.md
R121-R123), interrupts (17_isolation.md R389), the recovery log (18_recovery.md R406), completion actions and the end of tasks
and launches (15_scheduling.md R326, R333). -/

namespace Sys2Proof.Machine

/-! ## The lane allocation table -/

/-- Spans that context `j` of the core holds. -/
def Core.held (c : Core) (j : Nat) : Nat := (c.spans.toList.filter fun o => o == some j).length

/-- The lowest-numbered free span. -/
def Core.freeSpan (c : Core) : Option Nat := firstFrom (fun i => c.spans.toList[i]? == some none) 0 8

/-- Gives the lowest-numbered free span to context `j` and serves it last. -/
def Core.give (c : Core) (j : Nat) : Core :=
  match c.freeSpan with
  | some i => { c with
      spans := c.spans.setIfInBounds i (some j), last := j
      former := c.former.setIfInBounds i (((c.former.toList[i]?).getD []).filter (· != j)) }
  | none => c

/-- The contexts of a freed span with one more (R123). -/
def Core.left (c : Core) (i j : Nat) : List Nat := ((c.former.toList[i]?).getD []).filter (· != j) ++ [j]

/-- The highest-numbered span that context `j` holds becomes free. -/
def Core.release (c : Core) (j : Nat) : Core :=
  match firstFrom (fun i => c.spans.toList[7 - i]? == some (some j)) 0 8 with
  | some i => { c with spans := c.spans.setIfInBounds (7 - i) none, former := c.former.setIfInBounds (7 - i) (c.left (7 - i) j) }
  | none => c

/-- Releases the highest-numbered spans of `j` until it holds no more than `n`. -/
def Core.shrink (c : Core) (j n : Nat) : Nat → Core
  | 0 => c
  | fuel + 1 => if n < c.held j then Core.shrink (c.release j) j n fuel else c

/-- The want of context `j`. -/
def Core.wants (c : Core) (j : Nat) : Nat := (c.want.toList[j]?).getD 0

/-- The deal of R122: one span at a time to the first context after `last` that is active and short of its want. A context that
comes back from a park is served before it (R340). -/
def Core.deal (c : Core) : Nat → Core
  | 0 => c
  | fuel + 1 =>
    let c := { c with back := c.back.filter fun j => decide (c.held j < c.wants j) }
    let short := fun i =>
      let k := (c.last + 1 + i) % 8
      decide (0 < c.held k) && decide (c.held k < c.wants k)
    match c.back, firstFrom short 0 8, c.freeSpan with
    | j :: _, _, some _ => Core.deal (c.give j) fuel
    | [], some i, some _ => Core.deal (c.give ((c.last + 1 + i) % 8)) fuel
    | _, _, _ => c

/-- Renegotiate for a context that goes on (R122). -/
def Core.renegotiate (c : Core) (j request : Nat) : Core :=
  let w := if request = 0 then c.held j else request
  let c := { c with want := c.want.setIfInBounds j w }
  let c := c.shrink j (max 1 w) 8
  let c := if c.held j = 0 then c.give j else c
  c.deal 8

/-- Renegotiate for a context that parks or ends without a new task (R122). -/
def Core.renegotiateEnd (c : Core) (j : Nat) : Core :=
  ({ c with
      spans := c.spans.map fun o => if o = some j then none else o, want := c.want.setIfInBounds j 0
      former := (Vector.range 8).map fun i =>
        if (c.spans.toList[i]?).getD none = some j then c.left i j else (c.former.toList[i]?).getD []
      back := c.back.filter (· != j) } : Core).deal 8

/-- A context comes back from a park: it takes free spans until it holds its kept want (R340). -/
def Core.comeBack (c : Core) (j want : Nat) : Core :=
  ({ c with want := c.want.setIfInBounds j (max 1 want), back := c.back ++ [j] } : Core).deal 9

/-- Renegotiate of a context; a handler has no lane table. -/
def State.renegotiate (s : State) (g : Agent) (request : Nat) : State :=
  match g with
  | .ctx id => s.mapCore (id / 8) fun c => c.renegotiate (id % 8) request
  | .handler _ _ _ => s

/-- Renegotiate of a context that parks, ends, yields or is pre-empted. -/
def State.renegotiateEnd (s : State) (g : Agent) : State :=
  match g with
  | .ctx id => s.mapCore (id / 8) fun c => c.renegotiateEnd (id % 8)
  | .handler _ _ _ => s

/-- The park of a context is over: it takes spans, and goes on at the word after the park once it holds one (R340). -/
def State.endPark (s : State) (g : Agent) : State :=
  match g, (s.getCtx g).hold with
  | .ctx id, .park since woken =>
    let s := if woken then s.mapCore (id / 8) fun k => k.deal 9
      else s.mapCore (id / 8) fun k => k.comeBack (id % 8) (s.getCtx g).want
    s.mapCtx g fun c => { c with hold := if 0 < (s.core (id / 8)).held (id % 8) then .run else .park since true }
  | _, _ => s

/-! ## Interrupts and the recovery log -/

/-- The payload of an interrupt (R389). -/
def interruptBytes (tenant : Nat) (i : Interrupt) : List Byte :=
  toBytes 2 i.vector ++ toBytes 1 tenant ++ toBytes 1 i.kind ++ toBytes 4 i.lost ++ toBytes 8 i.status.toNat ++
  toBytes 8 i.now.toNat ++ toBytes 8 i.source.toNat

/-- An interrupt is raised: one message to the endpoint that hostvec names, unless 1024 wait, in which case it is dropped and counted (R389). -/
def State.interrupt (s : State) (t vector kind : Nat) (status source : Word) : State :=
  let ten := s.tenant t
  if Config.interruptPlaces ≤ ten.pendInts.length then s.mapTenant t fun a => { a with lostInts := a.lostInts + 1 }
  else
    let i : Interrupt := { vector := vector, kind := kind, lost := ten.lostInts, status := status, now := s.now, source := source }
    let s := s.mapTenant t fun a => { a with pendInts := a.pendInts ++ [i], lostInts := 0 }
    { s with out := s.out ++ [.interrupt t (ten.hostvec.toNat % 64) (interruptBytes t i)] }

/-- The code of a cause (R397). -/
def causeCode : Cause → Nat
  | .illop => 0x01
  | .unimpl => 0x02
  | .illcfg => 0x03
  | .priv => 0x04
  | .fetchfault => 0x08
  | .loadfault => 0x09
  | .storefault => 0x0A
  | .window => 0x0B
  | .align => 0x0C
  | .integrity => 0x0D
  | .dataloss => 0x0E
  | .sparsemeta => 0x10
  | .elfull => 0x11
  | .nocollect => 0x12
  | .emptywait => 0x13
  | .wlfull => 0x14
  | .tile => 0x15
  | .trapinsn => 0x18
  | .ecall => 0x19
  | .barrierdead => 0x1C
  | .queuegone => 0x1D
  | .stripnest => 0x1E

/-- An entry of the recovery log (R406): kind, die, context id, launch, ticket and the 56 bytes that the kind has. -/
structure LogEntry where
  kind   : Nat
  die    : Nat := 0xFF
  ctxid  : Nat := 0xFFFFFFFF
  launch : Word := 0
  ticket : Word := 0
  body   : List Word := []
  deriving DecidableEq, Repr

/-- The 128 bytes of entry `n`. -/
def LogEntry.bytes (e : LogEntry) (n now : Word) : List Byte :=
  toBytes 2 e.kind ++ toBytes 1 e.die ++ [0] ++ toBytes 4 e.ctxid ++ toBytes 8 e.launch.toNat ++ toBytes 8 e.ticket.toNat ++
  toBytes 8 n.toNat ++ ((e.body ++ List.replicate 7 0).take 7).flatMap (fun (w : Word) => toBytes 8 w.toNat) ++ toBytes 8 now.toNat ++
  List.replicate 32 0

/-- An entry is written, counted, and reported by interrupt rvec (R406). An entry that cannot be written is lost: it is still
counted and reported, with bit 63 of the status set. -/
def State.logEvent (s : State) (t : Nat) (e : LogEntry) : State :=
  let ten := s.tenant t
  let n := ten.rlogseq
  let place := ten.rlogbase + BitVec.ofNat 64 (128 * (n.toNat % max 1 ten.rlogsize.toNat))
  let s' := s.mapTenant t fun a => { a with rlogseq := a.rlogseq + 1 }
  let status := fun lost => BitVec.ofNat 64 (n.toNat % 2 ^ 63 + if lost then 2 ^ 63 else 0)
  if ten.rlogbase = 0 then s'.interrupt t ten.rvec.toNat 3 (status true) (BitVec.ofNat 64 e.ctxid)
  else
    match s'.deviceWrite t false place (e.bytes n s.now) with
    | .ok s' => s'.interrupt t ten.rvec.toNat 3 (status false) (BitVec.ofNat 64 e.ctxid)
    | .error _ => s'.interrupt t ten.rvec.toNat 3 (status true) (BitVec.ofNat 64 e.ctxid)

/-! ## Launches -/

/-- A field of a launch's record (R325). -/
def Launch.field (l : Launch) (off n : Nat) : Nat := ofBytes ((l.fields.drop off).take n)
/-- The flag bits (R325): codefence 0, idem 1, droplate 2, steal 3, gang 4. -/
def Launch.flag (l : Launch) (i : Nat) : Bool := bitOf (l.field 3 1) i == 1
/-- Whether the launch counts each ticket (R326). -/
def Launch.perTask (l : Launch) : Bool := bitOf (l.field 0x61 1) 0 == 1
/-- Whether the completion action has that kind (R326): count 0, irq 1, status 2. -/
def Launch.doneKind (l : Launch) (i : Nat) : Bool := bitOf (l.field 0x60 1) i == 1
/-- done.addr (R325). -/
def Launch.doneAddr (l : Launch) : Word := BitVec.ofNat 64 (l.field 0x68 8)
/-- The deadline (R325). -/
def Launch.deadline (l : Launch) : Nat := l.field 0x30 8
/-- Whether its tickets come from a work list (R325). -/
def Launch.fromList (l : Launch) : Bool := l.field 6 1 == 1

/-- The status word of a launch (R326). -/
def Launch.status (l : Launch) : Word :=
  BitVec.ofNat 64 (l.outcome % 16 + (if l.late then 16 else 0) + (if l.actFault then 32 else 0) + l.failed % 2 ^ 32 * 2 ^ 32)

/-- The launch of an id in a list. -/
def findLaunch (id : Nat) : List Launch → Option Launch
  | [] => none
  | l :: t => if l.id = id then some l else findLaunch id t

/-- Changes a launch in the table. -/
def State.mapLaunch (s : State) (t id : Nat) (f : Launch → Launch) : State :=
  s.mapTenant t fun a => { a with launches := a.launches.map fun l => if l.id = id then f l else l }

/-- An access of the completion action faulted (R326): ACTFAULT, a log entry of kind 4, and its interrupt. -/
def State.actionFault (s : State) (t : Nat) (l : Launch) (addr : Word) : State :=
  let s := s.mapLaunch t l.id fun l => { l with actFault := true }
  s.logEvent t { kind := 4, launch := BitVec.ofNat 64 l.id,
                 body := [BitVec.ofNat 64 (l.field 0x60 2), l.doneAddr, addr] }

/-- Adds 1 to the count word, as a store of the tenant (R326): it faults as a store does, or by an error of the word. -/
def State.addCount (s : State) (t : Nat) (l : Launch) : State :=
  match s.translate deviceDie t .store true l.doneAddr with
  | .error _ => s.actionFault t l l.doneAddr
  | .ok p =>
    if p.attr = .remote then s.sendRemote p .add (toBytes 8 1 ++ toBytes 8 0)
    else if (s.lineError p.pa 8 p.zero).isSome then s.actionFault t l l.doneAddr
    else
      let w := ofBytes ((s.l2Fill t (p.pa / 128) p.zero).homeBytes p.pa 8)
      match s.deviceWrite t true l.doneAddr (toBytes 8 (w + 1)) with
      | .ok s => s
      | .error _ => s.actionFault t l l.doneAddr

/-- The per-ticket addition when a task ends or a ticket is skipped (R326, R349). -/
def State.ticketCount (s : State) (t id : Nat) : State :=
  match findLaunch id (s.tenant t).launches with
  | some l => if l.doneKind 0 && l.perTask then s.addCount t l else s
  | none => s

/-- The completion action at launch end: the count, then the status, then the interrupt (R326). -/
def State.completionAction (s : State) (t : Nat) (l : Launch) : State :=
  let s := if l.doneKind 0 && !l.perTask then s.addCount t l else s
  let now := fun s : State => (findLaunch l.id (s.tenant t).launches).getD l
  let s := if l.doneKind 2 then
      match s.deviceWrite t true (l.doneAddr + 8) (toBytes 8 ((now s).status).toNat) with
      | .ok s => s
      | .error _ => s.actionFault t l (l.doneAddr + 8)
    else s
  if l.doneKind 1 then s.interrupt t (l.field 0x62 2) 0 (now s).status l.record else s

/-- A launch ends: LATE when its deadline has passed, its action, and it leaves the table; a held queue may fetch again
(R326, R330, R332, R333). -/
def State.launchDone (s : State) (t id : Nat) : State :=
  let s := s.mapLaunch t id fun l => { l with late := l.late || decide (l.deadline < s.now.toNat) }
  match findLaunch id (s.tenant t).launches with
  | none => s
  | some l =>
    let s := s.completionAction t l
    s.mapTenant t fun a => { a with
      launches := a.launches.filter fun x => x.id != id
      queues := a.queues.map fun q => if q.state = .held then { q with state := .fetch } else q }

/-- The state words of a work list (R344): head, tail, whether it is closed. -/
def State.listState (s : State) (t : Nat) (desc : Word) : Except Cause (Nat × Nat × Bool) :=
  match s.deviceReadSpan t true desc 2 64 with
  | .error c => .error c
  | .ok bs =>
    let f := fun o n => ofBytes ((bs.drop o).take n)
    .ok (f 0x20 8, f 0x28 8, bitOf (f 0x30 8) 63 == 1)

/-- Whether a work list is closed and empty (R333). That of a launch that is DRAINING was so already. -/
def State.listOver (s : State) (t : Nat) (l : Launch) : Bool :=
  l.listGone ||
  match s.listState t (BitVec.ofNat 64 (l.field 0x28 8)) with
  | .ok (head, tail, closed) => closed && head == tail
  | .error _ => decide (l.state = .draining)

/-- Whether tasks of a launch wait to resume (R340). -/
def State.hasSaved (s : State) (t id : Nat) : Bool :=
  s.allCtx.any fun c =>
    match c.task, c.hold with
    | some k, .saved _ _ | some k, .barrier _ _ true => k.tenant == t && k.launch == id
    | _, _ => false

/-- Tickets that a launch has kept and not dispatched: its ranges, and what the loss of a die left it (R335, R423). -/
def Launch.kept (l : Launch) : Nat :=
  l.ranges.foldl (fun n r => n + (r.2 - r.1)) 0 + l.extra.foldl (fun n r => n + (r.2.2 - r.2.1)) 0

/-- Whether every ticket of a launch has been dispatched or its list is over (R333). -/
def State.exhausted (s : State) (t : Nat) (l : Launch) : Bool :=
  l.kept == 0 && (!l.fromList || s.listOver t l)

/-- A launch moves on where it can: READY to DRAINING when its source is exhausted, DRAINING to DONE when every task has ended
and a list is closed and empty or failed (R333). -/
def State.advanceLaunch (s : State) (t id : Nat) : State :=
  match findLaunch id (s.tenant t).launches with
  | none => s
  | some l =>
    let state := if l.state = .ready && s.exhausted t l then LaunchState.draining else l.state
    let s := s.mapLaunch t id fun l => { l with state := state }
    if state = .draining && l.running == 0 && (!l.fromList || s.listOver t l) then s.launchDone t id else s

/-! ## The end of a task -/

/-- How a task ended: as `halt` gives, with a fatal trap, or with QUEUEGONE (R404, R410). -/
inductive Ending where
  | ok
  | fatal
  | gone
  deriving DecidableEq, Repr

/-- What names a rule among the context's accesses; no pc has this form (R174). -/
def Rule.key (r : Rule) : Word := BitVec.ofNat 64 (2 ^ 63 + r.seq)

/-- A collective that runs on without its task: its tag is no longer the task's, whose tag mask it keeps (R214, R366, R370). -/
def Rule.orphan (r : Rule) (mask : Word) : Rule := { r with detached := true, eng := { r.eng with orphan := true, stopped := mask.toNat } }

/-- Whether a rule is a collective in flight, which neither a trap nor the end of its task stops (R370, R404, R418). -/
def Rule.runsOn (r : Rule) : Bool :=
  r.issued && r.fault.isNone && match r.instr with
    | .coll _ => true
    | _ => false

/-- The remote accesses of the rules that run on beside their records or without their task. -/
def Ctx.remotesOf (c : Ctx) (rs : List Rule) : List Remote := c.remotes.filter fun x => rs.any fun r => r.key == x.key

/-- The context without its task: tiles, tags and handles released, no rule left but a collective that runs on (R370, R404,
R410), and its register lines evictable (R120). A copy is abandoned; the scratchpad lines that it had still to write become full
(DESIGN CHOICE, log 70). -/
def Ctx.emptied (c : Ctx) : Ctx :=
  { c with
    rules := (c.rules.filter Rule.runsOn).map fun r => if r.eng.orphan then r else r.orphan c.tagMask
    queue := [], userSlot := [], hndSlot := [], preSlot := [], pending := none, hold := .idle, task := none, yieldBy := none
    routine := none, userRtn := none, hndRtn := none, arrivals := [], remotes := c.remotesOf (c.rules.filter Rule.runsOn), tagMap := [], tagMask := 0
    tileMap := Vector.replicate 4 none, claims := 0, handles := Vector.replicate 16 {}, cdepth := 0, tstat := 0
    svFence := none, userFence := none, hndFence := none, userImg := none, hndImg := none, ahead := [], released := [], heard := []
    acquired := [] }

/-- Physical tiles that a context held become free (R404, R410). -/
def State.freeTiles (s : State) (g : Agent) : State :=
  match g with
  | .ctx id => s.mapCore (id / 8) fun c => { c with tileOwner := c.tileOwner.map fun o => if o = some id then none else o }
  | .handler _ _ _ => s

/-- The launch learns that a task of it has ended (R326, R333, R350). -/
def State.taskGone (s : State) (k : Task) (e : Ending) : State :=
  let s := s.mapLaunch k.tenant k.launch fun l =>
    { l with
      running := l.running - 1
      failed := if e = .ok then l.failed else l.failed + 1
      outcome := match e with
        | .ok => l.outcome
        | .fatal => if l.outcome = 1 then 1 else if l.outcome = 3 then 3 else 2
        | .gone => 3
      ranges := if e = .gone then [] else l.ranges
      extra := if e = .gone then [] else l.extra
      listGone := l.listGone || decide (e = .gone) }
  let s := s.ticketCount k.tenant k.launch
  s.advanceLaunch k.tenant k.launch

/-- A task ends (R122, R404, R410). -/
def State.endTask (s : State) (g : Agent) (e : Ending) : State :=
  let c := s.getCtx g
  let s := ((s.setCtx c.emptied).renegotiateEnd g).freeTiles g
  match c.task with
  | some k => s.taskGone k e
  | none => s

end Sys2Proof.Machine
end

