-- ==== Sys2Proof/Machine/Ops.lean ====
section
/-! DEFINITION. The shared operations of the meanings: moving past a word, raising a cause, TAKING A TRAP (18_recovery.md
R394-R404) and RETURNING from one (R411), pre-emption and resumption (R417, R418), and the state block in memory (R398-R401). -/

namespace Sys2Proof.Machine

/-- The outcome of a step of this machine. -/
abbrev Result := Host.Outcome State Fault Refusal

/-- The outcome of a meaning that completes in state `s`. -/
abbrev done (s : State) : Result := .next s

/-! ## Moving past a word -/

/-- The PC of the word that executes: in a routine the trigger's (R52). -/
def Ctx.instrPc (c : Ctx) : Word := (c.routine.map (·.pc)).getD c.pc

/-- A routine ends: the outer x116-x123 come back and execution goes on after the trigger (R50, R52). -/
def Ctx.endRoutine (c : Ctx) (r : Routine) : Ctx :=
  { c with
    x := (List.range 8).foldl (fun (x : Vector Word 128) i => x.setIfInBounds (116 + i) ((c.outer.toList[i]?).getD 0)) c.x
    routine := none
    pc := r.pc + 4 }

/-- The word at the pc, or the pair of `n = 2` words, is done: the pc, or the offset in the routine, moves past it. -/
def Ctx.advance (c : Ctx) (n : Nat) : Ctx :=
  let c := { c with hold := .run }.forget c.instrPc none
  match c.routine with
  | none => { c with pc := c.pc + BitVec.ofNat 64 (4 * n) }
  | some r => if r.off + n < r.words then { c with routine := some { r with off := r.off + n } } else c.endRoutine r

/-- The word executed by the context whose turn it is is done. -/
def State.advance (s : State) : State := { s with ctx := s.ctx.advance 1 }

/-- A context outside any routine (R52). -/
def Ctx.outside (c : Ctx) : Ctx :=
  match c.routine with
  | none => c
  | some r => c.endRoutine r

/-- Control goes to an address, outside any routine (R137, R225, R226, R266; log 26). -/
def State.jumpTo (s : State) (pc : Word) : State :=
  { s with ctx := { (s.ctx.advance 1).outside with pc := pc } }

/-- The word executes again later: the front end waits for something older (R130). -/
def State.stall (s : State) : State := { s with ctx := { s.ctx with hold := .stall } }

/-! ## The state block in memory (R398-R401) -/

/-- The cells of fields (offset, size, value), zeros left out. -/
def fieldCells (fs : List (Nat × Nat × Nat)) : List Host.Cell :=
  fs.flatMap fun f => (cellsAt f.1 (toBytes f.2.1 f.2.2)).filter fun c => c.2 != 0

/-- `size` bytes from a device address become the given cells (offsets from it, zero elsewhere), at the home of their lines and
without allocating in any cache (log 6). -/
def State.imageStore (s : State) (pa size : Nat) (cells : List Host.Cell) : State :=
  let put := cells.map fun c => (pa + c.1, c.2)
  let s := s.bufferRange pa (pa + size)
  State.repair { s with
    hbm := (s.hbm.clear pa (pa + size)).writeCells put
    l2 := s.l2.map fun (e : L2Line) =>
      let lo := 128 * e.line
      if lo + 128 ≤ pa || pa + size ≤ lo then e else
      let d := (e.data.clear (pa - lo) (pa + size - lo)).writeCells
        ((put.filter fun (c : Host.Cell) => decide (lo ≤ c.1) && decide (c.1 < lo + 128)).map fun c => (c.1 - lo, c.2))
      { e with data := d, zero := d.isEmpty, dirty := true }
    cores := s.cores.map fun (k, c) =>
      let kept := c.l1.filter fun (e : L1Line) => decide (128 * e.line + 128 ≤ pa) || decide (pa + size ≤ 128 * e.line)
      (k, { c with l1 := kept }) } fun lo n => decide (pa ≤ lo) && decide (lo + n ≤ pa + size)

/-- Part of the state block of a context is written, through its tenant's translation and above level U (R398): `none` where
that fails. The part lies in one 64 KiB page. -/
def State.blockStore (s : State) (g : Agent) (off size : Nat) (cells : List Host.Cell) : Option State :=
  let c := s.getCtx g
  match s.translate (placeOf g) (s.tenantOf g) .store false (c.ctximg + BitVec.ofNat 64 (Config.stateBlock + off)) with
  | .ok p => if p.attr = .remote then none else
      some ((s.fillTlb (placeOf g) (s.tenantOf g) .store (c.ctximg + BitVec.ofNat 64 (Config.stateBlock + off))).imageStore
        p.pa size cells)
  | .error _ => none

/-- Part of the state block of a context is read at lane scope. -/
def State.blockLoad (s : State) (g : Agent) (off n : Nat) : Option (List Byte) :=
  let c := s.getCtx g
  match s.translate (placeOf g) (s.tenantOf g) .load false (c.ctximg + BitVec.ofNat 64 (Config.stateBlock + off)) with
  | .ok p => if p.attr = .remote || (s.lineError p.pa n p.zero).isSome then none
      else some ((s.loadFill g (s.tenantOf g) 0 p.pa n p.zero).loadBytes g 0 p.pa n)
  | .error _ => none

/-- The strip word of a level area (R398). -/
def Strip.word (t : Strip) : Nat :=
  (if t.isOpen then 1 else 0) + (if t.independent then 2 else 0) + 256 * t.reg.val

/-- The number of a grain of 32 mask bits, behind those of the vector image (R108). -/
def maskGrain (q g : Nat) : Nat := 2 ^ 20 + 128 * q + g

/-- The presence bits of the masks (R398). -/
def Ctx.maskPresence (c : Ctx) : Nat :=
  if c.absent.isEmpty then 2 ^ 1024 - 1
  else (List.range 1024).foldl (fun n i => if c.absent.contains (maskGrain 0 i) then n else n + 2 ^ i) 0

/-- The grains of a context that are not present, its masks' as a level area's presence bits say (R411). -/
def Ctx.absentAs (c : Ctx) (bits : Nat) : List Nat :=
  c.absent.filter (fun x => decide (x < maskGrain 0 0)) ++
    if bits = 2 ^ 1024 - 1 then [] else ((List.range 1024).filter fun i => bitOf bits i == 0).map (maskGrain 0)

/-- What the standing rules of a context had to write is present when they are recorded (R402 step 2). -/
def State.grainsDue (s : State) (g : Agent) : State :=
  if (s.getCtx g).absent.isEmpty then s
  else s.mapCtx g fun c => { c with absent := c.absent.filter fun x => !c.rules.any fun r => r.owes.contains x }

/-- The level area's x registers, pc, and the level words from mtype on, the outer temporaries, the masks and their presence
(R398); vl, vtype and vstart apart. -/
def Ctx.levelFields (c : Ctx) : List (Nat × Nat × Nat) :=
  ((List.range 128).map fun i => (8 * i, 8, ((c.x.toList[i]?).getD 0).toNat)) ++
  [(0x400, 8, c.pc.toNat), (0x420, 8, c.mtype.toNat), (0x428, 8, c.wb.toNat), (0x430, 8, c.fflags.toNat),
   (0x438, 8, c.cmode.toNat), (0x440, 8, c.strip.sc.toNat), (0x448, 8, c.strip.sb.toNat), (0x450, 8, c.strip.sbody.toNat),
   (0x458, 8, c.strip.sbend.toNat), (0x460, 8, c.strip.word)] ++
  ((List.range 8).map fun i => (0x500 + 8 * i, 8, ((c.outer.toList[i]?).getD 0).toNat)) ++
  ((List.range 8).map fun i => (0x800 + 512 * i, 512, ((c.q.toList[i]?).getD 0).toNat)) ++
  [(0x1800, 128, c.maskPresence)]

/-- Writes level area `k` (R402 step 3): every field but vl, vtype and vstart, and its unused bytes as zero. -/
def State.saveLevel (s : State) (g : Agent) (k : Nat) : Option State :=
  let cells := fieldCells (s.getCtx g).levelFields
  let part := fun lo hi => (cells.filter fun (c : Host.Cell) => decide (lo ≤ c.1) && decide (c.1 < hi)).map fun c => (c.1 - lo, c.2)
  ((s.blockStore g (0x2000 * k) 0x408 (part 0 0x408)).bind fun s =>
    s.blockStore g (0x2000 * k + 0x420) 0x3E0 (part 0x420 0x800)).bind fun s =>
    s.blockStore g (0x2000 * k + 0x800) 0x1800 (part 0x800 0x2000)

/-- Writes vl, vtype and vstart of level area `k`. -/
def State.saveVl (s : State) (g : Agent) (k : Nat) : Option State :=
  let c := s.getCtx g
  s.blockStore g (0x2000 * k + 0x408) 24 (fieldCells [(0, 8, c.vl.toNat), (8, 8, c.vtype.toNat), (16, 8, c.vstart.toNat)])

/-- The collecting frames with the handle that a level area's cmode word gives as active (R221, R398). -/
def Ctx.framesAs (c : Ctx) (cmode : Nat) : Vector CollFrame 4 :=
  if cmode % 8 = 0 then c.frames else
  let i := min 4 (cmode % 8) - 1
  c.frames.setIfInBounds i { ((c.frames.toList[i]?).getD {}) with handle := cmode / 16 % 16 }

/-- A context with the x registers, masks and level words that a level area holds (R411). -/
def Ctx.loadLevel (c : Ctx) (bs : List Byte) : Ctx :=
  let f := fun o n => ofBytes ((bs.drop o).take n)
  let w := fun o => BitVec.ofNat 64 (f o 8)
  let sw := f 0x460 8
  { c with
    x := (Vector.range 128).map fun i => if i = 0 then 0 else w (8 * i)
    pc := w 0x400, mtype := w 0x420, wb := w 0x428 &&& 0x3F8, fflags := w 0x430 &&& 0x1F
    claims := Nat.lor c.claims (Nat.land c.tileMask (claimOf (w 0x420))), absent := c.absentAs (f 0x1800 128)
    cdepth := min 4 (f 0x438 8 % 8), frames := c.framesAs (f 0x438 8)
    strip := { sc := w 0x440, sb := w 0x448, sbody := w 0x450, sbend := w 0x458, isOpen := sw % 2 == 1,
               independent := sw / 2 % 2 == 1, reg := ⟨sw / 256 % 128, Nat.mod_lt _ (by decide)⟩ }
    outer := (Vector.range 8).map fun i => w (0x500 + 8 * i)
    q := (Vector.range 8).map fun i => BitVec.ofNat 4096 (f (0x800 + 512 * i) 512) }

/-- The source layout and the destination layout of a copy's record, levels beyond the count zero (R401). -/
def layoutFields (base : Nat) (src dst : List Word) : List (Nat × Nat × Nat) :=
  ((List.range 6).map fun i => (base + 8 * i, 8, ((src[i]?).getD 0).toNat)) ++
  ((List.range 6).map fun i => (base + 48 + 8 * i, 8, ((dst[i]?).getD 0).toNat))

/-- Whether an instruction is one of the copies. -/
def isCopy : Instr → Bool
  | .cpgoMm _ _ _ | .cpgoMs _ _ _ | .cpgoSm _ _ _ | .cpgoSs _ _ _ => true
  | _ => false

/-- Whether an instruction is `kvsel` (R401). -/
def isKvsel : Instr → Bool
  | .kvsel _ | .kvselTwin _ => true
  | _ => false

/-- Whether an instruction is an engine instruction that uses the resume index (R401). -/
def usesResume : Instr → Bool
  | .cpgoMm _ _ _ | .cpgoMs _ _ _ | .cpgoSm _ _ _ | .cpgoSs _ _ _ | .kvsel _ | .kvselTwin _ | .elapply _ | .spool _ _ _ => true
  | _ => false

/-- The origin that holds for element e among runs of slots, each an element and the origin from it on. -/
def originFrom (e : Nat) : List Nat → Word → Word
  | a :: o :: t, w => originFrom e t (if a ≤ e then BitVec.ofNat 64 o else w)
  | _, w => w

/-- The d word of a record: of a recording store the origin of the slots that it has still to write (R432; log 72). -/
def Rule.originWord (r : Rule) : Word :=
  if isCopy r.instr || isKvsel r.instr then r.opD
  else originFrom ((firstFrom (fun e => !r.done.getLsbD e) r.vstart (r.r - r.vstart)).getD r.r) r.eng.xfers r.opD

/-- Record `k` of a rule slot (R401): its 64 bytes and its done mask area. -/
def Rule.record (r : Rule) (k : Nat) : List (Nat × Nat × Nat) :=
  let o := 64 * k
  let m := 0x1800 + 512 * k
  let flags := 1 + (if usesResume r.instr then 2 else 0) + (if r.routine then 4 else 0) + (if r.detached then 8 else 0)
  let d := if isCopy r.instr then r.eng.src.length + 16 * r.eng.dst.length else r.originWord.toNat
  [(o, 8, r.pc.toNat), (o + 8, 4, ((encode r.instr).head?).getD 0), (o + 0x0C, 1, flags),
   (o + 0x0D, 1, r.cdepth + 16 * r.chandle), (o + 0x0E, 2, r.wb), (o + 0x10, 8, r.vtype.toNat), (o + 0x18, 8, r.mtype.toNat),
   (o + 0x20, 4, r.vl), (o + 0x24, 4, r.r), (o + 0x28, 8, d), (o + 0x30, 8, r.opA.toNat), (o + 0x38, 8, r.opB.toNat)] ++
  (if isCopy r.instr then layoutFields m r.eng.src r.eng.dst
   else if isKvsel r.instr then (List.range 64).map fun i => (m + 96 + 4 * i, 4, (r.eng.index[i]?).getD 0)
   else [(m, 512, r.done.toNat)])

/-- Every record of a slot, the first at number `k`. -/
def slotFields : List Rule → Nat → List (Nat × Nat × Nat)
  | [], _ => []
  | r :: rs, k => r.record k ++ slotFields rs (k + 1)

/-- Writes a slot's copy into the state block, the unused bytes after it as zero (R398, R401). -/
def State.saveSlot (s : State) (g : Agent) (off : Nat) (rs : List Rule) : Option State :=
  s.blockStore g off 0x10000 (fieldCells (slotFields rs 0))

/-- Writes the copy in use of a slot that keeps rules (R401): as `ldrule` last read it, or as its records stand. -/
def State.saveKept (s : State) (g : Agent) (off : Nat) (img : Option (List Byte)) (rs : List Rule) : Option State :=
  match img with
  | some bs => s.blockStore g off 0x10000 ((cellsAt 0 bs).filter fun c => c.2 != 0)
  | none => s.saveSlot g off rs

/-- A trap frame (R400). -/
structure TrapFrame where
  cause : Nat
  pc    : Word
  elem  : Nat
  addr  : Word
  rule  : Word
  tstat : Word
  rpc   : Word
  deriving DecidableEq, Repr

/-- Writes a trap frame (R400). -/
def State.saveFrame (s : State) (g : Agent) (off : Nat) (f : TrapFrame) : Option State :=
  s.blockStore g off 128 (fieldCells [(0, 8, f.cause), (8, 8, f.pc.toNat), (16, 8, f.elem), (24, 8, f.addr.toNat),
    (32, 8, f.rule.toNat), (40, 8, f.tstat.toNat), (48, 8, f.rpc.toNat), (56, 8, s.now.toNat)])

/-! ## Taking a trap -/

/-- A rule as its record keeps it. The transfers of a copy or a `kvsel` from the lowest one not performed on are to be performed
again (R216, R365), so that the scratchpad lines they write are empty again (log 70). A `kvsel` or `spool` reads its descriptor
again and abandons partial sums (R321, R365); the lines that a `kvsel` has emptied stay empty (R217), so its record keeps what its
descriptor said and the phase it was in. Waits begin anew, its interlock entry is a fresh one (R181), and data that a load has taken and
not written is taken again. A `coll` in flight goes on beside its record (R370, R418). -/
def Rule.rewind (r : Rule) : Rule :=
  let failed := r.fault.isSome
  let r := { r with fault := none, stood := 0, owes := [], hull := {}, eng := { r.eng with waits := [], held := [] } }
  let n := (firstFrom (fun j => !r.eng.xfers.contains j) 0 (r.eng.xfers.length + 1)).getD 0
  match r.instr with
  | .spool _ _ _ => { r with eng := { r.eng with phase := 0, parts := [], chunks := [], acks := [] } }
  | .elapply _ => { r with eng := { r.eng with header := [], phase := 0, chunks := [] } }
  | .coll _ => if failed then { r with eng := { r.eng with phase := 0, src := [], xfers := [], header := [] } } else { r with detached := r.issued }
  | i =>
    if isCopy i then { r with r := n, eng := { r.eng with xfers := List.range n } }
    else if isKvsel i then
      { r with r := n, eng := { r.eng with xfers := List.range n, phase := 0, stopped := max r.eng.phase r.eng.stopped } }
    else r

/-- A queued copy takes the snapshot of the layouts, unless an older capture still stands (R215, R402). -/
def Ctx.snapLayouts (c : Ctx) (r : Rule) : Rule :=
  let capturing := (c.rules ++ c.queue).any fun x => match x.instr with
    | .cpls _ | .cpld _ => true
    | _ => false
  if isCopy r.instr && !capturing && r.eng.src.isEmpty then { r with eng := { r.eng with src := c.srcLayout, dst := c.dstLayout } } else r

/-- The rules that a slot takes: every standing rule and every queued instruction in program order (R402 step 2). A `coll` that
runs on from a level below is in that level's slot. -/
def Ctx.records (c : Ctx) : List Rule := (c.rules.filter (fun r => !r.detached) ++ c.queue.map c.snapLayouts).map Rule.rewind

/-- The ticket and launch of a task, for a log entry; a task stored apart counts at the context that it was saved in. -/
def Ctx.logOf (c : Ctx) : LogEntry :=
  let at' := fun id => if id < Config.contexts then id else c.origin
  { kind := 1
    die := match c.agent with
      | .ctx id => at' id / 384
      | .handler _ slice _ => slice / 48
    ctxid := match c.agent with
      | .ctx id => at' id
      | .handler _ _ _ => 0xFFFFFFFF
    launch := (c.task.map (·.launchid)).getD 0, ticket := (c.task.map (·.ticket)).getD 0 }

/-- A fatal trap ends the task: a log entry of kind 1, interrupt rvec, and the launch counts it (R404). A release at pkg scope comes
first (R326). -/
def State.fatal (s : State) (g : Agent) (f : TrapFrame) : State :=
  let c := s.getCtx g
  let s := if s.storesDone g then s else s.drainStores
  let s := s.logEvent (s.tenantOf g) { c.logOf with body :=
    [BitVec.ofNat 64 f.cause, f.pc, BitVec.ofNat 64 f.elem, f.addr, f.rule, f.tstat, f.rpc] }
  s.endTask g (if f.cause = causeCode .queuegone then .gone else .fatal)

/-- A handler context stops at a word boundary (R362). -/
def Ctx.stop (c : Ctx) : Ctx :=
  match c.hold with
  | .idle => c
  | _ => { c with hold := .stopped }

/-- Whether an agent is a handler of a tenant's chain on a slice. -/
def isHandlerOf (tenant slice : Nat) : Agent → Bool
  | .handler t sl _ => t == tenant && sl == slice
  | .ctx _ => false

/-- Changes every handler context of a chain. -/
def State.mapHandlers (s : State) (tenant slice : Nat) (f : Ctx → Ctx) : State :=
  let at' := fun (c : Ctx) => if isHandlerOf tenant slice c.agent then f c else c
  { s with ctx := at' s.ctx, others := s.others.map at' }

/-- A chain's fault is reported to the host: the fault record and interrupt fvec (R362, R389). -/
def State.reportChain (s : State) (c : Chain) (tag : Nat) (cause : Cause) (pc addr : Word) (msg : List Byte) : State :=
  let s := { s with out := s.out ++ [Output.chainFault c.slice tag (causeCode cause) pc addr msg] }
  s.interrupt c.tenant c.fvec 2 0 (BitVec.ofNat 64 (c.slice + 65536 * tag))

/-- A message as a fault record holds it: its address, its sender and its bytes (R358, R362; log 90). -/
def messageBytes (m : Message) : List Byte := toBytes 8 m.addr.toNat ++ toBytes 8 m.sender ++ m.payload

/-- A trap of a handler faults its chain: fault record, interrupt fvec, every handler of the chain stops (R362). -/
def State.chainFault (s : State) (tenant slice tag : Nat) (cause : Cause) (pc addr : Word) : State :=
  let p : Pending := { cause := cause, pc := pc, rpc := pc, addr := addr }
  let msg := (((s.getCtx (.handler tenant slice tag)).message).map messageBytes).getD []
  match s.chains.find? fun (c : Chain) => c.tenant == tenant && c.slice == slice with
  | none => s
  | some c =>
    let s := { s with chains := s.chains.map fun (x : Chain) =>
      if x.tenant = tenant && x.slice = slice then { x with faulted := true, fault := some (tag, p) } else x }
    (s.mapHandlers tenant slice Ctx.stop).reportChain c tag cause pc addr msg

/-- The state in which a trap's handler starts (R402, R403), once the records, the level area and the frame are written: the
bank, tstat, the frame registers, and the handler's own configuration; the collecting frames of the level (R239) and its
`fence.sv` (R195) are kept. -/
def Ctx.enterHandler (c : Ctx) (f : TrapFrame) (rs : List Rule) (depth : Nat) : Ctx :=
  { c with
    hvl := c.vl, hvtype := c.vtype, hvstart := c.vstart
    tstat := f.tstat
    tcause := BitVec.ofNat 64 f.cause, tpc := f.pc, telem := BitVec.ofNat 64 f.elem, taddr := f.addr, trule := f.rule
    vl := 0, vtype := BitVec.ofNat 64 Config.trapVtype, vstart := 0, fflags := 0
    wb := BitVec.ofNat 64 ((c.wb.toNat + 512) % 1024)
    strip := {}, cdepth := 0
    rules := (c.rules.filter fun (r : Rule) => r.detached) ++ rs.filter fun (r : Rule) => r.detached
    queue := [], pending := none, hold := .run
    userSlot := if depth = 0 then rs else c.userSlot
    hndSlot := if depth = 0 then c.hndSlot else rs
    userFrames := if depth = 0 then c.frames else c.userFrames
    hndFrames := if depth = 0 then c.hndFrames else c.frames
    userFence := if depth = 0 then c.svFence else c.userFence
    hndFence := if depth = 0 then c.hndFence else c.svFence
    svFence := none
    userImg := if depth = 0 then none else c.userImg
    hndImg := if depth = 0 then c.hndImg else none
    userRtn := if depth = 0 then c.routine else c.userRtn
    hndRtn := if depth = 0 then c.hndRtn else c.routine
    routine := none
    remotes := c.remotesOf ((c.rules ++ rs).filter fun (r : Rule) => r.detached)
    pc := c.tvec }

/-- tstat as a trap leaves it (R399, R402 step 5, R403). -/
def Ctx.trapStat (c : Ctx) (event : Bool) : Word :=
  let depth := depthOf c.tstat
  let keep := if depth = 0 then 0 else withBit (withBit c.tstat 3 (isBankloss c.tstat || !isStacked c.tstat)) 2 (isStacked c.tstat)
  let base := BitVec.ofNat 64 ((if keep.toNat / 4 % 2 = 1 then 4 else 0) + (if keep.toNat / 8 % 2 = 1 then 8 else 0))
  let off := (c.routine.map (·.off)).getD 0
  withDepth (withBit (withBit base 4 c.routine.isSome) 5 event ||| BitVec.ofNat 64 (off % 4096 * 65536)) (depth + 1)

/-- TAKING A TRAP (R402-R404): the records go to the slot of the depth in force, the x registers, masks and level words to its
level area, the configuration to the bank, the frame to memory; the handler starts at tvec, level S. A trap at depth 2, at depth
0 with tvec 0, of cause QUEUEGONE, or whose entry cannot write the state block, is fatal. A handler's trap faults its chain. -/
def State.enterTrap (s : State) (g : Agent) (cause : Cause) (pc rpc : Word) (elem : Nat) (addr rule : Word) (event : Bool) : State :=
  match g with
  | .handler tenant slice tag => s.chainFault tenant slice tag cause pc addr
  | .ctx _ =>
    let c := s.getCtx g
    let depth := depthOf c.tstat
    let f : TrapFrame := { cause := causeCode cause, pc := pc, elem := elem, addr := addr, rule := rule,
                           tstat := c.trapStat event, rpc := rpc }
    let dead : TrapFrame := { f with tstat := c.tstat }
    if depth = 2 ∨ (depth = 0 ∧ c.tvec = 0) ∨ cause = .queuegone then s.fatal g dead
    else
      let rs := c.records
      match (((s.grainsDue g).saveSlot g (if depth = 0 then 0x20000 else 0x30000) rs).bind fun s => s.saveLevel g depth).bind
          fun s => s.saveFrame g (if depth = 0 then 0x6000 else 0x6080) f with
      | none => s.fatal g dead
      | some s => (s.endPark g).mapCtx g fun c => c.enterHandler f rs depth

/-- trule of a scalar instruction (R400). -/
def noRule : Word := 0xFFFFFFFFFFFFFFFF

/-- Whether a context takes traps at all: not one whose task is saved, nor a handler of a chain that has faulted (R362, R417). -/
def Ctx.takesTraps (c : Ctx) : Bool :=
  match c.hold with
  | .saved _ _ | .barrier _ _ true | .stopped => false
  | _ => true

/-- Whether a remote access belongs to a wait that goes on, which reads again after a trap (R343, R396). -/
def Ctx.waitsBy (c : Ctx) (r : Remote) : Bool :=
  match c.hold with
  | .memory _ _ _ _ => r.key == c.instrPc
  | _ => false

/-- Whether every element that has begun is complete: the stores are performed, and no access has left the module and is still to be
used (R396 step 5). -/
def State.begunDone (s : State) (g : Agent) : Bool :=
  let c := s.getCtx g
  s.storesDone g && c.remotes.all fun r => !r.begun || c.waitsBy r

/-- Whether a `spool` with a faulting bag still has a bag that completes or faults in its turn (R319): `eng.acks` are its faulting bags. -/
def Rule.poolsOn (r : Rule) : Bool :=
  match r.instr with
  | .spool _ _ _ => decide (2 ≤ r.eng.phase) && (List.range r.vl).any fun e =>
      !r.done.getLsbD e && !r.eng.acks.contains (e / max 1 ((r.eng.header[7]?).getD 0))
  | _ => false

/-- A context whose routine goes on behind the word that raised the cause (R409, R416). -/
def Ctx.pastWord (c : Ctx) : Ctx := { c with routine := c.routine.map fun (r : Routine) => { r with off := r.off + 1 } }

/-- The trap that a context has to take is taken once everything older is done and every begun element complete (R396 step 5): the
oldest faulting rule stands first in the window, or, for a scalar fault, nothing stands any more. -/
def State.takeTrap (s : State) (g : Agent) : State :=
  let c := s.getCtx g
  if c.takesTraps = false then s else
  match c.rules.filter fun r => !r.detached with
  | r :: _ =>
    match r.fault with
    | some (cause, elem, addr) => if s.begunDone g && !r.poolsOn then s.enterTrap g cause r.pc c.instrPc elem addr 0 false else s
    | none => s
  | [] =>
    match c.pending with
    | some p =>
      if c.queue.isEmpty && s.begunDone g then
        (if p.next then s.mapCtx g Ctx.pastWord else s).enterTrap g p.cause p.pc p.rpc p.elem p.addr noRule p.event
      else s
    | none => s

/-- A cause stops the front end, and its trap is taken at once when nothing older stands. -/
def State.raisePending (s : State) (p : Pending) : State :=
  ({ s with ctx := { s.ctx with pending := some p, hold := .stall } } : State).takeTrap s.ctx.agent

/-- A scalar instruction meets a cause: the front end stops there, and the trap is taken at once when nothing older stands
(R396 step 4). `rpc` is where fetch resumes. -/
def State.raiseAt (s : State) (cause : Cause) (rpc : Word) (elem : Nat) (addr : Word) (event : Bool) : State :=
  s.raisePending { cause := cause, pc := s.ctx.instrPc, rpc := rpc, elem := elem, addr := addr, event := event }

/-- A scalar instruction, or the issue of one, meets a cause; it executes again after `rtr` (R48, R396). -/
def State.raise (s : State) (cause : Cause) (addr : Word) : State := s.raiseAt cause s.ctx.instrPc 0 addr false

/-- The outcome of a meaning that meets a cause. -/
abbrev trap (cause : Cause) (addr : Word) (s : State) : Result := .next (s.raise cause addr)

/-! ## Returning from a trap -/

/-- Whether an instruction passes the vector queue without a rule entry (R402). -/
def isQueueOnly : Instr → Bool
  | .cwany _ _ | .cwall _ | .cffr _ _ | .ctclr _ | .fenceVs => true
  | _ => false

/-- Installs the records of a slot (R411) with the grant of the spans `held`: a detached `coll` is the rule that went on, or, when that
has completed, is done (R418); those of other levels go on. The records before the first queue-only word, at most 64, stand
again with fresh interlock entries; the rest wait in the vector queue. A `fence.sv` older than the trap covers them all (R195). -/
def Ctx.install (c : Ctx) (held : List Nat) (rs : List Rule) : Ctx :=
  let rs := rs.map fun (r : Rule) =>
    let r := { r with spans := spansFor held r.strip, lanes := 16 * held.length }
    if r.detached then
      match c.rules.find? fun x => x.seq == r.seq with
      | some x => { x with detached := false }
      | none => { r with detached := false, done := r.done ||| 1 }
    else r
  let n := min Config.windowEntries ((rs.takeWhile fun r => !isQueueOnly r.instr && r.issued).length)
  let others := c.rules.filter fun x => x.detached && !rs.any fun r => r.seq == x.seq
  { c with rules := others ++ rs.take n, queue := rs.drop n, svFence := c.svFence.map fun _ => c.seq }

/-- An installed `mvw` issues again: it meets ILLCFG where the buffer of its core no longer fits it (R306, R411, R418). -/
def State.refit (s : State) (g : Agent) : State :=
  s.mapCtx g fun c => { c with rules := c.rules.map fun (r : Rule) => match r.instr with
    | .mvw _ _ b _ _ => if s.weightsFit g b.val r.mtype r.opA then r else { r with fault := some (.illcfg, 0, 0) }
    | _ => r }

/-- The return proper (R411): x registers, masks and level words of the level below, configuration from the bank, the frame
registers of that depth, the records of the slot, and the pc of the frame or the position in the routine. -/
def Ctx.leaveHandler (c : Ctx) (held : List Nat) (area frame outerFrame : List Byte) : Ctx :=
  let depth := depthOf c.tstat
  let w := fun (bs : List Byte) o => BitVec.ofNat 64 (ofBytes ((bs.drop o).take 8))
  let fstat := w frame 40
  let vt := c.hvtype
  let c1 := { c with frames := if depth = 1 then c.userFrames else c.hndFrames }.loadLevel area
  let c2 := { c1 with
    vtype := vt, vl := BitVec.ofNat 64 (min c.hvl.toNat (vlmax vt)), vstart := c.hvstart
    tstat := withDepth c.tstat (depth - 1)
    userSlot := if depth = 1 then [] else c.userSlot
    hndSlot := if depth = 1 then c.hndSlot else []
    userImg := if depth = 1 then none else c.userImg
    hndImg := if depth = 1 then c.hndImg else none
    svFence := if depth = 1 then c.userFence else c.hndFence
    hold := .run, remotes := c.remotesOf (c.rules.filter fun (r : Rule) => r.detached)
    pc := w frame 48
    routine :=
      if bitOf fstat.toNat 4 = 1 then
        (if depth = 1 then c.userRtn else c.hndRtn).map fun (r : Routine) => { r with off := fstat.toNat / 2 ^ 16 % 4096 }
      else none }
  let c3 := if depth = 2 then { c2 with
      tcause := w outerFrame 0, tpc := w outerFrame 8, telem := w outerFrame 16, taddr := w outerFrame 24,
      trule := w outerFrame 32 } else c2
  (c3.install held (if depth = 1 then c.userSlot else c.hndSlot)).endClaims

/-- RETURNING FROM A TRAP (R411), after every rule of the depth has retired and its stores are performed: the stacked bank is reloaded, a lost bank is fatal,
and the level below comes back. -/
def State.returnFromTrap (s : State) : State :=
  let c := s.ctx
  let g := c.agent
  let depth := depthOf c.tstat
  let go := fun s : State =>
    let c := s.ctx
    if depth = 1 && isBankloss c.tstat && !s.storesDone g then s.stall
    else if depth = 1 && isBankloss c.tstat then
      match s.blockLoad g 0x6080 128 with
      | some fr =>
        let w := fun o => BitVec.ofNat 64 (ofBytes ((fr.drop o).take 8))
        s.fatal g { cause := (w 0).toNat, pc := w 8, elem := (w 16).toNat, addr := w 24, rule := w 32, tstat := c.tstat, rpc := w 48 }
      | none => s.fatal g { cause := 0, pc := c.pc, elem := 0, addr := 0, rule := noRule, tstat := c.tstat, rpc := c.pc }
    else
      match s.blockLoad g (0x2000 * (depth - 1)) 0x1880, s.blockLoad g (if depth = 1 then 0x6000 else 0x6080) 128,
            s.blockLoad g 0x6000 128 with
      | some area, some frame, some outerFrame =>
        ({ s with ctx := c.leaveHandler (s.spanList g) area frame outerFrame } : State).refit g
      | _, _, _ => s.fatal g { cause := causeCode .loadfault, pc := c.pc, elem := 0, addr := c.ctximg, rule := noRule,
                               tstat := c.tstat, rpc := c.pc }
  if depth = 1 && isStacked c.tstat then
    match s.loadAt { g := g, scope := 0, user := false, key := c.pc, elem := 0 } c.stkaddr 8 [],
          s.loadAt { g := g, scope := 0, user := false, key := c.pc, elem := 1 } (c.stkaddr + 8) 8 [],
          s.loadAt { g := g, scope := 0, user := false, key := c.pc, elem := 2 } (c.stkaddr + 16) 8 [] with
    | .ok a _, .ok b _, .ok d _ =>
      let vt := BitVec.ofNat 64 (ofBytes b)
      if vtypeOk vt = false then s.raise .illcfg 0 else
      go { s with ctx := { c with hvl := BitVec.ofNat 64 (ofBytes a), hvtype := vt, hvstart := BitVec.ofNat 64 (ofBytes d),
                                  tstat := withBit (withBit c.tstat 2 false) 3 false } }
    | .fault f _, _, _ => s.raise f c.stkaddr
    | _, .fault f _, _ => s.raise f (c.stkaddr + 8)
    | _, _, .fault f _ => s.raise f (c.stkaddr + 16)
    | _, _, _ => s.stall
  else go s

/-! ## Pre-emption and resumption -/

/-- A handle table entry of the state block (R398). -/
def Handle.fields (h : Handle) (o : Nat) : List (Nat × Nat × Nat) :=
  [(o, 1, match h.state with
      | .free => 0
      | .opened => 1
      | .sealed => 2), (o + 1, 1, h.segs.length)] ++
  (h.segs.zipIdx.flatMap fun (g, i) =>
    let p := o + 8 + 0xA0 * i
    [(p, 8, g.base.toNat), (p + 8, 8, g.capacity.toNat), (p + 16, 8, g.used.toNat), (p + 24, 8, g.steps.length)] ++
    (g.steps.zipIdx.flatMap fun (t, j) =>
      let u := p + 32 + 32 * j
      [(u, 8, if t.rebase then 2 else 1), (u + 8, 8, t.lo.toNat), (u + 16, 8, t.hi.toNat), (u + 24, 8, t.delta.toNat)]))

/-- The layouts, task words, collecting frames, handle table and filter of the state block (R398). -/
def Ctx.taskFields (c : Ctx) (parked yielded : Bool) : List (Nat × Nat × Nat) :=
  layoutFields 0x6100 c.srcLayout c.dstLayout ++
  [(0x6160, 8, (if c.srcLayout.isEmpty then 0 else 1) + (if c.dstLayout.isEmpty then 0 else 2) + 16 * c.srcLayout.length +
      256 * c.dstLayout.length),
   (0x6200, 8, c.ctb.toNat), (0x6208, 8, c.tvec.toNat), (0x6210, 8, c.stkaddr.toNat), (0x6218, 8, c.hvl.toNat),
   (0x6220, 8, c.hvtype.toNat), (0x6228, 8, c.hvstart.toNat), (0x6230, 8, c.tstat.toNat),
   (0x6238, 8, (if parked then 1 else 0) + if yielded then 2 else 0), (0x6240, 8, c.want)] ++
  (c.frames.toList.zipIdx.flatMap fun (f, i) => [(0x6400 + 16 * i, 8, f.handle), (0x6408 + 16 * i, 8, f.d.val)]) ++
  (c.handles.toList.zipIdx.flatMap fun (h, i) => h.fields (0x7000 + 0x600 * i)) ++
  [(0xD000, 4096, c.filter.toNat)]

/-- The cells of a physical tile: row-major, accumulator and partial word in one number (R398). -/
def Core.tileCells (c : Core) (tile : Nat) : List (Nat × Nat) :=
  (c.cells.filter fun e => e.1 / 16384 == tile).map fun e => (e.1 % 16384, e.2)

/-- Whether a claimed tile of a context has a cell with an error that could not be corrected (R421). -/
def State.tilesLost (s : State) (g : Agent) : Bool :=
  let c := s.getCtx g
  s.lostUnits.any fun u => match u with
    | .cell k x => decide (some k = coreOf g) && (List.range 4).any fun t =>
        bitOf c.claims t == 1 && (c.tileMap.toList[t]?).getD none == some (x / 16384)
    | _ => false

/-- Writes the claimed tiles of a context to its tile area and frees them (R417 step 4). -/
def State.saveTiles (s : State) (g : Agent) : Option State :=
  match g with
  | .handler _ _ _ => some s
  | .ctx id =>
    let c := s.getCtx g
    let k := s.core (id / 8)
    ((List.range 4).foldl (fun (acc : Option State) t =>
      acc.bind fun s =>
        match (c.tileMap.toList[t]?).getD none with
        | some ph =>
          if bitOf c.claims t = 0 then some s else
          let half := fun h : Nat => fieldCells (((k.tileCells ph).filter fun e => e.1 / 8192 == h).map fun e => (8 * (e.1 % 8192), 8, e.2))
          (s.blockStore g (0x40000 + 0x20000 * t) 0x10000 (half 0)).bind fun s =>
            s.blockStore g (0x50000 + 0x20000 * t) 0x10000 (half 1)
        | none => some s) (some s)).map fun s =>
      (s.freeTiles g).mapCore (id / 8) fun k => { k with cells := k.cells.filter fun e =>
        !(c.tileMap.toList.contains (some (e.1 / 16384))) }

/-- A context as a pre-emption saves it: its want is the one that it had when it parked, else the one that stands (R340), and grains that are due have
become present. -/
def State.asSaved (s : State) (g : Agent) : State :=
  let c := s.getCtx g
  (s.grainsDue g).mapCtx g fun x => { x with want :=
    match g, c.hold with
    | .ctx _, .park _ _ => c.want
    | .ctx id, _ => (s.core (id / 8)).wants (id % 8)
    | .handler _ _ _, _ => c.want }

/-- Whether a context stands in a park. -/
def Ctx.isParked (c : Ctx) : Bool :=
  match c.hold with
  | .park _ _ => true
  | _ => false

/-- What a pre-emption writes to the image of a context (R398, R401, R417): the records to the pre-emption slot, the slots in use of the
handlers' levels, the level's registers with vl, vtype and vstart, the task words and the collecting state to the state block, tiles
to the tile area. None where an access fails. -/
def State.saveBlock (s : State) (g : Agent) (yielded : Bool) : Option State :=
  let c := s.getCtx g
  let depth := depthOf c.tstat
  let fields := fieldCells (c.taskFields c.isParked yielded)
  let part := fun lo hi => (fields.filter fun (e : Host.Cell) => decide (lo ≤ e.1) && decide (e.1 < hi)).map fun e => (e.1 - lo, e.2)
  ((((((((s.saveSlot g 0x10000 c.records).bind fun s => if depth = 0 then some s else s.saveKept g 0x20000 c.userImg c.userSlot).bind
    fun s => if depth = 2 then s.saveKept g 0x30000 c.hndImg c.hndSlot else some s).bind
    fun s => s.saveLevel g depth).bind fun s => s.saveVl g depth).bind
    fun s => s.blockStore g 0x6100 0xF00 (part 0x6100 0x7000)).bind
    fun s => s.blockStore g 0x7000 0x9000 (part 0x7000 0x10000)).bind fun s => s.saveTiles g)

/-- A pre-emption saves a context at a word boundary (R417): a claimed tile with a lost cell is fatal (R422, log 71), and so is a fault on the
way to its image (R404). Its copies stop as their rules stand, and its spans go. -/
def State.saveContext (s : State) (g : Agent) (yielded : Bool) : State :=
  let s := s.asSaved g
  let c := s.getCtx g
  let rs := c.records
  if s.tilesLost g then
    s.fatal g { cause := causeCode .dataloss, pc := c.instrPc, elem := 0, addr := 0, rule := noRule, tstat := c.tstat, rpc := c.instrPc }
  else match s.saveBlock g yielded with
  | none => s.fatal g { cause := causeCode .storefault, pc := c.instrPc, elem := 0, addr := c.ctximg, rule := noRule,
                        tstat := c.tstat, rpc := c.instrPc }
  | some s =>
    let s := s.mapCtx g fun c =>
      let c := { c with preSlot := rs, rules := (c.rules.filter fun (r : Rule) => r.detached) ++ rs.filter fun (r : Rule) => r.detached, queue := [], pending := none,
                        remotes := c.remotesOf ((c.rules ++ rs).filter fun (r : Rule) => r.detached), yieldBy := none }
      match c.hold with
      | .barrier sc id _ => { c with hold := .barrier sc id true }
      | _ => { c with hold := .saved yielded c.isParked }
    s.renegotiateEnd g

/-- Physical tiles of a core that no task holds. -/
def Core.freeTiles (c : Core) : List Nat := (List.range 4).filter fun i => (c.tileOwner.toList[i]?).getD none == none

/-- Maps the tile names of a mask to free physical tiles, lowest first (R292). -/
def mapTiles (mask : Nat) (free : List Nat) : List (Option Nat) :=
  ((List.range 4).foldl (fun (acc : List (Option Nat) × List Nat) t =>
    if bitOf mask t = 1 then (acc.1 ++ [acc.2.head?], acc.2.tail) else (acc.1 ++ [none], acc.2)) ([], free)).1

/-- Gives a context's tile names physical tiles of its core (R292, R334). -/
def State.takeTiles (s : State) (id mask : Nat) : State :=
  let map := mapTiles mask (s.core (id / 8)).freeTiles
  let s := s.mapCtx (.ctx id) fun c => { c with tileMap := (Vector.range 4).map fun i => (map[i]?).getD none }
  s.mapCore (id / 8) fun c =>
    let own := (Vector.range 4).map fun i => if map.contains (some i) then some id else (c.tileOwner.toList[i]?).getD none
    { c with tileOwner := own }

/-- Reads the claimed tiles of a context back (R417): none where an access to the tile area fails (R404). -/
def State.loadTiles (s : State) (id : Nat) : Option State :=
  let g := Agent.ctx id
  let c := s.getCtx g
  (List.range 4).foldl (fun (acc : Option State) t =>
    acc.bind fun s =>
    match (c.tileMap.toList[t]?).getD none with
    | some ph =>
      if bitOf c.claims t = 0 then some s else
      match s.blockLoad g (0x40000 + 0x20000 * t) 0x10000, s.blockLoad g (0x50000 + 0x20000 * t) 0x10000 with
      | some a, some b =>
        let cells := (List.range 16384).filterMap fun i =>
          let w := ofBytes (((if i < 8192 then a else b).drop (8 * (i % 8192))).take 8)
          if w = 0 then none else some (16384 * ph + i, w)
        let s := { s with lostUnits := s.lostUnits.filter fun u => match u with
            | .cell k x => decide (k ≠ id / 8) || x / 16384 != ph
            | _ => true }
        some (s.mapCore (id / 8) fun k => { k with cells := cells ++ k.cells.filter fun e => e.1 / 16384 != ph })
      | _, _ => none
    | none => some s) (some s)

/-- Resumption (R417): the context renegotiates with its kept want, its level comes back from its area, its tiles from the tile
area, and the pre-emption slot is installed. -/
def State.resumeContext (s : State) (id tiles : Nat) : State :=
  let g := Agent.ctx id
  let c := s.getCtx g
  let depth := depthOf c.tstat
  let s := s.renegotiate g c.want
  match s.blockLoad g (0x2000 * depth) 0x1880 with
  | none => s.fatal g { cause := causeCode .loadfault, pc := c.pc, elem := 0, addr := c.ctximg, rule := noRule, tstat := c.tstat,
                        rpc := c.pc }
  | some bs =>
    let w := fun o => BitVec.ofNat 64 (ofBytes ((bs.drop o).take 8))
    let s := s.mapCtx g fun c =>
      let vt := if vtypeOk (w 0x410) then w 0x410 else c.vtype
      let r := c.routine
      let l := { c.loadLevel bs with vtype := vt, vl := BitVec.ofNat 64 (min (w 0x408).toNat (vlmax vt)), vstart := w 0x418 }
      let l := { l with routine := r, preSlot := [] }
      let held := match c.hold with
        | .barrier sc id _ => Hold.barrier sc id false
        | _ => Hold.run
      { l with hold := held }.install (s.spanList g) c.preSlot
    match (s.takeTiles id tiles).loadTiles id with
    | some s => s.refit g
    | none => s.fatal g { cause := causeCode .loadfault, pc := c.pc, elem := 0, addr := c.ctximg, rule := noRule, tstat := c.tstat,
                          rpc := c.pc }

end Sys2Proof.Machine
end

