-- ==== Sys2Proof/Machine/Records.lean ====
section
/-! DEFINITION. Records of effect lists (09_effects.md R228-R234, R236, R432): reserving slots, writing records, reading one's
own writes, and the pieces that a segment's chain keeps. -/

namespace Sys2Proof.Machine

/-- Bytes of the slot of an element of `n` bytes (R230). -/
def slotSize (n : Nat) : Nat := 16 + 16 * ceilDiv n 16

/-- The 57-bit address of a header, widened (R229). -/
def headerAddr (w : Nat) : Word := (BitVec.ofNat 57 w).signExtend 64

/-- The bytes of a record, padded (R229). -/
def recordBytes (addr : Word) (data : List Byte) : List Byte :=
  toBytes 8 (addr.toNat % 2 ^ 57) ++ toBytes 2 data.length ++ List.replicate 6 0 ++ data ++
  List.replicate (16 * ceilDiv data.length 16 - data.length) 0

/-- The filter bit of a line (R234). -/
def filterBit (va : Word) : Nat :=
  let a := va.toNat / 128 % 2 ^ 50
  Nat.xor (Nat.xor (a % 2 ^ 15) (a / 2 ^ 15 % 2 ^ 15)) (Nat.xor (a / 2 ^ 30 % 2 ^ 15) (a / 2 ^ 45 % 2 ^ 5))

/-- The lines that `n` bytes from an address touch, by their first addresses. -/
def linesOf (va : Word) (n : Nat) : List Word :=
  if n = 0 then [] else
  (List.range ((va.toNat % 128 + n - 1) / 128 + 1)).map fun i => BitVec.ofNat 64 ((va.toNat / 128 + i) * 128)

/-- Sets the filter bits of the lines a record touches (R234). -/
def Ctx.markFilter (c : Ctx) (va : Word) (n : Nat) : Ctx :=
  { c with filter := (linesOf va n).foldl (fun f l => f ||| BitVec.twoPow 32768 (filterBit l)) c.filter }

/-- The handle of a frame depth, 1 and up (R221). -/
def Ctx.frameHandle (c : Ctx) (depth : Nat) : Nat := ((c.frames.toList[depth - 1]?).map (·.handle)).getD 0

/-- A handle of the table. -/
def Ctx.handle (c : Ctx) (h : Nat) : Handle := (c.handles.toList[h]?).getD {}

/-- A handle of the table, replaced. -/
def Ctx.setHandle (c : Ctx) (h : Nat) (v : Handle) : Ctx := { c with handles := c.handles.setIfInBounds h v }

/-- The handle that collects at the current depth (R221). -/
def Ctx.activeHandle (c : Ctx) : Nat := c.frameHandle c.cdepth

/-- Reserves `n` bytes in the last segment of a handle: the slot's address, or none where it does not fit (R230, R231). -/
def Ctx.reserve (c : Ctx) (h n : Nat) : Option (Word × Ctx) :=
  let k := c.handle h
  match k.segs.getLast? with
  | none => none
  | some g =>
    if g.used.toNat + n ≤ g.capacity.toNat then
      let g' := { g with used := g.used + BitVec.ofNat 64 n }
      some (g.base + g.used, c.setHandle h { k with segs := k.segs.dropLast ++ [g'] })
    else none

/-- An access of a context's own instruction at lane scope, as the stores into a region are (R223). -/
def Ctx.laneAcc (c : Ctx) (key : Word) (e : Nat) : Acc := { g := c.agent, scope := 0, user := c.user, key := key, elem := e }

/-- Writes a record into its slot and sets its filter bits (R228, R234). -/
def State.writeRecord (s : State) (g : Agent) (key : Word) (e : Nat) (slot target : Word) (data : List Byte) :
    Except (Cause × Word) Bool × State :=
  match s.writeSpan ((s.getCtx g).laneAcc key e) slot 4 (recordBytes target data) with
  | (.ok true, s) => (.ok true, s.mapCtx g fun c => c.markFilter target data.length)
  | r => r

/-- A record read back: where it lies, its target, its data, and whether its header is legal (R229). -/
structure Rec where
  place : Word
  addr  : Word
  data  : List Byte
  legal : Bool
  deriving DecidableEq, Repr

/-- What reading a context's own memory comes to: a value, none while an owning device has still to answer, or the fault and where it was
met. -/
abbrev Seen (α : Type) := Except (Cause × Word) (Option α) × State

/-- What follows a value that is there. -/
def Seen.andThen {α β : Type} (r : Seen α) (f : α → State → Seen β) : Seen β :=
  match r with
  | (.ok (some a), s) => f a s
  | (.ok none, s) => (.ok none, s)
  | (.error e, s) => (.error e, s)

/-- Bytes of a context's region, read as its own loads at lane scope read them; those on a remote page come from its owning device
(R163, R223). -/
def State.scan (s : State) (q : Acc) (va : Word) : Nat → Nat → Seen (List Byte)
  | 0, _ => (.ok (some []), s)
  | fuel + 1, n =>
    if n = 0 then (.ok (some []), s) else
    let here := min n (128 - va.toNat % 128)
    let got : Seen (List Byte) :=
      match s.loadAt { q with scope := 0, scalar := false, elem := q.elem + 2 ^ 19 } va here [] with
      | .ok bs s => (.ok (some bs), s)
      | .wait s => (.ok none, s)
      | .fault c s => (.error (c, va), s)
    got.andThen fun bs s => (State.scan s q (va + BitVec.ofNat 64 here) fuel (n - here)).andThen fun rest s => (.ok (some (bs ++ rest)), s)

/-- Whether an instruction is a vector store, which collecting mode records (R227). -/
def isRecording : Instr → Bool
  | .vst _ _ _ _ | .vsts _ _ _ _ _ | .vstx _ _ _ _ _ | .vstxo _ _ _ _ _ => true
  | _ => false

/-- The slot of element e of a recording store (R432): from the slot origin `opD`, or from that of a later reservation, which
`eng.xfers` lists. -/
def Rule.slotAddr (r : Rule) (e : Nat) : Word :=
  originFrom e r.eng.xfers r.opD + BitVec.ofNat 64 (e * slotSize (bytesOf r.vtype))

/-- A recording store reserves slots for its elements from `r` upward, as many as fit in the last segment of its handle (R230,
R231). -/
def Ctx.reserveSlots (c : Ctx) (r : Rule) : Ctx × Rule :=
  let k := c.handle r.chandle
  let size := slotSize (bytesOf r.vtype)
  match k.segs.getLast? with
  | none => (c, r)
  | some g =>
    let n := min (r.vl - r.r) ((g.capacity.toNat - g.used.toNat) / size)
    let origin := g.base + g.used - BitVec.ofNat 64 (r.r * size)
    if n = 0 then (c, r) else
    (c.setHandle r.chandle { k with segs := k.segs.dropLast ++ [{ g with used := g.used + BitVec.ofNat 64 (n * size) }] },
     { (if r.r = r.vstart then { r with opD := origin }
        else { r with eng := { r.eng with xfers := r.eng.xfers ++ [r.r, origin.toNat] } }) with r := r.r + n })

/-- Whether a handle already failed to give an older element its slot, so that nothing younger reserves in it (R231). -/
def Ctx.shortOf (c : Ctx) (h : Nat) : Bool :=
  (c.rules ++ c.queue).any fun r => decide (0 < r.cdepth) && r.chandle == h && isRecording r.instr && decide (r.r < r.vl)

/-- Whether an older `elapply` still appends to a handle, so that nothing younger may reserve in it (R230, R238). -/
def Ctx.appending (c : Ctx) (h : Nat) : Bool :=
  (c.rules ++ c.queue).any fun r => decide (0 < r.cdepth) && r.chandle == h && match r.instr with
    | .elapply _ => true
    | _ => false

/-- The lists as they stand at a depth, each with its handle, the innermost first: what is older than an instruction that issues now
(R233). -/
def Ctx.listsAt (c : Ctx) (depth : Nat) : List (Nat × List Segment) :=
  (List.range depth).map fun i =>
    let h := c.frameHandle (depth - i)
    (h, (c.handle h).segs)

/-- The lists as they stand for an instruction that issues now. -/
def Ctx.lists (c : Ctx) : List (Nat × List Segment) := c.listsAt c.cdepth

/-- The lists in the words of a rule: handles and numbers of segments, and the segments. -/
def packLists (ls : List (Nat × List Segment)) : Engine :=
  { header := ls.flatMap fun x => [x.1, x.2.length], segs := ls.flatMap (·.2) }

/-- The lists that the words of a rule hold. -/
def unpackLists : List Nat → List Segment → List (Nat × List Segment)
  | h :: n :: t, segs => (h, segs.take n) :: unpackLists t (segs.drop n)
  | _, _ => []

/-- Whether an instruction is a vector-stream load that consults records in collecting mode (R227). -/
def consults : Instr → Bool
  | .vld _ _ _ _ | .vldff _ _ _ _ | .vlds _ _ _ _ _ | .vldx _ _ _ _ _ | .vldxo _ _ _ _ _ | .mopm _ _ _ _ _ | .mwl _ _ _ => true
  | _ => false

/-- Whether a load consults the records of a region that meets `n` bytes from an address on (R233). -/
def Rule.consultsRegion (r : Rule) (base n : Nat) : Bool :=
  decide (0 < r.cdepth) && consults r.instr && r.eng.segs.any fun g => decide (base < g.base.toNat + g.capacity.toNat) && decide (g.base.toNat < base + n)

/-- Reinstalled recording stores reserve again, in order, for their elements without a slot (R231); a load behind them consults the lists
with what they reserved (R233). -/
def Ctx.reserveAgain (c : Ctx) : Ctx :=
  let go := fun (p : Ctx × List Rule) (r : Rule) =>
    if decide (0 < r.cdepth) && consults r.instr then
      let ls := (unpackLists r.eng.header r.eng.segs).map fun x =>
        if p.1.handle x.1 = c.handle x.1 then x else (x.1, (p.1.handle x.1).segs)
      (p.1, p.2 ++ [{ r with eng := { r.eng with header := (packLists ls).header, segs := (packLists ls).segs } }])
    else if decide (0 < r.cdepth) && isRecording r.instr && decide (r.r < r.vl) && !(p.2.any fun x =>
        decide (0 < x.cdepth) && x.chandle == r.chandle && isRecording x.instr && decide (x.r < x.vl)) then
      let q := p.1.reserveSlots r
      (q.1, p.2 ++ [q.2])
    else (p.1, p.2 ++ [r])
  let p := (c.rules ++ c.queue).foldl go (c, [])
  { p.1 with rules := p.2.take c.rules.length, queue := p.2.drop c.rules.length }

/-- Slots that standing and queued rules have reserved and not yet written: their first address and size. -/
def Ctx.unwritten (c : Ctx) : List (Word × Nat) :=
  (c.rules ++ c.queue).flatMap fun r =>
    if r.cdepth = 0 || !isRecording r.instr then [] else
    (span r.vstart r.r).filterMap fun e =>
      if r.done.getLsbD e then none else some (r.slotAddr e, slotSize (bytesOf r.vtype))

/-- The record at an address: its total size, and the record, or the fault met. -/
def State.recordAt (s : State) (q : Acc) (va : Word) : Seen (Nat × Rec) :=
  (s.scan q va 2 16).andThen fun h s =>
    let lo := ofBytes (h.take 8)
    let len := ofBytes ((h.drop 8).take 2)
    let ok := lo / 2 ^ 57 == 0 && decide (len ≤ 128) && ofBytes (h.drop 10) == 0
    if ok = false then (.ok (some (16, { place := va, addr := headerAddr lo, data := [], legal := false })), s)
    else (s.scan q (va + 16) 3 len).andThen fun d s =>
      (.ok (some (16 + 16 * ceilDiv len 16, { place := va, addr := headerAddr lo, data := d, legal := true })), s)

/-- The records of some memory in order, and the fault that ended their reading, if any. -/
abbrev RecList := List Rec × Option (Cause × Word)

/-- The records of a region from an address to its end, slots not yet written left out. A fault ends the walk. -/
def State.recordsFrom (s : State) (q : Acc) (unwritten : List (Word × Nat)) (va : Word) : Nat → Nat → Seen RecList
  | 0, _ => (.ok (some ([], none)), s)
  | fuel + 1, left =>
    if left = 0 then (.ok (some ([], none)), s) else
    match unwritten.find? fun u => u.1 == va with
    | some u => State.recordsFrom s q unwritten (va + BitVec.ofNat 64 u.2) fuel (left - u.2)
    | none =>
      match s.recordAt q va with
      | (.error e, s) => (.ok (some ([], some e)), s)
      | (.ok none, s) => (.ok none, s)
      | (.ok (some (n, r)), s) => (State.recordsFrom s q unwritten (va + BitVec.ofNat 64 n) fuel (left - n)).andThen fun rest s =>
          (.ok (some (r :: rest.1, rest.2)), s)

/-- The records of a segment in region order, the slots of `unwritten` left out. -/
def State.segmentRecords (s : State) (q : Acc) (unwritten : List (Word × Nat)) (seg : Segment) : Seen RecList :=
  s.recordsFrom q unwritten seg.base (seg.used.toNat / 16 + 1) seg.used.toNat

/-- The records of some segments in order; those behind a fault are not seen. -/
def State.listRecords (s : State) (q : Acc) (unwritten : List (Word × Nat)) : List Segment → Seen (List Rec)
  | [] => (.ok (some []), s)
  | x :: xs => (s.segmentRecords q unwritten x).andThen fun rs s =>
      (State.listRecords s q unwritten xs).andThen fun rest s => (.ok (some (rs.1 ++ rest)), s)

/-- The byte that the youngest record covering an address gives. -/
def recordByte (va : Word) (rs : List Rec) : Option Byte :=
  rs.reverse.findSome? fun r =>
    let o := (va - r.addr).toNat
    if o < r.data.length then r.data[o]? else none

/-- What a load that consults records takes from them: the list of the current depth first, then each enclosing one (R233). The
filter only saves a search that finds nothing (R234), so no value depends on it. -/
def State.ownBytes (s : State) (q : Acc) (va : Word) (n : Nat) : List (Nat × List Segment) → Seen (List (Option Byte))
  | [] => (.ok (some []), s)
  | m :: ms =>
    (s.listRecords q (s.getCtx q.g).unwritten m.2).andThen fun rs s =>
      (State.ownBytes s q va n ms).andThen fun outer s =>
        (.ok (some ((List.range n).map fun i => (recordByte (va + BitVec.ofNat 64 i) rs).or ((outer[i]?).getD none))), s)

/-- A load that consults the records of its context's lists, as `ms` gives them, then memory (R227, R233). -/
def State.loadOwn (s : State) (q : Acc) (ms : List (Nat × List Segment)) (va : Word) (n : Nat) : Got (List Byte) :=
  match s.ownBytes { q with scope := 0, scalar := false } va n ms with
  | (.error (c, _), s) => .fault c s
  | (.ok none, s) => .wait s
  | (.ok (some own), s) => s.loadAt q va n own

/-! ## Chains -/

/-- What one step makes of one byte's address: none where the byte is dropped (R236). -/
def ChainStep.apply (t : ChainStep) (va : Word) : Option Word :=
  let inside := decide (t.lo.toNat ≤ va.toNat) && decide (va.toNat < t.hi.toNat)
  if t.rebase then some (if inside then va + t.delta else va) else if inside then some va else none

/-- What a chain makes of one byte's address. -/
def applyChain : List ChainStep → Word → Option Word
  | [], va => some va
  | t :: ts, va => (t.apply va).bind (applyChain ts)

/-- A byte joins the piece that ends right before it, else begins a piece of its own: bytes that a chain takes apart and together again make
one piece (DESIGN CHOICE, log 91: R236 speaks of up to three pieces and not of a net shift of 0). -/
def joinPiece (va : Word) (b : Byte) : List (Word × List Byte) → List (Word × List Byte)
  | [] => [(va, [b])]
  | [(a, bs)] => if a + BitVec.ofNat 64 bs.length = va then [(a, bs ++ [b])] else [(a, bs), (va, [b])]
  | p :: ps => p :: joinPiece va b ps

/-- The pieces that a chain keeps of a record, in their order (R236). -/
def Rec.pieces (r : Rec) (chain : List ChainStep) : List (Word × List Byte) :=
  (r.data.zipIdx).foldl (fun acc (b, i) =>
    match applyChain chain (r.addr + BitVec.ofNat 64 i) with
    | some va => joinPiece va b acc
    | none => acc) []

end Sys2Proof.Machine
end

