-- ==== Sys2Proof/Machine/Scalar.lean ====
section
/-! DEFINITION. The scalar instructions that touch no memory (11_scalar.md R259-R267): register and immediate operations, the
lim pair (02_encoding.md R31, R32), pcrel, branches and jumps. -/

namespace Sys2Proof.Machine

/-- X[d] takes a value and the word is done (R259). -/
def writeResult (d : Reg) (v : Word) (s : State) : Result := done (s.setX d v).advance

/-- 1 where a condition holds, else 0. -/
def boolWord (b : Bool) : Word := if b then 1 else 0

/-- The shift amount: bits 5:0 (R261). -/
def amountOf (b : Word) : Nat := b.toNat % 64

/-- Bits 127:64 of a signed product (R261). -/
def mulHigh (a b : Word) : Word := BitVec.ofInt 64 (a.toInt * b.toInt / 2 ^ 64)
/-- Bits 127:64 of an unsigned product (R261). -/
def mulHighN (a b : Word) : Word := BitVec.ofNat 64 (a.toNat * b.toNat / 2 ^ 64)
/-- The signed quotient of R243: all ones for a zero divisor, truncated, wrapping for the most negative value by -1. -/
def quotient (a b : Word) : Word := if b = 0 then BitVec.allOnes 64 else a.sdiv b
/-- The unsigned quotient of R243. -/
def quotientN (a b : Word) : Word := if b = 0 then BitVec.allOnes 64 else a / b
/-- The signed remainder of R243: the dividend for a zero divisor. -/
def remainder (a b : Word) : Word := if b = 0 then a else a.srem b
/-- The unsigned remainder of R243. -/
def remainderN (a b : Word) : Word := if b = 0 then a else a % b
/-- Zeros above the highest one; 64 for zero (R261). -/
def leadingZeros (a : Word) : Nat := (firstFrom (fun i => bitOf a.toNat (63 - i) == 1) 0 64).getD 64
/-- Zeros below the lowest one; 64 for zero (R261). -/
def trailingZeros (a : Word) : Nat := (firstFrom (fun i => bitOf a.toNat i == 1) 0 64).getD 64
/-- The bytes in reverse order (R261). -/
def swapBytes (a : Word) : Word := BitVec.ofNat 64 (ofBytes (toBytes 8 a.toNat).reverse)

/-- add (R261). -/
def execAdd (d a b : Reg) (s : State) : Result := writeResult d ((s.getX a) + (s.getX b)) s
/-- sub (R261). -/
def execSub (d a b : Reg) (s : State) : Result := writeResult d ((s.getX a) - (s.getX b)) s
/-- and (R261). -/
def execAnd (d a b : Reg) (s : State) : Result := writeResult d ((s.getX a) &&& (s.getX b)) s
/-- or (R261). -/
def execOr (d a b : Reg) (s : State) : Result := writeResult d ((s.getX a) ||| (s.getX b)) s
/-- xor (R261). -/
def execXor (d a b : Reg) (s : State) : Result := writeResult d ((s.getX a) ^^^ (s.getX b)) s
/-- andn (R261). -/
def execAndn (d a b : Reg) (s : State) : Result := writeResult d ((s.getX a) &&& ~~~ (s.getX b)) s
/-- sll (R261). -/
def execSll (d a b : Reg) (s : State) : Result := writeResult d ((s.getX a) <<< amountOf (s.getX b)) s
/-- srl (R261). -/
def execSrl (d a b : Reg) (s : State) : Result := writeResult d ((s.getX a) >>> amountOf (s.getX b)) s
/-- sra (R261). -/
def execSra (d a b : Reg) (s : State) : Result := writeResult d ((s.getX a).sshiftRight (amountOf (s.getX b))) s
/-- rot (R261). -/
def execRot (d a b : Reg) (s : State) : Result := writeResult d ((s.getX a).rotateRight (amountOf (s.getX b))) s
/-- slt (R261). -/
def execSlt (d a b : Reg) (s : State) : Result := writeResult d (boolWord ((s.getX a).slt (s.getX b))) s
/-- sltn (R261). -/
def execSltn (d a b : Reg) (s : State) : Result := writeResult d (boolWord ((s.getX a).ult (s.getX b))) s
/-- min (R261). -/
def execMin (d a b : Reg) (s : State) : Result := writeResult d (if (s.getX a).slt (s.getX b) then (s.getX a) else (s.getX b)) s
/-- max (R261). -/
def execMax (d a b : Reg) (s : State) : Result := writeResult d (if (s.getX a).slt (s.getX b) then (s.getX b) else (s.getX a)) s
/-- minn (R261). -/
def execMinn (d a b : Reg) (s : State) : Result := writeResult d (if (s.getX a).ult (s.getX b) then (s.getX a) else (s.getX b)) s
/-- maxn (R261). -/
def execMaxn (d a b : Reg) (s : State) : Result := writeResult d (if (s.getX a).ult (s.getX b) then (s.getX b) else (s.getX a)) s
/-- mul (R261). -/
def execMul (d a b : Reg) (s : State) : Result := writeResult d ((s.getX a) * (s.getX b)) s
/-- mulh (R261). -/
def execMulh (d a b : Reg) (s : State) : Result := writeResult d (mulHigh (s.getX a) (s.getX b)) s
/-- mulhn (R261). -/
def execMulhn (d a b : Reg) (s : State) : Result := writeResult d (mulHighN (s.getX a) (s.getX b)) s
/-- div (R261). -/
def execDiv (d a b : Reg) (s : State) : Result := writeResult d (quotient (s.getX a) (s.getX b)) s
/-- divn (R261). -/
def execDivn (d a b : Reg) (s : State) : Result := writeResult d (quotientN (s.getX a) (s.getX b)) s
/-- rem (R261). -/
def execRem (d a b : Reg) (s : State) : Result := writeResult d (remainder (s.getX a) (s.getX b)) s
/-- remn (R261). -/
def execRemn (d a b : Reg) (s : State) : Result := writeResult d (remainderN (s.getX a) (s.getX b)) s
/-- popc (R261). -/
def execPopc (d a : Reg) (s : State) : Result := writeResult d (BitVec.ofNat 64 (popcount 64 (s.getX a).toNat)) s
/-- clz (R261). -/
def execClz (d a : Reg) (s : State) : Result := writeResult d (BitVec.ofNat 64 (leadingZeros (s.getX a))) s
/-- ctz (R261). -/
def execCtz (d a : Reg) (s : State) : Result := writeResult d (BitVec.ofNat 64 (trailingZeros (s.getX a))) s
/-- sxb (R261). -/
def execSxb (d a : Reg) (s : State) : Result := writeResult d (((s.getX a).setWidth 8).signExtend 64) s
/-- sxh (R261). -/
def execSxh (d a : Reg) (s : State) : Result := writeResult d (((s.getX a).setWidth 16).signExtend 64) s
/-- sxw (R261). -/
def execSxw (d a : Reg) (s : State) : Result := writeResult d (((s.getX a).setWidth 32).signExtend 64) s
/-- zxw (R261). -/
def execZxw (d a : Reg) (s : State) : Result := writeResult d (((s.getX a).setWidth 32).setWidth 64) s
/-- bswap (R261). -/
def execBswap (d a : Reg) (s : State) : Result := writeResult d (swapBytes (s.getX a)) s

/-- The immediate operations by major (R262), with the widened immediate. -/
def immOp (major : Nat) (a i : Word) : Word :=
  match major with
  | 0x02 => a + i
  | 0x03 => a &&& i
  | 0x04 => a ||| i
  | 0x05 => a ^^^ i
  | 0x07 => boolWord (a.slt i)
  | _ => boolWord (a.ult i)

/-- addi (R262). -/
def execAddi (d a : Reg) (i : BitVec 12) (s : State) : Result :=
  writeResult d (immOp 0x02 (s.getX a) (imm12 i)) s
/-- andi (R262). -/
def execAndi (d a : Reg) (i : BitVec 12) (s : State) : Result :=
  writeResult d (immOp 0x03 (s.getX a) (imm12 i)) s
/-- ori (R262). -/
def execOri (d a : Reg) (i : BitVec 12) (s : State) : Result :=
  writeResult d (immOp 0x04 (s.getX a) (imm12 i)) s
/-- xori (R262). -/
def execXori (d a : Reg) (i : BitVec 12) (s : State) : Result :=
  writeResult d (immOp 0x05 (s.getX a) (imm12 i)) s
/-- slti (R262). -/
def execSlti (d a : Reg) (i : BitVec 12) (s : State) : Result :=
  writeResult d (immOp 0x07 (s.getX a) (imm12 i)) s
/-- sltni (R262). -/
def execSltni (d a : Reg) (i : BitVec 12) (s : State) : Result :=
  writeResult d (immOp 0x08 (s.getX a) (imm12 i)) s
/-- slli (R263). -/
def execSlli (d a : Reg) (k : BitVec 6) (s : State) : Result := writeResult d ((s.getX a) <<< k.toNat) s
/-- srli (R263). -/
def execSrli (d a : Reg) (k : BitVec 6) (s : State) : Result := writeResult d ((s.getX a) >>> k.toNat) s
/-- srai (R263). -/
def execSrai (d a : Reg) (k : BitVec 6) (s : State) : Result := writeResult d ((s.getX a).sshiftRight k.toNat) s
/-- roti (R263). -/
def execRoti (d a : Reg) (k : BitVec 6) (s : State) : Result := writeResult d ((s.getX a).rotateRight k.toNat) s

/-- pcrel: the PC is the trigger's inside a routine (R264, R52). -/
def execPcrel (d : Reg) (i : BitVec 19) (s : State) : Result := writeResult d (s.ctx.instrPc + imm19 i) s

/-- A jump to X[a] + I that links `link` (R266). ILLOP inside a routine (R52). -/
def jumpLink (d : Reg) (target link : Word) (s : State) : Result :=
  if s.ctx.routine.isSome then trap .illop 0 s
  else if target.toNat % 4 ≠ 0 then trap .align target s
  else done ((s.jumpTo target).setX d link)

/-- jalr (R266). -/
def execJalr (d a : Reg) (i : BitVec 12) (s : State) : Result := jumpLink d (s.getX a + imm12 i) (s.ctx.pc + 4) s

/-- jal (R266). -/
def execJal (d : Reg) (o : BitVec 19) (s : State) : Result :=
  if s.ctx.routine.isSome then trap .illop 0 s
  else done ((s.jumpTo (s.ctx.pc + off19 o)).setX d (s.ctx.pc + 4))

/-- Whether a major may be the partner of a lim (R31). -/
def limPartner (major : Nat) : Bool :=
  major == 0x02 || major == 0x03 || major == 0x04 || major == 0x05 || major == 0x07 || major == 0x08 || major == 0x14

/-- Whether the word after the present one lies outside the routine that runs (R52). -/
def Ctx.lastOfRoutine (c : Ctx) : Bool :=
  match c.routine with
  | some r => decide (r.words ≤ r.off + 1)
  | none => false

/-- The pair of a lim and its partner word (R31, R32): ILLOP for a partner of another major, or one outside the routine; else the
partner with the wide immediate, and the pc moves past both. -/
def execLim (i : BitVec 19) (partner : BitVec 32) (s : State) : Result :=
  let w := partner.toNat
  let major := w / 0x4000000
  let d := regAt w 19
  let a := s.getX (regAt w 12)
  let v := limImm i (bitsAt 12 w 0)
  if limPartner major = false || s.ctx.lastOfRoutine then trap .illop 0 s
  else if major = 0x14 then jumpLink d (a + v) (s.ctx.pc + 8) s
  else
    let s := s.setX d (immOp major a v)
    done { s with ctx := s.ctx.advance 2 }

/-- A conditional branch (R265): inside a routine it moves within the routine, and a target outside is ILLOP (R52). -/
def branchIf (taken : Bool) (o : BitVec 12) (s : State) : Result :=
  match s.ctx.routine with
  | none => if taken then done (s.jumpTo (s.ctx.pc + off12 o)) else done s.advance
  | some r =>
    let t : Int := r.off + o.toInt
    if t < 0 ∨ (r.words : Int) ≤ t then trap .illop 0 s
    else if taken then
      let c := { s.ctx with hold := .run, routine := some { r with off := t.toNat } }
      done { s with ctx := c }
    else done s.advance

/-- beq (R265). -/
def execBeq (a b : Reg) (o : BitVec 12) (s : State) : Result := branchIf ((s.getX a) == (s.getX b)) o s
/-- bne (R265). -/
def execBne (a b : Reg) (o : BitVec 12) (s : State) : Result := branchIf ((s.getX a) != (s.getX b)) o s
/-- blt (R265). -/
def execBlt (a b : Reg) (o : BitVec 12) (s : State) : Result := branchIf ((s.getX a).slt (s.getX b)) o s
/-- bge (R265). -/
def execBge (a b : Reg) (o : BitVec 12) (s : State) : Result := branchIf (!(s.getX a).slt (s.getX b)) o s
/-- bltn (R265). -/
def execBltn (a b : Reg) (o : BitVec 12) (s : State) : Result := branchIf ((s.getX a).ult (s.getX b)) o s
/-- bgen (R265). -/
def execBgen (a b : Reg) (o : BitVec 12) (s : State) : Result := branchIf (!(s.getX a).ult (s.getX b)) o s

end Sys2Proof.Machine
end

