-- ==== Sys2Proof/Machine/ScalarMemory.lean ====
section
/-! DEFINITION. Scalar loads, scalar atomics, the fences and `ifence` (07_memory.md R183-R186, R194-R199;
06_ordering.md R145-R151, R165). -/

namespace Sys2Proof.Machine

/-! ## The vector stream as the scalar stream sees it -/

/-- Instructions that read device memory through the vector stream (R145). -/
def readsMemory : Instr → Bool
  | .vld _ _ _ _ | .vldff _ _ _ _ | .vlds _ _ _ _ _ | .vldx _ _ _ _ _ | .vldxo _ _ _ _ _ | .vamoadd _ _ _ _ _ => true
  | .vamomin _ _ _ _ _ | .vamomax _ _ _ _ _ | .vamoswap _ _ _ _ _ | .vamocas _ _ _ | .mopm _ _ _ _ _ | .mwl _ _ _ => true
  | .cpgoMm _ _ _ | .cpgoMs _ _ _ | .spool _ _ _ | .coll _ | .kvsel _ | .fsend _ _ _ | .lpush _ _ | .wlpush _ _ => true
  | .wlins _ _ | .wlpop _ _ _ | .wlclose _ | .wlclear _ | .elapply _ => true
  | _ => false

/-- Instructions that write device memory through the vector stream (R145). -/
def writesMemory : Instr → Bool
  | .vst _ _ _ _ | .vsts _ _ _ _ _ | .vstx _ _ _ _ _ | .vstxo _ _ _ _ _ | .vamoadd _ _ _ _ _ | .vamomin _ _ _ _ _ => true
  | .vamomax _ _ _ _ _ | .vamoswap _ _ _ _ _ | .vamocas _ _ _ | .cpgoMm _ _ _ | .cpgoSm _ _ _ | .coll _ | .lpush _ _ => true
  | .wlpush _ _ | .wlins _ _ | .wlpop _ _ _ | .wlclose _ | .wlclear _ | .elapply _ => true
  | _ => false

/-- Instructions of the vector stream that access the scratchpad (R152, R207, R215). -/
def touchesScratch : Instr → Bool
  | .vspld _ _ _ _ | .vspst _ _ _ _ | .vpst _ _ _ | .vpld _ _ _ | .cpgoMs _ _ _ | .cpgoSm _ _ _ | .cpgoSs _ _ _ | .kvsel _ => true
  | _ => false

/-- Whether an instruction accesses memory of either space through the vector stream (R145). -/
def touchesMemory (i : Instr) : Bool := readsMemory i || writesMemory i || touchesScratch i

/-- Whether an older `fence.sv` holds back the scalar stream: an instruction older than it still has accesses to perform (R149, R195). -/
def Ctx.svHeld (c : Ctx) : Bool :=
  match c.svFence with
  | none => false
  | some n => (c.rules ++ c.queue).any fun r => decide (r.seq < n) && touchesMemory r.instr

/-! ## Loads and stores -/

/-- A scalar-stream access of the context whose turn it is, at the scope of the vtype in force (R146). -/
def State.scalarAcc (s : State) : Acc :=
  { g := s.ctx.agent, scope := scopeOf s.ctx.vtype, user := s.ctx.user, key := s.ctx.instrPc, elem := 0, scalar := true }

/-- The lists whose records a scalar load consults (R227, R233). -/
def State.scalarLists (s : State) : List (Nat × List Segment) := if s.ctx.collecting then s.ctx.lists else []

/-- Loads `n` bytes into X[d], widened by `f` (R184). -/
def loadScalar (d a : Reg) (o : BitVec 9) (n : Nat) (f : Nat → Word) (s : State) : Result :=
  let addr := s.getX a + off9 o n
  if s.ctx.svHeld then done s.stall
  else if isCanonical addr = false then trap .loadfault addr s
  else if addr.toNat % n ≠ 0 then trap .align addr s
  else
    match s.loadOwn s.scalarAcc s.scalarLists addr n with
    | .ok bs s => writeResult d (f (ofBytes bs)) s
    | .wait s => done s.stall
    | .fault c s => trap c addr s

/-- Sign extension of `n` bytes. -/
def sextBytes (n v : Nat) : Word := BitVec.ofInt 64 (signedOf (8 * n) v)

/-- ld.b (R184). -/
def execLdB (d a : Reg) (o : BitVec 9) (s : State) : Result := loadScalar d a o 1 (sextBytes 1) s
/-- ld.h (R184). -/
def execLdH (d a : Reg) (o : BitVec 9) (s : State) : Result := loadScalar d a o 2 (sextBytes 2) s
/-- ld.w (R184). -/
def execLdW (d a : Reg) (o : BitVec 9) (s : State) : Result := loadScalar d a o 4 (sextBytes 4) s
/-- ld.d (R184). -/
def execLdD (d a : Reg) (o : BitVec 9) (s : State) : Result := loadScalar d a o 8 (BitVec.ofNat 64) s
/-- ld.bn (R184). -/
def execLdBn (d a : Reg) (o : BitVec 9) (s : State) : Result := loadScalar d a o 1 (BitVec.ofNat 64) s
/-- ld.hn (R184). -/
def execLdHn (d a : Reg) (o : BitVec 9) (s : State) : Result := loadScalar d a o 2 (BitVec.ofNat 64) s
/-- ld.wn (R184). -/
def execLdWn (d a : Reg) (o : BitVec 9) (s : State) : Result := loadScalar d a o 4 (BitVec.ofNat 64) s
/-! ## Atomics -/

/-- A scalar atomic on `n` bytes (R186): `new` from the old value, the operand and the compare value. The older stores of its stream
leave the store queue first (R148). -/
def atomicScalar (d a b : Reg) (n : Nat) (carried : Option RemoteOp) (new : Nat → Nat → Nat → Option Nat) (s : State) : Result :=
  let addr := s.getX a
  let x := (s.getX b).toNat % 2 ^ (8 * n)
  let c := (s.getX d).toNat % 2 ^ (8 * n)
  if s.ctx.svHeld then done s.stall
  else if isCanonical addr = false then trap .storefault addr s
  else if addr.toNat % n ≠ 0 then trap .align addr s
  else if s.ctx.collecting then trap .nocollect 0 s
  else
    match (s.drainQueue s.ctx.agent).atomicAt s.scalarAcc addr n carried (toBytes n x ++ toBytes n c) (fun old => new old x c) with
    | .ok old s => writeResult d (sextBytes n old) s
    | .wait s => done s.stall
    | .fault c s => trap c addr s

/-- The smaller or larger of two `n`-byte values, signed (R186). -/
def signedPick (n : Nat) (larger : Bool) (x y : Nat) : Nat :=
  if decide (signedOf (8 * n) x < signedOf (8 * n) y) == larger then y else x
/-- The smaller or larger of two values, unsigned (R186). -/
def unsignedPick (larger : Bool) (x y : Nat) : Nat := if decide (x < y) == larger then y else x

/-- amoadd.d (R186). -/
def execAmoaddD (d a b : Reg) (s : State) : Result :=
  atomicScalar d a b 8 (some .add) (fun old x _ => some ((old + x) % 2 ^ (8 * 8))) s
/-- amoand.d (R186). -/
def execAmoandD (d a b : Reg) (s : State) : Result :=
  atomicScalar d a b 8 none (fun old x _ => some (Nat.land old x)) s
/-- amoor.d (R186). -/
def execAmoorD (d a b : Reg) (s : State) : Result :=
  atomicScalar d a b 8 none (fun old x _ => some (Nat.lor old x)) s
/-- amoxor.d (R186). -/
def execAmoxorD (d a b : Reg) (s : State) : Result :=
  atomicScalar d a b 8 none (fun old x _ => some (Nat.xor old x)) s
/-- amomin.d (R186). -/
def execAmominD (d a b : Reg) (s : State) : Result :=
  atomicScalar d a b 8 none (fun old x _ => some (signedPick 8 false old x)) s
/-- amomax.d (R186). -/
def execAmomaxD (d a b : Reg) (s : State) : Result :=
  atomicScalar d a b 8 none (fun old x _ => some (signedPick 8 true old x)) s
/-- amominn.d (R186). -/
def execAmominnD (d a b : Reg) (s : State) : Result :=
  atomicScalar d a b 8 none (fun old x _ => some (unsignedPick false old x)) s
/-- amomaxn.d (R186). -/
def execAmomaxnD (d a b : Reg) (s : State) : Result :=
  atomicScalar d a b 8 none (fun old x _ => some (unsignedPick true old x)) s
/-- amoswap.d (R186). -/
def execAmoswapD (d a b : Reg) (s : State) : Result :=
  atomicScalar d a b 8 (some .swap) (fun _ x _ => some x) s
/-- amocas.d (R186). -/
def execAmocasD (d a b : Reg) (s : State) : Result :=
  atomicScalar d a b 8 (some .cas) (fun old x c => if old = c then some x else none) s
/-- amoadd.w (R186). -/
def execAmoaddW (d a b : Reg) (s : State) : Result :=
  atomicScalar d a b 4 (some .add) (fun old x _ => some ((old + x) % 2 ^ (8 * 4))) s
/-- amoand.w (R186). -/
def execAmoandW (d a b : Reg) (s : State) : Result :=
  atomicScalar d a b 4 none (fun old x _ => some (Nat.land old x)) s
/-- amoor.w (R186). -/
def execAmoorW (d a b : Reg) (s : State) : Result :=
  atomicScalar d a b 4 none (fun old x _ => some (Nat.lor old x)) s
/-- amoxor.w (R186). -/
def execAmoxorW (d a b : Reg) (s : State) : Result :=
  atomicScalar d a b 4 none (fun old x _ => some (Nat.xor old x)) s
/-- amomin.w (R186). -/
def execAmominW (d a b : Reg) (s : State) : Result :=
  atomicScalar d a b 4 none (fun old x _ => some (signedPick 4 false old x)) s
/-- amomax.w (R186). -/
def execAmomaxW (d a b : Reg) (s : State) : Result :=
  atomicScalar d a b 4 none (fun old x _ => some (signedPick 4 true old x)) s
/-- amominn.w (R186). -/
def execAmominnW (d a b : Reg) (s : State) : Result :=
  atomicScalar d a b 4 none (fun old x _ => some (unsignedPick false old x)) s
/-- amomaxn.w (R186). -/
def execAmomaxnW (d a b : Reg) (s : State) : Result :=
  atomicScalar d a b 4 none (fun old x _ => some (unsignedPick true old x)) s
/-- amoswap.w (R186). -/
def execAmoswapW (d a b : Reg) (s : State) : Result :=
  atomicScalar d a b 4 (some .swap) (fun _ x _ => some x) s
/-- amocas.w (R186). -/
def execAmocasW (d a b : Reg) (s : State) : Result :=
  atomicScalar d a b 4 (some .cas) (fun old x c => if old = c then some x else none) s

/-! ## Fences -/

/-- The scope that an agent's fences have (R356). -/
def fenceScope (g : Agent) (scope : Nat) : Nat :=
  match g with
  | .ctx _ => scope
  | .handler _ _ _ => max scope 3

/-- Whether no standing or queued instruction of a kind is left. -/
def Ctx.noneOf (c : Ctx) (p : Instr → Bool) : Bool := (c.rules ++ c.queue).all fun r => !p r.instr

/-- Whether every older vector-stream access has been performed (R195). -/
def Ctx.vectorDone (c : Ctx) : Bool := c.noneOf touchesMemory

/-- Whether every store that happens before is performed at the point of coherence of a scope (R151, R156, R195): its own in the local
array for lane and core scope, all acknowledged above them. -/
def State.releasedAt (s : State) (scope : Nat) : Bool :=
  if scope ≤ 1 then (s.storeQueue s.ctx.agent).isEmpty else s.allBefore s.ctx.agent

/-- fence.sv: no younger scalar access before every older vector-stream access; vector instructions go on issuing (R149, R195). -/
def execFenceSv (s : State) : Result :=
  done ({ s with ctx := { s.ctx with svFence := if s.ctx.vectorDone then none else some s.ctx.seq } } : State).advance

/-- Whether the vector queue takes another instruction (R129). -/
def Ctx.queueFull (c : Ctx) : Bool := decide (Config.queueEntries ≤ c.queue.length)

/-- The strip of a `vstrip.i` loop that a context is in (R127). -/
def Ctx.stripNow (c : Ctx) : Option (Nat × Nat) := if c.strip.isOpen && c.strip.independent then some (c.stripLoop, c.stripCount) else none

/-- The snapshot of an instruction that enters the vector queue (R107). -/
def State.snapshot (s : State) (i : Instr) : Rule :=
  let c := s.ctx
  { pc := c.instrPc, instr := i, routine := c.routine.isSome, cdepth := c.cdepth
    chandle := if c.cdepth = 0 then 0 else c.activeHandle
    wb := c.wb.toNat, vtype := c.vtype, mtype := c.mtype, vl := c.vl.toNat, vstart := c.vstart.toNat
    lanes := s.lanesOf c.agent, spans := spansFor (s.spanList c.agent) c.stripNow, strip := c.stripNow
    seq := c.seq }

/-- fence.vs: it enters the vector queue in program order; every access of an instruction issued after it waits until every
older scalar access has been performed (R149, R195). -/
def execFenceVs (s : State) : Result :=
  if s.ctx.queueFull then done s.stall
  else done ({ s with ctx := { s.ctx with queue := s.ctx.queue ++ [s.snapshot .fenceVs], seq := s.ctx.seq + 1 } } : State).advance

/-- fence.rel: every older access is performed at the point of coherence of the scope (R151). -/
def execFenceRel (s : State) : Result :=
  let sc := fenceScope s.ctx.agent (scopeOf s.ctx.vtype)
  if s.ctx.vectorDone && s.releasedAt sc then done (s.releases s.ctx.agent sc).advance else done s.stall

/-- fence.acq: every older load has taken its value (R151). -/
def execFenceAcq (s : State) : Result :=
  if s.ctx.noneOf (fun i => readsMemory i || touchesScratch i) then
    done (s.acquires s.ctx.agent (fenceScope s.ctx.agent (scopeOf s.ctx.vtype))).advance
  else done s.stall

/-- fence.full: both, and stores before loads (R151). -/
def execFenceFull (s : State) : Result :=
  let sc := fenceScope s.ctx.agent (scopeOf s.ctx.vtype)
  if s.ctx.vectorDone && s.releasedAt sc then done ((s.acquires s.ctx.agent sc).releases s.ctx.agent sc).advance else done s.stall

/-- Whether a core lies in the instance of a scope that holds another core (R14, R146). -/
def sameInstance (scope a b : Nat) : Bool :=
  if scope ≤ 1 then a == b else if scope = 2 then a / 4 == b / 4 else if scope = 3 then a / 48 == b / 48 else true

/-- The core that an agent counts as for scopes: a handler stands in the die of its slice (R356). -/
def homeCore : Agent → Nat
  | .ctx id => id / 8
  | .handler _ sl _ => sl

/-- The instruction caches of every core in the instance of a scope, and from die scope on those of the chains, are emptied (R165,
R197, R353). -/
def State.emptyFetch (s : State) (scope me : Nat) : State :=
  { s with
    cores := s.cores.map fun (k, c) => if sameInstance scope me k then (k, { c with icache := [] }) else (k, c)
    chains := s.chains.map fun (c : Chain) =>
      if decide (3 ≤ scope) && sameInstance scope me c.slice then { c with icache := [] } else c }

/-- The owner that a request to every other module of the pod names. -/
def everyModule : Nat := 0xFFF

/-- ifence (R165, R197): older stores are performed, at lane and core scope too at the home slices, where a fetch reads them; then the
instruction caches of the scope's instance are emptied, at pod scope also those of every other module that acknowledges. -/
def execIfence (s : State) : Result :=
  let scope := fenceScope s.ctx.agent (scopeOf s.ctx.vtype)
  let finish := fun (s : State) => (s.emptyFetch scope (homeCore s.ctx.agent)).advance
  if s.ctx.vectorDone && s.storesDone s.ctx.agent && (decide (scope ≤ 1) || s.allBefore s.ctx.agent) then
    if scope = 5 then
      match s.remoteAt s.scalarAcc everyModule 0 .ifence 0 [] with
      | .ok _ s => done (finish s)
      | .wait s => done s.stall
      | .fault c s => trap c 0 s
    else done (finish s)
  else done s.stall

end Sys2Proof.Machine
end

