-- ==== Sys2Proof/Machine/Elements.lean ====
section
/-! DEFINITION. The frame in which the elements of a standing rule fire (05_elements.md R107-R120): what an element reads and
writes, presence, register lines, and the issue of a word that takes a rule entry. -/

namespace Sys2Proof.Machine

/-! ## Places -/

/-- A place that an element reads or writes: bytes of the vector image, bits of a mask register, a rectangle of cells of a
tile (rows from `i`, columns from `j`), or the source or the destination layout of the context (R212). -/
inductive Loc where
  | v (lo n : Nat)
  | q (reg lo n : Nat)
  | cells (tile i rows j cols : Nat)
  | layout (source : Bool)
  deriving DecidableEq, Repr

/-- Whether two runs of numbers meet. -/
def meets (a n b k : Nat) : Bool := decide (0 < n) && decide (0 < k) && decide (a < b + k) && decide (b < a + n)

/-- Whether two places share a byte, a bit or a cell. -/
def Loc.meets : Loc → Loc → Bool
  | .v a n, .v b k => Machine.meets a n b k
  | .q r a n, .q t b k => r == t && Machine.meets a n b k
  | .cells t i m j n, .cells t' i' m' j' n' => t == t' && Machine.meets i m i' m' && Machine.meets j n j' n'
  | .layout a, .layout b => a == b
  | _, _ => false

/-- The place widened to whole grains (R108): 32-bit words, or 32 mask bits. -/
def Loc.grains : Loc → Loc
  | .v a n => .v (a / 4 * 4) (roundUp 4 (a + n) - a / 4 * 4)
  | .q r a n => .q r (a / 32 * 32) (roundUp 32 (a + n) - a / 32 * 32)
  | l => l

/-- Whether a place of one list meets a place of the other. -/
def anyMeets (xs ys : List Loc) : Bool := xs.any fun x => ys.any fun y => x.meets y

/-- The register lines (R118) that a place lies in. -/
def Loc.lines : Loc → List Nat
  | .v a n => if n = 0 then [] else span (lineOfByte a) (lineOfByte (a + n - 1) + 1)
  | _ => []

/-- Element `e` of `n` bytes of a named register, under a rule's window (R29, R107). -/
def Rule.velem (r : Rule) (name n e : Nat) : Loc := .v (vaddr r.wb name (e * n)) n

/-- The first `count` elements of `n` bytes of the group that starts at a name: one place for each register. -/
def Rule.vgroup (r : Rule) (name n count : Nat) : List Loc :=
  (List.range (ceilDiv (count * n) 4096)).map fun k => .v (vaddr r.wb name (4096 * k)) (min 4096 (count * n - 4096 * k))

/-- The grains that a place lies in (R108): those of the vector image, and after them those of the masks. -/
def Loc.grainList : Loc → List Nat
  | .v a n => if n = 0 then [] else span (a / 4) ((a + n - 1) / 4 + 1)
  | .q r a n => if n = 0 then [] else (span (a / 32) ((a + n - 1) / 32 + 1)).map fun g => maskGrain r g
  | _ => []

/-! ## Interlock entries -/

/-- One side of an interlock entry in one address space (R178): the hull of its lines, and the ungenerated flag. -/
structure Side where
  range : Option (Nat × Nat) := none
  ungen : Bool := false
  deriving DecidableEq, Repr

/-- An interlock entry (R177, R178): read and write side, in device memory and in the scratchpad. -/
structure Lock where
  rd  : Side := {}
  wr  : Side := {}
  srd : Side := {}
  swr : Side := {}
  deriving DecidableEq, Repr

/-- A range with some more lines. -/
def addLines (range : Option (Nat × Nat)) (lines : List Nat) : Option (Nat × Nat) :=
  lines.foldl (fun (o : Option (Nat × Nat)) l => match o with
    | none => some (l, l)
    | some (lo, hi) => some (min lo l, max hi l)) range

/-- A side: the lines of the performed accesses, and those of the others, none where one has no translated address (R178). -/
def Side.of (range : Option (Nat × Nat)) (rest : List (Option (List Nat))) : Side :=
  { range := addLines range (rest.filterMap id).flatten, ungen := rest.any (·.isNone) }

/-- Whether a side holds back an access to a line (R179). -/
def Side.holds (a : Side) (line : Nat) : Bool :=
  a.ungen || match a.range with
    | none => false
    | some (lo, hi) => decide (lo ≤ line) && decide (line ≤ hi)

/-- The device and scratchpad lines that an element reads and writes. -/
structure Touch where
  rd  : List Nat := []
  wr  : List Nat := []
  srd : List Nat := []
  swr : List Nat := []
  deriving DecidableEq, Repr

/-- The lines that the entry of a rule covers for one element, by side; none where an access of that side has no translated address
(R178). -/
structure Cover where
  rd  : Option (List Nat) := some []
  wr  : Option (List Nat) := some []
  srd : Option (List Nat) := some []
  swr : Option (List Nat) := some []
  deriving DecidableEq, Repr

/-- The cover of an element whose lines are known, or none of them. -/
def Cover.of : Option Touch → Cover
  | some t => { rd := some t.rd, wr := some t.wr, srd := some t.srd, swr := some t.swr }
  | none => { rd := none, wr := none, srd := none, swr := none }

/-- The performed accesses of a rule with those of one more element (R178). -/
def Hull.sweep (h : Hull) (c : Cover) : Hull :=
  { rd := addLines h.rd (c.rd.getD []), wr := addLines h.wr (c.wr.getD [])
    srd := addLines h.srd (c.srd.getD []), swr := addLines h.swr (c.swr.getD []) }

/-- Whether an older entry holds back an element's accesses (R179). -/
def Lock.blocks (e : Lock) (t : Touch) : Bool :=
  t.rd.any e.wr.holds || t.wr.any (fun l => e.rd.holds l || e.wr.holds l) ||
  t.srd.any e.swr.holds || t.swr.any fun l => e.srd.holds l || e.swr.holds l

/-! ## What a rule's elements do -/

/-- What an element's firing comes to: done, waiting, a part of its work done and more to do, a fault at the element, or a fault
of the whole instruction, whose telem is 0. -/
inductive Fired where
  | ok (s : State)
  | wait (s : State)
  | part (s : State)
  | fault (c : Cause) (addr : Word) (s : State)
  | whole (c : Cause) (addr : Word) (s : State)

/-- The elements of a rule. Element e, vstart ≤ e < `count`, is governed by mask `mask`; `reads` and `writes` are the places it
needs and changes, by what the context holds now; `holds` and `pends` are the places that it may still read and write as long as
it is not done. `fire` has its whole effect, on the elements `span e` at once. `whole` says that elements may need each other's
old values (R271), `ordered` that they may write the same places, in ascending order (R106). For an instruction with an interlock entry (R177) `uses` names its sides (device read and write, scratchpad
read and write), `addrs` the operands that an element's address comes from (of `vpick` the index), `early` that its range is known at issue whatever
the mask says (R178), `gate` the mask that says which elements have an address where all of them fire (R228, R230), `touch` the lines that element e accesses, none where they cannot be translated, and `covers` those that its
entry covers. `still` are the places that it leaves pending, where that depends on which places are present and on what the context
holds (R280, R288). `check` are the faults that an element meets before it waits for anything (R210). `parts` says that its element
is made of numbered pieces of work that fire one by one (R215, R238, R365). `take` has a load's element take its data into `eng.held` while its
write is not allowed yet (R112). `lanes` says that its elements are mapped onto the lanes of the context's spans (R124). -/
structure Work where
  count  : Nat
  mask   : Fin 4 := 0
  reads  : Ctx → Nat → List Loc
  writes : Ctx → Nat → List Loc
  holds  : Nat → List Loc
  pends  : Nat → List Loc
  span   : Nat → List Nat := fun e => [e]
  whole  : Bool := false
  ordered : Bool := false
  gate   : Fin 4 := 0
  uses   : Bool × Bool × Bool × Bool := (false, false, false, false)
  addrs  : Nat → List Loc := fun _ => []
  early  : Bool := false
  touch  : State → Nat → Option Touch := fun _ _ => some {}
  covers : State → Nat → Cover := fun _ _ => {}
  still  : (List Loc → Bool) → Ctx → Nat → List Loc := fun _ _ e => pends e
  check  : State → Nat → Option (Cause × Word) := fun _ _ => none
  parts  : Bool := false
  lanes  : Bool := false
  take   : Option (State → Nat → Fired) := none
  fire   : State → Nat → Fired

/-- A rule that only computes on registers: the context after element e. -/
def regWork (g : Agent) (count : Nat) (mask : Fin 4) (reads writes : Ctx → Nat → List Loc) (holds pends : Nat → List Loc)
    (whole : Bool) (f : Ctx → Nat → Ctx) : Work :=
  { count := count, mask := mask, reads := reads, writes := writes, holds := holds, pends := pends, whole := whole, lanes := true
    fire := fun s e => .ok (s.setCtx (f (s.getCtx g) e)) }

/-- The k-th standing rule of an agent. -/
def State.ruleAt (s : State) (g : Agent) (k : Nat) : Option Rule := (s.getCtx g).rules[k]?

/-- The k-th standing rule of an agent, changed. -/
def State.mapRule (s : State) (g : Agent) (k : Nat) (f : Rule → Rule) : State :=
  s.mapCtx g fun c => { c with rules := c.rules.modify k f }

/-- Whether a fault stops element firings of the k-th rule (R396): its own, or an older one's. -/
def Ctx.faultBefore (c : Ctx) (k : Nat) : Bool := (c.rules.take (k + 1)).any fun r => !r.detached && r.fault.isSome

/-- Whether a part of a rule's work, an element or a numbered piece of one, has begun: an access of it has left the module (R396). -/
def Ctx.hasBegun (c : Ctx) (key : Word) (part : Nat) : Bool :=
  c.remotes.any fun x => x.key == key && x.elem / 2 ^ 20 == part && x.begun

/-- The pieces of some work that may go on in the k-th rule: all, or under a fault those that have begun (R216, R396). -/
def Ctx.mayGo (c : Ctx) (k : Nat) (key : Word) (parts : List Nat) : List Nat :=
  if c.faultBefore k then parts.filter (c.hasBegun key) else parts

/-- What the reading of an element's data comes to: the data, or what else its firing comes to. -/
abbrev Taken := Except Fired (Nat × State)

/-- The data that an element of a load holds until its write is allowed (R112). -/
def Rule.holding (r : Rule) (e : Nat) : Option Nat := lookup? e r.eng.held

/-- A load whose elements read their data by `data` and write them by `put`: both at once, or the data first, which the element then
holds until its write is allowed (R112). -/
def Rule.loading (r : Rule) (g : Agent) (k : Nat) (w : Work) (data : State → Nat → Taken) (put : Nat → Nat → Ctx → Ctx) : Work :=
  let held := fun e => (r.holding e).isSome
  { w with
    reads := fun c e => if held e then [] else w.reads c e
    holds := fun e => if held e then [] else w.holds e
    addrs := fun e => if held e then [] else w.addrs e
    touch := fun s e => if held e then some {} else w.touch s e
    covers := fun s e => if held e then {} else w.covers s e
    take := some fun s e => match data s e with
      | .error f => f
      | .ok (x, s) => .ok (s.mapRule g k fun r => { r with eng := { r.eng with held := r.eng.held ++ [(e, x)] } })
    fire := fun s e => match r.holding e with
      | some x => .ok ((s.mapCtx g (put e x)).mapRule g k fun r => { r with eng := { r.eng with held := r.eng.held.filter fun h => h.1 != e } })
      | none => match data s e with
        | .error f => f
        | .ok (x, s) => .ok (s.mapCtx g (put e x)) }

/-- Flags raised in fflags by an element (R253, R255). -/
def Ctx.raise (c : Ctx) (flags : Nat) : Ctx := { c with fflags := raiseFlags c.fflags flags }

/-- The elements of a rule that are not done. -/
def Rule.left (r : Rule) (w : Work) : List Nat := (List.range w.count).filter fun e => !r.done.getLsbD e

/-- The span of the grant that element `e` is mapped onto (R124, R127). -/
def Rule.spanOf (r : Rule) (e : Nat) : Option Nat := if r.spans.isEmpty then none else r.spans[e % (16 * r.spans.length) / 16]?

/-- A rule with some elements done. -/
def Rule.finish (r : Rule) (es : List Nat) : Rule := { r with done := es.foldl (fun m e => setBit m e true) r.done }

/-! ## Register lines -/

/-- The address of a register line in the image (R117, R398). -/
def Ctx.lineAddr (c : Ctx) (line : Nat) : Word := c.ctximg + BitVec.ofNat 64 (256 * line)

/-- Where the image holds the presence bits of a register line, behind the registers (R117, R398; log 31). -/
def Ctx.presenceAddr (c : Ctx) (line : Nat) : Word := c.ctximg + BitVec.ofNat 64 (0x400000 + 8 * line)

/-- The presence bits of a register line, one per grain (R117). -/
def Ctx.presenceBits (c : Ctx) (line : Nat) : Nat :=
  (List.range 64).foldl (fun n i => if c.absent.contains (64 * line + i) then n else n + 2 ^ i) 0

/-- Bytes of a context's image are written, without allocating in any cache (R118, log 6). The fault names the image address (R120). -/
def State.imagePut (s : State) (g : Agent) (va : Word) (size : Nat) (cells : List Host.Cell) : Except (Cause × Word) State :=
  match s.translate (placeOf g) (s.tenantOf g) .store false va with
  | .error f => .error (f, va)
  | .ok p => .ok ((s.fillTlb (placeOf g) (s.tenantOf g) .store va).imageStore p.pa size cells)

/-- `n` bytes of a context's image in one line are read at the home of their line (R118). -/
def State.imageGet (s : State) (g : Agent) (va : Word) (n : Nat) : Except (Cause × Word) (List Byte × State) :=
  match s.translate (placeOf g) (s.tenantOf g) .load false va with
  | .error f => .error (f, va)
  | .ok p =>
    match s.lineError p.pa n p.zero with
    | some f => .error (f, va)
    | none =>
      let s := (s.fillTlb (placeOf g) (s.tenantOf g) .load va).l2Fill (s.tenantOf g) (p.pa / 128) p.zero
      .ok (s.homeBytes p.pa n, s)

/-- A context with a register line as its image holds it, data and presence bits. -/
def Ctx.fetchLine (c : Ctx) (line : Nat) (data pres : List Byte) : Ctx :=
  { c with
    v := c.v.writeBytes (256 * line) data
    absent := c.absent.filter (fun x => x / 64 != line) ++
      ((List.range 64).filter fun i => bitOf (ofBytes pres) i == 0).map fun i => 64 * line + i }

/-- A register line leaves the register file of its core: a modified one is written back to the image, with its presence bits (R117,
R118). -/
def State.evictLine (s : State) (core j line : Nat) : Except (Cause × Word) State :=
  let g := Agent.ctx (8 * core + j)
  let c := s.getCtx g
  let drop := fun (s : State) (backed : Bool) =>
    let s := s.mapCtx g fun c => { c with
      v := c.v.clear (256 * line) (256 * line + 256)
      absent := c.absent.filter fun x => x / 64 != line
      dirty := c.dirty.filter (· != line)
      backed := if backed && !c.backed.contains line then line :: c.backed else c.backed }
    s.mapCore core fun k => { k with rf := k.rf.filter fun x => x != (j, line) }
  if c.dirty.contains line then
    match s.imagePut g (c.lineAddr line) 256 (c.v.slice (256 * line) (256 * line + 256)) with
    | .error e => .error e
    | .ok s => (s.imagePut g (c.presenceAddr line) 8 (fieldCells [(0, 8, c.presenceBits line)])).map fun s => drop s true
  else .ok (drop s false)

/-- The line to evict (R120): the least recently used of a context without a running task, else the least recently used that no
rule in flight pins. -/
def State.victim (s : State) (core : Nat) (pinned : Nat → Nat → Bool) : Option (Nat × Nat) :=
  let old := (s.core core).rf.reverse
  let asleep := fun j => match (s.getCtx (.ctx (8 * core + j))).hold with
    | .idle | .saved _ _ | .stopped | .barrier _ _ true => true
    | _ => false
  match old.find? fun x => asleep x.1 with
  | some x => some x
  | none => old.find? fun x => !pinned x.1 x.2

/-- The register line of a firing element or a write is resident afterwards, and most recently used; a line of the image is
fetched, a fresh one reads as zero (R118). The fault of a line names its image address (R120). -/
def State.needLine (s : State) (g : Agent) (pinned : Nat → Nat → Bool) (line : Nat) : Except (Cause × Word) State :=
  match g with
  | .handler _ _ _ => .ok s
  | .ctx id =>
    let core := id / 8
    let j := id % 8
    let use := fun s : State => s.mapCore core fun k => { k with rf := (j, line) :: k.rf.filter fun x => x != (j, line) }
    if (s.core core).rf.contains (j, line) then .ok (use s)
    else
      let c := s.getCtx g
      let got : Except (Cause × Word) State :=
        if c.allBacked || c.backed.contains line then
          match s.imageGet g (c.lineAddr line) 128 with
          | .error e => .error e
          | .ok (lo, s) =>
            match s.imageGet g (c.lineAddr line + 128) 128 with
            | .error e => .error e
            | .ok (hi, s) => (s.imageGet g (c.presenceAddr line) 8).map fun p =>
                p.2.mapCtx g fun c => c.fetchLine line (lo ++ hi) p.1
        else .ok s
      match got with
      | .error e => .error e
      | .ok s =>
        if Config.rfLines ≤ (s.core core).rf.length then
          match s.victim core pinned with
          | some (j', line') =>
            match s.evictLine core j' line' with
            | .ok s => .ok (use s)
            | .error e => .error e
          | none => .ok (use s)
        else .ok (use s)

/-- Every line of some places is resident afterwards. -/
def State.needLines (s : State) (g : Agent) (pinned : Nat → Nat → Bool) : List Nat → Except (Cause × Word) State
  | [] => .ok s
  | l :: ls =>
    match s.needLine g pinned l with
    | .ok s => State.needLines s g pinned ls
    | .error e => .error e

/-- Whether the register lines of some places are in the register file of the core, or fresh (R118). -/
def State.resident (s : State) (g : Agent) (ls : List Loc) : Bool :=
  match g with
  | .handler _ _ _ => true
  | .ctx id => (ls.flatMap Loc.lines).all fun l =>
      (s.core (id / 8)).rf.contains (id % 8, l) || !((s.getCtx g).allBacked || (s.getCtx g).backed.contains l)

/-- Whether a place holds a grain that the presence bits of its image, or of a level area, say is not present (R117, R398). -/
def Ctx.lacks (c : Ctx) (ls : List Loc) : Bool := ls.any fun l => l.grainList.any fun x => c.absent.contains x

/-- A write makes its grains present (R108, R109). -/
def Ctx.supply (c : Ctx) (ls : List Loc) : Ctx :=
  if c.absent.isEmpty then c else { c with absent := c.absent.filter fun x => !ls.any fun l => l.grainList.contains x }

/-! ## Errors that could not be corrected -/

/-- Whether a unit of an agent's own lies in a place: 64 bits of its vector registers, or a cell of its tiles (R421). -/
def State.unitIn (s : State) (g : Agent) (u : ErrUnit) : Loc → Bool
  | .v a n => match u with
    | .register h w => decide (h = g) && meets a n (8 * w) 8
    | _ => false
  | .cells t i m j n => match u with
    | .cell k x =>
      let tile := (((s.getCtx g).tileMap.toList[t]?).getD none).getD 4
      decide (some k = coreOf g) && x / 16384 == tile && decide (i ≤ x % 16384 / 128) && decide (x % 16384 / 128 < i + m) &&
      decide (j ≤ x % 128) && decide (x % 128 < j + n)
    | _ => false
  | .q _ _ _ | .layout _ => false

/-- Whether a consumer of some places finds a unit with an error that could not be corrected (R422). -/
def State.placesLost (s : State) (g : Agent) (ls : List Loc) : Bool := s.lostUnits.any fun u => ls.any (s.unitIn g u)

/-- Whether the entry of a rule, in the queue or in the rule store, has an error that could not be corrected (R421). -/
def State.ruleLost (s : State) (g : Agent) (r : Rule) : Bool := s.lostUnits.contains (.rule g r.seq)

/-- A write that covers a whole unit of the vector registers replaces it (R422). -/
def State.heal (s : State) (g : Agent) (ls : List Loc) : State :=
  { s with lostUnits := s.lostUnits.filter fun u => match u with
      | .register h w => decide (h ≠ g) || !ls.any fun l => match l with
          | .v a n => decide (a ≤ 8 * w) && decide (8 * w + 8 ≤ a + n)
          | _ => false
      | _ => true }

/-! ## Issue -/

/-- Whether an older `vldff` has not yet resolved vl (R130, R189). -/
def Ctx.vlUnresolved (c : Ctx) : Bool :=
  (c.rules ++ c.queue).any fun r => match r.instr with
    | .vldff _ _ _ _ => r.eng.phase == 0
    | _ => false

/-- The elements below the snapshotted vstart are done at issue (R111). -/
def Rule.begun (r : Rule) : Rule := { r with done := lowOnes r.vstart }

/-- A word enters the vector queue with its snapshot; its issue clears vstart (R107, R111). -/
def State.enqueue (s : State) (r : Rule) : State :=
  ({ s with ctx := { s.ctx with queue := s.ctx.queue ++ [r], vstart := 0, seq := s.ctx.seq + 1 } } : State).advance

/-- A word that takes a rule entry: `illegal` is the cause that R47 step 8 or its own entry gives, `r` its snapshot with its
operands. It waits for a place in the queue and for an unresolved `vldff` (R129, R130). -/
def issueRule (illegal : Option Cause) (r : Rule) (s : State) : Result :=
  match illegal with
  | some c => trap c 0 s
  | none => if s.ctx.vlUnresolved || s.ctx.queueFull then done s.stall else done (s.enqueue r.begun)

/-- The first cause of a list of checks that holds. -/
def firstCause : List (Bool × Cause) → Option Cause
  | [] => none
  | (b, c) :: t => if b then some c else firstCause t

end Sys2Proof.Machine
end

