-- ==== Sys2Proof/Machine/VectorArith.lean ====
section
/-! DEFINITION. Vector arithmetic, masks, permutes, reductions and conversions, majors 0x19-0x2F (12_vector_ops.md R271-R290).
A meaning checks and issues the word; `arithWork` says what its elements do. -/

namespace Sys2Proof.Machine

/-! ## Operations on one element -/

/-- The operations of R275 and vmerge. -/
inductive VOp where
  | add | sub | rsub | mul | mulh | div | rem | absd | min | max | sadd | ssub | and | or | xor | andn | sll | srl | sra | sgnj
  | fma | fms | fnma | merge
  deriving DecidableEq, Repr

/-- The predicates of R279. -/
inductive VCmp where
  | eq | ne | lt | le | ge
  deriving DecidableEq, Repr

/-- The functions of R290. -/
inductive VFun where
  | sqrt | rcp | rsqrt | exp2 | log2
  deriving DecidableEq, Repr

/-- The quotient of R243. -/
def intDiv (bits : Nat) (x y : Int) : Int := if y = 0 then 2 ^ bits - 1 else x.tdiv y
/-- The remainder of R243. -/
def intRem (x y : Int) : Int := if y = 0 then x else x.tmod y

/-- An integer operation before its result is narrowed (R275). -/
def VOp.int (op : VOp) (cls bits a b d : Nat) : Int :=
  let x := intValue cls bits a
  let y := intValue cls bits b
  let z := intValue cls bits d
  let s := b % bits
  match op with
  | .add => x + y
  | .sub => x - y
  | .rsub => y - x
  | .mul => x * y
  | .mulh => x * y / 2 ^ bits
  | .div => intDiv bits x y
  | .rem => intRem x y
  | .absd => ((x - y).natAbs : Int)
  | .min => if y < x then y else x
  | .max => if x < y then y else x
  | .sadd => clampInt (intRange cls bits) (x + y)
  | .ssub => clampInt (intRange cls bits) (x - y)
  | .sll => ((a % 2 ^ bits) * 2 ^ s : Nat)
  | .srl => ((a % 2 ^ bits) / 2 ^ s : Nat)
  | .sra => signedOf bits a / 2 ^ s
  | .fma => x * y + z
  | .fms => x * y - z
  | .fnma => z - x * y
  | .and | .or | .xor | .andn | .sgnj | .merge => x

/-- IEEE 754-2019 minimum and maximum (R275): -0 below +0, NaN from any NaN. The code of the operand that is taken. -/
def floatPick (f : Format) (larger : Bool) (a b : Nat) : Nat :=
  let x := f.value a
  let y := f.value b
  if x = .nan ∨ y = .nan then f.cnan
  else
    let below := x.lt y || (x.eq y && x.isNeg && !y.isNeg)
    if below == larger then b else a

/-- A float operation (R275): the code and its flags. -/
def VOp.float (op : VOp) (f : Format) (frm : Nat) (sat : Bool) (a b d : Nat) : Nat × Nat :=
  let x := f.value a
  let y := f.value b
  let z := f.value d
  let go := fun p : Val × Nat => let r := f.round frm sat p.1; (r.1, Nat.lor r.2 p.2)
  match op with
  | .add => go (x.add frm y)
  | .sub => go (x.add frm y.neg)
  | .rsub => go (y.add frm x.neg)
  | .mul => go (x.mul y)
  | .div => go (x.div y)
  | .absd =>
    let r := x.add frm y.neg
    go (match r.1 with
      | .fin _ n e k => .fin false n e k
      | .inf _ => .inf false
      | .nan => .nan, r.2)
  | .min => (floatPick f false a b, 0)
  | .max => (floatPick f true a b, 0)
  | .fma => go (x.fma frm y z)
  | .fms => go (x.fma frm y z.neg)
  | .fnma => go (x.neg.fma frm y z)
  | _ => (a, 0)

/-- One element of an arithmetic operation under a vtype (R275): a and b are the operands, d the old destination. -/
def VOp.apply (op : VOp) (vt : Word) (a b d : Nat) : Nat × Nat :=
  let bits := bitsOf vt
  let cls := clsOf vt
  match op with
  | .and => (Nat.land a b, 0)
  | .or => (Nat.lor a b, 0)
  | .xor => (Nat.xor a b, 0)
  | .andn => (Nat.land a (2 ^ bits - 1 - b % 2 ^ bits), 0)
  | .sgnj => (a % 2 ^ (bits - 1) + bitOf b (bits - 1) * 2 ^ (bits - 1), 0)
  | op =>
    if isIntCls cls then (codeOf bits (op.int cls bits a b d), 0)
    else op.float (formatOf cls (sewOf vt)) (frmOf vt) (satOf vt) a b d

/-- One element of a compare (R279). -/
def VCmp.holds (p : VCmp) (vt : Word) (a b : Nat) : Bool :=
  let cls := clsOf vt
  if cls = 6 then
    let same := a % 2 ^ bfpBits vt == b % 2 ^ bfpBits vt
    if p = .ne then !same else same
  else
    let x := valueOf cls (sewOf vt) a
    let y := valueOf cls (sewOf vt) b
    if x = .nan ∨ y = .nan then decide (p = .ne)
    else match p with
      | .eq => x.eq y
      | .ne => !x.eq y
      | .lt => x.lt y
      | .le => !y.lt x
      | .ge => !x.lt y

/-- One element of a function (R257, R290). -/
def VFun.apply (f : VFun) (vt : Word) (a : Nat) : Nat × Nat :=
  let fm := formatOf (clsOf vt) (sewOf vt)
  let v := fm.value a
  let p := match f with
    | .sqrt => v.sqrt
    | .rcp => v.rcp
    | .rsqrt => v.rsqrt
    | .exp2 => v.exp2
    | .log2 => v.log2
  let r := fm.round (frmOf vt) (satOf vt) p.1
  (r.1, Nat.lor r.2 p.2)

/-! ## Which class allows which operation -/

/-- The rows of the table of R272. -/
inductive ClassRow where
  | arith | intOnly | anyClass | signCopy | order | convert | bfpOnly | floatFun
  deriving DecidableEq, Repr

/-- The table of R272. -/
def ClassRow.allows (r : ClassRow) (cls : Nat) : Bool :=
  match r with
  | .arith | .order => decide (cls < 4)
  | .intOnly => decide (cls < 2)
  | .anyClass => true
  | .signCopy => decide (2 ≤ cls) && decide (cls < 6)
  | .convert => decide (cls < 6)
  | .bfpOnly => cls == 6
  | .floatFun => cls == 2 || cls == 3

/-- The row of an operation. -/
def VOp.row : VOp → ClassRow
  | .add | .sub | .rsub | .mul | .div | .absd | .min | .max | .fma | .fms | .fnma => .arith
  | .mulh | .rem | .sadd | .ssub | .sll | .srl | .sra => .intOnly
  | .and | .or | .xor | .andn | .merge => .anyClass
  | .sgnj => .signCopy

/-- The row of a predicate. -/
def VCmp.row : VCmp → ClassRow
  | .eq | .ne => .anyClass
  | _ => .order

/-! ## Works -/

/-- A rule that writes V[d].e from the same elements of some registers. -/
def Rule.lanewise (r : Rule) (g : Agent) (d : Nat) (srcs : List Nat) (m : Fin 4) (f : Nat → List Nat → Nat × Nat) : Work :=
  let n := bytesOf r.vtype
  let rd := fun e => srcs.map fun x => r.velem x n e
  let wr := fun e => [r.velem d n e]
  regWork g r.vl m (fun _ e => rd e) (fun _ e => wr e) rd wr false fun c e =>
    let p := f e (srcs.map fun x => c.elem r.wb x n e)
    (c.setElem r.wb d n e p.1).raise p.2

/-- A rule that writes Q[d].e from the same elements of some registers. -/
def Rule.maskwise (r : Rule) (g : Agent) (d : Nat) (srcs : List Nat) (m : Fin 4) (f : Nat → List Nat → Bool) : Work :=
  let n := bytesOf r.vtype
  let rd := fun e => srcs.map fun x => r.velem x n e
  let wr := fun e => [Loc.q d e 1]
  regWork g r.vl m (fun _ e => rd e) (fun _ e => wr e) rd wr false fun c e =>
    c.setMaskBit d e (f e (srcs.map fun x => c.elem r.wb x n e))

/-- An element of a list of operands. -/
def nth (xs : List Nat) (i : Nat) : Nat := (xs[i]?).getD 0

/-- A VV form (R275, R276). vmerge reads its mask as an operand, and only the source it selects. -/
def Rule.vv (r : Rule) (g : Agent) (op : VOp) (d a b : Nat) (m : Fin 4) : Work :=
  match op with
  | .merge =>
    let n := bytesOf r.vtype
    let pick := fun (c : Ctx) e => if c.maskBit m.val e then b else a
    regWork g r.vl 0 (fun c e => [.q m.val e 1, r.velem (pick c e) n e]) (fun _ e => [r.velem d n e])
      (fun e => [.q m.val e 1, r.velem a n e, r.velem b n e]) (fun e => [r.velem d n e]) false
      fun c e => c.setElem r.wb d n e (c.elem r.wb (pick c e) n e)
  | .fma | .fms | .fnma => r.lanewise g d [a, b, d] m fun _ xs => op.apply r.vtype (nth xs 0) (nth xs 1) (nth xs 2)
  | _ => r.lanewise g d [a, b] m fun _ xs => op.apply r.vtype (nth xs 0) (nth xs 1) 0

/-- A VX or VI form: the b operand is a captured scalar or an immediate (R274, R277). -/
def Rule.vx (r : Rule) (g : Agent) (op : VOp) (d a : Nat) (m : Fin 4) (b : Nat) : Work :=
  let n := bytesOf r.vtype
  let x := b % 2 ^ (8 * n)
  match op with
  | .merge =>
    regWork g r.vl 0 (fun c e => if c.maskBit m.val e then [.q m.val e 1] else [.q m.val e 1, r.velem a n e])
      (fun _ e => [r.velem d n e]) (fun e => [.q m.val e 1, r.velem a n e]) (fun e => [r.velem d n e]) false
      fun c e => c.setElem r.wb d n e (if c.maskBit m.val e then x else c.elem r.wb a n e)
  | .fma | .fms | .fnma => r.lanewise g d [a, d] m fun _ xs => op.apply r.vtype (nth xs 0) x (nth xs 1)
  | _ => r.lanewise g d [a] m fun _ xs => op.apply r.vtype (nth xs 0) x 0

/-- The mask bits below a number of q register `n`, and of the governing mask. -/
def maskLocs (n : Nat) (m : Fin 4) (count : Nat) : List Loc :=
  if m.val = 0 then [.q n 0 count] else [.q n 0 count, .q m.val 0 count]

/-- Whether vcompress and vexpand select element e (R280). -/
def Ctx.selects (c : Ctx) (m : Fin 4) (qb e : Nat) : Bool := (c.governing m).getLsbD e && c.maskBit qb e

/-- How many elements below e are selected. -/
def Ctx.selectedBelow (c : Ctx) (m : Fin 4) (qb e : Nat) : Nat := ((List.range e).filter (c.selects m qb)).length

/-- The places of V[d] that a vcompress has not written: the k-th selected element writes place k (R280). -/
def Rule.unfilled (r : Rule) (c : Ctx) (qb : Nat) (m : Fin 4) : List Nat :=
  let chosen := (List.range r.vl).filter (c.selects m qb)
  (List.range r.vl).filter fun i => match chosen[i]? with
    | some e => !r.done.getLsbD e
    | none => true

/-- vcompress (R280): source element e goes to the place that the mask bits below it count. While a mask grain below vl is not present,
every place not written is pending, told by the last element, which is not done then; afterwards those still to be written. -/
def Rule.compress (r : Rule) (g : Agent) (d a qb : Nat) (m : Fin 4) : Work :=
  let n := bytesOf r.vtype
  let dst := fun (c : Ctx) e => c.selectedBelow m qb e
  { regWork g r.vl 0
      (fun c e => maskLocs qb m (e + 1) ++ if c.selects m qb e then [r.velem a n e] else [])
      (fun c e => if c.selects m qb e then [r.velem d n (dst c e)] else [])
      (fun e => maskLocs qb m (e + 1) ++ [r.velem a n e]) (fun _ => r.vgroup d n r.vl) true
      fun c e => if c.selects m qb e then c.setElem r.wb d n (dst c e) (c.elem r.wb a n e) else c with
    still := fun present c e =>
      if present (maskLocs qb m r.vl) then (if c.selects m qb e then [r.velem d n (dst c e)] else [])
      else if e + 1 = r.vl then (r.unfilled c qb m).map (r.velem d n) else [] }

/-- vexpand (R280): the k-th source element goes to the k-th selected place. Which places are pending is as for vcompress. -/
def Rule.expand (r : Rule) (g : Agent) (d a qb : Nat) (m : Fin 4) : Work :=
  let n := bytesOf r.vtype
  let src := fun (c : Ctx) e => c.selectedBelow m qb e
  { regWork g r.vl 0
      (fun c e => maskLocs qb m (e + 1) ++ if c.selects m qb e then [r.velem a n (src c e)] else [])
      (fun c e => if c.selects m qb e then [r.velem d n e] else [])
      (fun e => maskLocs qb m (e + 1) ++ r.vgroup a n (e + 1)) (fun e => [r.velem d n e]) true
      fun c e => if c.selects m qb e then c.setElem r.wb d n e (c.elem r.wb a n (src c e)) else c with
    still := fun present c e =>
      if present (maskLocs qb m r.vl) then (if c.selects m qb e then [r.velem d n e] else [])
      else if e + 1 = r.vl then
        ((List.range r.vl).filter fun i => !(r.done.getLsbD i && c.selects m qb i)).map (r.velem d n)
      else [] }

/-- vpick (R281). -/
def Rule.pick (r : Rule) (g : Agent) (d a b : Nat) (m : Fin 4) : Work :=
  let n := bytesOf r.vtype
  let top := vlmax r.vtype
  let at' := fun (c : Ctx) e => c.elem r.wb b n e
  { regWork g r.vl m
      (fun c e => r.velem b n e :: if at' c e < top then [r.velem a n (at' c e)] else [])
      (fun _ e => [r.velem d n e]) (fun e => r.velem b n e :: r.vgroup a n top) (fun e => [r.velem d n e]) true
      fun c e => c.setElem r.wb d n e (if at' c e < top then c.elem r.wb a n (at' c e) else 0) with
    addrs := fun e => [r.velem b n e] }

/-- A permute whose element e comes from a place `src e` of V[a], or from a value, or stays (R281, R282). -/
def Rule.move (r : Rule) (g : Agent) (d a : Nat) (m : Fin 4) (src : Nat → Option (Nat ⊕ Nat)) : Work :=
  let n := bytesOf r.vtype
  let rd := fun e => match src e with
    | some (.inl i) => [r.velem a n i]
    | _ => []
  let wr := fun e => match src e with
    | none => []
    | some _ => [r.velem d n e]
  regWork g r.vl m (fun _ e => rd e) (fun _ e => wr e) rd wr true fun c e =>
    match src e with
    | some (.inl i) => c.setElem r.wb d n e (c.elem r.wb a n i)
    | some (.inr x) => c.setElem r.wb d n e (x % 2 ^ (8 * n))
    | none => c

/-! ## Reductions -/

/-- One addition of a reduction (R256): the code and its flags. -/
def addCodes (vt : Word) (a b : Nat) : Nat × Nat := VOp.add.apply vt a b 0

/-- The ordered sum from a start (R256). -/
def orderedSum (vt : Word) : Nat × Nat → List Nat → Nat × Nat
  | s, [] => s
  | s, x :: xs => let p := addCodes vt s.1 x; orderedSum vt (p.1, Nat.lor s.2 p.2) xs

/-- One level of the tree: neighbours are added. -/
def pairSums (vt : Word) : List Nat → List Nat × Nat
  | a :: b :: t =>
    let p := addCodes vt a b
    let rest := pairSums vt t
    (p.1 :: rest.1, Nat.lor p.2 rest.2)
  | xs => (xs, 0)

/-- The levels of the tree until one node remains. -/
def treeSum (vt : Word) : Nat → List Nat × Nat → List Nat × Nat
  | 0, p => p
  | k + 1, (xs, f) => let p := pairSums vt xs; treeSum vt k (p.1, Nat.lor f p.2)

/-- The reductions of R283. -/
inductive VRed where
  | sumO | sumT | min | max
  deriving DecidableEq, Repr

/-- The value of a leaf that is not active: -0, or 0 under an integer class (R256). -/
def quietLeaf (vt : Word) : Nat := if isIntCls (clsOf vt) then 0 else (formatOf (clsOf vt) (sewOf vt)).signBit

/-- A reduction over elements, none where an element is not active, from an initial value (R256, R283). -/
def VRed.apply (k : VRed) (vt : Word) (init : Nat) (xs : List (Option Nat)) : Nat × Nat :=
  let fm := formatOf (clsOf vt) (sewOf vt)
  let live := xs.filterMap id
  if live.isEmpty then
    (if !isIntCls (clsOf vt) && decide (fm.value init = .nan) then fm.cnan else init, 0)
  else match k with
    | .sumO => orderedSum vt (init, 0) live
    | .sumT =>
      let k := bitLength (xs.length - 1)
      let leaves := xs.map (fun x => x.getD (quietLeaf vt)) ++ List.replicate (2 ^ k - xs.length) (quietLeaf vt)
      let t := treeSum vt k (leaves, 0)
      let p := addCodes vt init (nth t.1 0)
      (p.1, Nat.lor t.2 p.2)
    | .min => (live.foldl (fun s x => (VOp.min.apply vt s x 0).1) init, 0)
    | .max => (live.foldl (fun s x => (VOp.max.apply vt s x 0).1) init, 0)

/-- A reduction fires element 0 once (R283). -/
def Rule.reduce (r : Rule) (g : Agent) (k : VRed) (d a b : Nat) (m : Fin 4) : Work :=
  let n := bytesOf r.vtype
  let es := List.range r.vl
  let masks := if m.val = 0 then [] else [Loc.q m.val 0 r.vl]
  let live := fun (c : Ctx) => es.filter fun e => (c.governing m).getLsbD e
  regWork g (min 1 r.vl) 0
    (fun c _ => r.velem b n 0 :: masks ++ (live c).map fun e => r.velem a n e)
    (fun _ _ => [r.velem d n 0]) (fun _ => r.velem b n 0 :: masks ++ r.vgroup a n r.vl) (fun _ => [r.velem d n 0]) false
    fun c _ =>
      let p := k.apply r.vtype (c.elem r.wb b n 0)
        (es.map fun e => if (c.governing m).getLsbD e then some (c.elem r.wb a n e) else none)
      (c.setElem r.wb d n 0 p.1).raise p.2

/-! ## Masks and conversions -/

/-- qand, qor, qxor and qandn (R284). -/
def Rule.qlogic (r : Rule) (g : Agent) (f : Bool → Bool → Bool) (d a b : Nat) : Work :=
  regWork g r.vl 0 (fun _ e => [.q a e 1, .q b e 1]) (fun _ e => [.q d e 1]) (fun e => [.q a e 1, .q b e 1])
    (fun e => [.q d e 1]) false fun c e => c.setMaskBit d e (f (c.maskBit a e) (c.maskBit b e))

/-- vcvt (R287): the type code is the b field. -/
def Rule.cvt (r : Rule) (g : Agent) (d a code : Nat) (m : Fin 4) : Work :=
  let n := bytesOf r.vtype
  let k := 2 ^ (code % 4)
  regWork g r.vl m (fun _ e => [r.velem a n e]) (fun _ e => [r.velem d k e]) (fun e => [r.velem a n e])
    (fun e => [r.velem d k e]) true fun c e =>
      let p := convert (clsOf r.vtype) (sewOf r.vtype) (code / 4) (code % 4) (frmOf r.vtype) (satOf r.vtype) (c.elem r.wb a n e)
      (c.setElem r.wb d k e p.1).raise p.2

/-- vtobfp (R288): the first element of a block stands for the block, which fires once. -/
def Rule.tobfp (r : Rule) (g : Agent) (d a b : Nat) (m : Fin 4) : Work :=
  let k := blockOf r.vtype
  let block := fun e => (List.range k).filterMap fun i => if e + i < r.vl then some (e + i) else none
  let masks := fun e => if m.val = 0 then [] else [Loc.q m.val e k]
  let live := fun (c : Ctx) e => (block e).filter fun i => (c.governing m).getLsbD i
  let all := fun e => block (e / k * k)
  { count := r.vl, span := all, whole := true, lanes := true, ordered := anyMeets (r.vgroup d 1 r.vl) (r.vgroup b 1 (ceilDiv r.vl k))
    still := fun present c e =>
      if e % k = 0 then
        r.velem b 1 (e / k) :: ((block e).filter fun i => (c.governing m).getLsbD i || !present [.q m.val i 1]).map fun i => r.velem d 1 i
      else []
    reads := fun c e => masks (e / k * k) ++ (live c (e / k * k)).map fun i => r.velem a 4 i
    writes := fun c e => r.velem b 1 (e / k) :: (live c (e / k * k)).map fun i => r.velem d 1 i
    holds := fun e => if e % k = 0 then masks e ++ (block e).map fun i => r.velem a 4 i else []
    pends := fun e => if e % k = 0 then r.velem b 1 (e / k) :: (block e).map fun i => r.velem d 1 i else []
    fire := fun s e =>
      if e % k ≠ 0 then .wait s else
      let c := s.getCtx g
      let es := live c e
      let p := toBfpBlock (bfpBits r.vtype) (frmOf r.vtype) (es.map fun i => binary32.value (c.elem r.wb a 4 i))
      let c := (es.zip p.2.1).foldl (fun (c : Ctx) x => c.setElem r.wb d 1 x.1 (codeOf 8 x.2)) (c.setElem r.wb b 1 (e / k) p.1)
      .ok (s.setCtx (c.raise p.2.2)) }

/-- vfrombfp (R289). -/
def Rule.frombfp (r : Rule) (g : Agent) (d a b : Nat) (m : Fin 4) : Work :=
  let k := blockOf r.vtype
  let rd := fun e => [r.velem a 1 e, r.velem b 1 (e / k)]
  let wr := fun e => [r.velem d 4 e]
  regWork g r.vl m (fun _ e => rd e) (fun _ e => wr e) rd wr true fun c e =>
    let p := binary32.round (frmOf r.vtype) false (bfpValue (bfpBits r.vtype) (c.elem r.wb a 1 e) (c.elem r.wb b 1 (e / k)))
    (c.setElem r.wb d 4 e p.1).raise p.2

/-- The signed value of an 8-bit immediate. -/
def imm8 (i : BitVec 8) : Int := i.toInt

/-- What the elements of a rule of majors 0x19-0x2F do; none for any other instruction. -/
def arithWork (g : Agent) (r : Rule) : Option Work :=
  let n := bytesOf r.vtype
  let k := r.opB.toNat
  match r.instr with
  | .vaddVv d a b m _ => some (r.vv g .add d.val a.val b.val m)
  | .vsubVv d a b m _ => some (r.vv g .sub d.val a.val b.val m)
  | .vrsubVv d a b m _ => some (r.vv g .rsub d.val a.val b.val m)
  | .vmulVv d a b m _ => some (r.vv g .mul d.val a.val b.val m)
  | .vmulhVv d a b m _ => some (r.vv g .mulh d.val a.val b.val m)
  | .vdivVv d a b m _ => some (r.vv g .div d.val a.val b.val m)
  | .vremVv d a b m _ => some (r.vv g .rem d.val a.val b.val m)
  | .vabsdVv d a b m _ => some (r.vv g .absd d.val a.val b.val m)
  | .vminVv d a b m _ => some (r.vv g .min d.val a.val b.val m)
  | .vmaxVv d a b m _ => some (r.vv g .max d.val a.val b.val m)
  | .vsaddVv d a b m _ => some (r.vv g .sadd d.val a.val b.val m)
  | .vssubVv d a b m _ => some (r.vv g .ssub d.val a.val b.val m)
  | .vandVv d a b m _ => some (r.vv g .and d.val a.val b.val m)
  | .vorVv d a b m _ => some (r.vv g .or d.val a.val b.val m)
  | .vxorVv d a b m _ => some (r.vv g .xor d.val a.val b.val m)
  | .vandnVv d a b m _ => some (r.vv g .andn d.val a.val b.val m)
  | .vsllVv d a b m _ => some (r.vv g .sll d.val a.val b.val m)
  | .vsrlVv d a b m _ => some (r.vv g .srl d.val a.val b.val m)
  | .vsraVv d a b m _ => some (r.vv g .sra d.val a.val b.val m)
  | .vsgnjVv d a b m _ => some (r.vv g .sgnj d.val a.val b.val m)
  | .vfmaVv d a b m _ => some (r.vv g .fma d.val a.val b.val m)
  | .vfmsVv d a b m _ => some (r.vv g .fms d.val a.val b.val m)
  | .vfnmaVv d a b m _ => some (r.vv g .fnma d.val a.val b.val m)
  | .vmergeVv d a b m _ => some (r.vv g .merge d.val a.val b.val m)
  | .vaddVx d a _ m _ => some (r.vx g .add d.val a.val m k)
  | .vaddi d a i m => some (r.vx g .add d.val a.val m (codeOf 64 (imm8 i)))
  | .vsubVx d a _ m _ => some (r.vx g .sub d.val a.val m k)
  | .vrsubVx d a _ m _ => some (r.vx g .rsub d.val a.val m k)
  | .vmulVx d a _ m _ => some (r.vx g .mul d.val a.val m k)
  | .vmulhVx d a _ m _ => some (r.vx g .mulh d.val a.val m k)
  | .vdivVx d a _ m _ => some (r.vx g .div d.val a.val m k)
  | .vremVx d a _ m _ => some (r.vx g .rem d.val a.val m k)
  | .vabsdVx d a _ m _ => some (r.vx g .absd d.val a.val m k)
  | .vminVx d a _ m _ => some (r.vx g .min d.val a.val m k)
  | .vmaxVx d a _ m _ => some (r.vx g .max d.val a.val m k)
  | .vsaddVx d a _ m _ => some (r.vx g .sadd d.val a.val m k)
  | .vssubVx d a _ m _ => some (r.vx g .ssub d.val a.val m k)
  | .vandVx d a _ m _ => some (r.vx g .and d.val a.val m k)
  | .vorVx d a _ m _ => some (r.vx g .or d.val a.val m k)
  | .vxorVx d a _ m _ => some (r.vx g .xor d.val a.val m k)
  | .vandnVx d a _ m _ => some (r.vx g .andn d.val a.val m k)
  | .vsllVx d a _ m _ => some (r.vx g .sll d.val a.val m k)
  | .vslli d a i m => some (r.vx g .sll d.val a.val m i.toNat)
  | .vsrlVx d a _ m _ => some (r.vx g .srl d.val a.val m k)
  | .vsrli d a i m => some (r.vx g .srl d.val a.val m i.toNat)
  | .vsraVx d a _ m _ => some (r.vx g .sra d.val a.val m k)
  | .vsrai d a i m => some (r.vx g .sra d.val a.val m i.toNat)
  | .vsgnjVx d a _ m _ => some (r.vx g .sgnj d.val a.val m k)
  | .vfmaVx d a _ m _ => some (r.vx g .fma d.val a.val m k)
  | .vfmsVx d a _ m _ => some (r.vx g .fms d.val a.val m k)
  | .vfnmaVx d a _ m _ => some (r.vx g .fnma d.val a.val m k)
  | .vmergeVx d a _ m _ => some (r.vx g .merge d.val a.val m k)
  | .vidx d i t => some (r.lanewise g d.val [] 0 fun e _ => (codeOf (8 * n) (imm8 i + e * imm8 t), 0))
  | .vbcsti d i => some (r.lanewise g d.val [] 0 fun _ _ => (codeOf (8 * n) (imm8 i), 0))
  | .veqVv d a b m _ => some (r.maskwise g d.val [a.val, b.val] m fun _ xs => VCmp.eq.holds r.vtype (nth xs 0) (nth xs 1))
  | .vneVv d a b m _ => some (r.maskwise g d.val [a.val, b.val] m fun _ xs => VCmp.ne.holds r.vtype (nth xs 0) (nth xs 1))
  | .vltVv d a b m _ => some (r.maskwise g d.val [a.val, b.val] m fun _ xs => VCmp.lt.holds r.vtype (nth xs 0) (nth xs 1))
  | .vle d a b m _ => some (r.maskwise g d.val [a.val, b.val] m fun _ xs => VCmp.le.holds r.vtype (nth xs 0) (nth xs 1))
  | .veqVx d a _ m _ => some (r.maskwise g d.val [a.val] m fun _ xs => VCmp.eq.holds r.vtype (nth xs 0) (k % 2 ^ (8 * n)))
  | .vneVx d a _ m _ => some (r.maskwise g d.val [a.val] m fun _ xs => VCmp.ne.holds r.vtype (nth xs 0) (k % 2 ^ (8 * n)))
  | .vltVx d a _ m _ => some (r.maskwise g d.val [a.val] m fun _ xs => VCmp.lt.holds r.vtype (nth xs 0) (k % 2 ^ (8 * n)))
  | .vge d a _ m _ => some (r.maskwise g d.val [a.val] m fun _ xs => VCmp.ge.holds r.vtype (nth xs 0) (k % 2 ^ (8 * n)))
  | .vcompress d a b m _ => some (r.compress g d.val a.val b.val m)
  | .vexpand d a b m _ => some (r.expand g d.val a.val b.val m)
  | .vpick d a b m _ => some (r.pick g d.val a.val b.val m)
  | .vrev d a m _ => some (r.move g d.val a.val m fun e => some (.inl (r.vl - 1 - e)))
  | .vshup d a _ m _ => some (r.move g d.val a.val m fun e => if k ≤ e then some (.inl (e - k)) else none)
  | .vshdn d a _ m _ => some (r.move g d.val a.val m fun e =>
      some (if e + k < vlmax r.vtype then .inl (e + k) else .inr 0))
  | .vinsup d a _ m _ => some (r.move g d.val a.val m fun e => some (if e = 0 then .inr k else .inl (e - 1)))
  | .vinsdn d a _ m _ => some (r.move g d.val a.val m fun e => some (if e + 1 = r.vl then .inr k else .inl (e + 1)))
  | .vredsumO d a b m _ => some (r.reduce g .sumO d.val a.val b.val m)
  | .vredsumT d a b m _ => some (r.reduce g .sumT d.val a.val b.val m)
  | .vredmin d a b m _ => some (r.reduce g .min d.val a.val b.val m)
  | .vredmax d a b m _ => some (r.reduce g .max d.val a.val b.val m)
  | .qand d a b => some (r.qlogic g and d.val a.val b.val)
  | .qor d a b => some (r.qlogic g or d.val a.val b.val)
  | .qxor d a b => some (r.qlogic g xor d.val a.val b.val)
  | .qandn d a b => some (r.qlogic g (fun x y => x && !y) d.val a.val b.val)
  | .vbitq d a _ m _ => some (r.maskwise g d.val [a.val] m fun _ xs => decide (k < 8 * n) && bitOf (nth xs 0) k == 1)
  | .vpopc d a m _ => some (r.lanewise g d.val [a.val] m fun _ xs => (popcount 64 (nth xs 0), 0))
  | .vcvt d a b m _ => some (r.cvt g d.val a.val b.val m)
  | .vtobfp d a b m _ => some (r.tobfp g d.val a.val b.val m)
  | .vfrombfp d a b m _ => some (r.frombfp g d.val a.val b.val m)
  | .vlog2 d a m _ => some (r.lanewise g d.val [a.val] m fun _ xs => VFun.log2.apply r.vtype (nth xs 0))
  | .vsqrt d a m _ => some (r.lanewise g d.val [a.val] m fun _ xs => VFun.sqrt.apply r.vtype (nth xs 0))
  | .vrcp d a m _ => some (r.lanewise g d.val [a.val] m fun _ xs => VFun.rcp.apply r.vtype (nth xs 0))
  | .vrsqrt d a m _ => some (r.lanewise g d.val [a.val] m fun _ xs => VFun.rsqrt.apply r.vtype (nth xs 0))
  | .vexp2 d a m _ => some (r.lanewise g d.val [a.val] m fun _ xs => VFun.exp2.apply r.vtype (nth xs 0))
  | _ => none

/-! ## Meanings -/

/-- Issues a word whose class must stand in a row of R272. -/
def issueClass (row : ClassRow) (r : Rule) (s : State) : Result :=
  issueRule (if row.allows (clsOf s.ctx.vtype) then none else some .illop) r s

/-- Issues a word that also needs vstart 0 (R280, R283, R288). -/
def issueWhole (row : ClassRow) (r : Rule) (s : State) : Result :=
  issueRule (firstCause [(!row.allows (clsOf s.ctx.vtype), .illop), (decide (s.ctx.vstart ≠ 0), .illcfg)]) r s

/-- The snapshot of a word whose b field is a scalar register (R107). -/
def State.snapshotB (s : State) (i : Instr) (b : Reg) : Rule := { s.snapshot i with opB := s.getX b }

/-- vadd, vector-vector (R275). -/
def execVaddVv (d a b : Reg) (m : Fin 4) (dt : Bool) (s : State) : Result :=
  issueClass VOp.add.row (s.snapshot (.vaddVv d a b m dt)) s
/-- vsub, vector-vector (R275). -/
def execVsubVv (d a b : Reg) (m : Fin 4) (dt : Bool) (s : State) : Result :=
  issueClass VOp.sub.row (s.snapshot (.vsubVv d a b m dt)) s
/-- vrsub, vector-vector (R275). -/
def execVrsubVv (d a b : Reg) (m : Fin 4) (dt : Bool) (s : State) : Result :=
  issueClass VOp.rsub.row (s.snapshot (.vrsubVv d a b m dt)) s
/-- vmul, vector-vector (R275). -/
def execVmulVv (d a b : Reg) (m : Fin 4) (dt : Bool) (s : State) : Result :=
  issueClass VOp.mul.row (s.snapshot (.vmulVv d a b m dt)) s
/-- vmulh, vector-vector (R275). -/
def execVmulhVv (d a b : Reg) (m : Fin 4) (dt : Bool) (s : State) : Result :=
  issueClass VOp.mulh.row (s.snapshot (.vmulhVv d a b m dt)) s
/-- vdiv, vector-vector (R275). -/
def execVdivVv (d a b : Reg) (m : Fin 4) (dt : Bool) (s : State) : Result :=
  issueClass VOp.div.row (s.snapshot (.vdivVv d a b m dt)) s
/-- vrem, vector-vector (R275). -/
def execVremVv (d a b : Reg) (m : Fin 4) (dt : Bool) (s : State) : Result :=
  issueClass VOp.rem.row (s.snapshot (.vremVv d a b m dt)) s
/-- vabsd, vector-vector (R275). -/
def execVabsdVv (d a b : Reg) (m : Fin 4) (dt : Bool) (s : State) : Result :=
  issueClass VOp.absd.row (s.snapshot (.vabsdVv d a b m dt)) s
/-- vmin, vector-vector (R275). -/
def execVminVv (d a b : Reg) (m : Fin 4) (dt : Bool) (s : State) : Result :=
  issueClass VOp.min.row (s.snapshot (.vminVv d a b m dt)) s
/-- vmax, vector-vector (R275). -/
def execVmaxVv (d a b : Reg) (m : Fin 4) (dt : Bool) (s : State) : Result :=
  issueClass VOp.max.row (s.snapshot (.vmaxVv d a b m dt)) s
/-- vsadd, vector-vector (R275). -/
def execVsaddVv (d a b : Reg) (m : Fin 4) (dt : Bool) (s : State) : Result :=
  issueClass VOp.sadd.row (s.snapshot (.vsaddVv d a b m dt)) s
/-- vssub, vector-vector (R275). -/
def execVssubVv (d a b : Reg) (m : Fin 4) (dt : Bool) (s : State) : Result :=
  issueClass VOp.ssub.row (s.snapshot (.vssubVv d a b m dt)) s
/-- vand, vector-vector (R275). -/
def execVandVv (d a b : Reg) (m : Fin 4) (dt : Bool) (s : State) : Result :=
  issueClass VOp.and.row (s.snapshot (.vandVv d a b m dt)) s
/-- vor, vector-vector (R275). -/
def execVorVv (d a b : Reg) (m : Fin 4) (dt : Bool) (s : State) : Result :=
  issueClass VOp.or.row (s.snapshot (.vorVv d a b m dt)) s
/-- vxor, vector-vector (R275). -/
def execVxorVv (d a b : Reg) (m : Fin 4) (dt : Bool) (s : State) : Result :=
  issueClass VOp.xor.row (s.snapshot (.vxorVv d a b m dt)) s
/-- vandn, vector-vector (R275). -/
def execVandnVv (d a b : Reg) (m : Fin 4) (dt : Bool) (s : State) : Result :=
  issueClass VOp.andn.row (s.snapshot (.vandnVv d a b m dt)) s
/-- vsll, vector-vector (R275). -/
def execVsllVv (d a b : Reg) (m : Fin 4) (dt : Bool) (s : State) : Result :=
  issueClass VOp.sll.row (s.snapshot (.vsllVv d a b m dt)) s
/-- vsrl, vector-vector (R275). -/
def execVsrlVv (d a b : Reg) (m : Fin 4) (dt : Bool) (s : State) : Result :=
  issueClass VOp.srl.row (s.snapshot (.vsrlVv d a b m dt)) s
/-- vsra, vector-vector (R275). -/
def execVsraVv (d a b : Reg) (m : Fin 4) (dt : Bool) (s : State) : Result :=
  issueClass VOp.sra.row (s.snapshot (.vsraVv d a b m dt)) s
/-- vsgnj, vector-vector (R275). -/
def execVsgnjVv (d a b : Reg) (m : Fin 4) (dt : Bool) (s : State) : Result :=
  issueClass VOp.sgnj.row (s.snapshot (.vsgnjVv d a b m dt)) s
/-- vfma, vector-vector (R275). -/
def execVfmaVv (d a b : Reg) (m : Fin 4) (dt : Bool) (s : State) : Result :=
  issueClass VOp.fma.row (s.snapshot (.vfmaVv d a b m dt)) s
/-- vfms, vector-vector (R275). -/
def execVfmsVv (d a b : Reg) (m : Fin 4) (dt : Bool) (s : State) : Result :=
  issueClass VOp.fms.row (s.snapshot (.vfmsVv d a b m dt)) s
/-- vfnma, vector-vector (R275). -/
def execVfnmaVv (d a b : Reg) (m : Fin 4) (dt : Bool) (s : State) : Result :=
  issueClass VOp.fnma.row (s.snapshot (.vfnmaVv d a b m dt)) s
/-- vmerge, vector-vector (R276). -/
def execVmergeVv (d a b : Reg) (m : Fin 4) (dt : Bool) (s : State) : Result :=
  issueClass VOp.merge.row (s.snapshot (.vmergeVv d a b m dt)) s
/-- vadd, vector-scalar (R275). -/
def execVaddVx (d a b : Reg) (m : Fin 4) (dt : Bool) (s : State) : Result :=
  issueClass VOp.add.row (s.snapshotB (.vaddVx d a b m dt) b) s
/-- vsub, vector-scalar (R275). -/
def execVsubVx (d a b : Reg) (m : Fin 4) (dt : Bool) (s : State) : Result :=
  issueClass VOp.sub.row (s.snapshotB (.vsubVx d a b m dt) b) s
/-- vrsub, vector-scalar (R275). -/
def execVrsubVx (d a b : Reg) (m : Fin 4) (dt : Bool) (s : State) : Result :=
  issueClass VOp.rsub.row (s.snapshotB (.vrsubVx d a b m dt) b) s
/-- vmul, vector-scalar (R275). -/
def execVmulVx (d a b : Reg) (m : Fin 4) (dt : Bool) (s : State) : Result :=
  issueClass VOp.mul.row (s.snapshotB (.vmulVx d a b m dt) b) s
/-- vmulh, vector-scalar (R275). -/
def execVmulhVx (d a b : Reg) (m : Fin 4) (dt : Bool) (s : State) : Result :=
  issueClass VOp.mulh.row (s.snapshotB (.vmulhVx d a b m dt) b) s
/-- vdiv, vector-scalar (R275). -/
def execVdivVx (d a b : Reg) (m : Fin 4) (dt : Bool) (s : State) : Result :=
  issueClass VOp.div.row (s.snapshotB (.vdivVx d a b m dt) b) s
/-- vrem, vector-scalar (R275). -/
def execVremVx (d a b : Reg) (m : Fin 4) (dt : Bool) (s : State) : Result :=
  issueClass VOp.rem.row (s.snapshotB (.vremVx d a b m dt) b) s
/-- vabsd, vector-scalar (R275). -/
def execVabsdVx (d a b : Reg) (m : Fin 4) (dt : Bool) (s : State) : Result :=
  issueClass VOp.absd.row (s.snapshotB (.vabsdVx d a b m dt) b) s
/-- vmin, vector-scalar (R275). -/
def execVminVx (d a b : Reg) (m : Fin 4) (dt : Bool) (s : State) : Result :=
  issueClass VOp.min.row (s.snapshotB (.vminVx d a b m dt) b) s
/-- vmax, vector-scalar (R275). -/
def execVmaxVx (d a b : Reg) (m : Fin 4) (dt : Bool) (s : State) : Result :=
  issueClass VOp.max.row (s.snapshotB (.vmaxVx d a b m dt) b) s
/-- vsadd, vector-scalar (R275). -/
def execVsaddVx (d a b : Reg) (m : Fin 4) (dt : Bool) (s : State) : Result :=
  issueClass VOp.sadd.row (s.snapshotB (.vsaddVx d a b m dt) b) s
/-- vssub, vector-scalar (R275). -/
def execVssubVx (d a b : Reg) (m : Fin 4) (dt : Bool) (s : State) : Result :=
  issueClass VOp.ssub.row (s.snapshotB (.vssubVx d a b m dt) b) s
/-- vand, vector-scalar (R275). -/
def execVandVx (d a b : Reg) (m : Fin 4) (dt : Bool) (s : State) : Result :=
  issueClass VOp.and.row (s.snapshotB (.vandVx d a b m dt) b) s
/-- vor, vector-scalar (R275). -/
def execVorVx (d a b : Reg) (m : Fin 4) (dt : Bool) (s : State) : Result :=
  issueClass VOp.or.row (s.snapshotB (.vorVx d a b m dt) b) s
/-- vxor, vector-scalar (R275). -/
def execVxorVx (d a b : Reg) (m : Fin 4) (dt : Bool) (s : State) : Result :=
  issueClass VOp.xor.row (s.snapshotB (.vxorVx d a b m dt) b) s
/-- vandn, vector-scalar (R275). -/
def execVandnVx (d a b : Reg) (m : Fin 4) (dt : Bool) (s : State) : Result :=
  issueClass VOp.andn.row (s.snapshotB (.vandnVx d a b m dt) b) s
/-- vsll, vector-scalar (R275). -/
def execVsllVx (d a b : Reg) (m : Fin 4) (dt : Bool) (s : State) : Result :=
  issueClass VOp.sll.row (s.snapshotB (.vsllVx d a b m dt) b) s
/-- vsrl, vector-scalar (R275). -/
def execVsrlVx (d a b : Reg) (m : Fin 4) (dt : Bool) (s : State) : Result :=
  issueClass VOp.srl.row (s.snapshotB (.vsrlVx d a b m dt) b) s
/-- vsra, vector-scalar (R275). -/
def execVsraVx (d a b : Reg) (m : Fin 4) (dt : Bool) (s : State) : Result :=
  issueClass VOp.sra.row (s.snapshotB (.vsraVx d a b m dt) b) s
/-- vsgnj, vector-scalar (R275). -/
def execVsgnjVx (d a b : Reg) (m : Fin 4) (dt : Bool) (s : State) : Result :=
  issueClass VOp.sgnj.row (s.snapshotB (.vsgnjVx d a b m dt) b) s
/-- vfma, vector-scalar (R275). -/
def execVfmaVx (d a b : Reg) (m : Fin 4) (dt : Bool) (s : State) : Result :=
  issueClass VOp.fma.row (s.snapshotB (.vfmaVx d a b m dt) b) s
/-- vfms, vector-scalar (R275). -/
def execVfmsVx (d a b : Reg) (m : Fin 4) (dt : Bool) (s : State) : Result :=
  issueClass VOp.fms.row (s.snapshotB (.vfmsVx d a b m dt) b) s
/-- vfnma, vector-scalar (R275). -/
def execVfnmaVx (d a b : Reg) (m : Fin 4) (dt : Bool) (s : State) : Result :=
  issueClass VOp.fnma.row (s.snapshotB (.vfnmaVx d a b m dt) b) s
/-- vmerge, vector-scalar (R276). -/
def execVmergeVx (d a b : Reg) (m : Fin 4) (dt : Bool) (s : State) : Result :=
  issueClass VOp.merge.row (s.snapshotB (.vmergeVx d a b m dt) b) s
/-- vaddi (R277). -/
def execVaddi (d a : Reg) (i : BitVec 8) (m : Fin 4) (s : State) : Result :=
  issueClass .intOnly (s.snapshot (.vaddi d a i m)) s
/-- vslli (R277). -/
def execVslli (d a : Reg) (i : BitVec 8) (m : Fin 4) (s : State) : Result :=
  issueClass .intOnly (s.snapshot (.vslli d a i m)) s
/-- vsrli (R277). -/
def execVsrli (d a : Reg) (i : BitVec 8) (m : Fin 4) (s : State) : Result :=
  issueClass .intOnly (s.snapshot (.vsrli d a i m)) s
/-- vsrai (R277). -/
def execVsrai (d a : Reg) (i : BitVec 8) (m : Fin 4) (s : State) : Result :=
  issueClass .intOnly (s.snapshot (.vsrai d a i m)) s
/-- vidx (R278). -/
def execVidx (d : Reg) (i t : BitVec 8) (s : State) : Result := issueClass .intOnly (s.snapshot (.vidx d i t)) s
/-- vbcsti (R278). -/
def execVbcsti (d : Reg) (i : BitVec 8) (s : State) : Result := issueClass .intOnly (s.snapshot (.vbcsti d i)) s
/-- veqVv (R279). -/
def execVeqVv (d a b : Reg) (m : Fin 4) (dt : Bool) (s : State) : Result :=
  issueClass VCmp.eq.row (s.snapshot (.veqVv d a b m dt)) s
/-- vneVv (R279). -/
def execVneVv (d a b : Reg) (m : Fin 4) (dt : Bool) (s : State) : Result :=
  issueClass VCmp.ne.row (s.snapshot (.vneVv d a b m dt)) s
/-- vltVv (R279). -/
def execVltVv (d a b : Reg) (m : Fin 4) (dt : Bool) (s : State) : Result :=
  issueClass VCmp.lt.row (s.snapshot (.vltVv d a b m dt)) s
/-- vle (R279). -/
def execVle (d a b : Reg) (m : Fin 4) (dt : Bool) (s : State) : Result :=
  issueClass VCmp.le.row (s.snapshot (.vle d a b m dt)) s
/-- veqVx (R279). -/
def execVeqVx (d a b : Reg) (m : Fin 4) (dt : Bool) (s : State) : Result :=
  issueClass VCmp.eq.row (s.snapshotB (.veqVx d a b m dt) b) s
/-- vneVx (R279). -/
def execVneVx (d a b : Reg) (m : Fin 4) (dt : Bool) (s : State) : Result :=
  issueClass VCmp.ne.row (s.snapshotB (.vneVx d a b m dt) b) s
/-- vltVx (R279). -/
def execVltVx (d a b : Reg) (m : Fin 4) (dt : Bool) (s : State) : Result :=
  issueClass VCmp.lt.row (s.snapshotB (.vltVx d a b m dt) b) s
/-- vge (R279). -/
def execVge (d a b : Reg) (m : Fin 4) (dt : Bool) (s : State) : Result :=
  issueClass VCmp.ge.row (s.snapshotB (.vge d a b m dt) b) s
/-- vcompress (R280). -/
def execVcompress (d a b : Reg) (m : Fin 4) (dt : Bool) (s : State) : Result :=
  issueWhole .anyClass (s.snapshot (.vcompress d a b m dt)) s
/-- vexpand (R280). -/
def execVexpand (d a b : Reg) (m : Fin 4) (dt : Bool) (s : State) : Result :=
  issueWhole .anyClass (s.snapshot (.vexpand d a b m dt)) s
/-- vpick (R281). -/
def execVpick (d a b : Reg) (m : Fin 4) (dt : Bool) (s : State) : Result := issueClass .anyClass (s.snapshot (.vpick d a b m dt)) s
/-- vrev (R281). -/
def execVrev (d a : Reg) (m : Fin 4) (dt : Bool) (s : State) : Result := issueClass .anyClass (s.snapshot (.vrev d a m dt)) s
/-- vshup (R282). -/
def execVshup (d a b : Reg) (m : Fin 4) (dt : Bool) (s : State) : Result :=
  issueClass .anyClass (s.snapshotB (.vshup d a b m dt) b) s
/-- vshdn (R282). -/
def execVshdn (d a b : Reg) (m : Fin 4) (dt : Bool) (s : State) : Result :=
  issueClass .anyClass (s.snapshotB (.vshdn d a b m dt) b) s
/-- vinsup (R282). -/
def execVinsup (d a b : Reg) (m : Fin 4) (dt : Bool) (s : State) : Result :=
  issueClass .anyClass (s.snapshotB (.vinsup d a b m dt) b) s
/-- vinsdn (R282). -/
def execVinsdn (d a b : Reg) (m : Fin 4) (dt : Bool) (s : State) : Result :=
  issueClass .anyClass (s.snapshotB (.vinsdn d a b m dt) b) s
/-- vredsumO (R283). -/
def execVredsumO (d a b : Reg) (m : Fin 4) (dt : Bool) (s : State) : Result :=
  issueWhole .arith (s.snapshot (.vredsumO d a b m dt)) s
/-- vredsumT (R283). -/
def execVredsumT (d a b : Reg) (m : Fin 4) (dt : Bool) (s : State) : Result :=
  issueWhole .arith (s.snapshot (.vredsumT d a b m dt)) s
/-- vredmin (R283). -/
def execVredmin (d a b : Reg) (m : Fin 4) (dt : Bool) (s : State) : Result :=
  issueWhole .arith (s.snapshot (.vredmin d a b m dt)) s
/-- vredmax (R283). -/
def execVredmax (d a b : Reg) (m : Fin 4) (dt : Bool) (s : State) : Result :=
  issueWhole .arith (s.snapshot (.vredmax d a b m dt)) s
/-- qand (R284). -/
def execQand (d a b : Reg) (s : State) : Result := issueClass .anyClass (s.snapshot (.qand d a b)) s
/-- qor (R284). -/
def execQor (d a b : Reg) (s : State) : Result := issueClass .anyClass (s.snapshot (.qor d a b)) s
/-- qxor (R284). -/
def execQxor (d a b : Reg) (s : State) : Result := issueClass .anyClass (s.snapshot (.qxor d a b)) s
/-- qandn (R284). -/
def execQandn (d a b : Reg) (s : State) : Result := issueClass .anyClass (s.snapshot (.qandn d a b)) s
/-- vbitq (R286). -/
def execVbitq (d a b : Reg) (m : Fin 4) (dt : Bool) (s : State) : Result :=
  issueClass .anyClass (s.snapshotB (.vbitq d a b m dt) b) s
/-- vpopc (R286). -/
def execVpopc (d a : Reg) (m : Fin 4) (dt : Bool) (s : State) : Result := issueClass .intOnly (s.snapshot (.vpopc d a m dt)) s
/-- vcvt (R287). -/
def execVcvt (d a b : Reg) (m : Fin 4) (dt : Bool) (s : State) : Result := issueClass .convert (s.snapshot (.vcvt d a b m dt)) s
/-- vtobfp (R288). -/
def execVtobfp (d a b : Reg) (m : Fin 4) (dt : Bool) (s : State) : Result := issueWhole .bfpOnly (s.snapshot (.vtobfp d a b m dt)) s
/-- vfrombfp (R289). -/
def execVfrombfp (d a b : Reg) (m : Fin 4) (dt : Bool) (s : State) : Result :=
  issueClass .bfpOnly (s.snapshot (.vfrombfp d a b m dt)) s
/-- vlog2 (R290). -/
def execVlog2 (d a : Reg) (m : Fin 4) (dt : Bool) (s : State) : Result := issueClass .floatFun (s.snapshot (.vlog2 d a m dt)) s
/-- vsqrt (R290). -/
def execVsqrt (d a : Reg) (m : Fin 4) (dt : Bool) (s : State) : Result := issueClass .floatFun (s.snapshot (.vsqrt d a m dt)) s
/-- vrcp (R290). -/
def execVrcp (d a : Reg) (m : Fin 4) (dt : Bool) (s : State) : Result := issueClass .floatFun (s.snapshot (.vrcp d a m dt)) s
/-- vrsqrt (R290). -/
def execVrsqrt (d a : Reg) (m : Fin 4) (dt : Bool) (s : State) : Result := issueClass .floatFun (s.snapshot (.vrsqrt d a m dt)) s
/-- vexp2 (R290). -/
def execVexp2 (d a : Reg) (m : Fin 4) (dt : Bool) (s : State) : Result := issueClass .floatFun (s.snapshot (.vexp2 d a m dt)) s

end Sys2Proof.Machine
end

