-- ==== Sys2Proof/Machine/VectorMemory.lean ====
section
/-! DEFINITION. Vector loads, stores and atomics, majors 0x30-0x33 and `vamocas` (07_memory.md R187-R192), in collecting mode
the records of the stores (09_effects.md R227-R234, R432). -/

namespace Sys2Proof.Machine

/-- Where the elements of a vector memory instruction lie: a base and a step, or a base and an index group (R187). -/
inductive AddrForm where
  | stride (step : Word)
  | index (name : Nat)
  deriving DecidableEq, Repr

/-- The form of a rule's addresses, none for an instruction of another family. -/
def addrForm (r : Rule) : Option AddrForm :=
  match r.instr with
  | .vld _ _ _ _ | .vldff _ _ _ _ | .vst _ _ _ _ => some (.stride (BitVec.ofNat 64 (bytesOf r.vtype)))
  | .vlds _ _ _ _ _ | .vsts _ _ _ _ _ => some (.stride r.opB)
  | .vldx _ _ i _ _ | .vldxo _ _ i _ _ | .vstx _ _ i _ _ | .vstxo _ _ i _ _ => some (.index i.val)
  | .vamoadd _ _ i _ _ | .vamomin _ _ i _ _ | .vamomax _ _ i _ _ | .vamoswap _ _ i _ _ | .vamocas _ _ i => some (.index i.val)
  | _ => none

/-- The effective address of element e (R187), from its index word as it was captured or as the register holds it. -/
def Rule.addrOf (r : Rule) (f : AddrForm) (c : Ctx) (e : Nat) : Word :=
  match f with
  | .stride w => r.opA + BitVec.ofNat 64 e * w
  | .index i => r.opA + if r.eng.index.isEmpty then c.indexWord r.wb i e else BitVec.ofNat 64 (nth r.eng.index e)

/-- Whether the elements of `n` bytes at a name overwrite index words, so that these have to be captured first: each element reads the
version of its index that stood before the instruction (R112, R188; log 74). -/
def Rule.captures (r : Rule) (f : AddrForm) (v n : Nat) : Bool :=
  match f with
  | .stride _ => false
  | .index i => r.eng.index.isEmpty && anyMeets (r.vgroup v n r.vl) (r.vgroup i 4 r.vl)

/-- The index word that an element's address still needs (R187, R188). -/
def Rule.indexLoc (r : Rule) (f : AddrForm) (e : Nat) : List Loc :=
  match f with
  | .stride _ => []
  | .index i => if r.eng.index.isEmpty then [r.velem i 4 e] else []

/-- The index words that an element's firing needs: its own, and every other one where they are to be captured. -/
def Rule.indexReads (r : Rule) (f : AddrForm) (v n e : Nat) : List Loc :=
  if r.captures f v n then ((List.range r.vl).filter fun i => !r.done.getLsbD i).flatMap (r.indexLoc f) else r.indexLoc f e

/-- The index words are captured. -/
def State.captureIndex (s : State) (g : Agent) (k : Nat) (r : Rule) (f : AddrForm) : State :=
  match f with
  | .stride _ => s
  | .index i => s.mapRule g k fun x => { x with eng := { x.eng with
      index := (List.range r.vl).map fun e => ((s.getCtx g).indexWord r.wb i e).toNat } }

/-- An access of a rule's element, at the snapshotted scope, by the micro-TLB of its span. -/
def Rule.acc (r : Rule) (c : Ctx) (e : Nat) : Acc :=
  { g := c.agent, scope := scopeOf r.vtype, user := c.user, key := r.key, elem := e * 2 ^ 20, span := r.spanOf e }

/-- The line of device memory that an access lies in, none where it does not translate. -/
def State.lineOf (s : State) (g : Agent) (acc : Access) (va : Word) : Option Nat :=
  match s.translate (placeOf g) (s.tenantOf g) acc (s.getCtx g).user va with
  | .ok p => some (p.pa / 128)
  | .error _ => none

/-- The lines that a span of device memory lies in, none where a page does not translate. -/
def State.linesOfSpan (s : State) (g : Agent) (acc : Access) (va : Word) (n : Nat) : Option (List Nat) :=
  (linesOf va n).foldl (fun (o : Option (List Nat)) l => o.bind fun ls => (s.lineOf g acc l).map fun x => ls ++ [x]) (some [])

/-- The lines that a span of device memory lies in, those whose page does not translate left out. -/
def State.linesKnown (s : State) (g : Agent) (acc : Access) (va : Word) (n : Nat) : List Nat := (linesOf va n).filterMap (s.lineOf g acc)

/-- Reads by the access unit that are a look at what an instruction still has to do: its rule makes them again after a stop, so that they
have begun nothing (R321, R365). -/
def Rule.lookAcc (r : Rule) (c : Ctx) (e i : Nat) : Acc := { r.acc c e with elem := e * 2 ^ 20 + 2 ^ 19 + i, span := none }

/-- The checks of an element's address before its translation (R174, R175, R188). -/
def addrFault (fault : Cause) (va : Word) (n : Nat) : Option Cause :=
  if isCanonical va = false then some fault else if va.toNat % n ≠ 0 then some .align else none

/-- The lists whose older records a load consults (R233). A rule that `ldrule` made carries none: its lists count as they stand. -/
def Rule.lists (r : Rule) (c : Ctx) : List (Nat × List Segment) :=
  if r.cdepth = 0 then [] else if r.eng.header.isEmpty then c.listsAt r.cdepth else unpackLists r.eng.header r.eng.segs

/-- Every lower element of an ordered instruction is done, or has taken its data (R148, R188). -/
def Rule.below (r : Rule) (s : State) (g : Agent) (k e : Nat) : Bool :=
  let x := (s.ruleAt g k).getD r
  (List.range e).all fun i => x.done.getLsbD i || (x.holding i).isSome

/-- A vector load (R188): `v` is the destination. -/
def Rule.loadWork (r : Rule) (g : Agent) (k : Nat) (f : AddrForm) (ordered : Bool) (v : Nat) (m : Fin 4) : Work :=
  let n := bytesOf r.vtype
  let early := match f with
    | .stride _ => true
    | .index _ => false
  let touch := fun (s : State) e => (s.lineOf g .load (r.addrOf f (s.getCtx g) e)).map fun l => { rd := [l] : Touch }
  r.loading g k
    { count := r.vl, mask := m, lanes := true
      reads := fun _ e => r.indexReads f v n e, writes := fun _ e => [r.velem v n e]
      holds := r.indexLoc f, pends := fun e => [r.velem v n e]
      uses := (true, false, false, false), addrs := r.indexLoc f, early := early, touch := touch, covers := fun s e => Cover.of (touch s e)
      fire := fun s _ => .wait s }
    (fun s e =>
      let c := s.getCtx g
      let va := r.addrOf f c e
      if r.captures f v n then .error (.part (s.captureIndex g k r f))
      else if ordered && !r.below s g k e then .error (.wait s) else
      match addrFault .loadfault va n with
      | some x => .error (.fault x va s)
      | none =>
        match s.loadOwn (r.acc c e) (r.lists c) va n with
        | .ok bs s => .ok (ofBytes bs, s.mapCtx g fun c => c.forget r.key (some e))
        | .wait s => .error (.wait s)
        | .fault x s => .error (.fault x va s))
    fun e x c => c.setElem r.wb v n e x

/-- A vector store (R188). -/
def Rule.storeWork (r : Rule) (g : Agent) (k : Nat) (f : AddrForm) (ordered : Bool) (v : Nat) (m : Fin 4) : Work :=
  let n := bytesOf r.vtype
  let early := match f with
    | .stride _ => true
    | .index _ => false
  let touch := fun (s : State) e => (s.lineOf g .store (r.addrOf f (s.getCtx g) e)).map fun l => { wr := [l] : Touch }
  let rd := fun e => r.velem v n e :: r.indexLoc f e
  { count := r.vl, mask := m, lanes := true
    reads := fun _ e => rd e, writes := fun _ _ => [], holds := rd, pends := fun _ => []
    uses := (false, true, false, false), addrs := r.indexLoc f, early := early, touch := touch, covers := fun s e => Cover.of (touch s e)
    fire := fun s e =>
      let c := s.getCtx g
      let va := r.addrOf f c e
      if ordered && !r.below s g k e then .wait s else
      match addrFault .storefault va n with
      | some x => .fault x va s
      | none =>
        match s.storeAt (r.acc c e) va (toBytes n (c.elem r.wb v n e)) with
        | .ok _ s => .ok (s.mapCtx g fun c => c.forget r.key (some e))
        | .wait s => .wait s
        | .fault x s => .fault x va s }

/-- A vector store that collecting mode records (R228-R232, R432): it checks its target's form only, and writes its slot; an
element whose mask bit is clear writes void records. Its write side covers its targets, whatever their pages allow (R228). An element without
a slot meets ELFULL before a cause of its target's form (DESIGN CHOICE, log 89: R231 and R232 give no order). -/
def Rule.recordWork (r : Rule) (g : Agent) (f : AddrForm) (v : Nat) (m : Fin 4) : Work :=
  let n := bytesOf r.vtype
  let size := slotSize n
  let masks := fun e => if m.val = 0 then [] else [Loc.q m.val e 1]
  let rd := fun e => masks e ++ r.velem v n e :: r.indexLoc f e
  let live := fun (c : Ctx) e => (c.governing m).getLsbD e
  let early := match f with
    | .stride _ => true
    | .index _ => false
  { count := r.vl, lanes := true
    reads := fun c e => if live c e then rd e else masks e
    writes := fun _ _ => [], holds := rd, pends := fun _ => []
    uses := (false, true, false, false), addrs := r.indexLoc f, early := early, gate := m
    touch := fun s e => if r.r ≤ e then some {} else (s.linesOfSpan g .store (r.slotAddr e) size).map fun ls => { wr := ls : Touch }
    covers := fun s e =>
      let va := r.addrOf f (s.getCtx g) e
      { wr := some ((s.lineOf g .store va).or (s.lineOf g .load va)).toList }
    fire := fun s e =>
      let c := s.getCtx g
      let va := r.addrOf f c e
      if r.r ≤ e then .fault .elfull 0 s
      else
        let put := fun (p : Except (Cause × Word) Bool × State) => match p with
          | (.ok true, s) => Fired.ok (s.mapCtx g fun c => c.forget r.key (some e))
          | (.ok false, s) => .wait s
          | (.error (x, a), s) => .fault x a s
        if live c e then
          match addrFault .storefault va n with
          | some x => .fault x va s
          | none => put (s.writeRecord g r.key (e * 2 ^ 20) (r.slotAddr e) va (toBytes n (c.elem r.wb v n e)))
        else put (s.writeSpan (c.laneAcc r.key (e * 2 ^ 20)) (r.slotAddr e) 4 (List.replicate size 0)) }

/-- A vector atomic (R190, R191): `operand` and the new value from the old one come from the element's registers. -/
def Rule.atomicWork (r : Rule) (g : Agent) (k v idx : Nat) (m : Fin 4) (carried : Option RemoteOp)
    (new : Nat → Nat → Nat → Option Nat) : Work :=
  let n := bytesOf r.vtype
  let cas := decide (carried = some .cas)
  let f := AddrForm.index idx
  let touch := fun (s : State) e => (s.lineOf g .atomic (r.addrOf f (s.getCtx g) e)).map fun l => { rd := [l], wr := [l] : Touch }
  let own := fun e => (if cas then [r.velem (v + 1) n e] else []) ++ [r.velem v n e]
  { count := r.vl, mask := m, lanes := true
    reads := fun _ e => own e ++ r.indexReads f v n e, writes := fun _ e => [r.velem v n e]
    holds := fun e => own e ++ r.indexLoc f e, pends := fun e => [r.velem v n e]
    uses := (true, true, false, false), addrs := r.indexLoc f, touch := touch, covers := fun s e => Cover.of (touch s e)
    fire := fun s e =>
      let c := s.getCtx g
      let va := r.addrOf f c e
      let x := c.elem r.wb v n e
      let y := if cas then c.elem r.wb (v + 1) n e else 0
      if r.captures f v n then .part (s.captureIndex g k r f) else
      match addrFault .storefault va n with
      | some q => .fault q va s
      | none =>
        let operand := if cas then toBytes n y ++ toBytes n x else toBytes n x ++ toBytes n 0
        match s.atomicAt (r.acc c e) va n carried operand (fun old => new old x y) with
        | .ok old s => .ok (s.mapCtx g fun c => (c.setElem r.wb v n e old).forget r.key (some e))
        | .wait s => .wait s
        | .fault q s => .fault q va s }

/-- What the elements of a vector memory rule do; none for any other instruction. -/
def memoryWork (g : Agent) (k : Nat) (r : Rule) : Option Work :=
  let n := bytesOf r.vtype
  let store := fun (f : AddrForm) ordered (v : Reg) m =>
    if r.cdepth = 0 then r.storeWork g k f ordered v.val m else r.recordWork g f v.val m
  match addrForm r with
  | none => none
  | some f =>
    match r.instr with
    | .vld v _ m _ | .vldff v _ m _ | .vlds v _ _ m _ | .vldx v _ _ m _ => some (r.loadWork g k f false v.val m)
    | .vldxo v _ _ m _ => some (r.loadWork g k f true v.val m)
    | .vst v _ m _ | .vsts v _ _ m _ | .vstx v _ _ m _ => some (store f false v m)
    | .vstxo v _ _ m _ => some (store f true v m)
    | .vamoadd v _ i m _ => some (r.atomicWork g k v.val i.val m (some .add) fun old x _ => some ((old + x) % 2 ^ (8 * n)))
    | .vamomin v _ i m _ => some (r.atomicWork g k v.val i.val m none fun old x _ => some (VOp.min.apply r.vtype old x 0).1)
    | .vamomax v _ i m _ => some (r.atomicWork g k v.val i.val m none fun old x _ => some (VOp.max.apply r.vtype old x 0).1)
    | .vamoswap v _ i m _ => some (r.atomicWork g k v.val i.val m (some .swap) fun _ x _ => some x)
    | .vamocas d _ i => some (r.atomicWork g k d.val i.val 0 (some .cas) fun old x y => if old = x then some y else none)
    | _ => none

/-! ## Fault-only-first -/

/-- The lowest active element of a `vldff` whose address fails, with its cause (R189 steps 1 and 2), and the lowest active one. -/
def State.firstFailure (s : State) (g : Agent) (r : Rule) (m : Fin 4) : Option Nat × Option (Nat × Cause × Word) :=
  let c := s.getCtx g
  let n := bytesOf r.vtype
  let live := (span r.vstart r.vl).filter fun e => (c.governing m).getLsbD e
  let bad := fun e =>
    let va := r.opA + BitVec.ofNat 64 (e * n)
    match addrFault .loadfault va n with
    | some x => some (e, x, va)
    | none => match s.translate (placeOf g) (s.tenantOf g) .load c.user va with
      | .error x => some (e, x, va)
      | .ok _ => none
  (live.head?, live.findSome? bad)

/-- A `vldff` whose mask is present resolves vl (R189): no failure leaves it, a failure of the lowest active element is its
fault, any other trims vl. -/
def State.resolveFirst (s : State) (g : Agent) (k : Nat) (r : Rule) (m : Fin 4) : State :=
  match s.firstFailure g r m with
  | (_, none) => s.mapRule g k fun r => { r with eng := { r.eng with phase := 1 } }
  | (low, some (f, x, va)) =>
    if low = some f then s.mapRule g k fun r => { r with fault := some (x, f, va) }
    else (s.mapRule g k fun r => { r with vl := f, eng := { r.eng with phase := 1 } }).mapCtx g fun c =>
      { c with vl := BitVec.ofNat 64 f }

/-! ## Meanings -/

/-- The snapshot of a vector memory word: its base in `opA`, and the lists as they stand where it carries collecting mode
(R107, R233). -/
def State.snapshotMem (s : State) (i : Instr) (base : Reg) : Rule :=
  { s.snapshot i with
    opA := s.getX base
    eng := if s.ctx.collecting then packLists s.ctx.lists else {} }

/-- Whether a load that consults records has to wait: an older `elapply` still appends to a list of its (R233, R238). -/
def State.consultWaits (s : State) (r : Rule) : Bool :=
  decide (0 < r.cdepth) && consults r.instr && s.ctx.lists.any fun x => s.ctx.appending x.1

/-- Issues a vector load. -/
def issueLoad (r : Rule) (s : State) : Result := if s.consultWaits r then done s.stall else issueRule none r s

/-- Issues a vector store; in collecting mode it reserves its slots as it issues (R230). -/
def issueStore (r : Rule) (s : State) : Result :=
  if r.cdepth = 0 || s.ctx.vlUnresolved || s.ctx.queueFull then issueRule none r s
  else if s.ctx.appending r.chandle then done s.stall
  else
    let r := { r with r := min r.vstart r.vl }
    if s.ctx.shortOf r.chandle then issueRule none r s
    else
      let p := s.ctx.reserveSlots r
      issueRule none p.2 { s with ctx := p.1 }

/-- Issues a vector atomic: the configuration it needs, and NOCOLLECT in collecting mode (R190-R192). -/
def issueAtomic (legal : Nat → Nat → Bool) (r : Rule) (s : State) : Result :=
  issueRule (firstCause [(!legal (clsOf s.ctx.vtype) (sewOf s.ctx.vtype), .illop), (s.ctx.collecting, .nocollect)]) r s

/-- vld (R188). -/
def execVld (v b : Reg) (m : Fin 4) (dt : Bool) (s : State) : Result := issueLoad (s.snapshotMem (.vld v b m dt) b) s
/-- vldff (R189). -/
def execVldff (v b : Reg) (m : Fin 4) (dt : Bool) (s : State) : Result := issueLoad (s.snapshotMem (.vldff v b m dt) b) s
/-- vst (R188, R230). -/
def execVst (v b : Reg) (m : Fin 4) (dt : Bool) (s : State) : Result := issueStore (s.snapshotMem (.vst v b m dt) b) s
/-- vlds (R188). -/
def execVlds (v b x : Reg) (m : Fin 4) (dt : Bool) (s : State) : Result :=
  issueLoad { s.snapshotMem (.vlds v b x m dt) b with opB := s.getX x } s
/-- vsts (R188, R230). -/
def execVsts (v b x : Reg) (m : Fin 4) (dt : Bool) (s : State) : Result :=
  issueStore { s.snapshotMem (.vsts v b x m dt) b with opB := s.getX x } s
/-- vldx (R188). -/
def execVldx (v b i : Reg) (m : Fin 4) (dt : Bool) (s : State) : Result := issueLoad (s.snapshotMem (.vldx v b i m dt) b) s
/-- vldxo (R188). -/
def execVldxo (v b i : Reg) (m : Fin 4) (dt : Bool) (s : State) : Result := issueLoad (s.snapshotMem (.vldxo v b i m dt) b) s
/-- vstx (R188, R230). -/
def execVstx (v b i : Reg) (m : Fin 4) (dt : Bool) (s : State) : Result := issueStore (s.snapshotMem (.vstx v b i m dt) b) s
/-- vstxo (R188, R230). -/
def execVstxo (v b i : Reg) (m : Fin 4) (dt : Bool) (s : State) : Result := issueStore (s.snapshotMem (.vstxo v b i m dt) b) s
/-- vamoadd (R190). -/
def execVamoadd (v b i : Reg) (m : Fin 4) (dt : Bool) (s : State) : Result :=
  issueAtomic (fun cls sew => decide (cls < 2) && decide (2 ≤ sew)) (s.snapshotMem (.vamoadd v b i m dt) b) s
/-- vamomin (R190). -/
def execVamomin (v b i : Reg) (m : Fin 4) (dt : Bool) (s : State) : Result :=
  issueAtomic (fun cls sew => decide (cls < 2) && decide (2 ≤ sew)) (s.snapshotMem (.vamomin v b i m dt) b) s
/-- vamomax (R190). -/
def execVamomax (v b i : Reg) (m : Fin 4) (dt : Bool) (s : State) : Result :=
  issueAtomic (fun cls sew => decide (cls < 2) && decide (2 ≤ sew)) (s.snapshotMem (.vamomax v b i m dt) b) s
/-- vamoswap (R190). -/
def execVamoswap (v b i : Reg) (m : Fin 4) (dt : Bool) (s : State) : Result :=
  issueAtomic (fun _ sew => decide (2 ≤ sew)) (s.snapshotMem (.vamoswap v b i m dt) b) s
/-- vamocas (R191). -/
def execVamocas (d a b : Reg) (s : State) : Result :=
  issueAtomic (fun _ sew => decide (2 ≤ sew)) (s.snapshotMem (.vamocas d a b) a) s

end Sys2Proof.Machine
end

