-- ==== Sys2Proof/Machine/Scratch.lean ====
section
/-! DEFINITION. The scratchpad, its full bits, bit planes, layouts and copies (08_copies.md R201-R217). A line's full bit is
computed: a line is empty exactly while a copy in flight still has bytes to write into it (R204). -/

namespace Sys2Proof.Machine

/-! ## Copies as lists of transfers -/

/-- The extent of a layout level (R212). -/
def extentOf (l : Word) : Nat := l.toNat / 2 ^ 40
/-- The stride of a layout level, signed (R212). -/
def strideOf (l : Word) : Word := BitVec.ofInt 64 (signedOf 40 l.toNat)

/-- The number of transfers of a source layout (R215). -/
def transferCount (src : List Word) : Nat := (src.drop 1).foldl (fun n l => n * extentOf l) 1
/-- Bytes of a transfer. -/
def transferBytes (src : List Word) : Nat := ((src.head?).map extentOf).getD 0

/-- The offset of transfer j along the strides of a layout, its indices counted by the source extents, i1 fastest (R215). -/
def transferOffset : List Word → List Word → Nat → Word
  | s :: ss, l :: ls, j =>
    BitVec.ofNat 64 (j % max 1 (extentOf s)) * strideOf l + transferOffset ss ls (j / max 1 (extentOf s))
  | _, _, _ => 0

/-- Where transfer j reads. -/
def Rule.srcAt (r : Rule) (j : Nat) : Word := r.opA + transferOffset (r.eng.src.drop 1) (r.eng.src.drop 1) j
/-- Where transfer j writes. -/
def Rule.dstAt (r : Rule) (j : Nat) : Word := r.opB + transferOffset (r.eng.src.drop 1) (r.eng.dst.drop 1) j

/-- The transfers of a copy that are not performed (R215). -/
def Rule.transfersLeft (r : Rule) : List Nat := (List.range (transferCount r.eng.src)).filter fun j => !r.eng.xfers.contains j

/-- The spaces of a copy: whether its source and its destination are the scratchpad (R213). -/
def copySpaces : Instr → Option (Bool × Bool)
  | .cpgoMm _ _ _ => some (false, false)
  | .cpgoMs _ _ _ => some (false, true)
  | .cpgoSm _ _ _ => some (true, false)
  | .cpgoSs _ _ _ => some (true, true)
  | _ => none

/-- The scratchpad lines that `n` bytes from an offset touch. -/
def scratchLines (off : Word) (n : Nat) : List Nat :=
  if n = 0 then [] else span (off.toNat / 128) ((off.toNat + n - 1) / 128 + 1)

/-- The scratchpad lines that a `kvsel` in flight will still write (R204, R364, R365). Its header holds psize at 6, dst at 8 and k at
4; its whole region is empty from phase 2 on, and once the index words are written, from phase 3 on, only the pages of the
ranks that are not yet copied are. A `kvsel` that was stopped holds the lines of the phase it was stopped in (R217), so that index lines
written before the stop count as full, though they are written again (DESIGN CHOICE, log 70: R204 and R365 do not say). -/
def Rule.selectLeft (r : Rule) : List Nat :=
  let phase := max r.eng.phase r.eng.stopped
  let k := (r.eng.header[4]?).getD 0
  let psize := (r.eng.header[6]?).getD 0
  let dst := (r.eng.header[8]?).getD 0
  if phase < 2 then []
  else if phase = 2 then scratchLines (BitVec.ofNat 64 dst) (256 + k * psize)
  else ((r.eng.index.takeWhile (· != 0xFFFFFFFF)).zipIdx.filter fun x => !r.eng.xfers.contains x.2).flatMap fun x =>
    scratchLines (BitVec.ofNat 64 (dst + 256 + psize * x.2)) psize

/-- Whether a copy in flight holds a scratchpad line empty (R204). -/
def Rule.holdsEmpty (r : Rule) (line : Nat) : Bool :=
  r.issued && !r.done.getLsbD 0 &&
  match copySpaces r.instr with
  | some (_, true) => r.transfersLeft.any fun j => (scratchLines (r.dstAt j) (transferBytes r.eng.src)).contains line
  | some (_, false) => false
  | none => isKvsel r.instr && r.selectLeft.contains line

/-- Every rule of a context that is in flight, or that a slot keeps. -/
def Ctx.inFlight (c : Ctx) : List Rule := c.rules ++ c.userSlot ++ c.hndSlot ++ c.preSlot

/-- The core that a context's scratchpad is on: for a saved task that of the context it was saved in. -/
def Ctx.scratchHome (c : Ctx) : Option Nat :=
  match c.agent with
  | .ctx id => some ((if id < Config.contexts then id else c.origin) / 8)
  | .handler _ _ _ => none

/-- Whether a context finds a scratchpad line of its core empty: a copy of another context holds it so (R204). The interlock orders its
own copies (R205). -/
def State.lineEmpty (s : State) (g : Agent) (line : Nat) : Bool :=
  s.allCtx.any fun c => decide (c.agent ≠ g) && decide (c.scratchHome = some (scratchCore g)) && c.inFlight.any fun r => r.holdsEmpty line

/-! ## Accesses to the scratchpad -/

/-- The first and the last offset plus one that a context may access (R202). -/
def State.scratchRange (s : State) (g : Agent) : Nat × Nat :=
  let o := (s.tenant (s.tenantOf g)).spbase.toNat
  (o, o + (((s.getCtx g).task).map (·.scratch)).getD 0)

/-- The lowest offset of an access that R202 does not allow. -/
def State.scratchFault (s : State) (g : Agent) (off : Word) (n : Nat) : Option Word :=
  let r := s.scratchRange g
  if n = 0 then none
  else if off.toNat < r.1 || r.2 ≤ off.toNat then some off
  else if r.2 < off.toNat + n then some (BitVec.ofNat 64 r.2)
  else none

/-- Whether a read of `n` bytes finds an empty line (R205). -/
def State.scratchWaits (s : State) (g : Agent) (off : Word) (n : Nat) : Bool :=
  (scratchLines off n).any (s.lineEmpty g)

/-- Whether a read finds a line with an error that could not be corrected (R422). -/
def State.scratchLost (s : State) (g : Agent) (off : Word) (n : Nat) : Bool :=
  s.lostUnits.any fun u => match u with
    | .scratch k w => decide (k = scratchCore g) && decide (8 * w < off.toNat + n) && decide (off.toNat < 8 * w + 8)
    | _ => false

/-- Bytes of the scratchpad. -/
def State.scratchRead (s : State) (g : Agent) (off : Word) (n : Nat) : List Byte :=
  (s.core (scratchCore g)).scratch.readBytes off.toNat n

/-- Bytes of the scratchpad, written. A line that is wholly written loses its error (R422). -/
def State.scratchWrite (s : State) (g : Agent) (off : Word) (bs : List Byte) : State :=
  let k := scratchCore g
  let s := s.mapCore k fun c => { c with scratch := c.scratch.writeBytes off.toNat bs }
  { s with lostUnits := s.lostUnits.filter fun u => match u with
      | .scratch k' w => decide (k' ≠ k) || decide (8 * w < off.toNat) || decide (off.toNat + bs.length < 8 * w + 8)
      | _ => true }

/-- A wait of element e of a rule begins, if it has not begun (R205). -/
def State.beginWait (s : State) (g : Agent) (k e : Nat) : Fired :=
  match (s.ruleAt g k).bind fun r => lookup? e r.eng.waits with
  | some _ => .wait s
  | none => .part (s.mapRule g k fun r => { r with eng := { r.eng with waits := r.eng.waits ++ [(e, s.now)] } })

/-- The clock of an agent's die in MHz: 3.6 GHz, less the steps taken near its junction limit (R4, R393). -/
def State.clockMhz (s : State) (g : Agent) : Nat :=
  3600 - 100 * (s.clockSteps.toList[((coreOf g).getD 0) / 48]?).getD 0

/-- The wait limit in ns: cycles of the clock, at least 1024 (R4, R205, R393). -/
def State.emptyLimit (s : State) (g : Agent) : Nat :=
  ceilDiv (1000 * max 1024 (s.tenant (s.tenantOf g)).spwait.toNat) (max 100 (s.clockMhz g))

/-- vspld (R207). -/
def Rule.vspldWork (r : Rule) (g : Agent) (k v : Nat) (m : Fin 4) : Work :=
  let n := bytesOf r.vtype
  let off := fun e => r.opA + BitVec.ofNat 64 (e * n)
  let touch := fun (_ : State) e => some ({ srd := [(off e).toNat / 128] } : Touch)
  r.loading g k
    { count := r.vl, mask := m, lanes := true
      reads := fun _ _ => [], writes := fun _ e => [r.velem v n e], holds := fun _ => [], pends := fun e => [r.velem v n e]
      uses := (false, false, true, false), early := true, touch := touch, covers := fun s e => Cover.of (touch s e)
      fire := fun s _ => .wait s }
    (fun s e =>
      match s.scratchFault g (off e) n with
      | some a => .error (.fault .loadfault a s)
      | none =>
        if (off e).toNat % n ≠ 0 then .error (.fault .align (off e) s)
        else if s.scratchWaits g (off e) n then .error (s.beginWait g k e)
        else if s.scratchLost g (off e) n then .error (.fault .dataloss (off e) s)
        else .ok (ofBytes (s.scratchRead g (off e) n), s))
    fun e x c => c.setElem r.wb v n e x

/-- vspst (R207). -/
def Rule.vspstWork (r : Rule) (g : Agent) (v : Nat) (m : Fin 4) : Work :=
  let n := bytesOf r.vtype
  let off := fun e => r.opA + BitVec.ofNat 64 (e * n)
  let touch := fun (_ : State) e => some ({ swr := [(off e).toNat / 128] } : Touch)
  { count := r.vl, mask := m, lanes := true
    reads := fun _ e => [r.velem v n e], writes := fun _ _ => [], holds := fun e => [r.velem v n e], pends := fun _ => []
    uses := (false, false, false, true), early := true, touch := touch, covers := fun s e => Cover.of (touch s e)
    fire := fun s e =>
      match s.scratchFault g (off e) n with
      | some a => .fault .storefault a s
      | none =>
        if (off e).toNat % n ≠ 0 then .fault .align (off e) s
        else .ok (s.scratchWrite g (off e) (toBytes n ((s.getCtx g).elem r.wb v n e))) }

/-! ## Bit planes -/

/-- pstride (R208). -/
def planeStride (n : Nat) : Nat := roundUp 64 (ceilDiv n 8)
/-- soff (R208). -/
def scaleOffset (b n : Nat) : Nat := 64 + b * planeStride n
/-- The length of a bit-plane region (R208). -/
def regionLength (b blk n : Nat) : Nat := roundUp 64 (scaleOffset b n + n / blk)

/-- The bytes of plane k of mantissas: bit B - 1 - k of each, padded (R208). -/
def planeBytes (b k : Nat) (ms : List Nat) : List Byte :=
  toBytes (planeStride ms.length) ((ms.zipIdx.foldl (fun acc (m, e) => acc + bitOf m (b - 1 - k) * 2 ^ e)) 0)

/-- The 64 bytes of a region's header (R208). -/
def planeHeader (b blkCode n : Nat) : List Byte :=
  toBytes 1 1 ++ toBytes 1 b ++ toBytes 1 blkCode ++ toBytes 1 0 ++ toBytes 4 n ++ toBytes 4 (planeStride n) ++
  toBytes 4 (scaleOffset b n) ++ List.replicate 48 0

/-- The scratchpad lines of a rule's region (R210). -/
def Rule.regionLines (r : Rule) : List Nat := scratchLines r.opA (regionLength (bfpBits r.vtype) (blockOf r.vtype) r.vl)

/-- The checks of R210 steps 1 and 2. -/
def State.regionFault (s : State) (g : Agent) (r : Rule) (fault : Cause) : Option (Cause × Word) :=
  if r.opA.toNat % 64 ≠ 0 then some (.align, r.opA)
  else (s.scratchFault g r.opA (regionLength (bfpBits r.vtype) (blockOf r.vtype) r.vl)).map fun a => (fault, a)

/-- vpst (R210). It waits for vl before it looks at it (R130). -/
def Rule.vpstWork (r : Rule) (g : Agent) (v vs : Nat) : Work :=
  let b := bfpBits r.vtype
  let n := r.vl
  let blk := blockOf r.vtype
  let rd := fun _ => r.vgroup v 1 n ++ r.vgroup vs 1 (n / blk)
  let touch := fun (_ : State) (_ : Nat) => some ({ swr := r.regionLines } : Touch)
  { count := 1, reads := fun _ e => rd e, writes := fun _ _ => [], holds := rd, pends := fun _ => []
    uses := (false, false, false, true), early := true, touch := touch, covers := fun s e => Cover.of (touch s e)
    check := fun s _ => s.regionFault g r .storefault
    fire := fun s _ =>
      let c := s.getCtx g
      let ms := (List.range n).map fun e => c.elem r.wb v 1 e
      let body := planeHeader b (r.vtype.toNat / 2 ^ 8 % 4) n ++ (List.range b).flatMap fun k => planeBytes b k ms
      .ok (s.scratchWrite g r.opA (body ++ (List.range (n / blk)).map fun j => BitVec.ofNat 8 (c.elem r.wb vs 1 j))) }

/-- vpld (R210). It waits for vl before it looks at it (R130). -/
def Rule.vpldWork (r : Rule) (g : Agent) (k v vs : Nat) : Work :=
  let b := bfpBits r.vtype
  let n := r.vl
  let blk := blockOf r.vtype
  let len := regionLength b blk n
  let wr := fun _ => r.vgroup v 1 n ++ r.vgroup vs 1 (n / blk)
  let touch := fun (_ : State) (_ : Nat) => some ({ srd := r.regionLines } : Touch)
  let field := fun (x o w : Nat) => x / 2 ^ (8 * o) % 2 ^ (8 * w)
  r.loading g k
    { count := 1, reads := fun _ _ => [], writes := fun _ e => wr e, holds := fun _ => [], pends := wr
      uses := (false, false, true, false), early := true, touch := touch, covers := fun s e => Cover.of (touch s e)
      check := fun s _ => s.regionFault g r .loadfault
      fire := fun s _ => .wait s }
    (fun s _ =>
      if s.scratchWaits g r.opA len then .error (s.beginWait g k 0)
      else if s.scratchLost g r.opA len then .error (.fault .dataloss r.opA s)
      else
        let x := ofBytes (s.scratchRead g r.opA len)
        if field x 0 3 ≠ ofBytes ((planeHeader b (r.vtype.toNat / 2 ^ 8 % 4) n).take 3) ∨ field x 4 4 ≠ n ∨ field x 8 4 ≠ planeStride n ∨
            field x 12 4 ≠ scaleOffset b n then .error (.fault .illcfg 0 s)
        else .ok (x, s))
    fun _ x c =>
      let planes := (List.range b).map fun i => field x (64 + i * planeStride n) (planeStride n)
      let mant := fun e => signedOf b (planes.zipIdx.foldl (fun acc (p, i) => acc + bitOf p e * 2 ^ (b - 1 - i)) 0)
      let c := (List.range n).foldl (fun (c : Ctx) e => c.setElem r.wb v 1 e (codeOf 8 (mant e))) c
      (List.range (n / blk)).foldl (fun (c : Ctx) j => c.setElem r.wb vs 1 j (field x (scaleOffset b n + j) 1)) c

/-! ## Captures -/

/-- cpls and cpld (R212): the levels are captured once all are present, and after every older capture of the same layout (R106). -/
def Rule.captureWork (r : Rule) (g : Agent) (a : Nat) (source : Bool) : Work :=
  let rd := fun _ => (List.range r.vl).map fun i => r.velem a 8 i
  let wr := fun _ => [Loc.layout source]
  { count := 1, reads := fun _ e => rd e, writes := fun _ e => wr e, holds := rd, pends := wr
    fire := fun s _ =>
      let c := s.getCtx g
      let ls := (List.range r.vl).map fun i => BitVec.ofNat 64 (c.elem r.wb a 8 i)
      let e0 := ((ls.head?).map extentOf).getD 0
      if source && (e0 = 0 || 65536 < e0) then .fault .illcfg 0 s
      else .ok (s.setCtx (if source then { c with srcLayout := ls } else { c with dstLayout := ls })) }

/-! ## Copies -/

/-- The accesses of transfer j, at the snapshotted scope: its reads numbered from 2^20 times j on. -/
def Rule.transferAcc (r : Rule) (s : State) (g : Agent) (j : Nat) : Acc :=
  { g := g, scope := scopeOf r.vtype, user := (s.getCtx g).user, key := r.key, elem := j * 2 ^ 20 }

/-- The transfer's source bytes, a wait, or its fault. -/
def State.copySource (s : State) (g : Agent) (k : Nat) (r : Rule) (j : Nat) (scratch : Bool) :
    Except (Cause × Word) (Option (List Byte)) × State :=
  let n := transferBytes r.eng.src
  if scratch then
    match s.scratchFault g (r.srcAt j) n with
    | some a => (.error (.loadfault, a), s)
    | none =>
      if s.scratchWaits g (r.srcAt j) n then
        match s.beginWait g k j with
        | .part s | .wait s | .ok s => (.ok none, s)
        | .fault c a s | .whole c a s => (.error (c, a), s)
      else if s.scratchLost g (r.srcAt j) n then (.error (.dataloss, r.srcAt j), s)
      else (.ok (some (s.scratchRead g (r.srcAt j) n)), s)
  else
    s.readSpan (r.transferAcc s g j) (r.srcAt j) 514 n

/-- Transfer j of a copy (R215, R216): both sides are checked before a byte moves. A transfer that moves reads and writes as one
event (DESIGN CHOICE, log 75); of several faults of one transfer that of the source's translation is reported, else that of the
destination, else that of a scratchpad source or of the data (DESIGN CHOICE, log 75). -/
def State.transferAt (s : State) (g : Agent) (k : Nat) (r : Rule) (j : Nat) (sp : Bool × Bool) : Fired :=
  let n := transferBytes r.eng.src
  let acc := r.transferAcc s g j
  let srcBad := if sp.1 then none else s.spanFault acc .load (r.srcAt j) 3 n
  let dstBad := if sp.2 then (s.scratchFault g (r.dstAt j) n).map fun a => (Cause.storefault, a)
    else s.spanFault acc .store (r.dstAt j) 3 n
  match srcBad, dstBad with
  | some (c, a), _ | none, some (c, a) => .whole c a s
  | none, none =>
    match s.copySource g k r j sp.1 with
    | (.error (c, a), s) => .whole c a s
    | (.ok none, s) => .wait s
    | (.ok (some bs), s) =>
      let mark := fun s : State => (s.mapRule g k fun r => { r with eng := { r.eng with xfers := r.eng.xfers ++ [j] } }).mapCtx g
        fun c => c.forget r.key (some j)
      if sp.2 then .part (mark (s.scratchWrite g (r.dstAt j) bs))
      else
        match s.writeSpan { acc with elem := acc.elem + 2048 } (r.dstAt j) 514 bs with
        | (.error (c, a), s) => .whole c a s
        | (.ok false, s) => .wait s
        | (.ok true, s) => .part (mark s)

/-- The lines that some transfers of a copy touch, by side; a side is none where an access of it does not translate (R178). -/
def State.copyCover (s : State) (g : Agent) (r : Rule) (sp : Bool × Bool) (js : List Nat) : Cover :=
  let n := transferBytes r.eng.src
  let all := fun (f : Nat → Option (List Nat)) =>
    js.foldl (fun (o : Option (List Nat)) j => o.bind fun ls => (f j).map (ls ++ ·)) (some [])
  { rd := if sp.1 then some [] else all fun j => s.linesOfSpan g .load (r.srcAt j) n
    wr := if sp.2 then some [] else all fun j => s.linesOfSpan g .store (r.dstAt j) n
    srd := if sp.1 then some (js.flatMap fun j => scratchLines (r.srcAt j) n) else some []
    swr := if sp.2 then some (js.flatMap fun j => scratchLines (r.dstAt j) n) else some [] }

/-- The lines of a cover. -/
def Cover.touch (c : Cover) : Touch := { rd := c.rd.getD [], wr := c.wr.getD [], srd := c.srd.getD [], swr := c.swr.getD [] }

/-- The tag of a context is set (R215). -/
def Ctx.setTag (c : Ctx) (tag : Nat) : Ctx := { c with ctb := c.ctb ||| (BitVec.ofNat 64 (2 ^ tag) &&& c.tagMask) }
/-- The tag of a context is cleared (R215). -/
def Ctx.clearTag (c : Ctx) (tag : Nat) : Ctx := { c with ctb := c.ctb &&& ~~~ BitVec.ofNat 64 (2 ^ tag) }

/-- The first of some pieces of work that does not wait: what it comes to. The state of a piece that waits stands for the next. -/
def firstMove (f : State → Nat → Fired) (s : State) : List Nat → Fired
  | [] => .wait s
  | j :: js =>
    match f s j with
    | .wait s => firstMove f s js
    | x => x

/-- A copy (R215): its transfers, then its tag. Under a fault only the transfers that have begun go on (R216). -/
def Rule.copyWork (r : Rule) (g : Agent) (k tag : Nat) (sp : Bool × Bool) : Work :=
  { count := 1, reads := fun _ _ => [], writes := fun _ _ => [], holds := fun _ => [], pends := fun _ => []
    uses := (!sp.1, !sp.2, sp.1, sp.2), parts := true
    touch := fun s _ => some (s.copyCover g r sp ((s.getCtx g).mayGo k r.key r.transfersLeft)).touch
    covers := fun s _ => s.copyCover g r sp (List.range (transferCount r.eng.src))
    fire := fun s _ =>
      if r.transfersLeft.isEmpty then .ok (s.mapCtx g fun c => c.setTag tag)
      else firstMove (fun s j => s.transferAt g k r j sp) s ((s.getCtx g).mayGo k r.key r.transfersLeft) }

/-- The phase from which on a `kvsel` or `coll` knows the tag of its descriptor, in `eng.header[7]` (R364, R370). -/
def tagPhase : Instr → Option Nat
  | .kvsel _ | .kvselTwin _ => some 1
  | .coll _ => some 2
  | _ => none

/-- Whether a `kvsel` or `coll` has still to read its descriptor, which names its tag (R219). -/
def Rule.unread (r : Rule) : Bool :=
  !r.eng.orphan && !r.done.getLsbD 0 && ((tagPhase r.instr).map fun p => decide (r.eng.phase < p)).getD false

/-- Which tag an instruction will set, if any (R215, R364, R370); a collective whose task has ended sets none (R214). -/
def tagOf (r : Rule) : Option Nat :=
  if r.eng.orphan || r.done.getLsbD 0 then none else
  match r.instr with
  | .cpgoMm d _ _ | .cpgoMs d _ _ | .cpgoSm d _ _ | .cpgoSs d _ _ => some d.val
  | i => (tagPhase i).bind fun p => if p ≤ r.eng.phase then r.eng.header[7]? else none

/-- Whether an instruction in flight will set a tag (R219): a rule that stands. A copy or a `kvsel` that a trap stopped and a slot keeps does not
count (DESIGN CHOICE, log 70: R219 does not say of a handler's tag words). -/
def Ctx.tagPending (c : Ctx) (tag : Nat) : Bool := c.rules.any fun r => decide (tagOf r = some tag)

/-- The rules of a context that are older than its k-th: those before it, and for one that runs on beside its record those that a slot
keeps (R370). -/
def Ctx.olderRules (c : Ctx) (k : Nat) : List Rule :=
  (match c.rules[k]? with
    | some r => if r.detached then (c.userSlot ++ c.hndSlot ++ c.preSlot).filter fun x => decide (x.seq < r.seq) && !x.detached else []
    | none => []) ++ c.rules.take k

/-- Whether a rule older than the k-th will set a tag, or may: its descriptor is not read (R215, R219, R364, R370). -/
def Ctx.tagAwaited (c : Ctx) (k tag : Nat) : Bool := (c.olderRules k).any fun r => r.unread || decide (tagOf r = some tag)

/-- The issue of a copy at the head of the queue, steps 2-7 of R215: none while it waits, else its rule or its cause. With no
transfers, or none to perform since its element is done (R111, log 18), its tag is set at issue (R215). -/
def Ctx.startCopy (c : Ctx) (r : Rule) (tag : Nat) : Option (Except Cause (Rule × Ctx)) :=
  let capturing := c.rules.any fun x => match x.instr with
    | .cpls _ | .cpld _ => true
    | _ => false
  let src := if r.eng.src.isEmpty then c.srcLayout else r.eng.src
  let dst := if r.eng.src.isEmpty then c.dstLayout else r.eng.dst
  if capturing then none
  else if bitOf c.tagMask.toNat tag = 0 || src.isEmpty || dst.isEmpty || src.length != dst.length ||
      decide (2 ^ 32 < transferCount src) then some (.error .illcfg)
  else if c.tagAwaited c.rules.length tag then none
  else
    let r := { r with eng := { r.eng with src := src, dst := dst, phase := 1 } }
    if transferCount src = 0 || r.done.getLsbD 0 then some (.ok ({ r with done := r.done ||| 1 }, c.setTag tag)) else some (.ok (r, c.clearTag tag))

/-- What the elements of a scratchpad or copy rule do; none for any other instruction. -/
def scratchWork (g : Agent) (k : Nat) (r : Rule) : Option Work :=
  match r.instr with
  | .vspld v _ m _ => some (r.vspldWork g k v.val m)
  | .vspst v _ m _ => some (r.vspstWork g v.val m)
  | .vpst v _ vs => some (r.vpstWork g v.val vs.val)
  | .vpld v _ vs => some (r.vpldWork g k v.val vs.val)
  | .cpls a => some (r.captureWork g a.val true)
  | .cpld a => some (r.captureWork g a.val false)
  | .cpgoMm d _ _ | .cpgoMs d _ _ | .cpgoSm d _ _ | .cpgoSs d _ _ =>
    (copySpaces r.instr).map fun sp => r.copyWork g k d.val sp
  | _ => none

/-! ## Meanings -/

/-- The cause of a bit-plane word under the configuration that it would snapshot (R210). -/
def State.planeCause (s : State) : Option Cause :=
  let vt := s.ctx.vtype
  if clsOf vt ≠ 6 ∨ s.ctx.vl = 0 ∨ s.ctx.vl.toNat % blockOf vt ≠ 0 ∨ s.ctx.vstart ≠ 0 then some .illcfg else none

/-- vspld (R207). -/
def execVspld (v b : Reg) (m : Fin 4) (dt : Bool) (s : State) : Result := issueLoad (s.snapshotMem (.vspld v b m dt) b) s
/-- vspst (R207); collecting mode does not record it (R182, R227). -/
def execVspst (v b : Reg) (m : Fin 4) (dt : Bool) (s : State) : Result := issueLoad (s.snapshotMem (.vspst v b m dt) b) s
/-- vpst (R210). It waits for vl before it looks at it (R130). -/
def execVpst (v b x : Reg) (s : State) : Result :=
  if s.ctx.vlUnresolved then done s.stall else issueRule s.planeCause { s.snapshot (.vpst v b x) with opA := s.getX b } s
/-- vpld (R210). It waits for vl before it looks at it (R130). -/
def execVpld (v b x : Reg) (s : State) : Result :=
  if s.ctx.vlUnresolved then done s.stall else issueRule s.planeCause { s.snapshot (.vpld v b x) with opA := s.getX b } s

/-- The cause of a capture (R212). -/
def State.captureCause (s : State) : Option Cause :=
  if sewOf s.ctx.vtype ≠ 3 ∨ s.ctx.vl = 0 ∨ 6 < s.ctx.vl.toNat then some .illcfg else none

/-- cpls (R212). It waits for vl before it looks at it (R130). -/
def execCpls (a : Reg) (s : State) : Result :=
  if s.ctx.vlUnresolved then done s.stall else issueRule s.captureCause (s.snapshot (.cpls a)) s
/-- cpld (R212). It waits for vl before it looks at it (R130). -/
def execCpld (a : Reg) (s : State) : Result :=
  if s.ctx.vlUnresolved then done s.stall else issueRule s.captureCause (s.snapshot (.cpld a)) s

/-- Issues a copy: NOCOLLECT first; the rest of R215 happens at the head of the queue. -/
def issueCopy (i : Instr) (a b : Reg) (s : State) : Result :=
  issueRule (if s.ctx.collecting then some .nocollect else none) { s.snapshot i with opA := s.getX a, opB := s.getX b } s

/-- cpgo.mm (R215). -/
def execCpgoMm (d a b : Reg) (s : State) : Result := issueCopy (.cpgoMm d a b) a b s
/-- cpgo.ms (R215). -/
def execCpgoMs (d a b : Reg) (s : State) : Result := issueCopy (.cpgoMs d a b) a b s
/-- cpgo.sm (R215). -/
def execCpgoSm (d a b : Reg) (s : State) : Result := issueCopy (.cpgoSm d a b) a b s
/-- cpgo.ss (R215). -/
def execCpgoSs (d a b : Reg) (s : State) : Result := issueCopy (.cpgoSs d a b) a b s

end Sys2Proof.Machine
end

