-- ==== Sys2Proof/Machine/Matrix.lean ====
section
/-! DEFINITION. The matrix array: tiles, claims, products, weight buffers and tile moves (13_matrix.md R292-R309, R427). -/

namespace Sys2Proof.Machine

/-! ## mtype -/

/-- Whether an mtype has no reserved value (R293); the claim is checked against the kernel's tile mask apart. -/
def mtypeOk (mt : Word) : Bool :=
  decide (fmtOf mt < 7) && decide (mt.toNat / 2 ^ 4 % 8 < 7) && decide (bitOf mt.toNat 7 = 0) && decide (bitOf mt.toNat 15 = 0) &&
  decide (bitOf mt.toNat 23 = 0) && decide (bitOf mt.toNat 27 = 0) && decide (mt.toNat / 2 ^ 32 = 0)

/-! ## Cells -/

/-- The physical tile of a name (R292); 4, which no core has, for a name that is not mapped. -/
def Ctx.tile (c : Ctx) (t : Nat) : Nat := ((c.tileMap.toList[t]?).getD none).getD 4

/-- A cell: its accumulator word plus 2^32 times its partial word. -/
def Core.cell (c : Core) (tile i j : Nat) : Nat := (lookup? (16384 * tile + 128 * i + j) c.cells).getD 0

/-- Changes cells of a tile: key 128 i + j and new value; a zero is not listed. -/
def Core.putCells (c : Core) (tile : Nat) (new : List (Nat × Nat)) : Core :=
  let keys := new.map fun x => 16384 * tile + x.1
  { c with cells := (c.cells.filter fun e => !keys.contains e.1) ++
      ((new.filter fun x => x.2 != 0).map fun x => (16384 * tile + x.1, x.2)) }

/-- The cells that a context's tile name holds, row i, columns below n. -/
def State.rowCells (s : State) (g : Agent) (t i n : Nat) : List Nat :=
  (List.range n).map fun j => (s.core (scratchCore g)).cell ((s.getCtx g).tile t) i j

/-- Changes cells of a context's tile name, and raises flags. -/
def State.putTile (s : State) (g : Agent) (t : Nat) (new : List (Nat × Nat)) (flags : Nat) : State :=
  let ph := (s.getCtx g).tile t
  (if ph = 4 then s else s.mapCore (scratchCore g) fun c => c.putCells ph new).mapCtx g fun c => c.raise flags

/-! ## Products -/

/-- Elements of an operand word and the bits of each (R293, R296). -/
def packing (fmt b : Nat) : Nat × Nat :=
  match fmt with
  | 0 | 1 | 2 => (4, 8)
  | 3 | 4 => (2, 16)
  | 5 => (1, 32)
  | _ => (32 / b, b)

/-- Whether a format accumulates integers. -/
def isExactFmt (fmt : Nat) : Bool := fmt == 0 || fmt == 6

/-- The float format of an mtype format. -/
def floatFmt (fmt : Nat) : Format :=
  match fmt with
  | 1 => e4m3
  | 2 => e5m2
  | 3 => bfloat16
  | 4 => binary16
  | _ => binary32

/-- Element q of an operand word, as raw bits (R296). -/
def packed (fmt b w q : Nat) : Nat := let p := packing fmt b; w / 2 ^ (p.2 * q) % 2 ^ p.2

/-- The value of an element of an operand word (R296). -/
def elemVal (fmt b code : Nat) : Val :=
  if isExactFmt fmt then Val.ofInt (signedOf (packing fmt b).2 code) else (floatFmt fmt).value code

/-- The exact sum of products with a start; a NaN anywhere gives NaN without a flag (R300). -/
def dot (start : Val) (xs : List (Val × Val)) : Val × Nat :=
  if decide (start = .nan) || xs.any fun p => decide (p.1 = .nan) || decide (p.2 = .nan) then (.nan, 0)
  else xs.foldl (fun acc p =>
    let m := p.1.mul p.2
    let r := if decide (acc.1 = .nan) then (Val.nan, 0) else acc.1.add 0 m.1
    (r.1, Nat.lor acc.2 (Nat.lor m.2 r.2))) (start, 0)

/-- One word's products added to a cell (R300): int8 into the accumulator with wrap, bfp into the partial word, any other format
into the accumulator with one RNE rounding. -/
def accumulate (fmt cell : Nat) (xs : List (Val × Val)) : Nat × Nat :=
  let acc : Nat := cell % 2 ^ 32
  let part : Nat := cell / 2 ^ 32
  if isExactFmt fmt then
    let sum := ((dot (Val.ofInt 0) xs).1.toInt 1).1
    if fmt = 0 then (codeOf 32 ((acc : Int) + sum) + 2 ^ 32 * part, 0) else (acc + 2 ^ 32 * codeOf 32 ((part : Int) + sum), 0)
  else
    let d := dot (binary32.value acc) xs
    let r := binary32.round 0 false d.1
    (r.1 + 2 ^ 32 * part, Nat.lor d.2 r.2)

/-- The products of two operand words (R296, R300). -/
def wordProducts (fmt b wa wb : Nat) : List (Val × Val) :=
  (List.range (packing fmt b).1).map fun q => (elemVal fmt b (packed fmt b wa q), elemVal fmt b (packed fmt b wb q))

/-- The products that a metadata nibble selects (R301). -/
def sparseProducts (fmt b : Nat) (as : List Nat) (g wb nibble : Nat) : List (Val × Val) :=
  let n := (packing fmt b).1
  let kept := fun p => elemVal fmt b (packed fmt b (nth as (p / n)) (p % n))
  let of := fun q => elemVal fmt b (packed fmt b wb q)
  [(kept (2 * g), of (nibble % 4)), (kept (2 * g + 1), of (nibble / 4 % 4))]

/-- Words added to a cell in ascending depth. -/
def accumulateAll (fmt cell : Nat) (xss : List (List (Val × Val))) : Nat × Nat :=
  xss.foldl (fun acc xs => let r := accumulate fmt acc.1 xs; (r.1, Nat.lor acc.2 r.2)) (cell, 0)

/-- Word x of a named register, under a rule's window (R296). -/
def Rule.word (r : Rule) (c : Ctx) (name x : Nat) : Nat := c.elem r.wb name 4 x

/-- The words x to x + n - 1 of a register as a place. -/
def Rule.words (r : Rule) (name x n : Nat) : Loc := .v (vaddr r.wb name (4 * x)) (4 * n)

/-- A truncated weight element: its low B - p bits are dropped, toward -infinity (R306). -/
def truncated (fmt b p code : Nat) : Nat := if fmt = 6 && decide (0 < p) then code / 2 ^ (b - p) * 2 ^ (b - p) else code

/-- A weight word with its elements truncated. -/
def truncatedWord (fmt b p w : Nat) : Nat :=
  let k := packing fmt b
  (List.range k.1).foldl (fun acc q => acc + truncated fmt b p (packed fmt b w q) * 2 ^ (k.2 * q)) 0

/-- A rule that makes products row by row: `need` are the places beside the tile, `prods` the products of row i with column j,
word by word, none where the row's metadata is illegal. -/
def Rule.rowWork (r : Rule) (g : Agent) (t : Nat) (m : Fin 4) (need : Nat → List Loc)
    (prods : State → Nat → Nat → Option (List (List (Val × Val)))) : Work :=
  let fmt := fmtOf r.mtype
  let n := nvlOf r.mtype
  let cells := fun i => Loc.cells t i 1 0 n
  { count := mvlOf r.mtype, mask := m
    reads := fun _ i => cells i :: need i, writes := fun _ i => [cells i]
    holds := fun i => cells i :: need i, pends := fun i => [cells i]
    fire := fun s i =>
      let olds := s.rowCells g t i n
      let row := (List.range n).map fun j => (prods s i j).map fun ps => (128 * i + j, accumulateAll fmt (nth olds j) ps)
      if row.any Option.isNone then .fault .sparsemeta 0 s
      else
        let out := row.filterMap id
        .ok (s.putTile g t (out.map fun x => (x.1, x.2.1)) (out.foldl (fun f x => Nat.lor f x.2.2) 0)) }

/-- mop (R300). -/
def Rule.mopWork (r : Rule) (g : Agent) (t a b : Nat) (m : Fin 4) : Work :=
  let kd := kdOf r.mtype
  let fmt := fmtOf r.mtype
  let bb := mbits r.mtype
  r.rowWork g t m (fun i => [r.words a (i * kd) kd, r.words b 0 (nvlOf r.mtype * kd)]) fun s i j =>
    let c := s.getCtx g
    some ((List.range kd).map fun w => wordProducts fmt bb (r.word c a (i * kd + w)) (r.word c b (j * kd + w)))

/-- mops (R301, R427). -/
def Rule.mopsWork (r : Rule) (g : Agent) (t a b md : Nat) (m : Fin 4) : Work :=
  let kd := kdOf r.mtype
  let fmt := fmtOf r.mtype
  let bb := mbits r.mtype
  r.rowWork g t m (fun i => [r.words a (i * (kd / 2)) (kd / 2), r.words md i 1, r.words b 0 (nvlOf r.mtype * kd)]) fun s i j =>
    let c := s.getCtx g
    let nibble := fun k => r.word c md i / 2 ^ (4 * k) % 16
    let as := (List.range (kd / 2)).map fun w => r.word c a (i * (kd / 2) + w)
    if (List.range kd).any fun k => decide (nibble k / 4 ≤ nibble k % 4) then none
    else some ((List.range kd).map fun k => sparseProducts fmt bb as k (r.word c b (j * kd + k)) (nibble k))

/-- The words of a weight buffer of the core. -/
def State.weightWord (s : State) (g : Agent) (buf j w : Nat) : Nat :=
  match ((s.core (scratchCore g)).weights.toList[buf]?).getD none with
  | some x => (lookup? (8 * j + w) x.words).getD 0
  | none => 0

/-- Whether an `mvw` finds a unit of its buffer with an error that could not be corrected (R421, R422). -/
def State.weightsLost (s : State) (g : Agent) (r : Rule) : Bool :=
  match r.instr with
  | .mvw _ _ b _ _ => s.lostUnits.any fun u => match u with
      | .weight k buf n => decide (k = scratchCore g) && buf == b.val && decide (n / 4 < nvlOf r.mtype) &&
          decide (2 * (n % 4) < kdOf r.mtype)
      | _ => false
  | _ => false

/-- mvw (R306): p is the captured plane count. From its first row on it counts as reading its buffer (R303). -/
def Rule.mvwWork (r : Rule) (g : Agent) (k t a buf : Nat) (m : Fin 4) : Work :=
  let kd := kdOf r.mtype
  let fmt := fmtOf r.mtype
  let bb := mbits r.mtype
  let w := r.rowWork g t m (fun i => [r.words a (i * kd) kd]) fun s i j =>
    let c := s.getCtx g
    some ((List.range kd).map fun w =>
      wordProducts fmt bb (r.word c a (i * kd + w)) (truncatedWord fmt bb r.opA.toNat (s.weightWord g buf j w)))
  { w with fire := fun s i => match w.fire s i with
    | .ok s => .ok (s.mapRule g k fun r => { r with eng := { r.eng with phase := 1 } })
    | f => f }

/-! ## Operands from memory -/

/-- Depth word w of column j: its address (R302, R305). -/
def columnAddr (base stride : Word) (j w : Nat) : Word := base + BitVec.ofNat 64 w * stride + BitVec.ofNat 64 (4 * j)

/-- Reads the depth words of a column (R302): every check and read before any effect. A remote page is a LOADFAULT. -/
def State.readColumn (s : State) (g : Agent) (r : Rule) (base stride : Word) (j : Nat) : Nat → Nat →
    Except (Cause × Word) (Option (List Nat)) × State
  | 0, _ => (.ok (some []), s)
  | left + 1, w =>
    let va := columnAddr base stride j w
    let c := s.getCtx g
    match addrFault .loadfault va 4 with
    | some x => (.error (x, va), s)
    | none =>
      match s.translate (placeOf g) (s.tenantOf g) .load c.user va with
      | .error x => (.error (x, va), s)
      | .ok p =>
        if p.attr = .remote then (.error (.loadfault, va), s)
        else
          match s.loadOwn { r.acc c j with elem := j * 2 ^ 20 + w, span := none } (r.lists c) va 4 with
          | .fault x s => (.error (x, va), s)
          | .wait s => (.ok none, s)
          | .ok bs s =>
            match State.readColumn s g r base stride j left (w + 1) with
            | (.ok (some rest), s) => (.ok (some (ofBytes bs :: rest)), s)
            | x => x

/-- The lines of a column's depth words. -/
def State.columnTouch (s : State) (g : Agent) (base stride : Word) (j kd : Nat) : Option Touch :=
  ((List.range kd).foldl (fun (o : Option (List Nat)) w =>
    o.bind fun ls => (s.lineOf g .load (columnAddr base stride j w)).map fun l => ls ++ [l]) (some [])).map fun ls => { rd := ls }

/-- mopm (R302): its elements are columns. -/
def Rule.mopmWork (r : Rule) (g : Agent) (t a : Nat) (m : Fin 4) : Work :=
  let kd := kdOf r.mtype
  let fmt := fmtOf r.mtype
  let bb := mbits r.mtype
  let mv := mvlOf r.mtype
  let cells := fun j => Loc.cells t 0 mv j 1
  let rd := fun j => [cells j, r.words a 0 (mv * kd)]
  let touch := fun (s : State) j => s.columnTouch g r.opB r.opA j kd
  { count := nvlOf r.mtype, mask := m
    reads := fun _ j => rd j, writes := fun _ j => [cells j], holds := rd, pends := fun j => [cells j]
    uses := (true, false, false, false), early := true, touch := touch, covers := fun s j => Cover.of (touch s j)
    fire := fun s j =>
      match s.readColumn g r r.opB r.opA j kd 0 with
      | (.error (x, va), s) => .fault x va s
      | (.ok none, s) => .wait s
      | (.ok (some bs), s) =>
        let c := s.getCtx g
        let out := (List.range mv).map fun i =>
          (128 * i + j, accumulateAll fmt ((s.core (scratchCore g)).cell (c.tile t) i j)
            ((List.range kd).map fun w => wordProducts fmt bb (r.word c a (i * kd + w)) (nth bs w)))
        .ok (s.putTile g t (out.map fun x => (x.1, x.2.1)) (out.foldl (fun f x => Nat.lor f x.2.2) 0)) }

/-- Whether a rule is an `mvw` that has read a part of a weight buffer and not yet all of it (R303). -/
def Rule.readsBuffer (r : Rule) (buf : Nat) : Bool :=
  match r.instr with
  | .mvw _ _ b _ _ | .mvwTwin _ _ b _ _ => b.val == buf && r.eng.phase == 1 && (List.range (mvlOf r.mtype)).any fun i => !r.done.getLsbD i
  | _ => false

/-- Whether an `mvw` of any context of the core, the stopped ones too, is reading a weight buffer (R303). -/
def State.bufferRead (s : State) (core buf : Nat) : Bool :=
  s.allCtx.any fun c => decide (c.scratchHome = some core) && c.inFlight.any fun r => r.readsBuffer buf

/-- Whether one of the first k rules of a context still uses a weight buffer: an `mvw` reads the version before a younger load, and loads
complete in their order (R303). -/
def Ctx.usesBuffer (c : Ctx) (k buf : Nat) : Bool :=
  (c.rules.take k).any fun r => match r.instr with
    | .mvw _ _ b _ _ | .mvwTwin _ _ b _ _ => b.val == buf && (List.range (mvlOf r.mtype)).any fun i => !r.done.getLsbD i
    | .mwl d _ _ | .mwlTwin d _ _ => d.val == buf && !r.done.getLsbD (r.opB.toNat / 2 ^ 8 % 128 + 1)
    | _ => false

/-- A load of a weight buffer completes (R303, R305): its version replaces the contents and the format in one step. A column
that vstart passed over was not read: its words are open (log 19). -/
def State.completeWeights (s : State) (g : Agent) (k : Nat) (r : Rule) (buf : Nat) : Fired :=
  let core := scratchCore g
  if s.bufferRead core buf || (s.getCtx g).usesBuffer k buf then .wait s
  else
    let fm := BitVec.ofNat 64 (r.opB.toNat % 2 ^ 19)
    let kd := r.opB.toNat / 2 ^ 16 % 8 + 1
    let cols := r.opB.toNat / 2 ^ 8 % 128 + 1
    let words := (List.range cols).flatMap fun j => (List.range kd).map fun w =>
      (8 * j + w, match lookup? j r.eng.chunks with
        | some bs => ofBytes ((bs.drop (4 * w)).take 4)
        | none => (Config.skippedWord (s.junk + 8 * j + w)).toNat)
    let s := if r.eng.chunks.length < cols then { s with junk := s.junk + 1024 } else s
    let s := { s with lostUnits := s.lostUnits.filter fun u => match u with
        | .weight k' b _ => decide (k' ≠ core) || b != buf
        | _ => true }
    .ok (s.mapCore core fun c => { c with weights := c.weights.setIfInBounds buf (some { format := fm, words := words }) })

/-- mwl (R305): columns below nvl, and after them one last element, which completes the load. -/
def Rule.mwlWork (r : Rule) (g : Agent) (k buf : Nat) : Work :=
  let cols := r.opB.toNat / 2 ^ 8 % 128 + 1
  let kd := r.opB.toNat / 2 ^ 16 % 8 + 1
  let stride := r.opB >>> 32
  let touch := fun (s : State) j => if j < cols then s.columnTouch g r.opA stride j kd else some {}
  { count := cols + 1
    reads := fun _ _ => [], writes := fun _ _ => [], holds := fun _ => [], pends := fun _ => []
    uses := (true, false, false, false), early := true, touch := touch, covers := fun s j => Cover.of (touch s j)
    fire := fun s j =>
      if j < cols then
        match s.readColumn g r r.opA stride j kd 0 with
        | (.error (x, va), s) => .fault x va s
        | (.ok none, s) => .wait s
        | (.ok (some ws), s) =>
          .ok (s.mapRule g k fun r => { r with eng := { r.eng with chunks := r.eng.chunks ++ [(j, ws.flatMap fun w => toBytes 4 w)] } })
      else if !r.below s g k cols then .wait s
      else s.completeWeights g k r buf }

/-! ## Scales and moves -/

/-- mfold on one cell (R307). -/
def foldCell (b cell sa sb : Nat) : Nat × Nat :=
  if sa = 255 ∨ sb = 255 then (binary32.cnan, 0)
  else
    let p := signedOf 32 (cell / 2 ^ 32)
    let e : Int := (sa : Int) - 127 - ((b : Int) - 2) + ((sb : Int) - 127 - ((b : Int) - 2))
    let r := (binary32.value (cell % 2 ^ 32)).add 0 (.fin (decide (p < 0)) p.natAbs e false)
    let c := binary32.round 0 false r.1
    (c.1, Nat.lor r.2 c.2)

/-- mfold (R307). -/
def Rule.mfoldWork (r : Rule) (g : Agent) (t a b : Nat) : Work :=
  let n := nvlOf r.mtype
  let rd := fun i => [Loc.cells t i 1 0 n, r.velem a 1 i, .v (vaddr r.wb b 0) n]
  { count := mvlOf r.mtype
    reads := fun _ i => rd i, writes := fun _ i => [.cells t i 1 0 n], holds := rd, pends := fun i => [.cells t i 1 0 n]
    fire := fun s i =>
      let c := s.getCtx g
      let olds := s.rowCells g t i n
      let out := (List.range n).map fun j =>
        (128 * i + j, foldCell (mbits r.mtype) (nth olds j) (c.elem r.wb a 1 i) (c.elem r.wb b 1 j))
      .ok (s.putTile g t (out.map fun x => (x.1, x.2.1)) (out.foldl (fun f x => Nat.lor f x.2.2) 0)) }

/-- A tile move (R308): element 0 reads and writes some places. -/
def moveWork (rd wr : List Loc) (f : State → State) : Work :=
  { count := 1, reads := fun _ _ => rd, writes := fun _ _ => wr, holds := fun _ => rd, pends := fun _ => wr
    fire := fun s _ => .ok (f s) }

/-- What the elements of a matrix rule do; none for any other instruction. -/
def matrixWork (g : Agent) (k : Nat) (r : Rule) : Option Work :=
  let mv := mvlOf r.mtype
  let nv := nvlOf r.mtype
  let x := r.opB.toNat % 128
  match r.instr with
  | .mop t a b m => some (r.mopWork g t.val a.val b.val m)
  | .mops t a b c m | .mopsTwin t a b c m => some (r.mopsWork g t.val a.val b.val c.val m)
  | .mopm t a _ _ m => some (r.mopmWork g t.val a.val m)
  | .mvw t a b _ m | .mvwTwin t a b _ m => some (r.mvwWork g k t.val a.val b.val m)
  | .mwl d _ _ | .mwlTwin d _ _ => some (r.mwlWork g k d.val)
  | .mfold d a b => some (r.mfoldWork g d.val a.val b.val)
  | .mzero d => some (moveWork [] [.cells d.val 0 128 0 128] fun s =>
      let ph := (s.getCtx g).tile d.val
      let s := { s with lostUnits := s.lostUnits.filter fun u => match u with
          | .cell k x => decide (k ≠ scratchCore g) || x / 16384 != ph
          | _ => true }
      s.mapCore (scratchCore g) fun c => { c with cells := c.cells.filter fun e => e.1 / 16384 != ph })
  | .mrd d a _ => some (moveWork [.cells a.val x 1 0 nv] [r.words d.val 0 nv] fun s =>
      let row := s.rowCells g a.val x nv
      s.mapCtx g fun c => (List.range nv).foldl (fun (c : Ctx) j => c.setElem r.wb d.val 4 j (nth row j % 2 ^ 32)) c)
  | .mrdc d a _ => some (moveWork [.cells a.val 0 mv x 1] [r.words d.val 0 mv] fun s =>
      let ph := (s.getCtx g).tile a.val
      let col := (List.range mv).map fun i => (s.core (scratchCore g)).cell ph i x
      s.mapCtx g fun c => (List.range mv).foldl (fun (c : Ctx) i => c.setElem r.wb d.val 4 i (nth col i % 2 ^ 32)) c)
  | .mwr d a _ => some (moveWork [r.words a.val 0 nv] [.cells d.val x 1 0 nv] fun s =>
      let c := s.getCtx g
      let olds := s.rowCells g d.val x nv
      s.putTile g d.val ((List.range nv).map fun j => (128 * x + j, nth olds j / 2 ^ 32 * 2 ^ 32 + r.word c a.val j)) 0)
  | _ => none

/-! ## Meanings -/

/-- TILE: the named tile is not claimed (R295). -/
def State.tileCause (s : State) (i : Instr) : Bool :=
  match tileOf i with
  | some t => decide (bitOf (claimOf s.ctx.mtype) t = 0)
  | none => false

/-- Issues a matrix word: the table of R299, then TILE, then its own ILLCFG. -/
def issueTile (illop illcfg : Bool) (r : Rule) (s : State) : Result :=
  if s.consultWaits r then done s.stall else issueRule (firstCause [(illop, .illop), (s.tileCause r.instr, .tile), (illcfg, .illcfg)]) r s

/-- Whether mops is illegal under an mtype (R299). -/
def mopsIllegal (mt : Word) : Bool := decide (2 < fmtOf mt) || kdOf mt % 2 == 1

/-- Whether a format word of mwl is legal (R304). -/
def weightFormatOk (w : Word) : Bool :=
  decide (w.toNat % 16 < 7) && decide (w.toNat / 2 ^ 4 % 8 < 7) && decide (bitOf w.toNat 7 = 0) && decide (bitOf w.toNat 15 = 0) &&
  decide (w.toNat / 2 ^ 19 % 2 ^ 13 = 0) && decide (w.toNat / 2 ^ 32 % 4 = 0)

/-- mop (R300). -/
def execMop (t : Fin 4) (a b : Reg) (m : Fin 4) (s : State) : Result := issueTile false false (s.snapshot (.mop t a b m)) s
/-- mops (R301). -/
def execMops (t : Fin 4) (a b c : Reg) (m : Fin 4) (s : State) : Result :=
  issueTile (mopsIllegal s.ctx.mtype) false (s.snapshot (.mops t a b c m)) s
/-- mopm (R302): the address in `opB`, the stride in `opA`, and the lists of collecting mode. -/
def execMopm (t : Fin 4) (a b c : Reg) (m : Fin 4) (s : State) : Result :=
  issueTile false false { s.snapshotMem (.mopm t a b c m) c with opB := s.getX b } s
/-- mvw (R306): the plane count in `opA`; the buffer is checked at the head of the queue, after older loads of it (R303). -/
def execMvw (t : Fin 4) (a b c : Reg) (m : Fin 4) (s : State) : Result :=
  issueTile false false { s.snapshot (.mvw t a b c m) with opA := s.getX c } s
/-- mzero (R308). -/
def execMzero (d : Reg) (s : State) : Result := issueTile false false (s.snapshot (.mzero d)) s
/-- mfold (R307). -/
def execMfold (d a b : Reg) (s : State) : Result := issueTile (fmtOf s.ctx.mtype != 6) false (s.snapshot (.mfold d a b)) s
/-- mrd (R308). -/
def execMrd (d a b : Reg) (s : State) : Result :=
  issueTile false (decide (127 < (s.getX b).toNat)) { s.snapshot (.mrd d a b) with opB := s.getX b } s
/-- mrdc (R308). -/
def execMrdc (d a b : Reg) (s : State) : Result :=
  issueTile false (decide (127 < (s.getX b).toNat)) { s.snapshot (.mrdc d a b) with opB := s.getX b } s
/-- mwr (R308). -/
def execMwr (d a b : Reg) (s : State) : Result :=
  issueTile false (decide (127 < (s.getX b).toNat)) { s.snapshot (.mwr d a b) with opB := s.getX b } s
/-- mwl (R305). Its completing element stays to do whatever vstart is (R111). -/
def execMwl (d a b : Reg) (s : State) : Result :=
  let w := s.getX b
  let r := { s.snapshotMem (.mwl d a b) a with opB := w, vstart := min s.ctx.vstart.toNat (w.toNat / 2 ^ 8 % 128 + 1) }
  if s.consultWaits r then done s.stall else issueRule (if weightFormatOk w then none else some .illcfg) r s

/-- mset (R134, R294): a newly claimed tile reads as zero; older rules that still name it finish first. -/
def execMset (a : Reg) (s : State) : Result :=
  let c := s.ctx
  let mt := s.getX a
  let new := (List.range 4).filter fun t => bitOf (claimOf mt) t == 1 && bitOf (claimOf c.mtype) t == 0
  if mtypeOk mt = false || (List.range 4).any fun t => bitOf (claimOf mt) t == 1 && bitOf c.tileMask t == 0 then trap .illcfg 0 s
  else if new.any c.namesTile then done s.stall
  else
    let phs := new.map c.tile
    let s := { s.mapCore (scratchCore c.agent) fun k => { k with cells := k.cells.filter fun e => !phs.contains (e.1 / 16384) } with
      lostUnits := s.lostUnits.filter fun u => match u with
        | .cell k x => decide (k ≠ scratchCore c.agent) || !phs.contains (x / 16384)
        | _ => true }
    done ({ s with ctx := ({ s.ctx with mtype := mt } : Ctx).endClaims } : State).advance

/-- The word of mstat (R309). -/
def State.mstatWord (s : State) : Word :=
  let f := fun b => ((s.core (scratchCore s.ctx.agent)).weights.toList[b]?).getD none
  let has := fun b => if (f b).isSome then 1 else 0
  let fm := fun b => ((f b).map fun x => x.format.toNat % 2 ^ 19).getD 0
  BitVec.ofNat 64 (claimOf s.ctx.mtype + 2 ^ 4 * s.ctx.tileMask + 2 ^ 8 * has 0 + 2 ^ 9 * has 1 + 2 ^ 13 * fm 0 + 2 ^ 32 * fm 1)

/-- mstat (R309): it waits for older loads of weight buffers. -/
def execMstat (d : Reg) (s : State) : Result :=
  if s.ctx.noneOf (fun i => match i with
    | .mwl _ _ _ | .mwlTwin _ _ _ => true
    | _ => false) then writeResult d s.mstatWord s
  else done s.stall

end Sys2Proof.Machine
end

