-- ==== Sys2Proof/Machine/Collect.lean ====
section
/-! DEFINITION. Collecting mode and effect lists (09_effects.md R220-R239): entering and leaving, list operations, and the
application of a list. -/

namespace Sys2Proof.Machine

/-! ## Regions and handles -/

/-- The lowest free handle (R225, R236). -/
def Ctx.freeHandle (c : Ctx) : Option Nat := firstFrom (fun h => decide ((c.handle h).state = .free)) 0 16

/-- The handle that a register names, where it is in a state (R222). -/
def Ctx.handleIn (c : Ctx) (w : Word) (st : HandleState) : Option Handle :=
  if 15 < w.toNat then none else
  let h := c.handle w.toNat
  if h.state = st then some h else none

/-- Whether an older load still consults records of a region that a new one would meet (R233): the region waits for it (log 76). -/
def Ctx.regionRead (c : Ctx) (base cap : Word) : Bool := (c.rules ++ c.queue).any fun r => r.consultsRegion base.toNat cap.toNat

/-- Whether a region is legal and meets none that a handle in use refers to (R223). -/
def Ctx.regionOk (c : Ctx) (base cap : Word) : Bool :=
  base.toNat % 128 == 0 && cap.toNat % 128 == 0 && decide (256 ≤ cap.toNat) && decide (cap.toNat ≤ 2 ^ 40) &&
  c.handles.toList.all fun h => decide (h.state = .free) || h.segs.all fun g =>
    !meets base.toNat cap.toNat g.base.toNat g.capacity.toNat

/-- Reads the region descriptor at an address and goes on with its region, empty (R223; the taddr of an illegal one is log 60's). -/
def withRegion (va : Word) (s : State) (f : Segment → State → Result) : Result :=
  if s.ctx.svHeld then done s.stall
  else if isCanonical va = false then trap .loadfault va s
  else if va.toNat % 8 ≠ 0 then trap .align va s
  else
    match s.loadAt s.scalarAcc va 8 [] with
    | .fault c s => trap c va s
    | .wait s => done s.stall
    | .ok a s =>
      match s.loadAt { s.scalarAcc with elem := 1 } (va + 8) 8 [] with
      | .fault c s => trap c (va + 8) s
      | .wait s => done s.stall
      | .ok b s =>
        let base := BitVec.ofNat 64 (ofBytes a)
        let cap := BitVec.ofNat 64 (ofBytes b)
        if s.ctx.regionRead base cap then done s.stall
        else if s.ctx.regionOk base cap then f { base := base, capacity := cap, used := 0, steps := [] } s
        else trap .illcfg va s

/-- ccall (R225). -/
def execCcall (d a b : Reg) (s : State) : Result :=
  let c := s.ctx
  match c.freeHandle with
  | none => trap .illcfg 0 s
  | some h =>
    if c.cdepth = 4 then trap .illcfg 0 s
    else withRegion (s.getX b) s fun g s =>
      let target := c.getX a
      let link := c.instrPc + 4
      let c := s.ctx.setHandle h { state := .opened, segs := [g] }
      let c := { c with frames := c.frames.setIfInBounds c.cdepth { handle := h, d := d }, cdepth := c.cdepth + 1 }
      let c := (c.setX d (BitVec.ofNat 64 h)).setX 1 link
      done (({ s with ctx := c } : State).jumpTo target)

/-- Whether a rule records, or appends, into a handle (R226, R238). -/
def Rule.recordsInto (r : Rule) (h : Nat) : Bool :=
  decide (0 < r.cdepth) && r.chandle == h && (isRecording r.instr || match r.instr with
    | .elapply _ => true
    | _ => false)

/-- cret (R226). The filter is cleared when the depth returns to 0 (R234). -/
def execCret (s : State) : Result :=
  let c := s.ctx
  if c.cdepth = 0 then trap .illcfg 0 s
  else
    let h := c.activeHandle
    if (c.rules ++ c.queue).any fun r => r.recordsInto h then done s.stall
    else
      let ret := c.getX 1
      let d := ((c.frames.toList[c.cdepth - 1]?).map (·.d)).getD 0
      let c := c.setHandle h { c.handle h with state := .sealed }
      let c : Ctx := { c.setX d (BitVec.ofNat 64 h) with cdepth := c.cdepth - 1 }
      let c := if c.cdepth = 0 then { c with filter := 0 } else c
      done (({ s with ctx := c } : State).jumpTo ret)

/-! ## List operations -/

/-- A new sealed handle takes a view; its number goes to X[d] (R236). -/
def newView (d : Reg) (segs : Option (List Segment)) (s : State) : Result :=
  match segs, s.ctx.freeHandle with
  | some gs, some h =>
    writeResult d (BitVec.ofNat 64 h) { s with ctx := s.ctx.setHandle h { state := .sealed, segs := gs } }
  | _, _ => trap .illcfg 0 s

/-- A view with one more step on every chain; none where a chain would pass 4 steps (R236). -/
def withStep (h : Handle) (t : ChainStep) : Option (List Segment) :=
  if h.segs.all fun g => decide (g.steps.length < 4) then some (h.segs.map fun g => { g with steps := g.steps ++ [t] }) else none

/-- elcat (R236). -/
def execElcat (d a b : Reg) (s : State) : Result :=
  match s.ctx.handleIn (s.getX a) .sealed, s.ctx.handleIn (s.getX b) .sealed with
  | some x, some y => newView d (if x.segs.length + y.segs.length ≤ 8 then some (x.segs ++ y.segs) else none) s
  | _, _ => trap .illcfg 0 s

/-- The register `k` names further (R45 keeps it in range). -/
def regPlus (r : Reg) (k : Nat) : Reg := ⟨(r.val + k) % 128, Nat.mod_lt _ (by decide)⟩

/-- elfilt (R236). -/
def execElfilt (d a b : Reg) (s : State) : Result :=
  match s.ctx.handleIn (s.getX a) .sealed with
  | some x => newView d (withStep x { rebase := false, lo := s.getX b, hi := s.getX (regPlus b 1), delta := 0 }) s
  | none => trap .illcfg 0 s

/-- elrebase (R236). -/
def execElrebase (d a b : Reg) (s : State) : Result :=
  match s.ctx.handleIn (s.getX a) .sealed with
  | some x =>
    newView d (withStep x { rebase := true, lo := s.getX b, hi := s.getX (regPlus b 1), delta := s.getX (regPlus b 2) }) s
  | none => trap .illcfg 0 s

/-- eldrop (R237). -/
def execEldrop (a : Reg) (s : State) : Result :=
  match s.ctx.handleIn (s.getX a) .sealed with
  | some _ => done ({ s with ctx := s.ctx.setHandle (s.getX a).toNat {} } : State).advance
  | none => trap .illcfg 0 s

/-- The records of a view in list order, each with the chain of its segment, up to the first fault. Every record of a sealed list
is written (R226); a slot that a younger store reserves in a region used again is no part of the view (R237). -/
def State.viewRecords (s : State) (q : Acc) : List Segment → Seen (List (Rec × List ChainStep) × Option (Cause × Word))
  | [] => (.ok (some ([], none)), s)
  | x :: xs =>
    (s.segmentRecords q [] x).andThen fun rs s =>
      let here := rs.1.map fun r => (r, x.steps)
      if rs.2.isSome then (.ok (some (here, rs.2)), s)
      else (State.viewRecords s q xs).andThen fun rest s => (.ok (some (here ++ rest.1, rest.2)), s)

/-- elinfo (R237): the records that are not void and keep a byte. It waits for records on a remote page (R163, R223). -/
def execElinfo (d a : Reg) (s : State) : Result :=
  match s.ctx.handleIn (s.getX a) .sealed with
  | none => trap .illcfg 0 s
  | some h =>
    match s.viewRecords (s.ctx.laneAcc s.ctx.instrPc 0) h.segs with
    | (.error (c, va), s) => trap c va s
    | (.ok none, s) => done s.stall
    | (.ok (some v), s) =>
      match v.1.find? fun r => !r.1.legal with
      | some r => trap .illcfg r.1.place s
      | none =>
        match v.2 with
        | some (c, va) => trap c va s
        | none =>
          writeResult d (BitVec.ofNat 64 (v.1.filter fun r => !r.1.data.isEmpty && !(r.1.pieces r.2).isEmpty).length) s

/-- elgrow (R232). -/
def execElgrow (a b : Reg) (s : State) : Result :=
  if s.ctx.user then trap .priv 0 s
  else
    match s.ctx.handleIn (s.getX a) .opened with
    | none => trap .illcfg 0 s
    | some h =>
      if 8 ≤ h.segs.length then trap .illcfg 0 s
      else withRegion (s.getX b) s fun g s =>
        done ({ s with ctx := s.ctx.setHandle (s.getX a).toNat { h with segs := h.segs ++ [g] } } : State).advance

/-! ## Applying a list -/

/-- The accesses of piece `p` of record `r.r`: part 1 + r.r of the rule's work. -/
def Rule.pieceAcc (r : Rule) (s : State) (g : Agent) (p : Nat) : Acc :=
  { g := g, scope := scopeOf r.vtype, user := (s.getCtx g).user, key := r.key, elem := 2 ^ 20 * (1 + r.r) + 4 * p }

/-- Writes a piece of a record (R238). -/
def State.writePiece (s : State) (g : Agent) (r : Rule) (p : Nat) (va : Word) (bs : List Byte) : Except (Cause × Word) Bool × State :=
  if isCanonical va = false then (.error (.storefault, va), s) else s.writeSpan (r.pieceAcc s g p) va 3 bs

/-- Appends a piece of a record to the active list, or ELFULL (R238). -/
def State.appendPiece (s : State) (g : Agent) (r : Rule) (p : Nat) (va : Word) (bs : List Byte) : Except (Cause × Word) Bool × State :=
  match (s.getCtx g).reserve r.chandle (slotSize bs.length) with
  | none => (.error (.elfull, 0), s)
  | some (slot, c) =>
    match s.writeSpan { r.pieceAcc s g p with scope := 0 } slot 4 (recordBytes va bs) with
    | (.ok true, s) => (.ok true, s.mapCtx g fun x => ({ x with handles := c.handles } : Ctx).markFilter va bs.length)
    | x => x

/-- The pieces of one record's chain, with its number among the records of the view (R236). -/
def piecesOf (rs : List (Rec × List ChainStep)) : List (Nat × Word × List Byte) :=
  rs.zipIdx.flatMap fun (x, i) => (x.1.pieces x.2).map fun p => (i, p.1, p.2)

/-- The pieces that an `elapply` still has to write once it has read every record (R238): of each the number of its record, its address
and its bytes. -/
def Rule.piecesLeft (r : Rule) : List (Nat × Word × List Byte) :=
  ((r.eng.chunks.filter fun x => decide (r.r ≤ x.1)).map fun x => (x.1, BitVec.ofNat 64 (ofBytes (x.2.take 8)), x.2.drop 8)).drop (nth r.eng.header 0)

/-- The device lines that the write of a piece touches: those of its target, or in collecting mode those of the region that its record
will occupy, the ones whose page does not translate left out (R228, R428). -/
def State.pieceTouch (s : State) (g : Agent) (r : Rule) (va : Word) (bs : List Byte) : List Nat :=
  if r.cdepth = 0 then s.linesKnown g .store va bs.length
  else match (s.getCtx g).reserve r.chandle (slotSize bs.length) with
    | some (slot, _) => s.linesKnown g .store slot (slotSize bs.length)
    | none => []

/-- A piece of record `i` is written, or appended in collecting mode; then the next one's turn comes (R238). -/
def State.applyPiece (s : State) (g : Agent) (k : Nat) (r : Rule) (i : Nat) (va : Word) (bs : List Byte) : Fired :=
  let p := if r.r = i then nth r.eng.header 0 else 0
  let r := { r with r := i }
  match if r.cdepth = 0 then s.writePiece g r p va bs else s.appendPiece g r p va bs with
  | (.ok true, s) => .part ((s.mapRule g k fun r => { r with r := i, eng := { r.eng with header := [p + 1] } }).mapCtx g fun c =>
      c.forget r.key (some (1 + i)))
  | (.ok false, s) => .wait s
  | (.error (c, va), s) => .fault c va (s.mapRule g k fun r => { r with r := i })

/-- elapply (R238). Phase 0 reads the records of the view: where it meets no fault the pieces that the chains keep are held in
`eng.chunks`, by record, and the entry's write side is generated (phase 1); else the pieces of the records before the fault are written
first. Then piece after piece is written in list order from the resume index on; `eng.header` counts the pieces of record `r` that are
done. -/
def Rule.applyWork (r : Rule) (g : Agent) (k : Nat) : Work :=
  let view := fun (s : State) => s.viewRecords ((s.getCtx g).laneAcc r.key 0) r.eng.segs
  let before := fun (v : List (Rec × List ChainStep)) => ((piecesOf (v.takeWhile fun x => x.1.legal)).filter fun x => decide (r.r ≤ x.1)).drop (nth r.eng.header 0)
  let next : State → Option (Nat × Word × List Byte) := fun s =>
    if r.eng.phase = 1 then r.piecesLeft.head? else match view s with
      | (.ok (some (rs, _)), _) => (before rs).head?
      | _ => none
  let regions := r.eng.segs.map fun x => (x.base, x.used.toNat)
  let target := fun (s : State) (x : Nat × Word × List Byte) =>
    if r.cdepth = 0 then s.linesOfSpan g .store x.2.1 x.2.2.length
    else some ((linesOf x.2.1 x.2.2.length).filterMap fun l => (s.lineOf g .store l).or (s.lineOf g .load l))
  { count := 1, reads := fun _ _ => [], writes := fun _ _ => [], holds := fun _ => [], pends := fun _ => []
    uses := (true, true, false, false), parts := true
    touch := fun s _ => some ({
      rd := if r.eng.phase = 1 then [] else regions.flatMap fun x => s.linesKnown g .load x.1 x.2
      wr := ((next s).map fun x => s.pieceTouch g r x.2.1 x.2.2).getD [] } : Touch)
    covers := fun s _ =>
      let all := fun (xs : List (Option (List Nat))) => xs.foldl (fun (o : Option (List Nat)) x => o.bind fun ls => x.map (ls ++ ·)) (some [])
      { rd := all (regions.map fun x => s.linesOfSpan g .load x.1 x.2)
        wr := if r.eng.phase = 1 then all (r.piecesLeft.map (target s)) else none }
    fire := fun s _ =>
      if ((s.getCtx g).mayGo k r.key [1 + ((next s).map (·.1)).getD r.r]).isEmpty then .wait s
      else if r.eng.phase = 1 then
        match r.piecesLeft with
        | [] => .ok s
        | (i, va, bs) :: _ => s.applyPiece g k r i va bs
      else
        match view s with
        | (.error (c, va), s) => .fault c va s
        | (.ok none, s) => .wait s
        | (.ok (some (rs, bad)), s) =>
          let bad := ((rs.find? fun x => !x.1.legal).map fun x => (Cause.illcfg, x.1.place)).or bad
          match bad, before rs with
          | none, _ => .part (s.mapRule g k fun r => { r with eng := { r.eng with phase := 1, chunks := (piecesOf rs).map fun x => (x.1, toBytes 8 x.2.1.toNat ++ x.2.2) } })
          | some (c, va), [] => .fault c va (s.mapRule g k fun r => { r with r := (rs.takeWhile fun x => x.1.legal).length })
          | some _, (i, va, bs) :: _ => s.applyPiece g k r i va bs }

/-- elapply (R238): the view is taken at issue. -/
def execElapply (a : Reg) (s : State) : Result :=
  let c := s.ctx
  match c.handleIn (s.getX a) .sealed with
  | none => trap .illcfg 0 s
  | some h =>
    if c.collecting && (c.appending c.activeHandle || (c.rules ++ c.queue).any fun r => r.recordsInto c.activeHandle) then done s.stall
    else issueRule none { s.snapshot (.elapply a) with opA := s.getX a, eng := { segs := h.segs } } s

end Sys2Proof.Machine
end

