-- ==== Sys2Proof/Machine/Spool.lean ====
section
/-! DEFINITION. Sparse-feature pooling at the capacity buffers (14_pooling.md R311-R321). -/

namespace Sys2Proof.Machine

/-- What a `spool` keeps of its descriptor and bag list once it has read them (R313, R315). -/
structure Table where
  base     : Word
  stride   : Nat
  rows     : Nat
  rowbytes : Nat
  efmt     : Nat
  mode     : Nat
  ofmt     : Nat
  width    : Nat
  offs     : List Nat
  deriving DecidableEq, Repr

/-- The table in the words of a rule. -/
def Table.pack (t : Table) : List Nat :=
  [t.base.toNat, t.stride, t.rows, t.rowbytes, t.efmt, t.mode, t.ofmt, t.width] ++ t.offs

/-- The table of a rule whose header has been read. -/
def Rule.table (r : Rule) : Table :=
  let h := r.eng.header
  { base := BitVec.ofNat 64 (nth h 0), stride := nth h 1, rows := nth h 2, rowbytes := nth h 3, efmt := nth h 4, mode := nth h 5
    ofmt := nth h 6, width := nth h 7, offs := h.drop 8 }

/-- Bags of a table's list. -/
def Table.bags (t : Table) : Nat := t.offs.length - 1

/-- The width of a row, none where rowbytes is illegal (R313). -/
def rowWidth (efmt rowbytes : Nat) : Option Nat :=
  let d := match efmt with
    | 0 => if rowbytes % 4 = 0 then rowbytes / 4 else 0
    | 1 => if rowbytes % 2 = 0 then rowbytes / 2 else 0
    | 2 => rowbytes
    | _ => if rowbytes % 33 = 0 then rowbytes / 33 * 32 else 0
  if 1 ≤ d ∧ d ≤ 2048 then some d else none

/-- A table descriptor from its 64 bytes, none where a field is illegal or the sew does not suit (R313, R317). -/
def parseTable (vt : Word) (bs : List Byte) : Option Table :=
  let f := fun o n => ofBytes ((bs.drop o).take n)
  let slice := ceilDiv (f 0x10 4) 16 * f 0x14 4
  let sew := if f 0x1A 1 = 0 then 2 else 1
  match rowWidth (f 0x18 1) (f 0x14 4) with
  | none => none
  | some d =>
    if f 0 8 % 65536 = 0 ∧ f 8 8 % 65536 = 0 ∧ (f 8 8 = 0 ∨ slice ≤ f 8 8) ∧ 1 ≤ f 0x10 4 ∧ f 0x18 1 < 4 ∧ f 0x19 1 < 4 ∧
        f 0x1A 1 < 2 ∧ ofBytes (bs.drop 0x1B) = 0 ∧ sewOf vt = sew then
      some { base := BitVec.ofNat 64 (f 0 8), stride := if f 8 8 = 0 then roundUp 65536 slice else f 8 8, rows := f 0x10 4
             rowbytes := f 0x14 4, efmt := f 0x18 1, mode := f 0x19 1, ofmt := f 0x1A 1, width := d, offs := [] }
    else none

/-- Little-endian 32-bit words of bytes. -/
def words32 : Nat → List Byte → List Nat
  | 0, _ => []
  | n + 1, bs => ofBytes (bs.take 4) :: words32 n (bs.drop 4)

/-- Whether the offsets of a bag list are legal (R315). -/
def offsetsOk (offs : List Nat) : Bool :=
  decide (offs.head? = some 0) && (offs.zip (offs.drop 1)).all (fun p => decide (p.1 ≤ p.2)) && decide (nth offs (offs.length - 1) ≤ 2 ^ 24)

/-- Reads the descriptor and the bag list's head (R317 step 2). -/
def State.spoolHeader (s : State) (g : Agent) (k : Nat) (r : Rule) : Fired :=
  let acc := r.lookAcc (s.getCtx g) 0
  if isCanonical r.opB = false then .whole .loadfault r.opB s
  else if r.opB.toNat % 64 ≠ 0 then .whole .align r.opB s
  else if isCanonical r.opA = false then .whole .loadfault r.opA s
  else if r.opA.toNat % 8 ≠ 0 then .whole .align r.opA s
  else
    match s.readSpan (acc 0) r.opB 2 64 with
    | (.error (c, a), s) => .whole c a s
    | (.ok none, s) => .wait s
    | (.ok (some bs), s) =>
      match parseTable r.vtype bs with
      | none => .whole .illcfg r.opB s
      | some t =>
        match s.readSpan (acc 4) r.opA 2 8 with
        | (.error (c, a), s) => .whole c a s
        | (.ok none, s) => .wait s
        | (.ok (some hd), s) =>
          let n := ofBytes (hd.take 4)
          if 4096 < n ∨ ofBytes (hd.drop 4) ≠ 0 ∨ r.vl < n * t.width then .whole .illcfg r.opA s
          else .part (s.mapRule g k fun r => { r with eng := { r.eng with phase := 1, header := ({ t with offs := [n] } : Table).pack } })

/-- Reads the bag list's offsets, and releases the tail (R317 steps 2 and 3). -/
def State.spoolOffsets (s : State) (g : Agent) (k : Nat) (r : Rule) : Fired :=
  let t := r.table
  let n := nth t.offs 0
  match s.readSpan (r.lookAcc (s.getCtx g) 0 8) (r.opA + 8) 131 (4 * (n + 1)) with
  | (.error (c, a), s) => .whole c a s
  | (.ok none, s) => .wait s
  | (.ok (some os), s) =>
    let offs := words32 (n + 1) os
    if offsetsOk offs = false then .whole .illcfg r.opA s
    else .part (s.mapRule g k fun r =>
      { r.finish (span (n * t.width) r.vl) with
        eng := { r.eng with phase := 2, header := ({ t with offs := offs } : Table).pack } })

/-- Where entry i of a bag list stands (R315). -/
def Rule.entryAddr (r : Rule) (t : Table) (i : Nat) : Word := r.opA + BitVec.ofNat 64 (roundUp 8 (8 + 4 * (t.bags + 1)) + 8 * i)

/-- Where a row stands (R314). -/
def Table.rowAddr (t : Table) (row : Nat) : Word :=
  t.base + BitVec.ofNat 64 (row % 16 * t.stride + row / 16 * t.rowbytes)

/-- Bytes of a row at its buffer, from `va` on (R314, R319): every page is a capacity page of buffer row mod 16, else the fault names the
row's address `at'`. The reads follow the stores that are on their way to the buffer, and wait for those of the core that are not
yet performed at home: a store that R148, R149 or R156 orders before the `spool` is among either (R161, R312, R320). Of a page with
the zero-hint no memory is read (R381). -/
def State.rowBytes (s : State) (g : Agent) (key : Word) (row : Nat) (at' : Word) : Nat → Word → Nat → Seen (List Byte)
  | 0, _, _ => (.ok (some []), s)
  | fuel + 1, va, n =>
    if n = 0 then (.ok (some []), s) else
    let here := min n (128 - va.toNat % 128)
    match s.translate (placeOf g) (s.tenantOf g) .load (s.getCtx g).user va with
    | .error c => (.error (c, va), s)
    | .ok p =>
      if p.attr ≠ .capacity ∨ p.pa < Config.capBase ∨ (p.pa - Config.capBase) / Config.capBytes ≠ row % 16 then (.error (.loadfault, at'), s)
      else
        match if p.zero then none else s.chipError p.pa here with
        | some c => (.error (c, va), s)
        | none =>
          if s.linesDone (sameCore g) false p.pa here = false then (.ok none, s)
          else
            let got := s.vectorRead g (ruleOfKey key) p.pa (if p.zero then List.replicate here 0 else s.behind.readBytes p.pa here)
            (State.rowBytes got.2 g key row at' fuel (va + BitVec.ofNat 64 here) (n - here)).andThen fun rest s => (.ok (some (got.1 ++ rest)), s)

/-- The binary32 code of element c of a row, with the flags of its conversion (R314). -/
def Table.rowElem (t : Table) (bs : List Byte) (c : Nat) : Nat × Nat :=
  let f := fun o n => ofBytes ((bs.drop o).take n)
  binary32.round 0 false (match t.efmt with
    | 0 => binary32.value (f (4 * c) 4)
    | 1 => bfloat16.value (f (2 * c) 2)
    | 2 => e4m3.value (f c 1)
    | _ => bfpValue 8 (f c 1) (f (t.width + c / 32) 1))

/-- One addition or maximum of binary32 codes. -/
def poolStep (mode a b : Nat) : Nat × Nat :=
  if mode = 3 then (floatPick binary32 true a b, 0) else VOp.add.float binary32 0 false a b 0

/-- The weighted term of an entry (R318). -/
def poolTerm (mode w x : Nat) : Nat × Nat := if mode = 1 then VOp.mul.float binary32 0 false w x 0 else (x, 0)

/-- One entry of a buffer pooled into its partial: flags first, then one word per column (R318). -/
def Table.poolRow (t : Table) (acc : Option (List Nat)) (w : Nat) (bs : List Byte) : List Nat :=
  let cols := (List.range t.width).map fun c =>
    let x := t.rowElem bs c
    let y := poolTerm t.mode w x.1
    let z := match acc with
      | none => if t.mode = 3 then (y.1, 0) else poolStep t.mode (2 ^ 31) y.1
      | some a => poolStep t.mode (nth a (c + 1)) y.1
    (z.1, Nat.lor x.2 (Nat.lor y.2 z.2))
  cols.foldl (fun f c => Nat.lor f c.2) (nth (acc.getD []) 0) :: cols.map (·.1)

/-- The partial of a buffer over entries, each its address and its 8 bytes (R318, R319). -/
def State.poolBuffer (s : State) (g : Agent) (key : Word) (t : Table) (buffer : Nat) :
    List (Word × Nat × Nat) → Option (List Nat) → Seen (List Nat)
  | [], acc => (.ok (some (acc.getD [])), s)
  | (at', row, w) :: rest, acc =>
    if t.rows ≤ row then (.error (.loadfault, at'), s)
    else if row % 16 ≠ buffer then State.poolBuffer s g key t buffer rest acc
    else (s.rowBytes g key row (t.rowAddr row) 67 (t.rowAddr row) t.rowbytes).andThen fun bs s =>
      State.poolBuffer s g key t buffer rest (some (t.poolRow acc w bs))

/-- Bag b's entries, once they are read: the address, the row and the weight of each. -/
def Rule.entries (r : Rule) (b : Nat) : Option (List (Word × Nat × Nat)) :=
  let t := r.table
  (lookup? b r.eng.chunks).map fun bs => (List.range (nth t.offs (b + 1) - nth t.offs b)).map fun i =>
    let f := fun o => ofBytes ((bs.drop (8 * i + o)).take 4)
    (r.entryAddr t (nth t.offs b + i), f 0, f 4)

/-- The lowest element of bag b that is not done; it stands for the bag (R317, R321). -/
def Rule.leader (r : Rule) (b : Nat) : Option Nat :=
  let w := max 1 r.table.width
  firstFrom (fun e => !r.done.getLsbD e) (b * w) w

/-- Bag b's entries are read through the L1 and the home slices (R320). -/
def State.readEntries (s : State) (g : Agent) (k : Nat) (r : Rule) (b : Nat) : Fired :=
  let t := r.table
  let acc := r.lookAcc (s.getCtx g) ((r.leader b).getD 0) 256
  let got := (span (nth t.offs b) (nth t.offs (b + 1))).foldl (fun (p : Seen (List Byte)) i => p.andThen fun bs s =>
    let va := r.entryAddr t i
    match s.loadAt acc va 8 [] with
    | .fault c s => (.error (c, va), s)
    | .wait s => (.ok none, s)
    | .ok e s => (.ok (some (bs ++ e)), s)) (.ok (some []), s)
  match got with
  | (.error (c, a), s) => .fault c a s
  | (.ok none, s) => .wait s
  | (.ok (some bs), s) => .part (s.mapRule g k fun r => { r with eng := { r.eng with chunks := r.eng.chunks ++ [(b, bs)] } })

/-- The partial of buffer u of bag b is made (R318): its rows are read at this moment. -/
def State.bufferPartial (s : State) (g : Agent) (k : Nat) (r : Rule) (b u : Nat) (es : List (Word × Nat × Nat)) : Fired :=
  match s.poolBuffer g r.key r.table u es none with
  | (.error (c, a), s) => .fault c a s
  | (.ok none, s) => .wait s
  | (.ok (some sums), s) => .part (s.mapRule g k fun r =>
      { r with eng := { r.eng with parts := r.eng.parts ++ [{ bag := b, buffer := u, sums := sums }] } })

/-- The pooling combiner on one column: partials in ascending buffer order, then the mode's last step (R318). -/
def Table.combine (t : Table) (count c : Nat) (parts : List (List Nat)) : Nat × Nat :=
  let s := match parts with
    | [] => (0, 0)
    | p :: ps => ps.foldl (fun (acc : Nat × Nat) q => let x := poolStep t.mode acc.1 (nth q (c + 1)); (x.1, Nat.lor acc.2 x.2))
        (nth p (c + 1), 0)
  let f := if t.ofmt = 0 then binary32 else bfloat16
  if parts.isEmpty then (0, 0)
  else if t.mode = 2 then
    let q := (binary32.value s.1).div (Val.ofInt count)
    let x := f.round 0 false q.1
    (x.1, Nat.lor s.2 (Nat.lor q.2 x.2))
  else if t.ofmt = 0 then s
  else let x := f.round 0 false (binary32.value s.1); (x.1, Nat.lor s.2 x.2)

/-- The elements of bag b that are not done. -/
def Rule.bagLeft (r : Rule) (b : Nat) : List Nat :=
  let w := max 1 r.table.width
  (span (b * w) (b * w + w)).filter fun e => !r.done.getLsbD e

/-- A bag completes: its elements that are not done become present together, with the flags of its rounding (R317, R318, R321). -/
def State.completeBag (s : State) (g : Agent) (k : Nat) (r : Rule) (bag d : Nat) : State :=
  let t := r.table
  let n := bytesOf r.vtype
  let mine := (List.range 16).filterMap fun u => (r.eng.parts.find? fun p => p.bag == bag && p.buffer == u).map (·.sums)
  let mine := mine.filter fun p => !p.isEmpty
  let count := nth t.offs (bag + 1) - nth t.offs bag
  let out := (List.range t.width).map fun c => t.combine count c mine
  let flags := out.foldl (fun f x => Nat.lor f x.2) (mine.foldl (fun f p => Nat.lor f (nth p 0)) 0)
  let s := s.mapRule g k fun r => { r with eng := { r.eng with parts := r.eng.parts.filter fun p => p.bag != bag } }
  s.mapCtx g fun c =>
    ((r.bagLeft bag).foldl (fun (c : Ctx) e => c.setElem r.wb d n e ((out[e - bag * t.width]?).map (·.1) |>.getD 0)) c).raise flags

/-- The fault of a bag: the bag does not pool on, the others do (R319). -/
def Fired.atBag (x : Fired) (g : Agent) (k b : Nat) : Fired :=
  match x with
  | .fault c a s => .fault c a (s.mapRule g k fun r => { r with eng := { r.eng with acks := b :: r.eng.acks } })
  | x => x

/-- Where the bag list's head and offsets lie, and bag b's entries: the address and the length of each. -/
def Rule.listSpans (r : Rule) (b : Nat) : (Word × Nat) × (Word × Nat) :=
  let t := r.table
  ((r.opA, 8 + 4 * t.offs.length), (r.entryAddr t (nth t.offs b), 8 * (nth t.offs (b + 1) - nth t.offs b)))

/-- The lines that the next access of a `spool` reads, by its phase and, once it pools, its bag; those whose page does not translate are
left out. -/
def State.spoolReads (s : State) (g : Agent) (r : Rule) (b : Nat) : List Nat :=
  let t := r.table
  match r.eng.phase with
  | 0 => s.linesKnown g .load r.opB 64 ++ s.linesKnown g .load r.opA 8
  | 1 => s.linesKnown g .load (r.opA + 8) (4 * (nth t.offs 0 + 1))
  | _ =>
    match r.entries b with
    | none => s.linesKnown g .load (r.listSpans b).2.1 (r.listSpans b).2.2
    | some es => es.flatMap fun x => s.linesKnown g .load (t.rowAddr x.2.1) t.rowbytes

/-- The lines that the read side of a `spool` covers for a bag: descriptor, list and rows; none until every row address of it is
translated (R320). -/
def State.spoolCover (s : State) (g : Agent) (r : Rule) (b : Nat) : Option (List Nat) :=
  let t := r.table
  (r.entries b).bind fun es =>
    ((r.opB, 64) :: (r.listSpans b).1 :: (r.listSpans b).2 :: es.map fun x => (t.rowAddr x.2.1, t.rowbytes)).foldl
      (fun (o : Option (List Nat)) x => o.bind fun ls => (s.linesOfSpan g .load x.1 x.2).map (ls ++ ·)) (some [])

/-- spool (R317): any element stands for the header until it is read; then the first element of a bag that is not done stands for the
bag. -/
def Rule.spoolWork (r : Rule) (g : Agent) (k d : Nat) : Work :=
  let n := bytesOf r.vtype
  let w := max 1 r.table.width
  let pools := decide (2 ≤ r.eng.phase)
  { count := if pools then r.vl else max 1 r.vl
    reads := fun _ _ => []
    writes := fun _ e => if pools then (r.bagLeft (e / w)).map fun i => r.velem d n i else []
    holds := fun _ => [], pends := fun e => if e < r.vl then [r.velem d n e] else []
    span := fun e => if pools then r.bagLeft (e / w) else [e]
    uses := (true, false, false, false)
    touch := fun s e => some { rd := s.spoolReads g r (e / w) }
    covers := fun s e =>
      if !pools then { rd := none }
      else if r.leader (e / w) = some e then { rd := s.spoolCover g r (e / w) }
      else {}
    fire := fun s e =>
      match r.eng.phase with
      | 0 => s.spoolHeader g k r
      | 1 => s.spoolOffsets g k r
      | _ =>
        let b := e / w
        if r.leader b ≠ some e then .wait s
        else
          match r.entries b with
          | none => (s.readEntries g k r b).atBag g k b
          | some es =>
            match (List.range 16).find? fun u => !(r.eng.parts.any fun p => p.bag == b && p.buffer == u) with
            | some u => (s.bufferPartial g k r b u es).atBag g k b
            | none => .ok (s.completeBag g k r b d) }

/-- spool (R317): NOCOLLECT, then vstart. -/
def execSpool (d a b : Reg) (s : State) : Result :=
  issueRule (firstCause [(s.ctx.collecting, .nocollect), (decide (s.ctx.vstart ≠ 0), .illcfg)])
    { s.snapshot (.spool d a b) with opA := s.getX a, opB := s.getX b } s

end Sys2Proof.Machine
end

