-- ==== Sys2Proof/Machine/Fabric.lean ====
section
/-! DEFINITION. The near-memory fabric: messages and handlers, page selection, and collectives (16_fabric.md R352-R371). -/

namespace Sys2Proof.Machine

/-! ## Chains and messages -/

/-- A tenant's chain on a slice (R353). -/
def State.chainOn (s : State) (tenant slice : Nat) : Option Chain :=
  s.chains.find? fun c => c.tenant == tenant && c.slice == slice

/-- Changes the chain of a tenant on a slice. -/
def State.mapChain (s : State) (tenant slice : Nat) (f : Chain → Chain) : State :=
  { s with chains := s.chains.map fun (c : Chain) => if c.tenant = tenant && c.slice = slice then f c else c }

/-- Messages of a tag's queue. -/
def Chain.waiting (c : Chain) (tag : Nat) : List Message := (c.queues.filter fun q => q.1 == tag).map (·.2)

/-- The start state of a handler (R354). -/
def Ctx.serve (c : Ctx) (tenant tag : Nat) (entry : Word) (m : Message) : Ctx :=
  let n := m.payload.length
  { Ctx.reset c.agent with
    pc := entry
    x := (Vector.replicate 128 (0 : Word)).set 2 m.addr |>.set 3 (BitVec.ofNat 64 n) |>.set 4 (BitVec.ofNat 64 m.sender)
      |>.set 5 (BitVec.ofNat 64 tag)
    v := (cellsAt 0 m.payload).filter fun x => x.2 != 0
    vtype := BitVec.ofNat 64 Config.fabricVtype, vl := BitVec.ofNat 64 n
    task := some { tenant := tenant, launch := 0 }
    message := some m, hold := .run, seq := c.seq }

/-- HANDLER_START: an idle handler of a chain takes the next message of its tag (R354, R359, R360). -/
def State.startHandler (s : State) (tenant slice tag : Nat) : State :=
  let c := s.getCtx (.handler tenant slice tag)
  match s.chainOn tenant slice with
  | none => s
  | some ch =>
    if ch.faulted then s else
    match (ch.waiting tag).head?, ch.tags[tag]?, c.hold with
    | some m, some entry, .idle =>
      let s := s.mapChain ch.tenant slice fun ch =>
        { ch with queues := match firstFrom (fun i => ((ch.queues[i]?).map (·.1)) == some tag) 0 ch.queues.length with
            | some i => ch.queues.eraseIdx i
            | none => ch.queues }
      s.setCtx (c.serve ch.tenant tag entry m)
    | _, _, _ => s

/-- The sender's number (R354, R358). -/
def senderOf : Agent → Nat
  | .ctx id => id
  | .handler _ slice _ => 0x8000 + slice

/-- Whether every older access of a rule's context is performed at pkg scope (R360), those of a collective that runs on among them. -/
def State.olderPerformed (s : State) (g : Agent) (k : Nat) : Bool :=
  s.allBefore g && ((s.getCtx g).rules.take k).all fun r => !touchesMemory r.instr

/-- fsend (R358, R360): it fires once its message is accepted. -/
def Rule.fsendWork (r : Rule) (g : Agent) (k tag b : Nat) : Work :=
  let n := bytesOf r.vtype
  let rd := fun _ => r.vgroup b n r.vl
  let touch := fun (s : State) (_ : Nat) => (s.lineOf g .load r.opA).map fun l => { rd := [l], wr := [l] : Touch }
  { count := 1, reads := fun _ e => rd e, writes := fun _ _ => [], holds := rd, pends := fun _ => []
    uses := (true, true, false, false), touch := fun s e => some ((touch s e).getD {}), covers := fun s e => Cover.of (touch s e)
    fire := fun s _ =>
      let c := s.getCtx g
      let t := s.tenantOf g
      match s.translate (placeOf g) t .load c.user r.opA with
      | .error x => .fault x r.opA s
      | .ok p =>
        if p.attr = .remote then .fault .illcfg r.opA s
        else
          let slice := s.homeSlice (p.pa / 128)
          let low := match g with
            | .handler _ _ own => decide (tag ≤ own)
            | .ctx _ => false
          match s.chainOn t slice with
          | none => .fault .illcfg r.opA s
          | some ch =>
            if (ch.tags[tag]?).getD 0 = 0 || low then .fault .illcfg r.opA s
            else if decide (4 ≤ scopeOf r.vtype) && !s.olderPerformed g k then .wait s
            else if Config.tagPlaces ≤ (ch.waiting tag).length then .wait s
            else
              let bytes := (List.range r.vl).flatMap fun e => toBytes n (c.elem r.wb b n e)
              .ok (s.mapChain t slice fun ch =>
                { ch with queues := ch.queues ++ [(tag, { addr := r.opA, payload := bytes, sender := senderOf g })] }) }

/-- fsend (R358); vstart takes no part. It waits for vl before it looks at it (R130). -/
def execFsend (d a b : Reg) (s : State) : Result :=
  if s.ctx.vlUnresolved then done s.stall else
  issueRule (firstCause [(s.ctx.collecting, .nocollect), (decide (256 < s.ctx.vl.toNat * bytesOf s.ctx.vtype), .illcfg)])
    { s.snapshot (.fsend d a b) with opA := s.getX a, vstart := 0 } s

/-- fdone (R359): the handler ends once its rules have retired and its stores are performed. In a context that is no handler the
word is ILLOP (log 20). -/
def execFdone (s : State) : Result :=
  match s.ctx.agent with
  | .ctx _ => trap .illop 0 s
  | .handler _ _ _ =>
    if s.ctx.rules.isEmpty && s.ctx.queue.isEmpty && s.storesDone s.ctx.agent then
      done { s with ctx := { Ctx.reset s.ctx.agent with task := s.ctx.task, seq := s.ctx.seq } }
    else done s.stall

/-! ## kvsel -/

/-- Bytes that a chain reads at their home slices for a context, none while a store of its core to them is on its way there (R148,
R160), or the first fault with its address (R356, R365). -/
def State.homeRead (s : State) (g : Agent) (key : Word) : Nat → Word → Nat → Seen (List Byte)
  | 0, _, _ => (.ok (some []), s)
  | fuel + 1, va, n =>
    if n = 0 then (.ok (some []), s) else
    let here := min n (128 - va.toNat % 128)
    match s.placeRead (placeOf g) (s.tenantOf g) (s.getCtx g).user va here with
    | .error c => (.error (c, va), s)
    | .ok bs =>
      match s.translate (placeOf g) (s.tenantOf g) .load (s.getCtx g).user va with
      | .error c => (.error (c, va), s)
      | .ok p =>
        if s.linesDone (sameCore g) false p.pa here = false then (.ok none, s)
        else
          let got := s.vectorRead g (ruleOfKey key) p.pa bs
          (State.homeRead got.2 g key fuel (va + BitVec.ofNat 64 here) (n - here)).andThen fun rest s => (.ok (some (got.1 ++ rest)), s)

/-- Whether a descriptor of kvsel is legal (R363); `none` where it is, but its region leaves R202's range. -/
def State.selectFields (s : State) (g : Agent) (desc : Word) (bs : List Byte) : Except (Cause × Word) (List Nat) :=
  let f := fun o n => ofBytes ((bs.drop o).take n)
  let c := s.getCtx g
  let ok := f 0 8 % 4 == 0 && f 8 8 % 4 == 0 && decide (1 ≤ f 0x10 4) && decide (f 0x10 4 ≤ 2 ^ 24) && decide (1 ≤ f 0x14 2) &&
    decide (f 0x14 2 ≤ 256) && decide (1 ≤ f 0x16 1) && decide (f 0x16 1 ≤ 64) && decide (f 0x17 1 < 64) &&
    bitOf c.tagMask.toNat (f 0x17 1) == 1 && f 0x20 4 % 128 == 0 && decide (128 ≤ f 0x20 4) && decide (f 0x20 4 ≤ 65536) &&
    f 0x24 4 == 0 && f 0x28 8 % 128 == 0 && ofBytes (bs.drop 0x30) == 0
  if ok = false || (s.chains.all fun ch => ch.tenant != s.tenantOf g) then .error (.illcfg, desc)
  else
    match s.scratchFault g (BitVec.ofNat 64 (f 0x28 8)) (256 + f 0x16 1 * f 0x20 4) with
    | some a => .error (.loadfault, a)
    | none => .ok [f 0 8, f 8 8, f 0x10 4, f 0x14 2, f 0x16 1, f 0x18 8, f 0x20 4, f 0x17 1, f 0x28 8]

/-- The score of a summary row (R364): binary32, one rounding a step, from -0. -/
def scoreRow (d : Nat) (q row : List Byte) : Nat :=
  (List.range d).foldl (fun acc i =>
    let w := fun (bs : List Byte) => binary32.value (ofBytes ((bs.drop (4 * i)).take 4))
    (binary32.round 0 false (((w q).fma 0 (w row) (binary32.value acc)).1)).1) (2 ^ 31)

/-- Whether page a with its score stands before page b (R364): higher first, NaN last, ties by the lower number. -/
def ranksBefore (a b : Nat × Nat) : Bool :=
  let x := binary32.value a.2
  let y := binary32.value b.2
  if x = .nan then decide (y = .nan) && decide (a.1 < b.1)
  else if y = .nan then true
  else y.lt x || (!x.lt y && decide (a.1 < b.1))

/-- A page put into a ranking of at most k. -/
def rankInsert (k : Nat) (p : Nat × Nat) (xs : List (Nat × Nat)) : List (Nat × Nat) :=
  ((xs.takeWhile fun x => ranksBefore x p) ++ p :: xs.dropWhile fun x => ranksBefore x p).take k

/-- The scores of pages i, i + 1, …: the ranking, none while a row cannot be read yet, or the first fault (R364, R365). -/
def State.scorePages (s : State) (g : Agent) (key : Word) (h : List Nat) (q : List Byte) : Nat → Nat → List (Nat × Nat) →
    Seen (List (Nat × Nat))
  | 0, _, ranks => (.ok (some ranks), s)
  | left + 1, i, ranks =>
    let d := nth h 3
    (s.homeRead g key 10 (BitVec.ofNat 64 (nth h 1 + 4 * d * i)) (4 * d)).andThen fun row s =>
      State.scorePages s g key h q left (i + 1) (rankInsert (nth h 4) (i, scoreRow d q row) ranks)

/-- KVSEL_SCORE_MERGE: the pages are scored and ranked and the index words made (R364); after a resumption the kept words stand
(R365). The words are written to the destination. -/
def State.scoreMerge (s : State) (g : Agent) (k : Nat) (r : Rule) : Fired :=
  let h := r.eng.header
  let write := fun (s : State) (idx : List Nat) =>
    let s := s.scratchWrite g (BitVec.ofNat 64 (nth h 8)) (idx.flatMap fun w => toBytes 4 w)
    Fired.part (s.mapRule g k fun r => { r with eng := { r.eng with index := idx, phase := 3 } })
  if !r.eng.index.isEmpty then write s r.eng.index
  else
    let ranked := (s.homeRead g r.key 10 (BitVec.ofNat 64 (nth h 0)) (4 * nth h 3)).andThen fun q s =>
      s.scorePages g r.key h q (nth h 2) 0 []
    match ranked with
    | (.error (c, a), s) => .whole c a s
    | (.ok none, s) => .wait s
    | (.ok (some ranks), s) => write s ((ranks.map (·.1)) ++ List.replicate (64 - ranks.length) 0xFFFFFFFF)

/-- The ranks that a kvsel still copies: rank and page (R365). -/
def Rule.ranksLeft (r : Rule) : List (Nat × Nat) :=
  ((r.eng.index.takeWhile (· != 0xFFFFFFFF)).zipIdx.filter fun x => !r.eng.xfers.contains x.2).map fun x => (x.2, x.1)

/-- Where the copy of rank j, whose index word is `page`, reads and writes (R365). -/
def Rule.rankSpan (r : Rule) (j page : Nat) : Word × Word :=
  let h := r.eng.header
  (BitVec.ofNat 64 (nth h 5 + nth h 6 * page), BitVec.ofNat 64 (nth h 8 + 256 + nth h 6 * j))

/-- The page of rank j is copied (R365): part 1 + j of the rule's work. -/
def State.selectCopy (s : State) (g : Agent) (k : Nat) (r : Rule) (j page : Nat) : Fired :=
  let acc := r.transferAcc s g (1 + j)
  let n := nth r.eng.header 6
  match (s.spanFault acc .load (r.rankSpan j page).1 3 n).or ((s.scratchFault g (r.rankSpan j page).2 n).map fun a => (Cause.storefault, a)) with
  | some (c, a) => .whole c a s
  | none =>
  match s.readSpan acc (r.rankSpan j page).1 514 n with
  | (.error (c, a), s) => .whole c a s
  | (.ok none, s) => .wait s
  | (.ok (some bs), s) =>
    .part (((s.scratchWrite g (r.rankSpan j page).2 bs).mapRule g k fun r =>
      { r with eng := { r.eng with xfers := r.eng.xfers ++ [j] } }).mapCtx g fun c => c.forget r.key (some (1 + j)))

/-- The ranks whose copies may go on: under a fault those that have begun (R216, R396). -/
def Rule.ranksGo (r : Rule) (c : Ctx) (k : Nat) : List (Nat × Nat) :=
  let go := c.mayGo k r.key (r.ranksLeft.map fun x => 1 + x.1)
  r.ranksLeft.filter fun x => go.contains (1 + x.1)

/-- The lines that the next accesses of a `kvsel` touch, those whose page does not translate left out. -/
def State.selectTouch (s : State) (g : Agent) (k : Nat) (r : Rule) : Touch :=
  let h := r.eng.header
  let w := fun i => BitVec.ofNat 64 (nth h i)
  match r.eng.phase with
  | 0 => { rd := s.linesKnown g .load r.opA 64 }
  | 1 => {}
  | 2 => { rd := s.linesKnown g .load (w 0) (4 * nth h 3) ++ s.linesKnown g .load (w 1) (4 * nth h 3 * nth h 2), swr := scratchLines (w 8) 256 }
  | _ =>
    let js := r.ranksGo (s.getCtx g) k
    { rd := js.flatMap fun x => s.linesKnown g .load (r.rankSpan x.1 x.2).1 (nth h 6)
      swr := js.flatMap fun x => scratchLines (r.rankSpan x.1 x.2).2 (nth h 6) }

/-- The sides of a `kvsel`'s entry (R364): the read side is ungenerated until query, rows and chosen pages are translated, the write
side until the descriptor is read. -/
def State.selectCover (s : State) (g : Agent) (r : Rule) : Cover :=
  let h := r.eng.header
  let w := fun i => BitVec.ofNat 64 (nth h i)
  let known := s.linesKnown g .load r.opA 64 ++ s.linesKnown g .load (w 0) (4 * nth h 3) ++ s.linesKnown g .load (w 1) (4 * nth h 3 * nth h 2)
  { rd := if r.eng.phase < 3 then none else r.ranksLeft.foldl (fun (o : Option (List Nat)) x => o.bind fun ls =>
        (s.linesOfSpan g .load (r.rankSpan x.1 x.2).1 (nth h 6)).map (ls ++ ·)) (some known)
    swr := if r.eng.phase = 0 then none
      else some (scratchLines (w 8) (256 + nth h 4 * nth h 6) ++ if r.eng.phase < 3 then [] else
        r.ranksLeft.flatMap fun x => scratchLines (r.rankSpan x.1 x.2).2 (nth h 6)) }

/-- The descriptor of a `kvsel` is read and checked (R363, R364 step 3). -/
def State.selectHeader (s : State) (g : Agent) (k : Nat) (r : Rule) : Fired :=
  if isCanonical r.opA = false then .whole .loadfault r.opA s
  else if r.opA.toNat % 64 ≠ 0 then .whole .align r.opA s
  else
    match s.readSpan (r.lookAcc (s.getCtx g) 0 0) r.opA 2 64 with
    | (.error (c, a), s) => .whole c a s
    | (.ok none, s) => .wait s
    | (.ok (some bs), s) =>
      match s.selectFields g r.opA bs with
      | .error (c, a) => .whole c a s
      | .ok h => .part (s.mapRule g k fun r => { r with eng := { r.eng with phase := 1, header := h } })

/-- kvsel (R364, R365): phase 0 reads the descriptor, 1 waits for the tag and clears it, 2 scores, 3 copies. -/
def Rule.kvselWork (r : Rule) (g : Agent) (k : Nat) : Work :=
  let tag := nth r.eng.header 7
  { count := 1, reads := fun _ _ => [], writes := fun _ _ => [], holds := fun _ => [], pends := fun _ => []
    uses := (true, false, false, true), parts := true
    touch := fun s _ => some (s.selectTouch g k r)
    covers := fun s _ => s.selectCover g r
    fire := fun s _ =>
      match r.eng.phase with
      | 0 => s.selectHeader g k r
      | 1 =>
        if (s.getCtx g).tagAwaited k tag then .wait s
        else .part ((s.mapCtx g fun c => c.clearTag tag).mapRule g k fun r => { r with eng := { r.eng with phase := 2 } })
      | 2 => s.scoreMerge g k r
      | _ =>
        if r.ranksLeft.isEmpty then .ok (s.mapCtx g fun c => (c.setTag tag).forget r.key none)
        else firstMove (fun s j => s.selectCopy g k r j (nth r.eng.index j)) s ((r.ranksGo (s.getCtx g) k).map (·.1)) }

/-- kvsel (R364). -/
def execKvsel (a : Reg) (s : State) : Result :=
  issueRule (if s.ctx.collecting then some .nocollect else none) { s.snapshot (.kvsel a) with opA := s.getX a } s

/-! ## Collectives -/

/-- The fields of a collective in `eng.header`: 0 op, 1 dtype, 2 redop, 3 wire, 4 count, 5 sbuf, 6 rbuf, 7 the tag (64 for none), 8
dkind, 9 endpoint, 10 counter, 11 status, 12 n, 13 myrank, and from 14 on the rank entries. -/
abbrev CollFields := List Nat

/-- Element bytes of a dtype (R366). -/
def collSize (h : CollFields) : Nat := match nth h 1 with
  | 0 | 2 => 4
  | 1 => 2
  | _ => 8

/-- Whether an op reduces (R368). -/
def collReduces (h : CollFields) : Bool := decide (nth h 0 < 2)

/-- Bytes of sbuf and of rbuf (R368). -/
def collBytes (h : CollFields) : Nat × Nat :=
  let one := nth h 4 * collSize h
  match nth h 0 with
  | 0 => (one, one)
  | 1 => (nth h 12 * one, one)
  | 2 => (one, nth h 12 * one)
  | _ => (nth h 12 * one, nth h 12 * one)

/-- The tag mask that a collective may use: its task's, also once that has ended (R366, R404). -/
def Ctx.collMask (c : Ctx) (r : Rule) : Nat := if r.eng.orphan then r.eng.stopped else c.tagMask.toNat

/-- Whether a coll descriptor's own fields are legal (R366). -/
def collOk (mask : Nat) (t : Tenant) (bs : List Byte) : Bool :=
  let f := fun o n => ofBytes ((bs.drop o).take n)
  let size := match f 1 1 with
    | 0 | 2 => 4
    | 1 => 2
    | _ => 8
  decide (f 0 1 < 4) && decide (f 1 1 < 4) && decide (f 2 1 < 3) && decide (f 3 1 < 3) && (decide (f 0 1 < 2) || f 2 1 == 0) &&
  (f 3 1 == 0 || (f 2 1 == 0 && decide (f 0 1 < 2))) && (f 3 1 != 2 || f 1 1 == 0) &&
  decide (1 ≤ f 4 4) && decide (f 4 4 ≤ 2 ^ 28) && f 8 8 % size == 0 && f 0x10 8 % size == 0 && f 0x18 8 % 8 == 0 &&
  decide (f 0x20 1 < 2) && (if f 0x20 1 = 0 then decide (f 0x21 1 < 64) && bitOf mask (f 0x21 1) == 1 else f 0x21 1 == 0) &&
  f 0x22 2 == 0 && decide (f 0x24 4 < 64) && t.ports.any (fun p => p.1 == f 0x24 4) &&
  (if f 0x20 1 = 1 then f 0x28 8 % 8 == 0 else f 0x28 8 == 0) && f 0x30 8 % 8 == 0 && f 0x38 8 == 0

/-- The descriptor and the group table as fields, none where a value is illegal (R366, R367). -/
def collParse (mask : Nat) (t : Tenant) (bs group : List Byte) : Option CollFields :=
  let f := fun o n => ofBytes ((bs.drop o).take n)
  let n := ofBytes (group.take 4)
  let me := ofBytes ((group.drop 4).take 4)
  let entries := words32 n (group.drop 8)
  let tag := if f 0x20 1 = 0 then f 0x21 1 else 64
  let h := [f 0 1, f 1 1, f 2 1, f 3 1, f 4 4, f 8 8, f 0x10 8, tag, f 0x20 1, f 0x24 4, f 0x28 8, f 0x30 8, n, me] ++ entries
  let b := collBytes h
  let inPlace := decide (f 0 1 = 0) && f 8 8 == f 0x10 8
  if collOk mask t bs && decide (1 ≤ n) && decide (n ≤ 4096) && decide (me < n) &&
      entries.all (fun e => decide (e / 2 ^ 12 % 16 = 0) && decide (e / 2 ^ 16 < 64)) &&
      decide (nth entries me = Config.moduleNumber % 2 ^ 12 + 2 ^ 16 * f 0x24 4) && (inPlace || !meets (f 8 8) b.1 (f 0x10 8) b.2) then some h
  else none

/-- The descriptor of a collective is read and checked (R366): its own fields here, the group table next. -/
def State.collHeader (s : State) (g : Agent) (k : Nat) (r : Rule) : Fired :=
  let c := s.getCtx g
  if isCanonical r.opA = false then .whole .loadfault r.opA s
  else if r.opA.toNat % 64 ≠ 0 then .whole .align r.opA s
  else
    match s.readSpan (r.lookAcc c 0 0) r.opA 2 64 with
    | (.error (x, a), s) => .whole x a s
    | (.ok none, s) => .wait s
    | (.ok (some bs), s) =>
      if collOk (c.collMask r) (s.tenant (s.tenantOf g)) bs = false then .whole .illcfg r.opA s
      else .part (s.mapRule g k fun r => { r with eng := { r.eng with
        phase := 1, chunks := [(0, bs)], xfers := [], src := [BitVec.ofNat 64 (ofBytes ((bs.drop 0x18).take 8))] } })

/-- Where the group table of a collective stands. -/
def Rule.groupAt (r : Rule) : Word := (r.eng.src.head?).getD 0

/-- The group table of a collective is read and checked: its head, then its entries (R367). -/
def State.collGroup (s : State) (g : Agent) (k : Nat) (r : Rule) : Fired :=
  let c := s.getCtx g
  match r.eng.xfers with
  | [] =>
    match s.readSpan (r.lookAcc c 0 4) r.groupAt 2 8 with
    | (.error (x, a), s) => .whole x a s
    | (.ok none, s) => .wait s
    | (.ok (some hd), s) => .part (s.mapRule g k fun r => { r with eng := { r.eng with xfers := [ofBytes (hd.take 4), ofBytes (hd.drop 4)] } })
  | n :: me =>
    match s.readSpan (r.lookAcc c 0 8) (r.groupAt + 8) 131 (4 * min 4096 n) with
    | (.error (x, a), s) => .whole x a s
    | (.ok none, s) => .wait s
    | (.ok (some es), s) =>
      match collParse (c.collMask r) (s.tenant (s.tenantOf g)) ((lookup? 0 r.eng.chunks).getD []) (toBytes 4 n ++ toBytes 4 (nth me 0) ++ es) with
      | none => .whole .illcfg r.opA s
      | some h => .part (s.mapRule g k fun r => { r with eng := { r.eng with phase := 2, chunks := [], xfers := [], header := h } })

/-- The address in a field of a collective. -/
def Rule.collAt (r : Rule) (i : Nat) : Word := BitVec.ofNat 64 (nth r.eng.header i)

/-- Bytes of the status of a collective (R370). -/
def collWords (h : CollFields) : Nat := if nth h 0 = 3 then 8 + 16 * nth h 12 else 8

/-- The first page of a collective that does not translate (R370). -/
def State.collFault (s : State) (g : Agent) (r : Rule) : Option (Cause × Word) :=
  let acc := r.lookAcc (s.getCtx g) 0 0
  let h := r.eng.header
  let b := collBytes h
  ((s.spanFault acc .load (r.collAt 5) (b.1 / 65536 + 2) b.1).or
    (s.spanFault acc .store (r.collAt 6) (b.2 / 65536 + 2) b.2)).or
  ((s.spanFault acc .store (r.collAt 11) 4 (collWords h)).or
    (if nth h 8 = 1 then s.spanFault acc .atomic (r.collAt 10) 2 8 else none))

/-- What matched calls agree in, behind the number of the call: op, dtype, redop, wire, count, n and the rank entries (R367). -/
def Rule.callOf (r : Rule) : List Nat := r.eng.call :: r.eng.header.take 5 ++ [nth r.eng.header 12] ++ r.eng.header.drop 14

/-- The rank entry of rank j (R367). -/
def Rule.rankOf (r : Rule) (j : Nat) : Nat := nth r.eng.header (14 + j)

/-- Whether a rank entry names this module. -/
def isHere (e : Nat) : Bool := decide (e % 2 ^ 12 = Config.moduleNumber % 2 ^ 12)

/-- The first element of the op's elements, and how many, that the chunk for rank j is made of (R368): under bfp8 the whole blocks
that hold its elements, since a block is converted as one (R369). -/
def chunkSpan (h : CollFields) (j : Nat) : Nat × Nat :=
  let count := nth h 4
  match nth h 0 with
  | 1 =>
    if nth h 3 = 2 then
      let lo := j * count / 32 * 32
      (lo, min (nth h 12 * count) (roundUp 32 ((j + 1) * count)) - lo)
    else (j * count, count)
  | 3 => (j * count, count)
  | _ => (0, count)

/-- What the data of a rank hold of the chunk for rank j. -/
def chunkFor (h : CollFields) (bs : List Byte) (j : Nat) : List Byte :=
  let x := chunkSpan h j
  (bs.drop (x.1 * collSize h)).take (x.2 * collSize h)

/-- The length of the chunks that this rank receives. -/
def chunkBytes (h : CollFields) : Nat := (chunkSpan h (nth h 13)).2 * collSize h

/-- Whether a rule is a collective that has read its descriptor and group table and is not complete. -/
def Rule.collStands (r : Rule) : Bool :=
  (match r.instr with
    | .coll _ => true
    | _ => false) && decide (2 ≤ r.eng.phase) && !r.done.getLsbD 0

/-- Whether the other collectives of a tenant that are in flight meet a condition. -/
def State.otherColls (s : State) (g : Agent) (r : Rule) (p : Rule → Bool) : Bool :=
  s.allCtx.all fun c => decide (s.tenantOf c.agent ≠ s.tenantOf g) || c.rules.all fun x =>
    match x.instr with
    | .coll _ => decide (c.agent = g ∧ x.seq = r.seq) || !x.issued || x.fault.isSome || x.done.getLsbD 0 || p x
    | _ => true

/-- Whether no older call of a tenant has still to take its number on the endpoint of a call, or may have to (R367). -/
def State.collFirst (s : State) (g : Agent) (r : Rule) : Bool :=
  s.otherColls g r fun x => decide (r.eng.ticket < x.eng.ticket) || decide (3 ≤ x.eng.phase) ||
    (decide (x.eng.phase = 2) && nth x.eng.header 9 != nth r.eng.header 9)

/-- Whether a call is due on its endpoint: it is the first there, and none is under way (R367). -/
def State.collTurn (s : State) (g : Agent) (r : Rule) : Bool :=
  s.collFirst g r && s.otherColls g r fun x => decide (x.eng.phase < 3) || nth x.eng.header 9 != nth r.eng.header 9

/-- A collective is to complete with an outcome (R370). Under MISMATCH its own chunk is not in rbuf. -/
def Rule.collEnds (r : Rule) (outcome : Nat) : Rule :=
  let me := nth r.eng.header 13
  let e := if outcome = 4 then { r.eng with acks := r.eng.acks.filter (· != me), chunks := r.eng.chunks.filter fun x => x.1 != me } else r.eng
  { r with eng := { e with phase := 4, index := [outcome] } }

/-- A collective is to complete with an outcome; one that has not taken its number yet does so first (R367, R370). -/
def Rule.collDoom (r : Rule) (outcome : Nat) : Rule :=
  if r.eng.phase < 3 then { r with eng := { r.eng with index := [outcome] } } else r.collEnds outcome

/-- A call begins (R367, R370): it takes its number on its endpoint, and its tag is cleared. -/
def State.collBegins (s : State) (g : Agent) (k : Nat) (r : Rule) : State :=
  let h := r.eng.header
  let t := s.tenantOf g
  let m := (lookup? (nth h 9) (s.tenant t).calls).getD 0
  let call := ({ r with eng := { r.eng with call := m } } : Rule).callOf
  ((s.mapTenant t fun a => { a with calls := assign (nth h 9) (m + 1) a.calls, made := a.made ++ [{ endpoint := nth h 9, call := call }] }).mapCtx g
    fun c => if nth h 8 = 0 && !r.eng.orphan then c.clearTag (nth h 7) else c).mapRule g k fun r => { r with eng := { r.eng with call := m } }

/-- A collective sends (R370): its own data are read, and a chunk leaves for each rank on another module; those for ranks on this one
wait with it, under the rank's number plus n. -/
def State.collSend (s : State) (g : Agent) (k : Nat) (r : Rule) : Fired :=
  let h := r.eng.header
  match s.collFault g r with
  | some (c, a) => .whole c a s
  | none =>
    let n := (collBytes h).1
    match s.readSpan (r.lookAcc (s.getCtx g) 1 0) (r.collAt 5) (n / 128 + 2) n with
    | (.error _, s) => .part ((s.collBegins g k r).mapRule g k fun r => r.collEnds 2)
    | (.ok none, s) => .wait s
    | (.ok (some bs), s) =>
      let me := nth h 13
      let s := s.collBegins g k r
      let r := (s.ruleAt g k).getD r
      let others := (List.range (nth h 12)).filter (· != me)
      let far := others.filter fun j => !isHere (r.rankOf j)
      let near := (others.filter fun j => isHere (r.rankOf j)).map fun j => (nth h 12 + j, chunkFor h bs j)
      .part ({ s with out := s.out ++ far.map fun j => Output.chunk (nth h 9) (r.rankOf j) r.callOf (chunkFor h bs j) }.mapRule g k
        fun r => { r with eng := { r.eng with phase := 3, chunks := (me, chunkFor h bs me) :: near, acks := [me] } })

/-- One combination of a reduction (R369). -/
def collOp (h : CollFields) (a b : Nat) : Nat :=
  let op : VOp := match nth h 2 with
    | 0 => .add
    | 1 => .max
    | _ => .min
  match nth h 1 with
  | 0 => (op.float binary32 0 false a b 0).1
  | 1 => (op.float bfloat16 0 false a b 0).1
  | 2 => codeOf 32 (op.int 0 32 a b 0)
  | _ => codeOf 64 (op.int 0 64 a b 0)

/-- What a hop of wire format bf16 makes of a partial (R369): read back exactly, an int wraps (R8). -/
def wireBf16 (h : CollFields) (x : Nat) : Nat :=
  let through := fun v : Val => (bfloat16.round 0 false v).1
  let int := fun w => codeOf w ((bfloat16.value (through (Val.ofInt (signedOf w x)))).toInt 0).1
  match nth h 1 with
  | 0 => (binary32.round 0 false (bfloat16.value (through (binary32.value x)))).1
  | 1 => x
  | 2 => int 32
  | _ => int 64

/-- What a hop makes of a list of partials, which begins with element 0 of the op or of a block (R369). -/
def collWire (h : CollFields) (xs : List Nat) : List Nat :=
  match nth h 3 with
  | 0 => xs
  | 1 => xs.map (wireBf16 h)
  | _ =>
    (List.range (ceilDiv xs.length 32)).flatMap fun j =>
      let b := (xs.drop (32 * j)).take 32
      let p := toBfpBlock 8 0 (b.map binary32.value)
      p.2.1.map fun m => (binary32.round 0 false (bfpValue 8 (codeOf 8 m) p.1)).1

/-- The largest power of two below a number above 1. -/
def halfOf (n : Nat) : Nat := 2 ^ (bitLength (n - 1) - 1)

/-- Sum(lo, hi) over the ranks' contributions, elementwise; `top` at the root, which crosses no hop (R369). The fuel is above the
tree's depth. -/
def collTree (h : CollFields) (cs : Nat → List Nat) : Nat → Bool → Nat → Nat → List Nat
  | 0, _, _, _ => []
  | fuel + 1, top, lo, hi =>
    if hi ≤ lo + 1 then cs lo
    else
      let m := lo + halfOf (hi - lo)
      let v := ((collTree h cs fuel false lo m).zip (collTree h cs fuel false m hi)).map fun p => collOp h p.1 p.2
      if top then v else collWire h v

/-- The elements of `size` bytes that bytes hold. -/
def elemsOf (size : Nat) (bs : List Byte) : List Nat :=
  (List.range (bs.length / size)).map fun i => ofBytes ((bs.drop (size * i)).take size)

/-- A result with its NaN canonical (R242, R369). -/
def collCanon (h : CollFields) (x : Nat) : Nat :=
  match nth h 1 with
  | 0 => if binary32.value x = .nan then binary32.cnan else x
  | 1 => if bfloat16.value x = .nan then bfloat16.cnan else x
  | _ => x

/-- What rbuf takes when every chunk has arrived (R368, R369): of a reduce-scatter's blocks the elements of this rank. -/
def collResult (r : Rule) : List Byte :=
  let h := r.eng.header
  let chunk := fun j => (lookup? j r.eng.chunks).getD []
  if collReduces h then
    let all := collTree h (fun j => elemsOf (collSize h) (chunk j)) 14 true 0 (nth h 12)
    let skip := if nth h 0 = 1 then nth h 13 * nth h 4 - (chunkSpan h (nth h 13)).1 else 0
    ((all.drop skip).take (nth h 4)).flatMap fun x => toBytes (collSize h) (collCanon h x)
  else (List.range (nth h 12)).flatMap chunk

/-- Whether a collective has every chunk and every acknowledgement. -/
def Rule.collAll (r : Rule) : Bool :=
  (List.range (nth r.eng.header 12)).all fun j => (lookup? j r.eng.chunks).isSome && r.eng.acks.contains j

/-- A chunk of rank `peer`, if there are data, and its acknowledgement of ours (R368, R370). -/
def Rule.collTakes (r : Rule) (peer : Nat) (acked : Bool) (data : List Byte) : Rule :=
  let e := r.eng
  { r with eng := { e with
      chunks := if data.isEmpty || (lookup? peer e.chunks).isSome then e.chunks else e.chunks ++ [(peer, data)]
      acks := if acked && !e.acks.contains peer then e.acks ++ [peer] else e.acks } }

/-- The call on this module that matches a rule's at rank j: where it stands, once it has sent (R367; log 77). -/
def State.collPeer (s : State) (g : Agent) (r : Rule) (j : Nat) : Option (Agent × Nat × Rule) :=
  if !isHere (r.rankOf j) || j = nth r.eng.header 13 then none else
  s.allCtx.findSome? fun c =>
    if s.tenantOf c.agent ≠ s.tenantOf g then none else
    (c.rules.zipIdx.find? fun x => x.1.collStands && decide (x.1.eng.phase = 3) && x.1.eng.call == r.eng.call &&
      nth x.1.eng.header 9 == r.rankOf j / 2 ^ 16).map fun x => (c.agent, x.2, x.1)

/-- Whether a call on this module that matches a rule's, by a rank of its own, meets a condition (R367). -/
def State.matched (s : State) (g : Agent) (r : Rule) (p : Made → Bool) : Bool :=
  (s.tenant (s.tenantOf g)).made.any fun m => m.call.head? == some r.eng.call && p m &&
    (List.range (nth r.eng.header 12)).any fun j => isHere (r.rankOf j) && j != nth r.eng.header 13 && r.rankOf j / 2 ^ 16 == m.endpoint

/-- The next chunk that the fabric moves to a collective from a rank on this module: taking it acknowledges it to its sender (R368). None
where no rank on this module has one. -/
def State.collPull (s : State) (g : Agent) (k : Nat) (r : Rule) : Option State :=
  (List.range (nth r.eng.header 12)).findSome? fun j =>
    if (lookup? j r.eng.chunks).isSome then none else
    (s.collPeer g r j).bind fun (h, i, x) =>
      if x.callOf != r.callOf then none
      else
        let me := nth r.eng.header 13
        (lookup? (nth r.eng.header 12 + me) x.eng.chunks).map fun bs =>
          (s.mapRule h i fun x => x.collTakes me true []).mapRule g k fun r => r.collTakes j false bs

/-- The byte at an address as an element of a rule would read it now; zero where it cannot. -/
def State.byteNow (s : State) (g : Agent) (r : Rule) (va : Word) : Byte :=
  let acc := r.lookAcc (s.getCtx g) 0 0
  match s.translate acc.place (s.tenantOf g) .load acc.user va with
  | .ok p => if p.attr = .remote then 0 else ((s.loadBytes g acc.scopeFor p.pa 1).head?).getD 0
  | .error _ => 0

/-- What a collective leaves in rbuf (R370): unless its outcome is OK, the bytes of chunks that did not arrive, or all of rbuf under a
reduction, are open (log 17). -/
def State.collBuffer (s : State) (g : Agent) (r : Rule) (outcome : Nat) : List Byte :=
  let h := r.eng.header
  let one := nth h 4 * collSize h
  let kept := fun i => if collReduces h then none else (lookup? (i / one) r.eng.chunks).bind fun bs => bs[i % one]?
  if outcome = 0 then collResult r
  else (List.range (collBytes h).2).map fun i =>
    (kept i).getD (Config.collJunk (s.junk + i) (s.byteNow g r (r.collAt 6 + BitVec.ofNat 64 i)))

/-- The status words of a collective (R370). -/
def Rule.statusWords (r : Rule) : List Nat :=
  let h := r.eng.header
  let each := fun (p : Nat → Bool) => (List.range (nth h 12)).map fun j => if p j then (1 : Nat) else 0
  nth r.eng.index 0 :: if nth h 0 = 3 then each (fun j => r.eng.acks.contains j) ++ each fun j => (lookup? j r.eng.chunks).isSome else []

/-- The k-th rule of an agent reaches a phase. -/
def State.toPhase (s : State) (g : Agent) (k n : Nat) : State := s.mapRule g k fun r => { r with eng := { r.eng with phase := n } }

/-- rbuf is written, by stores of the vector stream at the snapshotted scope, but for MISMATCH; memory that has been revoked meanwhile
makes the outcome FAULT, with the rank's own chunk not in rbuf (R367, R370). -/
def State.collWrite (s : State) (g : Agent) (k : Nat) (r : Rule) : Fired :=
  let outcome := nth r.eng.index 0
  let me := nth r.eng.header 13
  if outcome = 4 then .part (s.toPhase g k 5)
  else
    let bytes := s.collBuffer g r outcome
    match s.writeSpan (r.lookAcc (s.getCtx g) 2 0) (r.collAt 6) (bytes.length / 128 + 2) bytes with
    | (.ok true, s) => .part ({ s with junk := s.junk + bytes.length }.toPhase g k 5)
    | (.ok false, s) => .wait s
    | (.error _, s) => .part (s.mapRule g k fun r => { r with eng := { r.eng with
        phase := 5, index := [2], acks := r.eng.acks.filter (· != me), chunks := r.eng.chunks.filter fun x => x.1 != me } })

/-- The status is written; where its memory has been revoked there is nothing to write (R370). -/
def State.collStatus (s : State) (g : Agent) (k : Nat) (r : Rule) : Fired :=
  match s.writeSpan (r.lookAcc (s.getCtx g) 3 0) (r.collAt 11) 600 (r.statusWords.flatMap fun w => toBytes 8 w) with
  | (.ok false, s) => .wait s
  | (_, s) => .part (s.toPhase g k 6)

/-- The completion action (R370): the tag is set, or 1 is added to the counter, as an atomic at pkg scope once the stores are performed
there. A collective whose task has ended sets no tag (R214). -/
def State.collAction (s : State) (g : Agent) (r : Rule) : Fired :=
  let h := r.eng.header
  let finish := fun s : State => Fired.ok (s.mapCtx g fun c => c.forget r.key none)
  if nth h 8 = 0 then finish (if r.eng.orphan then s else s.mapCtx g fun c => c.setTag (nth h 7))
  else if s.storesDone g = false then .wait s
  else
    match s.atomicAt { r.lookAcc (s.getCtx g) 4 0 with scope := max 4 (scopeOf r.vtype) } (r.collAt 10) 8 (some .add)
        (toBytes 8 1 ++ toBytes 8 0) fun old => some ((old + 1) % 2 ^ 64) with
    | .wait s => .wait s
    | .ok _ s | .fault _ s => finish s

/-- Whether a collective that waits for its tag, its turn or its peers has not completed within the wait limit, counted from its issue
(R370). -/
def State.collOverdue (s : State) (g : Agent) (r : Rule) : Bool :=
  r.collStands && decide ((s.tenant (s.tenantOf g)).wlimit.toNat ≤ (s.now - r.eng.since).toNat) &&
  (decide (r.eng.phase = 2) || decide (r.eng.phase = 3) && !r.collAll)

/-- Whether a rank's module is declared lost, or the die of a matching call on this one (R370, R424). -/
def State.rankGone (s : State) (g : Agent) (r : Rule) : Bool :=
  ((r.eng.header.drop 14).any fun e => s.modulesLost.contains (e % 2 ^ 12)) || (decide (3 ≤ r.eng.phase) && s.matched g r fun m => m.lost)

/-- The lines that the next accesses of a collective touch, those whose page does not translate left out. -/
def State.collTouch (s : State) (g : Agent) (r : Rule) : Touch :=
  let h := r.eng.header
  let rd := s.linesKnown g .load
  let wr := s.linesKnown g .store
  match r.eng.phase with
  | 0 => { rd := rd r.opA 64 }
  | 1 => { rd := match r.eng.xfers with
      | [] => rd r.groupAt 8
      | n :: _ => rd (r.groupAt + 8) (4 * min 4096 n) }
  | 2 => { rd := rd (r.collAt 5) (collBytes h).1 }
  | 4 => { wr := wr (r.collAt 6) (collBytes h).2 }
  | 5 => { wr := wr (r.collAt 11) (collWords h) }
  | 6 => if nth h 8 = 1 then { rd := rd (r.collAt 10) 8, wr := wr (r.collAt 10) 8 } else {}
  | _ => {}

/-- The sides of a collective's entry (R370): sbuf, group and descriptor, and rbuf, counter and status. -/
def State.collCover (s : State) (g : Agent) (r : Rule) : Cover :=
  let h := r.eng.header
  let all := fun (acc : Access) (xs : List (Word × Nat)) => xs.foldl (fun (o : Option (List Nat)) x =>
    o.bind fun ls => (s.linesOfSpan g acc x.1 x.2).map (ls ++ ·)) (some [])
  if r.eng.phase < 2 then { rd := none, wr := none }
  else
    { rd := all .load [(r.opA, 64), (r.groupAt, 8 + 4 * nth h 12), (r.collAt 5, (collBytes h).1)]
      wr := all .store ([(r.collAt 6, (collBytes h).2), (r.collAt 11, collWords h)] ++ if nth h 8 = 1 then [(r.collAt 10, 8)] else []) }

/-- coll (R370): phase 0 reads its descriptor, 1 its group table, 2 waits for its turn and its tag and sends, 3 waits for the peers, 4
writes rbuf, 5 the status, and 6 performs the completion action. -/
def Rule.collWork (r : Rule) (g : Agent) (k : Nat) : Work :=
  let h := r.eng.header
  { count := 1, reads := fun _ _ => [], writes := fun _ _ => [], holds := fun _ => [], pends := fun _ => []
    uses := (true, true, false, false)
    touch := fun s _ => some (s.collTouch g r)
    covers := fun s _ => s.collCover g r
    fire := fun s _ =>
      match r.eng.phase with
      | 0 => s.collHeader g k r
      | 1 => s.collGroup g k r
      | 2 =>
        if (nth h 8 = 0 && (s.getCtx g).tagAwaited k (nth h 7)) || !s.collFirst g r then .wait s
        else
          match if s.rankGone g r then some 1 else r.eng.index.head? with
          | some outcome => .part ((s.collBegins g k r).mapRule g k fun r => r.collEnds outcome)
          | none => if s.collTurn g r then s.collSend g k r else .wait s
      | 3 =>
        if s.rankGone g r then .part (s.mapRule g k fun r => r.collEnds 1)
        else if s.matched g r (fun m => m.call != r.callOf) then .part (s.mapRule g k fun r => r.collEnds 4)
        else if r.collAll then .part (s.mapRule g k fun r => r.collEnds 0)
        else
          match s.collPull g k r with
          | some s => .part s
          | none => .wait s
      | 4 => s.collWrite g k r
      | 5 => s.collStatus g k r
      | _ => s.collAction g r }

/-- coll (R370). -/
def execColl (a : Reg) (s : State) : Result :=
  issueRule (if s.ctx.collecting then some .nocollect else none)
    { s.snapshot (.coll a) with opA := s.getX a, eng := { since := s.now } } s

end Sys2Proof.Machine
end

