-- ==== Sys2Proof/Machine/Hash.lean ====
section
/-! DEFINITION. The checksum CRC-32C (15_scheduling.md R329) and the digest SHA-256 (04_objects.md R90, 17_isolation.md R391),
as the standards that the spec names define them (log 8). -/

namespace Sys2Proof.Machine

/-- Bits shifted through the register of CRC-32C: the Castagnoli polynomial, reflected. -/
def crcShift : Nat → Nat → Nat
  | 0, c => c
  | n + 1, c => crcShift n (if c % 2 = 1 then Nat.xor (c / 2) 0x82F63B78 else c / 2)

/-- CRC-32C of bytes, with the standard initial value and final XOR (R329). -/
def crc32c (bs : List Byte) : Nat :=
  Nat.xor (bs.foldl (fun c b => crcShift 8 (Nat.xor c b.toNat)) 0xFFFFFFFF) 0xFFFFFFFF

/-- The round constants of SHA-256. -/
def shaConstants : List (BitVec 32) :=
  [0x428a2f98, 0x71374491, 0xb5c0fbcf, 0xe9b5dba5, 0x3956c25b, 0x59f111f1, 0x923f82a4, 0xab1c5ed5] ++
  [0xd807aa98, 0x12835b01, 0x243185be, 0x550c7dc3, 0x72be5d74, 0x80deb1fe, 0x9bdc06a7, 0xc19bf174] ++
  [0xe49b69c1, 0xefbe4786, 0x0fc19dc6, 0x240ca1cc, 0x2de92c6f, 0x4a7484aa, 0x5cb0a9dc, 0x76f988da] ++
  [0x983e5152, 0xa831c66d, 0xb00327c8, 0xbf597fc7, 0xc6e00bf3, 0xd5a79147, 0x06ca6351, 0x14292967] ++
  [0x27b70a85, 0x2e1b2138, 0x4d2c6dfc, 0x53380d13, 0x650a7354, 0x766a0abb, 0x81c2c92e, 0x92722c85] ++
  [0xa2bfe8a1, 0xa81a664b, 0xc24b8b70, 0xc76c51a3, 0xd192e819, 0xd6990624, 0xf40e3585, 0x106aa070] ++
  [0x19a4c116, 0x1e376c08, 0x2748774c, 0x34b0bcb5, 0x391c0cb3, 0x4ed8aa4a, 0x5b9cca4f, 0x682e6ff3] ++
  [0x748f82ee, 0x78a5636f, 0x84c87814, 0x8cc70208, 0x90befffa, 0xa4506ceb, 0xbef9a3f7, 0xc67178f2]

/-- The initial hash value of SHA-256. -/
def shaStart : List (BitVec 32) :=
  [0x6a09e667, 0xbb67ae85, 0x3c6ef372, 0xa54ff53a, 0x510e527f, 0x9b05688c, 0x1f83d9ab, 0x5be0cd19]

/-- Word i of a list. -/
def wordAt (xs : List (BitVec 32)) (i : Nat) : BitVec 32 := (xs[i]?).getD 0

/-- A word of big-endian bytes. -/
def bigWord (bs : List Byte) : BitVec 32 := bs.foldl (fun a b => (a <<< 8) ||| b.setWidth 32) 0

/-- The message schedule, its words so far in reverse. -/
def shaSchedule : Nat → List (BitVec 32) → List (BitVec 32)
  | 0, ws => ws.reverse
  | n + 1, ws =>
    let a := wordAt ws 14
    let b := wordAt ws 1
    let s0 := a.rotateRight 7 ^^^ a.rotateRight 18 ^^^ (a >>> 3)
    let s1 := b.rotateRight 17 ^^^ b.rotateRight 19 ^^^ (b >>> 10)
    shaSchedule n ((wordAt ws 15 + s0 + wordAt ws 6 + s1) :: ws)

/-- One round on the eight working words. -/
def shaRound (h : List (BitVec 32)) (k w : BitVec 32) : List (BitVec 32) :=
  let a := wordAt h 0
  let e := wordAt h 4
  let s1 := e.rotateRight 6 ^^^ e.rotateRight 11 ^^^ e.rotateRight 25
  let ch := (e &&& wordAt h 5) ^^^ (~~~e &&& wordAt h 6)
  let t1 := wordAt h 7 + s1 + ch + k + w
  let s0 := a.rotateRight 2 ^^^ a.rotateRight 13 ^^^ a.rotateRight 22
  let maj := (a &&& wordAt h 1) ^^^ (a &&& wordAt h 2) ^^^ (wordAt h 1 &&& wordAt h 2)
  [t1 + s0 + maj, a, wordAt h 1, wordAt h 2, wordAt h 3 + t1, e, wordAt h 5, wordAt h 6]

/-- One block of 64 bytes. -/
def shaBlock (h : List (BitVec 32)) (bs : List Byte) : List (BitVec 32) :=
  let first := (List.range 16).map fun i => bigWord ((bs.drop (4 * i)).take 4)
  let ws := shaSchedule 48 first.reverse
  let out := (shaConstants.zip ws).foldl (fun acc x => shaRound acc x.1 x.2) h
  (h.zip out).map fun x => x.1 + x.2

/-- The blocks of a padded message. -/
def shaBlocks : Nat → List (BitVec 32) → List Byte → List (BitVec 32)
  | 0, h, _ => h
  | n + 1, h, bs => shaBlocks n (shaBlock h (bs.take 64)) (bs.drop 64)

/-- SHA-256 of bytes (R90). -/
def sha256 (bs : List Byte) : List Byte :=
  let n := bs.length
  let pad := (64 - (n + 9) % 64) % 64
  let msg := bs ++ [0x80] ++ List.replicate pad 0 ++ (toBytes 8 (8 * n)).reverse
  (shaBlocks (msg.length / 64) shaStart msg).flatMap fun w => (toBytes 4 w.toNat).reverse

end Sys2Proof.Machine
end

