-- ==== Sys2Proof/Machine/Lists.lean ====
section
/-! DEFINITION. Work lists (15_scheduling.md R344-R347), the notify words of queues (R327, R328, R351), and `lpush` (R348). A
list's state and entries stand in its descriptor and its spill region at their home slices (log 21). -/

namespace Sys2Proof.Machine

/-! ## Descriptors -/

/-- A work-list descriptor and its state (R344). -/
structure WorkList where
  cap    : Nat
  esize  : Nat
  spill  : Word
  dedup  : Word
  dslots : Nat
  head   : Nat
  tail   : Nat
  epoch  : Nat
  closed : Bool
  deriving DecidableEq, Repr

/-- A descriptor from its 64 bytes, none where it breaks R344. -/
def parseList (bs : List Byte) : Option WorkList :=
  let f := fun o n => ofBytes ((bs.drop o).take n)
  let slots := f 0x18 4
  let ok := decide (1 ≤ f 0 4) && (f 4 1 == 4 || f 4 1 == 8) && f 5 3 == 0 && f 8 8 % 128 == 0 && f 0x10 8 % 128 == 0 &&
    (if f 0x10 8 = 0 then slots == 0 else decide (64 ≤ slots) && decide (slots ≤ 2 ^ 28) && popcount 32 slots == 1) &&
    f 0x1C 4 == 0 && f 0x38 8 == 0
  if ok then some { cap := f 0 4, esize := f 4 1, spill := BitVec.ofNat 64 (f 8 8), dedup := BitVec.ofNat 64 (f 0x10 8), dslots := slots
                    head := f 0x20 8, tail := f 0x28 8, epoch := f 0x30 8 % 2 ^ 63, closed := bitOf (f 0x30 8) 63 == 1 }
  else none

/-- The bytes of a list's state words (R344). -/
def WorkList.state (l : WorkList) : List Byte :=
  toBytes 8 l.head ++ toBytes 8 l.tail ++ toBytes 8 (l.epoch % 2 ^ 63 + if l.closed then 2 ^ 63 else 0)

/-- Entries that a list holds (R344). -/
def WorkList.held (l : WorkList) : Nat := l.tail - l.head

/-- Where entry i stands (R347). -/
def WorkList.entryAddr (l : WorkList) (i : Nat) : Word := l.spill + BitVec.ofNat 64 (l.esize * (i % l.cap))

/-- Whether the slice of a list was lost (R424). -/
def State.listLost (s : State) (t line : Nat) : Bool := s.lists.contains (t, line, true)

/-- A list is in use from its first operation on. -/
def State.noteList (s : State) (t line : Nat) : State :=
  if s.lists.any fun x => x.1 == t && x.2.1 == line then s else { s with lists := s.lists ++ [(t, line, false)] }

/-- Opens the list at an address for a tenant, by the caches of a place: the faults of the whole instruction (R346, R424), else the
list and its descriptor's line. -/
def State.openList (s : State) (place : Place) (t : Nat) (user : Bool) (desc : Word) : Except (Cause × Word) (WorkList × Nat) :=
  if isCanonical desc = false then .error (.loadfault, desc)
  else if desc.toNat % 64 ≠ 0 then .error (.align, desc)
  else
    match s.translate place t .load user desc with
    | .error c => .error (c, desc)
    | .ok p =>
      if s.listLost t (p.pa / 128) then .error (.dataloss, desc)
      else
        match s.placeRead place t user desc 64 with
        | .error c => .error (c, desc)
        | .ok bs =>
          match parseList bs with
          | some l => .ok (l, p.pa / 128)
          | none => .error (.illcfg, desc)

/-- A list's state words are kept at its descriptor, by the slice itself (R344). -/
def State.closeList (s : State) (place : Place) (t : Nat) (user : Bool) (desc : Word) (l : WorkList) : State :=
  match s.translate place t .load user desc with
  | .ok p => s.deviceStore t (p.pa / 128) (cellsAt (p.pa + 0x20) l.state) (decide (p.attr = .capacity)) p.zero
  | .error _ => s

/-! ## The seen set -/

/-- What a probe of the seen set finds (R347): the value, a free slot, or no slot. -/
inductive Probe where
  | present
  | room (slot : Word)
  | full
  | fault (c : Cause) (va : Word)
  deriving DecidableEq, Repr

/-- Probes the seen set of the list's epoch from a slot on: each slot holds a value and its epoch plus 1 (log 21). -/
def State.probeSeen (s : State) (place : Place) (t : Nat) (user : Bool) (l : WorkList) (v : Nat) : Nat → Nat → Probe
  | 0, _ => .full
  | fuel + 1, j =>
    let at' := l.dedup + BitVec.ofNat 64 (16 * (j % max 1 l.dslots))
    match s.placeRead place t user at' 16 with
    | .error c => .fault c at'
    | .ok bs =>
      if ofBytes (bs.drop 8) ≠ l.epoch + 1 then .room at'
      else if ofBytes (bs.take 8) = v then .present
      else State.probeSeen s place t user l v fuel (j + 1)

/-! ## Pushing and popping -/

/-- What became of one element of a push. -/
inductive Pushed where
  | ok (l : WorkList) (s : State)
  | fault (c : Cause) (va : Word)

/-- One element appended (R347). -/
def State.pushEntry (s : State) (place : Place) (t : Nat) (user : Bool) (desc : Word) (l : WorkList) (v : Nat) : Pushed :=
  if l.cap ≤ l.held then .fault .wlfull desc
  else
    match s.placeWrite place t user (l.entryAddr l.tail) (toBytes l.esize v) with
    | .error c => .fault c (l.entryAddr l.tail)
    | .ok s => .ok { l with tail := l.tail + 1 } s

/-- One element of `wlpush` or, where `ins` holds, of `wlins` (R347). -/
def State.pushOne (s : State) (place : Place) (t : Nat) (user : Bool) (desc : Word) (ins : Bool) (l : WorkList) (v : Nat) : Pushed :=
  if l.closed then .fault .illcfg desc
  else if ins then
    match s.probeSeen place t user l v l.dslots v with
    | .present => .ok l s
    | .fault c va => .fault c va
    | .full => .fault .wlfull desc
    | .room slot =>
      if l.cap ≤ l.held then .fault .wlfull desc
      else
        match s.placeWrite place t user slot (toBytes 8 v ++ toBytes 8 (l.epoch + 1)) with
        | .error c => .fault c slot
        | .ok s => s.pushEntry place t user desc l v
  else s.pushEntry place t user desc l v

/-- The elements of a push in order, each with its value: what is done, and the fault that stopped it (R347). -/
def State.pushAll (s : State) (place : Place) (t : Nat) (user : Bool) (desc : Word) (ins : Bool) (l : WorkList) :
    List (Nat × Nat) → List Nat × WorkList × State × Option (Cause × Nat × Word)
  | [] => ([], l, s, none)
  | (e, v) :: rest =>
    match s.pushOne place t user desc ins l v with
    | .fault c va => ([], l, s, some (c, e, va))
    | .ok l s =>
      let p := State.pushAll s place t user desc ins l rest
      (e :: p.1, p.2)

/-- The first n entries of a list, or the fault met: which one and where. -/
def State.popAll (s : State) (place : Place) (t : Nat) (user : Bool) (l : WorkList) : Nat → Nat → Except (Cause × Nat × Word) (List Nat)
  | 0, _ => .ok []
  | n + 1, k =>
    let va := l.entryAddr (l.head + k)
    match s.placeRead place t user va l.esize with
    | .error c => .error (c, k, va)
    | .ok bs => (State.popAll s place t user l n (k + 1)).map (ofBytes bs :: ·)

/-- The scheduler pops one entry for a launch (R336): none where the list is empty. -/
def State.popEntry (s : State) (t : Nat) (desc : Word) : Except Cause (Option Nat × State) :=
  match s.openList deviceDie t true desc with
  | .error (c, _) => .error c
  | .ok (l, line) =>
    if l.held = 0 then .ok (none, s)
    else
      match s.popAll deviceDie t true l 1 0 with
      | .error (c, _, _) => .error c
      | .ok vs => .ok (vs.head?, (s.closeList deviceDie t true desc { l with head := l.head + 1 }).noteList t line)

/-! ## The rules -/

/-- The work-list instructions. -/
inductive ListOp where
  | push
  | ins
  | pop (d b : Reg)
  | close
  | clear
  deriving DecidableEq, Repr

/-- A rule's fault at one of its elements, its other effects already in the state; the lowest element's counts (R176, R396). -/
def State.faultAt (s : State) (g : Agent) (k : Nat) (f : Cause × Nat × Word) : State :=
  s.mapRule g k fun r => { r with fault := match r.fault with
    | some x => if x.2.1 ≤ f.2.1 then some x else some f
    | none => some f }

/-- The slots of the seen set that a probe looks at. -/
def State.probed (s : State) (place : Place) (t : Nat) (user : Bool) (l : WorkList) (v : Nat) : Nat → Nat → List Word
  | 0, _ => []
  | fuel + 1, j =>
    let at' := l.dedup + BitVec.ofNat 64 (16 * (j % max 1 l.dslots))
    match s.placeRead place t user at' 16 with
    | .error _ => [at']
    | .ok bs =>
      if ofBytes (bs.drop 8) ≠ l.epoch + 1 ∨ ofBytes (bs.take 8) = v then [at'] else at' :: State.probed s place t user l v fuel (j + 1)

/-- The elements of a push that are not done, each with its value. -/
def Rule.listElems (r : Rule) (c : Ctx) (b : Nat) : List (Nat × Nat) :=
  ((List.range r.vl).filter fun e => !r.done.getLsbD e).map fun e => (e, c.elem r.wb b (bytesOf r.vtype) e)

/-- The addresses in a list's regions that an operation accesses: the entries, and for `wlins` the slots of the seen set. -/
def State.listAddrs (s : State) (place : Place) (t : Nat) (user : Bool) (r : Rule) (c : Ctx) (op : ListOp) (b : Nat) (l : WorkList) : List Word :=
  match op with
  | .push => (List.range r.vl).map fun i => l.entryAddr (l.tail + i)
  | .ins => ((List.range r.vl).map fun i => l.entryAddr (l.tail + i)) ++
      (r.listElems c b).flatMap fun x =>
        let seen := s.probed place t user l x.2 l.dslots x.2
        seen ++ (List.range r.vl).map fun i => l.dedup + BitVec.ofNat 64 (16 * ((x.2 + seen.length + i) % max 1 l.dslots))
  | .pop _ _ => (List.range (min r.vl l.held)).map fun i => l.entryAddr (l.head + i)
  | .close | .clear => []

/-- The lines that a work-list operation accesses: its descriptor's, and those in the list's regions (R346). -/
def State.listTouch (s : State) (g : Agent) (r : Rule) (op : ListOp) (b : Nat) : Touch :=
  let c := s.getCtx g
  let line := fun a => (s.lineOf g .load a).or (s.lineOf g .store a)
  let ls := match s.openList (placeOf g) (s.tenantOf g) c.user r.opA with
    | .ok (l, _) => (s.listAddrs (placeOf g) (s.tenantOf g) c.user r c op b l).filterMap line
    | .error _ => []
  let all := (line r.opA).toList ++ ls.eraseDups
  { rd := all, wr := all }

/-- A work-list operation performed at the home slice (R346, R347), once the stores of its core to its lines are performed there (R148,
R160). A pop makes all of V[d] present, and replaces the errors of the registers that it writes alone (R347, R422). -/
def State.listOp (s : State) (g : Agent) (k : Nat) (r : Rule) (op : ListOp) (b : Nat) : Fired :=
  let c := s.getCtx g
  let t := s.tenantOf g
  let n := bytesOf r.vtype
  let place := placeOf g
  if (s.listTouch g r op b).rd.all (fun l => s.linesDone (sameCore g) false (128 * l) 128) = false then .wait s
  else
  match s.openList place t c.user r.opA with
  | .error (x, va) => .whole x va s
  | .ok (l, line) =>
    let sized := match op with
      | .push | .ins | .pop _ _ => decide (n = l.esize)
      | _ => true
    if sized = false || (op == .ins && l.dedup == 0) then .whole .illcfg r.opA s
    else
      let s := s.noteList t line
      match op with
      | .push | .ins =>
        let p := s.pushAll place t c.user r.opA (op == .ins) l (r.listElems c b)
        let s := p.2.2.1.closeList place t c.user r.opA p.2.1
        match p.2.2.2 with
        | none => .ok s
        | some f => .part ((s.mapRule g k fun r => r.finish p.1).faultAt g k f)
      | .pop d x =>
        let m := min r.vl l.held
        match s.popAll place t c.user l m 0 with
        | .error f => .part (s.faultAt g k f)
        | .ok vs =>
          let s := (s.closeList place t c.user r.opA { l with head := l.head + m }).heal g (r.vgroup d.val n m)
          .part ((s.mapCtx g fun c =>
            ((vs.zipIdx.foldl (fun (c : Ctx) (v, e) => c.setElem r.wb d.val n e v) c).setX x (BitVec.ofNat 64 m)).supply
              (r.vgroup d.val n r.vl)).mapRule g k fun r => r.finish (List.range (max 1 r.vl)))
      | .close => .ok (s.closeList place t c.user r.opA { l with closed := true })
      | .clear => .ok (s.closeList place t c.user r.opA { l with closed := false, epoch := (l.epoch + 1) % 2 ^ 63 })

/-- A work-list rule (R346): its entry covers the descriptor's line on both sides, and stays ungenerated for the spill and dedup
regions until the operation ends. -/
def Rule.listWork (r : Rule) (g : Agent) (k : Nat) (op : ListOp) (b : Nat) : Work :=
  let n := bytesOf r.vtype
  let all := fun (name : Nat) => r.vgroup name n r.vl
  let count := match op with
    | .push | .ins | .pop _ _ => max 1 r.vl
    | _ => 1
  { count := count
    reads := fun _ _ => match op with
      | .push | .ins => all b
      | _ => []
    writes := fun _ _ => match op with
      | .pop d _ => all d.val
      | _ => []
    holds := fun e => match op with
      | .push | .ins => if e < r.vl then [r.velem b n e] else []
      | _ => []
    pends := fun e => match op with
      | .pop d _ => if e < r.vl then [r.velem d.val n e] else []
      | _ => []
    span := fun _ => List.range count
    uses := (true, true, false, false)
    touch := fun s _ => some (s.listTouch g r op b)
    covers := fun _ _ => { rd := none, wr := none }
    fire := fun s _ => s.listOp g k r op b }

/-! ## Queues -/

/-- A queue of a tenant (R327). -/
def State.queue (s : State) (t q : Nat) : Option Queue := (s.tenant t).queues.find? fun x => x.number == q

/-- Changes a queue. -/
def State.mapQueue (s : State) (t q : Nat) (f : Queue → Queue) : State :=
  s.mapTenant t fun a => { a with queues := a.queues.map fun x => if x.number = q then f x else x }

/-- Every queue that holds a hardware slot, with its tenant (R328). -/
def State.mappedQueues (s : State) : List (Nat × Queue) :=
  s.tenants.flatMap fun a => (a.queues.filter (·.mapped)).map fun q => (a.id, q)

/-- Whether a queue may leave its hardware slot (R328). -/
def Queue.evictable (q : Queue) : Bool :=
  match q.state with
  | .idle | .stalled => true
  | _ => false

/-- The queue whose last kick is oldest among those that may leave (R328). -/
def oldestKick : List (Nat × Queue) → Option (Nat × Queue)
  | [] => none
  | x :: xs =>
    match oldestKick xs with
    | some y => if x.2.evictable && decide (x.2.kicked ≤ y.2.kicked) then some x else some y
    | none => if x.2.evictable then some x else none

/-- A queue leaves its hardware slot: its notify word goes to memory (R328). -/
def State.unmapQueue (s : State) (t q : Nat) : State :=
  match s.queue t q with
  | some x =>
    let s := s.mapQueue t q fun x => { x with mapped := false }
    match s.deviceWrite t true x.notify (toBytes 8 x.produced.toNat) with
    | .ok s => s
    | .error _ => s
  | none => s

/-- The notify word of a queue (R328, R351): in its slot, or in memory. -/
def State.notifyWord (s : State) (t : Nat) (q : Queue) : Word :=
  if q.mapped then q.produced else
  match s.deviceRead t true q.notify 8 with
  | .ok bs => BitVec.ofNat 64 (ofBytes bs)
  | .error _ => q.produced

/-- A queue takes a hardware slot where one is free or can be freed, and reads its notify word (R328, R351). -/
def State.takeSlot (s : State) (t q : Nat) : State :=
  if ((s.queue t q).map (·.mapped)).getD true then s else
  let s := if s.mappedQueues.length < Config.hwQueues then s else
    match oldestKick s.mappedQueues with
    | some (t', x) => s.unmapQueue t' x.number
    | none => s
  if Config.hwQueues ≤ s.mappedQueues.length then s else
  match s.queue t q with
  | some x =>
    let p := s.notifyWord t x
    s.mapQueue t q fun x => { x with mapped := true, produced := p }
  | none => s

/-- What a notify does to a queue's state (R330); a STALLED queue without a hardware slot polls once it has one (R328, R351). -/
def Queue.notified (q : Queue) (now : Word) : Queue :=
  match q.state with
  | .idle => if q.mapped && decide (q.consumed.toNat < q.produced.toNat) then { q with state := .fetch } else q
  | .stalled =>
    if q.mapped then { q with state := .poll now now (BitVec.ofNat 64 Config.pollFirst), woken := false } else { q with woken := true }
  | _ => q

/-- The number that the next kick gets. -/
def State.nextKick (s : State) : Nat :=
  (s.tenants.foldl (fun n a => a.queues.foldl (fun n q => max n q.kicked) n) 0) + 1

/-- A queue whose notify word in memory was written is mapped where it can be, and acts on the notify; one that is OFF does not (R328,
R351). -/
def State.kickQueue (s : State) (t q : Nat) : State :=
  if ((s.queue t q).map fun x => decide (x.state = .off)).getD true then s
  else
    let k := s.nextKick
    (s.takeSlot t q).mapQueue t q fun x => ({ x with kicked := k } : Queue).notified s.now

/-- The producer count p is written into the slot of a queue that is mapped (R328). -/
def State.notifySlot (s : State) (t q : Nat) (p : Word) : State :=
  s.mapQueue t q fun x => ({ x with produced := p, kicked := s.nextKick } : Queue).notified s.now

/-- The producer count p is written to a queue's notify word (R328, R351): into its slot, or into memory and then the queue is
mapped where it can be. -/
def State.notifyQueue (s : State) (t q : Nat) (p : Word) : State :=
  match s.queue t q with
  | none => s
  | some x =>
    if x.mapped then s.notifySlot t q p
    else
      (match s.deviceWrite t true x.notify (toBytes 8 p.toNat) with
        | .ok s => s
        | .error _ => s).kickQueue t q

/-- A kick of the host's, a write by the caches of a place (R328, R388): none where the write of the notify word in memory fails. -/
def State.notifyFrom (s : State) (place : Place) (t : Nat) (q : Queue) (p : Word) : Option State :=
  if q.mapped then some (s.notifySlot t q.number p)
  else
    match s.placeWrite place t true q.notify (toBytes 8 p.toNat) with
    | .ok s => some (s.kickQueue t q.number)
    | .error _ => none

/-- lpush (R348). -/
def Rule.lpushWork (r : Rule) (g : Agent) (k : Nat) : Work :=
  let lines := fun (s : State) => (s.lineOf g .load r.opA).map fun l => { rd := [l] : Touch }
  { count := 1, reads := fun _ _ => [], writes := fun _ _ => [], holds := fun _ => [], pends := fun _ => []
    uses := (true, false, false, false)
    touch := fun s _ => some ((lines s).getD {}), covers := fun s _ => Cover.of (lines s)
    fire := fun s _ =>
      let t := s.tenantOf g
      match if r.opB.toNat ≤ 63 then s.queue t r.opB.toNat else none with
      | none => .fault .illcfg 0 s
      | some q =>
        if q.device = false || q.state == .off || q.state == .drain then .fault .illcfg 0 s
        else if r.opA.toNat % 128 ≠ 0 then .fault .align r.opA s
        else if isCanonical r.opA = false then .fault .loadfault r.opA s
        else if s.olderPerformed g k = false then .wait s
        else
          match s.loadAt (r.lookAcc (s.getCtx g) 0 0) r.opA 128 [] with
          | .fault c s => .fault c r.opA s
          | .wait s => .wait s
          | .ok bs s =>
            let p := s.notifyWord t q
            if 2 ^ q.lslots ≤ (p - q.consumed).toNat then .wait s
            else
              let head := bs.take 0x70 ++ toBytes 8 (p + 1).toNat
              let rec' := head ++ toBytes 4 (crc32c head) ++ bs.drop 0x7C
              let slot := q.base + BitVec.ofNat 64 (128 * (p.toNat % 2 ^ q.lslots))
              match s.deviceWriteSpan t true slot 2 rec' with
              | .error (c, s) => .fault c slot s
              | .ok s => .ok ((s.notifyQueue t q.number (p + 1)).mapCtx g fun c => c.forget r.key none) }

/-- What the elements of a work-list rule or `lpush` do; none for any other instruction. -/
def listWork (g : Agent) (k : Nat) (r : Rule) : Option Work :=
  match r.instr with
  | .wlpush _ b => some (r.listWork g k .push b.val)
  | .wlins _ b => some (r.listWork g k .ins b.val)
  | .wlpop d _ b => some (r.listWork g k (.pop d b) 0)
  | .wlclose _ => some (r.listWork g k .close 0)
  | .wlclear _ => some (r.listWork g k .clear 0)
  | .lpush _ _ => some (r.lpushWork g k)
  | _ => none

/-! ## Meanings -/

/-- Issues a work-list instruction (R346): NOCOLLECT, then vstart for those that move entries. -/
def issueList (i : Instr) (a : Reg) (entries : Bool) (s : State) : Result :=
  issueRule (firstCause [(s.ctx.collecting, .nocollect), (entries && decide (s.ctx.vstart ≠ 0), .illcfg)])
    { s.snapshot i with opA := s.getX a } s

/-- wlpush (R347). -/
def execWlpush (a b : Reg) (s : State) : Result := issueList (.wlpush a b) a true s
/-- wlins (R347). -/
def execWlins (a b : Reg) (s : State) : Result := issueList (.wlins a b) a true s
/-- wlpop (R347): the front end waits for its count (R130). -/
def execWlpop (d a b : Reg) (s : State) : Result := issueList (.wlpop d a b) a true s
/-- wlclose (R347). -/
def execWlclose (a : Reg) (s : State) : Result := issueList (.wlclose a) a false s
/-- wlclear (R347). -/
def execWlclear (a : Reg) (s : State) : Result := issueList (.wlclear a) a false s
/-- lpush (R348). -/
def execLpush (a b : Reg) (s : State) : Result :=
  issueRule (if s.ctx.collecting then some .nocollect else none)
    { s.snapshot (.lpush a b) with opA := s.getX a, opB := s.getX b } s

end Sys2Proof.Machine
end

