-- ==== Sys2Proof/Machine/Sched.lean ====
section
/-! DEFINITION. Waiting, yielding, parking, barriers, pre-emption and resumption, queues, launches and dispatch
(15_scheduling.md R325-R350, 18_recovery.md R417, R418). -/

namespace Sys2Proof.Machine

/-- What an agent does at its front end, whoever has the turn. -/
def State.as (s : State) (g : Agent) (f : State → State) : State := (f (s.turnTo g)).turnTo s.ctx.agent

/-! ## Waiting on memory -/

/-- A wait has read v (R343): it completes where its condition holds or its limit has passed, else it goes on. -/
def State.waitValue (s : State) (since : Word) (ge : Bool) (d a : Reg) (v : Word) : State :=
  let c := s.getX d
  let met := if ge then decide (c.toNat ≤ v.toNat) else v != c
  let limit := (s.tenant (s.tenantOf s.ctx.agent)).wlimit
  if met || decide (limit.toNat ≤ (s.now - since).toNat) then (s.setX d v).advance
  else { s with ctx := { s.ctx with hold := .memory since ge d a } }

/-- One read of a wait (R343): in collecting mode it consults the context's records first (R227). -/
def State.waitRead (s : State) (since : Word) (ge : Bool) (d a : Reg) : State :=
  let addr := s.getX a
  if isCanonical addr = false then s.raise .loadfault addr
  else if addr.toNat % 8 ≠ 0 then s.raise .align addr
  else
    match s.loadOwn s.scalarAcc s.scalarLists addr 8 with
    | .fault c s => s.raise c addr
    | .wait s => { s with ctx := { s.ctx with hold := .memory since ge d a } }
    | .ok bs s => s.waitValue since ge d a (BitVec.ofNat 64 (ofBytes bs))

/-- The first read of a wait, behind a `fence.sv` once that lets it through (R195). -/
def State.waitBegin (s : State) (ge : Bool) (d a : Reg) : State := if s.ctx.svHeld then s.stall else s.waitRead s.now ge d a

/-- wait.ne (R343). -/
def execWaitNe (d a : Reg) (s : State) : Result := done (s.waitBegin false d a)
/-- wait.ge (R343). -/
def execWaitGe (d a : Reg) (s : State) : Result := done (s.waitBegin true d a)

/-- Whether a wait's last read of a remote page is answered and old enough to be made again (R343). -/
def Ctx.rereadDue (c : Ctx) (now : Word) : Bool :=
  let mine := c.remotes.filter fun r => r.key == c.instrPc
  !mine.isEmpty && mine.all fun r => r.answer.isSome && decide (Config.rereadNs ≤ (now - r.issued).toNat)

/-- The wait of the context whose turn it is reads again: it takes what an owning device has answered, and where it goes on all the same
it asks again once the next read is due (R343). -/
def State.waitAgain (s : State) (since : Word) (ge : Bool) (d a : Reg) : State :=
  let t := s.waitRead since ge d a
  match t.ctx.hold with
  | .memory _ _ _ _ =>
    if t.ctx.rereadDue t.now then ({ t with ctx := t.ctx.forget t.ctx.instrPc none } : State).waitRead since ge d a else t
  | _ => t

/-- A wait of an agent reads again. -/
def State.reread (s : State) (g : Agent) : State :=
  match (s.getCtx g).hold with
  | .memory since ge d a => s.as g fun s => s.waitAgain since ge d a
  | _ => s

/-- Whether the limit of an agent's wait has passed (R343). -/
def State.waitExpired (s : State) (g : Agent) : Bool :=
  match (s.getCtx g).hold with
  | .memory since _ _ _ => decide ((s.tenant (s.tenantOf g)).wlimit.toNat ≤ (s.now - since).toNat)
  | _ => false

/-- WAIT_REREAD (R343). -/
def execWaitReread (g : Agent) (s : State) : Result := done (s.reread g)

/-- WAIT_LIMIT_EXPIRY (R343). -/
def execWaitLimitExpiry (g : Agent) (s : State) : Result := done (if s.waitExpired g then s.reread g else s)

/-- Whether an agent's wait is on a word of a remote page (R343). -/
def State.waitsRemote (s : State) (g : Agent) : Bool :=
  match (s.getCtx g).hold with
  | .memory _ _ _ a =>
    match s.translate (placeOf g) (s.tenantOf g) .load (s.getCtx g).user ((s.getCtx g).getX a) with
    | .ok p => decide (p.attr = .remote)
    | .error _ => false
  | _ => false

/-- The owning device answers the read of a wait. -/
def Ctx.answerWait (c : Ctx) (v : Word) : Ctx :=
  { c with remotes := c.remotes.map fun r =>
      if r.key == c.instrPc && r.elem == 0 && r.answer.isNone then { r with answer := some (toBytes 8 v.toNat) } else r }

/-- REMOTE_WAIT_REREAD (R343): the owning device's answer to the read of a wait that is under way, or that is due. -/
def execRemoteWaitReread (g : Agent) (v : Word) (s : State) : Result :=
  done (if s.waitsRemote g then ((s.reread g).mapCtx g fun c => c.answerWait v).reread g else s)

/-! ## Moving tasks -/

/-- Every register line of a context leaves the register file, modified ones to the image (R413, R418). -/
def State.flushLines (s : State) (id : Nat) : Except (Cause × Word) State :=
  ((s.core (id / 8)).rf.filter fun x => x.1 == id % 8).foldl (fun (o : Except (Cause × Word) State) x =>
    match o with
    | .ok s => s.evictLine (id / 8) x.1 x.2
    | .error e => .error e) (.ok s)

/-- The marks of uncorrectable errors in an agent's registers and rules are gone (R422). -/
def State.dropMarks (s : State) (g : Agent) : State :=
  { s with lostUnits := s.lostUnits.filter fun u => match u with
      | .register h _ | .rule h _ => decide (h ≠ g)
      | _ => true }

/-- The marks of uncorrectable errors in an agent's registers and rules go with them to another agent (R422). -/
def State.moveMarks (s : State) (g dst : Agent) : State :=
  let s := s.dropMarks dst
  { s with lostUnits := s.lostUnits.map fun u => match u with
      | .register h n => if h = g then .register dst n else u
      | .rule h n => if h = g then .rule dst n else u
      | u => u }

/-- A context becomes that of another agent. -/
def State.rename (s : State) (g dst : Agent) : State :=
  let c := s.getCtx g
  let rest := (s.ctx :: s.others).filter fun x => decide (x.agent ≠ g) && decide (x.agent ≠ dst)
  let s := s.moveMarks g dst
  if s.ctx.agent = g ∨ s.ctx.agent = dst then { s with ctx := { c with agent := dst }, others := rest }
  else { s with others := { c with agent := dst } :: rest.filter fun x => decide (x.agent ≠ s.ctx.agent) }

/-- Whether a context keeps a saved task. -/
def Ctx.isSaved (c : Ctx) : Bool :=
  c.task.isSome && match c.hold with
    | .saved _ _ | .barrier _ _ true => true
    | _ => false

/-- Whether a context runs a task. -/
def Ctx.isRunning (c : Ctx) : Bool := c.task.isSome && !c.isSaved

/-- The lowest id from 1536 on that no stored task has. -/
def State.storeId (s : State) : Nat :=
  (firstFrom (fun i => s.allCtx.all fun c => decide (c.agent ≠ .ctx i)) Config.contexts (s.others.length + 1)).getD Config.contexts

/-- A task whose modified register lines cannot be written to its image ends (R404). -/
def State.imageLost (s : State) (g : Agent) (x : Cause × Word) : State :=
  let c := s.getCtx g
  s.fatal g { cause := causeCode x.1, pc := c.instrPc, elem := 0, addr := x.2, rule := noRule, tstat := c.tstat, rpc := c.instrPc }

/-- A saved task makes room for another in its context (R417, log 22): its register lines go to its image. -/
def State.displace (s : State) (id : Nat) : State :=
  if (s.getCtx (.ctx id)).isSaved then
    match s.flushLines id with
    | .error x => s.imageLost (.ctx id) x
    | .ok s =>
      let n := s.storeId
      (s.rename (.ctx id) (.ctx n)).mapCtx (.ctx n) fun c => { c with origin := id }
  else s

/-- Whether an access of a context that must not be abandoned is under way: an atomic at an owning device (R417). -/
def Ctx.atomicOut (c : Ctx) : Bool := c.remotes.any fun r => match r.op with
  | .add | .swap | .cas => true
  | .load | .store | .ifence => false

/-- A context is saved and gives up its tags with its task stopped (R214, R417). -/
def State.stopTask (s : State) (g : Agent) (yielded : Bool) : State :=
  (s.saveContext g yielded).mapCtx g fun c => { c with tagMap := [], yieldBy := none }

/-! ## yield, park, bar -/

/-- yield (R339, R340). -/
def execYield (s : State) : Result :=
  match s.ctx.yieldBy with
  | none => done s.advance
  | some by' =>
    if s.ctx.atomicOut then done s.stall
    else if s.now.toNat ≤ by'.toNat then done (s.advance.stopTask s.ctx.agent true)
    else done (s.stopTask s.ctx.agent false)

/-- park (R340). With a request pending the context is pre-empted at once. -/
def execPark (s : State) : Result :=
  let g := s.ctx.agent
  match g with
  | .handler _ _ _ => done s.advance
  | .ctx id =>
    let want := (s.core (id / 8)).wants (id % 8)
    let s := s.advance
    let s := ({ s with ctx := { s.ctx with want := want, hold := .park s.now false } } : State).renegotiateEnd g
    if (s.ctx.rules ++ s.ctx.queue).all fun r => r.detached then done (s.endPark g)
    else if s.ctx.yieldBy.isSome then done (s.stopTask g false)
    else done s

/-- PARK_WAKE (R340): a rule of the context has retired or a tag was set, or it waits for its first span. -/
def execParkWake (g : Agent) (s : State) : Result :=
  match (s.getCtx g).hold with
  | .park _ woken =>
    done (if woken || ((s.getCtx g).rules ++ (s.getCtx g).queue).all (fun r => r.detached) then s.endPark g else s)
  | _ => done s

/-- PARK_TIMEOUT (R340). -/
def execParkTimeout (g : Agent) (s : State) : Result :=
  match (s.getCtx g).hold with
  | .park since _ => done (if Config.parkNs ≤ (s.now - since).toNat then s.endPark g else s)
  | _ => done s

/-- The launch of a task. -/
def State.launchOf (s : State) (k : Task) : Option Launch := findLaunch k.launch (s.tenant k.tenant).launches

/-- How often a context has arrived at a barrier (R342). -/
def Ctx.arrived (c : Ctx) (scope id : Nat) : Nat :=
  ((c.arrivals.find? fun a => a.1 == scope && a.2.1 == id).map (·.2.2)).getD 0

/-- One more arrival of a context at a barrier. -/
def Ctx.arrive (c : Ctx) (scope id : Nat) : Ctx :=
  { c with arrivals := (scope, id, c.arrived scope id + 1) :: c.arrivals.filter fun a => !(a.1 == scope && a.2.1 == id) }

/-- Whether another context takes part in the barriers of a scope that a context arrives at (R341). -/
def takesPart (scope : Nat) (c x : Ctx) : Bool :=
  match c.task, x.task, c.scratchHome, x.scratchHome with
  | some k, some j, some a, some b =>
    k.tenant == j.tenant && j.gang && if scope = 5 then k.gangkey == j.gangkey else k.launch == j.launch && sameInstance scope a b
  | _, _, _, _ => false

/-- Whether every participant that runs on the module has arrived as often as a context that is held (R342). -/
def State.barrierReady (s : State) (c : Ctx) : Bool :=
  match c.hold with
  | .barrier sc id _ => s.allCtx.all fun x => !takesPart sc c x || decide (c.arrived sc id ≤ x.arrived sc id)
  | _ => false

/-- bar (R342). -/
def execBar (a : Reg) (s : State) : Result :=
  let id := (s.getX a).toNat
  let sc := scopeOf s.ctx.vtype
  match s.ctx.task with
  | none => trap .illcfg 0 s
  | some k =>
    if k.gang = false || 15 < id then trap .illcfg 0 s
    else if (s.ctx.vectorDone && s.releasedAt sc) = false then done s.stall
    else if sc = 0 then done s.advance
    else if ((s.launchOf k).map (·.dead)).getD false then done (s.raiseAt .barrierdead s.ctx.instrPc 0 0 true)
    else
      let s := s.releases s.ctx.agent sc
      done { s with ctx := { s.ctx.arrive sc id with hold := .barrier sc id false } }

/-- A participant that is held at the n-th completion of a barrier goes on at the next word; one that is held at a later one does not
(R342). -/
def Ctx.passBarrier (c : Ctx) (scope id n : Nat) : Ctx :=
  match c.hold with
  | .barrier sc i false => if sc = scope && i == id && decide (c.arrived scope id ≤ n) then c.advance 1 else c
  | _ => c

/-- BARRIER_COMPLETE (R342): `pod` says that the participants on other modules have arrived, which a pod-scope barrier needs. -/
def execBarrierComplete (g : Agent) (pod : Bool) (s : State) : Result :=
  let c := s.getCtx g
  match c.hold with
  | .barrier sc id _ =>
    if s.barrierReady c && (decide (sc ≠ 5) || pod) then
      let before := (s.allCtx.filter (takesPart sc c)).flatMap (·.released)
      let pass := fun x : Ctx => if takesPart sc c x then
        { x.passBarrier sc id (c.arrived sc id) with acquired := ((x.acquired ++ before).eraseDups).filter s.underway } else x
      done { s with ctx := pass s.ctx, others := s.others.map pass }
    else done s
  | _ => done s

/-- A participant raises BARRIERDEAD (R342); one that is saved raises it once it has resumed. -/
def State.barrierDead (s : State) (c : Ctx) : State :=
  let p : Pending := { cause := .barrierdead, pc := c.instrPc, rpc := c.instrPc, event := true }
  let s := s.mapCtx c.agent fun c => { c with pending := some p }
  if c.isSaved then s else s.takeTrap c.agent

/-- The tasks of a launch (R333). -/
def State.tasksOf (s : State) (t id : Nat) : List Ctx :=
  s.allCtx.filter fun c => match c.task with
    | some k => k.tenant == t && k.launch == id
    | none => false

/-- Whether a context is held at a barrier. -/
def Ctx.atBarrier (c : Ctx) : Bool :=
  match c.hold with
  | .barrier _ _ _ => true
  | _ => false

/-- The tasks that the barriers at which tasks of a launch are held wait for: those of the launch, and at a pod-scope barrier those of
every gang launch of its gangkey (R341). -/
def State.awaited (s : State) (t id : Nat) : List Ctx :=
  let ps := s.tasksOf t id
  let pod := fun c : Ctx => match c.hold with
    | .barrier 5 _ _ => true
    | _ => false
  if ps.any pod then s.allCtx.filter fun x => ps.any fun c => takesPart 5 c x else ps

/-- Whether no barrier of a launch can complete (R342). -/
def State.launchDead (s : State) (t id : Nat) : Bool :=
  !(s.tasksOf t id).isEmpty && (s.awaited t id).all fun c => c.atBarrier && c.pending.isNone && !s.barrierReady c

/-- BARRIERDEAD (R342, R424). -/
def execBarrierdead (tenant launch : Nat) (s : State) : Result :=
  let dead := ((findLaunch launch (s.tenant tenant).launches).map (·.dead)).getD false
  if s.launchDead tenant launch || dead then
    done (((s.tasksOf tenant launch).filter fun c => c.atBarrier && c.pending.isNone).foldl State.barrierDead s)
  else done s

/-! ## Pre-emption and resumption -/

/-- Whether a yield request pre-empts a context now (R339, R340). -/
def State.preemptDue (s : State) (c : Ctx) : Bool :=
  match c.yieldBy with
  | none => false
  | some by' => c.isRunning && !c.atomicOut && (decide (by'.toNat ≤ s.now.toNat) || match c.hold with
      | .park _ _ => true
      | _ => false)

/-- PREEMPT (R339, R417). -/
def execPreempt (g : Agent) (s : State) : Result :=
  done (if s.preemptDue (s.getCtx g) then s.stopTask g false else s)

/-- What a task needs of a core (R334): tile mask, tag count, and whether its scratchpad bytes fit. -/
structure Needs where
  tiles   : Nat
  tags    : Nat
  scratch : Nat
  deriving DecidableEq, Repr

/-- Free physical copy tags of a core (R214). -/
def State.freeTags (s : State) (core : Nat) : Nat :=
  64 - s.allCtx.foldl (fun n c => if coreOf c.agent = some core then n + c.tagMap.length else n) 0

/-- The context of a core that can take a task (R334): the lowest one without a task, else the lowest whose task is saved. -/
def State.freeContext (s : State) (core : Nat) : Option Nat :=
  let at' := fun i => s.getCtx (.ctx i)
  match firstFrom (fun i => (at' i).task.isNone && decide ((at' i).hold = .idle)) (8 * core) 8 with
  | some i => some i
  | none => firstFrom (fun i => (at' i).isSaved) (8 * core) 8

/-- Whether a core of a tenant can hold a task now (R334). -/
def State.canHold (s : State) (t core : Nat) (n : Needs) : Bool :=
  let k := s.core core
  let a := s.tenant t
  a.cores.contains core && !k.stopped && (s.freeContext core).isSome && k.freeSpan.isSome &&
  decide (popcount 4 n.tiles ≤ k.freeTiles.length) && decide (n.tags ≤ s.freeTags core) &&
  decide (a.spbase.toNat + n.scratch ≤ k.scratchBytes)

/-- What a launch's tasks need. -/
def Launch.needs (a : Tenant) (l : Launch) : Needs :=
  let kern := ((a.code.find? fun h => h.id == l.code).bind fun h => h.kernels[l.kernel]?)
  { tiles := l.field 5 1, tags := (kern.map fun x => popcount 64 x.tags.toNat).getD 0, scratch := l.field 0x14 4 }

/-- The physical tags of a core that no task holds, lowest first (R214). -/
def State.tagsFree (s : State) (core : Nat) : List Nat :=
  (List.range 64).filter fun p => s.allCtx.all fun c => decide (coreOf c.agent ≠ some core) || c.tagMap.all fun m => m.2 != p

/-- Maps the tags of a mask to free physical tags (R214). -/
def State.takeTags (s : State) (id : Nat) : State :=
  let c := s.getCtx (.ctx id)
  let names := (List.range 64).filter fun i => bitOf c.tagMask.toNat i == 1
  s.mapCtx (.ctx id) fun c => { c with tagMap := names.zip (s.tagsFree (id / 8)) }

/-- The keys by which launches of a tenant are ordered (R332). -/
def Launch.rank (l : Launch) : List Nat := [l.field 2 1 % 4, l.deadline, l.queue, l.arrival]

/-- Whether a list of keys stands before another. -/
def ranksFirst : List Nat → List Nat → Bool
  | a :: as, b :: bs => decide (a < b) || (a == b && ranksFirst as bs)
  | _, _ => false

/-- Puts a launch in its place (R332). -/
def insertLaunch (l : Launch) : List Launch → List Launch
  | [] => [l]
  | x :: xs => if ranksFirst l.rank x.rank then l :: x :: xs else x :: insertLaunch l xs

/-- Whether a launch has a ticket that is not dispatched (R332). -/
def State.hasTickets (s : State) (t : Nat) (l : Launch) : Bool :=
  decide (0 < l.kept) || l.fromList && !l.listGone &&
    match s.listState t (BitVec.ofNat 64 (l.field 0x28 8)) with
    | .ok (head, tail, _) => decide (head < tail)
    | .error _ => true

/-- The eligible launches of a tenant with tickets, first the first to be served (R332). -/
def State.inOrder (s : State) (t : Nat) : List Launch :=
  ((s.tenant t).launches.filter fun l => decide (l.state = .ready) && s.hasTickets t l).foldl (fun ls l => insertLaunch l ls) []

/-- Whether a saved task may run on a core: one with scratchpad bytes only on its own (R418). -/
def State.canResume (s : State) (c : Ctx) (core : Nat) : Bool :=
  match c.task with
  | none => false
  | some k =>
    c.isSaved && (decide (k.scratch = 0) || decide (c.scratchHome = some core)) &&
    match s.launchOf k with
    | some l => s.canHold k.tenant core (l.needs (s.tenant k.tenant))
    | none => false

/-- The filter of a context is made anew from its open lists (R239); where one cannot be read here, every bit is set, which changes no
value (R234). -/
def State.rebuildFilter (s : State) (g : Agent) : State :=
  let c := s.getCtx g
  let segs := (c.handles.toList.filter fun h => decide (h.state = .opened)).flatMap (·.segs)
  match (s.listRecords (c.laneAcc c.pc 0) c.unwritten segs).1 with
  | .ok (some rs) => s.mapCtx g fun c => rs.foldl (fun (c : Ctx) r => c.markFilter r.addr r.data.length) { c with filter := 0 }
  | _ => s.mapCtx g fun c => { c with filter := BitVec.allOnes 32768 }

/-- Resumption of a saved task in a context (R417, R418): its lines leave the old core where it moves, and its filter is made anew
there (R239). -/
def State.resumeAt (s : State) (g : Agent) (target : Nat) : State :=
  let tiles := (((s.getCtx g).task.bind s.launchOf).map fun l => l.field 5 1).getD 0
  let go := fun (s : State) => ((s.resumeContext target tiles).takeTags target).mapCtx (.ctx target) Ctx.reserveAgain
  if g = .ctx target then go s else
  let s := s.displace target
  match (match g with
    | .ctx id => if id < Config.contexts then s.flushLines id else .ok s
    | .handler _ _ _ => .ok s) with
  | .error x => s.imageLost g x
  | .ok s => (go (s.rename g (.ctx target))).rebuildFilter (.ctx target)

/-! ## Launches -/

/-- The state of a launch's record against R325, beside its stamp and check: whether it is legal for the tenant. -/
def State.recordOk (s : State) (t : Nat) (bs : List Byte) : Bool :=
  let f := fun o n => ofBytes ((bs.drop o).take n)
  let a := s.tenant t
  let kern := ((a.code.find? fun h => h.id == f 8 8).bind fun h => h.kernels[f 0x10 4]?)
  let list := if f 6 1 = 1 then
      match s.openList deviceDie t true (BitVec.ofNat 64 (f 0x28 8)) with
      | .ok (l, _) => decide (f 7 1 = 0xFF) || decide (f 7 1 < l.esize)
      | .error _ => false
    else decide (f 0x28 8 ≤ 2 ^ 32) && f 7 1 == 0xFF
  f 0 2 == 1 && decide (f 2 1 < 4) && decide (f 3 1 < 32) && decide (1 ≤ f 4 1) && decide (f 4 1 ≤ 8) && decide (f 5 1 < 16) &&
  decide (f 6 1 < 2) && list &&
  (match kern with
    | some k => f 0x14 4 % 128 == 0 && decide (k.scratch ≤ f 0x14 4) && k.gang == (bitOf (f 3 1) 4 == 1)
    | none => false) &&
  (if f 0x20 4 = 0 then f 0x18 8 == 0 || f 0x18 8 % 64 == 0 else f 0x18 8 % 64 == 0) && decide (f 0x20 4 ≤ 65536) &&
  f 0x40 8 % 8 == 0 && f 0x50 8 % 8 == 0 && decide (f 0x60 1 < 8) && decide (f 0x61 1 < 2) && decide (f 0x62 2 < 256) && f 0x64 4 == 0 &&
  (f 0x60 1 % 2 + f 0x60 1 / 4 % 2 == 0 || f 0x68 8 % 8 == 0) && f 0x7C 4 == 0

/-- Whether a trigger is met (R331); none where its word is not on a normal page of the tenant. -/
def State.triggerMet (s : State) (t addr thr : Nat) : Option Bool :=
  if addr = 0 then some true else
  match s.translate deviceDie t .load true (BitVec.ofNat 64 addr) with
  | .error _ => none
  | .ok p =>
    if p.attr ≠ .normal then none else
    match s.lineError p.pa 8 p.zero with
    | some _ => some false
    | none => some (decide (thr ≤ ofBytes ((s.l2Fill t (p.pa / 128) p.zero).homeBytes p.pa 8)))

/-- Tickets of each die (R335). -/
def splitTickets (n : Nat) (cores : List Nat) : List (Nat × Nat) :=
  let upTo := fun k => (cores.filter fun c => decide (c / 48 < k)).length
  (List.range 4).map fun k => (n * upTo k / max 1 cores.length, n * upTo (k + 1) / max 1 cores.length)

/-- A launch fails before it can run: its outcome, and it ends (R325, R331, R333). -/
def State.failLaunch (s : State) (t id outcome : Nat) : State :=
  (s.mapLaunch t id fun l => { l with outcome := outcome, state := .draining, ranges := [], extra := [], listGone := true }).advanceLaunch t id

/-! ## Placing tasks -/

/-- What a launch hands to a core. -/
inductive Ticket where
  | run (value : Nat) (l : Launch) (s : State)
  | skipped (s : State)
  | failed (gone : Bool) (s : State)
  | none

/-- The die whose range holds most tickets, ties to the lower (R335). -/
def richest (ranges : List (Nat × Nat)) : Nat :=
  (ranges.zipIdx.foldl (fun (best : Nat × Nat) x => if best.1 < x.1.2 - x.1.1 then (x.1.2 - x.1.1, x.2) else best) (0, 0)).2

/-- The next ticket of a count launch for a die, and the ranges left (R335). -/
def takeCount (ranges : List (Nat × Nat)) (die : Nat) (steal : Bool) : Option (Nat × List (Nat × Nat)) :=
  match ranges[die]? with
  | some (lo, hi) =>
    if lo < hi then some (lo, ranges.set die (lo + 1, hi))
    else if steal then
      let m := richest ranges
      match ranges[m]? with
      | some (a, b) =>
        if a < b then
          let half := ceilDiv (b - a) 2
          some (b - half, (ranges.set m (a, b - half)).set die (b - half + 1, b))
        else none
      | none => none
    else none
  | none => none

/-- The first ticket left by a lost die that a die may take, and the others (R423). -/
def takeExtra (die : Nat) (steal : Bool) : List (Nat × Nat × Nat) → Option (Nat × List (Nat × Nat × Nat))
  | [] => none
  | (d, lo, hi) :: rest =>
    if lo < hi ∧ (d = die ∨ d = 4 ∨ steal) then some (lo, (d, lo + 1, hi) :: rest)
    else (takeExtra die steal rest).map fun p => (p.1, (d, lo, hi) :: p.2)

/-- A ticket of a launch for a core (R335, R336, R349). -/
def State.takeTicket (s : State) (t core : Nat) (l : Launch) : Ticket :=
  match takeExtra (core / 48) (l.flag 3) l.extra with
  | some (v, es) => .run v { l with extra := es } (s.mapLaunch t l.id fun l => { l with extra := es })
  | none =>
  if l.fromList then
    if l.listGone then .none else
    let desc := BitVec.ofNat 64 (l.field 0x28 8)
    match s.popEntry t desc with
    | .error c => .failed (decide (c = .queuegone)) s
    | .ok (none, _) => .none
    | .ok (some v, s) =>
      let skip := l.field 7 1
      if skip ≠ 0xFF ∧ v / 2 ^ (8 * skip) % 256 = 0 then .skipped s else .run v l s
  else
    match takeCount l.ranges (core / 48) (l.flag 3) with
    | some (v, rs) =>
      let s := s.mapLaunch t l.id fun l => { l with ranges := rs }
      .run v { l with ranges := rs } s
    | none => .none

/-- The number of the context image that a new task gets: the lowest that no task of the tenant has (log 9). -/
def State.freeImage (s : State) (t : Nat) : Word :=
  let a := s.tenant t
  let at' := fun i : Nat => a.pool + BitVec.ofNat 64 (Config.contextStride * i)
  let used := fun w : Word => s.allCtx.any fun c => (match c.task with
    | some k => k.tenant == t
    | none => false) && c.ctximg == w
  at' ((firstFrom (fun i => !used (at' i)) 0 (s.others.length + 2)).getD 0)

/-- The start state of a task (R40, R118, R334). -/
def Ctx.begin (c : Ctx) (a : Tenant) (l : Launch) (k : Kernel) (ticket img : Word) : Ctx :=
  let id := BitVec.ofNat 64 l.id
  let args := if l.field 0x20 4 = 0 then 0 else BitVec.ofNat 64 (l.field 0x18 8)
  { Ctx.reset c.agent with
    pc := k.entry
    x := (Vector.replicate 128 (0 : Word)).set 1 (BitVec.ofNat 64 Config.exitAddress) |>.set 2 ticket |>.set 3 args
      |>.set 4 (img + BitVec.ofNat 64 Config.contextStride) |>.set 5 id
    vtype := BitVec.ofNat 64 Config.taskVtype
    tvec := a.tvecdef, ctximg := img, tagMask := k.tags
    task := some { tenant := a.id, launch := l.id, ticket := ticket, launchid := id, scratch := l.field 0x14 4
                   gang := l.flag 4, gangkey := l.field 0x24 4 }
    want := l.field 4 1, hold := .run
    rules := c.rules.filter fun (r : Rule) => r.detached
    remotes := c.remotesOf (c.rules.filter fun (r : Rule) => r.detached)
    seq := c.seq }

/-- A task starts in a context (R121, R334). -/
def State.startTask (s : State) (t id : Nat) (l : Launch) (ticket : Nat) : State :=
  match ((s.tenant t).code.find? fun h => h.id == l.code).bind fun h => h.kernels[l.kernel]? with
  | none => s
  | some k =>
    let s := s.mapLaunch t l.id fun l => { l with running := l.running + 1, placed := true }
    let s := (s.displace id).dropMarks (.ctx id)
    let img := s.freeImage t
    let s := s.mapCore (id / 8) fun c => { c with rf := c.rf.filter fun x => x.1 != id % 8 }
    let s := s.setCtx ((s.getCtx (.ctx id)).begin (s.tenant t) l k (BitVec.ofNat 64 ticket) img)
    let s := s.renegotiate (.ctx id) (l.field 4 1)
    (s.takeTiles id (l.field 5 1)).takeTags id

/-- What placing a ticket, or every ticket of a gang, comes to: the launch and the state, a work list that has failed, or no room. -/
inductive Placed where
  | ok (l : Launch) (s : State)
  | failed (gone : Bool) (s : State)
  | none

/-- Places a task of a launch on the first of some cores that can hold it and has a ticket for it. -/
def State.placeOne (s : State) (t : Nat) (l : Launch) : List Nat → Placed
  | [] => .none
  | k :: ks =>
    match (if s.canHold t k (l.needs (s.tenant t)) then s.takeTicket t k l else .none), s.freeContext k with
    | .run v l s, some id => .ok l (s.startTask t id l v)
    | .skipped s, _ => .ok l (s.ticketCount t l.id)
    | .failed gone s, _ => .failed gone s
    | _, _ => State.placeOne s t l ks

/-- Places every ticket of a gang launch in one step, or none (R337). -/
def State.placeAll (s : State) (t : Nat) (l : Launch) : Nat → Placed
  | 0 => .ok l s
  | n + 1 =>
    if s.hasTickets t l = false then .ok l s else
    match s.placeOne t l (s.tenant t).cores with
    | .ok l s => State.placeAll s t l n
    | x => x

/-- The work list of a launch has failed: no further entry is popped, and the launch ends FAILED or QUEUEGONE (R336). -/
def State.failList (s : State) (t id : Nat) (gone : Bool) : State :=
  (s.mapLaunch t id fun l =>
    { l with state := .draining, listGone := true, ranges := [], extra := []
             outcome := if l.outcome = 1 then 1 else if gone then 3 else 2 }).advanceLaunch t id

/-- Tickets that a launch still has; one more pop, which fails, where its list cannot be read (R336). -/
def State.ticketsLeft (s : State) (t : Nat) (l : Launch) : Nat :=
  if l.fromList then
    match s.listState t (BitVec.ofNat 64 (l.field 0x28 8)) with
    | .ok (head, tail, _) => l.kept + (tail - head)
    | .error _ => l.kept + 1
  else l.kept

/-- The module with no task on any core of a tenant, to see what would fit (R333). -/
def State.vacant (s : State) (t : Nat) : State :=
  let mine := fun c : Ctx => match c.agent with
    | .ctx id => (s.tenant t).cores.contains (id / 8)
    | .handler _ _ _ => false
  { s with
    ctx := if mine s.ctx then Ctx.reset s.ctx.agent else s.ctx
    others := s.others.filter fun c => !mine c
    cores := s.cores.map fun (k, c) =>
      if (s.tenant t).cores.contains k then
        (k, { c with spans := Vector.replicate 8 none, want := Vector.replicate 8 0, back := [], tileOwner := Vector.replicate 4 none })
      else (k, c) }

/-- Whether a launch has a ticket for a core (R335), or a list that a pop would find failed. -/
def State.ticketFor (s : State) (t core : Nat) (l : Launch) : Bool :=
  match s.takeTicket t core l with
  | .none => false
  | _ => true

/-- Whether a launch's next ticket, or all tickets of a gang, could be placed. -/
def State.fits (s : State) (t : Nat) (l : Launch) : Bool :=
  if l.flag 4 then match s.placeAll t l (s.ticketsLeft t l) with
    | .none => false
    | _ => true
  else (s.tenant t).cores.any fun k => s.canHold t k (l.needs (s.tenant t)) && s.ticketFor t k l

/-- Whether a core may serve a launch that stands before another in the order (R337): a ticket of it, or every ticket of a gang. -/
def State.servedBefore (s : State) (t core : Nat) (l : Launch) : Bool :=
  (s.inOrder t).any fun x => ranksFirst x.rank l.rank &&
    if x.flag 4 then s.fits t x else s.canHold t core (x.needs (s.tenant t)) && s.ticketFor t core x

/-- Whether a core is kept from a launch for the first in order, which does not fit yet: one that a gang launch needs (R337), or whose
room yield requests are to make (R339; log 23). -/
def State.keptFor (s : State) (t core : Nat) (l : Launch) : Bool :=
  match s.inOrder t with
  | [] => false
  | x :: _ => ranksFirst x.rank l.rank && !s.fits t x && (s.vacant t).canHold t core (x.needs (s.tenant t)) &&
      (x.flag 4 || s.allCtx.any fun c => c.yieldBy.isSome && decide (c.task.map (·.tenant) = some t))

/-- RESUME_TASK (R340, R417): the task is placed ahead of any new ticket of its launch, and after the launches that stand before
its own and that core may serve or is kept for. -/
def execResumeTask (g : Agent) (target : Nat) (s : State) : Result :=
  let c := s.getCtx g
  let core := target / 8
  let own := decide (g = .ctx target)
  let free := own || (s.getCtx (.ctx target)).isSaved || ((s.getCtx (.ctx target)).task.isNone && decide ((s.getCtx (.ctx target)).hold = .idle))
  match c.task.bind fun k => (s.launchOf k).map fun l => (k.tenant, l) with
  | none => done s
  | some (t, l) =>
    if decide (target < Config.contexts) && free && s.canResume c core && !s.servedBefore t core l && !s.keptFor t core l then
      done (s.resumeAt g target)
    else done s

/-- The triggers of a launch that are met: one that was met is not read again (23_prog_expert_layer.md R430). -/
def State.triggersMet (s : State) (t : Nat) (l : Launch) : Option (Bool × Bool) :=
  match if l.met0 then some true else s.triggerMet t (l.field 0x40 8) (l.field 0x48 8),
        if l.met1 then some true else s.triggerMet t (l.field 0x50 8) (l.field 0x58 8) with
  | some a, some b => some (a, b)
  | _, _ => none

/-- A launch that waits becomes READY once its start time has come and its triggers are met (R331): its tickets are split
(R335), instruction caches go under codefence (R103), and a gang that no core set could hold ends NOFIT (R333). -/
def State.checkLaunch (s : State) (t id : Nat) : State :=
  match findLaunch id (s.tenant t).launches with
  | none => s
  | some l =>
    if l.state ≠ .waiting then s else
    match s.triggersMet t l with
    | some (a, b) =>
      let s := s.mapLaunch t id fun l => { l with met0 := a, met1 := b }
      if (a && b && decide (l.field 0x38 8 ≤ s.now.toNat)) = false then s
      else
        let ranges := if l.fromList then [] else splitTickets (l.field 0x28 8) ((s.tenant t).cores.filter fun k => !(s.core k).stopped)
        let l := { l with state := LaunchState.ready, ranges := ranges }
        let s := s.mapLaunch t id fun x => { x with state := .ready, ranges := ranges }
        let s := if l.flag 0 then
            { s with
              cores := s.cores.map fun (k, c) => if (s.tenant t).cores.contains k then (k, { c with icache := [] }) else (k, c) }
          else s
        match if l.flag 4 then (s.vacant t).placeAll t l (s.ticketsLeft t l) else .ok l s with
        | .none => s.failLaunch t id 5
        | .failed gone _ => s.failList t id gone
        | .ok _ _ => s.advanceLaunch t id
    | none => s.failLaunch t id 4

/-- LAUNCH_START_TIME (R331). -/
def execLaunchStartTime (tenant launch : Nat) (s : State) : Result := done (s.checkLaunch tenant launch)

/-- LAUNCH_TRIGGER_WRITE (R331): the trigger words are read again. -/
def execLaunchTriggerWrite (tenant launch : Nat) (_trig : Fin 2) (s : State) : Result := done (s.checkLaunch tenant launch)

/-- LAUNCH_DEADLINE (R332, R333). -/
def execLaunchDeadline (tenant launch : Nat) (s : State) : Result :=
  match findLaunch launch (s.tenant tenant).launches with
  | none => done s
  | some l =>
    if s.now.toNat ≤ l.deadline then done s
    else
      let s := s.mapLaunch tenant launch fun l => { l with late := true }
      if l.flag 2 && decide (l.state ≠ .draining) then
        done ((s.mapLaunch tenant launch fun l =>
          { l with state := .draining, outcome := 1, ranges := [], extra := [], listGone := true }).advanceLaunch tenant launch)
      else done s

/-! ## Queues -/

/-- Consumes the record of slot c mod 2^lslots (R327, R328): the count, the consumed word, and its launch. -/
def State.consume (s : State) (t : Nat) (q : Queue) (bs : List Byte) : State :=
  let f := fun o n => ofBytes ((bs.drop o).take n)
  let c := q.consumed + 1
  let s := s.mapQueue t q.number fun x => { x with consumed := c }
  let s := match s.deviceWrite t true (q.notify + 8) (toBytes 8 c.toNat) with
    | .ok s => s
    | .error _ => s
  let id := (s.tenant t).consumed + 1
  let legal := s.recordOk t bs
  let l : Launch :=
    { id := id, queue := q.number, arrival := id, record := q.base + BitVec.ofNat 64 (128 * (q.consumed.toNat % 2 ^ q.lslots))
      fields := bs, code := f 8 8, kernel := f 0x10 4, outcome := if legal then 0 else 4 }
  let s := s.mapTenant t fun a => { a with consumed := id, launches := a.launches ++ [l] }
  if legal then s.checkLaunch t id
  else if decide (f 0x60 1 < 8) && (f 0x60 1 % 2 + f 0x60 1 / 4 % 2 == 0 || f 0x68 8 % 8 == 0) then s.launchDone t id
  else s.mapTenant t fun a => { a with launches := a.launches.filter fun x => x.id != id }

/-- The record of a queue's next slot, where it has arrived (R328, R329). -/
def State.arrivedRecord (s : State) (t : Nat) (q : Queue) : Option (List Byte) :=
  match s.deviceReadSpan t true (q.base + BitVec.ofNat 64 (128 * (q.consumed.toNat % 2 ^ q.lslots))) 2 128 with
  | .error _ => none
  | .ok bs =>
    let stamp := ofBytes ((bs.drop 0x70).take 8)
    if stamp = (q.consumed + 1).toNat ∧ crc32c (bs.take 0x78) = ofBytes ((bs.drop 0x78).take 4) then some bs else none

/-- Whether a queue that consumed all its records becomes IDLE, else FETCH (R330). -/
def State.afterFetch (s : State) (t q : Nat) : State :=
  s.mapQueue t q fun x =>
    if x.state = .held || x.state = .drain then x
    else if x.consumed.toNat < x.produced.toNat then { x with state := .fetch } else { x with state := .idle }

/-- A queue whose notify found no hardware slot takes one where it can now, and acts on the notify (R328, R351). -/
def State.mapAgain (s : State) (t q : Nat) : State := (s.takeSlot t q).mapQueue t q fun x => x.notified s.now

/-- SLOT_FETCH (R328, R330). An IDLE queue without a hardware slot whose notify word in memory is ahead takes one, and so does a STALLED
one that was notified. -/
def execSlotFetch (tenant queue : Nat) (s : State) : Result :=
  match s.queue tenant queue with
  | none => done s
  | some q =>
    match q.state with
    | .idle =>
      if q.mapped = false && decide (q.consumed.toNat < (s.notifyWord tenant q).toNat) then done (s.mapAgain tenant queue) else done s
    | .stalled => if q.mapped = false && q.woken then done (s.mapAgain tenant queue) else done s
    | .fetch =>
      if q.produced.toNat ≤ q.consumed.toNat then done (s.afterFetch tenant queue)
      else if Config.launchPlaces ≤ (s.tenant tenant).launches.length then
        done (s.mapQueue tenant queue fun x => { x with state := .held })
      else
        match s.arrivedRecord tenant q with
        | none => done (s.mapQueue tenant queue fun x => { x with state := .poll s.now s.now (BitVec.ofNat 64 Config.pollFirst) })
        | some bs => done ((s.consume tenant q bs).afterFetch tenant queue)
    | _ => done s

/-- QUEUE_POLL_TIMER (R330). -/
def execQueuePollTimer (tenant queue : Nat) (s : State) : Result :=
  match s.queue tenant queue with
  | none => done s
  | some q =>
    match q.state with
    | .poll since last gap =>
      if (s.now - last).toNat < gap.toNat then done s
      else
        match s.arrivedRecord tenant q with
        | none => done (s.mapQueue tenant queue fun x =>
            { x with state := .poll since s.now (BitVec.ofNat 64 (min Config.pollLast (2 * gap.toNat))) })
        | some bs =>
          if Config.launchPlaces ≤ (s.tenant tenant).launches.length then
            done (s.mapQueue tenant queue fun x => { x with state := .held })
          else done ((s.mapQueue tenant queue fun x => { x with state := .fetch }).consume tenant q bs)
    | _ => done s

/-- QUEUE_STALL_TIMEOUT (R330). -/
def execQueueStallTimeout (tenant queue : Nat) (s : State) : Result :=
  match s.queue tenant queue with
  | none => done s
  | some q =>
    match q.state with
    | .poll since _ _ =>
      if (s.now - since).toNat < Config.stallNs then done s
      else done ((s.mapQueue tenant queue fun x => { x with state := .stalled }).interrupt tenant q.fvec 1 0 (BitVec.ofNat 64 queue))
    | _ => done s

/-- QUEUE_DRAIN_END (R330): a draining queue, which holds a hardware slot as soon as one is free (R328), goes OFF. -/
def execQueueDrainEnd (tenant queue : Nat) (s : State) : Result :=
  match s.queue tenant queue with
  | none => done s
  | some q =>
    if q.state = .drain then
      let s := s.takeSlot tenant queue
      done (if ((s.queue tenant queue).map (·.mapped)).getD false then
        (s.unmapQueue tenant queue).mapQueue tenant queue fun x => { x with state := .off } else s)
    else done s

/-- A write of the host to a tenant's memory, through both stages at level U by the caches of an I/O die and performed at pkg scope
(R387, R388): none where a page does not translate. -/
def State.hostWrite (s : State) (place : Place) (t : Nat) (va : Word) (bs : List Byte) : Option State :=
  let bad := (linesOf va bs.length).any fun l => match s.translate place t .store true (if l.toNat < va.toNat then va else l) with
    | .ok p => decide (p.attr = .remote)
    | .error _ => true
  if bad then none else
  match s.placeWriteSpan place t true va (bs.length / 128 + 2) bs with
  | .ok s => some s
  | .error _ => none

/-- The queue of a tenant whose notify word lies at an address (R328). -/
def State.queueAt (s : State) (t : Nat) (va : Word) : Option Queue :=
  (s.tenant t).queues.find? fun q => q.notify == va && decide (q.state ≠ .off)

/-- NOTIFY_KICK (R328, R351): p is written to an address; at a queue's notify address it is a kick. -/
def execNotifyKick (tenant : Nat) (addr p : Word) (s : State) : Result :=
  match s.queueAt tenant addr with
  | some q => done (s.notifyQueue tenant q.number p)
  | none => done ((s.hostWrite deviceDie tenant addr (toBytes 8 p.toNat)).getD s)

/-! ## Dispatch -/

/-- The first launch in order that a core may serve is served; the rest of a tenant's launches wait while a gang launch stands `first` of
all and does not fit on cores it could use (R337, log 23). -/
def State.serveFirst (s : State) (t core : Nat) (first : Bool) : List Launch → Option State
  | [] => none
  | l :: ls =>
    let n := l.needs (s.tenant t)
    if l.flag 4 then
      match s.placeAll t l (s.ticketsLeft t l) with
      | .ok _ s => some (s.advanceLaunch t l.id)
      | .failed gone s => some (s.failList t l.id gone)
      | .none => if first && (s.vacant t).canHold t core n then none else State.serveFirst s t core false ls
    else if s.canHold t core n = false then State.serveFirst s t core false ls
    else if (s.tasksOf t l.id).any fun c => s.canResume c core then
      if s.keptFor t core l then State.serveFirst s t core false ls else none
    else
      match s.takeTicket t core l, s.freeContext core with
      | .run v l s, some id => some ((s.startTask t id l v).advanceLaunch t l.id)
      | .skipped s, _ => some ((s.ticketCount t l.id).advanceLaunch t l.id)
      | .failed gone s, _ => some (s.failList t l.id gone)
      | _, _ => State.serveFirst s t core false ls

/-- The launch of a running task on which no request stands, with its agent. -/
def State.victims (s : State) (t cls : Nat) : List (Agent × Launch) :=
  s.allCtx.filterMap fun c => match c.task with
    | some k =>
      if k.tenant == t && c.isRunning && c.yieldBy.isNone then
        (s.launchOf k).bind fun l => if cls < l.field 2 1 % 4 then some (c.agent, l) else none
      else none
    | none => none

/-- A context's id, for ties. -/
def agentId : Agent → Nat
  | .ctx id => id
  | .handler _ _ _ => 0

/-- The victim that ranks last, ties to the highest context id (R339). -/
def lastVictim : List (Agent × Launch) → Option Agent
  | [] => none
  | v :: vs => some (vs.foldl (fun (w : Agent × Launch) x =>
      if ranksFirst w.2.rank x.2.rank || (w.2.rank == x.2.rank && decide (agentId w.1 < agentId x.1)) then x else w) v).1

/-- The module as it will be once a context has yielded, to see what would fit. -/
def State.without (s : State) (g : Agent) : State :=
  ((s.setCtx { Ctx.reset g with yieldBy := some 0 }).renegotiateEnd g).freeTiles g

/-- Requests until the launch would fit (R339): `left` is the module without the contexts asked so far. -/
def State.askVictims (s left : State) (t : Nat) (l : Launch) : Nat → State
  | 0 => s
  | n + 1 =>
    if left.fits t l then s else
    match lastVictim (left.victims t (l.field 2 1 % 4)) with
    | none => s
    | some g =>
      let by' := s.now + BitVec.ofNat 64 (max 1 (s.tenant t).ygrace.toNat)
      State.askVictims (s.mapCtx g fun c => { c with yieldBy := some by' }) (left.without g) t l n

/-- The scheduler raises yield requests where the first launch in order cannot be placed (R339). -/
def State.raiseYields (s : State) (t : Nat) : State :=
  match s.inOrder t with
  | [] => s
  | l :: _ =>
    let asked := s.allCtx.filter fun c => c.yieldBy.isSome && decide (c.task.map (·.tenant) = some t)
    let left := asked.foldl (fun (x : State) c => x.without c.agent) s
    s.askVictims left t l (Config.contexts + 1)

/-- DISPATCH_TASK (R332, R334-R337, R339, R349). -/
def execDispatchTask (tenant core : Nat) (s : State) : Result :=
  match if (s.tenant tenant).cores.contains core then s.serveFirst tenant core true (s.inOrder tenant) else none with
  | some s => done s
  | none => done (s.raiseYields tenant)

end Sys2Proof.Machine
end

