-- ==== Sys2Proof/Machine/Rules.lean ====
section
/-! DEFINITION. The rule window at work: issue from the vector queue, the firing of an element, retirement, and the eager order in
which a context's rules settle when no move says otherwise (05_elements.md R107-R113, R119, R128-R130, R139-R142; 07_memory.md
R177-R181; 08_copies.md R218, R219; 18_recovery.md R396). -/

namespace Sys2Proof.Machine

/-! ## The rules of major 0x18 -/

/-- What the elements of a rule of major 0x18 do; none for any other instruction (R139-R142). -/
def configWork (g : Agent) (r : Rule) : Option Work :=
  let n := bytesOf r.vtype
  match r.instr with
  | .vmvSx d _ _ =>
    let i := r.opB.toNat
    let wr := fun e => if e = i then [r.velem d.val n e] else []
    some (regWork g (if i < vlmax r.vtype then i + 1 else 0) 0 (fun _ _ => []) (fun _ e => wr e) (fun _ => []) wr false
      fun c e => c.setElem r.wb d.val n e (r.opA.toNat % 2 ^ (8 * n)))
  | .vbcst d _ =>
    let wr := fun e => [r.velem d.val n e]
    some (regWork g r.vl 0 (fun _ _ => []) (fun _ e => wr e) (fun _ => []) wr false
      fun c e => c.setElem r.wb d.val n e (r.opA.toNat % 2 ^ (8 * n)))
  | .qset d _ =>
    let wr := fun e => [Loc.q d.val e 1]
    some (regWork g r.vl 0 (fun _ _ => []) (fun _ e => wr e) (fun _ => []) wr false
      fun c e => c.setMaskBit d.val e (bitOf r.opA.toNat (e % 64) == 1))
  | .vpresq d _ =>
    let wr := fun e => [Loc.q d.val e 1]
    some (regWork g r.vl 0 (fun _ _ => []) (fun _ e => wr e) (fun _ => []) wr false
      fun c e => c.setMaskBit d.val e (bitOf (nth r.eng.index 0) e == 1))
  | _ => none

/-- What the elements of the k-th rule of an agent do. -/
def workOf (g : Agent) (k : Nat) (r : Rule) : Option Work :=
  (arithWork g r).or <| (memoryWork g k r).or <| (scratchWork g k r).or <| (matrixWork g k r).or <| (listWork g k r).or <|
  (configWork g r).or <|
  match r.instr with
  | .elapply _ => some (r.applyWork g k)
  | .spool d _ _ => some (r.spoolWork g k d.val)
  | .fsend d _ b => some (r.fsendWork g k d.val b.val)
  | .kvsel _ => some (r.kvselWork g k)
  | .coll _ => some (r.collWork g k)
  | _ => none

/-! ## What older rules hold back -/

/-- What an older rule still writes and reads, its interlock entry and its strip. -/
structure Older where
  pends : List Loc
  holds : List Loc
  lock  : Lock
  strip : Option (Nat × Nat)
  deriving DecidableEq, Repr

/-- Whether older rules still write a grain of a place (R108, R109). -/
def absent (os : List Older) (l : Loc) : Bool := os.any fun o => o.pends.any fun p => p.grains.meets l.grains

/-- Whether every place of a list is present. -/
def present (os : List Older) (ls : List Loc) : Bool := ls.all fun l => !absent os l

/-- The governing mask's place for an element (R30). -/
def maskLoc (m : Fin 4) (e : Nat) : List Loc := if m.val = 0 then [] else [.q m.val e 1]

/-- The elements of a rule that are not done and, as far as their mask bits are present, active (R109, R110). -/
def Rule.maybe (r : Rule) (w : Work) (c : Ctx) (os : List Older) : List Nat :=
  (r.left w).filter fun e => !present os (maskLoc w.mask e) || c.lacks (maskLoc w.mask e) || (c.governing w.mask).getLsbD e

/-- Whether an instruction takes an interlock entry (R177). -/
def Work.locks (w : Work) : Bool := w.uses.1 || w.uses.2.1 || w.uses.2.2.1 || w.uses.2.2.2

/-- The interlock entry of a rule whose elements `es` have still to access, and what the entry covers for each of them; none for one
whose address is not known (R178). The lines of the accesses performed stay in it. -/
def Rule.entry (r : Rule) (w : Work) (covers : List (Option Cover)) : Lock :=
  let side := fun (on : Bool) (range : Option (Nat × Nat)) (f : Cover → Option (List Nat)) =>
    if on then Side.of range (covers.map fun o => o.bind f) else ({} : Side)
  { rd := side w.uses.1 r.hull.rd Cover.rd, wr := side w.uses.2.1 r.hull.wr Cover.wr
    srd := side w.uses.2.2.1 r.hull.srd Cover.srd, swr := side w.uses.2.2.2 r.hull.swr Cover.swr }

/-- The interlock entry of a standing rule (R177, R178). An element whose mask bit is not present counts at once where the range is known
at issue. -/
def State.lockOf (s : State) (g : Agent) (os : List Older) (r : Rule) (w : Work) : Lock :=
  if w.locks = false then {} else
  let c := s.getCtx g
  let known := fun (m : Fin 4) e => present os (maskLoc m e) && !c.lacks (maskLoc m e)
  r.entry w ((r.maybe w c os).map fun e =>
    if known w.gate e && !(c.governing w.gate).getLsbD e then some {}
    else if present os (w.addrs e) && s.resident g (w.addrs e) && (w.early || known w.mask e && known w.gate e) then some (w.covers s e)
    else none)

/-- What a rule with its work holds back, given what the older ones do. Every element that is not done holds its mask bit (R112). -/
def State.olderOne (s : State) (g : Agent) (os : List Older) (r : Rule) (w : Work) : Older :=
  let c := s.getCtx g
  let es := r.maybe w c os
  { pends := es.flatMap (w.still (present os) c)
    holds := (r.left w).flatMap (maskLoc w.mask) ++ es.flatMap w.holds
    lock := s.lockOf g os r w, strip := r.strip }

/-- What the rules of an agent hold back, from the k-th on, given what the older ones do. A detached rule holds back nothing. -/
def State.olderFrom (s : State) (g : Agent) : List Rule → Nat → List Older → List Older
  | [], _, os => os
  | r :: rs, k, os =>
    match if r.detached then none else workOf g k r with
    | none => State.olderFrom s g rs (k + 1) os
    | some w => State.olderFrom s g rs (k + 1) (os ++ [s.olderOne g os r w])

/-- What the rules before the k-th of an agent hold back. -/
def State.older (s : State) (g : Agent) (k : Nat) : List Older := s.olderFrom g ((s.getCtx g).rules.take k) 0 []

/-- The interlock entries that hold back a collective which runs on beside its record: those of the older rules that a slot keeps, each
ungenerated while an address of it comes from a register (DESIGN CHOICE, log 70). -/
def State.slotOlder (s : State) (g : Agent) (r : Rule) : List Older :=
  let c := s.getCtx g
  ((c.userSlot ++ c.hndSlot ++ c.preSlot).filter fun x => decide (x.seq < r.seq) && !x.detached).filterMap fun x =>
    (workOf g 0 x).map fun w =>
      { pends := [], holds := [], strip := none
        lock := x.entry w ((x.left w).map fun e => if (w.addrs e).isEmpty then some (w.covers s e) else none) }

/-- What holds back the k-th rule of an agent. -/
def State.olderTo (s : State) (g : Agent) (k : Nat) (r : Rule) : List Older := if r.detached then s.slotOlder g r else s.older g k

/-- Whether two rules are of different strips of one `vstrip.i` loop (R127). -/
def otherStrip (a b : Option (Nat × Nat)) : Bool :=
  match a, b with
  | some x, some y => x.1 == y.1 && x.2 != y.2
  | _, _ => false

/-! ## Firing -/

/-- The register lines that the rules of an agent pin: those with a grain that one of them leaves pending (R119). -/
def State.pinnedLines (s : State) (g : Agent) : List Nat :=
  ((s.older g (s.getCtx g).rules.length).flatMap fun o => o.pends.flatMap Loc.lines).eraseDups

/-- Whether a rule in flight pins a register line (R119). -/
def State.pinned (s : State) (core j line : Nat) : Bool := (s.pinnedLines (.ctx (8 * core + j))).contains line

/-- A place of one context's registers copied into another's. -/
def Ctx.take (c src : Ctx) : Loc → Ctx
  | .v a n => (Loc.lines (.v a n)).foldl Ctx.touchLine { c with v := c.v.writeBytes a (src.v.readBytes a n) }
  | .q r a n => (span a (a + n)).foldl (fun (c : Ctx) e => c.setMaskBit r e (src.maskBit r e)) c
  | .cells _ _ _ _ _ | .layout _ => c

/-- Elements that need each other's old values fire at once: each from the values before (R271, log 24). -/
def fireTogether (s : State) (g : Agent) (w : Work) (es : List Nat) : State :=
  let c0 := s.getCtx g
  s.setCtx (es.foldl (fun (acc : Ctx) e =>
    match w.fire s e with
    | .ok t =>
      let c := t.getCtx g
      let acc := (w.writes c0 e).foldl (fun (a : Ctx) l => a.take c l) acc
      { acc with fflags := acc.fflags ||| c.fflags }
    | _ => acc) c0)

/-- Whether the agent's rules fire at all: not in a chain that has faulted (R362). -/
def Ctx.mayFire (c : Ctx) : Bool :=
  match c.hold with
  | .stopped => false
  | _ => true

/-- What an element reads is there, and the interlock lets its accesses be made (R110, R179). -/
def State.canRead (s : State) (g : Agent) (os : List Older) (r : Rule) (w : Work) (e : Nat) : Bool :=
  s.resident g (w.addrs e) && present os (w.reads (s.getCtx g) e) &&
  match w.touch s e with
  | some t => os.all fun o => otherStrip o.strip r.strip || !o.lock.blocks t
  | none => true

/-- What an element writes is free of older rules' work (R112). -/
def State.canWrite (s : State) (g : Agent) (os : List Older) (w : Work) (e : Nat) : Bool :=
  let ws := w.writes (s.getCtx g) e
  !(os.any fun o => anyMeets ws o.pends || anyMeets ws o.holds)

/-- The places that an element needs now are free of older rules' work (R110, R112, R179). -/
def State.canFire (s : State) (g : Agent) (os : List Older) (r : Rule) (w : Work) (e : Nat) : Bool :=
  s.canRead g os r w e && s.canWrite g os w e

/-- An element may take its data before its write is allowed (R112). -/
def State.canTake (s : State) (g : Agent) (os : List Older) (r : Rule) (w : Work) (e : Nat) : Bool :=
  w.take.isSome && (r.holding e).isNone && s.canRead g os r w e

/-- The register lines of an element's operands, and those that its firing needs (R118). -/
def Work.lines (w : Work) (c : Ctx) (e : Nat) : List Nat := (w.reads c e ++ w.writes c e).flatMap Loc.lines

/-- Whether a fault stops element e of the k-th rule (R396): one of the rule or of an older one, unless the element has begun. The
other bags of a `spool` go on under a fault of one (R319). -/
def Ctx.blocked (c : Ctx) (k : Nat) (r : Rule) (w : Work) (e : Nat) : Bool :=
  if c.faultBefore k = false && r.fault.isNone then false
  else if r.poolsOn && !(c.rules.take k).any fun x => !x.detached && x.fault.isSome then
    r.eng.acks.contains (e / max 1 ((r.eng.header[7]?).getD 0))
  else !(if w.parts then c.remotes.any fun x => x.key == r.key && x.begun else c.hasBegun r.key e)

/-- Whether the span that an element is mapped onto still has elements of its former owners to fire (R123). -/
def State.spanHeld (s : State) (g : Agent) (r : Rule) (w : Work) (e : Nat) : Bool :=
  match g, r.spanOf e with
  | .ctx id, some i => w.lanes && (((s.core (id / 8)).former.toList[i]?).getD []).any (· != id % 8)
  | _, _ => false

/-- Whether element e of the k-th rule, with what the older rules hold back, is one to fire: its mask bit is present and set, and it is
not held back. -/
def State.live (s : State) (g : Agent) (os : List Older) (k e : Nat) (r : Rule) (w : Work) : Bool :=
  let c := s.getCtx g
  decide (e < w.count) && !r.done.getLsbD e && !c.blocked k r w e && c.mayFire && present os (maskLoc w.mask e) && !c.lacks (maskLoc w.mask e) &&
  (c.governing w.mask).getLsbD e && !s.spanHeld g r w e

/-- Whether element e of the k-th rule may fire now: its places are free, too. -/
def State.ready (s : State) (g : Agent) (os : List Older) (k e : Nat) (r : Rule) (w : Work) : Bool :=
  s.live g os k e r w && s.canFire g os r w e

/-- Whether an element that may fire waits for nothing else: not for its data, which a load's element has once it holds them, nor for
an owning device (R110, R112). -/
def Ctx.unwaiting (c : Ctx) (r : Rule) (w : Work) (e : Nat) : Bool :=
  if w.uses.1 || w.uses.2.2.1 then (r.holding e).isSome else !c.hasBegun r.key e

/-- Whether an older rule has an element on the span of element e of the k-th that may fire: that fires first (R110, R338). -/
def State.overtakes (s : State) (g : Agent) (k e : Nat) (r : Rule) (w : Work) : Bool :=
  w.lanes && match r.spanOf e with
    | none => false
    | some i => ((s.getCtx g).rules.take k).zipIdx.any fun (x, j) =>
      match if x.detached then none else workOf g j x with
      | none => false
      | some y => y.lanes && ((x.left y).filter fun m => decide (x.spanOf m = some i) && (s.getCtx g).unwaiting x y m).any fun m =>
          s.ready g (s.older g j) j m x y

/-- What the elements of an agent that are to fire ask for: `f` says what one of them does, told whether its places are free too. -/
def State.elementsAsk {α : Type} (s : State) (g : Agent) (f : List Older → Work → Nat → Bool → List α) : List α :=
  (s.getCtx g).rules.zipIdx.flatMap fun (r, k) =>
    match workOf g k r with
    | none => []
    | some w =>
      let os := s.olderTo g k r
      ((r.left w).filter fun e => s.live g os k e r w).flatMap fun e => f os w e (s.canFire g os r w e || s.canTake g os r w e)

/-- The register lines that elements which may fire need: those of their addresses, then those of their operands (R118, R128). -/
def State.wantedLines (s : State) (g : Agent) : List Nat :=
  s.elementsAsk g fun os w e may =>
    (if present os (w.addrs e) then (w.addrs e).flatMap Loc.lines else []) ++ if may then w.lines (s.getCtx g) e else []

/-- Whether an element that may fire needs a register line (R118, R128). -/
def State.lineWanted (s : State) (g : Agent) (line : Nat) : Bool := (s.wantedLines g).contains line

/-- Whether a rule of a context still has an element mapped onto a span (R123, R124). -/
def Ctx.mapsOn (c : Ctx) (span : Nat) : Bool :=
  (c.rules ++ c.queue).zipIdx.any fun (r, k) =>
    match if r.detached then none else workOf c.agent k r with
    | none => false
    | some w => w.lanes && (r.left w).any fun e => decide (r.spanOf e = some span)

/-- The accesses of some elements count as performed (R178). -/
def Rule.sweep (r : Rule) (w : Work) (s : State) (es : List Nat) : Rule :=
  if w.locks then { r with hull := es.foldl (fun h e => h.sweep (w.covers s e)) r.hull } else r

/-- One attempt to fire element e of the k-th rule of an agent, with what the older rules hold back: whether anything came of
it, and the state. -/
def State.attempt (s : State) (g : Agent) (os : List Older) (k e : Nat) : Bool × State :=
  let c := s.getCtx g
  match c.rules[k]? with
  | none => (false, s)
  | some r =>
    match workOf g k r with
    | none => (false, s)
    | some w =>
      let fault := fun (s : State) (f : Cause × Nat × Word) => (true, s.faultAt g k f)
      if w.count ≤ e || r.done.getLsbD e || c.blocked k r w e || !c.mayFire then (false, s)
      else if !present os (maskLoc w.mask e) || c.lacks (maskLoc w.mask e) then (false, s)
      else if (c.governing w.mask).getLsbD e = false then (true, s.mapRule g k fun r => r.finish [e])
      else
        match r.instr with
        | .vldff _ _ m _ =>
          if r.eng.phase = 0 then
            if (span r.vstart r.vl).all fun i => present os (maskLoc m i) && !c.lacks (maskLoc m i) then (true, s.resolveFirst g k r m) else (false, s)
          else plain s c r w fault
        | _ => plain s c r w fault
where
  /-- The attempt once the mask bit is set. -/
  plain (s : State) (c : Ctx) (r : Rule) (w : Work) (fault : State → Cause × Nat × Word → Bool × State) : Bool × State :=
    match w.check s e with
    | some (x, a) => fault s (x, e, a)
    | none =>
    if s.spanHeld g r w e || !present os (w.addrs e) then (false, s) else
    match if s.resident g (w.addrs e) then .ok s else s.needLines g (s.pinned ((coreOf g).getD 0)) ((w.addrs e).flatMap Loc.lines) with
    | .error (x, va) => fault s (x, e, va)
    | .ok s1 =>
    let fetched := !s.resident g (w.addrs e)
    let s := s1
    let c := s.getCtx g
    if s.canFire g os r w e = false then
      if s.canTake g os r w e then early s c r w fault else (fetched, s)
    else if s.placesLost g (w.reads c e) || s.weightsLost g r || s.ruleLost g r then fault s (.dataloss, e, 0)
    else
      let left := (r.left w).filter fun i => (c.governing w.mask).getLsbD i || !present os (maskLoc w.mask i) || c.lacks (maskLoc w.mask i)
      let ws := w.writes c e
      let together := w.whole && left.any fun i => i != e && !(w.span e).contains i && anyMeets ws (w.holds i)
      if w.ordered && left.any fun i => decide (i < e) && !(w.span e).contains i && anyMeets ws (w.writes c i) then (fetched, s)
      else if together && !(left.all fun i => present os (maskLoc w.mask i) && !c.lacks (maskLoc w.mask i) && !s.spanHeld g r w i && s.canFire g os r w i) then (fetched, s)
      else
        let lines := if together then left.flatMap (w.lines c) else w.lines c e
        match s.needLines g (s.pinned ((coreOf g).getD 0)) lines with
        | .error (x, va) => fault s (x, e, va)
        | .ok s =>
          if (s.getCtx g).lacks (w.reads c e) then (false, s)
          else if together then
            (true, ((fireTogether s g w left).mapCtx g fun c => c.supply (left.flatMap (w.writes c))).mapRule g k fun r => r.finish left)
          else
            let swept := fun (r : Rule) => r.sweep w s (w.span e)
            match w.fire s e with
            | .ok s => (true, ((s.heal g ws).mapCtx g fun c => c.supply ws).mapRule g k fun r => (swept r).finish (w.span e))
            | .part s => (true, s)
            | .wait s => (false, s)
            | .fault x va s => fault s (x, e, va)
            | .whole x va s => fault s (x, 0, va)
  /-- The element takes its data, which it holds until its write is allowed (R112). -/
  early (s : State) (c : Ctx) (r : Rule) (w : Work) (fault : State → Cause × Nat × Word → Bool × State) : Bool × State :=
    if s.placesLost g (w.reads c e) || s.ruleLost g r then fault s (.dataloss, e, 0) else
    match w.take, s.needLines g (s.pinned ((coreOf g).getD 0)) ((w.reads c e).flatMap Loc.lines) with
    | none, _ => (false, s)
    | _, .error (x, va) => fault s (x, e, va)
    | some take, .ok s =>
      if (s.getCtx g).lacks (w.reads c e) then (false, s) else
      match take s e with
      | .ok s => (true, s.mapRule g k fun r => r.sweep w s [e])
      | .part s => (true, s)
      | .wait s => (false, s)
      | .fault x va s => fault s (x, e, va)
      | .whole x va s => fault s (x, 0, va)

/-- Whether the front end waits for what an engine or tag instruction answers (R130, R219, R347). -/
def answers : Instr → Bool
  | .wlpop _ _ _ | .cwany _ _ | .cwall _ | .cffr _ _ => true
  | _ => false

/-- Whether the front end of a context waits for the answer of an older instruction (R130). -/
def Ctx.awaits (c : Ctx) : Bool := (c.rules ++ c.queue).any fun r => answers r.instr

/-- Whether the front end of a context may go on with its next word, whatever its rules still have to do. -/
def Ctx.runsOn (c : Ctx) : Bool := decide (c.hold = .run) && c.pending.isNone && !c.awaits

/-- Whether a fault of a rule still lies ahead of it: the front end runs on, and the rule has not stood for many of its words yet
(log 4). -/
def Ctx.defers (c : Ctx) (r : Rule) : Bool := c.runsOn && decide (r.stood < Config.faultWords)

/-- Attempts at some elements of the k-th rule, in order. An element that would fault stays as it is where its fault lies ahead. -/
def State.attemptAll (s : State) (g : Agent) (os : List Older) (k : Nat) : List Nat → Bool × State
  | [] => (false, s)
  | e :: es =>
    let c := s.getCtx g
    let p := s.attempt g os k e
    let late := match c.rules[k]?, (p.2.getCtx g).rules[k]? with
      | some a, some b => a.fault.isNone && b.fault.isSome && c.defers a
      | _, _ => false
    let p := if late then (false, s) else p
    let q := State.attemptAll p.2 g os k es
    (p.1 || q.1, q.2)

/-- Attempts at the rules of an agent from the k-th on, oldest first, each at its elements in ascending order. -/
def State.attemptRules (s : State) (g : Agent) : Nat → Nat → Bool × State
  | 0, _ => (false, s)
  | n + 1, k =>
    match (s.getCtx g).rules[k]? with
    | none => (false, s)
    | some r =>
      let es := ((workOf g k r).map fun w => r.left w).getD []
      let p := s.attemptAll g (s.olderTo g k r) k es
      let q := State.attemptRules p.2 g n (k + 1)
      (p.1 || q.1, q.2)

/-! ## Retirement -/

/-- Whether every element of a rule is done (R110). A fault of a collective whose task has ended is dropped (DESIGN CHOICE, log 70). -/
def Rule.isDone (r : Rule) (g : Agent) (k : Nat) : Bool :=
  if r.fault.isSome then r.eng.orphan
  else match workOf g k r with
    | some w => (List.range w.count).all fun e => r.done.getLsbD e
    | none => true

/-- The rules of an agent that are done leave the window (R110): claims of tiles end with them (R294), and the reads that went before
theirs (log 87); that wakes a parked context (R340). -/
def State.retire (s : State) (g : Agent) : State :=
  let c := s.getCtx g
  let gone := (c.rules.zipIdx.filter fun (r, k) => r.isDone g k).map (·.1)
  if gone.isEmpty then s else
  let s := s.mapCtx g fun c =>
    let c := gone.foldl (fun (c : Ctx) r => c.forget r.key none) { c with rules := (c.rules.zipIdx.filter fun (r, k) => !r.isDone g k).map (·.1) }
    ({ c with ahead := c.ahead.filter fun a => c.readsBehind a.seq } : Ctx).endClaims
  s.endPark g

/-! ## Issue -/

/-- Whether the window, the interlock table and the pin cap take another instruction (R107, R119, R177). -/
def State.takes (s : State) (g : Agent) (r : Rule) : Bool :=
  let c := s.getCtx g
  let mine := c.rules.filter fun x => !x.detached
  let locks := c.rules.zipIdx.filter fun (x, k) => !x.detached && ((workOf g k x).map Work.locks).getD false
  match workOf g c.rules.length r with
  | none => true
  | some w =>
    let os := s.older g c.rules.length
    let pins := fun (o : Older) => o.pends.flatMap Loc.lines
    decide (mine.length < Config.windowEntries) && (!w.locks || decide (locks.length < Config.interlockEntries)) &&
    decide ((os.flatMap pins ++ pins (s.olderOne g os r w)).eraseDups.length ≤ Config.pinCap)

/-- A rule as it issues: an element whose mask bit is present and clear is done (R110), and the grains that it has to write are pending. -/
def State.issued (s : State) (g : Agent) (r : Rule) : Rule :=
  let c := s.getCtx g
  let r := { r with issued := true }
  match workOf g c.rules.length r with
  | none => r
  | some w =>
    let os := s.older g c.rules.length
    let r := r.finish ((r.left w).filter fun e =>
      present os (maskLoc w.mask e) && !c.lacks (maskLoc w.mask e) && !(c.governing w.mask).getLsbD e)
    if c.absent.isEmpty then r
    else { r with owes := (((r.left w).flatMap (w.still (present os) c)).flatMap Loc.grainList).filter fun x => c.absent.contains x }

/-- The lowest tag of a mask that is set, else -1 (R219). -/
def Ctx.lowestTag (c : Ctx) (m : Nat) : Word :=
  match firstFrom (fun n => bitOf m n == 1 && bitOf c.ctb.toNat n == 1) 0 64 with
  | some n => BitVec.ofNat 64 n
  | none => BitVec.allOnes 64

/-- Whether every older `kvsel` and `coll` of the task has cleared its tag, a `coll` that runs on beside its record among them (R219, R370). -/
def Ctx.tagsCleared (c : Ctx) : Bool :=
  c.rules.all fun r => r.eng.orphan || match r.instr with
    | .kvsel _ => decide (2 ≤ r.eng.phase) || r.done.getLsbD 0
    | .coll _ => decide (3 ≤ r.eng.phase) || (decide (r.eng.phase = 2) && nth r.eng.header 8 == 1) || r.done.getLsbD 0
    | _ => true

/-- A word that only passes the queue acts at its head (R195, R219): none while it waits. -/
def Ctx.passQueue (c : Ctx) (r : Rule) : Option Ctx :=
  let m := Nat.land r.opA.toNat c.tagMask.toNat
  let none' := (List.range 64).all fun n => bitOf m n == 0 || !c.tagPending n
  match r.instr with
  | .cwany d _ => if c.tagsCleared && (Nat.land c.ctb.toNat m != 0 || none') then some (c.setX d (c.lowestTag m)) else none
  | .cwall _ => if c.tagsCleared && none' then some c else none
  | .cffr d _ => if c.tagsCleared then some (c.setX d (c.lowestTag m)) else none
  | .ctclr _ => if c.tagsCleared then some { c with ctb := c.ctb &&& ~~~ BitVec.ofNat 64 m } else none
  | _ => some c

/-- What vpresq records (R142): the elements whose grains no older rule still has to write. -/
def State.presenceOf (s : State) (g : Agent) (r : Rule) (a : Nat) : Nat :=
  let c := s.getCtx g
  let os := s.older g c.rules.length
  (span r.vstart r.vl).foldl (fun n e =>
    let l := r.velem a (bytesOf r.vtype) e
    if absent os l || c.lacks [l] then n else n + 2 ^ e) 0

/-- Whether a load of a weight buffer stands among a context's rules (R303). -/
def Ctx.loadsBuffer (c : Ctx) (buf : Nat) : Bool := c.rules.any fun r => match r.instr with
  | .mwl d _ _ => d.val == buf
  | _ => false

/-- Whether a `fence.vs` still waits for an older store of the scalar stream (R149, R195). -/
def State.vsHeld (s : State) (g : Agent) (r : Rule) : Bool :=
  decide (r.instr = .fenceVs) && (s.storeQueue g).any fun f => decide (f.seq ≤ r.seq)

/-- The head of the vector queue issues (R107, R215, R303): what is left of the queue is not yet shortened. A collective takes its place
in the order of issue of its tenant (R367). -/
def State.issueRuleAt (s : State) (g : Agent) (r : Rule) : Option State :=
  let c := s.getCtx g
  let push := fun (c : Ctx) (r : Rule) => some (s.setCtx { c with rules := c.rules ++ [s.issued g r] })
  let bad := fun (x : Cause) => some (s.setCtx { c with rules := c.rules ++ [{ r with fault := some (x, 0, 0) }] })
  if s.ruleLost g r then bad .dataloss
  else if isQueueOnly r.instr then (if s.vsHeld g r then none else (c.passQueue r).map s.setCtx)
  else if s.takes g r = false then none
  else
    match r.instr with
    | .cpgoMm d _ _ | .cpgoMs d _ _ | .cpgoSm d _ _ | .cpgoSs d _ _ =>
      match c.startCopy r d.val with
      | none => none
      | some (.error x) => bad x
      | some (.ok (r, c)) => push c r
    | .mvw _ _ b _ _ =>
      if c.loadsBuffer b.val then none
      else if s.weightsFit g b.val r.mtype r.opA then push c r else bad .illcfg
    | .vpresq _ a => push c { r with eng := { r.eng with index := [s.presenceOf g r a.val] } }
    | .coll _ =>
      let t := s.tenantOf g
      (push c { r with eng := { r.eng with ticket := (s.tenant t).colls, since := s.now } }).map fun s =>
        s.mapTenant t fun a => { a with colls := a.colls + 1 }
    | _ => push c r

/-- The head of an agent's vector queue issues where it can; nothing issues after a fault (R396). -/
def State.issueHead (s : State) (g : Agent) : Option State :=
  let c := s.getCtx g
  match c.queue with
  | [] => none
  | r :: q =>
    if c.faultBefore c.rules.length || !c.mayFire then none
    else (s.issueRuleAt g r).map fun s => s.mapCtx g fun c => { c with queue := q }

/-- Instructions issue until one waits. -/
def State.issueAll (s : State) (g : Agent) : Nat → Bool × State
  | 0 => (false, s)
  | n + 1 =>
    match s.issueHead g with
    | none => (false, s)
    | some s => (true, (State.issueAll s g n).2)

/-! ## Settling -/

/-- Issue, firing and retirement of an agent's rules until nothing moves. The bound is above what any window needs. -/
def State.runRules (s : State) (g : Agent) : Nat → State
  | 0 => s
  | n + 1 =>
    let p := s.issueAll g Config.queueEntries
    let q := p.2.attemptRules g (p.2.getCtx g).rules.length 0
    let s' := q.2.retire g
    if p.1 || q.1 then State.runRules s' g n else s'

/-- A rule that has stood for one more word of its context (log 4). -/
def Rule.aged (r : Rule) : Rule := { r with stood := min Config.faultWords (r.stood + 1) }

/-- The eager order in which an agent's work is done when no move says otherwise (log 4): its rules, the stores on their way, the
rules that waited for those, and the trap that is due. -/
def State.settle (s : State) (g : Agent) : State :=
  let c := s.getCtx g
  if c.rules.isEmpty && c.queue.isEmpty && s.flights.isEmpty then s.takeTrap g
  else
    let s := (s.drainQueue g).runRules g 100000
    let s := s.drainStores.runRules g 100000
    (s.mapCtx g fun c => { c with rules := c.rules.map Rule.aged }).takeTrap g

end Sys2Proof.Machine
end

