-- ==== Sys2Proof/Machine/VectorConfig.lean ====
section
/-! DEFINITION. The configuration and move instructions of major 0x18, strip loops among them (05_elements.md R125-R142), and the
two mask counts of major 0x2D that act in the front end (12_vector_ops.md R285). -/

namespace Sys2Proof.Machine

/-- vset (R132). It waits for an unresolved `vldff` (R130). -/
def execVset (d a b : Reg) (s : State) : Result :=
  let t := s.getX b
  if vtypeOk t = false then trap .illcfg 0 s
  else if s.ctx.vlUnresolved then done s.stall
  else
    let vl := BitVec.ofNat 64 (min (s.getX a).toNat (vlmax t))
    let c : Ctx := { s.ctx.setX d vl with vtype := t, vl := vl }
    done ((({ s with ctx := c } : State).renegotiate c.agent (spansOf t)).advance)

/-- vsetl (R133). -/
def execVsetl (d a : Reg) (s : State) : Result :=
  if s.ctx.vlUnresolved then done s.stall
  else
    let vl := BitVec.ofNat 64 (min (s.getX a).toNat (vlmax s.ctx.vtype))
    let c : Ctx := { s.ctx.setX d vl with vl := vl }
    done (({ s with ctx := c } : State).advance)

/-- wbase (R135). -/
def execWbase (a : Reg) (s : State) : Result :=
  let w := s.getX a
  if w.toNat % 8 ≠ 0 ∨ 1016 < w.toNat then trap .illcfg 0 s
  else done (({ s with ctx := { s.ctx with wb := w } } : State).advance)

/-- Opens a strip loop (R136). -/
def openStrip (independent : Bool) (d a : Reg) (s : State) : Result :=
  let c := s.ctx
  let n := s.getX a
  if c.strip.isOpen then trap .stripnest 0 s
  else if c.vlUnresolved then done s.stall
  else
    let strip : Strip :=
      { sc := n, sb := 0, sbody := c.instrPc + 4, sbend := n, isOpen := true, independent := independent, reg := d }
    let vl := BitVec.ofNat 64 (min n.toNat (vlmax c.vtype))
    let c : Ctx := { c.setX d 0 with strip := strip, vl := vl, stripLoop := c.stripLoop + 1, stripCount := 0 }
    done (({ s with ctx := c } : State).advance)

/-- vstrip (R136). -/
def execVstrip (d a : Reg) (s : State) : Result := openStrip false d a s
/-- vstrip.i (R136). -/
def execVstripI (d a : Reg) (s : State) : Result := openStrip true d a s

/-- The number of the next strip (R127): strips are independent of each other only where the grant at the `vnext` is even. -/
def Ctx.nextStrip (c : Ctx) (spans : Nat) : Ctx :=
  { c with stripCount := c.stripCount + 1, stripLoop := if 2 ≤ spans ∧ spans % 2 = 0 then c.stripLoop else c.stripLoop + 1 }

/-- vnext (R137). It waits for an unresolved `vldff`. -/
def execVnext (s : State) : Result :=
  let c := s.ctx
  if c.strip.isOpen = false then trap .stripnest 0 s
  else if c.vlUnresolved then done s.stall
  else
    let adv := min c.vl.toNat c.strip.sc.toNat
    let sb := c.strip.sb + BitVec.ofNat 64 adv
    let sc := c.strip.sc - BitVec.ofNat 64 adv
    let want := match c.agent with
      | .ctx id => (s.core (id / 8)).wants (id % 8)
      | .handler _ _ _ => 0
    let s := s.renegotiate c.agent want
    if 0 < sc.toNat then
      let vl := BitVec.ofNat 64 (min sc.toNat (vlmax c.vtype))
      let strip : Strip := { c.strip with sb := sb, sc := sc }
      let c : Ctx := { c.setX c.strip.reg sb with vl := vl, strip := strip }
      done (({ s with ctx := c.nextStrip (s.heldSpans c.agent) } : State).jumpTo strip.sbody)
    else
      let c : Ctx := { c with vl := 0, strip := { c.strip with sc := 0, sb := 0, sbody := 0, sbend := 0, isOpen := false } }
      done (({ s with ctx := c } : State).advance)

/-- What older rules, the queued ones too, hold back. -/
def State.olderAll (s : State) : List Older := s.olderFrom s.ctx.agent (s.ctx.rules ++ s.ctx.queue) 0 []

/-- An element widened by its class (R138). -/
def widen (vt : Word) (x : Nat) : Word :=
  if clsOf vt = 0 then BitVec.ofInt 64 (signedOf (bitsOf vt) x) else BitVec.ofNat 64 x

/-- vmv.xs (R138). It waits for the element, and for the line it lies in (R118). -/
def execVmvXs (d a b : Reg) (s : State) : Result :=
  let c := s.ctx
  let i := (s.getX b).toNat
  let n := bytesOf c.vtype
  if vlmax c.vtype ≤ i then writeResult d 0 s
  else
    let loc := Loc.v (vaddr c.wb.toNat a.val (i * n)) n
    if absent s.olderAll loc then done s.stall
    else
      match s.needLines c.agent (s.pinned ((coreOf c.agent).getD 0)) loc.lines with
      | .error (x, va) => trap x va s
      | .ok s =>
        if s.ctx.lacks [loc] then done s.stall
        else if s.placesLost c.agent [loc] then trap .dataloss 0 s
        else writeResult d (widen c.vtype (s.ctx.elem c.wb.toNat a.val n i)) s

/-- vmv.sx (R139): the elements other than X[b] count as done, and all of them where it writes nothing. -/
def execVmvSx (d a b : Reg) (s : State) : Result :=
  let i := (s.getX b).toNat
  let r := { s.snapshot (.vmvSx d a b) with opA := s.getX a, opB := s.getX b }
  if s.ctx.vlUnresolved || s.ctx.queueFull then done s.stall
  else done (s.enqueue { r with done := if i < r.vstart then BitVec.allOnes 4096 else lowOnes i })

/-- vbcst (R140). -/
def execVbcst (d a : Reg) (s : State) : Result := issueRule none { s.snapshot (.vbcst d a) with opA := s.getX a } s
/-- qset (R141). -/
def execQset (d a : Reg) (s : State) : Result := issueRule none { s.snapshot (.qset d a) with opA := s.getX a } s
/-- vpresq (R142): presence is recorded as it issues. -/
def execVpresq (d a : Reg) (s : State) : Result := issueRule none (s.snapshot (.vpresq d a)) s

/-- The elements below vl that a mask selects in a mask register, once its grains are present (R285). -/
def State.selected (s : State) (a : Nat) (m : Fin 4) : Option (List Nat) :=
  let c := s.ctx
  let n := c.vl.toNat
  if present s.olderAll (maskLocs a m n) = false || c.lacks (maskLocs a m n) || c.vlUnresolved then none
  else some ((List.range n).filter fun e => (c.governing m).getLsbD e && c.maskBit a e)

/-- qpopc (R285). -/
def execQpopc (d a : Reg) (m : Fin 4) (s : State) : Result :=
  match s.selected a.val m with
  | some es => writeResult d (BitVec.ofNat 64 es.length) s
  | none => done s.stall

/-- qfirst (R285). -/
def execQfirst (d a : Reg) (m : Fin 4) (s : State) : Result :=
  match s.selected a.val m with
  | some (e :: _) => writeResult d (BitVec.ofNat 64 e) s
  | some [] => writeResult d (BitVec.allOnes 64) s
  | none => done s.stall

/-! ## Tag instructions -/

/-- A tag instruction enters the vector queue and takes no rule entry (R219); it acts at the head of the queue, and all but `ctclr`
hold the front end until then (R130). -/
def passTags (i : Instr) (a : Reg) (s : State) : Result :=
  if s.ctx.queueFull then done s.stall
  else
    let r := { s.snapshot i with opA := s.getX a }
    done (({ s with ctx := { s.ctx with queue := s.ctx.queue ++ [r], seq := s.ctx.seq + 1 } } : State).advance)

/-- cwany (R219). -/
def execCwany (d a : Reg) (s : State) : Result := passTags (.cwany d a) a s
/-- cwall (R219). -/
def execCwall (a : Reg) (s : State) : Result := passTags (.cwall a) a s
/-- cffr (R219). -/
def execCffr (d a : Reg) (s : State) : Result := passTags (.cffr d a) a s
/-- ctclr (R219). -/
def execCtclr (a : Reg) (s : State) : Result := passTags (.ctclr a) a s

end Sys2Proof.Machine
end

