-- ==== Sys2Proof/Machine/Legal.lean ====
section
/-! DEFINITION. Which words may stand in a rule slot (18_recovery.md R401): the words that take a rule entry, each with its issue,
by which `ldrule` asks whether the word is legal under a snapshot (02_encoding.md R47 step 8). -/

namespace Sys2Proof.Machine

/-- The issue of a word that takes a rule entry; none for any other instruction. -/
def issueOf (i : Instr) (z : State) : Option Result :=
  match i with
  | .vmvSx d a b => some (execVmvSx d a b z)
  | .vbcst d a => some (execVbcst d a z)
  | .qset d a => some (execQset d a z)
  | .vpresq d a => some (execVpresq d a z)
  | .vaddVv d a b m dt => some (execVaddVv d a b m dt z)
  | .vsubVv d a b m dt => some (execVsubVv d a b m dt z)
  | .vrsubVv d a b m dt => some (execVrsubVv d a b m dt z)
  | .vmulVv d a b m dt => some (execVmulVv d a b m dt z)
  | .vmulhVv d a b m dt => some (execVmulhVv d a b m dt z)
  | .vdivVv d a b m dt => some (execVdivVv d a b m dt z)
  | .vremVv d a b m dt => some (execVremVv d a b m dt z)
  | .vabsdVv d a b m dt => some (execVabsdVv d a b m dt z)
  | .vminVv d a b m dt => some (execVminVv d a b m dt z)
  | .vmaxVv d a b m dt => some (execVmaxVv d a b m dt z)
  | .vsaddVv d a b m dt => some (execVsaddVv d a b m dt z)
  | .vssubVv d a b m dt => some (execVssubVv d a b m dt z)
  | .vandVv d a b m dt => some (execVandVv d a b m dt z)
  | .vorVv d a b m dt => some (execVorVv d a b m dt z)
  | .vxorVv d a b m dt => some (execVxorVv d a b m dt z)
  | .vandnVv d a b m dt => some (execVandnVv d a b m dt z)
  | .vsllVv d a b m dt => some (execVsllVv d a b m dt z)
  | .vsrlVv d a b m dt => some (execVsrlVv d a b m dt z)
  | .vsraVv d a b m dt => some (execVsraVv d a b m dt z)
  | .vsgnjVv d a b m dt => some (execVsgnjVv d a b m dt z)
  | .vfmaVv d a b m dt => some (execVfmaVv d a b m dt z)
  | .vfmsVv d a b m dt => some (execVfmsVv d a b m dt z)
  | .vfnmaVv d a b m dt => some (execVfnmaVv d a b m dt z)
  | .vmergeVv d a b m dt => some (execVmergeVv d a b m dt z)
  | .vaddVx d a b m dt => some (execVaddVx d a b m dt z)
  | .vsubVx d a b m dt => some (execVsubVx d a b m dt z)
  | .vrsubVx d a b m dt => some (execVrsubVx d a b m dt z)
  | .vmulVx d a b m dt => some (execVmulVx d a b m dt z)
  | .vmulhVx d a b m dt => some (execVmulhVx d a b m dt z)
  | .vdivVx d a b m dt => some (execVdivVx d a b m dt z)
  | .vremVx d a b m dt => some (execVremVx d a b m dt z)
  | .vabsdVx d a b m dt => some (execVabsdVx d a b m dt z)
  | .vminVx d a b m dt => some (execVminVx d a b m dt z)
  | .vmaxVx d a b m dt => some (execVmaxVx d a b m dt z)
  | .vsaddVx d a b m dt => some (execVsaddVx d a b m dt z)
  | .vssubVx d a b m dt => some (execVssubVx d a b m dt z)
  | .vandVx d a b m dt => some (execVandVx d a b m dt z)
  | .vorVx d a b m dt => some (execVorVx d a b m dt z)
  | .vxorVx d a b m dt => some (execVxorVx d a b m dt z)
  | .vandnVx d a b m dt => some (execVandnVx d a b m dt z)
  | .vsllVx d a b m dt => some (execVsllVx d a b m dt z)
  | .vsrlVx d a b m dt => some (execVsrlVx d a b m dt z)
  | .vsraVx d a b m dt => some (execVsraVx d a b m dt z)
  | .vsgnjVx d a b m dt => some (execVsgnjVx d a b m dt z)
  | .vfmaVx d a b m dt => some (execVfmaVx d a b m dt z)
  | .vfmsVx d a b m dt => some (execVfmsVx d a b m dt z)
  | .vfnmaVx d a b m dt => some (execVfnmaVx d a b m dt z)
  | .vmergeVx d a b m dt => some (execVmergeVx d a b m dt z)
  | .vaddi d a i m => some (execVaddi d a i m z)
  | .vslli d a i m => some (execVslli d a i m z)
  | .vsrli d a i m => some (execVsrli d a i m z)
  | .vsrai d a i m => some (execVsrai d a i m z)
  | .vidx d s t => some (execVidx d s t z)
  | .vbcsti d s => some (execVbcsti d s z)
  | .veqVv d a b m dt => some (execVeqVv d a b m dt z)
  | .vneVv d a b m dt => some (execVneVv d a b m dt z)
  | .vltVv d a b m dt => some (execVltVv d a b m dt z)
  | .vle d a b m dt => some (execVle d a b m dt z)
  | .veqVx d a b m dt => some (execVeqVx d a b m dt z)
  | .vneVx d a b m dt => some (execVneVx d a b m dt z)
  | .vltVx d a b m dt => some (execVltVx d a b m dt z)
  | .vge d a b m dt => some (execVge d a b m dt z)
  | .vcompress d a b m dt => some (execVcompress d a b m dt z)
  | .vexpand d a b m dt => some (execVexpand d a b m dt z)
  | .vpick d a b m dt => some (execVpick d a b m dt z)
  | .vrev d a m dt => some (execVrev d a m dt z)
  | .vshup d a b m dt => some (execVshup d a b m dt z)
  | .vshdn d a b m dt => some (execVshdn d a b m dt z)
  | .vinsup d a b m dt => some (execVinsup d a b m dt z)
  | .vinsdn d a b m dt => some (execVinsdn d a b m dt z)
  | .vredsumO d a b m dt => some (execVredsumO d a b m dt z)
  | .vredsumT d a b m dt => some (execVredsumT d a b m dt z)
  | .vredmin d a b m dt => some (execVredmin d a b m dt z)
  | .vredmax d a b m dt => some (execVredmax d a b m dt z)
  | .qand d a b => some (execQand d a b z)
  | .qor d a b => some (execQor d a b z)
  | .qxor d a b => some (execQxor d a b z)
  | .qandn d a b => some (execQandn d a b z)
  | .vbitq d a b m dt => some (execVbitq d a b m dt z)
  | .vpopc d a m dt => some (execVpopc d a m dt z)
  | .vcvt d a b m dt => some (execVcvt d a b m dt z)
  | .vtobfp d a b m dt => some (execVtobfp d a b m dt z)
  | .vfrombfp d a b m dt => some (execVfrombfp d a b m dt z)
  | .vlog2 d a m dt => some (execVlog2 d a m dt z)
  | .vsqrt d a m dt => some (execVsqrt d a m dt z)
  | .vrcp d a m dt => some (execVrcp d a m dt z)
  | .vrsqrt d a m dt => some (execVrsqrt d a m dt z)
  | .vexp2 d a m dt => some (execVexp2 d a m dt z)
  | .vld v b m dt => some (execVld v b m dt z)
  | .vldff v b m dt => some (execVldff v b m dt z)
  | .vst v b m dt => some (execVst v b m dt z)
  | .vlds v b s m dt => some (execVlds v b s m dt z)
  | .vsts v b s m dt => some (execVsts v b s m dt z)
  | .vldx v b i m dt => some (execVldx v b i m dt z)
  | .vldxo v b i m dt => some (execVldxo v b i m dt z)
  | .vstx v b i m dt => some (execVstx v b i m dt z)
  | .vstxo v b i m dt => some (execVstxo v b i m dt z)
  | .vamoadd v b i m dt => some (execVamoadd v b i m dt z)
  | .vamomin v b i m dt => some (execVamomin v b i m dt z)
  | .vamomax v b i m dt => some (execVamomax v b i m dt z)
  | .vamoswap v b i m dt => some (execVamoswap v b i m dt z)
  | .vspld v b m dt => some (execVspld v b m dt z)
  | .vspst v b m dt => some (execVspst v b m dt z)
  | .vpst v b s => some (execVpst v b s z)
  | .vpld v b s => some (execVpld v b s z)
  | .cpls a => some (execCpls a z)
  | .cpld a => some (execCpld a z)
  | .cpgoMm d a b => some (execCpgoMm d a b z)
  | .cpgoMs d a b => some (execCpgoMs d a b z)
  | .cpgoSm d a b => some (execCpgoSm d a b z)
  | .cpgoSs d a b => some (execCpgoSs d a b z)
  | .spool d a b => some (execSpool d a b z)
  | .coll a => some (execColl a z)
  | .kvsel a => some (execKvsel a z)
  | .fsend d a b => some (execFsend d a b z)
  | .vamocas d a b => some (execVamocas d a b z)
  | .lpush a b => some (execLpush a b z)
  | .wlpush a b => some (execWlpush a b z)
  | .wlins a b => some (execWlins a b z)
  | .wlpop d a b => some (execWlpop d a b z)
  | .wlclose a => some (execWlclose a z)
  | .wlclear a => some (execWlclear a z)
  | .elapply a => some (execElapply a z)
  | .mop t a b m => some (execMop t a b m z)
  | .mops t a b c m => some (execMops t a b c m z)
  | .mzero d => some (execMzero d z)
  | .mfold d a b => some (execMfold d a b z)
  | .mrd d a b => some (execMrd d a b z)
  | .mwr d a b => some (execMwr d a b z)
  | .mrdc d a b => some (execMrdc d a b z)
  | .mwl d a b => some (execMwl d a b z)
  | .mopm t a b c m => some (execMopm t a b c m z)
  | .mvw t a b c m => some (execMvw t a b c m z)
  | _ => none

/-- A word that takes a rule entry, or one that only passes the vector queue (R402), from its encoding. -/
def slotWord (w : Nat) : Option Instr :=
  match decodeVector w with
  | .ok i => if i.wf && ((issueOf i State.reset).isSome || isQueueOnly i) then some i else none
  | .error _ => if encode .fenceVs = [w] then some .fenceVs else none

/-- Whether a word is legal under a snapshot: its issue with nothing but that configuration does not meet ILLOP. The rule that
stands first keeps a cause pending. -/
def legalUnder (i : Instr) (c : Ctx) (cdepth vl : Nat) (vtype mtype : Word) : Bool :=
  let probe := { Ctx.reset c.agent with
    vtype := vtype, mtype := mtype, vl := BitVec.ofNat 64 vl, cdepth := cdepth, tileMap := c.tileMap, handles := c.handles
    rules := [{ pc := 0, instr := .vnext }] }
  match issueOf i { State.reset with ctx := probe } with
  | some (.next s) => decide (s.ctx.pending.map (·.cause) ≠ some .illop)
  | some _ => false
  | none => isQueueOnly i

end Sys2Proof.Machine
end

