-- ==== Sys2Proof/Machine/Control.lean ====
section
/-! DEFINITION. Control registers (02_encoding.md R39; 17_isolation.md R386; 18_recovery.md R405, R408), `trap`, `ecall`, `rtr`,
`halt`, the exit address (R40), `stkvec`, `unstkvec`, `ldrule`, `strule`, `tlbinv` and `icinv` (R409-R415). -/

namespace Sys2Proof.Machine

/-! ## Control registers -/

/-- The registers of level U (R39). -/
def userRegs : List Nat := [0x000, 0x001, 0x002, 0x003, 0x004, 0x005, 0x006, 0x008, 0x009, 0x00A, 0x00B, 0x010, 0x011, 0x012, 0x013,
  0x014, 0x018]
/-- The registers of a handler's own trap state (R39). -/
def trapRegs : List Nat := [0x020, 0x021, 0x022, 0x023, 0x024, 0x025, 0x026, 0x027, 0x028, 0x029, 0x02A]
/-- The tenant's system registers (R386, R405). -/
def systemRegs : List Nat := [0x100, 0x101, 0x102, 0x103, 0x104, 0x105, 0x106, 0x180, 0x181, 0x182, 0x183, 0x184, 0x185, 0x186]
/-- The registers that can be written (R39, R386, R405). -/
def writableRegs : List Nat := [0x002, 0x006] ++ trapRegs ++ [0x101, 0x102, 0x103, 0x104, 0x106, 0x180, 0x181, 0x182, 0x184, 0x185]

/-- What R39 says of an access to a control register; none where it is allowed. A trap register named by a word at level U is
PRIV, and so is the whole system range, listed or not. -/
def ctlCause (user write : Bool) (n : Nat) : Option Cause :=
  if user && (decide (0x100 ≤ n) || trapRegs.contains n) then some .priv
  else if (if write then writableRegs.contains n else userRegs.contains n || trapRegs.contains n || systemRegs.contains n) then none
  else some .illop

/-- What a control register reads as (R39, R386, R405). -/
def State.ctlValue (s : State) (n : Nat) : Word :=
  let c := s.ctx
  let t := s.tenant (s.tenantOf c.agent)
  match n with
  | 0x000 => c.vl
  | 0x001 => c.vtype
  | 0x002 => c.vstart
  | 0x003 => c.mtype
  | 0x004 => c.wb
  | 0x005 => BitVec.ofNat 64 (s.heldSpans c.agent)
  | 0x006 => c.fflags
  | 0x008 => c.strip.sc
  | 0x009 => c.strip.sb
  | 0x00A => c.strip.sbody
  | 0x00B => c.strip.sbend
  | 0x010 => c.ctb
  | 0x011 => s.now
  | 0x012 => (c.task.map (·.ticket)).getD 0
  | 0x013 => (c.task.map (·.launchid)).getD 0
  | 0x014 => match c.agent with
    | .ctx id => BitVec.ofNat 64 id
    | .handler _ _ _ => 0
  | 0x018 => c.cmode
  | 0x020 => c.hvl
  | 0x021 => c.hvtype
  | 0x022 => c.hvstart
  | 0x023 => c.tstat
  | 0x024 => c.tcause
  | 0x025 => c.tpc
  | 0x026 => c.telem
  | 0x027 => c.taddr
  | 0x028 => c.trule
  | 0x029 => c.tvec
  | 0x02A => c.ctximg
  | 0x100 => BitVec.ofNat 64 t.id
  | 0x101 => t.spwait
  | 0x102 => t.ygrace
  | 0x103 => t.wlimit
  | 0x104 => t.ptroot
  | 0x105 => t.spbase
  | 0x106 => t.hostvec
  | 0x180 => t.tvecdef
  | 0x181 => t.rlogbase
  | 0x182 => t.rlogsize
  | 0x183 => t.rlogseq
  | 0x184 => t.rvec
  | 0x185 => t.xmask
  | 0x186 => t.cecount
  | _ => 0

/-- Whether a rule of an instruction can raise a flag (R254). -/
def raisesFlags (i : Instr) : Bool :=
  match i with
  | .mop _ _ _ _ | .mops _ _ _ _ _ | .mopm _ _ _ _ _ | .mvw _ _ _ _ _ | .mfold _ _ _ | .spool _ _ _ => true
  | _ => (arithWork (.ctx 0) { pc := 0, instr := i }).isSome

/-- Whether a read or write of fflags waits (R255). -/
def Ctx.flagsPending (c : Ctx) : Bool := (c.rules ++ c.queue).any fun r => !r.detached && raisesFlags r.instr

/-- Whether a read of ctb waits (R408): an older copy or `ctclr` in the queue, or an older `kvsel` or `coll` that has not cleared its
tag. -/
def Ctx.ctbPending (c : Ctx) : Bool :=
  !c.tagsCleared || c.queue.any fun r => match r.instr with
    | .ctclr _ | .kvsel _ | .coll _ => true
    | i => isCopy i

/-- ctl.rd (R408). -/
def execCtlRd (d : Reg) (n : BitVec 10) (s : State) : Result :=
  match ctlCause s.ctx.user false n.toNat with
  | some x => trap x 0 s
  | none =>
    let waits := match n.toNat with
      | 0x000 => s.ctx.vlUnresolved
      | 0x006 => s.ctx.flagsPending
      | 0x010 => s.ctx.ctbPending
      | _ => false
    if waits then done s.stall else writeResult d (s.ctlValue n.toNat) s

/-- A power of two from 32 to 65,536 (R405). -/
def logSizeOk (v : Nat) : Bool := [32, 64, 128, 256, 512, 1024, 2048, 4096, 8192, 16384, 32768, 65536].contains v

/-- Whether a value is legal for a control register that has such a rule (R386, R405, R408, R431). -/
def ctlLegal (n : Nat) (v : Word) : Bool :=
  match n with
  | 0x021 => vtypeOk v
  | 0x029 => isCanonical v && v.toNat % 4 == 0
  | 0x02A => isCanonical v && v.toNat % 65536 == 0
  | 0x104 => v.toNat % 4096 == 0 && decide (v.toNat / 2 ^ 52 = 0)
  | 0x106 => decide (v.toNat < 64)
  | 0x180 => v.toNat % 4 == 0
  | 0x181 => v.toNat % 4096 == 0
  | 0x182 => logSizeOk v.toNat
  | 0x184 => decide (v.toNat < 256)
  | 0x185 => v.toNat % 64 == 0
  | _ => true

/-- A tenant with a system register written. -/
def Tenant.setReg (t : Tenant) (n : Nat) (v : Word) : Tenant :=
  match n with
  | 0x101 => { t with spwait := v }
  | 0x102 => { t with ygrace := v }
  | 0x103 => { t with wlimit := v }
  | 0x104 => { t with ptroot := v }
  | 0x106 => { t with hostvec := v }
  | 0x180 => { t with tvecdef := v }
  | 0x181 => { t with rlogbase := v }
  | 0x182 => { t with rlogsize := v }
  | 0x184 => { t with rvec := v }
  | 0x185 => { t with xmask := v }
  | _ => t

/-- A context with a register of its own written (R408). -/
def Ctx.setReg (c : Ctx) (n : Nat) (v : Word) : Ctx :=
  match n with
  | 0x002 => { c with vstart := v }
  | 0x006 => { c with fflags := v &&& 0x1F }
  | 0x020 => { c with hvl := v }
  | 0x021 => { c with hvtype := v }
  | 0x022 => { c with hvstart := v }
  | 0x023 => { c with tstat := withBit c.tstat 3 (bitOf v.toNat 3 == 1) }
  | 0x024 => { c with tcause := v }
  | 0x025 => { c with tpc := v }
  | 0x026 => { c with telem := v }
  | 0x027 => { c with taddr := v }
  | 0x028 => { c with trule := v }
  | 0x029 => { c with tvec := v }
  | _ => c

/-- ctximg moves (R408): every resident line leaves for the old image; then every line comes from the new one. -/
def State.moveImage (s : State) (v : Word) : State :=
  match s.ctx.agent with
  | .handler _ _ _ => s
  | .ctx id =>
    match s.flushLines id with
    | .error (x, va) => s.raise x va
    | .ok s => ({ s with ctx := { s.ctx with ctximg := v, allBacked := true, backed := [] } } : State).advance

/-- The effect of ctl.wr on a register (R39, R386, R405, R408). -/
def writeCtl (a : Reg) (n : Nat) (s : State) : Result :=
  let v := s.getX a
  match ctlCause s.ctx.user true n with
  | some x => trap x 0 s
  | none =>
    if ctlLegal n v = false then trap .illcfg 0 s
    else if n = 0x006 && s.ctx.flagsPending then done s.stall
    else if n = 0x02A then done (s.moveImage v)
    else if 0x100 ≤ n then done ((s.mapTenant (s.tenantOf s.ctx.agent) fun t => t.setReg n v).advance)
    else done ({ s with ctx := s.ctx.setReg n v } : State).advance

/-- ctl.wr of a register without a row of its own (R408). -/
def execCtlWr (a : Reg) (n : BitVec 10) (s : State) : Result := writeCtl a n.toNat s
/-- ctl.wr vstart (R111). -/
def execCtlWrVstart (a : Reg) (s : State) : Result := writeCtl a 0x002 s
/-- ctl.wr fflags (R255). -/
def execCtlWrFflags (a : Reg) (s : State) : Result := writeCtl a 0x006 s
/-- ctl.wr ctximg (R408). -/
def execCtlWrCtximg (a : Reg) (s : State) : Result := writeCtl a 0x02A s

/-! ## trap, ecall, rtr, halt -/

/-- A cause that resumes after the word that raised it (R409); in a routine at the next offset (R416). -/
def State.raiseAfter (s : State) (cause : Cause) : State :=
  s.raisePending { cause := cause, pc := s.ctx.instrPc, next := true
                   rpc := match s.ctx.routine with
                     | none => s.ctx.pc + 4
                     | some r => r.pc }

/-- trap (R409). -/
def execTrap (s : State) : Result := done (s.raiseAfter .trapinsn)
/-- ecall (R409). -/
def execEcall (s : State) : Result := done (s.raiseAfter .ecall)

/-- Whether every rule of the depth has retired. -/
def Ctx.drained (c : Ctx) : Bool := c.queue.isEmpty && c.rules.all fun r => r.detached

/-- rtr (R411): once every rule of the depth has retired, after a fence.full at lane scope. -/
def execRtr (s : State) : Result :=
  if s.ctx.user then trap .priv 0 s
  else if s.ctx.drained = false || !s.releasedAt 0 then done s.stall
  else
    let s := s.returnFromTrap
    done { s with ctx := s.ctx.reserveAgain }

/-- The end of a task by `halt`, or by a fetch at the exit address, at the depth in force (R40, R404, R410). The release of R326 comes
before a fatal end too. -/
def State.haltTask (s : State) : State :=
  let c := s.ctx
  if c.user = false then
    if s.begunDone c.agent = false then s.stall else
    s.fatal c.agent { cause := 0, pc := c.instrPc, elem := 0, addr := 0, rule := noRule, tstat := c.tstat, rpc := c.instrPc }
  else if c.collecting then s.raise .nocollect 0
  else if c.drained && s.allBefore c.agent then s.endTask c.agent .ok
  else s.stall

/-- halt (R410). -/
def execHalt (s : State) : Result := done s.haltTask

/-- EXIT_ADDRESS_FETCH (R40): for a context whose next word is the one at the exit address. A handler's word there is outside its
profile, as halt is (R355). -/
def execExitAddressFetch (s : State) : Result :=
  if s.ctx.pc.toNat = Config.exitAddress && s.ctx.routine.isNone && (decide (s.ctx.hold = .run) || decide (s.ctx.hold = .stall)) then
    match s.ctx.agent with
    | .ctx _ => done s.haltTask
    | .handler _ _ _ => trap .illop 0 s
  else done s

/-! ## The bank -/

/-- An access of the front end at lane scope. -/
def State.laneAcc (s : State) : Acc := { g := s.ctx.agent, scope := 0, user := s.ctx.user, key := s.ctx.instrPc, elem := 0 }

/-- Why an aligned span of the front end's is refused: canonical form, alignment, then translation, lowest address first
(R174, R175, R412, R413). -/
def State.spanCause (s : State) (acc : Access) (addr : Word) (align n : Nat) : Option (Cause × Word) :=
  if isCanonical addr = false then some (faultOf acc, addr)
  else if addr.toNat % align ≠ 0 then some (.align, addr)
  else s.spanFault s.laneAcc acc addr 4 n

/-- Whether the front end's accesses to a span wait: an older `fence.sv` holds them (R195), or older stores of the scalar stream stand in
the store queue, which they follow (R184). -/
def State.spanWaits (s : State) : Bool := s.ctx.svHeld || !s.releasedAt 0

/-- Writes a span of the front end's at lane scope, all of it or none (R395). -/
def State.putSpan (s : State) (addr : Word) (align : Nat) (bs : List Byte) (next : State → State) : State :=
  if s.spanWaits then s.stall else
  match s.spanCause .store addr align bs.length with
  | some (x, va) => s.raise x va
  | none =>
    match s.writeSpan s.laneAcc addr (bs.length / 128 + 2) bs with
    | (.error (x, va), s) => s.raise x va
    | (.ok false, s) => s.stall
    | (.ok true, s) => (next s).advance

/-- Reads a span of the front end's at lane scope. -/
def State.takeSpan (s : State) (addr : Word) (align n : Nat) (next : List Byte → State → State) : State :=
  if s.spanWaits then s.stall else
  match s.spanCause .load addr align n with
  | some (x, va) => s.raise x va
  | none =>
    match s.readSpan s.laneAcc addr (n / 128 + 2) n with
    | (.error (x, va), s) => s.raise x va
    | (.ok none, s) => s.stall
    | (.ok (some bs), s) => next bs s

/-- stkvec (R412). -/
def execStkvec (a : Reg) (s : State) : Result :=
  if s.ctx.user then trap .priv 0 s else
  let c := s.ctx
  let addr := s.getX a
  let next := fun s : State => ({ s with ctx := { s.ctx with stkaddr := addr, tstat := withBit s.ctx.tstat 2 true } } : State)
  done (s.putSpan addr 8 (toBytes 8 c.hvl.toNat ++ toBytes 8 c.hvtype.toNat ++ toBytes 8 c.hvstart.toNat) next)

/-- unstkvec (R412). -/
def execUnstkvec (a : Reg) (s : State) : Result :=
  if s.ctx.user then trap .priv 0 s else
  done (s.takeSpan (s.getX a) 8 24 fun bs s =>
    let w := fun i => BitVec.ofNat 64 (ofBytes ((bs.drop (8 * i)).take 8))
    if vtypeOk (w 1) = false then s.raise .illcfg 0
    else
      ({ s with ctx := { s.ctx with
          hvl := w 0, hvtype := w 1, hvstart := w 2
          tstat := withBit (withBit s.ctx.tstat 2 false) 3 false } } : State).advance)

/-! ## Rule slots -/

/-- The on-chip slot that `rtr` installs at the depth in force (R413). -/
def Ctx.slot (c : Ctx) : List Rule := if depthOf c.tstat = 1 then c.userSlot else c.hndSlot

/-- The context with that slot replaced, and the copy that it was read from. -/
def Ctx.setSlot (c : Ctx) (rs : List Rule) (bs : List Byte) : Ctx :=
  if depthOf c.tstat = 1 then { c with userSlot := rs, userImg := some bs } else { c with hndSlot := rs, hndImg := some bs }

/-- The bytes of a slot (R401). -/
def slotBytes (rs : List Rule) : List Byte := (Memory.writeCells [] (fieldCells (slotFields rs 0))).readBytes 0 0xD800

/-- The copy of that slot in use: as `ldrule` last read it, or as its records stand (R413). -/
def Ctx.slotImage (c : Ctx) : List Byte :=
  ((if depthOf c.tstat = 1 then c.userImg else c.hndImg).filter fun bs => bs.length == 0xD800).getD (slotBytes c.slot)

/-- strule (R413). -/
def execStrule (a : Reg) (s : State) : Result :=
  if s.ctx.user then trap .priv 0 s else done (s.putSpan (s.getX a) 4096 s.ctx.slotImage fun s => s)

/-- The fields of record `k` of a slot image, at an offset in the record (R401). -/
def recField (bs : List Byte) (k off n : Nat) : Nat := ofBytes ((bs.drop (64 * k + off)).take n)

/-- Whether record `k` is valid. -/
def recValid (bs : List Byte) (k : Nat) : Bool := recField bs k 0x0C 1 % 2 == 1

/-- The level words of a copy's record, from its mask area (R401). -/
def recLevels (bs : List Byte) (k base count : Nat) : List Word :=
  (List.range count).map fun i => BitVec.ofNat 64 (ofBytes ((bs.drop (0x1800 + 512 * k + base + 8 * i)).take 8))

/-- Whether a valid record breaks R401. -/
def Ctx.recBad (c : Ctx) (bs : List Byte) (k : Nat) : Bool :=
  let f := recField bs k
  let vt := BitVec.ofNat 64 (f 0x10 8)
  let mt := BitVec.ofNat 64 (f 0x18 8)
  let cm := f 0x0D 1
  match slotWord (f 8 4) with
  | none => true
  | some i =>
    let counts := (f 0x28 8 % 8, f 0x28 8 / 16 % 8)
    decide (16 ≤ f 0x0C 1) || decide (4 < cm % 8) || decide (bitOf cm 3 = 1) || (cm % 8 == 0 && cm != 0) ||
    decide (1016 < f 0x0E 2) || f 0x0E 2 % 8 != 0 || !vtypeOk vt || !mtypeOk mt ||
    Nat.land (claimOf mt) c.tileMask != claimOf mt || decide (vlmax vt < f 0x20 4) ||
    (isCopy i && (counts.1 != counts.2 || counts.1 == 0 || decide (6 < counts.1))) ||
    !legalUnder i c (cm % 8) (f 0x20 4) vt mt

/-- The index words of a `kvsel`'s record; 64 zero words of one that had not written its own are none (R365; log 73). -/
def keptIndex (written : Bool) (mask : List Byte) : List Nat :=
  let ws := (List.range 64).map fun j => ofBytes ((mask.drop (96 + 4 * j)).take 4)
  if !written && ws.all (· == 0) then [] else ws

/-- The rule of a valid record. What a record does not hold is kept from the old record of that number for the same
instruction; a record of another instruction is a rule that has yet to issue. A recording store whose origin word was changed has
that one origin (R432; log 72). -/
def Ctx.recRule (c : Ctx) (bs : List Byte) (k : Nat) (lanes : Nat) : Rule :=
  let f := recField bs k
  let i := (slotWord (f 8 4)).getD .vnext
  let pc := BitVec.ofNat 64 (f 0 8)
  let handle := c.handle (f 0x30 8)
  let fresh : Rule := { pc := pc, instr := i, lanes := lanes, seq := c.seq + k, eng := match i with
      | .elapply _ => { segs := handle.segs }
      | _ => {} }
  let base : Rule := match c.slot[k]? with
    | some o => if o.pc = pc ∧ o.instr = i then o else fresh
    | none => fresh
  let counts := (f 0x28 8 % 8, f 0x28 8 / 16 % 8)
  let mask := (bs.drop (0x1800 + 512 * k)).take 512
  let eng : Engine :=
    if isCopy i then { base.eng with src := recLevels bs k 0 counts.1, dst := recLevels bs k 48 counts.2, xfers := List.range (f 0x24 4) }
    else if isKvsel i then
      { base.eng with index := keptIndex (!base.eng.index.isEmpty) mask, xfers := List.range (f 0x24 4) }
    else if isRecording i && base.originWord.toNat != f 0x28 8 then { base.eng with xfers := [] }
    else base.eng
  { base with
    routine := bitOf (f 0x0C 1) 2 == 1, detached := bitOf (f 0x0C 1) 3 == 1
    cdepth := f 0x0D 1 % 8, chandle := f 0x0D 1 / 16, wb := f 0x0E 2
    vtype := BitVec.ofNat 64 (f 0x10 8), mtype := BitVec.ofNat 64 (f 0x18 8), vl := f 0x20 4, r := f 0x24 4
    opD := if isRecording i && base.originWord.toNat == f 0x28 8 then base.opD else BitVec.ofNat 64 (f 0x28 8), opA := BitVec.ofNat 64 (f 0x30 8), opB := BitVec.ofNat 64 (f 0x38 8)
    done := if isCopy i || isKvsel i then base.done else BitVec.ofNat 4096 (ofBytes mask)
    eng := eng }

/-- The rules of a slot are written anew: their errors are gone (R422). -/
def State.healRules (s : State) (g : Agent) (rs : List Rule) : State :=
  { s with lostUnits := s.lostUnits.filter fun u => match u with
      | .rule h q => decide (h ≠ g) || !rs.any fun r => r.seq == q
      | _ => true }

/-- ldrule (R413). The records up to the first that is not valid are the new slot. -/
def execLdrule (a : Reg) (s : State) : Result :=
  if s.ctx.user then trap .priv 0 s else
  done (s.takeSpan (s.getX a) 4096 0xD800 fun bs s =>
    if (List.range 96).any fun k => recValid bs k && s.ctx.recBad bs k then s.raise .illcfg 0
    else
      let ks := (List.range 96).takeWhile fun k => recValid bs k
      let s := s.healRules s.ctx.agent s.ctx.slot
      let c := s.ctx.setSlot (ks.map fun k => s.ctx.recRule bs k (s.lanesOf s.ctx.agent)) bs
      ({ s with ctx := { c with seq := c.seq + 96 } } : State).advance)

/-! ## Cached translations and code -/

/-- Whether an access of a tenant that has begun is still under way: a store on its way, or a remote access without an answer. -/
def State.underWay (s : State) (t : Nat) : Bool :=
  (s.flights.any fun (f : Flight) => f.tenant == t && decide (f.stage ≠ .acked)) ||
  s.allCtx.any fun c => s.tenantOf c.agent == t && c.remotes.any fun (r : Remote) => r.answer.isNone && !r.lost

/-- tlbinv (R414). -/
def execTlbinv (a : Reg) (s : State) : Result :=
  if s.ctx.user then trap .priv 0 s
  else if (s.ctx.vectorDone && s.allBefore s.ctx.agent) = false then done s.stall
  else
    let t := s.tenantOf s.ctx.agent
    let va := (s.getX a).toNat % 2 ^ 57
    let s :=
      if a.val = 0 then s.dropTlb (fun e => e.tenant == t) (fun e => e.tenant == t)
      else if isCanonical (s.getX a) then
        s.dropTlb (fun e => e.tenant == t && e.page == va / 2 ^ e.bits)
          (fun e => e.tenant == t && e.region == va / 2 ^ levelShift e.level)
      else s
    if s.underWay t then done s.stall else done s.advance

/-- icinv (R415). -/
def execIcinv (a : Reg) (s : State) : Result :=
  if s.ctx.user then trap .priv 0 s
  else if (s.ctx.vectorDone && s.allBefore s.ctx.agent) = false then done s.stall
  else
    let t := s.tenantOf s.ctx.agent
    let line := (s.getX a).toNat / 128
    let keep := fun ls : List CodeLine => ls.filter fun (e : CodeLine) => !(e.tenant == t && e.line == line)
    done ({ s with
      cores := s.cores.map fun (k, c) => if (s.tenant t).cores.contains k then (k, { c with icache := keep c.icache }) else (k, c)
      chains := s.chains.map fun (c : Chain) => if c.tenant = t then { c with icache := keep c.icache } else c } : State).advance

end Sys2Proof.Machine
end

