-- ==== Sys2Proof/Machine/Objects.lean ====
section
/-! DEFINITION. WOF files, class hashes and the loader (04_objects.md R80-R96). A load status is a number of R96. Where a load
places its sections is log 15. -/

namespace Sys2Proof.Machine

/-! ## Classes -/

/-- The errata mask of stepping B0 (R90, R92). -/
def errataMask : Nat := 0

/-- The class hash of a tuple (R90). -/
def Accepted.hash (a : Accepted) : List Byte :=
  (sha256 (toBytes 8 a.cls ++ toBytes 4 a.bundle ++ toBytes 4 errataMask)).take 16

/-- The accepted-class list of a bundle (R91, R92): the stepping's native classes W20 and W11, then the classes that the bundle
presents beside them, in the bundle's order (DESIGN CHOICE, log 15: R92 lists the shipped bundles only). -/
def acceptedFor (b : Bundle) : List Accepted :=
  let via := fun c => if b.twins && b.presents.contains c then 1 else 0
  (([0x303257, 0x313157] ++ b.presents.filter fun c => c != 0x303257 && c != 0x313157).map fun c => ({ cls := c, bundle := b.id, via := via c } : Accepted)).take 8

/-- The list as the host reads it (R92): each tuple with its hash. -/
def classBytes (as : List Accepted) : List Byte :=
  as.flatMap fun a => toBytes 8 a.cls ++ toBytes 4 a.bundle ++ toBytes 4 errataMask ++ a.hash

/-! ## Sections -/

/-- A number of `n` bytes of a file. -/
def numAt (f : List Byte) (o n : Nat) : Nat := ofBytes ((f.drop o).take n)

/-- A section header (R81). -/
structure Section where
  type   : Nat
  name   : Nat
  offset : Nat
  size   : Nat
  align  : Nat
  link   : Nat
  hash   : List Byte
  stamp  : Bool
  deriving DecidableEq, Repr

/-- The string table of a file (R80). -/
def stringTable (f : List Byte) : List Byte := (f.drop (numAt f 0x18 8)).take (numAt f 0x20 8)

/-- A name of the string table (R80): none where the offset lies beyond it or no zero byte ends it. -/
def nameAt (f : List Byte) (o : Nat) : Option (List Byte) :=
  let rest := (stringTable f).drop o
  if rest.contains 0 then some (rest.takeWhile (· != 0)) else none

/-- The section header at an index (R81). -/
def sectionAt (f : List Byte) (i : Nat) : Section :=
  let o := numAt f 0x10 8 + 64 * i
  { type := numAt f o 2, name := numAt f (o + 4) 4, offset := numAt f (o + 8) 8, size := numAt f (o + 0x10) 8
    align := numAt f (o + 0x18) 4, link := numAt f (o + 0x1C) 4, hash := (f.drop (o + 0x20)).take 16
    stamp := numAt f (o + 0x20) 16 != 0 || numAt f (o + 0x30) 16 != 0 }

/-- The contents of a section; a bss section reads as zeros. -/
def Section.bytes (x : Section) (f : List Byte) : List Byte :=
  if x.type = 4 then List.replicate x.size 0 else (f.drop x.offset).take x.size

/-- The sections of a file, in the order of the table. -/
def sectionsOf (f : List Byte) : List Section := (List.range (numAt f 8 4)).map (sectionAt f)

/-- Whether a header of R81 is legal, beside the counts of R82. -/
def Section.ok (x : Section) (f : List Byte) (i : Nat) (all : List Section) : Bool :=
  decide (1 ≤ x.type) && decide (x.type ≤ 13) && numAt f (numAt f 0x10 8 + 64 * i + 2) 2 == 0 && (nameAt f x.name).isSome &&
  (if x.type = 4 then x.offset == 0 else decide (x.offset + x.size ≤ f.length)) &&
  decide (1 ≤ x.align) && decide (x.align ≤ 4096) && popcount 13 x.align == 1 && (x.type != 1 || decide (4 ≤ x.align)) &&
  (if x.type = 10 then decide (x.link < all.length)
   else if x.type = 6 then ((all[x.link]?).map (·.type)) == some 1 else x.link == 0) &&
  (x.type == 1 || !x.stamp)

/-- The limits on how often a section type stands in a file (R82). -/
def countsOk (all : List Section) : Bool :=
  let once := fun t => decide ((all.filter fun x => x.type == t).length ≤ 1)
  let apart := fun (xs : List Nat) => xs.eraseDups.length == xs.length
  [2, 3, 4, 5, 7, 8, 9, 11, 12].all once &&
  apart ((all.filter fun x => x.type == 6).map (·.link)) && apart ((all.filter fun x => x.type == 10).map (·.link)) &&
  ((all.filter fun x => x.type == 1 && ofBytes x.hash != 0).map fun x => ofBytes x.hash).eraseDups.length ==
    (all.filter fun x => x.type == 1 && ofBytes x.hash != 0).length

/-- Entries of `n` bytes of a section; bytes behind the last whole one are no entry (DESIGN CHOICE, log 15: R83 does not say what they are
in a sym or a rel section). -/
def entriesOf (n : Nat) (bs : List Byte) : List (List Byte) :=
  (List.range (bs.length / n)).map fun i => (bs.drop (n * i)).take n

/-- Whether every symbol has a name of the string table (R80, R83). -/
def namesOk (f : List Byte) (all : List Section) : Bool :=
  all.all fun x => x.type != 9 || (entriesOf 24 (x.bytes f)).all fun y => (nameAt f (numAt y 0 4)).isSome

/-- Whether nothing of the file follows the contents of a sig section (R82); its header may stand anywhere in the table (DESIGN CHOICE,
log 15). -/
def sigLast (f : List Byte) (all : List Section) : Bool := all.all fun x => x.type != 12 || x.offset + x.size == f.length

/-- The header, the section table and the names of symbols (R80-R83): none, or the status of what is wrong, the magic before the version
and that before all else (DESIGN CHOICE, log 15: R95 gives no order inside one check). -/
def headerStatus (f : List Byte) : Option Nat :=
  let all := sectionsOf f
  if f.length < 64 ∨ f.take 4 ≠ [0x57, 0x4F, 0x46, 0x01] then some 3
  else if numAt f 4 2 ≠ 0 then some 4
  else if 4 ≤ numAt f 6 2 ∨ numAt f 8 4 = 0 ∨ 4096 < numAt f 8 4 ∨ numAt f 0x0C 4 ≠ 0 ∨ numAt f 0x10 8 % 8 ≠ 0 ∨
      f.length < numAt f 0x10 8 + 64 * numAt f 8 4 ∨ f.length < numAt f 0x18 8 + numAt f 0x20 8 ∨
      numAt f 0x28 8 ≠ f.length ∨ numAt f 0x30 16 ≠ 0 then some 3
  else if (all.zipIdx.all fun (x, i) => x.ok f i all) = false ∨ countsOk all = false ∨ sigLast f all = false ∨
      namesOk f all = false then some 3
  else if bitOf (numAt f 6 2) 0 ≠ (if all.any fun x => x.type == 12 then 1 else 0) ∨
      bitOf (numAt f 6 2) 1 ≠ (if all.any fun x => x.type == 7 then 1 else 0) then some 3
  else none

/-- The contents of the first section of a type. -/
def sectionOf (f : List Byte) (t : Nat) : Option (List Byte) := ((sectionsOf f).find? fun x => x.type == t).map fun x => x.bytes f

/-- The signature and the tenant's policy (R85). A sig section of another size than 7,864 bytes is BADSIG (DESIGN CHOICE, log 15). -/
def sigStatus (t : Tenant) (f : List Byte) : Option Nat :=
  match (sectionsOf f).find? fun x => x.type == 12 with
  | none => if t.mustSign then some 5 else none
  | some x =>
    let bs := x.bytes f
    let key := (t.keys.find? fun k => k.1.toNat == numAt bs 0 8).map (·.2)
    let msg := f.take x.offset ++ f.drop (x.offset + 7864)
    match key with
    | none => some 5
    | some key => if x.size = 7864 && Config.sigValid key msg (bs.drop 8) then none else some 5

/-! ## Kernels and argument layouts -/

/-- The size of an argument type (R87). -/
def argSize (t : Nat) : Nat :=
  match t with
  | 0 | 4 => 1
  | 1 | 5 | 8 | 11 => 2
  | 2 | 6 | 9 => 4
  | _ => 8

/-- Reads the layouts one after another (R87): the status of the first that breaks R72, else how many there are. The largest alignment
of a layout with no fields is 1; a type code above 12 and a layout that the section cuts short are BADKERN (DESIGN CHOICE, log 15: R72
and R87 do not say). -/
def layoutsFrom (f bs : List Byte) : Nat → Nat → Except Nat Nat
  | 0, n => .ok n
  | fuel + 1, n =>
    if bs.isEmpty then .ok n
    else
      let count := numAt bs 4 2
      let fields := entriesOf 16 ((bs.drop 16).take (16 * count))
      if bs.length < 16 + 16 * count then .error 8
      else if (nameAt f (numAt bs 0 4)).isNone || fields.any fun e => (nameAt f (numAt e 0 4)).isNone then .error 3
      else if fields.any fun e => decide (12 < numAt e 4 1) then .error 8
      else
        let r := fields.foldl (fun (a : Nat × Nat × Bool) e =>
          let w := argSize (numAt e 4 1)
          let o := roundUp w a.1
          (o + w, max a.2.1 w, a.2.2 && numAt e 8 4 == o)) (0, 1, true)
        if r.2.2 && numAt bs 6 2 == r.2.1 && numAt bs 8 4 == roundUp r.2.1 r.1 then
          layoutsFrom f (bs.drop (16 + 16 * count)) fuel (n + 1)
        else .error 8

/-- A kernel descriptor (R86): the status of what is wrong, for a text section of `size` bytes and `layouts` layouts. -/
def kernelStatus (f k : List Byte) (size layouts : Nat) : Option Nat :=
  if (nameAt f (numAt k 0 4)).isNone then some 3
  else if decide (numAt k 4 2 < 2) && (numAt k 6 2 == 0xFFFF || decide (numAt k 6 2 < layouts)) && numAt k 8 8 % 4 == 0 &&
      decide (numAt k 8 8 < size) && decide (1 ≤ numAt k 0x10 1) && decide (numAt k 0x10 1 ≤ 8) && decide (numAt k 0x11 1 ≤ 128) &&
      decide (numAt k 0x12 1 < 16) && numAt k 0x13 1 == 0 && numAt k 0x14 4 % 128 == 0 && decide (numAt k 0x14 4 ≤ 3670016) &&
      numAt k 0x20 32 == 0 then none
  else some 8

/-- The descriptors of a text section (R86). -/
def kernelsOf (f : List Byte) (text : Nat) : List (List Byte) :=
  (((sectionsOf f).find? fun x => x.type == 6 && x.link == text).map fun x => entriesOf 64 (x.bytes f)).getD []

/-- The kernel descriptors and the argument layouts (R86, R87). A kern section that is no whole number of descriptors is BADKERN, and the
layouts are checked before the descriptors (DESIGN CHOICE, log 15: R86 gives no status, R95 no order). -/
def kernStatus (f : List Byte) : Option Nat :=
  let all := sectionsOf f
  match layoutsFrom f ((sectionOf f 5).getD []) ((sectionOf f 5).getD []).length 0 with
  | .error e => some e
  | .ok layouts =>
    let texts := all.zipIdx.filter fun (x, _) => x.type == 1
    let names := texts.map fun (_, i) => (kernelsOf f i).map fun k => nameAt f (numAt k 0 4)
    if all.any fun x => x.type == 6 && x.size % 64 != 0 then some 8
    else
      match (texts.flatMap fun (x, i) => (kernelsOf f i).filterMap fun k => kernelStatus f k x.size layouts).head? with
      | some e => some e
      | none => if 1 < names.eraseDups.length then some 8 else none

/-- The microcoded operations that a file needs (R94). A ucode section that is no whole number of entries is NOUCODE (DESIGN CHOICE,
log 15: R94 gives no status). -/
def ucodeStatus (b : Bundle) (f : List Byte) : Option Nat :=
  let bs := (sectionOf f 8).getD []
  let met := fun (u : List Byte) =>
    let k := numAt u 4 4
    let w := numAt u 8 4
    match b.entries.find? fun e => e.major == numAt u 0 1 && Nat.land (Nat.land w k) e.mask == Nat.land e.value k with
    | none => false
    | some e => Nat.land e.mask k == e.mask && Nat.land w e.mask == e.value
  if bs.length % 12 = 0 ∧ (entriesOf 12 bs).all met then none else some 6

/-! ## Relocation -/

/-- A value as a signed number of 64 bits. -/
def signed64 (v : Int) : Int := signedOf 64 (codeOf 64 v)

/-- A field of `n` bits at the low end of the 4-byte word at P, replaced. -/
def patchWord (bs : List Byte) (p n v : Nat) : List Byte :=
  let w := numAt bs p 4
  bs.take p ++ toBytes 4 (w / 2 ^ n * 2 ^ n + v % 2 ^ n) ++ bs.drop (p + 4)

/-- One relocation of a section (R84): P, its address, the type, S, A and O; the entry's successor answers the HI19 rule. An unknown type,
and a place beyond the section, are BADREL (DESIGN CHOICE, log 15: R84 gives no status). -/
def patch (bs : List Byte) (p : Nat) (place type : Nat) (sym add : Int) (origin : Nat) (paired : Bool) : Option (List Byte) :=
  let v := signed64 (sym + add)
  let wide := decide (-(2 : Int) ^ 30 ≤ v) && decide (v < 2 ^ 30)
  let near := fun (n : Nat) =>
    let off := signed64 (v - place)
    if off % 4 = 0 ∧ v % 4 = 0 ∧ -(2 : Int) ^ (n - 1) ≤ off / 4 ∧ off / 4 < 2 ^ (n - 1) then
      some (patchWord bs p n (codeOf n (off / 4))) else none
  if bs.length < p + (if type = 1 then 8 else 4) then none else
  match type with
  | 1 => some (bs.take p ++ toBytes 8 (codeOf 64 v) ++ bs.drop (p + 8))
  | 2 => if wide && paired then some (patchWord bs p 19 (codeOf 64 v / 2 ^ 12)) else none
  | 3 => if wide then some (patchWord bs p 12 (codeOf 64 v)) else none
  | 4 => near 12
  | 5 => near 19
  | 6 =>
    let u := signed64 (sym + add + origin)
    if isLim (numAt bs p 4) then
      if 0 ≤ u ∧ u < 2 ^ 30 ∧ p + 8 ≤ bs.length then
        some (patchWord (patchWord bs p 19 (codeOf 64 u / 2 ^ 12)) (p + 4) 12 (codeOf 64 u)) else none
    else if 0 ≤ u ∧ u ≤ 2047 then some (patchWord bs p 12 (codeOf 64 u)) else none
  | _ => none

/-- S of a symbol (R83, R84): none where its section is not loaded or its index lies beyond the table, which is BADREL (DESIGN CHOICE, log
15: R84 gives no status). -/
def symbolValue (f : List Byte) (placed : List (Nat × Nat)) (i : Nat) : Option Int :=
  match (entriesOf 24 ((sectionOf f 9).getD []))[i]? with
  | none => none
  | some y =>
    let value : Int := numAt y 8 8
    if numAt y 6 1 = 3 ∨ numAt y 4 2 = 0xFFFF then some value
    else (lookup? (numAt y 4 2) placed).map fun a => a + value

/-- Every relocation of a section, in the order of its table. -/
def relocate (f : List Byte) (placed : List (Nat × Nat)) (origin at' : Nat) : List (List Byte) → List Byte → Option (List Byte)
  | [], bs => some bs
  | e :: es, bs =>
    let p := numAt e 0 8
    let paired := match es.head? with
      | some n => numAt n 0 8 == p + 4 && numAt n 12 2 == 3 && numAt n 8 4 == numAt e 8 4 && numAt n 16 8 == numAt e 16 8
      | none => false
    match symbolValue f placed (numAt e 8 4) with
    | none => none
    | some sym =>
      match patch bs p (at' + p) (numAt e 12 2) sym (signedOf 64 (numAt e 16 8)) origin paired with
      | none => none
      | some bs => relocate f placed origin at' es bs

/-! ## Loading -/

/-- Where the sections that are loaded stand: one after another from the base, each at its alignment (log 15). -/
def placeSections (base : Nat) : List (Section × Nat) → List (Nat × Nat)
  | [] => []
  | (x, i) :: rest => (i, roundUp x.align base) :: placeSections (roundUp x.align base + x.size) rest

/-- Bytes put into a tenant's memory by the loader, line by line: none where a page of the tenant's is missing or remote, which is NOSPACE:
the code window of R96 is what the tenant has mapped (DESIGN CHOICE, log 15: no rule says what it is). -/
def State.placeBytes (s : State) (t : Nat) (acc : Access) (va : Word) : Nat → List Byte → Option State
  | 0, _ => some s
  | fuel + 1, bs =>
    if bs.isEmpty then some s else
    let here := min bs.length (128 - va.toNat % 128)
    match s.translate deviceDie t acc false va with
    | .error _ => none
    | .ok p =>
      if p.attr = .remote then none else
      let s := (s.fillTlb deviceDie t acc va).deviceStore t (p.pa / 128) (cellsAt p.pa (bs.take here)) (decide (p.attr = .capacity)) p.zero
      State.placeBytes s t acc (va + BitVec.ofNat 64 here) fuel (bs.drop here)

/-- The loader fills the templates of a file, each at an address of a loaded data section and for a kernel: the code handle, and the
kernel as the record's kernel index (R73; log 15). -/
def State.fillTemplates (s : State) (t id : Nat) (placed : List (Section × Nat)) : List (Word × Nat) → Option State
  | [] => some s
  | (a, k) :: rest =>
    let here := placed.any fun x => (x.1.type == 2 || x.1.type == 3) && decide (x.2 ≤ a.toNat) && decide (a.toNat + 128 ≤ x.2 + x.1.size)
    ((if here then s.placeBytes t .load (a + 8) 2 (toBytes 8 id ++ toBytes 4 k) else some s)).bind fun s =>
      State.fillTemplates s t id placed rest

/-- Loads the chosen text section with the data sections, and fills their templates: the status, or the code handle in a new state (R73,
R95, R96). A section of type 13 is not loaded, and the lines of the loaded text leave the instruction caches (DESIGN CHOICE, log 15: R95
does not say); nor does it give the number of the handle, which is one more than the tenant's loaded objects (DESIGN CHOICE, log 15). -/
def State.loadSections (s : State) (t : Nat) (f : List Byte) (text base : Nat) (templates : List (Word × Nat)) : Except Nat (Nat × State) :=
  let all := sectionsOf f
  let chosen := all.zipIdx.filter fun (x, i) => i == text || x.type == 2 || x.type == 3 || x.type == 4
  let placed := placeSections base chosen
  let origin := (s.tenant t).spbase.toNat
  let put := fun (acc : Except Nat State) (y : Section × Nat) =>
    match acc, lookup? y.2 placed with
    | .ok s, some a =>
      let rel := ((all.find? fun x => x.type == 10 && x.link == y.2).map fun x => entriesOf 24 (x.bytes f)).getD []
      match relocate f placed origin a rel (y.1.bytes f) with
      | none => .error 7
      | some bs =>
        match s.placeBytes t (if y.1.type = 1 then .fetch else .load) (BitVec.ofNat 64 a) (bs.length / 64 + 2) bs with
        | none => .error 9
        | some s => .ok s
    | e, _ => e
  let id := (s.tenant t).code.length + 1
  let ts := chosen.filterMap fun y => (lookup? y.2 placed).map fun a => (y.1, a)
  let filled : Except Nat State := (chosen.foldl put (.ok s)).bind fun s => ((s.fillTemplates t id ts templates).map Except.ok).getD (.error 9)
  match filled with
  | .error e => .error e
  | .ok s =>
    let a := (lookup? text placed).getD 0
    let size := ((all[text]?).map (·.size)).getD 0
    let kernels := (kernelsOf f text).map fun k =>
      ({ entry := BitVec.ofNat 64 (a + numAt k 8 8), spans := numAt k 0x10 1, tiles := numAt k 0x12 1
         tags := BitVec.ofNat 64 (numAt k 0x18 8), scratch := numAt k 0x14 4, gang := bitOf (numAt k 4 2) 0 == 1 } : Kernel)
    let keep := fun ls : List CodeLine => ls.filter fun (e : CodeLine) =>
      !(e.tenant == t && decide (a / 128 ≤ e.line) && decide (128 * e.line < a + size))
    let s := { s with
      cores := s.cores.map fun (x : Nat × Core) => (x.1, { x.2 with icache := keep x.2.icache })
      chains := s.chains.map fun (c : Chain) => { c with icache := keep c.icache } }
    .ok (id, s.mapTenant t fun x =>
      { x with code := x.code ++ [{ id := id, base := BitVec.ofNat 64 a, size := size, kernels := kernels }] })

/-- The status of step 1 of R95. -/
def State.objectStatus (s : State) (t : Nat) (f : List Byte) : Option Nat :=
  (headerStatus f).or <| (sigStatus (s.tenant t) f).or <| (kernStatus f).or (ucodeStatus s.bundle f)

/-- The text section whose hash stands first in the accepted-class list (R95). -/
def chooseText (as : List Accepted) (f : List Byte) : Option Nat :=
  as.findSome? fun a => ((sectionsOf f).zipIdx.find? fun (x, _) => x.type == 1 && ofBytes x.hash != 0 && x.hash == a.hash).map (·.2)

/-- LOAD_OBJECT (R95, R96): a load that is not LOADED leaves nothing. -/
def execLoadObject (tenant : Nat) (file : LoadFile) (base : Word) (s : State) : Result :=
  let answer := fun (s : State) status handle data => done { s with out := s.out ++ [Output.loaded status handle data] }
  if (findTenant tenant s.tenants).isNone || !s.firmware then done s
  else
    match s.objectStatus tenant file.bytes with
    | some e => answer s e 0 []
    | none =>
      match chooseText s.classes file.bytes with
      | none => if (sectionOf file.bytes 7).isSome then answer s 1 0 (classBytes s.classes) else answer s 2 0 []
      | some i =>
        match s.loadSections tenant file.bytes i base.toNat file.templates with
        | .error e => answer s e 0 []
        | .ok (id, s') => answer s' 0 id []

end Sys2Proof.Machine
end

