-- ==== Sys2Proof/Machine/Manage.lean ====
section
/-! DEFINITION. The host and the management core (17_isolation.md R374-R376, R382, R387-R392, R431; 04_objects.md R53, R92, R93;
15_scheduling.md R327, R350; 16_fabric.md R353, R362): RMA, interrupt delivery, and every management request. -/

namespace Sys2Proof.Machine

/-! ## RMA and interrupts -/

/-- The largest RMA: 1 MiB (R387). -/
def rmaMax : Nat := 2 ^ 20

/-- A completion of an RMA leaves the module. -/
def State.complete (s : State) (ok : Bool) (data : List Byte) : State := { s with out := s.out ++ [Output.completion ok data] }

/-- The I/O die whose translation caches the RMAs of an endpoint use: ports 0-3 are on die 0, ports 4-7 on die 1 (R9, R388; log 69). -/
def State.rmaPlace (s : State) (tenant endpoint : Nat) : Place := .io (((lookup? endpoint (s.tenant tenant).ports).map (·.1)).getD 0 / 4)

/-- RMA_WRITE (R387, R388): 8 bytes at a queue's notify address that the tenant may write are a kick (R328). -/
def execRmaWrite (port : RmaPort) (va : Word) (data : List Byte) (s : State) : Result :=
  let place := s.rmaPlace port.tenant port.endpoint
  let may := match s.translate place port.tenant .store true va with
    | .ok p => decide (p.attr ≠ .remote)
    | .error _ => false
  match (if data.length = 8 && may then s.queueAt port.tenant va else none) with
  | some q =>
    match (s.fillTlb place port.tenant .store va).notifyFrom place port.tenant q (BitVec.ofNat 64 (ofBytes data)) with
    | some s' => done (s'.complete true [])
    | none => done (s.complete false [])
  | none =>
    match (if data.length ≤ rmaMax then s.hostWrite place port.tenant va data else none) with
    | some s' => done (s'.complete true [])
    | none => done (s.complete false [])

/-- RMA_READ (R388, R419). -/
def execRmaRead (port : RmaPort) (va : Word) (len : Nat) (s : State) : Result :=
  let place := s.rmaPlace port.tenant port.endpoint
  match (if len ≤ rmaMax then s.placeReadSpan place port.tenant true va (len / 128 + 2) len else .error .loadfault) with
  | .ok bs => done (s.complete true bs)
  | .error _ => done (s.complete false [])

/-- What an RMA atomic writes (R387). -/
def rmaNew (op : RmaOp) (old operand compare : Word) : Word :=
  match op with
  | .add => old + operand
  | .swap => operand
  | .cas => if old = compare then operand else old

/-- RMA_ATOMIC (R388): it needs R and W of its page; the old value returns. -/
def execRmaAtomic (port : RmaPort) (va : Word) (op : RmaOp) (operand compare : Word) (s : State) : Result :=
  let place := s.rmaPlace port.tenant port.endpoint
  match s.translate place port.tenant .atomic true va, s.placeRead place port.tenant true va 8 with
  | .ok _, .ok bs =>
    if va.toNat % 8 ≠ 0 then done (s.complete false [])
    else
      match s.placeWrite place port.tenant true va (toBytes 8 (rmaNew op (BitVec.ofNat 64 (ofBytes bs)) operand compare).toNat) with
      | .ok s' => done (s'.complete true bs)
      | .error _ => done (s.complete false [])
  | _, _ => done (s.complete false [])

/-- INTERRUPT_DELIVERY_ACK (R389): the oldest message gives up its place. -/
def execInterruptDeliveryAck (tenant : Nat) (s : State) : Result :=
  done (s.mapTenant tenant fun a => { a with pendInts := a.pendInts.drop 1 })

/-! ## Requests -/

/-- Who signs a request (R390). -/
inductive Signer where
  | operator
  | tenant
  | either
  deriving DecidableEq, Repr

/-- The public key that a request is checked against: none where it may not sign that request or is not registered. -/
def State.keyOf (s : State) (h : MgmtHeader) (who : Signer) : Option (List Byte) :=
  if h.operator then (if who = .tenant then none else some Config.operatorKey)
  else if who = .operator then none
  else ((s.tenant h.tenant).keys.find? fun k => k.1 == h.keyId).map (·.2)

/-- What a request's signature covers: the header and the operands (R390). -/
def requestBytes (opcode : Nat) (h : MgmtHeader) (operands : List Byte) : List Byte :=
  toBytes 2 opcode ++ toBytes 1 h.tenant ++ toBytes 1 h.flags ++ toBytes 4 h.oplen ++ toBytes 8 h.seq ++ List.replicate 16 0 ++ operands

/-- The last sequence accepted from a key (R390). -/
def lastSeq (key : List Byte) : List (List Byte × Word) → Option Word
  | [] => none
  | (k, n) :: t => if k = key then some n else lastSeq key t

/-- The list with the last sequence of a key. -/
def setSeq (key : List Byte) (n : Word) (l : List (List Byte × Word)) : List (List Byte × Word) :=
  (key, n) :: l.filter fun x => x.1 != key

/-- A response leaves the module (R390). -/
def State.respond (s : State) (h : MgmtHeader) (status : Nat) (payload : List Byte) : State :=
  { s with out := s.out ++ [Output.response (BitVec.ofNat 64 h.seq) status payload] }

/-- The key that a request is admitted under, or the status of its refusal: its signature, its header, its sequence (R390). -/
def State.accepts (s : State) (opcode : Nat) (h : MgmtHeader) (who : Signer) (operands : List Byte) : Except Nat (List Byte) :=
  match s.keyOf h who with
  | none => .error 1
  | some key =>
    if Config.sigValid key (requestBytes opcode h operands) h.sig = false then .error 1
    else if h.flags ≠ 0 ∨ 16 ≤ h.tenant ∨ ((lastSeq key s.sequences).map fun n => decide (h.seq ≤ n.toNat)).getD false then .error 2
    else .ok key

/-- A request of the table (R390): admitted, then done by `act`, or refused with nothing changed. Without good firmware only the two
requests of R391 are answered, with status 2. -/
def State.request (s : State) (opcode : Nat) (h : MgmtHeader) (who : Signer) (operands : List Byte)
    (act : State → Option (State × List Byte)) : Result :=
  if s.firmware = false then done (if opcode = 0x0051 ∨ opcode = 0x0060 then s.respond h 2 [] else s)
  else
    match s.accepts opcode h who operands with
    | .error e => done (s.respond h e [])
    | .ok key =>
      match act s with
      | none => done (s.respond h 2 [])
      | some (s', payload) =>
        done (({ s' with sequences := setSeq key (BitVec.ofNat 64 h.seq) s'.sequences } : State).respond h 0 payload)

/-- UNKNOWN_OPCODE (R390): an opcode of no row. -/
def execUnknownOpcode (h : MgmtHeader) (opcode : Nat) (s : State) : Result :=
  let known := [0x0001, 0x0002, 0x0003, 0x0010, 0x0011, 0x0020, 0x0021, 0x0022, 0x0023, 0x0030, 0x0031, 0x0040, 0x0050, 0x0051, 0x0060]
  done (if s.firmware && !known.contains opcode then s.respond h 3 [] else s)

/-- A measurement register is extended (R391). -/
def State.extend (s : State) (i : Nat) (digest : List Byte) : State :=
  { s with measures := s.measures.setIfInBounds i (sha256 (((s.measures.toList[i]?).getD []) ++ digest)) }

/-! ## Windows and tenants -/

/-- Bytes of one HBM group (R375). -/
def groupBytes : Nat := 48 * 2 ^ 30

/-- Whether a window's own fields are legal for groups of HBM (R382). -/
def windowLegal (groups : List Nat) (w : Window) : Bool :=
  let within := fun lo n => decide (lo ≤ w.dbase) && decide (w.dbase + w.size ≤ lo + n)
  w.zero == 0 && w.tbase % 65536 == 0 && w.size % 65536 == 0 && decide (65536 ≤ w.size) && w.dbase % 65536 == 0 && decide (w.perm < 8) &&
  (match w.kind with
    | 0 => groups.any fun g => within (g * groupBytes) groupBytes
    | 1 => (List.range 16).any fun b => within (Config.capBase + b * Config.capBytes) Config.capBytes
    | _ => false)

/-- Whether windows share a TPA. -/
def tpaMeets (a b : Window) : Bool := meets a.tbase a.size b.tbase b.size
/-- Whether windows share a device address. -/
def deviceMeets (a b : Window) : Bool := meets a.dbase a.size b.dbase b.size

/-- Whether a window may be set for a tenant beside its other windows (R382). -/
def State.windowFree (s : State) (t : Nat) (groups : List Nat) (own : List Window) (w : Window) : Bool :=
  windowLegal groups w && !own.any (tpaMeets w) && s.tenants.all fun a => a.id == t || !a.windows.any fun x => deviceMeets w x.2

/-- A device range is written with zero data and its check values (R420), with every cached copy and every store to it that is still on
its way dropped. -/
def State.clearRange (s : State) (lo n : Nat) : State :=
  let hit := fun line => decide (lo ≤ 128 * line) && decide (128 * line < lo + n)
  { s with
    hbm := s.hbm.clear lo (lo + n)
    flights := s.flights.filter fun (f : Flight) => !hit f.line
    l2 := s.l2.filter fun (e : L2Line) => !hit e.line
    mismatch := s.mismatch.filter fun l => !hit l
    lostUnits := s.lostUnits.filter fun u => match u with
      | .memory k => !hit (k / 4)
      | .l2 k => !hit (k / 16)
      | _ => true
    cores := s.cores.map fun (x : Nat × Core) => (x.1, { x.2 with l1 := x.2.l1.filter fun (e : L1Line) => !hit e.line }) }

/-- What is left of a range without the bytes from `lo` up to `hi`. -/
def trimRange (lo hi : Nat) (x : Nat × Nat) : List (Nat × Nat) :=
  [(x.1, min x.2 lo), (max x.1 hi, x.2)].filter fun y => decide (y.1 < y.2)

/-- A new window takes its device range: what another tenant's window covered before it was revoked reads as zero in it (R376), and the
range is stale no more. -/
def State.clearRevoked (s : State) (t : Nat) (w : Window) : State :=
  let s := (s.tenants.filter fun a => a.id != t).foldl (fun (s : State) a =>
    a.stale.foldl (fun (s : State) x =>
      let lo := max x.1 w.dbase
      let hi := min x.2 (w.dbase + w.size)
      if lo < hi then s.clearRange lo (hi - lo) else s) s) s
  { s with tenants := s.tenants.map fun a => { a with stale := a.stale.flatMap (trimRange w.dbase (w.dbase + w.size)) } }

/-- The registers of the initial register block, in its order (R431). -/
def blockRegs : List Nat := [0x101, 0x102, 0x103, 0x104, 0x106, 0x180, 0x181, 0x182, 0x184, 0x185]

/-- Whether a block is legal (R431). -/
def regBlockOk (b : RegBlock) : Bool :=
  decide (b.given < 2 ^ 10) && blockRegs.zipIdx.all fun (n, i) =>
    bitOf b.given i == 0 || decide ((b.words[i]?).getD 0 < 2 ^ 64) && ctlLegal n (BitVec.ofNat 64 ((b.words[i]?).getD 0))

/-- A tenant with the given words of a block in its registers (R431). -/
def regBlockApply (b : RegBlock) (t : Tenant) : Tenant :=
  blockRegs.zipIdx.foldl (fun (t : Tenant) (n, i) =>
    if bitOf b.given i = 1 then t.setReg n (BitVec.ofNat 64 ((b.words[i]?).getD 0)) else t) t

/-- The bytes of a window record (R382). -/
def windowBytes (w : Window) : List Byte :=
  toBytes 8 w.tbase ++ toBytes 8 w.size ++ toBytes 8 w.dbase ++ toBytes 1 w.perm ++ toBytes 1 w.kind ++ toBytes 6 w.zero

/-- The operands of a create-tenant request as they are signed; the order is log 25. -/
def tenantReqBytes (r : TenantReq) : List Byte :=
  toBytes 2 r.cores.length ++ r.cores.flatMap (toBytes 2) ++ toBytes 2 r.wayMask ++ toBytes 1 r.groups.length ++
  r.groups.flatMap (toBytes 1) ++ toBytes 2 r.capSlots ++ toBytes 1 r.windows.length ++ r.windows.flatMap windowBytes ++
  toBytes 4 r.l1Kib ++ toBytes 8 r.spbase ++ toBytes 8 (if r.mustSign then 1 else 0) ++ toBytes 1 r.endpoints ++
  toBytes 8 r.regs.given ++ r.regs.words.flatMap (toBytes 8) ++ toBytes 8 r.key.1.toNat ++ r.key.2 ++ toBytes 8 r.pool.toNat

/-- Whether a list has no repeats and every entry is below a bound. -/
def distinctBelow (n : Nat) (xs : List Nat) : Bool := xs.eraseDups.length == xs.length && xs.all fun x => decide (x < n)

/-- Whether windows of one list may stand together (R382). -/
def State.windowsFree (s : State) (t : Nat) (groups : List Nat) : List Window → List Window → Bool
  | [], _ => true
  | w :: ws, own => s.windowFree t groups own w && State.windowsFree s t groups ws (w :: own)

/-- Whether a tenant may be created with these resources (R166, R374, R382, R431). -/
def State.tenantOk (s : State) (t : Nat) (r : TenantReq) : Bool :=
  let apart := fun (f : Tenant → Nat) x => s.tenants.all fun a => Nat.land (f a) x == 0
  (findTenant t s.tenants).isNone && decide (t < 16) &&
  distinctBelow Config.cores r.cores && !r.cores.isEmpty &&
  (r.cores.all fun k => !(s.core k).stopped && s.tenants.all fun a => !a.cores.contains k) &&
  decide (0 < r.wayMask) && decide (r.wayMask < 2 ^ 16) && apart (·.wayMask) r.wayMask &&
  distinctBelow 16 r.groups && !r.groups.isEmpty && (r.groups.all fun g => s.tenants.all fun a => !a.groups.contains g) &&
  decide (0 < r.capSlots) && decide (r.capSlots < 2 ^ 16) && apart (·.capSlots) r.capSlots &&
  decide (r.windows.length ≤ 16) && s.windowsFree t r.groups r.windows [] &&
  [512, 1024, 1536, 2048].contains r.l1Kib && r.spbase % 128 == 0 && decide (r.spbase ≤ 4 * 2 ^ 20 - kib r.l1Kib) &&
  decide (1 ≤ r.endpoints) && decide (r.endpoints ≤ 64) && regBlockOk r.regs && r.key.2.length == 32 &&
  isCanonical r.pool && r.pool.toNat % 65536 == 0

/-- Drops the contexts of a set of agents: each is as reset leaves it. -/
def State.dropCtx (s : State) (p : Ctx → Bool) : State :=
  { s with ctx := if p s.ctx then Ctx.reset s.ctx.agent else s.ctx, others := s.others.filter fun c => !p c }

/-- A new tenant (R374, R376, R431): its cores cleared with their split, its windows and registers set. -/
def State.addTenant (s : State) (t : Nat) (r : TenantReq) : State :=
  let a : Tenant :=
    { id := t, cores := r.cores, wayMask := r.wayMask, groups := r.groups, capSlots := r.capSlots
      windows := r.windows.zipIdx.map fun (w, i) => (i, w)
      mustSign := r.mustSign, endpoints := r.endpoints, keys := [r.key], pool := r.pool, spbase := BitVec.ofNat 64 r.spbase }
  let s := r.windows.foldl (fun (s : State) w => s.clearRevoked t w) s
  let s := r.cores.foldl (fun (s : State) k => s.setCore k { Core.reset with l1Kib := r.l1Kib }) s
  let s := s.dropCtx fun c => match c.agent with
    | .ctx id => decide (id < Config.contexts) && r.cores.contains (id / 8)
    | .handler _ _ _ => false
  { s with tenants := s.tenants ++ [regBlockApply r.regs a] }

/-- CREATE_TENANT (R374). -/
def execCreateTenant (h : MgmtHeader) (r : TenantReq) (s : State) : Result :=
  s.request 0x0001 h .operator (tenantReqBytes r) fun s =>
    if s.tenantOk h.tenant r then some ((s.addTenant h.tenant r).extend 2 (sha256 (tenantReqBytes r)), []) else none

/-- A launch ends QUEUEGONE with whatever it still had to do (R350, R376). -/
def State.endLaunch (s : State) (t id : Nat) : State :=
  (s.mapLaunch t id fun l =>
    { l with outcome := 3, state := .draining, ranges := [], extra := [], listGone := true, running := 0 }).launchDone t id

/-- The end of a tenant (R376, R420): its tasks end with QUEUEGONE, its launches end, its queues are OFF, its chains go, and what its
resources held is cleared. -/
def State.removeTenant (s : State) (t : Nat) : State :=
  let a := s.tenant t
  let mine := fun c : Ctx => (match c.task with
    | some k => k.tenant == t
    | none => false)
  let s := ((s.allCtx.filter fun c => mine c && (coreOf c.agent).isSome).map (·.agent)).foldl (fun (s : State) g =>
    let c := s.getCtx g
    s.fatal g { cause := causeCode .queuegone, pc := c.instrPc, elem := 0, addr := 0, rule := noRule, tstat := c.tstat
                rpc := c.instrPc }) s
  let s := ((s.tenant t).launches.map (·.id)).foldl (fun (s : State) id => s.endLaunch t id) s
  let s := a.queues.foldl (fun (s : State) q => if q.mapped then s.unmapQueue t q.number else s) s
  let s := s.dropCtx fun c => match c.agent with
    | .ctx id => if id < Config.contexts then a.cores.contains (id / 8) else c.task.isNone
    | .handler ten _ _ => ten == t
  let s := a.cores.foldl (fun (s : State) k => s.setCore k { Core.reset with stopped := (s.core k).stopped }) s
  let s := { s with
    tenants := s.tenants.filter fun x => x.id != t
    chains := s.chains.filter fun (c : Chain) => c.tenant != t
    lists := s.lists.filter fun x => x.1 != t
    flights := s.flights.filter fun (f : Flight) => f.tenant != t
    ioTlb := s.ioTlb.map fun c => c.drop (fun e => e.tenant == t) (fun e => e.tenant == t)
    lostUnits := s.lostUnits.filter fun u => match u with
      | .memory _ | .l2 _ => true
      | .scratch k _ | .cell k _ | .weight k _ _ => !a.cores.contains k
      | .register g _ | .rule g _ => match g with
        | .ctx id => !a.cores.contains (id / 8)
        | .handler ten _ _ => ten != t }
  (a.windows.map (fun x => (x.2.dbase, x.2.dbase + x.2.size)) ++ a.stale).foldl (fun (s : State) x => s.clearRange x.1 (x.2 - x.1)) s

/-- DESTROY_TENANT (R376). -/
def execDestroyTenant (h : MgmtHeader) (s : State) : Result :=
  s.request 0x0002 h .operator [] fun s => if (findTenant h.tenant s.tenants).isSome then some (s.removeTenant h.tenant, []) else none

/-- A window is set, or revoked (R350, R382). -/
def Tenant.putWindow (a : Tenant) (index : Nat) (w : Option Window) : Tenant :=
  let old := (lookup? index a.windows).toList
  let rest := a.windows.filter fun x => x.1 != index
  { a with
    windows := match w with
      | some w => rest ++ [(index, w)]
      | none => rest
    revoked := a.revoked ++ old
    stale := a.stale ++ old.map fun x => (x.dbase, x.dbase + x.size) }

/-- A window of a tenant is set or revoked. The translation caches lose the results that the old one gave (R350, R384). -/
def State.putWindow (s : State) (t index : Nat) (w : Option Window) : State :=
  let old := lookup? index (s.tenant t).windows
  let s := s.mapTenant t fun a => a.putWindow index w
  let s := s.dropTlb (fun e => e.tenant == t && old.isSome && e.window == old) fun _ => false
  match w with
  | some w => s.clearRevoked t w
  | none => s

/-- SET_WINDOW (R382): an all-zero record revokes. -/
def execSetWindow (h : MgmtHeader) (index : Nat) (w : Option Window) (s : State) : Result :=
  s.request 0x0003 h .operator (toBytes 1 index ++ (w.map windowBytes).getD (List.replicate 32 0)) fun s =>
    let a := s.tenant h.tenant
    let own := (a.windows.filter fun x => x.1 != index).map (·.2)
    if (findTenant h.tenant s.tenants).isNone ∨ 16 ≤ index then none
    else
      match w with
      | none => some (s.putWindow h.tenant index none, [])
      | some w => if s.windowFree h.tenant a.groups own w then some (s.putWindow h.tenant index (some w), []) else none

/-! ## Queues -/

/-- The bytes of a queue's record (R327). -/
def queueReqBytes (r : QueueReq) : List Byte :=
  toBytes 8 r.base ++ toBytes 1 r.lslots ++ toBytes 1 r.kind ++ toBytes 1 r.fvec ++ toBytes 5 r.zero ++ toBytes 8 r.notify

/-- Whether a queue's record is legal (R327). -/
def queueReqOk (r : QueueReq) : Bool :=
  r.base % 128 == 0 && decide (r.base < 2 ^ 64) && decide (1 ≤ r.lslots) && decide (r.lslots ≤ 16) && decide (r.kind < 2) &&
  decide (r.fvec < 256) && r.zero == 0 && r.notify % 8 == 0 && decide (r.notify < 2 ^ 64)

/-- A queue as its configuration leaves it (R330). -/
def queueOf (r : QueueReq) (number : Nat) : Queue :=
  { number := number, base := BitVec.ofNat 64 r.base, lslots := r.lslots, device := r.kind == 1, fvec := r.fvec
    notify := BitVec.ofNat 64 r.notify, state := .idle, consumed := 0, produced := 0, mapped := false, kicked := 0 }

/-- CONFIGURE_QUEUE (R327): a queue that is configured already is refused. -/
def execConfigureQueue (h : MgmtHeader) (queue : Nat) (r : QueueReq) (s : State) : Result :=
  s.request 0x0010 h .tenant (toBytes 8 queue ++ queueReqBytes r) fun s =>
    let busy := ((s.queue h.tenant queue).map fun q => decide (q.state ≠ .off)).getD false
    if queue < 64 && queueReqOk r && !busy then
      some (s.mapTenant h.tenant fun a => { a with queues := (a.queues.filter fun q => q.number != queue) ++ [queueOf r queue] }, [])
    else none

/-- DESTROY_QUEUE (R330, R350). -/
def execDestroyQueue (h : MgmtHeader) (queue : Nat) (s : State) : Result :=
  s.request 0x0011 h .tenant (toBytes 8 queue) fun s =>
    match s.queue h.tenant queue with
    | none => none
    | some q => if q.state = .off then none else
      some ((s.takeSlot h.tenant queue).mapQueue h.tenant queue fun x => { x with state := .drain }, [])

/-! ## Chains -/

/-- The bytes of a chain's record (R353). -/
def chainReqBytes (r : ChainReq) : List Byte :=
  toBytes 2 r.slice ++ toBytes 1 r.first ++ toBytes 1 r.rods ++ toBytes 1 r.fvec ++ toBytes 3 r.zero ++ r.tags.flatMap (toBytes 8)

/-- Whether a chain may be built (R353): its record, its rods, and at most one chain of a tenant on a slice. -/
def State.chainOk (s : State) (t : Nat) (r : ChainReq) : Bool :=
  decide (r.slice < Config.slices) && [1, 2, 4, 8, 16].contains r.rods && r.first % r.rods == 0 && decide (r.first < 16) &&
  decide (r.fvec < 256) && r.zero == 0 && r.tags.length == 8 && (r.tags.all fun a => a % 4 == 0 && decide (a < 2 ^ 64)) &&
  !s.diesLost.contains (r.slice / 48) &&
  s.chains.all fun c => c.slice != r.slice || c.tenant != t && !meets r.first r.rods c.first c.rods

/-- BUILD_CHAIN (R353). -/
def execBuildChain (h : MgmtHeader) (r : ChainReq) (s : State) : Result :=
  s.request 0x0020 h .tenant (chainReqBytes r) fun s =>
    if s.chainOk h.tenant r then
      some ({ s with chains := s.chains ++ [{ tenant := h.tenant, slice := r.slice, first := r.first, rods := r.rods, fvec := r.fvec
                                              tags := r.tags.map (BitVec.ofNat 64) }] }, [])
    else none

/-- A chain is freed with its handlers and its messages (R390, R424). -/
def State.dropChain (s : State) (t slice : Nat) : State :=
  ({ s with chains := s.chains.filter fun (c : Chain) => !(c.tenant == t && c.slice == slice) } : State).dropCtx fun c =>
    isHandlerOf t slice c.agent

/-- FREE_CHAIN (R390). -/
def execFreeChain (h : MgmtHeader) (slice : Nat) (s : State) : Result :=
  s.request 0x0021 h .tenant (toBytes 8 slice) fun s =>
    if (s.chainOn h.tenant slice).isSome then some (s.dropChain h.tenant slice, []) else none

/-- A stopped handler goes on where it stopped (R362). -/
def Ctx.goOn (c : Ctx) : Ctx := if c.hold = .stopped then { c with hold := .stall } else c

/-- A faulted chain resumes (R362): its faulting handler starts again on the same message, or loses it. -/
def State.resumeChain (s : State) (c : Chain) (retry : Bool) : State :=
  let tag := (c.fault.map (·.1)).getD 0
  let g := Agent.handler c.tenant c.slice tag
  let s := s.mapChain c.tenant c.slice fun c => { c with faulted := false, fault := none }
  let s := s.mapHandlers c.tenant c.slice Ctx.goOn
  let again := match (s.getCtx g).message, c.tags[tag]? with
    | some m, some entry => if retry then (s.getCtx g).serve c.tenant tag entry m else { Ctx.reset g with seq := (s.getCtx g).seq }
    | _, _ => Ctx.reset g
  s.setCtx again

/-- RETRY_CHAIN (R362). -/
def execRetryChain (h : MgmtHeader) (slice : Nat) (s : State) : Result :=
  s.request 0x0022 h .tenant (toBytes 8 slice) fun s =>
    match s.chainOn h.tenant slice with
    | some c => if c.faulted then some (s.resumeChain c true, []) else none
    | none => none

/-- DISCARD_MESSAGE (R362). -/
def execDiscardMessage (h : MgmtHeader) (slice : Nat) (s : State) : Result :=
  s.request 0x0023 h .tenant (toBytes 8 slice) fun s =>
    match s.chainOn h.tenant slice with
    | some c => if c.faulted then some (s.resumeChain c false, []) else none
    | none => none

/-! ## Keys and endpoints -/

/-- REGISTER_KEY (R390): at most 8 keys; a key id names one key. -/
def execRegisterKey (h : MgmtHeader) (id : Word) (key : List Byte) (s : State) : Result :=
  s.request 0x0030 h .tenant (toBytes 8 id.toNat ++ key) fun s =>
    let others := (s.tenant h.tenant).keys.filter fun k => k.1 != id
    if key.length = 32 && decide (others.length < 8) then
      some (s.mapTenant h.tenant fun a => { a with keys := others ++ [(id, key)] }, [])
    else none

/-- REMOVE_KEY (R390). -/
def execRemoveKey (h : MgmtHeader) (id : Word) (s : State) : Result :=
  s.request 0x0031 h .tenant (toBytes 8 id.toNat) fun s =>
    if (s.tenant h.tenant).keys.any fun k => k.1 == id then
      some (s.mapTenant h.tenant fun a => { a with keys := a.keys.filter fun k => k.1 != id }, [])
    else none

/-- CONFIGURE_ENDPOINT (R374, R390): an index below the tenant's endpoints, bound to one of the eight ports. -/
def execConfigureEndpoint (h : MgmtHeader) (index port : Nat) (uet : List Byte) (s : State) : Result :=
  s.request 0x0040 h .tenant (toBytes 8 index ++ toBytes 8 port ++ uet) fun s =>
    if index < (s.tenant h.tenant).endpoints && decide (index < 64) && decide (port < 8) then
      some (s.mapTenant h.tenant fun a => { a with ports := (a.ports.filter fun p => p.1 != index) ++ [(index, port, uet)] }, [])
    else none

/-! ## Microcode bundles -/

/-- Bytes of a signature (R23). -/
def sigBytes : Nat := 7856

/-- A directory entry from its 16 bytes (R93); its entry offset counts from the start of the routine area (DESIGN CHOICE, log 15). -/
def microEntry (e : List Byte) : MicroEntry :=
  { major := numAt e 0 1, fmt := numAt e 1 1, mask := numAt e 4 4, value := numAt e 8 4, entry := numAt e 12 2 / 4, words := numAt e 14 2 }

/-- Whether a directory entry keeps the layout of R93; its reserved bytes are ignored (R6), and one whose words reach past the routine area
does not keep it (DESIGN CHOICE, log 15). -/
def microOk (e : List Byte) (area : Nat) : Bool :=
  decide (0x3A ≤ numAt e 0 1) && decide (numAt e 0 1 ≤ 0x3F) && decide (numAt e 1 1 ≤ 13) &&
  decide (numAt e 4 4 < 2 ^ 26) && decide (numAt e 8 4 < 2 ^ 26) && numAt e 12 2 % 4 == 0 &&
  decide (numAt e 12 2 + 4 * numAt e 14 2 ≤ area)

/-- A bundle from its bytes (R93): none where it breaks its layout, excludes stepping B0, or its signature fails. Flag bits 15:1 and a
routine area that is no whole number of words break the layout (DESIGN CHOICE, log 15: R93 names no fate of theirs). -/
def parseBundle (bs : List Byte) : Option Bundle :=
  let n := numAt bs 12 2
  let area := numAt bs 16 4
  let body := 64 + 16 * n + area
  let entries := (List.range n).map fun i => (bs.drop (64 + 16 * i)).take 16
  let names := ((List.range 4).map fun i => numAt bs (20 + 8 * i) 8).filter (· != 0)
  if bs.take 4 = [0x57, 0x4D, 0x43, 0x01] && bitOf (numAt bs 8 4) 2 == 1 && decide (n ≤ 256) &&
      decide (numAt bs 14 2 < 2) && area % 4 == 0 && numAt bs 52 12 == 0 && decide (16 * n + area ≤ 16384) &&
      bs.length == body + sigBytes && (entries.all fun e => microOk e area) &&
      Config.sigValid Config.vendorKey (bs.take body) (bs.drop body) then
    some { id := numAt bs 4 4, entries := entries.map microEntry, presents := names, twins := numAt bs 14 2 == 1
           code := (List.range (area / 4)).map fun i => BitVec.ofNat 32 (numAt bs (64 + 16 * n + 4 * i) 4) }
  else none

/-- LOAD_MICROCODE_BUNDLE (R93, R391): a bundle that passes waits for its moment; a newer one takes its place. -/
def execLoadMicrocodeBundle (h : MgmtHeader) (bundle : List Byte) (s : State) : Result :=
  s.request 0x0050 h .operator bundle fun s =>
    (parseBundle bundle).map fun b => (({ s with newBundle := some b } : State).extend 1 (sha256 bundle), [])

/-- Whether a bundle may be replaced (R53): no task runs, and no image records a position inside a routine. -/
def State.microcodeIdle (s : State) : Bool :=
  s.allCtx.all fun c => !(c.isRunning && (coreOf c.agent).isSome) && c.routine.isNone && c.userRtn.isNone && c.hndRtn.isNone

/-- MICROCODE_INSTALL (R53, R92). -/
def execMicrocodeInstall (s : State) : Result :=
  match s.newBundle with
  | some b => done (if s.microcodeIdle then { s with bundle := b, newBundle := none, classes := acceptedFor b } else s)
  | none => done s

/-- READ_ACCEPTED_CLASSES (R92). -/
def execReadAcceptedClasses (h : MgmtHeader) (s : State) : Result :=
  s.request 0x0051 h .either [] fun s => some (s, classBytes s.classes)

/-- The stepping as a report names it: B0. -/
def steppingBytes : List Byte := [0x42, 0x30]

/-- The attestation report (R392). -/
def State.report (s : State) (nonce : List Byte) : List Byte :=
  nonce ++ s.measures.toList.flatMap (fun m => m) ++ classBytes s.classes ++ steppingBytes ++ Config.serialNumber

/-- ATTEST (R392). -/
def execAttest (h : MgmtHeader) (nonce : List Byte) (s : State) : Result :=
  s.request 0x0060 h .either nonce fun s =>
    if nonce.length = 32 then some (s, s.report nonce ++ Config.identitySign (s.report nonce)) else none

end Sys2Proof.Machine
end

