-- ==== Sys2Proof/Machine/Boot.lean ====
section
/-! DEFINITION. Power-on, time, temperature and supplies, and the loss of a compute die (17_isolation.md R391, R393; 01_machine.md
R20; 18_recovery.md R420, R423-R425). -/

namespace Sys2Proof.Machine

/-! ## Power-on, time, temperature, supplies -/

/-- Whether the signature of the flash image passes (R391). -/
def firmwareGood : Bool := Config.sigValid Config.vendorKey Config.flashImage Config.flashSignature

/-- POWER_ON (R391, R420): the machine as reset leaves it; firmware that passes its check is measured and run. -/
def execPowerOn (s : State) : Result :=
  let t := { State.reset with moves := s.moves, out := s.out, linkUp := s.linkUp }
  if firmwareGood then
    done { t.extend 0 (sha256 Config.flashImage) with firmware := true, classes := acceptedFor t.bundle }
  else done t

/-- TIME_BASE_SYNC (R20). -/
def execTimeBaseSync (ns : Word) (s : State) : Result := done { s with now := ns }

/-- THERMAL_CLOCK_STEP (R393): the clock of the die falls by 100 MHz, and each tenant with a core on it gets a management interrupt
(R389). -/
def execThermalClockStep (die : Nat) (s : State) : Result :=
  let s := { s with clockSteps := s.clockSteps.setIfInBounds die ((s.clockSteps.toList[die]?).getD 0 + 1) }
  let told := s.tenants.filter fun a => a.cores.any fun k => k / 48 == die
  done (told.foldl (fun (s : State) a => s.interrupt a.id a.rvec.toNat 4 0 0) s)

/-- RAIL_OUT_OF_RANGE (R393). -/
def execRailOutOfRange (inRange : Bool) (s : State) : Result := done { s with linkUp := inRange }

/-! ## The loss of a compute die -/

/-- The die that a context stands on; a stored task with scratchpad bytes stands on that of its core (R418). -/
def Ctx.dieOf (c : Ctx) : Option Nat :=
  match c.agent with
  | .handler _ slice _ => some (slice / 48)
  | .ctx id =>
    if id < Config.contexts then some (id / 384)
    else if (c.task.map (·.scratch)).getD 0 = 0 then none else some (c.origin / 384)

/-- The home slice of entry i of HomeMap. -/
def State.homeEntry (s : State) (i : Nat) : Nat := (lookup? i s.homeMap).getD (i % Config.slices)

/-- Entries of HomeMap from i on that name a lost slice get the surviving slices in ascending order, wrapping round (R169). -/
def rehome (lost : Nat → Bool) (alive : List Nat) (entry : Nat → Nat) : Nat → Nat → Nat → List (Nat × Nat)
  | 0, _, _ => []
  | left + 1, i, n =>
    if lost (entry i) then (i, nth alive (n % alive.length)) :: rehome lost alive entry left (i + 1) (n + 1)
    else
      let rest := rehome lost alive entry left (i + 1) n
      if entry i = i % Config.slices then rest else (i, entry i) :: rest

/-- Which slices are on a die. -/
def onDie (d slice : Nat) : Bool := slice / 48 == d

/-- HomeMap after the loss of die d. -/
def State.newHomeMap (s : State) (d : Nat) : List (Nat × Nat) :=
  let alive := (List.range Config.slices).filter fun n => !onDie d n && !s.diesLost.contains (n / 48)
  if alive.isEmpty then s.homeMap else rehome (onDie d) alive s.homeEntry Config.homeEntries 0 0

/-- The TPA of a device address in a tenant's windows, its revoked ones last. -/
def Tenant.tpaOf (a : Tenant) (pa : Nat) : Nat :=
  match (a.windows.map (·.2) ++ a.revoked).find? fun w => decide (w.dbase ≤ pa) && decide (pa < w.dbase + w.size) with
  | some w => w.tbase + (pa - w.dbase)
  | none => pa

/-- Lines in rising order as runs: first line and length in lines. -/
def runsOf : List Nat → List (Nat × Nat)
  | [] => []
  | l :: ls =>
    match runsOf ls with
    | (m, n) :: rest => if m = l + 1 then (l, n + 1) :: rest else (l, 1) :: (m, n) :: rest
    | [] => [(l, 1)]

/-- A number put into its place in rising order. -/
def insertNat (n : Nat) : List Nat → List Nat
  | [] => [n]
  | x :: xs => if n ≤ x then n :: x :: xs else x :: insertNat n xs

/-- A lost range is reported to a tenant (R406, R423). -/
def State.logRange (s : State) (d t tpa len : Nat) : State :=
  s.logEvent t { kind := 2, die := d, body := [BitVec.ofNat 64 tpa, BitVec.ofNat 64 len] }

/-- R423 step 3: HomeMap, the lines of the lost slices, and the stores that they had not acknowledged: those of surviving contexts are
sent again, those of the lost die's contexts are gone where a lost slice had them, or none. -/
def State.rehomeLines (s : State) (d : Nat) : State :=
  let gone := s.l2.filter fun e => onDie d (s.homeSlice e.line)
  let isGone := fun line => gone.any fun e => e.line == line
  let toHome := fun (f : Flight) =>
    if f.stage = .toBuffer && onDie d (s.homeSlice f.line) then { f with stage := Stage.toHome } else f
  let t := { s with
    homeMap := s.newHomeMap d
    l2 := s.l2.filter fun (e : L2Line) => !isGone e.line
    cores := s.cores.map fun (x : Nat × Core) => (x.1, { x.2 with l1 := x.2.l1.filter fun (e : L1Line) => !isGone e.line })
    flights := (s.flights.filter fun (f : Flight) =>
      !((decide (f.stage = .toHome ∨ f.stage = .queued) || decide (f.stage = .toBuffer) && onDie d (s.homeSlice f.line)) &&
        decide ((s.getCtx f.agent).dieOf = some d))).map toHome }
  s.tenants.foldl (fun (t : State) a =>
    let lines := ((gone.filter fun e => e.dirty && e.owner == a.id).map (·.line)).foldl (fun ls l => insertNat l ls) []
    (runsOf lines).foldl (fun (t : State) r => t.logRange d a.id (a.tpaOf (128 * r.1)) (128 * r.2)) t) t

/-- The frame of a task that ends because its die is lost (R423 step 4). -/
def Ctx.lostFrame (c : Ctx) : TrapFrame :=
  { cause := causeCode .dataloss, pc := c.instrPc, elem := 0, addr := 0, rule := noRule, tstat := c.tstat, rpc := c.instrPc }

/-- One task of the lost die (R423 step 4, R424): again from its start where its launch is idempotent and no gang, else fatal. -/
def State.loseTask (s : State) (g : Agent) : State :=
  let c := s.getCtx g
  match c.task with
  | none => s
  | some k =>
    match s.launchOf k with
    | some l =>
      if l.flag 1 && !l.flag 4 then
        (((s.setCtx c.emptied).renegotiateEnd g).freeTiles g).mapLaunch k.tenant k.launch fun l =>
          { l with running := l.running - 1, state := if l.state = .draining then .ready else l.state
                   extra := l.extra ++ [(4, k.ticket.toNat, k.ticket.toNat + 1)] }
      else
        let s := if l.flag 4 then s.mapLaunch k.tenant k.launch fun l =>
            { l with dead := true, outcome := if l.outcome = 1 || l.outcome = 3 then l.outcome else 2
                     ranges := [], extra := [], listGone := true }
          else s
        s.fatal g c.lostFrame
    | none => s.fatal g c.lostFrame

/-- The tickets that the lost die still had pass to the surviving dies, split as R335 gives (R423 step 4). -/
def State.passTickets (s : State) (d : Nat) : State :=
  s.tenants.foldl (fun (s : State) a =>
    let cores := a.cores.filter fun k => !(s.core k).stopped
    let split := fun lo hi => ((splitTickets (hi - lo) cores).zipIdx.filter fun x => decide (x.1.1 < x.1.2)).map
      fun x => (x.2, lo + x.1.1, lo + x.1.2)
    if cores.isEmpty then s else
    a.launches.foldl (fun (s : State) x => s.mapLaunch a.id x.id fun l =>
      let r := (l.ranges[d]?).getD (0, 0)
      let mine := l.extra.filter fun e => e.1 == d
      { l with ranges := l.ranges.set d (r.2, r.2)
               extra := (l.extra.filter fun e => e.1 != d) ++ (split r.1 r.2 ++ mine.flatMap fun e => split e.2.1 e.2.2) }) s) s

/-- Chains on lost slices are freed, and the interrupt reports DATALOSS (R424). -/
def State.loseChains (s : State) (d : Nat) : State :=
  (s.chains.filter fun c => onDie d c.slice).foldl (fun (s : State) c =>
    (s.reportChain c 0 .dataloss 0 0 []).dropChain c.tenant c.slice) s

/-- The launches of a tenant that a lost work list feeds end FAILED (R424). -/
def State.failFed (s : State) (t line : Nat) : State :=
  let fed := fun (l : Launch) => l.fromList &&
    match s.translate deviceDie t .load true (BitVec.ofNat 64 (l.field 0x28 8)) with
    | .ok p => p.pa / 128 == line
    | .error _ => false
  ((s.tenant t).launches.filter fed).foldl (fun (s : State) l =>
    (s.mapLaunch t l.id fun l =>
      { l with listGone := true, state := .draining, ranges := [], extra := []
               outcome := if l.outcome = 1 || l.outcome = 3 then l.outcome else 2 }).advanceLaunch t l.id) s

/-- Work lists homed on lost slices are lost; `lost` are those (R424). -/
def State.loseLists (s : State) (d : Nat) (lost : List (Nat × Nat)) : State :=
  lost.foldl (fun (s : State) x =>
    let s := { s with lists := s.lists.map fun (y : Nat × Nat × Bool) => if y.1 = x.1 && y.2.1 == x.2 then (y.1, y.2.1, true) else y }
    (s.logRange d x.1 ((s.tenant x.1).tpaOf (128 * x.2)) 128).failFed x.1 x.2) s

/-- The rank entry of a collective's own endpoint (R367). -/
def Rule.ownRank (r : Rule) : Nat := nth r.eng.header (14 + nth r.eng.header 13)

/-- A collective with one of the given ranks that is not ending already ends PEERLOST (R370, R424). -/
def Rule.losesPeer (ranks : List Nat) (r : Rule) : Rule :=
  if r.collStands && decide (r.eng.phase < 4) && (r.eng.header.drop 14).any ranks.contains then r.collDoom 1 else r

/-- Every collective with one of the given ranks ends PEERLOST (R370, R424). -/
def State.losePeers (s : State) (ranks : List Nat) : State :=
  let lose := fun (c : Ctx) => { c with rules := c.rules.map (Rule.losesPeer ranks) }
  { s with ctx := lose s.ctx, others := s.others.map lose }

/-- Whether a call that has taken its number is that of a rule. -/
def Made.names (m : Made) (r : Rule) : Bool :=
  decide (m.endpoint = nth r.eng.header 9) && decide (m.call.head? = some r.eng.call)

/-- The calls of some contexts that have taken their number and are not complete are lost with their die (R370, R424). -/
def State.loseCalls (s : State) (cs : List Ctx) : State :=
  cs.foldl (fun (s : State) c => ((c.rules.filter Rule.collStands).filter fun r => decide (3 ≤ r.eng.phase)).foldl (fun (s : State) r =>
    let lose := fun (m : Made) => if m.names r then { m with lost := true } else m
    s.mapTenant (s.tenantOf c.agent) fun a => { a with made := a.made.map lose }) s) s

/-- The live-expert table of a tenant (R425): the bits of experts whose home is the lost die, then the version. -/
def State.updateTable (s : State) (d t : Nat) : State :=
  let a := (s.tenant t).xmask
  if a = 0 then s else
  match s.deviceReadSpan t false a 40 0x1210 with
  | .error _ => s
  | .ok bs =>
    let n := ofBytes ((bs.drop 8).take 4)
    if n = 0 ∨ 4096 < n then s
    else
      let live := ofBytes ((bs.drop 0x10).take 512)
      let lost := ((bs.drop 0x210).take n).zipIdx.foldl (fun (m : Nat) (h, e) => if h.toNat = d then m ||| 2 ^ e else m) 0
      let put := fun (s : State) va bytes => match s.deviceWriteSpan t false va 8 bytes with
        | .ok s => s
        | .error (_, s) => s
      put (put s (a + 0x10) (toBytes 512 (live ^^^ (live &&& lost)))) a (toBytes 8 (ofBytes (bs.take 8) + 1))

/-- DIE_LOSS (R423-R425). A die that is lost already, or that the package does not have, changes nothing. -/
def execDieLoss (die : Nat) (s : State) : Result :=
  if 4 ≤ die ∨ s.diesLost.contains die then done s
  else
    let lists := (s.lists.filter fun x => onDie die (s.homeSlice x.2.1)).map fun x => (x.1, x.2.1)
    let s := (List.range 48).foldl (fun (s : State) i => s.mapCore (48 * die + i) fun k => { k with stopped := true }) s
    let s := s.rehomeLines die
    let s := { s with diesLost := s.diesLost ++ [die] }
    let there := s.allCtx.filter fun c => decide (c.dieOf = some die)
    let ranks := there.flatMap fun c => (c.rules.filter Rule.collStands).map Rule.ownRank
    let s := (s.loseCalls there).loseChains die
    let s := (there.filter fun c => (coreOf c.agent).isSome).foldl (fun (s : State) c => s.loseTask c.agent) s
    let s := s.dropCtx fun c => decide (c.dieOf = some die)
    let s := s.passTickets die
    let s := s.loseLists die lists
    let s := s.losePeers ranks
    let s := s.tenants.foldl (fun (s : State) a =>
      ((s.updateTable die a.id).logEvent a.id { kind := 3, die := die })) s
    done (s.tenants.foldl (fun (s : State) a => a.launches.foldl (fun (s : State) l => s.advanceLaunch a.id l.id) s) s)

end Sys2Proof.Machine
end

