-- ==== Sys2Proof/Machine/Events.lean ====
section
/-! DEFINITION. The events of the rule window, the memory hierarchy, the engines and the fabric (95_what_each_step_holds.md): each
one as the agenda may name it, and without effect where it may not come about in the state. -/

namespace Sys2Proof.Machine

/-! ## The rule window -/

/-- One attempt at element e of the k-th rule of an agent, and the retirement that follows from it (R110). -/
def State.fireElement (s : State) (g : Agent) (k e : Nat) : State :=
  match s.ruleAt g k with
  | none => s
  | some r => ((s.attempt g (s.olderTo g k r) k e).2).retire g

/-- ELEMENT_FIRE (R110, R112, R113): oldest first within a span (R338). -/
def execElementFire (g : Agent) (k e : Nat) (s : State) : Result :=
  let first := match s.ruleAt g k with
    | none => true
    | some r => ((workOf g k r).map fun w => !s.overtakes g k e r w).getD true
  done (if first then s.fireElement g k e else s)

/-- One piece of the work of a rule that `p` accepts, at its element e, once the places that it needs are free of older rules'
work (R110, R112). -/
def State.piece (s : State) (g : Agent) (k e : Nat) (p : Rule → Work → Bool) (f : Rule → Fired) : State :=
  match s.ruleAt g k with
  | none => s
  | some r =>
    match workOf g k r with
    | none => s
    | some w =>
      if (p r w && s.ready g (s.olderTo g k r) k e r w) = false then s
      else
        match f r with
        | .ok t => (t.mapRule g k fun r => (r.sweep w s (w.span e)).finish (w.span e)).retire g
        | .part s | .wait s => s
        | .fault x va s => s.faultAt g k (x, e, va)
        | .whole x va s => s.faultAt g k (x, 0, va)

/-- SPAN_HANDOVER (R123): a former context of a span that has no element mapped onto it left is gone from it; once none is left, the
span is its new owner's alone. -/
def execSpanHandover (core span : Nat) (s : State) : Result :=
  let kept := (((s.core core).former.toList[span]?).getD []).filter fun j => (s.getCtx (.ctx (8 * core + j))).mapsOn span
  done (s.mapCore core fun k => { k with former := k.former.setIfInBounds span kept })

/-- REGISTER_LINE_FILL (R118, R120): of a line that an element needs which may fire (R128). -/
def execRegisterLineFill (g : Agent) (line : Nat) (s : State) : Result :=
  if s.lineWanted g line = false then done s else
  match s.needLine g (s.pinned ((coreOf g).getD 0)) line with
  | .ok s => done s
  | .error _ => done s

/-- TRAP_ENTRY (R396, R402, R403). -/
def execTrapEntry (g : Agent) (s : State) : Result := done (s.takeTrap g)

/-! ## The memory hierarchy -/

/-- The device lines that the elements of an agent which may fire now read, with `writes` those that they write too (R110, R128). -/
def State.elementLines (s : State) (g : Agent) (writes : Bool) : List Nat :=
  s.elementsAsk g fun _ w e may =>
    match if may then w.touch s e else none with
    | some t => if writes then t.rd ++ t.wr else t.rd
    | none => []

/-- The line that a wait reads (R343). -/
def State.waitLine (s : State) (c : Ctx) : List Nat :=
  match c.hold with
  | .memory _ _ _ a => (s.lineOf c.agent .load (c.getX a)).toList
  | _ => []

/-- Whether the front end of a context is to fetch the word at its pc from memory. -/
def Ctx.fetches (c : Ctx) : Bool := c.task.isSome && c.routine.isNone && (decide (c.hold = .run) || decide (c.hold = .stall))

/-- The device line of an address for an access of a context's own. -/
def State.ownLine (s : State) (c : Ctx) (acc : Access) (user : Bool) (va : Word) : List Nat :=
  match s.translate (placeOf c.agent) (s.tenantOf c.agent) acc user va with
  | .ok p => if p.attr = .remote then [] else [p.pa / 128]
  | .error _ => []

/-- The lines of a context's image that hold the register lines which its elements wait for (R118). -/
def State.imageLines (s : State) (c : Ctx) : List Nat :=
  (s.wantedLines c.agent).flatMap fun l =>
    [c.lineAddr l, c.lineAddr l + 128, c.presenceAddr l].flatMap (s.ownLine c .load false)

/-- The contexts of a tenant, with `core` those of a core alone. -/
def State.tenantCtx (s : State) (tenant : Nat) (core : Option Nat) : List Ctx :=
  s.allCtx.filter fun c => s.tenantOf c.agent == tenant && (core.isNone || decide (coreOf c.agent = core))

/-- The lines that a context asks its L1 for: what its elements and its wait read (R128, R167). -/
def State.askedOfL1 (s : State) (c : Ctx) : List Nat := s.elementLines c.agent false ++ s.waitLine c

/-- The lines that a context asks the L2 for: what it asks its L1 for, what its elements write, its next word, and its register lines
(R118, R128, R165, R170). -/
def State.askedOfL2 (s : State) (c : Ctx) : List Nat :=
  s.elementLines c.agent true ++ s.waitLine c ++ (if c.fetches then s.ownLine c .fetch c.user c.pc else []) ++ s.imageLines c

/-- Whether a line is to be filled in a core's L1: a translation of the tenant's names it with that zero-hint (R381), and a context of the
tenant on the core asks for it (R128; log 83). -/
def State.l1Wanted (s : State) (tenant core line : Nat) (zeroHint : Bool) : Bool :=
  s.lineMapped tenant line zeroHint && (s.tenantCtx tenant (some core)).any fun c => (s.askedOfL1 c).contains line

/-- Whether a line is to be filled in the L2 for a tenant (R128, R381; log 83). -/
def State.l2Wanted (s : State) (tenant line : Nat) (zeroHint : Bool) : Bool :=
  s.lineMapped tenant line zeroHint && (s.tenantCtx tenant none).any fun c => (s.askedOfL2 c).contains line

/-- Whether a context asks for the translation of an address (R128; log 83): of its next word, or of a line in the page that it accesses. -/
def State.asksPage (s : State) (c : Ctx) (va : Word) (kind : Access) : Bool :=
  match kind with
  | .fetch => c.fetches && va.toNat / 65536 == c.pc.toNat / 65536
  | _ => (s.ownLine c kind false va).any fun l => (s.elementLines c.agent true ++ s.waitLine c ++ s.imageLines c).any fun x => x / 512 == l / 512

/-- PAGE_WALK_COMPLETE (R384): a walk that an access of a context asks for (R128) and that ends without a fault fills the caches; the fault
of another is raised by the access. -/
def execPageWalkComplete (tenant core : Nat) (va : Word) (kind : Access) (s : State) : Result :=
  done (if (s.tenantCtx tenant (some core)).any fun c => s.asksPage c va kind then s.fillTlb (.core core) tenant kind va else s)

/-- L1_LINE_FILL (R167, R180): of a line that an access asks for, as a zero line where its page has the zero-hint (R381). -/
def execL1LineFill (tenant core line : Nat) (s : State) : Result :=
  done (if s.l1Wanted tenant core line true then s.l1Fill tenant core line true
    else if s.l1Wanted tenant core line false then s.l1Fill tenant core line false
    else s)

/-- HOME_SLICE_STORE (R152, R155, R170). -/
def execHomeSliceStore (k : Nat) (s : State) : Result := done (s.homeSliceStoreAt k)

/-- STORE_ACKNOWLEDGE (R168). -/
def execStoreAcknowledge (k : Nat) (s : State) : Result := done (s.ackStoreAt k)

/-- L2_MISS_FILL (R170, R171): of a line that an access asks for, with the zero-hint of its page (R381). -/
def execL2MissFill (tenant line : Nat) (zeroHint : Bool) (s : State) : Result :=
  done (if s.l2Wanted tenant line zeroHint then s.l2Fill tenant line zeroHint else s)

/-- CAPACITY_STORE_PERFORMED (R161, R312). -/
def execCapacityStorePerformed (k : Nat) (s : State) : Result := done (s.capacityStoreAt k)

/-- Changes the k-th remote access of a context. -/
def State.mapRemote (s : State) (g : Agent) (k : Nat) (f : Remote → Remote) : State :=
  s.mapCtx g fun c => { c with remotes := c.remotes.zipIdx.map fun (r, i) => if i = k then f r else r }

/-- REMOTE_ACCESS_TIMEOUT (R371). -/
def execRemoteAccessTimeout (g : Agent) (k : Nat) (s : State) : Result :=
  done (s.mapRemote g k fun r =>
    if r.answer.isNone && decide (Config.remoteNs ≤ (s.now - r.issued).toNat) then { r with lost := true } else r)

/-- OWNING_DEVICE_ACKNOWLEDGE (R163, R180): the data of a load or the old value of an atomic, or the acknowledgement; a refusal
of the owning device is a loss at the element (R371). -/
def execOwningDeviceAcknowledge (g : Agent) (k : Nat) (ok : Bool) (data : List Byte) (s : State) : Result :=
  done (s.mapRemote g k fun r =>
    if r.answer.isSome || r.lost then r else if ok then { r with answer := some data } else { r with lost := true })

/-! ## Engines -/

/-- The two sides of a copy rule, scratchpad or memory; none for another rule. -/
def Rule.sides (r : Rule) : Option (Bool × Bool) := copySpaces r.instr

/-- COPY_TRANSFER (R215, R216): transfer j, and after the last one the tag (R215). -/
def execCopyTransfer (g : Agent) (k j : Nat) (s : State) : Result :=
  let s := s.piece g k 0 (fun r _ => r.sides.isSome && ((s.getCtx g).mayGo k r.key r.transfersLeft).contains j) fun r =>
    s.transferAt g k r j (r.sides.getD (false, false))
  match s.ruleAt g k with
  | some r => done (if r.sides.isSome && r.transfersLeft.isEmpty then s.fireElement g k 0 else s)
  | none => done s

/-- The scratchpad offset that element or transfer e of a rule reads (R207, R210, R215). -/
def Rule.scratchAt (r : Rule) (e : Nat) : Word :=
  match r.instr with
  | .vspld _ _ _ _ => r.opA + BitVec.ofNat 64 (e * bytesOf r.vtype)
  | .vpld _ _ _ => r.opA
  | _ => r.srcAt e

/-- Whether element or transfer e of a rule is still to be done. -/
def Rule.stillWaits (r : Rule) (e : Nat) : Bool :=
  r.fault.isNone && if r.sides.isSome then r.transfersLeft.contains e else !r.done.getLsbD e

/-- EMPTYWAIT_TIMEOUT (R205, R216): a wait that has lasted its limit, and whose read would still wait, raises EMPTYWAIT. -/
def execEmptywaitTimeout (g : Agent) (k e : Nat) (s : State) : Result :=
  match (s.ruleAt g k).bind fun r => (lookup? e r.eng.waits).map fun since => (r, since) with
  | none => done s
  | some (r, since) =>
    if decide (s.emptyLimit g ≤ (s.now - since).toNat) && r.stillWaits e && !(s.getCtx g).faultBefore k then
      let n := match r.instr with
        | .vspld _ _ _ _ => bytesOf r.vtype
        | .vpld _ _ _ => regionLength (bfpBits r.vtype) (blockOf r.vtype) r.vl
        | _ => transferBytes r.eng.src
      done (if s.scratchWaits g (r.scratchAt e) n then
        s.faultAt g k (.emptywait, if r.sides.isSome then 0 else e, r.scratchAt e) else s)
    else done s

/-- MWL_COMPLETE (R303): the load's last element, which is the one after its columns (R305). -/
def execMwlComplete (g : Agent) (k : Nat) (s : State) : Result :=
  match s.ruleAt g k with
  | some r =>
    match r.instr with
    | .mwl _ _ _ => done (s.fireElement g k (r.opB.toNat / 2 ^ 8 % 128 + 1))
    | _ => done s
  | none => done s

/-- Whether a rule is a spool. -/
def Rule.isSpool (r : Rule) : Bool := match r.instr with
  | .spool _ _ _ => true
  | _ => false

/-- Whether a rule has the partial of a buffer of a bag (R317). -/
def Rule.hasPartial (r : Rule) (bag buffer : Nat) : Bool := r.eng.parts.any fun p => p.bag == bag && p.buffer == buffer

/-- SPOOL_HEADER_READ (R317): the descriptor with the list's head, then the list's offsets. -/
def execSpoolHeaderRead (g : Agent) (k : Nat) (s : State) : Result :=
  match s.ruleAt g k with
  | some r =>
    done (if r.isSpool && decide (r.eng.phase < 2) then s.fireElement g k (((List.range r.vl).find? fun e => !r.done.getLsbD e).getD 0) else s)
  | none => done s

/-- SPOOL_BUFFER_PARTIAL (R318, R319): of a bag whose entries are read. -/
def execSpoolBufferPartial (g : Agent) (k bag buffer : Nat) (s : State) : Result :=
  match (s.ruleAt g k).bind fun r => (r.leader bag).bind fun e => (r.entries bag).map fun es => (e, es) with
  | none => done s
  | some (e, es) =>
    done (s.piece g k e (fun r _ => r.isSpool && decide (2 ≤ r.eng.phase) && decide (buffer < 16) && !r.hasPartial bag buffer) fun r =>
      (s.bufferPartial g k r bag buffer es).atBag g k bag)

/-- SPOOL_BAG_COMPLETE (R318). -/
def execSpoolBagComplete (g : Agent) (k bag : Nat) (s : State) : Result :=
  match s.ruleAt g k with
  | some r =>
    done (if r.isSpool && decide (2 ≤ r.eng.phase) && (List.range 16).all (r.hasPartial bag) then
      ((r.leader bag).map (s.fireElement g k)).getD s else s)
  | none => done s

/-- KVSEL_SCORE_MERGE (R364). -/
def execKvselScoreMerge (g : Agent) (k : Nat) (s : State) : Result :=
  match s.ruleAt g k with
  | some r =>
    match r.instr with
    | .kvsel _ => done (if r.eng.phase = 2 then s.fireElement g k 0 else s)
    | _ => done s
  | none => done s

/-! ## The fabric -/

/-- FSEND_ACCEPT (R358). -/
def execFsendAccept (g : Agent) (k : Nat) (s : State) : Result :=
  match s.ruleAt g k with
  | some r =>
    match r.instr with
    | .fsend _ _ _ => done (s.fireElement g k 0)
    | _ => done s
  | none => done s

/-- HANDLER_START (R354). -/
def execHandlerStart (tenant slice tag : Nat) (s : State) : Result := done (s.startHandler tenant slice tag)

/-- COLL_CHUNK_ARRIVAL (R367, R368, R370): a chunk of a rank on another module, its acknowledgement of ours, or both, for the call of a
number. A call whose fields differ, or a chunk of another length, ends MISMATCH. -/
def execCollChunkArrival (g : Agent) (k peer : Nat) (acked : Bool) (data : CollChunk) (s : State) : Result :=
  match s.ruleAt g k with
  | none => done s
  | some r =>
    if r.collStands = false || r.eng.phase ≠ 3 || nth r.eng.header 12 ≤ peer || peer = nth r.eng.header 13 || isHere (r.rankOf peer) ||
        nth data.call 0 ≠ r.eng.call then done s
    else if data.call ≠ r.callOf || (!data.bytes.isEmpty && decide (data.bytes.length ≠ chunkBytes r.eng.header)) then
      done (s.mapRule g k fun r => r.collEnds 4)
    else done (s.mapRule g k fun r => r.collTakes peer acked data.bytes)

/-- COLL_COMPLETE (R370): once every chunk has arrived and ours are acknowledged, or the outcome is another, rbuf and the status are written
and the completion action is performed; a step that waits is left for later. -/
def execCollComplete (g : Agent) (k : Nat) (s : State) : Result :=
  match s.ruleAt g k with
  | some r =>
    let go := fun (s : State) =>
      match s.ruleAt g k with
      | some x => if x.key = r.key && x.collStands then s.fireElement g k 0 else s
      | none => s
    done (if r.collStands && (decide (4 ≤ r.eng.phase) || (decide (r.eng.phase = 3) && r.collAll)) then go (go (go (go s))) else s)
  | none => done s

/-- COLL_TIMEOUT (R370): the wait limit has passed since the call's issue, and the call waits for its tag, its turn or its peers; where a
rank is declared lost the outcome is PEERLOST. -/
def execCollTimeout (g : Agent) (k : Nat) (s : State) : Result :=
  match s.ruleAt g k with
  | some r => done (if s.collOverdue g r then s.mapRule g k fun r => r.collDoom (if s.rankGone g r then 1 else 3) else s)
  | none => done s

end Sys2Proof.Machine
end

