-- ==== Sys2Proof/Machine/Micro.lean ====
section
/-! DEFINITION. Microcode (02_encoding.md R49-R52): the directory, entry to a routine, and the twin words of
04_objects.md R89, which are words of the microcode space like any other. -/

namespace Sys2Proof.Machine

/-! ## The fields of a triggering word, by the row of R26 that its entry names -/

/-- A field of a word. -/
def fieldAt (w lo width : Nat) : Nat := w / 2 ^ lo % 2 ^ width

/-- x116 at entry (R50): the first immediate of the format. -/
def triggerImm (fmt w : Nat) : Word :=
  let sx := fun lo n => BitVec.ofInt 64 (signedOf n (fieldAt w lo n))
  match fmt with
  | 1 => sx 0 12
  | 2 => sx 0 9
  | 3 => sx 0 19
  | 4 => sx 0 12
  | 5 => sx 0 19
  | 6 => BitVec.ofNat 64 (fieldAt w 0 12)
  | 9 => sx 4 8
  | 10 => sx 11 8
  | _ => 0

/-- x118 at entry (R50): m in bits 1:0, dt in bit 2, fn in bits 15:8. -/
def triggerMods (fmt w : Nat) : Word :=
  BitVec.ofNat 64 (match fmt with
    | 0 | 12 => 256 * fieldAt w 0 5
    | 7 | 8 | 11 => fieldAt w 3 2 + 4 * fieldAt w 2 1 + 256 * fieldAt w 0 2
    | 9 => fieldAt w 2 2 + 256 * fieldAt w 0 2
    | 10 => 256 * fieldAt w 0 3
    | 13 => fieldAt w 1 2 + 256 * fieldAt w 0 1
    | _ => 0)

/-- The operands d, a, b and c of a trigger (R51). -/
def triggerOperand (fmt w i : Nat) : Nat :=
  match fmt, i with
  | 13, 0 => fieldAt w 24 2
  | 13, 1 => fieldAt w 17 7
  | 13, 2 => fieldAt w 10 7
  | 13, _ => fieldAt w 3 7
  | 4, 1 => fieldAt w 19 7
  | 4, 2 => fieldAt w 12 7
  | 4, _ => 0
  | _, 0 => fieldAt w 19 7
  | f, 1 => if f = 3 ∨ f = 5 ∨ f = 10 then 0 else fieldAt w 12 7
  | f, 2 => if f = 0 ∨ f = 7 ∨ f = 8 ∨ f = 11 ∨ f = 12 then fieldAt w 5 7 else 0
  | _, _ => 0

/-- What a register field of a routine word names (R51). -/
def Routine.renamed (r : Routine) (x : Reg) : Reg :=
  if x.val < 124 then x else ⟨triggerOperand r.fmt r.word.toNat (x.val - 124) % 128, Nat.mod_lt _ (by decide)⟩

/-- A word of format SI with its register fields d and a renamed (R51). -/
def Routine.aliasWord (r : Routine) (w : BitVec 32) : BitVec 32 :=
  let n := w.toNat
  BitVec.ofNat 32 (n / 2 ^ 26 * 2 ^ 26 + (r.renamed (regAt n 19)).val * 2 ^ 19 + (r.renamed (regAt n 12)).val * 2 ^ 12 + n % 2 ^ 12)

/-! ## Dispatch -/

/-- Whether a directory entry matches a word (R49). -/
def MicroEntry.holds (e : MicroEntry) (w : Nat) : Bool :=
  w / 2 ^ 26 == e.major && Nat.land (w % 2 ^ 26) e.mask == e.value

/-- Entry to a routine (R50): x116-x123 are kept and take the values of the trigger. -/
def Ctx.enterRoutine (c : Ctx) (e : MicroEntry) (w : Nat) : Ctx :=
  let vals : List Word := [triggerImm e.fmt w, BitVec.ofNat 64 w, triggerMods e.fmt w,
    if e.fmt = 10 then BitVec.ofInt 64 (signedOf 8 (fieldAt w 3 8)) else 0, 0, 0, 0, 0]
  { c with
    outer := (Vector.range 8).map fun i => (c.x.toList[116 + i]?).getD 0
    x := vals.zipIdx.foldl (fun (x : Vector Word 128) v => x.setIfInBounds (116 + v.2) v.1) c.x
    routine := some { word := BitVec.ofNat 32 w, pc := c.pc, entry := e.entry, words := e.words, fmt := e.fmt, off := 0 }
    hold := .run }

/-- A word of the microcode space (R47 step 4, R49): ILLOP inside a routine (R52), UNIMPL where no entry matches. -/
def microcode (w : Nat) (s : State) : Result :=
  if s.ctx.routine.isSome then trap .illop 0 s
  else
    match s.bundle.entries.find? fun e => e.holds w with
    | none => trap .unimpl 0 s
    | some e => done { s with ctx := s.ctx.enterRoutine e w }

/-- The twin of a native word: another major, the same bits 25:0 (R89). -/
def twinWord (major : Nat) (native : List Nat) : Nat := major * 2 ^ 26 + (native.head?).getD 0 % 2 ^ 26

/-- MICROCODE_TRIGGER (R49). -/
def execMicrocodeTrigger (w : BitVec 32) (s : State) : Result := microcode w.toNat s
/-- The twin of vtobfp (R89). -/
def execVtobfpTwin (d a b : Reg) (m : Fin 4) (dt : Bool) (s : State) : Result :=
  microcode (twinWord 0x3D (encode (.vtobfp d a b m dt))) s
/-- The twin of vfrombfp (R89). -/
def execVfrombfpTwin (d a b : Reg) (m : Fin 4) (dt : Bool) (s : State) : Result :=
  microcode (twinWord 0x3D (encode (.vfrombfp d a b m dt))) s
/-- The twin of kvsel (R89). -/
def execKvselTwin (a : Reg) (s : State) : Result := microcode (twinWord 0x3E (encode (.kvsel a))) s
/-- The twin of mops (R89). -/
def execMopsTwin (t : Fin 4) (a b c : Reg) (m : Fin 4) (s : State) : Result := microcode (twinWord 0x3A (encode (.mops t a b c m))) s
/-- The twin of mwl (R89). -/
def execMwlTwin (d a b : Reg) (s : State) : Result := microcode (twinWord 0x3C (encode (.mwl d a b))) s
/-- The twin of mvw (R89). -/
def execMvwTwin (t : Fin 4) (a b c : Reg) (m : Fin 4) (s : State) : Result := microcode (twinWord 0x3B (encode (.mvw t a b c m))) s

/-- The rejection word of a routine; outside one, a word of a reserved major (R47 step 3, R52). -/
def execUreject (s : State) : Result := trap .illop 0 s

end Sys2Proof.Machine
end

