-- ==== Sys2Proof/Machine/Profile.lean ====
section
/-! DEFINITION. The restricted profile of fabric handlers (16_fabric.md R355). -/

namespace Sys2Proof.Machine

/-- An x name of the profile. -/
def isLowX (r : Reg) : Bool := decide (r.val < 32)
/-- A v name of the profile. -/
def isLowV (r : Reg) : Bool := decide (r.val < 8)
/-- A q name of the profile. -/
def isLowQ (r : Reg) : Bool := decide (r.val < 4)

/-- The control registers that a handler may name: vl, vtype, vstart, fflags, now. -/
def handlerRegs : List Nat := [0x000, 0x001, 0x002, 0x006, 0x011]

/-- Whether an instruction is in the profile. -/
def handlerMay : Instr → Bool
  | .vset d a b => isLowX d && isLowX a && isLowX b
  | .vsetl d a => isLowX d && isLowX a
  | .mset _ => false
  | .wbase _ => false
  | .vstrip d a => isLowX d && isLowX a
  | .vstripI d a => isLowX d && isLowX a
  | .vnext => true
  | .vmvXs d a b => isLowX d && isLowV a && isLowX b
  | .vmvSx d a b => isLowV d && isLowX a && isLowX b
  | .vbcst d a => isLowV d && isLowX a
  | .qset d a => isLowQ d && isLowX a
  | .vpresq d a => isLowQ d && isLowV a
  | .vaddVv d a b _ _ => isLowV d && isLowV a && isLowV b
  | .vsubVv d a b _ _ => isLowV d && isLowV a && isLowV b
  | .vrsubVv d a b _ _ => isLowV d && isLowV a && isLowV b
  | .vmulVv d a b _ _ => isLowV d && isLowV a && isLowV b
  | .vmulhVv d a b _ _ => isLowV d && isLowV a && isLowV b
  | .vdivVv d a b _ _ => isLowV d && isLowV a && isLowV b
  | .vremVv d a b _ _ => isLowV d && isLowV a && isLowV b
  | .vabsdVv d a b _ _ => isLowV d && isLowV a && isLowV b
  | .vminVv d a b _ _ => isLowV d && isLowV a && isLowV b
  | .vmaxVv d a b _ _ => isLowV d && isLowV a && isLowV b
  | .vsaddVv d a b _ _ => isLowV d && isLowV a && isLowV b
  | .vssubVv d a b _ _ => isLowV d && isLowV a && isLowV b
  | .vandVv d a b _ _ => isLowV d && isLowV a && isLowV b
  | .vorVv d a b _ _ => isLowV d && isLowV a && isLowV b
  | .vxorVv d a b _ _ => isLowV d && isLowV a && isLowV b
  | .vandnVv d a b _ _ => isLowV d && isLowV a && isLowV b
  | .vsllVv d a b _ _ => isLowV d && isLowV a && isLowV b
  | .vsrlVv d a b _ _ => isLowV d && isLowV a && isLowV b
  | .vsraVv d a b _ _ => isLowV d && isLowV a && isLowV b
  | .vsgnjVv d a b _ _ => isLowV d && isLowV a && isLowV b
  | .vfmaVv d a b _ _ => isLowV d && isLowV a && isLowV b
  | .vfmsVv d a b _ _ => isLowV d && isLowV a && isLowV b
  | .vfnmaVv d a b _ _ => isLowV d && isLowV a && isLowV b
  | .vmergeVv d a b _ _ => isLowV d && isLowV a && isLowV b
  | .vaddVx d a b _ _ => isLowV d && isLowV a && isLowX b
  | .vsubVx d a b _ _ => isLowV d && isLowV a && isLowX b
  | .vrsubVx d a b _ _ => isLowV d && isLowV a && isLowX b
  | .vmulVx d a b _ _ => isLowV d && isLowV a && isLowX b
  | .vmulhVx d a b _ _ => isLowV d && isLowV a && isLowX b
  | .vdivVx d a b _ _ => isLowV d && isLowV a && isLowX b
  | .vremVx d a b _ _ => isLowV d && isLowV a && isLowX b
  | .vabsdVx d a b _ _ => isLowV d && isLowV a && isLowX b
  | .vminVx d a b _ _ => isLowV d && isLowV a && isLowX b
  | .vmaxVx d a b _ _ => isLowV d && isLowV a && isLowX b
  | .vsaddVx d a b _ _ => isLowV d && isLowV a && isLowX b
  | .vssubVx d a b _ _ => isLowV d && isLowV a && isLowX b
  | .vandVx d a b _ _ => isLowV d && isLowV a && isLowX b
  | .vorVx d a b _ _ => isLowV d && isLowV a && isLowX b
  | .vxorVx d a b _ _ => isLowV d && isLowV a && isLowX b
  | .vandnVx d a b _ _ => isLowV d && isLowV a && isLowX b
  | .vsllVx d a b _ _ => isLowV d && isLowV a && isLowX b
  | .vsrlVx d a b _ _ => isLowV d && isLowV a && isLowX b
  | .vsraVx d a b _ _ => isLowV d && isLowV a && isLowX b
  | .vsgnjVx d a b _ _ => isLowV d && isLowV a && isLowX b
  | .vfmaVx d a b _ _ => isLowV d && isLowV a && isLowX b
  | .vfmsVx d a b _ _ => isLowV d && isLowV a && isLowX b
  | .vfnmaVx d a b _ _ => isLowV d && isLowV a && isLowX b
  | .vmergeVx d a b _ _ => isLowV d && isLowV a && isLowX b
  | .vaddi d a _ _ => isLowV d && isLowV a
  | .vslli d a _ _ => isLowV d && isLowV a
  | .vsrli d a _ _ => isLowV d && isLowV a
  | .vsrai d a _ _ => isLowV d && isLowV a
  | .vidx d _ _ => isLowV d
  | .vbcsti d _ => isLowV d
  | .veqVv d a b _ _ => isLowQ d && isLowV a && isLowV b
  | .vneVv d a b _ _ => isLowQ d && isLowV a && isLowV b
  | .vltVv d a b _ _ => isLowQ d && isLowV a && isLowV b
  | .vle d a b _ _ => isLowQ d && isLowV a && isLowV b
  | .veqVx d a b _ _ => isLowQ d && isLowV a && isLowX b
  | .vneVx d a b _ _ => isLowQ d && isLowV a && isLowX b
  | .vltVx d a b _ _ => isLowQ d && isLowV a && isLowX b
  | .vge d a b _ _ => isLowQ d && isLowV a && isLowX b
  | .vcompress d a b _ _ => isLowV d && isLowV a && isLowQ b
  | .vexpand d a b _ _ => isLowV d && isLowV a && isLowQ b
  | .vpick d a b _ _ => isLowV d && isLowV a && isLowV b
  | .vrev d a _ _ => isLowV d && isLowV a
  | .vshup d a b _ _ => isLowV d && isLowV a && isLowX b
  | .vshdn d a b _ _ => isLowV d && isLowV a && isLowX b
  | .vinsup d a b _ _ => isLowV d && isLowV a && isLowX b
  | .vinsdn d a b _ _ => isLowV d && isLowV a && isLowX b
  | .vredsumO d a b _ _ => isLowV d && isLowV a && isLowV b
  | .vredsumT d a b _ _ => isLowV d && isLowV a && isLowV b
  | .vredmin d a b _ _ => isLowV d && isLowV a && isLowV b
  | .vredmax d a b _ _ => isLowV d && isLowV a && isLowV b
  | .qand d a b => isLowQ d && isLowQ a && isLowQ b
  | .qor d a b => isLowQ d && isLowQ a && isLowQ b
  | .qxor d a b => isLowQ d && isLowQ a && isLowQ b
  | .qandn d a b => isLowQ d && isLowQ a && isLowQ b
  | .qpopc d a _ => isLowX d && isLowQ a
  | .qfirst d a _ => isLowX d && isLowQ a
  | .vbitq d a b _ _ => isLowQ d && isLowV a && isLowX b
  | .vpopc d a _ _ => isLowV d && isLowV a
  | .vcvt d a _ _ _ => isLowV d && isLowV a
  | .vtobfp d a b _ _ => isLowV d && isLowV a && isLowV b
  | .vfrombfp d a b _ _ => isLowV d && isLowV a && isLowV b
  | .vlog2 d a _ _ => isLowV d && isLowV a
  | .vsqrt d a _ _ => isLowV d && isLowV a
  | .vrcp d a _ _ => isLowV d && isLowV a
  | .vrsqrt d a _ _ => isLowV d && isLowV a
  | .vexp2 d a _ _ => isLowV d && isLowV a
  | .vld v b _ _ => isLowV v && isLowX b
  | .vldff v b _ _ => isLowV v && isLowX b
  | .vst v b _ _ => isLowV v && isLowX b
  | .vlds v b s _ _ => isLowV v && isLowX b && isLowX s
  | .vsts v b s _ _ => isLowV v && isLowX b && isLowX s
  | .vldx v b i _ _ => isLowV v && isLowX b && isLowV i
  | .vldxo v b i _ _ => isLowV v && isLowX b && isLowV i
  | .vstx v b i _ _ => isLowV v && isLowX b && isLowV i
  | .vstxo v b i _ _ => isLowV v && isLowX b && isLowV i
  | .vamoadd v b i _ _ => isLowV v && isLowX b && isLowV i
  | .vamomin v b i _ _ => isLowV v && isLowX b && isLowV i
  | .vamomax v b i _ _ => isLowV v && isLowX b && isLowV i
  | .vamoswap v b i _ _ => isLowV v && isLowX b && isLowV i
  | .vspld _ _ _ _ => false
  | .vspst _ _ _ _ => false
  | .vpst _ _ _ => false
  | .vpld _ _ _ => false
  | .cpls _ => false
  | .cpld _ => false
  | .cpgoMm _ _ _ => false
  | .cpgoMs _ _ _ => false
  | .cpgoSm _ _ _ => false
  | .cpgoSs _ _ _ => false
  | .cwany _ _ => false
  | .cwall _ => false
  | .cffr _ _ => false
  | .ctclr _ => false
  | .spool _ _ _ => false
  | .coll _ => false
  | .kvsel _ => false
  | .fsend _ a b => isLowX a && isLowV b
  | .fdone => true
  | .vamocas d a b => isLowV d && isLowX a && isLowV b
  | .lpush _ _ => false
  | .wlpush _ _ => false
  | .wlins _ _ => false
  | .wlpop _ _ _ => false
  | .wlclose _ => false
  | .wlclear _ => false
  | .ccall _ _ _ => false
  | .cret => false
  | .elcat _ _ _ => false
  | .elfilt _ _ _ => false
  | .elrebase _ _ _ => false
  | .elapply _ => false
  | .eldrop _ => false
  | .elinfo _ _ => false
  | .elgrow _ _ => false
  | .mop _ _ _ _ => false
  | .mops _ _ _ _ _ => false
  | .mzero _ => false
  | .mfold _ _ _ => false
  | .mrd _ _ _ => false
  | .mwr _ _ _ => false
  | .mrdc _ _ _ => false
  | .mwl _ _ _ => false
  | .mstat _ => false
  | .mopm _ _ _ _ _ => false
  | .mvw _ _ _ _ _ => false
  | .add d a b => isLowX d && isLowX a && isLowX b
  | .sub d a b => isLowX d && isLowX a && isLowX b
  | .and d a b => isLowX d && isLowX a && isLowX b
  | .or d a b => isLowX d && isLowX a && isLowX b
  | .xor d a b => isLowX d && isLowX a && isLowX b
  | .andn d a b => isLowX d && isLowX a && isLowX b
  | .sll d a b => isLowX d && isLowX a && isLowX b
  | .srl d a b => isLowX d && isLowX a && isLowX b
  | .sra d a b => isLowX d && isLowX a && isLowX b
  | .rot d a b => isLowX d && isLowX a && isLowX b
  | .slt d a b => isLowX d && isLowX a && isLowX b
  | .sltn d a b => isLowX d && isLowX a && isLowX b
  | .min d a b => isLowX d && isLowX a && isLowX b
  | .max d a b => isLowX d && isLowX a && isLowX b
  | .minn d a b => isLowX d && isLowX a && isLowX b
  | .maxn d a b => isLowX d && isLowX a && isLowX b
  | .mul d a b => isLowX d && isLowX a && isLowX b
  | .mulh d a b => isLowX d && isLowX a && isLowX b
  | .mulhn d a b => isLowX d && isLowX a && isLowX b
  | .div d a b => isLowX d && isLowX a && isLowX b
  | .divn d a b => isLowX d && isLowX a && isLowX b
  | .rem d a b => isLowX d && isLowX a && isLowX b
  | .remn d a b => isLowX d && isLowX a && isLowX b
  | .popc d a => isLowX d && isLowX a
  | .clz d a => isLowX d && isLowX a
  | .ctz d a => isLowX d && isLowX a
  | .sxb d a => isLowX d && isLowX a
  | .sxh d a => isLowX d && isLowX a
  | .sxw d a => isLowX d && isLowX a
  | .zxw d a => isLowX d && isLowX a
  | .bswap d a => isLowX d && isLowX a
  | .addi d a _ => isLowX d && isLowX a
  | .andi d a _ => isLowX d && isLowX a
  | .ori d a _ => isLowX d && isLowX a
  | .xori d a _ => isLowX d && isLowX a
  | .slli d a _ => isLowX d && isLowX a
  | .srli d a _ => isLowX d && isLowX a
  | .srai d a _ => isLowX d && isLowX a
  | .roti d a _ => isLowX d && isLowX a
  | .slti d a _ => isLowX d && isLowX a
  | .sltni d a _ => isLowX d && isLowX a
  | .lim _ w => isLowX (regAt w.toNat 19) && isLowX (regAt w.toNat 12)
  | .pcrel d _ => isLowX d
  | .ldB d a _ => isLowX d && isLowX a
  | .ldH d a _ => isLowX d && isLowX a
  | .ldW d a _ => isLowX d && isLowX a
  | .ldD d a _ => isLowX d && isLowX a
  | .ldBn d a _ => isLowX d && isLowX a
  | .ldHn d a _ => isLowX d && isLowX a
  | .ldWn d a _ => isLowX d && isLowX a
  | .stB d a _ => isLowX d && isLowX a
  | .stH d a _ => isLowX d && isLowX a
  | .stW d a _ => isLowX d && isLowX a
  | .stD d a _ => isLowX d && isLowX a
  | .beq a b _ => isLowX a && isLowX b
  | .bne a b _ => isLowX a && isLowX b
  | .blt a b _ => isLowX a && isLowX b
  | .bge a b _ => isLowX a && isLowX b
  | .bltn a b _ => isLowX a && isLowX b
  | .bgen a b _ => isLowX a && isLowX b
  | .jal d _ => isLowX d
  | .jalr d a _ => isLowX d && isLowX a
  | .amoaddD d a b => isLowX d && isLowX a && isLowX b
  | .amoandD d a b => isLowX d && isLowX a && isLowX b
  | .amoorD d a b => isLowX d && isLowX a && isLowX b
  | .amoxorD d a b => isLowX d && isLowX a && isLowX b
  | .amominD d a b => isLowX d && isLowX a && isLowX b
  | .amomaxD d a b => isLowX d && isLowX a && isLowX b
  | .amominnD d a b => isLowX d && isLowX a && isLowX b
  | .amomaxnD d a b => isLowX d && isLowX a && isLowX b
  | .amoswapD d a b => isLowX d && isLowX a && isLowX b
  | .amocasD d a b => isLowX d && isLowX a && isLowX b
  | .amoaddW d a b => isLowX d && isLowX a && isLowX b
  | .amoandW d a b => isLowX d && isLowX a && isLowX b
  | .amoorW d a b => isLowX d && isLowX a && isLowX b
  | .amoxorW d a b => isLowX d && isLowX a && isLowX b
  | .amominW d a b => isLowX d && isLowX a && isLowX b
  | .amomaxW d a b => isLowX d && isLowX a && isLowX b
  | .amominnW d a b => isLowX d && isLowX a && isLowX b
  | .amomaxnW d a b => isLowX d && isLowX a && isLowX b
  | .amoswapW d a b => isLowX d && isLowX a && isLowX b
  | .amocasW d a b => isLowX d && isLowX a && isLowX b
  | .fenceSv => true
  | .fenceVs => true
  | .fenceRel => true
  | .fenceAcq => true
  | .fenceFull => true
  | .ifence => true
  | .bar _ => false
  | .waitNe _ _ => false
  | .waitGe _ _ => false
  | .yield => false
  | .park => false
  | .zline _ => false
  | .ctlRd d n => isLowX d && handlerRegs.contains n.toNat
  | .ctlWr a n => isLowX a && handlerRegs.contains n.toNat
  | .ctlWrVstart a => isLowX a
  | .ctlWrFflags a => isLowX a
  | .ctlWrCtximg _ => false
  | .trap => true
  | .rtr => false
  | .ecall => false
  | .halt => false
  | .stkvec _ => false
  | .unstkvec _ => false
  | .tlbinv _ => false
  | .icinv _ => false
  | .ldrule _ => false
  | .strule _ => false
  | .vtobfpTwin _ _ _ _ _ => false
  | .vfrombfpTwin _ _ _ _ _ => false
  | .kvselTwin _ => false
  | .mopsTwin _ _ _ _ _ => false
  | .mwlTwin _ _ _ => false
  | .mvwTwin _ _ _ _ _ => false
  | .ureject => false
  | .microcodeTrigger _ => false
  | .exitAddressFetch => true
  | .elementFire _ _ _ => true
  | .spanHandover _ _ => true
  | .registerLineFill _ _ => true
  | .pageWalkComplete _ _ _ _ => true
  | .l1LineFill _ _ _ => true
  | .homeSliceStore _ => true
  | .storeAcknowledge _ => true
  | .l2MissFill _ _ _ => true
  | .capacityStorePerformed _ => true
  | .copyTransfer _ _ _ => true
  | .emptywaitTimeout _ _ _ => true
  | .mwlComplete _ _ => true
  | .spoolHeaderRead _ _ => true
  | .spoolBufferPartial _ _ _ _ => true
  | .spoolBagComplete _ _ _ => true
  | .kvselScoreMerge _ _ => true
  | .trapEntry _ => true
  | .preempt _ => true
  | .resumeTask _ _ => true
  | .parkWake _ => true
  | .parkTimeout _ => true
  | .barrierComplete _ _ => true
  | .barrierdead _ _ => true
  | .waitReread _ => true
  | .waitLimitExpiry _ => true
  | .notifyKick _ _ _ => true
  | .slotFetch _ _ => true
  | .queuePollTimer _ _ => true
  | .queueStallTimeout _ _ => true
  | .queueDrainEnd _ _ => true
  | .launchStartTime _ _ => true
  | .launchTriggerWrite _ _ _ => true
  | .launchDeadline _ _ => true
  | .dispatchTask _ _ => true
  | .fsendAccept _ _ => true
  | .handlerStart _ _ _ => true
  | .collChunkArrival _ _ _ _ _ => true
  | .collComplete _ _ => true
  | .collTimeout _ _ => true
  | .remoteAccessTimeout _ _ => true
  | .rmaWrite _ _ _ => true
  | .rmaRead _ _ _ => true
  | .rmaAtomic _ _ _ _ _ => true
  | .interruptDeliveryAck _ => true
  | .createTenant _ _ => true
  | .destroyTenant _ => true
  | .setWindow _ _ _ => true
  | .configureQueue _ _ _ => true
  | .destroyQueue _ _ => true
  | .buildChain _ _ => true
  | .freeChain _ _ => true
  | .retryChain _ _ => true
  | .discardMessage _ _ => true
  | .registerKey _ _ _ => true
  | .removeKey _ _ => true
  | .configureEndpoint _ _ _ _ => true
  | .loadMicrocodeBundle _ _ => true
  | .microcodeInstall => true
  | .readAcceptedClasses _ => true
  | .attest _ _ => true
  | .loadObject _ _ _ => true
  | .powerOn => true
  | .timeBaseSync _ => true
  | .thermalClockStep _ => true
  | .dieLoss _ => true
  | .owningDeviceAcknowledge _ _ _ _ => true
  | .remoteWaitReread _ _ => true
  | .unknownOpcode _ _ => true
  | .railOutOfRange _ => true

end Sys2Proof.Machine
end

