-- ==== Sys2Proof/Machine/Fetch.lean ====
section
/-! DEFINITION. Fetching the word at the pc, or in a routine, and what it decodes to (02_encoding.md R31, R32, R40, R47, R51, R52;
06_ordering.md R165; 16_fabric.md R353, R355). -/

namespace Sys2Proof.Machine

/-- Lines of a chain's instruction cache: 16 KiB (R353). -/
def chainCodeLines : Nat := 128

/-- The instruction cache that an agent fetches through. -/
def State.codeCache (s : State) : Agent → List CodeLine
  | .ctx id => (s.core (id / 8)).icache
  | .handler t slice _ => ((s.chainOn t slice).map (·.icache)).getD []

/-- The cache of an agent with a line put in front; the least recently fetched line of a full cache goes (log 11). -/
def State.putCode (s : State) (g : Agent) (e : CodeLine) : State :=
  let put := fun (n : Nat) (l : List CodeLine) => (e :: l.filter fun x => !(x.tenant == e.tenant && x.line == e.line)).take n
  match g with
  | .ctx id => s.mapCore (id / 8) fun k => { k with icache := put Config.icacheLines k.icache }
  | .handler t slice _ => s.mapChain t slice fun c => { c with icache := put chainCodeLines c.icache }

/-- The word at an address, as bytes, through translation and the instruction cache (R47 step 1, R165, R380, R419). A line that enters the
cache is consumed whole, so an error in any part of it is the fetch's (log 52). -/
def State.fetchWord (s : State) (va : Word) : Except (Cause × Word) (List Byte) × State :=
  let g := s.ctx.agent
  let t := s.tenantOf g
  if va.toNat % 4 ≠ 0 then (.error (.fetchfault, va), s)
  else
    match s.translate (placeOf g) t .fetch s.ctx.user va with
    | .error c => (.error (c, va), s)
    | .ok p =>
      let s := s.fillTlb (placeOf g) t .fetch va
      let line := va.toNat / 128
      let word := fun (bs : List Byte) => (bs.drop (va.toNat % 128)).take 4
      match (s.codeCache g).find? fun e => e.tenant == t && e.line == line with
      | some e => (.ok (word e.bytes), s.putCode g e)
      | none =>
        match s.lineError (128 * (p.pa / 128)) 128 p.zero with
        | some c => (.error (c, va), s)
        | none =>
          let s := s.l2Fill t (p.pa / 128) p.zero
          let bs := s.homeBytes (128 * (p.pa / 128)) 128
          (.ok (word bs), s.putCode g { tenant := t, line := line, bytes := bs })

/-- The bytes of the word at the pc, or of the lim pair (R32). -/
def State.fetchBytes (s : State) : Except (Cause × Word) (List Byte) × State :=
  match s.fetchWord s.ctx.pc with
  | (.error e, s) => (.error e, s)
  | (.ok w, s) =>
    if isLim (ofBytes w) then
      match s.fetchWord (s.ctx.pc + 4) with
      | (.error e, s) => (.error e, s)
      | (.ok p, s) => (.ok (w ++ p), s)
    else (.ok w, s)

/-- The instruction that a word of a routine stands for, its alias operands put in (R51). -/
noncomputable def Routine.read (r : Routine) (w partner : Nat) : Decoded :=
  match decodeFields w partner with
  | .error e => .error e
  | .ok i =>
    let i := match i with
      | .lim hi p => .lim hi (r.aliasWord p)
      | i => i.mapRegs r.renamed
    if i.wf then .ok i else .error .illFormed

/-- The word of a routine's code at an offset. -/
def State.routineWord (s : State) (r : Routine) (off : Nat) : Nat :=
  if off < r.words then ((s.bundle.code[r.entry + off]?).map BitVec.toNat).getD 0 else 0

/-- The access of a control register that a ctl.rd or ctl.wr word naming a number from 0x100 up stands for, whatever its zero field holds:
at level U such a word passes the checks of its fields (R47 step 7; log 37). -/
noncomputable def systemCtl (w : Nat) : Option Instr :=
  if w / 2 ^ 26 % 64 = 0x17 && decide (0x100 ≤ w % 1024) then
    match w / 1024 % 4 with
    | 0 => some (.ctlRd (regAt w 19) (bitsAt 10 w 0))
    | 1 => some (.ctlWr (regAt w 12) (bitsAt 10 w 0))
    | _ => none
  else none

/-- What follows from a word that no instruction has: ILLOP, or at level U the refused access of a system register (R47 steps 3-7). -/
noncomputable def State.misfit (s : State) (w : Nat) : Except (Cause × Word) Instr :=
  match systemCtl w with
  | some i => if s.ctx.user then .ok i else .error (.illop, 0)
  | none => .error (.illop, 0)

/-- The instruction that the context runs next, or the cause that it meets (R47 steps 1-7). A fetch at the exit address outside a
routine ends the task (R40). -/
noncomputable def State.nextInstr (s : State) : Except (Cause × Word) Instr × State :=
  match s.ctx.routine with
  | some r =>
    match r.read (s.routineWord r r.off) (s.routineWord r (r.off + 1)) with
    | .ok i => (.ok i, s)
    | .error _ => (s.misfit (s.routineWord r r.off), s)
  | none =>
    if s.ctx.pc.toNat = Config.exitAddress then (.ok .exitAddressFetch, s)
    else
      match s.fetchBytes with
      | (.error e, s) => (.error e, s)
      | (.ok bs, s) =>
        match decode bs with
        | .ok (i, _) => (.ok i, s)
        | .error _ => (s.misfit (ofBytes (bs.take 4)), s)

/-- Whether the agent is a handler. -/
def isHandler : Agent → Bool
  | .handler _ _ _ => true
  | .ctx _ => false

/-- The routine of a context that stands at or past its last word ends (R52). -/
def State.leaveRoutine (s : State) : State :=
  match s.ctx.routine with
  | some r => if r.words ≤ r.off then { s with ctx := s.ctx.endRoutine r } else s
  | none => s

/-- Whether the front end may run a word of a context now: it has a task or serves a message, no trap of it is due unless a remote access of
the word has begun (R396), it waits for no answer of an older instruction (R130), and its core runs (R423). -/
def State.canRun (s : State) (c : Ctx) : Bool :=
  (match c.hold with
    | .run | .stall => true
    | _ => false) &&
  c.task.isSome && c.pending.isNone && ((c.rules.all fun r => r.detached || r.fault.isNone) || c.remotes.any fun r => r.key == c.instrPc && r.begun) && !c.awaits &&
  match coreOf c.agent with
  | some k => !(s.core k).stopped
  | none => true

end Sys2Proof.Machine
end

