-- ==== Sys2Proof/Machine/Auto.lean ====
section
/-! DEFINITION. What the machine does of itself when no move says otherwise: the first event that may come about, in a fixed order
(log 5), and the round-robin of the front end (15_scheduling.md R338). -/

namespace Sys2Proof.Machine

/-- The state that a meaning completes in. -/
def after (r : Result) (s : State) : State :=
  match r with
  | .next t => t
  | _ => s

/-- An event of an agent, if it changes what the agent's front end does. -/
def State.ifMoved (s t : State) (g : Agent) : Option State :=
  if (s.getCtx g).hold = (t.getCtx g).hold then none else some t

/-- The place of an agent in the round. -/
def agentKey : Agent → Nat
  | .ctx id => id
  | .handler t slice tag => 2 ^ 20 + (t * 192 + slice) * 8 + tag

/-- A context put among others by its place in the round. -/
def insertCtx (c : Ctx) : List Ctx → List Ctx
  | [] => [c]
  | d :: ds => if agentKey c.agent ≤ agentKey d.agent then c :: d :: ds else d :: insertCtx c ds

/-- The contexts in the order in which the engines serve them: from the one after the last that they served (R338). -/
def State.inRound (s : State) : List Ctx :=
  let all := s.allCtx.foldr insertCtx []
  let later := fun (c : Ctx) => decide (agentKey s.served < agentKey c.agent)
  all.filter later ++ all.filter fun c => !later c

/-- Rules of some context issue, fire or retire (R107, R110): of the next one in the round for which anything comes of it (R338). -/
def State.autoRules (s : State) : Option State :=
  s.inRound.findSome? fun c =>
    let g := c.agent
    if (c.rules.isEmpty && c.queue.isEmpty) || !c.mayFire then none
    else
      let p := s.issueAll g Config.queueEntries
      let q := p.2.attemptRules g (p.2.getCtx g).rules.length 0
      let t := q.2.retire g
      let n := (t.getCtx g).rules.length
      if p.1 || q.1 || n != (q.2.getCtx g).rules.length || (t.getCtx g).remotes.length != c.remotes.length then
        some { t with served := g }
      else none

/-- Stores on their way arrive (R152, R161). -/
def State.autoStores (s : State) : Option State := if s.flights.isEmpty then none else some s.drainStores

/-- Whether a context's trap is due (R396 step 5). -/
def State.trapDue (s : State) (c : Ctx) : Bool :=
  c.takesTraps && s.begunDone c.agent &&
  match c.rules.filter fun r => !r.detached with
  | r :: _ => r.fault.isSome && !r.poolsOn
  | [] => c.pending.isSome && c.queue.isEmpty

/-- A trap that is due is taken. -/
def State.autoTrap (s : State) : Option State := (s.allCtx.find? s.trapDue).map fun c => s.takeTrap c.agent

/-- A wait that may end reads again, and one on a remote page when its next read is due (R343). -/
def State.autoWait (s : State) : Option State :=
  s.allCtx.findSome? fun c => match c.hold with
    | .memory _ _ _ _ =>
      let t := s.reread c.agent
      if c.rereadDue s.now then some t else s.ifMoved t c.agent
    | _ => none

/-- A park ends (R340). -/
def State.autoPark (s : State) : Option State :=
  s.allCtx.findSome? fun c => match c.hold with
    | .park _ _ => (s.ifMoved (after (execParkWake c.agent s) s) c.agent).orElse fun _ =>
        s.ifMoved (after (execParkTimeout c.agent s) s) c.agent
    | _ => none

/-- A barrier of the module completes, or no barrier of a launch can (R342, R424). -/
def State.autoBarrier (s : State) : Option State :=
  s.allCtx.findSome? fun c => match c.hold with
    | .barrier sc _ saved =>
      if !saved && s.barrierReady c && sc != 5 then some (after (execBarrierComplete c.agent false s) s)
      else
        match c.task with
        | some k =>
          let dead := ((findLaunch k.launch (s.tenant k.tenant).launches).map (·.dead)).getD false
          if c.pending.isNone && (dead || s.launchDead k.tenant k.launch) then some (after (execBarrierdead k.tenant k.launch s) s) else none
        | none => none
    | _ => none

/-- A request pre-empts a context (R339, R417). -/
def State.autoPreempt (s : State) : Option State :=
  (s.allCtx.find? s.preemptDue).map fun c => s.stopTask c.agent false

/-- Whether a launch that waits moves on (R331). -/
def State.launchMoves (s : State) (t : Nat) (l : Launch) : Bool :=
  decide (l.state = .waiting) &&
  match s.triggersMet t l with
  | some (a, b) => a != l.met0 || b != l.met1 || a && b && decide (l.field 0x38 8 ≤ s.now.toNat)
  | none => true

/-- A launch meets its start time, its triggers or its deadline, or has nothing left (R331, R332, R333). -/
def State.autoLaunch (s : State) : Option State :=
  s.tenants.findSome? fun a => a.launches.findSome? fun l =>
    if s.launchMoves a.id l then some (s.checkLaunch a.id l.id)
    else if !l.late && decide (l.deadline < s.now.toNat) then some (after (execLaunchDeadline a.id l.id s) s)
    else if l.state ≠ .waiting && l.running == 0 && s.exhausted a.id l then some (s.advanceLaunch a.id l.id)
    else none

/-- A queue fetches, polls, stalls or drains (R328, R330). -/
def State.autoQueue (s : State) : Option State :=
  s.tenants.findSome? fun a => a.queues.findSome? fun q =>
    let moved := fun (t : State) => if t.queue a.id q.number = some q then none else some t
    match q.state with
    | .idle =>
      if !q.mapped && decide (q.consumed.toNat < (s.notifyWord a.id q).toNat) then moved (after (execSlotFetch a.id q.number s) s) else none
    | .fetch => moved (after (execSlotFetch a.id q.number s) s)
    | .stalled => if q.woken then moved (after (execSlotFetch a.id q.number s) s) else none
    | .poll since last gap =>
      if Config.stallNs ≤ (s.now - since).toNat then some (after (execQueueStallTimeout a.id q.number s) s)
      else if gap.toNat ≤ (s.now - last).toNat then some (after (execQueuePollTimer a.id q.number s) s)
      else none
    | .drain => moved (after (execQueueDrainEnd a.id q.number s) s)
    | _ => none

/-- A saved task resumes on its own context, or on the first core of its tenant that can hold it (R340, R417). -/
def State.autoResume (s : State) : Option State :=
  s.allCtx.findSome? fun c =>
    match c.task with
    | some k =>
      if c.isSaved = false then none
      else
        let own := match c.agent with
          | .ctx id => if id < Config.contexts then [id] else []
          | .handler _ _ _ => []
        (own ++ (s.tenant k.tenant).cores.filterMap s.freeContext).findSome? fun id =>
          let t := after (execResumeTask c.agent id s) s
          if (t.getCtx (.ctx id)).isRunning && !(s.getCtx (.ctx id)).isRunning then some t else none
    | none => none

/-- A core takes a ticket, or the scheduler asks tasks to yield (R334, R339). -/
def State.autoDispatch (s : State) : Option State :=
  s.tenants.findSome? fun a =>
    match s.inOrder a.id with
    | [] => none
    | ls =>
      (a.cores.findSome? fun k => s.serveFirst a.id k true ls).orElse fun _ =>
        let t := s.raiseYields a.id
        let asked := fun (x : State) => (x.allCtx.filter fun c => c.yieldBy.isSome).length
        if asked t = asked s then none else some t

/-- A handler takes its next message (R354). -/
def State.autoHandler (s : State) : Option State :=
  s.chains.findSome? fun ch =>
    if ch.faulted then none else
    (List.range 8).findSome? fun tag =>
      let g := Agent.handler ch.tenant ch.slice tag
      if (ch.waiting tag).isEmpty || decide ((s.getCtx g).hold ≠ .idle) then none
      else s.ifMoved (s.startHandler ch.tenant ch.slice tag) g

/-- A limit on a wait of a rule or of a remote access has passed (R205, R370, R371). -/
def State.autoTimeout (s : State) : Option State :=
  s.allCtx.findSome? fun c =>
    let g := c.agent
    let late := fun (since : Word) (n : Nat) => decide (n ≤ (s.now - since).toNat)
    let coll := (c.rules.zipIdx.find? fun x => s.collOverdue g x.1).map fun x => after (execCollTimeout g x.2 s) s
    let empty := c.rules.zipIdx.findSome? fun x => x.1.eng.waits.findSome? fun w =>
      if late w.2 (s.emptyLimit g) && x.1.stillWaits w.1 && !c.faultBefore x.2 then
        let t := after (execEmptywaitTimeout g x.2 w.1 s) s
        if ((t.ruleAt g x.2).bind (·.fault)).isSome then some t else none
      else none
    let remote := (c.remotes.zipIdx.find? fun x => x.1.answer.isNone && !x.1.lost && late x.1.issued Config.remoteNs).map
      fun x => after (execRemoteAccessTimeout g x.2 s) s
    coll.orElse fun _ => empty.orElse fun _ => remote

/-- A former context is gone from a freed span (R123). -/
def State.autoHandover (s : State) : Option State :=
  s.cores.findSome? fun x => (List.range 8).findSome? fun i =>
    let t := after (execSpanHandover x.1 i s) s
    if (t.core x.1).former = x.2.former then none else some t

/-- A microcode bundle is installed (R53). -/
def State.autoInstall (s : State) : Option State :=
  if s.newBundle.isSome && s.microcodeIdle then some (after (execMicrocodeInstall s) s) else none

/-- The first event in a fixed order that may come about (log 5). -/
def State.auto (s : State) : Option State :=
  s.autoStores.orElse fun _ => s.autoRules.orElse fun _ => s.autoTrap.orElse fun _ => s.autoWait.orElse fun _ =>
  s.autoPark.orElse fun _ => s.autoBarrier.orElse fun _ => s.autoPreempt.orElse fun _ => s.autoLaunch.orElse fun _ =>
  s.autoQueue.orElse fun _ => s.autoResume.orElse fun _ => s.autoDispatch.orElse fun _ => s.autoHandler.orElse fun _ =>
  s.autoTimeout.orElse fun _ => s.autoHandover.orElse fun _ => s.autoInstall

/-! ## The turn at the front end -/

/-- The agent with the lowest key of some contexts. -/
def firstAgent : List Ctx → Option Agent
  | [] => none
  | c :: cs => some (cs.foldl (fun (g : Agent) x => if agentKey x.agent < agentKey g then x.agent else g) c.agent)

/-- The front end turns to the next context that has a word to run, starting after the one last served (R338). -/
def State.rotate (s : State) : State :=
  let ready := s.others.filter s.canRun
  let now := agentKey s.ctx.agent
  match firstAgent (ready.filter fun c => decide (now < agentKey c.agent)), firstAgent ready with
  | some g, _ => s.turnTo g
  | none, some g => s.turnTo g
  | none, none => s

/-- What follows a word: the work of its context settles, one event comes about, and the turn passes. -/
def State.finish (s : State) : State :=
  let s := s.settle s.ctx.agent
  (s.auto.getD s).rotate

/-- A step of a machine whose front end has no word to run: one event, and the turn. -/
def State.idleStep (s : State) : State := (s.auto.getD s).rotate

end Sys2Proof.Machine
end

