-- ==== Sys2Proof/Machine/ScalarStores.lean ====
section
/-! DEFINITION. Scalar stores and `zline` (07_memory.md R184, R200), in collecting mode their records (09_effects.md R227-R234, R428,
R432). -/

namespace Sys2Proof.Machine

/-- Whether an older entry holds back the record of a scalar store: its region lines are written in the vector stream (R223, R228, R428).
An instruction that still waits in the vector queue has no entry yet, and its record waits until it has (log 76). -/
def State.regionHeld (s : State) (slot : Word) (n : Nat) : Bool :=
  let g := s.ctx.agent
  let t : Touch := { wr := s.linesKnown g .store slot n }
  (s.ctx.queue.any fun r => touchesMemory r.instr) || (s.older g s.ctx.rules.length).any fun o => o.lock.blocks t

/-- A scalar store of collecting mode becomes a record (R227, R230-R232, R432). -/
def recordScalar (addr : Word) (bytes : List Byte) (s : State) : Result :=
  let c := s.ctx
  let h := c.activeHandle
  if c.appending h then done s.stall else
  match (if c.shortOf h then none else c.reserve h (slotSize bytes.length)) with
  | none => trap .elfull 0 s
  | some (slot, c') =>
    if s.regionHeld slot (slotSize bytes.length) then done s.stall else
    match ({ s with ctx := c' } : State).writeRecord c.agent c.instrPc 0 slot addr bytes with
    | (.ok true, s) => done s.advance
    | (.ok false, s) => done (({ s with ctx := s.ctx.setHandle h (c.handle h) } : State).stall)
    | (.error (f, va), s) => trap f va { s with ctx := s.ctx.setHandle h (c.handle h) }

/-- Stores bytes at an aligned address of the scalar stream (R184, R200); the front end stalls while the store queue is full. -/
def storeBytes (addr : Word) (align : Nat) (bytes : List Byte) (s : State) : Result :=
  if s.ctx.svHeld || decide (Config.storeQueue ≤ (s.storeQueue s.ctx.agent).length) then done s.stall
  else if isCanonical addr = false then trap .storefault addr s
  else if addr.toNat % align ≠ 0 then trap .align addr s
  else if s.ctx.collecting then recordScalar addr bytes s
  else
    match s.storeAt s.scalarAcc addr bytes with
    | .ok _ s => done s.advance
    | .wait s => done s.stall
    | .fault c s => trap c addr s

/-- Stores the low `n` bytes of X[d] (R184). -/
def storeScalar (d a : Reg) (o : BitVec 9) (n : Nat) (s : State) : Result :=
  storeBytes (s.getX a + off9 o n) n (toBytes n (s.getX d).toNat) s

/-- st.b (R184). -/
def execStB (d a : Reg) (o : BitVec 9) (s : State) : Result := storeScalar d a o 1 s
/-- st.h (R184). -/
def execStH (d a : Reg) (o : BitVec 9) (s : State) : Result := storeScalar d a o 2 s
/-- st.w (R184). -/
def execStW (d a : Reg) (o : BitVec 9) (s : State) : Result := storeScalar d a o 4 s
/-- st.d (R184). -/
def execStD (d a : Reg) (o : BitVec 9) (s : State) : Result := storeScalar d a o 8 s

/-- zline: 128 zero bytes (R200). -/
def execZline (a : Reg) (s : State) : Result := storeBytes (s.getX a) 128 (List.replicate 128 0) s

end Sys2Proof.Machine
end

