-- ==== Sys2Proof/Machine/Dispatch.lean ====
section
/-! DEFINITION. One arm per row of the opcode table: each calls the meaning of its instruction or event. -/

namespace Sys2Proof.Machine

def exec (i : Instr) (s : State) : Host.Outcome State Fault Refusal :=
  match i with
  | .vset d a b => Sys2Proof.Machine.execVset d a b s
  | .vsetl d a => Sys2Proof.Machine.execVsetl d a s
  | .mset a => Sys2Proof.Machine.execMset a s
  | .wbase a => Sys2Proof.Machine.execWbase a s
  | .vstrip d a => Sys2Proof.Machine.execVstrip d a s
  | .vstripI d a => Sys2Proof.Machine.execVstripI d a s
  | .vnext => Sys2Proof.Machine.execVnext s
  | .vmvXs d a b => Sys2Proof.Machine.execVmvXs d a b s
  | .vmvSx d a b => Sys2Proof.Machine.execVmvSx d a b s
  | .vbcst d a => Sys2Proof.Machine.execVbcst d a s
  | .qset d a => Sys2Proof.Machine.execQset d a s
  | .vpresq d a => Sys2Proof.Machine.execVpresq d a s
  | .vaddVv d a b m dt => Sys2Proof.Machine.execVaddVv d a b m dt s
  | .vsubVv d a b m dt => Sys2Proof.Machine.execVsubVv d a b m dt s
  | .vrsubVv d a b m dt => Sys2Proof.Machine.execVrsubVv d a b m dt s
  | .vmulVv d a b m dt => Sys2Proof.Machine.execVmulVv d a b m dt s
  | .vmulhVv d a b m dt => Sys2Proof.Machine.execVmulhVv d a b m dt s
  | .vdivVv d a b m dt => Sys2Proof.Machine.execVdivVv d a b m dt s
  | .vremVv d a b m dt => Sys2Proof.Machine.execVremVv d a b m dt s
  | .vabsdVv d a b m dt => Sys2Proof.Machine.execVabsdVv d a b m dt s
  | .vminVv d a b m dt => Sys2Proof.Machine.execVminVv d a b m dt s
  | .vmaxVv d a b m dt => Sys2Proof.Machine.execVmaxVv d a b m dt s
  | .vsaddVv d a b m dt => Sys2Proof.Machine.execVsaddVv d a b m dt s
  | .vssubVv d a b m dt => Sys2Proof.Machine.execVssubVv d a b m dt s
  | .vandVv d a b m dt => Sys2Proof.Machine.execVandVv d a b m dt s
  | .vorVv d a b m dt => Sys2Proof.Machine.execVorVv d a b m dt s
  | .vxorVv d a b m dt => Sys2Proof.Machine.execVxorVv d a b m dt s
  | .vandnVv d a b m dt => Sys2Proof.Machine.execVandnVv d a b m dt s
  | .vsllVv d a b m dt => Sys2Proof.Machine.execVsllVv d a b m dt s
  | .vsrlVv d a b m dt => Sys2Proof.Machine.execVsrlVv d a b m dt s
  | .vsraVv d a b m dt => Sys2Proof.Machine.execVsraVv d a b m dt s
  | .vsgnjVv d a b m dt => Sys2Proof.Machine.execVsgnjVv d a b m dt s
  | .vfmaVv d a b m dt => Sys2Proof.Machine.execVfmaVv d a b m dt s
  | .vfmsVv d a b m dt => Sys2Proof.Machine.execVfmsVv d a b m dt s
  | .vfnmaVv d a b m dt => Sys2Proof.Machine.execVfnmaVv d a b m dt s
  | .vmergeVv d a b m dt => Sys2Proof.Machine.execVmergeVv d a b m dt s
  | .vaddVx d a b m dt => Sys2Proof.Machine.execVaddVx d a b m dt s
  | .vsubVx d a b m dt => Sys2Proof.Machine.execVsubVx d a b m dt s
  | .vrsubVx d a b m dt => Sys2Proof.Machine.execVrsubVx d a b m dt s
  | .vmulVx d a b m dt => Sys2Proof.Machine.execVmulVx d a b m dt s
  | .vmulhVx d a b m dt => Sys2Proof.Machine.execVmulhVx d a b m dt s
  | .vdivVx d a b m dt => Sys2Proof.Machine.execVdivVx d a b m dt s
  | .vremVx d a b m dt => Sys2Proof.Machine.execVremVx d a b m dt s
  | .vabsdVx d a b m dt => Sys2Proof.Machine.execVabsdVx d a b m dt s
  | .vminVx d a b m dt => Sys2Proof.Machine.execVminVx d a b m dt s
  | .vmaxVx d a b m dt => Sys2Proof.Machine.execVmaxVx d a b m dt s
  | .vsaddVx d a b m dt => Sys2Proof.Machine.execVsaddVx d a b m dt s
  | .vssubVx d a b m dt => Sys2Proof.Machine.execVssubVx d a b m dt s
  | .vandVx d a b m dt => Sys2Proof.Machine.execVandVx d a b m dt s
  | .vorVx d a b m dt => Sys2Proof.Machine.execVorVx d a b m dt s
  | .vxorVx d a b m dt => Sys2Proof.Machine.execVxorVx d a b m dt s
  | .vandnVx d a b m dt => Sys2Proof.Machine.execVandnVx d a b m dt s
  | .vsllVx d a b m dt => Sys2Proof.Machine.execVsllVx d a b m dt s
  | .vsrlVx d a b m dt => Sys2Proof.Machine.execVsrlVx d a b m dt s
  | .vsraVx d a b m dt => Sys2Proof.Machine.execVsraVx d a b m dt s
  | .vsgnjVx d a b m dt => Sys2Proof.Machine.execVsgnjVx d a b m dt s
  | .vfmaVx d a b m dt => Sys2Proof.Machine.execVfmaVx d a b m dt s
  | .vfmsVx d a b m dt => Sys2Proof.Machine.execVfmsVx d a b m dt s
  | .vfnmaVx d a b m dt => Sys2Proof.Machine.execVfnmaVx d a b m dt s
  | .vmergeVx d a b m dt => Sys2Proof.Machine.execVmergeVx d a b m dt s
  | .vaddi d a j m => Sys2Proof.Machine.execVaddi d a j m s
  | .vslli d a j m => Sys2Proof.Machine.execVslli d a j m s
  | .vsrli d a j m => Sys2Proof.Machine.execVsrli d a j m s
  | .vsrai d a j m => Sys2Proof.Machine.execVsrai d a j m s
  | .vidx d u t => Sys2Proof.Machine.execVidx d u t s
  | .vbcsti d u => Sys2Proof.Machine.execVbcsti d u s
  | .veqVv d a b m dt => Sys2Proof.Machine.execVeqVv d a b m dt s
  | .vneVv d a b m dt => Sys2Proof.Machine.execVneVv d a b m dt s
  | .vltVv d a b m dt => Sys2Proof.Machine.execVltVv d a b m dt s
  | .vle d a b m dt => Sys2Proof.Machine.execVle d a b m dt s
  | .veqVx d a b m dt => Sys2Proof.Machine.execVeqVx d a b m dt s
  | .vneVx d a b m dt => Sys2Proof.Machine.execVneVx d a b m dt s
  | .vltVx d a b m dt => Sys2Proof.Machine.execVltVx d a b m dt s
  | .vge d a b m dt => Sys2Proof.Machine.execVge d a b m dt s
  | .vcompress d a b m dt => Sys2Proof.Machine.execVcompress d a b m dt s
  | .vexpand d a b m dt => Sys2Proof.Machine.execVexpand d a b m dt s
  | .vpick d a b m dt => Sys2Proof.Machine.execVpick d a b m dt s
  | .vrev d a m dt => Sys2Proof.Machine.execVrev d a m dt s
  | .vshup d a b m dt => Sys2Proof.Machine.execVshup d a b m dt s
  | .vshdn d a b m dt => Sys2Proof.Machine.execVshdn d a b m dt s
  | .vinsup d a b m dt => Sys2Proof.Machine.execVinsup d a b m dt s
  | .vinsdn d a b m dt => Sys2Proof.Machine.execVinsdn d a b m dt s
  | .vredsumO d a b m dt => Sys2Proof.Machine.execVredsumO d a b m dt s
  | .vredsumT d a b m dt => Sys2Proof.Machine.execVredsumT d a b m dt s
  | .vredmin d a b m dt => Sys2Proof.Machine.execVredmin d a b m dt s
  | .vredmax d a b m dt => Sys2Proof.Machine.execVredmax d a b m dt s
  | .qand d a b => Sys2Proof.Machine.execQand d a b s
  | .qor d a b => Sys2Proof.Machine.execQor d a b s
  | .qxor d a b => Sys2Proof.Machine.execQxor d a b s
  | .qandn d a b => Sys2Proof.Machine.execQandn d a b s
  | .qpopc d a m => Sys2Proof.Machine.execQpopc d a m s
  | .qfirst d a m => Sys2Proof.Machine.execQfirst d a m s
  | .vbitq d a b m dt => Sys2Proof.Machine.execVbitq d a b m dt s
  | .vpopc d a m dt => Sys2Proof.Machine.execVpopc d a m dt s
  | .vcvt d a b m dt => Sys2Proof.Machine.execVcvt d a b m dt s
  | .vtobfp d a b m dt => Sys2Proof.Machine.execVtobfp d a b m dt s
  | .vfrombfp d a b m dt => Sys2Proof.Machine.execVfrombfp d a b m dt s
  | .vlog2 d a m dt => Sys2Proof.Machine.execVlog2 d a m dt s
  | .vsqrt d a m dt => Sys2Proof.Machine.execVsqrt d a m dt s
  | .vrcp d a m dt => Sys2Proof.Machine.execVrcp d a m dt s
  | .vrsqrt d a m dt => Sys2Proof.Machine.execVrsqrt d a m dt s
  | .vexp2 d a m dt => Sys2Proof.Machine.execVexp2 d a m dt s
  | .vld v b m dt => Sys2Proof.Machine.execVld v b m dt s
  | .vldff v b m dt => Sys2Proof.Machine.execVldff v b m dt s
  | .vst v b m dt => Sys2Proof.Machine.execVst v b m dt s
  | .vlds v b u m dt => Sys2Proof.Machine.execVlds v b u m dt s
  | .vsts v b u m dt => Sys2Proof.Machine.execVsts v b u m dt s
  | .vldx v b j m dt => Sys2Proof.Machine.execVldx v b j m dt s
  | .vldxo v b j m dt => Sys2Proof.Machine.execVldxo v b j m dt s
  | .vstx v b j m dt => Sys2Proof.Machine.execVstx v b j m dt s
  | .vstxo v b j m dt => Sys2Proof.Machine.execVstxo v b j m dt s
  | .vamoadd v b j m dt => Sys2Proof.Machine.execVamoadd v b j m dt s
  | .vamomin v b j m dt => Sys2Proof.Machine.execVamomin v b j m dt s
  | .vamomax v b j m dt => Sys2Proof.Machine.execVamomax v b j m dt s
  | .vamoswap v b j m dt => Sys2Proof.Machine.execVamoswap v b j m dt s
  | .vspld v b m dt => Sys2Proof.Machine.execVspld v b m dt s
  | .vspst v b m dt => Sys2Proof.Machine.execVspst v b m dt s
  | .vpst v b u => Sys2Proof.Machine.execVpst v b u s
  | .vpld v b u => Sys2Proof.Machine.execVpld v b u s
  | .cpls a => Sys2Proof.Machine.execCpls a s
  | .cpld a => Sys2Proof.Machine.execCpld a s
  | .cpgoMm d a b => Sys2Proof.Machine.execCpgoMm d a b s
  | .cpgoMs d a b => Sys2Proof.Machine.execCpgoMs d a b s
  | .cpgoSm d a b => Sys2Proof.Machine.execCpgoSm d a b s
  | .cpgoSs d a b => Sys2Proof.Machine.execCpgoSs d a b s
  | .cwany d a => Sys2Proof.Machine.execCwany d a s
  | .cwall a => Sys2Proof.Machine.execCwall a s
  | .cffr d a => Sys2Proof.Machine.execCffr d a s
  | .ctclr a => Sys2Proof.Machine.execCtclr a s
  | .spool d a b => Sys2Proof.Machine.execSpool d a b s
  | .coll a => Sys2Proof.Machine.execColl a s
  | .kvsel a => Sys2Proof.Machine.execKvsel a s
  | .fsend d a b => Sys2Proof.Machine.execFsend d a b s
  | .fdone => Sys2Proof.Machine.execFdone s
  | .vamocas d a b => Sys2Proof.Machine.execVamocas d a b s
  | .lpush a b => Sys2Proof.Machine.execLpush a b s
  | .wlpush a b => Sys2Proof.Machine.execWlpush a b s
  | .wlins a b => Sys2Proof.Machine.execWlins a b s
  | .wlpop d a b => Sys2Proof.Machine.execWlpop d a b s
  | .wlclose a => Sys2Proof.Machine.execWlclose a s
  | .wlclear a => Sys2Proof.Machine.execWlclear a s
  | .ccall d a b => Sys2Proof.Machine.execCcall d a b s
  | .cret => Sys2Proof.Machine.execCret s
  | .elcat d a b => Sys2Proof.Machine.execElcat d a b s
  | .elfilt d a b => Sys2Proof.Machine.execElfilt d a b s
  | .elrebase d a b => Sys2Proof.Machine.execElrebase d a b s
  | .elapply a => Sys2Proof.Machine.execElapply a s
  | .eldrop a => Sys2Proof.Machine.execEldrop a s
  | .elinfo d a => Sys2Proof.Machine.execElinfo d a s
  | .elgrow a b => Sys2Proof.Machine.execElgrow a b s
  | .mop t a b m => Sys2Proof.Machine.execMop t a b m s
  | .mops t a b c m => Sys2Proof.Machine.execMops t a b c m s
  | .mzero d => Sys2Proof.Machine.execMzero d s
  | .mfold d a b => Sys2Proof.Machine.execMfold d a b s
  | .mrd d a b => Sys2Proof.Machine.execMrd d a b s
  | .mwr d a b => Sys2Proof.Machine.execMwr d a b s
  | .mrdc d a b => Sys2Proof.Machine.execMrdc d a b s
  | .mwl d a b => Sys2Proof.Machine.execMwl d a b s
  | .mstat d => Sys2Proof.Machine.execMstat d s
  | .mopm t a b c m => Sys2Proof.Machine.execMopm t a b c m s
  | .mvw t a b c m => Sys2Proof.Machine.execMvw t a b c m s
  | .add d a b => Sys2Proof.Machine.execAdd d a b s
  | .sub d a b => Sys2Proof.Machine.execSub d a b s
  | .and d a b => Sys2Proof.Machine.execAnd d a b s
  | .or d a b => Sys2Proof.Machine.execOr d a b s
  | .xor d a b => Sys2Proof.Machine.execXor d a b s
  | .andn d a b => Sys2Proof.Machine.execAndn d a b s
  | .sll d a b => Sys2Proof.Machine.execSll d a b s
  | .srl d a b => Sys2Proof.Machine.execSrl d a b s
  | .sra d a b => Sys2Proof.Machine.execSra d a b s
  | .rot d a b => Sys2Proof.Machine.execRot d a b s
  | .slt d a b => Sys2Proof.Machine.execSlt d a b s
  | .sltn d a b => Sys2Proof.Machine.execSltn d a b s
  | .min d a b => Sys2Proof.Machine.execMin d a b s
  | .max d a b => Sys2Proof.Machine.execMax d a b s
  | .minn d a b => Sys2Proof.Machine.execMinn d a b s
  | .maxn d a b => Sys2Proof.Machine.execMaxn d a b s
  | .mul d a b => Sys2Proof.Machine.execMul d a b s
  | .mulh d a b => Sys2Proof.Machine.execMulh d a b s
  | .mulhn d a b => Sys2Proof.Machine.execMulhn d a b s
  | .div d a b => Sys2Proof.Machine.execDiv d a b s
  | .divn d a b => Sys2Proof.Machine.execDivn d a b s
  | .rem d a b => Sys2Proof.Machine.execRem d a b s
  | .remn d a b => Sys2Proof.Machine.execRemn d a b s
  | .popc d a => Sys2Proof.Machine.execPopc d a s
  | .clz d a => Sys2Proof.Machine.execClz d a s
  | .ctz d a => Sys2Proof.Machine.execCtz d a s
  | .sxb d a => Sys2Proof.Machine.execSxb d a s
  | .sxh d a => Sys2Proof.Machine.execSxh d a s
  | .sxw d a => Sys2Proof.Machine.execSxw d a s
  | .zxw d a => Sys2Proof.Machine.execZxw d a s
  | .bswap d a => Sys2Proof.Machine.execBswap d a s
  | .addi d a j => Sys2Proof.Machine.execAddi d a j s
  | .andi d a j => Sys2Proof.Machine.execAndi d a j s
  | .ori d a j => Sys2Proof.Machine.execOri d a j s
  | .xori d a j => Sys2Proof.Machine.execXori d a j s
  | .slli d a u => Sys2Proof.Machine.execSlli d a u s
  | .srli d a u => Sys2Proof.Machine.execSrli d a u s
  | .srai d a u => Sys2Proof.Machine.execSrai d a u s
  | .roti d a u => Sys2Proof.Machine.execRoti d a u s
  | .slti d a j => Sys2Proof.Machine.execSlti d a j s
  | .sltni d a j => Sys2Proof.Machine.execSltni d a j s
  | .lim j partner => Sys2Proof.Machine.execLim j partner s
  | .pcrel d j => Sys2Proof.Machine.execPcrel d j s
  | .ldB d a o => Sys2Proof.Machine.execLdB d a o s
  | .ldH d a o => Sys2Proof.Machine.execLdH d a o s
  | .ldW d a o => Sys2Proof.Machine.execLdW d a o s
  | .ldD d a o => Sys2Proof.Machine.execLdD d a o s
  | .ldBn d a o => Sys2Proof.Machine.execLdBn d a o s
  | .ldHn d a o => Sys2Proof.Machine.execLdHn d a o s
  | .ldWn d a o => Sys2Proof.Machine.execLdWn d a o s
  | .stB d a o => Sys2Proof.Machine.execStB d a o s
  | .stH d a o => Sys2Proof.Machine.execStH d a o s
  | .stW d a o => Sys2Proof.Machine.execStW d a o s
  | .stD d a o => Sys2Proof.Machine.execStD d a o s
  | .beq a b o => Sys2Proof.Machine.execBeq a b o s
  | .bne a b o => Sys2Proof.Machine.execBne a b o s
  | .blt a b o => Sys2Proof.Machine.execBlt a b o s
  | .bge a b o => Sys2Proof.Machine.execBge a b o s
  | .bltn a b o => Sys2Proof.Machine.execBltn a b o s
  | .bgen a b o => Sys2Proof.Machine.execBgen a b o s
  | .jal d o => Sys2Proof.Machine.execJal d o s
  | .jalr d a j => Sys2Proof.Machine.execJalr d a j s
  | .amoaddD d a b => Sys2Proof.Machine.execAmoaddD d a b s
  | .amoandD d a b => Sys2Proof.Machine.execAmoandD d a b s
  | .amoorD d a b => Sys2Proof.Machine.execAmoorD d a b s
  | .amoxorD d a b => Sys2Proof.Machine.execAmoxorD d a b s
  | .amominD d a b => Sys2Proof.Machine.execAmominD d a b s
  | .amomaxD d a b => Sys2Proof.Machine.execAmomaxD d a b s
  | .amominnD d a b => Sys2Proof.Machine.execAmominnD d a b s
  | .amomaxnD d a b => Sys2Proof.Machine.execAmomaxnD d a b s
  | .amoswapD d a b => Sys2Proof.Machine.execAmoswapD d a b s
  | .amocasD d a b => Sys2Proof.Machine.execAmocasD d a b s
  | .amoaddW d a b => Sys2Proof.Machine.execAmoaddW d a b s
  | .amoandW d a b => Sys2Proof.Machine.execAmoandW d a b s
  | .amoorW d a b => Sys2Proof.Machine.execAmoorW d a b s
  | .amoxorW d a b => Sys2Proof.Machine.execAmoxorW d a b s
  | .amominW d a b => Sys2Proof.Machine.execAmominW d a b s
  | .amomaxW d a b => Sys2Proof.Machine.execAmomaxW d a b s
  | .amominnW d a b => Sys2Proof.Machine.execAmominnW d a b s
  | .amomaxnW d a b => Sys2Proof.Machine.execAmomaxnW d a b s
  | .amoswapW d a b => Sys2Proof.Machine.execAmoswapW d a b s
  | .amocasW d a b => Sys2Proof.Machine.execAmocasW d a b s
  | .fenceSv => Sys2Proof.Machine.execFenceSv s
  | .fenceVs => Sys2Proof.Machine.execFenceVs s
  | .fenceRel => Sys2Proof.Machine.execFenceRel s
  | .fenceAcq => Sys2Proof.Machine.execFenceAcq s
  | .fenceFull => Sys2Proof.Machine.execFenceFull s
  | .ifence => Sys2Proof.Machine.execIfence s
  | .bar a => Sys2Proof.Machine.execBar a s
  | .waitNe d a => Sys2Proof.Machine.execWaitNe d a s
  | .waitGe d a => Sys2Proof.Machine.execWaitGe d a s
  | .yield => Sys2Proof.Machine.execYield s
  | .park => Sys2Proof.Machine.execPark s
  | .zline a => Sys2Proof.Machine.execZline a s
  | .ctlRd d n => Sys2Proof.Machine.execCtlRd d n s
  | .ctlWr a n => Sys2Proof.Machine.execCtlWr a n s
  | .ctlWrVstart a => Sys2Proof.Machine.execCtlWrVstart a s
  | .ctlWrFflags a => Sys2Proof.Machine.execCtlWrFflags a s
  | .ctlWrCtximg a => Sys2Proof.Machine.execCtlWrCtximg a s
  | .trap => Sys2Proof.Machine.execTrap s
  | .rtr => Sys2Proof.Machine.execRtr s
  | .ecall => Sys2Proof.Machine.execEcall s
  | .halt => Sys2Proof.Machine.execHalt s
  | .stkvec a => Sys2Proof.Machine.execStkvec a s
  | .unstkvec a => Sys2Proof.Machine.execUnstkvec a s
  | .tlbinv a => Sys2Proof.Machine.execTlbinv a s
  | .icinv a => Sys2Proof.Machine.execIcinv a s
  | .ldrule a => Sys2Proof.Machine.execLdrule a s
  | .strule a => Sys2Proof.Machine.execStrule a s
  | .vtobfpTwin d a b m dt => Sys2Proof.Machine.execVtobfpTwin d a b m dt s
  | .vfrombfpTwin d a b m dt => Sys2Proof.Machine.execVfrombfpTwin d a b m dt s
  | .kvselTwin a => Sys2Proof.Machine.execKvselTwin a s
  | .mopsTwin t a b c m => Sys2Proof.Machine.execMopsTwin t a b c m s
  | .mwlTwin d a b => Sys2Proof.Machine.execMwlTwin d a b s
  | .mvwTwin t a b c m => Sys2Proof.Machine.execMvwTwin t a b c m s
  | .ureject => Sys2Proof.Machine.execUreject s
  | .microcodeTrigger w => Sys2Proof.Machine.execMicrocodeTrigger w s
  | .exitAddressFetch => Sys2Proof.Machine.execExitAddressFetch s
  | .elementFire g k e => Sys2Proof.Machine.execElementFire g k e s
  | .spanHandover core span => Sys2Proof.Machine.execSpanHandover core span s
  | .registerLineFill g line => Sys2Proof.Machine.execRegisterLineFill g line s
  | .pageWalkComplete tenant core va kind => Sys2Proof.Machine.execPageWalkComplete tenant core va kind s
  | .l1LineFill tenant core line => Sys2Proof.Machine.execL1LineFill tenant core line s
  | .homeSliceStore k => Sys2Proof.Machine.execHomeSliceStore k s
  | .storeAcknowledge k => Sys2Proof.Machine.execStoreAcknowledge k s
  | .l2MissFill tenant line zeroHint => Sys2Proof.Machine.execL2MissFill tenant line zeroHint s
  | .capacityStorePerformed k => Sys2Proof.Machine.execCapacityStorePerformed k s
  | .copyTransfer g k j => Sys2Proof.Machine.execCopyTransfer g k j s
  | .emptywaitTimeout g k e => Sys2Proof.Machine.execEmptywaitTimeout g k e s
  | .mwlComplete g k => Sys2Proof.Machine.execMwlComplete g k s
  | .spoolHeaderRead g k => Sys2Proof.Machine.execSpoolHeaderRead g k s
  | .spoolBufferPartial g k bag buffer => Sys2Proof.Machine.execSpoolBufferPartial g k bag buffer s
  | .spoolBagComplete g k bag => Sys2Proof.Machine.execSpoolBagComplete g k bag s
  | .kvselScoreMerge g k => Sys2Proof.Machine.execKvselScoreMerge g k s
  | .trapEntry g => Sys2Proof.Machine.execTrapEntry g s
  | .preempt g => Sys2Proof.Machine.execPreempt g s
  | .resumeTask g target => Sys2Proof.Machine.execResumeTask g target s
  | .parkWake g => Sys2Proof.Machine.execParkWake g s
  | .parkTimeout g => Sys2Proof.Machine.execParkTimeout g s
  | .barrierComplete g pod => Sys2Proof.Machine.execBarrierComplete g pod s
  | .barrierdead tenant launch => Sys2Proof.Machine.execBarrierdead tenant launch s
  | .waitReread g => Sys2Proof.Machine.execWaitReread g s
  | .waitLimitExpiry g => Sys2Proof.Machine.execWaitLimitExpiry g s
  | .notifyKick tenant addr p => Sys2Proof.Machine.execNotifyKick tenant addr p s
  | .slotFetch tenant queue => Sys2Proof.Machine.execSlotFetch tenant queue s
  | .queuePollTimer tenant queue => Sys2Proof.Machine.execQueuePollTimer tenant queue s
  | .queueStallTimeout tenant queue => Sys2Proof.Machine.execQueueStallTimeout tenant queue s
  | .queueDrainEnd tenant queue => Sys2Proof.Machine.execQueueDrainEnd tenant queue s
  | .launchStartTime tenant launch => Sys2Proof.Machine.execLaunchStartTime tenant launch s
  | .launchTriggerWrite tenant launch trig => Sys2Proof.Machine.execLaunchTriggerWrite tenant launch trig s
  | .launchDeadline tenant launch => Sys2Proof.Machine.execLaunchDeadline tenant launch s
  | .dispatchTask tenant core => Sys2Proof.Machine.execDispatchTask tenant core s
  | .fsendAccept g k => Sys2Proof.Machine.execFsendAccept g k s
  | .handlerStart tenant slice tag => Sys2Proof.Machine.execHandlerStart tenant slice tag s
  | .collChunkArrival g k peer acked data => Sys2Proof.Machine.execCollChunkArrival g k peer acked data s
  | .collComplete g k => Sys2Proof.Machine.execCollComplete g k s
  | .collTimeout g k => Sys2Proof.Machine.execCollTimeout g k s
  | .remoteAccessTimeout g k => Sys2Proof.Machine.execRemoteAccessTimeout g k s
  | .rmaWrite port va data => Sys2Proof.Machine.execRmaWrite port va data s
  | .rmaRead port va len => Sys2Proof.Machine.execRmaRead port va len s
  | .rmaAtomic port va op operand compare => Sys2Proof.Machine.execRmaAtomic port va op operand compare s
  | .interruptDeliveryAck tenant => Sys2Proof.Machine.execInterruptDeliveryAck tenant s
  | .createTenant h r => Sys2Proof.Machine.execCreateTenant h r s
  | .destroyTenant h => Sys2Proof.Machine.execDestroyTenant h s
  | .setWindow h index w => Sys2Proof.Machine.execSetWindow h index w s
  | .configureQueue h queue r => Sys2Proof.Machine.execConfigureQueue h queue r s
  | .destroyQueue h queue => Sys2Proof.Machine.execDestroyQueue h queue s
  | .buildChain h r => Sys2Proof.Machine.execBuildChain h r s
  | .freeChain h slice => Sys2Proof.Machine.execFreeChain h slice s
  | .retryChain h slice => Sys2Proof.Machine.execRetryChain h slice s
  | .discardMessage h slice => Sys2Proof.Machine.execDiscardMessage h slice s
  | .registerKey h id key => Sys2Proof.Machine.execRegisterKey h id key s
  | .removeKey h id => Sys2Proof.Machine.execRemoveKey h id s
  | .configureEndpoint h index port uet => Sys2Proof.Machine.execConfigureEndpoint h index port uet s
  | .loadMicrocodeBundle h bundle => Sys2Proof.Machine.execLoadMicrocodeBundle h bundle s
  | .microcodeInstall => Sys2Proof.Machine.execMicrocodeInstall s
  | .readAcceptedClasses h => Sys2Proof.Machine.execReadAcceptedClasses h s
  | .attest h nonce => Sys2Proof.Machine.execAttest h nonce s
  | .loadObject tenant file base => Sys2Proof.Machine.execLoadObject tenant file base s
  | .powerOn => Sys2Proof.Machine.execPowerOn s
  | .timeBaseSync ns => Sys2Proof.Machine.execTimeBaseSync ns s
  | .thermalClockStep die => Sys2Proof.Machine.execThermalClockStep die s
  | .dieLoss die => Sys2Proof.Machine.execDieLoss die s
  | .owningDeviceAcknowledge g k ok data => Sys2Proof.Machine.execOwningDeviceAcknowledge g k ok data s
  | .remoteWaitReread g v => Sys2Proof.Machine.execRemoteWaitReread g v s
  | .unknownOpcode h opcode => Sys2Proof.Machine.execUnknownOpcode h opcode s
  | .railOutOfRange inRange => Sys2Proof.Machine.execRailOutOfRange inRange s

end Sys2Proof.Machine
end

