-- ==== Sys2Proof/Machine/Run.lean ====
section
/-! DEFINITION. One word of the context whose turn it is, one move of the agenda, and the placing of a word where the next fetch
finds it (log 2, log 5, log 10). -/

namespace Sys2Proof.Machine

/-- What follows an outcome that is a next state. -/
def onNext (f : State → State) : Result → Result
  | .next s => .next (f s)
  | r => r

/-- The context whose turn it is runs the word at its pc, or in its routine; a handler only the words of its profile (R355). -/
noncomputable def State.runWord (s : State) : Result :=
  match s.leaveRoutine.nextInstr with
  | (.error (c, a), t) => trap c a t
  | (.ok i, t) => if isHandler t.ctx.agent && !handlerMay i then trap .illop 0 t else exec i t

/-- A unit with an error that ECC cannot correct (R422). -/
def State.mark (s : State) (u : ErrUnit) : State := if s.lostUnits.contains u then s else { s with lostUnits := s.lostUnits ++ [u] }

/-- A unit of a line of the L2 gets an error that ECC cannot correct (R421): lost where the line is modified; else the line is fetched
again when it is needed. -/
def State.l2Error (s : State) (w : Nat) : State :=
  match s.l2Find (w / 16) with
  | some e => if e.dirty then s.mark (.l2 w) else s.l2Evict e
  | none => s

/-- A unit of a context's register file gets an error that ECC cannot correct (R421): lost where the line is modified; else a line
that the image holds is fetched again when it is needed. -/
def State.registerError (s : State) (g : Agent) (w : Nat) : State :=
  let line := lineOfByte (8 * w)
  let c := s.getCtx g
  if c.dirty.contains line then s.mark (.register g w)
  else
    match g with
    | .ctx id =>
      if c.allBacked || c.backed.contains line then
        (s.mapCtx g fun c => { c with v := c.v.clear (256 * line) (256 * line + 256) }).mapCore (id / 8) fun k =>
          { k with rf := k.rf.filter fun x => x != (id % 8, line) }
      else s
    | .handler _ _ _ => s

/-- A move of the agenda that is not an instruction or event (log 2). -/
def State.moveOther (s : State) : Move → State
  | .turn g => s.turnTo g
  | .storeQueue g => s.leaveQueue g
  | .issue g => (s.issueHead g).getD s
  | .podIfence => s.emptyFetch 5 0
  | .moduleLost m => if s.modulesLost.contains m then s else { s with modulesLost := s.modulesLost ++ [m] }
  | .rankLost r => s.losePeers [r]
  | .tick ns => { s with now := s.now + ns }
  | .corrupt l => if s.mismatch.contains l then s else { s with mismatch := s.mismatch ++ [l] }
  | .uncorrectable u =>
    match u with
    | .register g w => s.registerError g w
    | .l2 w => s.l2Error w
    | .memory n => ({ s with l2 := s.l2.map fun (e : L2Line) =>
        if e.line == n / 4 then { e with sound := (n % 4) :: e.sound.filter (· != n % 4) } else e } : State).mark u
    | u => s.mark u
  | .corrected t => s.mapTenant t fun a => { a with cecount := a.cecount + 1 }
  | _ => s

/-- One move of the agenda. -/
noncomputable def State.move (s : State) : Move → Result
  | .event i => exec i s
  | .word => if s.canRun s.ctx then s.runWord else done s
  | m => done (s.moveOther m)

/-! ## Placing a word at the front -/

/-- A window that maps the TPAs below 1 GiB to the device addresses below 1 GiB, with every permission. -/
def frontWindow : Window := { tbase := 0, size := 2 ^ 30, dbase := 0, perm := 7, kind := 0 }

/-- A leaf that maps the 1 GiB page of an address to the TPAs below 1 GiB, with every permission, for a tenant. -/
def frontLeaf (t : Nat) (va : Word) : TlbEntry :=
  { tenant := t, page := va.toNat % 2 ^ 57 / 2 ^ 30, bits := 30, frame := 0, perm := 15, attr := .normal, zero := false
    window := some frontWindow }

/-- The machine with the fetch of the context whose turn it is mapped: where its pc does not translate, its tenant has a window and its
place a leaf for it (log 10). -/
def State.mapFront (s : State) (t : Nat) : State :=
  match s.translate (placeOf s.ctx.agent) t .fetch s.ctx.user s.ctx.pc with
  | .ok _ => s
  | .error _ =>
    let s := if (findTenant t s.tenants).isSome then s else { s with tenants := s.tenants ++ [{ id := t }] }
    let s := s.mapTenant t fun a => { a with windows := (16, frontWindow) :: a.windows }
    let put := fun (c : Tlb) => { c with leaves := frontLeaf t s.ctx.pc :: c.leaves }
    match s.ctx.agent with
    | .ctx id => s.mapCore (id / 8) fun k => { k with tlb := put k.tlb }
    | .handler _ _ _ => { s with ioTlb := s.ioTlb.map put }

/-- The machine with bytes stored where the context whose turn it is fetches its next instruction, that context running, and nothing
older in its way (log 10). -/
def State.placeFront (s : State) (bs : List Byte) : State :=
  let t := s.tenantOf s.ctx.agent
  let core := (coreOf s.ctx.agent).getD 0
  let c := s.ctx
  let s := { s with
    moves := []
    ctx := { c with
      task := some (c.task.getD { tenant := t, launch := 0 }), hold := .run, pending := none, routine := none
      rules := (c.rules.filter fun (r : Rule) => !answers r.instr).map fun (r : Rule) => { r with fault := none }
      queue := c.queue.filter fun (r : Rule) => !answers r.instr } }
  let s := (s.mapFront t).mapCore core fun k => { k with stopped := false, icache := [] }
  match s.translate (placeOf s.ctx.agent) t .fetch s.ctx.user s.ctx.pc with
  | .ok p =>
    let lines := [p.pa / 128, (p.pa + bs.length - 1) / 128]
    { s with
      hbm := s.hbm.writeBytes p.pa bs
      l2 := s.l2.filter fun (e : L2Line) => !lines.contains e.line
      mismatch := s.mismatch.filter fun l => !lines.contains l
      lostUnits := s.lostUnits.filter fun u => match u with
        | .memory k => !lines.contains (k / 4)
        | .l2 k => !lines.contains (k / 16)
        | _ => true }
  | .error _ => s

end Sys2Proof.Machine
end

