-- ==== Sys2Proof/Machine/Step.lean ====
section
/-! DEFINITION. One step of the machine: the first move of its agenda, or, where the agenda is empty, the next word of the context
whose turn it is with what follows from it, or what the machine does of itself (log 2, log 5). -/

namespace Sys2Proof.Machine

/-- One step. -/
noncomputable def step (s : State) : Host.Outcome State Fault Refusal :=
  match s.moves with
  | m :: ms => ({ s with moves := ms } : State).move m
  | [] => if s.canRun s.ctx then onNext State.finish s.runWord else .next s.idleStep

/-- The state with an instruction of `nbits` bits `w`, and zeros above them, where `step` fetches its next instruction. -/
def State.withFetchWord (s : State) (nbits w : Nat) : State := s.placeFront (toBytes 8 (w % 2 ^ nbits))

end Sys2Proof.Machine
end

