-- ==== Sys2Proof/Safety.lean ====
section
/-! DEFINITION. What counts as a safe run, and the terms that the statements use: how one byte of memory reads, what a word leaves
unchanged, and when an element of a standing rule may fire. -/

namespace Sys2Proof.Machine

/-! ## Runs -/

/-- Every memory of a state has its canonical form. -/
def State.wf (s : State) : Bool :=
  s.hbm.wf && (s.l2.all fun e => e.data.wf) && (s.cores.all fun c => c.2.scratch.wf) && s.allCtx.all fun c => c.v.wf

/-- An outcome in which the machine goes on. -/
def goesOn (r : Result) : Prop := ∃ t, r = .next t

/-- A run of `n` steps that stops nowhere. -/
def SafeRun (n : Nat) (s : State) : Prop := goesOn (Host.Core.run Sys2Proof.core n s)

/-- An outcome that is a next state, of which `p` holds. -/
def Completes (r : Result) (p : State → Prop) : Prop := ∃ t, r = .next t ∧ p t

/-- A state with other fields of the context whose turn it is, one word further. -/
def State.onward (s : State) (c : Ctx) : State := ({ s with ctx := c } : State).advance

/-! ## Words that enter the vector queue -/

/-- The snapshot that a word takes when it enters the vector queue, with its captured scalar operands (R107), and the spans of its strip
(R127). -/
def IsSnapshot (s : State) (i : Instr) (a b : Word) (q : Rule) : Prop :=
  q.instr = i ∧ q.pc = (match s.ctx.routine with
    | none => s.ctx.pc
    | some r => r.pc) ∧ q.vl = s.ctx.vl.toNat ∧ q.vtype = s.ctx.vtype ∧ q.mtype = s.ctx.mtype ∧
  q.wb = s.ctx.wb.toNat ∧ q.cdepth = s.ctx.cdepth ∧ q.lanes = s.lanesOf s.ctx.agent ∧ q.strip = s.ctx.stripNow ∧ q.spans = spansFor (s.spanList s.ctx.agent) q.strip ∧ q.opA = a ∧ q.opB = b ∧ q.fault = none ∧
  q.issued = false ∧ q.detached = false

/-- A word enters the vector queue with a snapshot of which `p` holds, vstart becomes 0, and the next word is next; nothing else
changes (R107, R111, R129). -/
def Queues (s : State) (r : Result) (i : Instr) (a b : Word) (p : Rule → Prop) : Prop :=
  Completes r fun t => ∃ q, IsSnapshot s i a b q ∧ p q ∧
    t = s.onward { s.ctx with queue := s.ctx.queue ++ [q], vstart := 0, seq := s.ctx.seq + 1 }

/-- An older `vldff` of the context whose turn it is has not resolved vl yet (R130, R189). -/
def State.vlOpen (s : State) : Prop := ∃ q ∈ s.ctx.rules ++ s.ctx.queue, ∃ v c m dt, q.instr = .vldff v c m dt ∧ q.eng.phase = 0

/-- A word whose operands and configuration are legal enters the vector queue where that has a place and no older `vldff` has vl
unresolved, and else waits (R129, R130). -/
def Issues (s : State) (r : Result) (i : Instr) (a b : Word) (p : Rule → Prop) : Prop :=
  let waits := s.vlOpen ∨ 32 ≤ s.ctx.queue.length
  (waits → r = .next { s with ctx := { s.ctx with hold := .stall } }) ∧ (¬ waits → Queues s r i a b p)

/-- The elements below vstart are done at issue, and no other (R111). -/
def FromVstart (s : State) (q : Rule) : Prop :=
  q.vstart = s.ctx.vstart.toNat ∧ ∀ e, e < 4096 → q.done.getLsbD e = decide (e < s.ctx.vstart.toNat)

/-- The one element of an `fsend` is to be done, whatever vstart is (log 18). -/
def OneElement (q : Rule) : Prop := q.done = 0

/-- A value of vtype that breaks neither R114 nor R115. -/
def LegalVtype (v : Word) : Prop :=
  let n := v.toNat
  let sew := n % 4
  let cls := n / 4 % 8
  (cls ≤ 1 ∨ cls = 2 ∧ 1 ≤ sew ∨ cls = 3 ∧ sew = 1 ∨ (4 ≤ cls ∧ cls ≤ 6) ∧ sew = 0) ∧ n / 32 % 8 < 7 ∧ n / 256 % 4 < 3 ∧
    n / 1024 % 8 < 5 ∧ n / 2 ^ 14 % 8 < 6 ∧ n / 2 ^ 17 % 16 < 9 ∧ n < 2 ^ 21

/-- A value of mtype that breaks none of the rows of R293. -/
def LegalMtype (v : Word) : Prop :=
  let n := v.toNat
  n % 16 < 7 ∧ n / 16 % 8 < 7 ∧ n / 2 ^ 7 % 2 = 0 ∧ n / 2 ^ 15 % 2 = 0 ∧ n / 2 ^ 23 % 2 = 0 ∧ n / 2 ^ 27 % 2 = 0 ∧ n < 2 ^ 32

/-- Bits 63:57 of an address are copies of bit 56 (R174). -/
def Canonical (v : Word) : Prop := v = (v.setWidth 57).signExtend 64

/-- The pc that a word has for its rules: in a routine that of the trigger (R52). -/
def State.wordPc (s : State) : Word :=
  match s.ctx.routine with
  | none => s.ctx.pc
  | some r => r.pc

/-- The level U (R38): a handler of a chain, or a context at trap depth 0. -/
def State.atUser (s : State) : Prop :=
  match s.ctx.agent with
  | .handler _ _ _ => True
  | .ctx _ => s.ctx.tstat.toNat % 4 = 0

/-- A line of the vector image can be read in the register file without an access to the image: it is resident, or is a fresh one for
which the register file has room (R118). -/
def State.lineReady (s : State) (line : Nat) : Prop :=
  match s.ctx.agent with
  | .handler _ _ _ => True
  | .ctx id => (id % 8, line) ∈ (s.core (id / 8)).rf ∨
      (s.ctx.allBacked = false ∧ line ∉ s.ctx.backed ∧ (s.core (id / 8)).rf.length < 8192)

/-- The lane table of a context's core after a renegotiation with a request (R122); a handler has none. -/
def Renegotiated (s t : State) (request : Nat → Nat) : Prop :=
  match s.ctx.agent with
  | .ctx id => t.core (id / 8) = (s.core (id / 8)).renegotiate (id % 8) (request id) ∧ ∀ k, k ≠ id / 8 → t.core k = s.core k
  | .handler _ _ _ => t.cores = s.cores

/-- The class field of the vtype in force (R114). -/
def State.cls (s : State) : Nat := s.ctx.vtype.toNat / 4 % 8

/-- The sew code of the vtype in force (R114). -/
def State.sew (s : State) : Nat := s.ctx.vtype.toNat % 4

/-- A word that issues where its configuration is legal, and else meets a cause (R47 step 8). -/
def IssuesWhere (s : State) (legal : Prop) (cause : Cause) (i : Instr) (a b : Word) (p : Rule → Prop) : Prop :=
  (legal → Issues s (exec i s) i a b p) ∧ (¬ legal → exec i s = .next (s.raise cause 0))

/-- A word that issues where its class is legal and vstart is 0: ILLOP comes first, then ILLCFG (R272, R280, R283, R288). -/
def IssuesWhole (s : State) (legal : Prop) (i : Instr) : Prop :=
  (legal → s.ctx.vstart = 0 → Issues s (exec i s) i 0 0 (FromVstart s)) ∧ (¬ legal → exec i s = .next (s.raise .illop 0)) ∧
  (legal → s.ctx.vstart ≠ 0 → exec i s = .next (s.raise .illcfg 0))

/-! ## Reading memory -/

/-- The byte of a device address as an agent reads it at a scope: from the local array or a pending store where R153 and R168 give
one, else what the home slice holds. -/
def State.readByte (s : State) (g : Agent) (scope pa : Nat) : Byte :=
  match s.byteSource g scope pa with
  | .value b => b
  | _ => s.homeByte pa

/-- The byte of a device address as an agent's vector stream reads it above core scope: its own youngest pending store to it, else what
the home slice holds (R153, R168). -/
def State.byteAt (s : State) (g : Agent) (pa : Nat) : Byte := s.readByte g 2 pa

/-- The byte of the youngest store to a device address in the store queue of an agent (R184). -/
def State.queuedByte (s : State) (g : Agent) (pa : Nat) : Option Byte := (youngestByte (fun f => f.queuedOf g) pa s.flights).map (·.1)

/-- The byte of a device address as an agent's scalar stream reads it at a scope: what its store queue holds, else what its vector
stream reads (R148, R184). -/
def State.scalarByte (s : State) (g : Agent) (scope pa : Nat) : Byte := (s.queuedByte g pa).getD (s.readByte g scope pa)

/-- A byte of device memory reads as before, for an agent's scalar stream and for its vector stream. -/
def SameByte (s t : State) (g : Agent) (pa : Nat) : Prop := t.byteAt g pa = s.byteAt g pa ∧ t.scalarByte g 2 pa = s.scalarByte g 2 pa

/-- Every byte of device memory and of every scratchpad reads as before, for every agent. -/
def SameMemory (s t : State) : Prop :=
  (∀ g pa, SameByte s t g pa) ∧ ∀ k a, (t.core k).scratch.read a = (s.core k).scratch.read a

/-- An older `fence.sv` holds the scalar stream back: a rule older than it still has accesses to perform (R149, R195). -/
def State.fenced (s : State) : Prop := ∃ n, s.ctx.svFence = some n ∧ ∃ q ∈ s.ctx.rules ++ s.ctx.queue, q.seq < n ∧ touchesMemory q.instr = true

/-- A fill of the L2 for a line of a tenant leaves every line as it reads: the L2 has the line, or the line comes from memory and
the tenant has a way free for it (R170, R171, R374). -/
def State.fillKeeps (s : State) (tenant line : Nat) (zeroHint : Bool) : Prop :=
  (s.l2Find line).isSome = true ∨ (zeroHint = false ∧
    (s.l2.filter fun e => e.owner == tenant && homeSet e.line == homeSet line && s.homeSlice e.line == s.homeSlice line).length <
      max 1 (popcount 16 (s.tenant tenant).wayMask))

/-- What the L1 of a core holds of a line is what the stores of the core that are on their way, or the home slice, hold (R152, R168). -/
def State.l1Agrees (s : State) (k line : Nat) : Prop :=
  ∀ e ∈ (s.core k).l1, e.line = line → ∀ o b, o < 128 → lookup? o e.bytes = some b →
    b = ((youngestByte (fun f => f.leaves k) (128 * line + o) s.flights).map (·.1)).getD (s.homeByte (128 * line + o))

/-- The L1 of an agent's core takes a line without a change to what loads read: its set has a way free, or its lines agree with the home
slices (R167). -/
def State.l1Keeps (s : State) (g : Agent) (line : Nat) : Prop :=
  match coreOf g with
  | none => True
  | some k =>
    let mates := (s.core k).l1.filter fun x => x.line != line && x.line % (s.core k).l1Sets == line % (s.core k).l1Sets
    mates.length < 8 ∨ ∀ x ∈ mates, s.l1Agrees k x.line

/-- A home slice takes a store to a line that it makes itself, which drops the line from every L1, without a change to what loads read of
the bytes around it (R158, R170). -/
def State.homeKeeps (s : State) (tenant line : Nat) (zeroHint : Bool) : Prop :=
  s.fillKeeps tenant line zeroHint ∧ ∀ k, s.l1Agrees k line

/-- A load of an agent that misses fills the L2 and its core's L1, and both keep what they hold. -/
def State.takesLine (s : State) (g : Agent) (line : Nat) (zeroHint : Bool) : Prop :=
  s.fillKeeps (s.tenantOf g) line zeroHint ∧ s.l1Keeps g line

/-- What a scalar access of `n` bytes meets before it reaches memory, or where it lies: canonical form, alignment, translation (R47
step 10, R174, R175, R380). -/
def State.scalarTarget (s : State) (acc : Access) (addr : Word) (n : Nat) : Except Cause Phys :=
  if isCanonical addr = false then .error (faultOf acc)
  else if addr.toNat % n ≠ 0 then .error .align
  else s.translate (placeOf s.ctx.agent) (s.tenantOf s.ctx.agent) acc s.ctx.user addr

/-- A value that a load of `n` bytes widens: its upper bits are copies of bit 8n - 1, or zeros (R184). -/
def Widened (n : Nat) (signed : Bool) (v : Word) : Prop :=
  v = if signed then (v.setWidth (8 * n)).signExtend 64 else (v.setWidth (8 * n)).setWidth 64

/-- Every rule older than the word that is next has performed its accesses of memory (R195). -/
def State.quiet (s : State) : Prop := ∀ q ∈ s.ctx.rules ++ s.ctx.queue, touchesMemory q.instr = false

/-- Every store of the context is performed at the point of coherence of a scope (R151): in the local array for lane and core scope,
acknowledged above them, where those that its acquires have ordered before its accesses count too (R156). -/
def State.released (s : State) (scope : Nat) : Prop :=
  (∀ f ∈ s.flights, f.agent = s.ctx.agent → if scope ≤ 1 then f.stage ≠ .queued else f.stage = .acked) ∧
  (1 < scope → ∀ i ∈ s.ctx.acquired, s.underway i = false)

/-! ## Frames -/

/-- Execution goes on `n` words further: at the pc, in a routine at its offset, and where the routine ends with them after the word that
triggered it (R52). -/
def MovesBy (n : Nat) (s t : State) : Prop :=
  match s.ctx.routine with
  | none => t.ctx.pc = s.ctx.pc + BitVec.ofNat 64 (4 * n) ∧ t.ctx.routine = none
  | some r => if r.off + n < r.words then t.ctx.pc = s.ctx.pc ∧ t.ctx.routine = some { r with off := r.off + n }
      else t.ctx.pc = r.pc + 4 ∧ t.ctx.routine = none

/-- What X[x] holds behind a word of `n` words' length that leaves v in it: where a routine ends with the word, x116 to x123 have their
values of before the trigger again (R50, R52). -/
def Ctx.leaves (c : Ctx) (n : Nat) (x : Reg) (v : Word) : Word :=
  match c.routine with
  | none => v
  | some r => if r.off + n < r.words ∨ x.val < 116 then v else (c.outer.toList[x.val - 116]?).getD v

/-- Nothing changes but fields of the context whose turn it is, and of those only registers x, the position, `hold`, and the
remote accesses of the word itself. -/
def OnlyScalars (s t : State) : Prop :=
  t = { s with ctx := { s.ctx with x := t.ctx.x, pc := t.ctx.pc, routine := t.ctx.routine, hold := .run, remotes := t.ctx.remotes } }

/-- Nothing changes but the context whose turn it is, caches, translation caches, the memory behind them with its error marks, and
the stores in flight. -/
def OnlyCaches (s t : State) : Prop :=
  t = { s with ctx := t.ctx, cores := t.cores, l2 := t.l2, hbm := t.hbm, ioTlb := t.ioTlb, flights := t.flights, stores := t.stores,
               trails := t.trails, mismatch := t.mismatch, lostUnits := t.lostUnits } ∧
  ∀ k, t.core k = { s.core k with l1 := (t.core k).l1, tlb := (t.core k).tlb, micro := (t.core k).micro }

/-- Of the context whose turn it is only registers x, the position, `hold`, and the remote accesses of the word itself change. -/
def SameContext (s t : State) : Prop :=
  t.ctx = { s.ctx with x := t.ctx.x, pc := t.ctx.pc, routine := t.ctx.routine, hold := .run, remotes := t.ctx.remotes }

/-- The same of an access of memory, which may also change what the model keeps of the order of its context's accesses: the stores that its
loads are ordered behind (R156, log 76), and the reads that go before older ones (R148, log 87). -/
def SameButOrder (s t : State) : Prop :=
  t.ctx = { s.ctx with x := t.ctx.x, pc := t.ctx.pc, routine := t.ctx.routine, hold := .run, remotes := t.ctx.remotes
                       heard := t.ctx.heard, ahead := t.ctx.ahead }

/-- A word of `n` words' length completes, writes a value that `p` holds of to X[d] (nothing for x0, R259), and changes nothing else: no other register,
no flag, no special register, no byte of memory. -/
def WritesXOver (n : Nat) (s : State) (r : Result) (d : Reg) (p : Word → Prop) : Prop :=
  Completes r fun t => (∃ v, p v ∧ ∀ x : Reg, t.getX x = s.ctx.leaves n x (if x = d ∧ d ≠ 0 then v else s.getX x)) ∧
    MovesBy n s t ∧ OnlyScalars s t ∧ SameMemory s t

/-- The same of a single word. -/
abbrev WritesX (s : State) (r : Result) (d : Reg) (p : Word → Prop) : Prop := WritesXOver 1 s r d p

/-- The scope at which a scalar access of the context whose turn it is acts: that of the vtype in force, from die scope on for a handler
(R146, R356). -/
def State.scalarScope (s : State) : Nat :=
  if (coreOf s.ctx.agent).isSome then scopeOf s.ctx.vtype else max (scopeOf s.ctx.vtype) 3

/-- What an access of a scalar word to a page of another device comes to (R163, R371), as access number `e` of the word at an address of that
device: it is sent once, and the word waits until the owning device has answered; a lost one is DATALOSS; what follows the answer is
`answered`. A handler has no such access (R356). -/
def Remotely (s : State) (r : Result) (acc : Access) (addr : Word) (owner tpa e : Nat) (op : RemoteOp) (bytes : List Byte)
    (answered : List Byte → Prop) : Prop :=
  match s.ctx.agent with
  | .handler _ _ _ => ∃ t, r = .next (t.raise (faultOf acc) addr) ∧ t.ctx = s.ctx ∧ OnlyCaches s t ∧ SameMemory s t
  | .ctx _ =>
    match s.ctx.remotes.find? fun q => q.key == s.ctx.instrPc && q.elem == e && q.tpa == tpa && decide (q.op = op) with
    | none => Completes r fun t =>
      (∃ q, t.ctx = { s.ctx with hold := .stall, remotes := s.ctx.remotes ++ [q] } ∧ q.owner = owner ∧ q.tpa = tpa ∧ q.op = op ∧
        q.bytes = bytes ∧ q.issued = s.now ∧ q.answer = none ∧ q.lost = false) ∧
      t.out = s.out ++ [.remote owner tpa op bytes] ∧ OnlyCaches { s with out := t.out } t ∧ SameMemory s t
    | some q =>
      (q.lost = true → ∃ t, r = .next (t.raise .dataloss addr) ∧ t.ctx = { s.ctx with remotes := t.ctx.remotes } ∧ OnlyCaches s t ∧
        SameMemory s t) ∧
      (q.lost = false → q.answer = none → Completes r fun t => t.ctx = { s.ctx with hold := .stall } ∧ OnlyCaches s t ∧ SameMemory s t) ∧
      (q.lost = false → ∀ bs, q.answer = some bs → answered bs)

/-- What a scalar load of the records of its context's lists finds for `n` bytes: nothing outside collecting mode (R227, R233). -/
def State.recordsFor (s : State) (addr : Word) (n : Nat) : Seen (List (Option Byte)) :=
  s.ownBytes { s.scalarAcc with scope := 0, scalar := false } addr n (if s.ctx.collecting then s.ctx.lists else [])

/-- A scalar load of `n` bytes at an address once its records are read: a cause of R380 first; then, in a line of a page of this device,
it waits for another context's pending store (R168), raises the error of the line where it reads it (R419, R422), or takes n little-endian bytes, each from
a record, else from the store queue, else the youngest one that it may see, widens them into X[d] and goes on. On a page of another device
each byte comes from a record, else from the answer of that device (R163). Memory reads as before. -/
def LoadsFrom (s : State) (r : Result) (d : Reg) (addr : Word) (n : Nat) (signed : Bool) (own : List (Option Byte)) : Prop :=
  let g := s.ctx.agent
  match s.translate (placeOf g) (s.tenantOf g) .load s.ctx.user addr with
  | .error c => r = .next (s.raise c addr)
  | .ok p =>
    (p.attr = .remote → Remotely s r .load addr p.owner p.pa 0 .load [] fun bs => Completes r fun t =>
      (∃ v, Widened n signed v ∧ (∀ k, k < n → v.extractLsb' (8 * k) 8 = ((own[k]?).getD none).getD ((bs[k]?).getD 0)) ∧
        ∀ x, t.getX x = s.ctx.leaves 1 x (if x = d ∧ d ≠ 0 then v else s.getX x)) ∧
      MovesBy 1 s t ∧ SameButOrder s t ∧ OnlyCaches s t ∧ SameMemory s t) ∧
    (p.attr ≠ .remote → (p.pa + n - 1) / 128 = p.pa / 128 →
      if s.loadWaits g s.scalarScope p.pa n then
        Completes r fun t => t.ctx = { s.ctx with hold := .stall } ∧ OnlyCaches s t ∧ SameMemory s t
      else match s.loadError g s.scalarScope p.pa n p.zero with
        | some c => ∃ t, r = .next (t.raise c addr) ∧ t.ctx = s.ctx ∧ OnlyCaches s t ∧ SameMemory s t
        | none =>
          s.loadMisses g s.scalarScope p.pa n = false ∨ s.takesLine g (p.pa / 128) p.zero →
          Completes r fun t =>
            (∃ v, Widened n signed v ∧
              (∀ k, k < n → v.extractLsb' (8 * k) 8 = ((own[k]?).getD none).getD (s.scalarByte g s.scalarScope (p.pa + k))) ∧
              ∀ x, t.getX x = s.ctx.leaves 1 x (if x = d ∧ d ≠ 0 then v else s.getX x)) ∧
            MovesBy 1 s t ∧ SameButOrder s t ∧ OnlyCaches s t ∧ t.flights = s.flights ∧ SameMemory s t)

/-- A scalar load of `n` bytes at X[a] + off9 · n: it waits behind a `fence.sv`; a cause of R174 or R175 comes next; then the records of
collecting mode are read (R233), which may meet a cause or wait for an owning device; then the load takes its bytes. -/
def LoadsX (s : State) (r : Result) (d a : Reg) (o : BitVec 9) (n : Nat) (signed : Bool) : Prop :=
  let addr := s.getX a + BitVec.ofInt 64 (o.toInt * n)
  (s.fenced → r = .next { s with ctx := { s.ctx with hold := .stall } }) ∧
  (¬ s.fenced →
    if isCanonical addr = false then r = .next (s.raise .loadfault addr)
    else if addr.toNat % n ≠ 0 then r = .next (s.raise .align addr)
    else match s.recordsFor addr n with
      | (.error (c, _), t) => r = .next (t.raise c addr)
      | (.ok none, t) => r = .next { t with ctx := { t.ctx with hold := .stall } }
      | (.ok (some own), t) => LoadsFrom t r d addr n signed own)

/-- The store of bytes to a device address by an agent has happened as far as its vector stream can see, and no other byte reads
otherwise for any agent; the home slices hold what they held until the store is performed there, which for a context it is not yet
(R152, R356). -/
def Stored (s t : State) (g : Agent) (pa : Nat) (bytes : List Byte) : Prop :=
  (∀ k, k < bytes.length → some (t.byteAt g (pa + k)) = bytes[k]?) ∧
  (∀ h x, ¬ (pa ≤ x ∧ x < pa + bytes.length) → SameByte s t h x) ∧
  (∀ k a, (t.core k).scratch.read a = (s.core k).scratch.read a) ∧
  ((coreOf g).isSome = true → ∀ x, t.homeByte x = s.homeByte x)

/-- The store of bytes to a device address stands in the store queue of a context: its scalar stream reads them, and no other byte reads
otherwise for any agent, no byte for a vector stream, and none at a home slice (R184). -/
def StoreQueued (s t : State) (g : Agent) (pa : Nat) (bytes : List Byte) : Prop :=
  (∀ k, k < bytes.length → some (t.scalarByte g 2 (pa + k)) = bytes[k]?) ∧
  (∀ h x, ¬ (pa ≤ x ∧ x < pa + bytes.length) → SameByte s t h x) ∧ (∀ h x, t.byteAt h x = s.byteAt h x) ∧
  (∀ k a, (t.core k).scratch.read a = (s.core k).scratch.read a) ∧ ∀ x, t.homeByte x = s.homeByte x

/-- A scalar store of bytes, outside collecting mode, at an address of an alignment: it waits behind a `fence.sv` and while the store
queue is full; a cause of R174, R175 or R380 comes next; on a page of this device the bytes enter the store queue, and no register
changes (R184, R200). A handler's store is performed at its home slice, in a line that the L2 has or has room for (R356). On a page of
another device the store waits for its acknowledgement (R163). -/
def StoresAt (s : State) (r : Result) (addr : Word) (align : Nat) (bytes : List Byte) : Prop :=
  let g := s.ctx.agent
  let waits := s.fenced ∨ 16 ≤ (s.storeQueue g).length
  (waits → r = .next { s with ctx := { s.ctx with hold := .stall } }) ∧
  (¬ waits → match s.scalarTarget .store addr align with
    | .error c => r = .next (s.raise c addr)
    | .ok p =>
      (p.attr = .remote → Remotely s r .store addr p.owner p.pa 0 .store bytes fun _ => Completes r fun t =>
        (∀ x, t.getX x = s.ctx.leaves 1 x (s.getX x)) ∧ MovesBy 1 s t ∧ SameButOrder s t ∧ OnlyCaches s t ∧ SameMemory s t) ∧
      (p.attr ≠ .remote → (p.pa + bytes.length - 1) / 128 = p.pa / 128 →
        ((coreOf g).isSome = true ∨ s.homeKeeps (s.tenantOf g) (p.pa / 128) p.zero) →
        Completes r fun t =>
          (if (coreOf g).isSome then StoreQueued s t g p.pa bytes else Stored s t g p.pa bytes) ∧
          (∀ x, t.getX x = s.ctx.leaves 1 x (s.getX x)) ∧ MovesBy 1 s t ∧ SameButOrder s t ∧ OnlyCaches s t))

/-- A scalar store of bytes in collecting mode (R227, R230-R232, R428, R432): the checks of its address come first, but not its page's; it
waits while an `elapply` appends to its list, and meets ELFULL where the last segment has no room or an older element has no slot; it waits
while an older rule is to access its slot's lines; then its record is written into the slot, which the segment counts; within a line of a
page of this device it stands there. -/
def RecordsAt (s : State) (r : Result) (addr : Word) (align : Nat) (bytes : List Byte) : Prop :=
  let h := s.ctx.activeHandle
  let size := 16 + 16 * ((bytes.length + 15) / 16)
  let fits := fun g : Segment => g.used.toNat + size ≤ g.capacity.toNat
  let waits := s.fenced ∨ 16 ≤ (s.storeQueue s.ctx.agent).length
  (waits → r = .next { s with ctx := { s.ctx with hold := .stall } }) ∧
  (¬ waits → isCanonical addr = false → r = .next (s.raise .storefault addr)) ∧
  (¬ waits → isCanonical addr = true → addr.toNat % align ≠ 0 → r = .next (s.raise .align addr)) ∧
  (¬ waits → isCanonical addr = true → addr.toNat % align = 0 →
    (s.ctx.appending h = true → r = .next { s with ctx := { s.ctx with hold := .stall } }) ∧
    (s.ctx.appending h = false → s.ctx.shortOf h = true ∨ (∀ g, (s.ctx.handle h).segs.getLast? = some g → ¬ fits g) →
      r = .next (s.raise .elfull 0)) ∧
    ∀ front g, s.ctx.appending h = false → s.ctx.shortOf h = false → (s.ctx.handle h).segs = front ++ [g] → fits g →
      let slot := g.base + g.used
      let grown := s.ctx.handles.setIfInBounds h { s.ctx.handle h with segs := front ++ [{ g with used := g.used + BitVec.ofNat 64 size }] }
      (s.regionHeld slot size = true → r = .next { s with ctx := { s.ctx with hold := .stall } }) ∧
      (s.regionHeld slot size = false → ∀ u, ({ s with ctx := { s.ctx with handles := grown } } : State).writeRecord s.ctx.agent s.ctx.instrPc
        0 slot addr bytes = (.ok true, u) → r = .next u.advance) ∧
      (s.regionHeld slot size = false → slot.toNat % 128 + size ≤ 128 →
        match s.translate (placeOf s.ctx.agent) (s.tenantOf s.ctx.agent) .store s.ctx.user slot with
        | .error c => r = .next (s.raise c slot)
        | .ok p => p.attr ≠ .remote → (p.pa + size - 1) / 128 = p.pa / 128 → s.l1Keeps s.ctx.agent (p.pa / 128) →
          Completes r fun t =>
            Stored s t s.ctx.agent p.pa (recordBytes addr bytes) ∧
            (∀ x, t.getX x = s.ctx.leaves 1 x (s.getX x)) ∧ MovesBy 1 s t ∧
            t.ctx = { s.ctx with
              x := t.ctx.x, pc := t.ctx.pc, routine := t.ctx.routine, hold := .run, remotes := t.ctx.remotes, ahead := t.ctx.ahead
              filter := (s.ctx.markFilter addr bytes.length).filter, handles := grown } ∧ OnlyCaches s t))

/-- A scalar atomic on `n` bytes: it waits behind a `fence.sv`; a cause of R174 or R175 comes next, then NOCOLLECT in collecting mode, then
a cause of R380. The older stores of the context leave its store queue (R148). Then the atomic waits for a pending store of its core to
the bytes where it acts above core scope (R168), or the old bytes are read and, where `new` gives a value for them,
X[b] and X[d], that value is stored, all in one event at the place that R158 fixes; X[d] takes the old value with its sign (R186). On a page
of another device an operation that is carried there, `carried`, is sent with its operands; of 4 bytes their unit is read, and a
compare-and-swap of the unit made until one finds what the read before it gave; any other operation meets the cause of a store (R186,
R192). -/
def AtomicX (s : State) (r : Result) (d a b : Reg) (n : Nat) (carried : Option RemoteOp) (new : Nat → Nat → Nat → Option Nat) : Prop :=
  let g := s.ctx.agent
  let addr := s.getX a
  let scope := scopeOf s.ctx.vtype
  let local' := (coreOf g).isSome && decide (scope ≤ 1)
  let u := s.drainQueue g
  (s.fenced → r = .next { s with ctx := { s.ctx with hold := .stall } }) ∧
  (¬ s.fenced →
    if isCanonical addr = false then r = .next (s.raise .storefault addr)
    else if addr.toNat % n ≠ 0 then r = .next (s.raise .align addr)
    else if s.ctx.collecting then r = .next (s.raise .nocollect 0)
    else match u.translate (placeOf g) (s.tenantOf g) .atomic s.ctx.user addr with
    | .error c => r = .next (u.raise c addr)
    | .ok p =>
      let x := (s.getX b).toNat % 2 ^ (8 * n)
      let c := (s.getX d).toNat % 2 ^ (8 * n)
      let takes := fun old : Nat => Completes r fun t =>
        (∀ y, t.getX y = s.ctx.leaves 1 y (if y = d ∧ d ≠ 0 then BitVec.ofInt 64 (signedOf (8 * n) old) else s.getX y)) ∧
        MovesBy 1 s t ∧ SameButOrder s t ∧ OnlyCaches s t ∧ SameMemory u t
      let eight := fun bs : List Byte => (bs ++ List.replicate 8 0).take 8
      (p.attr = .remote →
        (carried = none → ∃ t, r = .next (t.raise .storefault addr) ∧ t.ctx = s.ctx ∧ OnlyCaches s t ∧ SameMemory u t) ∧
        (n = 8 → ∀ op, carried = some op → Remotely u r .atomic addr p.owner p.pa 0 op (toBytes 8 x ++ toBytes 8 c) fun bs =>
          takes (ofBytes (eight bs))) ∧
        (n = 4 → ∀ op, carried = some op → Remotely u r .atomic addr p.owner (p.pa - p.pa % 8) 0 .load [] fun bs =>
          let unit := eight bs
          let old := ofBytes ((unit.drop (p.pa % 8)).take 4)
          match new old x c with
          | none => takes old
          | some w => Remotely u r .atomic addr p.owner (p.pa - p.pa % 8) 1 .cas
              (unit.take (p.pa % 8) ++ toBytes 4 w ++ unit.drop (p.pa % 8 + 4) ++ unit) fun got => eight got = unit → takes old)) ∧
      (p.attr ≠ .remote → u.lineError p.pa n p.zero = none → (p.pa + n - 1) / 128 = p.pa / 128 →
      (if local' then (u.loadMisses g scope p.pa n = false ∨ u.takesLine g (p.pa / 128) p.zero) ∧ u.l1Keeps g (p.pa / 128)
       else u.homeKeeps (s.tenantOf g) (p.pa / 128) p.zero) →
      if ¬ local' ∧ ∃ k, coreOf g = some k ∧ u.touchesPending k p.pa n = true then
        Completes r fun t => t.ctx = { s.ctx with hold := .stall } ∧ OnlyCaches s t ∧ SameMemory u t
      else
        let byte := fun k : Nat => if local' then u.readByte g scope (p.pa + k) else u.homeByte (p.pa + k)
        let old := ofBytes ((List.range n).map byte)
        Completes r fun t =>
          (match new old x c with
            | some w => if local' then Stored u t g p.pa (toBytes n w)
                else (∀ k, k < n → some (t.homeByte (p.pa + k)) = (toBytes n w)[k]?) ∧
                  ∀ h y, ¬ (p.pa ≤ y ∧ y < p.pa + n) → SameByte u t h y
            | none => SameMemory u t) ∧
          (∀ y, t.getX y = s.ctx.leaves 1 y (if y = d ∧ d ≠ 0 then BitVec.ofInt 64 (signedOf (8 * n) old) else s.getX y)) ∧
          MovesBy 1 s t ∧ SameButOrder s t ∧ OnlyCaches s t))

/-- A word completes and changes nothing but the position: the word after it is next. -/
def Passes (s : State) (r : Result) : Prop :=
  Completes r fun t => (∀ x, t.getX x = s.ctx.leaves 1 x (s.getX x)) ∧ MovesBy 1 s t ∧ OnlyScalars s t ∧ SameMemory s t

/-- A fence completes (R151, R156): execution goes on, memory reads as before, and nothing changes but which stores the accesses of its
context follow: those of `released` its next stores, those of `acquired` every further access; `heard` are those that its loads have heard of
since its last acquire (log 76). -/
def Orders (s : State) (r : Result) (released acquired heard : Nat → Prop) : Prop :=
  Completes r fun t =>
    (∀ x, t.getX x = s.ctx.leaves 1 x (s.getX x)) ∧ MovesBy 1 s t ∧ SameMemory s t ∧
    (∀ i, i ∈ t.ctx.released ↔ released i) ∧ (∀ i, i ∈ t.ctx.acquired ↔ acquired i) ∧ (∀ i, i ∈ t.ctx.heard ↔ heard i) ∧
    t = { s with ctx := { s.ctx with
      x := t.ctx.x, pc := t.ctx.pc, routine := t.ctx.routine, hold := .run, remotes := t.ctx.remotes
      released := t.ctx.released, acquired := t.ctx.acquired, heard := t.ctx.heard } }

/-- The store of a number is one of the context's own that is not acknowledged yet. -/
def State.ownStore (s : State) (i : Nat) : Prop := ∃ f ∈ s.flights, f.agent = s.ctx.agent ∧ f.stage ≠ .acked ∧ f.id = i

/-- What the next stores of the context follow after a release at a scope (R156): from core scope on its stores that are not acknowledged, and
those that its acquires have ordered before it. -/
def State.releasedBy (s : State) (scope : Nat) (acquired : Nat → Prop) (i : Nat) : Prop :=
  if scope = 0 then i ∈ s.ctx.released else s.ownStore i ∨ (acquired i ∧ s.underway i = true)

/-- What every further access of the context follows after an acquire at a scope (R156): from core scope on also the stores that its loads
have heard of. -/
def State.acquiredBy (s : State) (scope i : Nat) : Prop :=
  if scope = 0 then i ∈ s.ctx.acquired else (i ∈ s.ctx.acquired ∨ i ∈ s.ctx.heard) ∧ s.underway i = true

/-- The stores that the loads of the context have heard of and no acquire has taken up. -/
def State.heardBy (s : State) (scope i : Nat) : Prop := scope = 0 ∧ i ∈ s.ctx.heard

/-- A word waits for something older: the front end stands at it and it executes again (R130). -/
def Stalls (s : State) (r : Result) : Prop := r = .next { s with ctx := { s.ctx with hold := .stall } }

/-- Control goes to `pc` outside any routine, X[d] takes `link` (nothing for x0), and nothing else changes. -/
def JumpsTo (s : State) (r : Result) (pc : Word) (d : Reg) (link : Word) : Prop :=
  Completes r fun t => t.ctx.pc = pc ∧ t.ctx.routine = none ∧ (∀ x : Reg, t.getX x = if x = d ∧ d ≠ 0 then link else s.getX x) ∧
    OnlyScalars s t ∧ SameMemory s t

/-- A conditional branch outside a routine: to the target where it is taken, else to the next word; no register changes (R265). -/
def BranchesTo (s : State) (r : Result) (taken : Bool) (o : BitVec 12) : Prop :=
  JumpsTo s r (if taken then s.ctx.pc + o.signExtend 64 * 4 else s.ctx.pc + 4) 0 0

/-- A conditional branch inside a routine (R52): a target outside it is ILLOP, taken or not; else it moves within the routine. -/
def BranchesInside (s : State) (r : Result) (taken : Bool) (o : BitVec 12) (q : Routine) : Prop :=
  let target : Int := q.off + o.toInt
  let goes := fun off : Nat => Completes r fun t =>
    t.ctx.routine = some { q with off := off } ∧ t.ctx.pc = s.ctx.pc ∧ (∀ x : Reg, t.getX x = s.getX x) ∧ OnlyScalars s t ∧ SameMemory s t
  if target < 0 ∨ q.words ≤ target then r = .next (s.raise .illop 0)
  else if taken then goes target.toNat
  else Passes s r

/-! ## Handles and descriptors -/

/-- The lowest handle that is free (R225, R236). -/
def State.LowestFree (s : State) (h : Nat) : Prop :=
  h < 16 ∧ (s.ctx.handle h).state = .free ∧ ∀ j, j < h → (s.ctx.handle j).state ≠ .free

/-- A register names a handle in a state (R222). -/
def State.Names (s : State) (w : Word) (st : HandleState) : Prop := w.toNat < 16 ∧ (s.ctx.handle w.toNat).state = st

/-- The two loads of a region descriptor (R223) succeed, give base and capacity, and leave state u. -/
def State.Descriptor (s : State) (va base cap : Word) (u : State) : Prop :=
  ∃ a b v, s.loadAt s.scalarAcc va 8 [] = .ok a v ∧ v.loadAt { v.scalarAcc with elem := 1 } (va + 8) 8 [] = .ok b u ∧
    base = BitVec.ofNat 64 (ofBytes a) ∧ cap = BitVec.ofNat 64 (ofBytes b)

/-- An older rule still records, or appends, into the list that collects at the current depth (R226, R238). -/
def State.recorders (s : State) : Prop :=
  ∃ q ∈ s.ctx.rules ++ s.ctx.queue, 0 < q.cdepth ∧ q.chandle = s.ctx.activeHandle ∧
    (isRecording q.instr = true ∨ ∃ r, q.instr = .elapply r)

/-! ## The firing of an element -/

/-- A line of the vector image stands in the register file of the context's core (R118); a handler's always does. -/
def State.lineHeld (s : State) (line : Nat) : Prop :=
  match s.ctx.agent with
  | .handler _ _ _ => True
  | .ctx id => (id % 8, line) ∈ (s.core (id / 8)).rf

/-- Where element e of `n` bytes of a named register stands in the image, under a rule's window (R29, R117). -/
def Rule.place (r : Rule) (name : Reg) (n e : Nat) : Nat := 4096 * ((r.wb + name.val) % 1024) + e * n

/-- The span that element e of rule r is mapped onto has no former owner left with elements to fire (R123). -/
def State.spanClear (s : State) (r : Rule) (e : Nat) : Prop :=
  ∀ id i, s.ctx.agent = .ctx id → r.spanOf e = some i → ∀ j ∈ ((s.core (id / 8)).former.toList[i]?).getD [], j = id % 8

/-- The `n` bytes of a place of the vector image can be read: its line is resident, and they hold no error and no grain that is not
present (R117, R118, R422). -/
def State.sound (s : State) (at' n : Nat) : Prop :=
  s.lineHeld (at' / 256) ∧ s.placesLost s.ctx.agent [.v at' n] = false ∧ s.ctx.lacks [.v at' n] = false

/-- Rule r stands first in the window of the context whose turn it is, its element e, selected by mask m, is not done, its entry has no
error, and no grain of a mask is not present (R110, R396, R398, R421). -/
def State.stands (s : State) (r : Rule) (e : Nat) (m : Fin 4) : Prop :=
  s.ctx.rules.head? = some r ∧ r.fault = none ∧ r.detached = false ∧ s.ctx.hold ≠ .stopped ∧ ErrUnit.rule s.ctx.agent r.seq ∉ s.lostUnits ∧
  r.done.getLsbD e = false ∧ (m = 0 ∨ s.ctx.maskBit m.val e = true) ∧ (∀ x ∈ s.ctx.absent, x < maskGrain 0 0) ∧ s.ctx.v.wf = true

/-- Rule r stands first in the window of the context whose turn it is, its element e, below vl and selected by mask m, is not done, its
span is free for it, its entry has no error, no grain of a mask is not present, and some operands of `n` bytes can be read or written (R110, R117,
R118, R123, R398, R421, R422). -/
def State.mayFire (s : State) (r : Rule) (e : Nat) (m : Fin 4) (n : Nat) (operands : List Reg) : Prop :=
  s.ctx.rules.head? = some r ∧ r.fault = none ∧ s.ctx.hold ≠ .stopped ∧ ErrUnit.rule s.ctx.agent r.seq ∉ s.lostUnits ∧
  e < r.vl ∧ r.vl * n ≤ 4096 ∧
  r.done.getLsbD e = false ∧ (m = 0 ∨ s.ctx.maskBit m.val e = true) ∧ (∀ x ∈ s.ctx.absent, x < maskGrain 0 0) ∧ s.ctx.v.wf = true ∧
  s.spanClear r e ∧ ∀ x ∈ operands, s.sound (r.place x n e) n

/-- What the firing of element e of rule r leaves unchanged: everything but the vector image, the masks and fflags of the context, the
element's place in the done mask, and, where the rule retires with it, the window, claims of tiles, reads that went before older ones and a
park that ends (R110, R148, R294, R340). -/
def FiresOnly (s t : State) (r : Rule) (e : Nat) : Prop :=
  t = { s with ctx := t.ctx, cores := t.cores, lostUnits := t.lostUnits } ∧
  t.ctx = { s.ctx with
    v := t.ctx.v, q := t.ctx.q, dirty := t.ctx.dirty, absent := t.ctx.absent, fflags := t.ctx.fflags, rules := t.ctx.rules, hold := t.ctx.hold
    remotes := t.ctx.remotes, claims := t.ctx.claims, ahead := t.ctx.ahead } ∧
  SameMemory s t ∧
  ∀ p ∈ t.ctx.rules, p ∈ s.ctx.rules.tail ∨
    (p.seq = r.seq ∧ p.instr = r.instr ∧ ∀ f, f < 4096 → p.done.getLsbD f = (decide (f = e) || r.done.getLsbD f))

/-- Element e of the oldest rule fires: it writes a value of `n` bytes to V[d].i and raises flags, and no other byte of the vector
registers, no mask bit and no scalar register changes (R109, R110, R255). -/
def FiresAt (s : State) (r : Rule) (e : Nat) (d : Reg) (n i val flags : Nat) : Prop :=
  let at' := r.place d n i
  Completes (exec (.elementFire s.ctx.agent 0 e) s) fun t =>
    (∀ k, k < n → t.ctx.v.read (at' + k) = BitVec.ofNat 8 (val / 256 ^ k)) ∧
    (∀ a, ¬ (at' ≤ a ∧ a < at' + n) → t.ctx.v.read a = s.ctx.v.read a) ∧
    t.ctx.fflags = s.ctx.fflags ||| BitVec.ofNat 64 flags ∧ t.ctx.q = s.ctx.q ∧ FiresOnly s t r e

/-- The rule that stood first has the elements that `gone` tells done, or has retired; those behind it may only retire (R110). -/
def RulesAfter (s t : State) (r : Rule) (gone : Nat → Bool) : Prop :=
  ∀ p ∈ t.ctx.rules, p ∈ s.ctx.rules.tail ∨
    (p.seq = r.seq ∧ p.instr = r.instr ∧ ∀ f, f < 4096 → p.done.getLsbD f = (gone f || r.done.getLsbD f))

/-- What a firing that accesses memory, a scratchpad or a tile leaves unchanged, apart from what it is said to write: every register of the
context but the vector image, masks and fflags, and every field of the state but caches, translation caches, memory and the stores in flight. -/
def WorksOnly (s t : State) (r : Rule) (gone : Nat → Bool) : Prop :=
  t = { s with
    ctx := t.ctx, cores := t.cores, l2 := t.l2, hbm := t.hbm, ioTlb := t.ioTlb, flights := t.flights, stores := t.stores
    trails := t.trails, mismatch := t.mismatch, lostUnits := t.lostUnits } ∧
  t.ctx = { s.ctx with
    v := t.ctx.v, q := t.ctx.q, dirty := t.ctx.dirty, absent := t.ctx.absent, fflags := t.ctx.fflags, rules := t.ctx.rules, hold := t.ctx.hold
    remotes := t.ctx.remotes, claims := t.ctx.claims, ahead := t.ctx.ahead, heard := t.ctx.heard, filter := t.ctx.filter } ∧
  RulesAfter s t r gone

/-- Elements of the oldest rule fire at once, at the word of element e: those that `gone` tells are done, the bytes of vector registers that
`new` gives are written, flags are raised, and no other byte of the vector registers, no mask bit and no scalar register changes (R109,
R110, R255). -/
def FiresBytes (s : State) (r : Rule) (e : Nat) (gone : Nat → Bool) (new : Nat → Option Byte) (flags : Nat) : Prop :=
  Completes (exec (.elementFire s.ctx.agent 0 e) s) fun t =>
    (∀ a, t.ctx.v.read a = (new a).getD (s.ctx.v.read a)) ∧ t.ctx.fflags = s.ctx.fflags ||| BitVec.ofNat 64 flags ∧ t.ctx.q = s.ctx.q ∧
    WorksOnly s t r gone ∧ SameMemory s t

/-- Element e of the oldest rule fires: cells of a physical tile of the core take the values that `new` gives by row and column, flags are
raised, and no other cell, no vector register and no mask bit changes; memory reads as in state u (R292, R294, R300). -/
def FiresCells (s u : State) (r : Rule) (e tile : Nat) (new : Nat → Nat → Option Nat) (flags : Nat) : Prop :=
  Completes (exec (.elementFire s.ctx.agent 0 e) s) fun t =>
    (∀ k p i j, p < 4 → i < 128 → j < 128 → (t.core k).cell p i j =
      if k = scratchCore s.ctx.agent ∧ p = tile then (new i j).getD ((s.core k).cell p i j) else (s.core k).cell p i j) ∧
    t.ctx.v = s.ctx.v ∧ t.ctx.q = s.ctx.q ∧ t.ctx.fflags = s.ctx.fflags ||| BitVec.ofNat 64 flags ∧
    WorksOnly s t r (fun f => decide (f = e)) ∧ SameMemory u t

/-- Element e of the oldest rule meets a fault (R396): the rule keeps it, with the element that it names and its address, and no register
changes. -/
def FaultsAt (s : State) (r : Rule) (e telem : Nat) (c : Cause) (va : Word) : Prop :=
  Completes (exec (.elementFire s.ctx.agent 0 e) s) fun t =>
    t.ctx.rules.head? = some { r with fault := some (c, telem, va) } ∧ t.ctx.v = s.ctx.v ∧ t.ctx.q = s.ctx.q ∧ t.ctx.fflags = s.ctx.fflags ∧
    t.ctx.x = s.ctx.x ∧ t.ctx.pc = s.ctx.pc

/-- Element e of the oldest rule does not fire yet: the rule stands as `p` says, and no register changes. -/
def StaysAs (s : State) (r : Rule) (e : Nat) : Prop :=
  Completes (exec (.elementFire s.ctx.agent 0 e) s) fun t =>
    t.ctx.rules.head? = some r ∧ t.ctx.v = s.ctx.v ∧ t.ctx.q = s.ctx.q ∧ t.ctx.fflags = s.ctx.fflags ∧ t.ctx.x = s.ctx.x ∧ t.ctx.pc = s.ctx.pc

/-- The bytes of a value of `n` bytes at a place. -/
def bytesAt (at' n val a : Nat) : Option Byte :=
  if at' ≤ a ∧ a < at' + n then some (BitVec.ofNat 8 (val / 256 ^ (a - at'))) else none

/-- A node of the tree of R256: a leaf on level 0, else the sum of its two children, with the flags of every addition below it. -/
def treeNode (add : Nat → Nat → Nat × Nat) (leaf : Nat → Nat) : Nat → Nat → Nat × Nat
  | 0, i => (leaf i, 0)
  | l + 1, i =>
    let x := treeNode add leaf l (2 * i)
    let y := treeNode add leaf l (2 * i + 1)
    let p := add x.1 y.1
    (p.1, x.2 ||| y.2 ||| p.2)

/-- Element e fires and writes V[d].e. -/
abbrev FiresV (s : State) (r : Rule) (e : Nat) (d : Reg) (n val flags : Nat) : Prop := FiresAt s r e d n e val flags

/-- Element e of the oldest rule fires: it writes mask bit Q[d].e, and no other mask bit, no vector register, no flag and no scalar
register changes (R109, R110). -/
def FiresQ (s : State) (r : Rule) (e d : Nat) (val : Bool) : Prop :=
  Completes (exec (.elementFire s.ctx.agent 0 e) s) fun t =>
    t.ctx.maskBit d e = val ∧ (∀ c f, ¬ (c = d ∧ f = e) → f < 4096 → t.ctx.maskBit c f = s.ctx.maskBit c f) ∧
    t.ctx.v = s.ctx.v ∧ t.ctx.fflags = s.ctx.fflags ∧ FiresOnly s t r e

/-! ## Stopping a task -/

/-- The task of a context is stopped at a word boundary (R214, R340, R404, R417). Where its claimed tiles hold no error and its image can be
written, it is saved: its rules become records, a `coll` in flight runs on beside its record, its spans and tags go, and it keeps its
registers. Else it ends. -/
def Stops (s : State) (r : Result) (g : Agent) (yielded : Bool) : Prop :=
  let a := s.asSaved g
  let c := a.getCtx g
  let free := fun t : State => ∀ id, g = .ctx id → (t.core (id / 8)).held (id % 8) = 0
  let saved := if a.tilesLost g then none else a.saveBlock g yielded
  (∀ u, saved = some u → Completes r fun t =>
    let d := t.getCtx g
    d.task = c.task ∧ d.x = c.x ∧ d.pc = c.pc ∧ d.routine = c.routine ∧ d.want = c.want ∧ d.preSlot = c.records ∧ d.queue = [] ∧
    d.pending = none ∧ (∀ r ∈ d.rules, r.detached = true) ∧ d.tagMap = [] ∧ d.yieldBy = none ∧
    (∀ sc id sv, c.hold = .barrier sc id sv → d.hold = .barrier sc id true) ∧
    ((∀ sc id sv, c.hold ≠ .barrier sc id sv) → d.hold = .saved yielded c.isParked) ∧
    free t ∧ (∀ x, t.homeByte x = u.homeByte x) ∧ ∀ h, h ≠ g → t.getCtx h = s.getCtx h) ∧
  (saved = none → Completes r fun t =>
    (t.getCtx g).task = none ∧ (t.getCtx g).hold = .idle ∧ (t.getCtx g).tagMap = [] ∧ free t ∧ ∀ h, h ≠ g → t.getCtx h = s.getCtx h)

/-- A participant that is held at a barrier meets BARRIERDEAD (R342, R404, R417): the cause pends where its task is saved, or where a rule
or an access of it is still under way and no rule has met a fault; else the trap is taken: its handler starts, or, at depth 2, at depth 0 with
tvec 0, or where its image cannot be written, its task ends. -/
def MeetsBarrierdead (s t : State) (g : Agent) : Prop :=
  let c := s.getCtx g
  let z := s.mapCtx g fun c => { c with pending := some { cause := .barrierdead, pc := c.instrPc, rpc := c.instrPc, event := true } }
  let live := c.rules.filter fun r => !r.detached
  let settled := live = [] ∧ c.queue = [] ∧ (∀ f ∈ s.flights, f.agent = g → f.stage = .acked) ∧ ∀ q ∈ c.remotes, q.begun = false
  let depth := c.tstat.toNat % 4
  let all := BitVec.allOnes 64
  let f : TrapFrame :=
    { cause := 0x1C, pc := c.instrPc, elem := 0, addr := 0, rule := all, tstat := c.trapStat true, rpc := c.instrPc }
  let saved := ((z.grainsDue g).saveSlot g (if depth = 0 then 0x20000 else 0x30000) c.records).bind fun s =>
    (s.saveLevel g depth).bind fun s => s.saveFrame g (if depth = 0 then 0x6000 else 0x6080) f
  let fatal := depth = 2 ∨ (depth = 0 ∧ c.tvec = 0)
  (∀ h, h ≠ g → t.getCtx h = s.getCtx h) ∧
  (c.isSaved = true ∨ (¬ settled ∧ ∀ r ∈ live, r.fault = none) → t = z) ∧
  (∀ id, g = .ctx id → c.isSaved = false → settled →
    (fatal ∨ saved = none → (t.getCtx g).task = none ∧ (t.getCtx g).hold = .idle) ∧
    (¬ fatal → saved ≠ none →
      let d := t.getCtx g
      d.tcause = 0x1C ∧ d.tpc = c.instrPc ∧ d.telem = 0 ∧ d.taddr = 0 ∧ d.trule = all ∧ d.tstat = c.trapStat true ∧ d.pc = c.tvec ∧
      d.routine = none ∧ d.hold = .run ∧ d.pending = none ∧ d.x = c.x ∧ d.task = c.task))

/-! ## Requests -/

/-- The firmware answers a management request (R390): where it is not admitted, the status of its refusal leaves; an admitted one that is
not legal gets status 2; a legal one is done, with `p` of the state after, and its sequence becomes the key's last. -/
def Answers (s : State) (i : Instr) (h : MgmtHeader) (opcode : Nat) (who : Signer) (operands payload : List Byte) (legal : Prop)
    (p : State → Prop) : Prop :=
  s.firmware = true → match s.accepts opcode h who operands with
    | .error e => exec i s = .next (s.respond h e [])
    | .ok key =>
      (¬ legal → exec i s = .next (s.respond h 2 [])) ∧
      (legal → Completes (exec i s) fun t =>
        t.out.getLast? = some (.response (BitVec.ofNat 64 h.seq) 0 payload) ∧ lastSeq key t.sequences = some (BitVec.ofNat 64 h.seq) ∧ p t)

/-- A launch of a tenant's table. -/
def State.launchAt (s : State) (t id : Nat) (p : Launch → Prop) : Prop := ∃ l, findLaunch id (s.tenant t).launches = some l ∧ p l

/-- A queue of a tenant. -/
def State.queueHas (s : State) (t n : Nat) (p : Queue → Prop) : Prop := ∃ q, s.queue t n = some q ∧ p q

end Sys2Proof.Machine
end

