-- ==== Sys2Proof/Certificates/Slice0/Obligations.lean ====
section
/-! DEFINITION. The statements for the provers. -/

open Sys2Proof Sys2Proof.Machine

/-! ## Scalar words -/

/-- The functions of R261 write X[d] as its table says, and change nothing else (R259): a product's low half wraps, the high halves are those
of the exact products, and each case of the table of R243 holds for every dividend and divisor; none traps. -/
def Obligations.RegisterOperationsWriteTheirTableValue : Prop :=
  (∀ (s : State) (d a b : Reg),
    let x := s.getX a
    let y := s.getX b
    let k := y.toNat % 64
    WritesX s (exec (.add d a b) s) d (fun v => v.toNat = (x.toNat + y.toNat) % 2 ^ 64) ∧
    WritesX s (exec (.sub d a b) s) d (fun v => (v.toNat + y.toNat) % 2 ^ 64 = x.toNat) ∧
    WritesX s (exec (.and d a b) s) d (fun v => ∀ i, v.getLsbD i = (x.getLsbD i && y.getLsbD i)) ∧
    WritesX s (exec (.or d a b) s) d (fun v => ∀ i, v.getLsbD i = (x.getLsbD i || y.getLsbD i)) ∧
    WritesX s (exec (.xor d a b) s) d (fun v => ∀ i, v.getLsbD i = (x.getLsbD i ^^ y.getLsbD i)) ∧
    WritesX s (exec (.andn d a b) s) d (fun v => ∀ i, v.getLsbD i = (x.getLsbD i && !y.getLsbD i)) ∧
    WritesX s (exec (.sll d a b) s) d (fun v => v.toNat = x.toNat * 2 ^ k % 2 ^ 64) ∧
    WritesX s (exec (.srl d a b) s) d (fun v => v.toNat = x.toNat / 2 ^ k) ∧
    WritesX s (exec (.sra d a b) s) d (fun v => v.toInt = x.toInt / 2 ^ k) ∧
    WritesX s (exec (.rot d a b) s) d (fun v => ∀ i, i < 64 → v.getLsbD i = x.getLsbD ((i + k) % 64)) ∧
    WritesX s (exec (.slt d a b) s) d (fun v => v = if x.toInt < y.toInt then 1 else 0) ∧
    WritesX s (exec (.sltn d a b) s) d (fun v => v = if x.toNat < y.toNat then 1 else 0) ∧
    WritesX s (exec (.min d a b) s) d (fun v => v.toInt = min x.toInt y.toInt) ∧
    WritesX s (exec (.max d a b) s) d (fun v => v.toInt = max x.toInt y.toInt) ∧
    WritesX s (exec (.minn d a b) s) d (fun v => v.toNat = min x.toNat y.toNat) ∧
    WritesX s (exec (.maxn d a b) s) d (fun v => v.toNat = max x.toNat y.toNat) ∧
    WritesX s (exec (.popc d a) s) d (fun v => v.toNat = ((List.range 64).filter fun i => x.getLsbD i).length) ∧
    WritesX s (exec (.clz d a) s) d (fun v => v.toNat = if x = 0 then 64 else 63 - Nat.log2 x.toNat) ∧
    WritesX s (exec (.ctz d a) s) d (fun v =>
      (∀ i, i < v.toNat → x.getLsbD i = false) ∧ if x = 0 then v.toNat = 64 else x.getLsbD v.toNat = true) ∧
    WritesX s (exec (.sxb d a) s) d (fun v => v = (x.extractLsb' 0 8).signExtend 64) ∧
    WritesX s (exec (.sxh d a) s) d (fun v => v = (x.extractLsb' 0 16).signExtend 64) ∧
    WritesX s (exec (.sxw d a) s) d (fun v => v = (x.extractLsb' 0 32).signExtend 64) ∧
    WritesX s (exec (.zxw d a) s) d (fun v => v.toNat = x.toNat % 2 ^ 32) ∧
    WritesX s (exec (.bswap d a) s) d (fun v => ∀ k, k < 8 → v.extractLsb' (8 * (7 - k)) 8 = x.extractLsb' (8 * k) 8)) ∧
  ∀ (s : State) (d a b : Reg),
    let x := s.getX a
    let y := s.getX b
    WritesX s (exec (.mul d a b) s) d (fun v => v.toNat = x.toNat * y.toNat % 2 ^ 64) ∧
    WritesX s (exec (.mulh d a b) s) d (fun v => v.toInt = x.toInt * y.toInt / 2 ^ 64) ∧
    WritesX s (exec (.mulhn d a b) s) d (fun v => v.toNat = x.toNat * y.toNat / 2 ^ 64) ∧
    WritesX s (exec (.div d a b) s) d (fun v =>
      if y = 0 then v = BitVec.allOnes 64
      else if x = BitVec.intMin 64 ∧ y.toInt = -1 then v = x
      else v.toInt = x.toInt.tdiv y.toInt) ∧
    WritesX s (exec (.divn d a b) s) d (fun v => if y = 0 then v = BitVec.allOnes 64 else v.toNat = x.toNat / y.toNat) ∧
    WritesX s (exec (.rem d a b) s) d (fun v =>
      if y = 0 then v = x
      else if x = BitVec.intMin 64 ∧ y.toInt = -1 then v = 0
      else v.toInt = x.toInt - x.toInt.tdiv y.toInt * y.toInt) ∧
    WritesX s (exec (.remn d a b) s) d (fun v => if y = 0 then v = x else v.toNat = x.toNat % y.toNat)

/-- The immediate operations of R262 and R263, with I the sign-extended immediate, and `pcrel`: PC + (sext(imm19) << 12), with the
trigger's PC inside a routine (R264). A lim pair runs its partner with the 31-bit immediate and moves past both words (R31, R32, R262); a
partner that has no major of R31 is ILLOP at the lim's own pc (R32). -/
def Obligations.ImmediateOperationsAndLimPairs : Prop :=
  (∀ (s : State) (d a : Reg) (imm : BitVec 12) (k : BitVec 6) (far : BitVec 19),
    let x := s.getX a
    let i : Word := imm.signExtend 64
    WritesX s (exec (.addi d a imm) s) d (fun v => v.toNat = (x.toNat + i.toNat) % 2 ^ 64) ∧
    WritesX s (exec (.andi d a imm) s) d (fun v => ∀ j, v.getLsbD j = (x.getLsbD j && i.getLsbD j)) ∧
    WritesX s (exec (.ori d a imm) s) d (fun v => ∀ j, v.getLsbD j = (x.getLsbD j || i.getLsbD j)) ∧
    WritesX s (exec (.xori d a imm) s) d (fun v => ∀ j, v.getLsbD j = (x.getLsbD j ^^ i.getLsbD j)) ∧
    WritesX s (exec (.slti d a imm) s) d (fun v => v = if x.toInt < imm.toInt then 1 else 0) ∧
    WritesX s (exec (.sltni d a imm) s) d (fun v => v = if x.toNat < i.toNat then 1 else 0) ∧
    WritesX s (exec (.slli d a k) s) d (fun v => v.toNat = x.toNat * 2 ^ k.toNat % 2 ^ 64) ∧
    WritesX s (exec (.srli d a k) s) d (fun v => v.toNat = x.toNat / 2 ^ k.toNat) ∧
    WritesX s (exec (.srai d a k) s) d (fun v => v.toInt = x.toInt / 2 ^ k.toNat) ∧
    WritesX s (exec (.roti d a k) s) d (fun v => ∀ j, j < 64 → v.getLsbD j = x.getLsbD ((j + k.toNat) % 64)) ∧
    WritesX s (exec (.pcrel d far) s) d (fun v => v.toInt = (s.wordPc.toInt + far.toInt * 4096).bmod (2 ^ 64))) ∧
  ((∀ (s : State) (hi : BitVec 19) (w : BitVec 32),
    w.toNat / 2 ^ 26 ∉ [0x02, 0x03, 0x04, 0x05, 0x07, 0x08, 0x14] → exec (.lim hi w) s = .next (s.raise .illop 0)) ∧
  ∀ (s : State) (hi : BitVec 19) (lo : BitVec 12) (d a : Reg),
    let i : Word := (hi ++ lo).signExtend 64
    let x := s.getX a
    let partner := fun major : Nat => BitVec.ofNat 32 (major * 2 ^ 26 + d.val * 2 ^ 19 + a.val * 2 ^ 12 + lo.toNat)
    WritesXOver 2 s (exec (.lim hi (partner 0x02)) s) d (fun v => v.toNat = (x.toNat + i.toNat) % 2 ^ 64) ∧
    WritesXOver 2 s (exec (.lim hi (partner 0x03)) s) d (fun v => ∀ j, v.getLsbD j = (x.getLsbD j && i.getLsbD j)) ∧
    WritesXOver 2 s (exec (.lim hi (partner 0x04)) s) d (fun v => ∀ j, v.getLsbD j = (x.getLsbD j || i.getLsbD j)) ∧
    WritesXOver 2 s (exec (.lim hi (partner 0x05)) s) d (fun v => ∀ j, v.getLsbD j = (x.getLsbD j ^^ i.getLsbD j)) ∧
    WritesXOver 2 s (exec (.lim hi (partner 0x07)) s) d (fun v => v = if x.toInt < i.toInt then 1 else 0) ∧
    WritesXOver 2 s (exec (.lim hi (partner 0x08)) s) d (fun v => v = if x.toNat < i.toNat then 1 else 0) ∧
    (s.ctx.routine = none → (x + i).toNat % 4 = 0 →
      JumpsTo s (exec (.lim hi (partner 0x14)) s) (x + i) d (s.ctx.pc + 8)))

/-- The conditional branches of R265, outside and inside a routine, and the jumps of R266: the link register takes the address of the next
word, a misaligned `jalr` target raises ALIGN and changes no register, and inside a routine both jumps are ILLOP (R52). The last word of a
routine gives x116-x123 their values of before the trigger back, and execution goes on after the trigger (R50, R52): here for `add`; every
other statement about a word says what the word leaves in a routine's last place, by `MovesBy` and by the value that `Ctx.leaves` gives
each register. -/
def Obligations.BranchesJumpsAndRoutineEnds : Prop :=
  ((∀ (s : State) (a b : Reg) (o : BitVec 12),
    let x := s.getX a
    let y := s.getX b
    let all := fun p : Result → Bool → Prop =>
      p (exec (.beq a b o) s) (x == y) ∧ p (exec (.bne a b o) s) (x != y) ∧
      p (exec (.blt a b o) s) (decide (x.toInt < y.toInt)) ∧ p (exec (.bge a b o) s) (decide (y.toInt ≤ x.toInt)) ∧
      p (exec (.bltn a b o) s) (decide (x.toNat < y.toNat)) ∧ p (exec (.bgen a b o) s) (decide (y.toNat ≤ x.toNat))
    match s.ctx.routine with
    | none => all fun r taken => BranchesTo s r taken o
    | some q => all fun r taken => BranchesInside s r taken o q) ∧
  ∀ (s : State) (d a : Reg) (o : BitVec 19) (i : BitVec 12),
    let target := s.getX a + i.signExtend 64
    (s.ctx.routine = none →
      JumpsTo s (exec (.jal d o) s) (s.ctx.pc + o.signExtend 64 * 4) d (s.ctx.pc + 4) ∧
      (target.toNat % 4 = 0 → JumpsTo s (exec (.jalr d a i) s) target d (s.ctx.pc + 4)) ∧
      (target.toNat % 4 ≠ 0 → exec (.jalr d a i) s = .next (s.raise .align target))) ∧
    (s.ctx.routine ≠ none → exec (.jal d o) s = .next (s.raise .illop 0) ∧ exec (.jalr d a i) s = .next (s.raise .illop 0))) ∧
  (∀ (s : State) (q : Routine) (d a b : Reg), s.ctx.routine = some q → q.words ≤ q.off + 1 →
    Completes (exec (.add d a b) s) fun t =>
      t.ctx.routine = none ∧ t.ctx.pc = q.pc + 4 ∧ OnlyScalars s t ∧ SameMemory s t ∧
      ∀ x : Reg, t.getX x = if h : 116 ≤ x.val ∧ x.val < 124 then s.ctx.outer[x.val - 116]'(by omega)
        else if x = d ∧ d ≠ 0 then s.getX a + s.getX b else s.getX x)

/-! ## Scalar memory -/

/-- The loads of R184: four that widen with the sign, three with zeros; on a page of another device the owner answers (R163, R371). -/
def Obligations.LoadsReadAndWiden : Prop :=
  ∀ (s : State) (d a : Reg) (o : BitVec 9), s.hbm.wf = true →
    LoadsX s (exec (.ldB d a o) s) d a o 1 true ∧ LoadsX s (exec (.ldH d a o) s) d a o 2 true ∧
    LoadsX s (exec (.ldW d a o) s) d a o 4 true ∧ LoadsX s (exec (.ldD d a o) s) d a o 8 true ∧
    LoadsX s (exec (.ldBn d a o) s) d a o 1 false ∧ LoadsX s (exec (.ldHn d a o) s) d a o 2 false ∧
    LoadsX s (exec (.ldWn d a o) s) d a o 4 false

/-- The stores of R184 and `zline` (R200): outside collecting mode the low bytes of X[d], or 128 zeros, go to the store queue, and on a page of
another device to its owner (R163, R371); in collecting mode they become a record of the list (R227, R230-R232, R428, R432). That a record
waits for every older instruction that still waits in the vector queue is the model's choice (log 76). -/
def Obligations.StoresWriteTheirBytes : Prop :=
  ∀ (s : State) (d a : Reg) (o : BitVec 9), s.wf = true →
    let low := fun n : Nat => (List.range n).map fun k => (s.getX d).extractLsb' (8 * k) 8
    let addr := fun n : Nat => s.getX a + BitVec.ofInt 64 (o.toInt * n)
    let each := fun p : Result → Word → Nat → List Byte → Prop =>
      p (exec (.stB d a o) s) (addr 1) 1 (low 1) ∧ p (exec (.stH d a o) s) (addr 2) 2 (low 2) ∧
      p (exec (.stW d a o) s) (addr 4) 4 (low 4) ∧ p (exec (.stD d a o) s) (addr 8) 8 (low 8) ∧
      p (exec (.zline a) s) (s.getX a) 128 (List.replicate 128 0)
    (s.ctx.collecting = false → each (StoresAt s)) ∧
    (s.ctx.collecting = true → (coreOf s.ctx.agent).isSome = true → each (RecordsAt s))

/-- The scalar atomics of R186 on 8 and on 4 bytes; on a page of another device the three that are carried there are performed by its owner,
those of 4 bytes by a read and a compare-and-swap of their unit (R163, R192, R371). -/
def Obligations.AtomicsReadModifyWrite : Prop :=
  ∀ (s : State) (d a b : Reg), s.wf = true →
    let sg := fun n v : Nat => signedOf (8 * n) v
    let small := fun (n : Nat) (old x _ : Nat) => if sg n old ≤ sg n x then some old else some x
    let large := fun (n : Nat) (old x _ : Nat) => if sg n x ≤ sg n old then some old else some x
    (AtomicX s (exec (.amoaddD d a b) s) d a b 8 (some .add) (fun old x _ => some ((old + x) % 2 ^ 64)) ∧
     AtomicX s (exec (.amoandD d a b) s) d a b 8 none (fun old x _ => some (old &&& x)) ∧
     AtomicX s (exec (.amoorD d a b) s) d a b 8 none (fun old x _ => some (old ||| x)) ∧
     AtomicX s (exec (.amoxorD d a b) s) d a b 8 none (fun old x _ => some (old ^^^ x)) ∧
     AtomicX s (exec (.amominD d a b) s) d a b 8 none (small 8) ∧
     AtomicX s (exec (.amomaxD d a b) s) d a b 8 none (large 8) ∧
     AtomicX s (exec (.amominnD d a b) s) d a b 8 none (fun old x _ => some (min old x)) ∧
     AtomicX s (exec (.amomaxnD d a b) s) d a b 8 none (fun old x _ => some (max old x)) ∧
     AtomicX s (exec (.amoswapD d a b) s) d a b 8 (some .swap) (fun _ x _ => some x) ∧
     AtomicX s (exec (.amocasD d a b) s) d a b 8 (some .cas) (fun old x c => if old = c then some x else none)) ∧
    (AtomicX s (exec (.amoaddW d a b) s) d a b 4 (some .add) (fun old x _ => some ((old + x) % 2 ^ 32)) ∧
     AtomicX s (exec (.amoandW d a b) s) d a b 4 none (fun old x _ => some (old &&& x)) ∧
     AtomicX s (exec (.amoorW d a b) s) d a b 4 none (fun old x _ => some (old ||| x)) ∧
     AtomicX s (exec (.amoxorW d a b) s) d a b 4 none (fun old x _ => some (old ^^^ x)) ∧
     AtomicX s (exec (.amominW d a b) s) d a b 4 none (small 4) ∧
     AtomicX s (exec (.amomaxW d a b) s) d a b 4 none (large 4) ∧
     AtomicX s (exec (.amominnW d a b) s) d a b 4 none (fun old x _ => some (min old x)) ∧
     AtomicX s (exec (.amomaxnW d a b) s) d a b 4 none (fun old x _ => some (max old x)) ∧
     AtomicX s (exec (.amoswapW d a b) s) d a b 4 (some .swap) (fun _ x _ => some x) ∧
     AtomicX s (exec (.amocasW d a b) s) d a b 4 (some .cas) (fun old x c => if old = c then some x else none))

/-- The fences of R149, R151 and R195: `fence.sv` passes and holds the scalar stream back while an older rule has accesses to perform;
the other three let the front end go on exactly when the older accesses that they order have been performed, and order what follows them
behind those (R156; how the model keeps that order is its own, log 76, and so is that `fence.acq` waits for older reads of the scratchpad);
`fence.vs` enters the vector queue. A handler's fences have die scope at least (R356). `ifence` (R165, R197): once every older store is
performed at its home slice, and above core scope those ordered before it too, the instruction caches in the scope's instance are
empty and nothing else changes but the position; that it waits for older loads too, and that at pod scope it asks all other modules by one
request and goes on at one acknowledgement for all of them, are the model's choices (log 84). -/
def Obligations.FencesWaitForOlderAccesses : Prop :=
  (∀ (s : State),
    let scope := s.scalarScope
    let acquired := s.acquiredBy scope
    let fence := fun (i : Instr) (p : Prop) (released acquired heard : Nat → Prop) =>
      (p → Orders s (exec i s) released acquired heard) ∧ (¬ p → Stalls s (exec i s))
    (s.quiet → exec .fenceSv s = .next (s.onward { s.ctx with svFence := none })) ∧
    (¬ s.quiet → exec .fenceSv s = .next (s.onward { s.ctx with svFence := some s.ctx.seq })) ∧
    fence .fenceRel (s.quiet ∧ s.released scope) (s.releasedBy scope fun i => i ∈ s.ctx.acquired) (fun i => i ∈ s.ctx.acquired)
      (fun i => i ∈ s.ctx.heard) ∧
    fence .fenceAcq (∀ q ∈ s.ctx.rules ++ s.ctx.queue, readsMemory q.instr = false ∧ touchesScratch q.instr = false)
      (fun i => i ∈ s.ctx.released) acquired (s.heardBy scope) ∧
    fence .fenceFull (s.quiet ∧ s.released scope) (s.releasedBy scope acquired) acquired (s.heardBy scope) ∧
    (s.ctx.queue.length < 32 → Completes (exec .fenceVs s) fun t =>
      ∃ q, IsSnapshot s .fenceVs 0 0 q ∧ t = s.onward { s.ctx with queue := s.ctx.queue ++ [q], seq := s.ctx.seq + 1 }) ∧
    (32 ≤ s.ctx.queue.length → Stalls s (exec .fenceVs s))) ∧
  ∀ (s : State),
    let scope := s.scalarScope
    let me := match s.ctx.agent with
      | .ctx id => id / 8
      | .handler _ sl _ => sl
    let ready := s.quiet ∧ (∀ f ∈ s.flights, f.agent = s.ctx.agent → f.stage = .acked) ∧
      (1 < scope → ∀ i ∈ s.ctx.acquired, s.underway i = false)
    let inside := fun k : Nat => scope ≤ 1 ∧ k = me ∨ scope = 2 ∧ k / 4 = me / 4 ∨ scope = 3 ∧ k / 48 = me / 48 ∨ 4 ≤ scope
    let asked := s.ctx.remotes.find? fun r => r.key == s.ctx.instrPc && r.elem == 0 && r.tpa == 0 && decide (r.op = .ifence)
    (ready → scope ≠ 5 ∨ (∃ r, asked = some r ∧ r.lost = false ∧ r.answer.isSome = true) → Completes (exec .ifence s) fun t =>
      (∀ k, inside k → t.core k = { s.core k with icache := [] }) ∧ (∀ k, ¬ inside k → t.core k = s.core k) ∧
      (∀ c ∈ t.chains, 3 ≤ scope → inside c.slice → c.icache = []) ∧
      (∀ c ∈ s.chains, ¬ (3 ≤ scope ∧ inside c.slice) → c ∈ t.chains) ∧
      t.chains.map (fun c => { c with icache := [] }) = s.chains.map (fun c => { c with icache := [] }) ∧
      (∀ x, t.getX x = s.ctx.leaves 1 x (s.getX x)) ∧ MovesBy 1 s t ∧ SameContext s t ∧
      t = { s with ctx := t.ctx, cores := t.cores, chains := t.chains }) ∧
    (ready → scope = 5 → asked = none → Completes (exec .ifence s) fun t =>
      t = { s with ctx := { s.ctx with hold := .stall, remotes := t.ctx.remotes }, out := s.out ++ [.remote 0xFFF 0 .ifence []] } ∧
      ∃ r, t.ctx.remotes = s.ctx.remotes ++ [r] ∧ r.op = .ifence ∧ r.answer = none ∧ r.lost = false) ∧
    (ready → scope = 5 → ∀ r, asked = some r → r.lost = false → r.answer = none → Stalls s (exec .ifence s)) ∧
    (¬ ready → Stalls s (exec .ifence s))

/-- `wait.ne` and `wait.ge` (R343): behind a `fence.sv` the wait stalls; a cause of R174, R175 or R380 comes next; else the word is read, in
collecting mode through the context's records; where it differs from X[d], or is at least X[d], it goes to X[d] and the wait
completes; else the context waits until the word is read again or the limit passes. A wait that goes on reads the word again, and ends by
the same conditions, or with the value read once its limit has passed; on a remote page an answer of the owning device does the same, for a
wait whose translation is cached. -/
def Obligations.WaitsCompleteOnTheirCondition : Prop :=
  (∀ (s : State) (d a : Reg), s.fenced → Stalls s (exec (.waitNe d a) s) ∧ Stalls s (exec (.waitGe d a) s)) ∧
  (∀ (s : State) (d a : Reg), ¬ s.fenced →
    let addr := s.getX a
    let meets := fun r : Result => exec (.waitNe d a) s = r ∧ exec (.waitGe d a) s = r
    (isCanonical addr = false → meets (.next (s.raise .loadfault addr))) ∧
    (isCanonical addr = true → addr.toNat % 8 ≠ 0 → meets (.next (s.raise .align addr))) ∧
    (isCanonical addr = true → addr.toNat % 8 = 0 → ∀ own u c, s.recordsFor addr 8 = (.ok (some own), u) →
      u.translate (placeOf s.ctx.agent) (u.tenantOf s.ctx.agent) .load s.ctx.user addr = .error c → meets (.next (u.raise c addr)))) ∧
  (∀ (s u : State) (d a : Reg) (own : List (Option Byte)) (p : Phys), u.hbm.wf = true →
    isCanonical (s.getX a) = true → (s.getX a).toNat % 8 = 0 → s.recordsFor (s.getX a) 8 = (.ok (some own), u) →
    u.translate (placeOf s.ctx.agent) (u.tenantOf s.ctx.agent) .load s.ctx.user (s.getX a) = .ok p →
    p.attr ≠ .remote → (p.pa + 7) / 128 = p.pa / 128 →
    u.loadWaits s.ctx.agent s.scalarScope p.pa 8 = false → u.loadError s.ctx.agent s.scalarScope p.pa 8 p.zero = none →
    (u.loadMisses s.ctx.agent s.scalarScope p.pa 8 = false ∨ u.takesLine s.ctx.agent (p.pa / 128) p.zero) →
    let g := s.ctx.agent
    let v := BitVec.ofNat 64 (ofBytes ((List.range 8).map fun k =>
      ((own[k]?).getD none).getD (u.scalarByte g s.scalarScope (p.pa + k))))
    let limit := (s.tenant (s.tenantOf g)).wlimit.toNat
    let met := fun ge : Bool => if ge then (s.getX d).toNat ≤ v.toNat else v ≠ s.getX d
    let reads := fun (i : Instr) (since : Word) (ge : Bool) =>
      let expired := met ge ∨ limit ≤ (s.now - since).toNat
      (expired → Completes (exec i s) fun t =>
        (∀ x, t.getX x = s.ctx.leaves 1 x (if x = d ∧ d ≠ 0 then v else s.getX x)) ∧ MovesBy 1 s t ∧ SameButOrder s t ∧
        OnlyCaches u t ∧ SameMemory u t) ∧
      (¬ expired → Completes (exec i s) fun t =>
        t.ctx = { s.ctx with
          hold := .memory since ge d a, remotes := t.ctx.remotes, heard := t.ctx.heard, ahead := t.ctx.ahead } ∧
        OnlyCaches u t ∧ SameMemory u t)
    (¬ s.fenced → reads (.waitNe d a) s.now false ∧ reads (.waitGe d a) s.now true) ∧
    ∀ since ge, s.ctx.hold = .memory since ge d a → u.ctx.rereadDue u.now = false →
      reads (.waitReread g) since ge ∧ (limit ≤ (s.now - since).toNat → reads (.waitLimitExpiry g) since ge)) ∧
  ∀ (s : State) (v since : Word) (ge : Bool) (d a : Reg), s.ctx.hold = .memory since ge d a →
    let g := s.ctx.agent
    let limit := (s.tenant (s.tenantOf g)).wlimit.toNat
    let addr := s.getX a
    let expired := (if ge then (s.getX d).toNat ≤ v.toNat else v ≠ s.getX d) ∨ limit ≤ (s.now - since).toNat
    ((s.now - since).toNat < limit → exec (.waitLimitExpiry g) s = .next s) ∧
    (s.waitsRemote g = false → exec (.remoteWaitReread g v) s = .next s) ∧
    ∀ id p q, g = .ctx id → s.ctx.collecting = false → isCanonical addr = true → addr.toNat % 8 = 0 →
      s.translate (placeOf g) (s.tenantOf g) .load s.ctx.user addr = .ok p → p.attr = .remote →
      s.fillTlb (placeOf g) (s.tenantOf g) .load addr = s →
      s.ctx.remotes.find? (fun r => r.key == s.ctx.instrPc && r.elem == 0 && r.tpa == p.pa && decide (r.op = .load)) = some q →
      q.answer = none → q.lost = false →
      (expired → Completes (exec (.remoteWaitReread g v) s) fun t =>
        (∀ x, t.getX x = s.ctx.leaves 1 x (if x = d ∧ d ≠ 0 then v else s.getX x)) ∧ MovesBy 1 s t ∧ OnlyScalars s t ∧ SameMemory s t) ∧
      (¬ expired → Completes (exec (.remoteWaitReread g v) s) fun t =>
        t.ctx = { s.ctx with remotes := t.ctx.remotes } ∧ t = { s with ctx := t.ctx, out := t.out })

/-! ## Parking and barriers -/

/-- `yield` (R339, R340) passes where no request stands, waits for an atomic that is under way at an owning device, and else the task stops:
behind the word, as one that yields, where the request's time has not come, and at the word where it has. `park` (R340) of a context with
rules in flight stands after the word, holds no span, keeps its want, and waits; with a request pending its task stops there; with no
rule in flight its park ends at once. A park ends when no rule of the context is left or 100 µs have passed; the context takes spans as its
want says, lowest first, and runs once it holds one. `bar` (R342): ILLCFG outside a gang or for an id above 15; it waits until older accesses
are performed at the scope; at lane scope it passes; else it counts one arrival, releases as a fence of its scope does (R156; log 76) and holds
the context, or raises BARRIERDEAD where the launch has lost a participant. -/
def Obligations.YieldsParksAndBarriers : Prop :=
  (∀ (s : State),
    let atomic := ∃ r ∈ s.ctx.remotes, r.op = .add ∨ r.op = .swap ∨ r.op = .cas
    (s.ctx.yieldBy = none → Passes s (exec .yield s)) ∧
    ∀ by', s.ctx.yieldBy = some by' →
      (atomic → Stalls s (exec .yield s)) ∧
      (¬ atomic → s.now.toNat ≤ by'.toNat → Stops s.advance (exec .yield s) s.ctx.agent true) ∧
      (¬ atomic → by'.toNat < s.now.toNat → Stops s (exec .yield s) s.ctx.agent false)) ∧
  (∀ (s : State) (id : Nat), s.ctx.agent = .ctx id →
    let idle := ∀ r ∈ s.ctx.rules ++ s.ctx.queue, r.detached = true
    let want := (s.core (id / 8)).wants (id % 8)
    let parked : State := { s.advance with ctx := { s.advance.ctx with hold := .park s.now false, want := want } }
    let only := fun t : State => (∀ k, k ≠ id / 8 → t.core k = s.core k) ∧ t = { s with ctx := t.ctx, cores := t.cores }
    (¬ idle → s.ctx.yieldBy = none → Completes (exec .park s) fun t =>
      t.ctx = parked.ctx ∧ t.core (id / 8) = (s.core (id / 8)).renegotiateEnd (id % 8) ∧ only t) ∧
    (¬ idle → s.ctx.yieldBy ≠ none → Stops (parked.renegotiateEnd s.ctx.agent) (exec .park s) s.ctx.agent false) ∧
    (idle → Completes (exec .park s) fun t =>
      t.core (id / 8) = ((s.core (id / 8)).renegotiateEnd (id % 8)).comeBack (id % 8) want ∧
      t.ctx = { parked.ctx with hold := if 0 < (t.core (id / 8)).held (id % 8) then .run else .park s.now true } ∧ only t)) ∧
  (∀ (s : State) (id : Nat) (since : Word) (woken : Bool), s.ctx.agent = .ctx id → s.ctx.hold = .park since woken →
    let quiet := woken = true ∨ ∀ r ∈ s.ctx.rules ++ s.ctx.queue, r.detached = true
    let late := 100000 ≤ (s.now - since).toNat
    let ends := fun i : Instr => Completes (exec i s) fun t =>
      t.core (id / 8) = (if woken then (s.core (id / 8)).deal 9 else (s.core (id / 8)).comeBack (id % 8) s.ctx.want) ∧
      t.ctx = { s.ctx with hold := if 0 < (t.core (id / 8)).held (id % 8) then .run else .park since true } ∧
      (∀ k, k ≠ id / 8 → t.core k = s.core k) ∧ t = { s with ctx := t.ctx, cores := t.cores }
    (quiet → ends (.parkWake s.ctx.agent)) ∧ (¬ quiet → exec (.parkWake s.ctx.agent) s = .next s) ∧
    (late → ends (.parkTimeout s.ctx.agent)) ∧ (¬ late → exec (.parkTimeout s.ctx.agent) s = .next s)) ∧
  ∀ (s : State) (a : Reg),
    let sc := s.ctx.vtype.toNat / 2 ^ 14 % 8
    let id := (s.getX a).toNat
    let ready := s.quiet ∧ s.released sc
    let gang := ∃ k, s.ctx.task = some k ∧ k.gang = true
    let dead := ∃ k l, s.ctx.task = some k ∧ s.launchOf k = some l ∧ l.dead = true
    (¬ gang ∨ 15 < id → exec (.bar a) s = .next (s.raise .illcfg 0)) ∧
    (gang → id ≤ 15 → ¬ ready → Stalls s (exec (.bar a) s)) ∧
    (gang → id ≤ 15 → ready → sc = 0 → Passes s (exec (.bar a) s)) ∧
    (gang → id ≤ 15 → ready → sc ≠ 0 → dead → exec (.bar a) s = .next (s.raiseAt .barrierdead s.ctx.instrPc 0 0 true)) ∧
    (gang → id ≤ 15 → ready → sc ≠ 0 → ¬ dead → Completes (exec (.bar a) s) fun t =>
      t.ctx.hold = .barrier sc id false ∧ t.ctx.arrived sc id = s.ctx.arrived sc id + 1 ∧
      (∀ sc' id', (sc', id') ≠ (sc, id) → t.ctx.arrived sc' id' = s.ctx.arrived sc' id') ∧
      (∀ i, i ∈ t.ctx.released ↔ s.releasedBy sc (fun i => i ∈ s.ctx.acquired) i) ∧
      t = { s with ctx := { s.ctx with hold := t.ctx.hold, arrivals := t.ctx.arrivals, released := t.ctx.released } })


/-! ## Configuration, strip loops, moves out of the vector side -/

/-- `vset` (R132) and `vsetl` (R133): vl becomes the smaller of the count and VLMAX (R116), X[d] takes it, and `vset` sets vtype and
renegotiates lanes; an illegal vtype is ILLCFG, and both wait for an unresolved `vldff`. Renegotiation (R122), for a context that goes on
and for one that ends or parks: the want is recorded, nothing is taken from another context, no more is kept than wanted, and while a span
is free no context that holds one is short of its want. -/
def Obligations.VsetSetsTheConfigurationAndDealsSpans : Prop :=
  (∀ (s : State) (d a b : Reg),
    let ty := s.getX b
    let took := fun (t : State) (ty : Word) =>
      let vl := BitVec.ofNat 64 (min (s.getX a).toNat (4096 / 2 ^ (ty.toNat % 4)))
      (∀ x : Reg, t.getX x = s.ctx.leaves 1 x (if x = d ∧ d ≠ 0 then vl else s.getX x)) ∧ MovesBy 1 s t ∧
      t = { s with cores := t.cores, ctx := { s.ctx with
        vl := vl, vtype := ty, x := t.ctx.x, pc := t.ctx.pc, routine := t.ctx.routine, hold := .run, remotes := t.ctx.remotes } }
    (¬ LegalVtype ty → exec (.vset d a b) s = .next (s.raise .illcfg 0)) ∧
    (LegalVtype ty → s.vlOpen → Stalls s (exec (.vset d a b) s)) ∧
    (LegalVtype ty → ¬ s.vlOpen → Completes (exec (.vset d a b) s) fun t =>
      took t ty ∧ Renegotiated s t fun _ => ty.toNat / 2 ^ 17 % 16) ∧
    (s.vlOpen → Stalls s (exec (.vsetl d a) s)) ∧
    (¬ s.vlOpen → Completes (exec (.vsetl d a) s) fun t => took t s.ctx.vtype ∧ t.cores = s.cores)) ∧
  (∀ (c : Core) (j request : Nat), j < 8 →
    let on := c.renegotiate j request
    let ends := c.renegotiateEnd j
    let dealt := fun t : Core => none ∈ t.spans.toList → ∀ k, k < 8 → 0 < t.held k → t.wants k ≤ t.held k
    let keeps := fun t : Core => ∀ i k : Nat, k ≠ j → c.spans.toList[i]? = some (some k) → t.spans.toList[i]? = some (some k)
    (∀ k, on.wants k = if k = j then (if request = 0 then c.held j else request) else c.wants k) ∧
    (∀ k, ends.wants k = if k = j then 0 else c.wants k) ∧
    dealt on ∧ dealt ends ∧ keeps on ∧ keeps ends ∧
    on.held j ≤ max 1 (on.wants j) ∧ ends.held j = 0 ∧
    (c.held j = 0 → none ∈ c.spans.toList → 0 < on.held j))

/-- `wbase` (R135) and `mset` (R134, R293, R294, R422): the value is taken where it is legal, and else ILLCFG; the tiles that `mset` claims
anew read as zero and hold no error, the word waits for older rules that name them, and the claim of a tile whose bit it clears lasts while an
older rule names it. `mstat` (R309) waits for older loads of weight buffers, and reads
the claims, the tile mask and each buffer's format. -/
def Obligations.WindowAndMatrixConfiguration : Prop :=
  ∀ (s : State) (d a : Reg),
    let v := s.getX a
    let has := fun t : Nat => ∃ ph, s.ctx.tileMap.toList[t]? = some (some ph)
    let claims := fun (m : Word) (t : Nat) => m.toNat / 2 ^ (28 + t) % 2 = 1
    let fresh := fun t : Nat => t < 4 ∧ claims v t ∧ ¬ claims s.ctx.mtype t
    let legal := LegalMtype v ∧ ∀ t, t < 4 → claims v t → has t
    let named := ∃ t, fresh t ∧ s.ctx.namesTile t = true
    (v.toNat % 8 = 0 ∧ v.toNat ≤ 1016 → Completes (exec (.wbase a) s) fun t => t = s.onward { s.ctx with wb := v }) ∧
    (¬ (v.toNat % 8 = 0 ∧ v.toNat ≤ 1016) → exec (.wbase a) s = .next (s.raise .illcfg 0)) ∧
    (¬ legal → exec (.mset a) s = .next (s.raise .illcfg 0)) ∧ (legal → named → Stalls s (exec (.mset a) s)) ∧
    (legal → ¬ named → Completes (exec (.mset a) s) fun t =>
      let k := ((coreOf s.ctx.agent).getD 0)
      t.ctx.mtype = v ∧
      (∀ n, n < 4 → (t.ctx.claims / 2 ^ n % 2 = 1 ↔ claims v n ∨ (s.ctx.claims / 2 ^ n % 2 = 1 ∧ s.ctx.keepsTile n = true))) ∧
      (∀ n ph i j, fresh n → s.ctx.tileMap.toList[n]? = some (some ph) → i < 128 → j < 128 → (t.core k).cell ph i j = 0) ∧
      (∀ ph i j, ph < 4 → i < 128 → j < 128 → (∀ n, fresh n → s.ctx.tileMap.toList[n]? ≠ some (some ph)) →
        (t.core k).cell ph i j = (s.core k).cell ph i j) ∧
      (∀ u, u ∈ t.lostUnits ↔ u ∈ s.lostUnits ∧
        ∀ n ph x, fresh n → s.ctx.tileMap.toList[n]? = some (some ph) → u = .cell k x → x / 16384 ≠ ph) ∧
      t = { s.onward { s.ctx with mtype := v, claims := t.ctx.claims } with cores := t.cores, lostUnits := t.lostUnits } ∧
      t.core k = { s.core k with cells := (t.core k).cells } ∧ ∀ n, n ≠ k → t.core n = s.core n) ∧
    let loads := ∃ q ∈ s.ctx.rules ++ s.ctx.queue, ∃ x y z, q.instr = .mwl x y z ∨ q.instr = .mwlTwin x y z
    let buffer := fun b : Nat => ((s.core ((coreOf s.ctx.agent).getD 0)).weights.toList[b]?).getD none
    (loads → Stalls s (exec (.mstat d) s)) ∧
    (¬ loads → WritesX s (exec (.mstat d) s) d fun v =>
      v.toNat % 16 = s.ctx.mtype.toNat / 2 ^ 28 % 16 ∧
      (∀ t, t < 4 → (v.toNat / 2 ^ (4 + t) % 2 = 1 ↔ ∃ ph, s.ctx.tileMap.toList[t]? = some (some ph))) ∧
      (∀ b, b < 2 → (v.toNat / 2 ^ (8 + b) % 2 = 1 ↔ ∃ w, buffer b = some w)) ∧
      (∀ w, buffer 0 = some w → v.toNat / 2 ^ 13 % 2 ^ 19 = w.format.toNat % 2 ^ 19) ∧
      (∀ w, buffer 1 = some w → v.toNat / 2 ^ 32 = w.format.toNat % 2 ^ 19) ∧
      (buffer 0 = none → v.toNat / 2 ^ 13 % 2 ^ 19 = 0) ∧ (buffer 1 = none → v.toNat / 2 ^ 32 = 0) ∧ v.toNat / 2 ^ 10 % 8 = 0)

/-- `vstrip` and `vstrip.i` (R136): STRIPNEST while a loop is open (R126); else the loop opens over X[a] elements and X[d] takes its
base 0. `vnext` (R137): STRIPNEST with no loop open; else the loop goes on at its body with the next strip, or closes, and the lanes are
renegotiated with the want that stands; that a vnext inside a routine leaves it is the model's choice (log 26). -/
def Obligations.StripLoopsOpenAndAdvance : Prop :=
  (∀ (s : State) (d a : Reg),
    let n := s.getX a
    let opens := fun (i : Instr) (independent : Bool) =>
      (s.ctx.strip.isOpen = true → exec i s = .next (s.raise .stripnest 0)) ∧
      (s.ctx.strip.isOpen = false → s.vlOpen → Stalls s (exec i s)) ∧
      (s.ctx.strip.isOpen = false → ¬ s.vlOpen → Completes (exec i s) fun t =>
        t.ctx.strip = { sc := n, sb := 0, sbody := s.wordPc + 4, sbend := n, isOpen := true, independent := independent, reg := d } ∧
        t.ctx.vl = BitVec.ofNat 64 (min n.toNat (4096 / 2 ^ s.sew)) ∧
        (∀ x : Reg, t.getX x = s.ctx.leaves 1 x (if x = d ∧ d ≠ 0 then 0 else s.getX x)) ∧ MovesBy 1 s t ∧
        t = { s with ctx := { s.ctx with
          strip := t.ctx.strip, vl := t.ctx.vl, stripLoop := t.ctx.stripLoop, stripCount := t.ctx.stripCount, x := t.ctx.x
          pc := t.ctx.pc, routine := t.ctx.routine, hold := .run, remotes := t.ctx.remotes } })
    opens (.vstrip d a) false ∧ opens (.vstripI d a) true) ∧
  ∀ (s : State),
    let st := s.ctx.strip
    let adv := min s.ctx.vl.toNat st.sc.toNat
    let left := st.sc.toNat - adv
    let base := st.sb + BitVec.ofNat 64 adv
    (st.isOpen = false → exec .vnext s = .next (s.raise .stripnest 0)) ∧
    (st.isOpen = true → s.vlOpen → Stalls s (exec .vnext s)) ∧
    (st.isOpen = true → ¬ s.vlOpen → Completes (exec .vnext s) fun t =>
      (if 0 < left then
        t.ctx.strip = { st with sc := BitVec.ofNat 64 left, sb := base } ∧ t.ctx.pc = st.sbody ∧ t.ctx.routine = none ∧
        t.ctx.vl = BitVec.ofNat 64 (min left (4096 / 2 ^ s.sew)) ∧
        (s.ctx.routine = none → ∀ x : Reg, t.getX x = if x = st.reg ∧ st.reg ≠ 0 then base else s.getX x)
      else
        t.ctx.strip = { st with sc := 0, sb := 0, sbody := 0, sbend := 0, isOpen := false } ∧ t.ctx.vl = 0 ∧ MovesBy 1 s t ∧
        ∀ x, t.getX x = s.ctx.leaves 1 x (s.getX x)) ∧
      (Renegotiated s t fun id => (s.core (id / 8)).wants (id % 8)) ∧
      t = { s with cores := t.cores, ctx := { s.ctx with
        strip := t.ctx.strip, vl := t.ctx.vl, stripLoop := t.ctx.stripLoop, stripCount := t.ctx.stripCount, x := t.ctx.x
        pc := t.ctx.pc, routine := t.ctx.routine, hold := .run, remotes := t.ctx.remotes } })

/-- `vmv.xs` (R138): 0 at or above VLMAX; it waits while an older rule has still to write the element, or the presence bits of its image
say that it is not present (R117); else the element is widened into X[d], here for a line that needs no access to the image (R118) and no uncorrectable error (R422). `qpopc` and `qfirst` (R285) wait for the
mask bits below vl to be present; then X[d] takes the number of the selected elements, or the lowest one, all ones where there is none. -/
def Obligations.VectorValuesAnswerTheFrontEnd : Prop :=
  (∀ (s : State) (d a b : Reg),
    let i := (s.getX b).toNat
    let n := 2 ^ s.sew
    let at' := 4096 * ((s.ctx.wb.toNat + a.val) % 1024) + i * n
    let place := Loc.v at' n
    (4096 / n ≤ i → WritesX s (exec (.vmvXs d a b) s) d (· = 0)) ∧
    (i < 4096 / n → absent s.olderAll place = true → Stalls s (exec (.vmvXs d a b) s)) ∧
    (i < 4096 / n → absent s.olderAll place = false → s.lineReady (at' / 256) → s.ctx.lacks [place] = true →
      Completes (exec (.vmvXs d a b) s) fun t =>
        t = { s with ctx := { s.ctx with hold := .stall }, cores := t.cores } ∧ ∀ k, t.core k = { s.core k with rf := (t.core k).rf }) ∧
    (i < 4096 / n → absent s.olderAll place = false → s.lineReady (at' / 256) → s.ctx.lacks [place] = false →
      s.placesLost s.ctx.agent [place] = false → Completes (exec (.vmvXs d a b) s) fun t =>
        (∃ v, Widened n (s.cls = 0) v ∧ (∀ k, k < n → v.extractLsb' (8 * k) 8 = s.ctx.v.read (at' + k)) ∧
          ∀ x : Reg, t.getX x = s.ctx.leaves 1 x (if x = d ∧ d ≠ 0 then v else s.getX x)) ∧
        MovesBy 1 s t ∧ OnlyScalars { s with cores := t.cores } t ∧ SameMemory s t ∧
        ∀ k, t.core k = { s.core k with rf := (t.core k).rf })) ∧
  ∀ (s : State) (d a : Reg) (m : Fin 4), a.val < 8 →
    let n := s.ctx.vl.toNat
    let selected := fun e : Nat => (m = 0 ∨ s.ctx.maskBit m.val e = true) ∧ s.ctx.maskBit a.val e = true
    let ready := present s.olderAll (maskLocs a.val m n) = true ∧ s.ctx.lacks (maskLocs a.val m n) = false ∧ ¬ s.vlOpen
    (¬ ready → Stalls s (exec (.qpopc d a m) s) ∧ Stalls s (exec (.qfirst d a m) s)) ∧
    (ready → n ≤ 4096 →
      WritesX s (exec (.qpopc d a m) s) d (fun v =>
        ∃ es : List Nat, es.Nodup ∧ (∀ e, e ∈ es ↔ e < n ∧ selected e) ∧ v = BitVec.ofNat 64 es.length) ∧
      WritesX s (exec (.qfirst d a m) s) d (fun v =>
        (∃ e, v = BitVec.ofNat 64 e ∧ e < n ∧ selected e ∧ ∀ f, f < e → ¬ selected f) ∨
        (v = BitVec.allOnes 64 ∧ ∀ e, e < n → ¬ selected e)))

/-! ## Control registers -/

/-- `ctl.rd` (R39, R386, R405, R408): every register reads as the table gives; a number above the level is PRIV, one without a register
ILLOP; reads of vl, fflags and ctb wait for older work. -/
def Obligations.ControlRegistersRead : Prop :=
  ∀ (s : State) (d : Reg) (n : BitVec 10),
    let c := s.ctx
    let own := s.tenant (s.tenantOf c.agent)
    let id := match c.agent with
      | .ctx id => BitVec.ofNat 64 id
      | .handler _ _ _ => 0
    let task := fun f : Task → Word => match c.task with
      | some k => f k
      | none => 0
    let user : List (Nat × Word) :=
      [(0x001, c.vtype), (0x002, c.vstart), (0x003, c.mtype), (0x004, c.wb), (0x005, BitVec.ofNat 64 (s.heldSpans c.agent)),
       (0x008, c.strip.sc), (0x009, c.strip.sb), (0x00A, c.strip.sbody), (0x00B, c.strip.sbend), (0x011, s.now),
       (0x012, task (·.ticket)), (0x013, task (·.launchid)), (0x014, id), (0x018, c.cmode)]
    let waiting : List (Nat × Word × Bool) :=
      [(0x000, c.vl, c.vlUnresolved), (0x006, c.fflags, c.flagsPending), (0x010, c.ctb, c.ctbPending)]
    let trap : List (Nat × Word) :=
      [(0x020, c.hvl), (0x021, c.hvtype), (0x022, c.hvstart), (0x023, c.tstat), (0x024, c.tcause), (0x025, c.tpc), (0x026, c.telem),
       (0x027, c.taddr), (0x028, c.trule), (0x029, c.tvec), (0x02A, c.ctximg)]
    let system : List (Nat × Word) :=
      [(0x100, BitVec.ofNat 64 own.id), (0x101, own.spwait), (0x102, own.ygrace), (0x103, own.wlimit), (0x104, own.ptroot),
       (0x105, own.spbase), (0x106, own.hostvec), (0x180, own.tvecdef), (0x181, own.rlogbase), (0x182, own.rlogsize),
       (0x183, own.rlogseq), (0x184, own.rvec), (0x185, own.xmask), (0x186, own.cecount)]
    let r := exec (.ctlRd d n) s
    (∀ e ∈ user, n.toNat = e.1 → WritesX s r d (· = e.2)) ∧
    (∀ e ∈ waiting, n.toNat = e.1 → if e.2.2 then Stalls s r else WritesX s r d (· = e.2.1)) ∧
    (¬ s.atUser → ∀ e ∈ trap ++ system, n.toNat = e.1 → WritesX s r d (· = e.2)) ∧
    (s.atUser → 0x100 ≤ n.toNat ∨ n.toNat ∈ trap.map (·.1) → r = .next (s.raise .priv 0)) ∧
    ((s.atUser → n.toNat < 0x100) →
      n.toNat ∉ user.map (·.1) ++ waiting.map (·.1) ++ trap.map (·.1) ++ system.map (·.1) → r = .next (s.raise .illop 0))

/-- `ctl.wr` of a register of the context (R39, R111, R255, R408): the registers take the value where it is legal, of tstat bit 3 only; a
move of ctximg first writes the resident lines back. `ctl.wr` of a system register (R386, R405): at level S the tenant's register takes a
legal value, an illegal one is ILLCFG; at level U the whole range is PRIV; every other number is ILLOP where R39 gives no write. -/
def Obligations.ControlRegistersAreWritten : Prop :=
  (∀ (s : State) (a : Reg),
    let c := s.ctx
    let v := s.getX a
    let wr := fun n : Nat => exec (.ctlWr a (BitVec.ofNat 10 n)) s
    let takes := fun (r : Result) (c : Ctx) => r = .next (s.onward c)
    let own := fun (r : Result) (legal : Prop) (c : Ctx) =>
      (s.atUser → r = .next (s.raise .priv 0)) ∧ (¬ s.atUser → legal → takes r c) ∧
      (¬ s.atUser → ¬ legal → r = .next (s.raise .illcfg 0))
    (∀ r, r = exec (.ctlWrVstart a) s ∨ r = wr 0x002 → takes r { c with vstart := v }) ∧
    (∀ r, r = exec (.ctlWrFflags a) s ∨ r = wr 0x006 →
      if c.flagsPending then Stalls s r else takes r { c with fflags := BitVec.ofNat 64 (v.toNat % 32) }) ∧
    own (wr 0x020) True { c with hvl := v } ∧ own (wr 0x021) (LegalVtype v) { c with hvtype := v } ∧
    own (wr 0x022) True { c with hvstart := v } ∧
    own (wr 0x023) True { c with tstat := BitVec.ofNat 64 (c.tstat.toNat - c.tstat.toNat / 8 % 2 * 8 + v.toNat / 8 % 2 * 8) } ∧
    own (wr 0x024) True { c with tcause := v } ∧ own (wr 0x025) True { c with tpc := v } ∧
    own (wr 0x026) True { c with telem := v } ∧ own (wr 0x027) True { c with taddr := v } ∧
    own (wr 0x028) True { c with trule := v } ∧
    own (wr 0x029) (Canonical v ∧ v.toNat % 4 = 0) { c with tvec := v } ∧
    (∀ r, r = exec (.ctlWrCtximg a) s ∨ r = wr 0x02A →
      (s.atUser → r = .next (s.raise .priv 0)) ∧
      (¬ s.atUser → ¬ (Canonical v ∧ v.toNat % 65536 = 0) → r = .next (s.raise .illcfg 0)) ∧
      (¬ s.atUser → Canonical v → v.toNat % 65536 = 0 → ∀ id, c.agent = .ctx id →
        match s.flushLines id with
        | .error (x, va) => r = .next (s.raise x va)
        | .ok u => r = .next (u.onward { u.ctx with ctximg := v, allBacked := true, backed := [] })))) ∧
  (∀ (s : State) (a : Reg),
    let v := s.getX a
    let wr := fun n : Nat => exec (.ctlWr a (BitVec.ofNat 10 n)) s
    let sets := fun (n : Nat) (legal : Prop) (f : Tenant → Tenant) =>
      (s.atUser → wr n = .next (s.raise .priv 0)) ∧ (¬ s.atUser → ¬ legal → wr n = .next (s.raise .illcfg 0)) ∧
      (¬ s.atUser → legal → wr n = .next (s.mapTenant (s.tenantOf s.ctx.agent) f).advance)
    sets 0x101 True (fun t => { t with spwait := v }) ∧ sets 0x102 True (fun t => { t with ygrace := v }) ∧
    sets 0x103 True (fun t => { t with wlimit := v }) ∧
    sets 0x104 (v.toNat % 4096 = 0 ∧ v.toNat < 2 ^ 52) (fun t => { t with ptroot := v }) ∧
    sets 0x106 (v.toNat < 64) (fun t => { t with hostvec := v }) ∧
    sets 0x180 (v.toNat % 4 = 0) (fun t => { t with tvecdef := v }) ∧
    sets 0x181 (v.toNat % 4096 = 0) (fun t => { t with rlogbase := v }) ∧
    sets 0x182 (∃ k, 5 ≤ k ∧ k ≤ 16 ∧ v.toNat = 2 ^ k) (fun t => { t with rlogsize := v }) ∧
    sets 0x184 (v.toNat < 256) (fun t => { t with rvec := v }) ∧ sets 0x185 (v.toNat % 64 = 0) (fun t => { t with xmask := v }) ∧
    ∀ n, n < 1024 → (s.atUser → n < 0x100) →
      n ∉ [0x002, 0x006, 0x020, 0x021, 0x022, 0x023, 0x024, 0x025, 0x026, 0x027, 0x028, 0x029, 0x02A,
           0x101, 0x102, 0x103, 0x104, 0x106, 0x180, 0x181, 0x182, 0x184, 0x185] → wr n = .next (s.raise .illop 0))

/-! ## The issue of words that take a rule entry -/

/-- Vector-vector and vector-scalar arithmetic (R271, R272, R275, R276, R279): a word of a class that its row allows enters the vector
queue with its snapshot, the scalar operand captured (R107); any other is ILLOP. Immediates, permutes, masks, conversions, functions and
moves (R139-R142, R272, R277, R278, R281-R290): each enters the vector queue under a class that its row allows; those that act as a whole
also need vstart 0. -/
def Obligations.VectorRegisterWordsIssue : Prop :=
  (∀ (s : State) (d a b : Reg) (m : Fin 4) (dt : Bool),
    let arith := s.cls ≤ 3
    let int := s.cls ≤ 1
    let sign := 2 ≤ s.cls ∧ s.cls ≤ 5
    let vv : List (Prop × List Instr) :=
      [(arith,
        [.vaddVv d a b m dt, .vsubVv d a b m dt, .vrsubVv d a b m dt, .vmulVv d a b m dt, .vdivVv d a b m dt, .vabsdVv d a b m
         dt, .vminVv d a b m dt, .vmaxVv d a b m dt, .vfmaVv d a b m dt, .vfmsVv d a b m dt, .vfnmaVv d a b m dt, .vltVv d a b m
         dt, .vle d a b m dt]),
       (int,
        [.vmulhVv d a b m dt, .vremVv d a b m dt, .vsaddVv d a b m dt, .vssubVv d a b m dt, .vsllVv d a b m dt, .vsrlVv d a b m
         dt, .vsraVv d a b m dt]),
       (True,
        [.vandVv d a b m dt, .vorVv d a b m dt, .vxorVv d a b m dt, .vandnVv d a b m dt, .vmergeVv d a b m dt, .veqVv d a b m
         dt, .vneVv d a b m dt]),
       (sign, [.vsgnjVv d a b m dt])]
    let vx : List (Prop × List Instr) :=
      [(arith,
        [.vaddVx d a b m dt, .vsubVx d a b m dt, .vrsubVx d a b m dt, .vmulVx d a b m dt, .vdivVx d a b m dt, .vabsdVx d a b m
         dt, .vminVx d a b m dt, .vmaxVx d a b m dt, .vfmaVx d a b m dt, .vfmsVx d a b m dt, .vfnmaVx d a b m dt, .vltVx d a b m
         dt, .vge d a b m dt]),
       (int,
        [.vmulhVx d a b m dt, .vremVx d a b m dt, .vsaddVx d a b m dt, .vssubVx d a b m dt, .vsllVx d a b m dt, .vsrlVx d a b m
         dt, .vsraVx d a b m dt]),
       (True,
        [.vandVx d a b m dt, .vorVx d a b m dt, .vxorVx d a b m dt, .vandnVx d a b m dt, .vmergeVx d a b m dt, .veqVx d a b m
         dt, .vneVx d a b m dt]),
       (sign, [.vsgnjVx d a b m dt])]
    (∀ e ∈ vv, ∀ i ∈ e.2, IssuesWhere s e.1 .illop i 0 0 (FromVstart s)) ∧
    (∀ e ∈ vx, ∀ i ∈ e.2, IssuesWhere s e.1 .illop i 0 (s.getX b) (FromVstart s))) ∧
  (∀ (s : State) (d a b : Reg) (m : Fin 4) (dt : Bool) (j k : BitVec 8),
    let int := s.cls ≤ 1
    let float := s.cls = 2 ∨ s.cls = 3
    let bfp := s.cls = 6
    let plain : List (Prop × List Instr) :=
      [(int, [.vaddi d a j m, .vslli d a j m, .vsrli d a j m, .vsrai d a j m, .vidx d j k, .vbcsti d j, .vpopc d a m dt]),
       (True, [.vpick d a b m dt, .vrev d a m dt, .qand d a b, .qor d a b, .qxor d a b, .qandn d a b, .vpresq d a]),
       (s.cls ≤ 5, [.vcvt d a b m dt]), (bfp, [.vfrombfp d a b m dt]),
       (float, [.vlog2 d a m dt, .vsqrt d a m dt, .vrcp d a m dt, .vrsqrt d a m dt, .vexp2 d a m dt])]
    let whole : List (Prop × List Instr) :=
      [(True, [.vcompress d a b m dt, .vexpand d a b m dt]),
       (s.cls ≤ 3, [.vredsumO d a b m dt, .vredsumT d a b m dt, .vredmin d a b m dt, .vredmax d a b m dt]),
       (bfp, [.vtobfp d a b m dt])]
    (∀ e ∈ plain, ∀ i ∈ e.2, IssuesWhere s e.1 .illop i 0 0 (FromVstart s)) ∧
    (∀ i ∈ [.vshup d a b m dt, .vshdn d a b m dt, .vinsup d a b m dt, .vinsdn d a b m dt, .vbitq d a b m dt],
      Issues s (exec i s) i 0 (s.getX b) (FromVstart s)) ∧
    (∀ i ∈ [.vbcst d a, .qset d a], Issues s (exec i s) i (s.getX a) 0 (FromVstart s)) ∧
    (∀ e ∈ whole, ∀ i ∈ e.2, IssuesWhole s e.1 i) ∧
    Issues s (exec (.vmvSx d a b) s) (.vmvSx d a b) (s.getX a) (s.getX b) fun q =>
      ∀ e, e < 4096 → q.done.getLsbD e = decide (e < (s.getX b).toNat ∨ (s.getX b).toNat < s.ctx.vstart.toNat))

/-- Vector memory and scratchpad words (R188-R192, R207, R210): a word enters the vector queue with X[base] and, where it has one,
X[stride] captured; atomics need a legal class and width, and no collecting mode; bit-plane words a whole number of blocks. In collecting
mode a load waits while an older `elapply` appends to a list that it reads (R233, R238; that it waits for this is the model's choice, log
76). A vector store in collecting mode (R230) reserves one slot for each of its elements, in order, at the end of its list's last segment,
where they fit there and nothing older still needs room. -/
def Obligations.VectorMemoryWordsIssue : Prop :=
  (∀ (s : State) (v b u : Reg) (m : Fin 4) (dt : Bool),
    let base := s.getX b
    let planes := s.cls = 6 ∧ s.ctx.vl ≠ 0 ∧ s.ctx.vl.toNat % (16 * 2 ^ (s.ctx.vtype.toNat / 256 % 4)) = 0 ∧ s.ctx.vstart = 0
    let atomic := fun (legal : Prop) (i : Instr) =>
      (¬ legal → exec i s = .next (s.raise .illop 0)) ∧
      (legal → s.ctx.cdepth ≠ 0 → exec i s = .next (s.raise .nocollect 0)) ∧
      (legal → s.ctx.cdepth = 0 → Issues s (exec i s) i base 0 (FromVstart s))
    let appended := s.ctx.cdepth ≠ 0 ∧ ∃ x ∈ s.ctx.lists, s.ctx.appending x.1 = true
    let loads := fun (i : Instr) (y : Word) =>
      (appended → Stalls s (exec i s)) ∧ (¬ appended → Issues s (exec i s) i base y (FromVstart s))
    (∀ i ∈ [.vld v b m dt, .vldff v b m dt, .vldx v b u m dt, .vldxo v b u m dt], loads i 0) ∧
    loads (.vlds v b u m dt) (s.getX u) ∧
    (∀ i ∈ [.vspld v b m dt, .vspst v b m dt], Issues s (exec i s) i base 0 (FromVstart s)) ∧
    (s.ctx.cdepth = 0 →
      (∀ i ∈ [.vst v b m dt, .vstx v b u m dt, .vstxo v b u m dt], Issues s (exec i s) i base 0 (FromVstart s)) ∧
      Issues s (exec (.vsts v b u m dt) s) (.vsts v b u m dt) base (s.getX u) (FromVstart s)) ∧
    (∀ i ∈ [.vpst v b u, .vpld v b u],
      (s.vlOpen → Stalls s (exec i s)) ∧ (¬ s.vlOpen → IssuesWhere s planes .illcfg i base 0 (FromVstart s))) ∧
    atomic (s.cls ≤ 1 ∧ 2 ≤ s.sew) (.vamoadd v b u m dt) ∧ atomic (s.cls ≤ 1 ∧ 2 ≤ s.sew) (.vamomin v b u m dt) ∧
    atomic (s.cls ≤ 1 ∧ 2 ≤ s.sew) (.vamomax v b u m dt) ∧ atomic (2 ≤ s.sew) (.vamoswap v b u m dt) ∧
    atomic (2 ≤ s.sew) (.vamocas v b u)) ∧
  (∀ (s : State) (v b u : Reg) (m : Fin 4) (dt : Bool) (front : List Segment) (g : Segment),
    let h := s.ctx.activeHandle
    let size := 16 + 16 * ((2 ^ s.sew + 15) / 16)
    let n := s.ctx.vl.toNat - s.ctx.vstart.toNat
    let grown := { g with used := g.used + BitVec.ofNat 64 (n * size) }
    s.ctx.cdepth ≠ 0 → h < 16 → ¬ s.vlOpen → s.ctx.queue.length < 32 → (s.ctx.handle h).segs = front ++ [g] →
    s.ctx.appending h = false → s.ctx.shortOf h = false → g.used.toNat + n * size ≤ g.capacity.toNat → 0 < n →
    ∀ i ∈ [.vst v b m dt, .vsts v b u m dt, .vstx v b u m dt, .vstxo v b u m dt], Completes (exec i s) fun t =>
      ∃ q, q.instr = i ∧ q.opA = s.getX b ∧ q.chandle = h ∧ q.cdepth = s.ctx.cdepth ∧
        (∀ e, s.ctx.vstart.toNat ≤ e → e < s.ctx.vl.toNat →
          q.slotAddr e = g.base + g.used + BitVec.ofNat 64 ((e - s.ctx.vstart.toNat) * size)) ∧
        t = s.onward { s.ctx with
          queue := s.ctx.queue ++ [q], vstart := 0, seq := s.ctx.seq + 1
          handles := s.ctx.handles.setIfInBounds h { s.ctx.handle h with segs := front ++ [grown] } })

/-- Engine words (R201-R219, R227, R238, R317, R346-R348, R358, R364, R370): NOCOLLECT in collecting mode, then ILLCFG for the vtype, vl or
vstart that they need, else each enters the vector queue with its captured scalars, the elements below vstart done (R111; that the one
element of an engine word is element 0, and that an `fsend` never counts it as done, is the model's reading, log 18); the tag words enter
it with X[a] and take no rule entry; `elapply` needs a sealed handle and takes the view of its list as it issues. Matrix words (R295,
R299-R308): ILLOP for a format that the word does not have, then TILE for a tile that is not claimed, then ILLCFG for a row or column above
127 or a format word that breaks R304; else the word enters the vector queue. In collecting mode `mopm` and `mwl` first wait while an older
`elapply` appends to a list that they read (R233, R238; the model's choice, log 76). -/
def Obligations.EngineAndMatrixWordsIssue : Prop :=
  (∀ (s : State) (d a b : Reg),
    let x := s.getX a
    let y := s.getX b
    let vl := s.ctx.vl.toNat
    let live := fun (b : Word) (i : Instr) =>
      (s.ctx.cdepth ≠ 0 → exec i s = .next (s.raise .nocollect 0)) ∧ (s.ctx.cdepth = 0 → Issues s (exec i s) i x b (FromVstart s))
    let atZero := fun (i : Instr) =>
      (s.ctx.cdepth ≠ 0 → exec i s = .next (s.raise .nocollect 0)) ∧
      (s.ctx.cdepth = 0 → s.ctx.vstart ≠ 0 → exec i s = .next (s.raise .illcfg 0)) ∧
      (s.ctx.cdepth = 0 → s.ctx.vstart = 0 → Issues s (exec i s) i x 0 (FromVstart s))
    (∀ i ∈ [.cpls a, .cpld a], (s.vlOpen → Stalls s (exec i s)) ∧
      (¬ s.vlOpen → IssuesWhere s (s.sew = 3 ∧ 0 < vl ∧ vl ≤ 6) .illcfg i 0 0 (FromVstart s))) ∧
    (∀ i ∈ [.cpgoMm d a b, .cpgoMs d a b, .cpgoSm d a b, .cpgoSs d a b, .lpush a b], live y i) ∧
    (∀ i ∈ [.kvsel a, .coll a, .wlclose a, .wlclear a], live 0 i) ∧
    (∀ i ∈ [.wlpush a b, .wlins a b, .wlpop d a b], atZero i) ∧
    ((s.ctx.cdepth ≠ 0 → exec (.spool d a b) s = .next (s.raise .nocollect 0)) ∧
     (s.ctx.cdepth = 0 → s.ctx.vstart ≠ 0 → exec (.spool d a b) s = .next (s.raise .illcfg 0)) ∧
     (s.ctx.cdepth = 0 → s.ctx.vstart = 0 → Issues s (exec (.spool d a b) s) (.spool d a b) x y (FromVstart s))) ∧
    (s.vlOpen → Stalls s (exec (.fsend d a b) s)) ∧
    (¬ s.vlOpen →
      (s.ctx.cdepth ≠ 0 → exec (.fsend d a b) s = .next (s.raise .nocollect 0)) ∧
      (s.ctx.cdepth = 0 → IssuesWhere s (vl * 2 ^ s.sew ≤ 256) .illcfg (.fsend d a b) x 0 OneElement)) ∧
    (∀ i ∈ [.cwany d a, .cwall a, .cffr d a, .ctclr a],
      (32 ≤ s.ctx.queue.length → Stalls s (exec i s)) ∧
      (s.ctx.queue.length < 32 → Completes (exec i s) fun t =>
        ∃ q, IsSnapshot s i x 0 q ∧ t = s.onward { s.ctx with queue := s.ctx.queue ++ [q], seq := s.ctx.seq + 1 })) ∧
    (¬ s.Names x .sealed → exec (.elapply a) s = .next (s.raise .illcfg 0)) ∧
    (s.Names x .sealed → s.ctx.cdepth ≠ 0 → s.recorders → Stalls s (exec (.elapply a) s)) ∧
    (s.Names x .sealed → ¬ (s.ctx.cdepth ≠ 0 ∧ s.recorders) →
      Issues s (exec (.elapply a) s) (.elapply a) x 0 fun q => FromVstart s q ∧ q.eng.segs = (s.ctx.handle x.toNat).segs)) ∧
  (∀ (s : State) (t : Fin 4) (d a b c : Reg) (m : Fin 4),
    let mt := s.ctx.mtype.toNat
    let claimed := fun n : Nat => mt / 2 ^ (28 + n) % 2 = 1
    let tile := fun (legal : Prop) (n : Nat) (bound : Prop) (i : Instr) (x y : Word) =>
      (¬ legal → exec i s = .next (s.raise .illop 0)) ∧ (legal → ¬ claimed n → exec i s = .next (s.raise .tile 0)) ∧
      (legal → claimed n → ¬ bound → exec i s = .next (s.raise .illcfg 0)) ∧
      (legal → claimed n → bound → Issues s (exec i s) i x y (FromVstart s))
    let appended := s.ctx.cdepth ≠ 0 ∧ ∃ x ∈ s.ctx.lists, s.ctx.appending x.1 = true
    let row := (s.getX b).toNat ≤ 127
    let w := s.getX b
    let format := w.toNat % 16 < 7 ∧ w.toNat / 16 % 8 < 7 ∧ w.toNat / 2 ^ 7 % 2 = 0 ∧ w.toNat / 2 ^ 15 % 2 = 0 ∧
      w.toNat / 2 ^ 19 % 2 ^ 13 = 0 ∧ w.toNat / 2 ^ 32 % 4 = 0
    tile True t.val True (.mop t a b m) 0 0 ∧
    tile (mt % 16 ≤ 2 ∧ (mt / 2 ^ 24 % 8 + 1) % 2 = 0) t.val True (.mops t a b c m) 0 0 ∧
    (appended → Stalls s (exec (.mopm t a b c m) s) ∧ Stalls s (exec (.mwl d a b) s)) ∧
    (¬ appended → tile True t.val True (.mopm t a b c m) (s.getX c) (s.getX b)) ∧ tile True t.val True (.mvw t a b c m) (s.getX c) 0 ∧
    (d.val < 4 → tile True d.val True (.mzero d) 0 0 ∧ tile (mt % 16 = 6) d.val True (.mfold d a b) 0 0 ∧
      tile True d.val row (.mwr d a b) 0 (s.getX b)) ∧
    (a.val < 4 → tile True a.val row (.mrd d a b) 0 (s.getX b) ∧ tile True a.val row (.mrdc d a b) 0 (s.getX b)) ∧
    (¬ appended → ¬ format → exec (.mwl d a b) s = .next (s.raise .illcfg 0)) ∧
    (¬ appended → format → Issues s (exec (.mwl d a b) s) (.mwl d a b) (s.getX a) w fun q =>
      ∀ e, e < 4096 → q.done.getLsbD e = decide (e < min s.ctx.vstart.toNat (w.toNat / 2 ^ 8 % 128 + 1))))

/-! ## What elements compute -/

/-- Integer arithmetic (R243, R271, R275): under class int or nat an element of the oldest rule computes on the exact values and narrows
to the element width, vector-vector with V[b].e, vector-scalar with the captured scalar; it raises no flag. -/
def Obligations.IntegerElementsCompute : Prop :=
  ∀ (s : State) (r : Rule) (e : Nat) (d a b : Reg) (m : Fin 4) (dt : Bool),
    let cls := r.vtype.toNat / 4 % 8
    let n := 2 ^ (r.vtype.toNat % 4)
    let bits := 8 * n
    let value := fun c : Nat => if cls = 0 then signedOf bits c else ((c % 2 ^ bits : Nat) : Int)
    let lo : Int := if cls = 0 then -2 ^ (bits - 1) else 0
    let hi : Int := if cls = 0 then 2 ^ (bits - 1) - 1 else 2 ^ bits - 1
    let narrow := fun i : Int => (i % 2 ^ bits).toNat
    let av := s.ctx.elem r.wb a.val n e
    let dv := s.ctx.elem r.wb d.val n e
    let computes := fun (vv vx : Instr) (third : Bool) (f : Nat → Nat → Nat → Nat) =>
      let old := if third then [d] else []
      (r.instr = vv → s.mayFire r e m n (a :: b :: d :: old) → FiresV s r e d n (f av (s.ctx.elem r.wb b.val n e) dv) 0) ∧
      (r.instr = vx → s.mayFire r e m n (a :: d :: old) → FiresV s r e d n (f av (r.opB.toNat % 2 ^ bits) dv) 0)
    let onValues := fun (f : Int → Int → Int → Int) (x y z : Nat) => narrow (f (value x) (value y) (value z))
    cls ≤ 1 →
      computes (.vaddVv d a b m dt) (.vaddVx d a b m dt) false (onValues fun x y _ => x + y) ∧
      computes (.vsubVv d a b m dt) (.vsubVx d a b m dt) false (onValues fun x y _ => x - y) ∧
      computes (.vrsubVv d a b m dt) (.vrsubVx d a b m dt) false (onValues fun x y _ => y - x) ∧
      computes (.vmulVv d a b m dt) (.vmulVx d a b m dt) false (onValues fun x y _ => x * y) ∧
      computes (.vmulhVv d a b m dt) (.vmulhVx d a b m dt) false (onValues fun x y _ => x * y / 2 ^ bits) ∧
      computes (.vdivVv d a b m dt) (.vdivVx d a b m dt) false (onValues fun x y _ => if y = 0 then 2 ^ bits - 1 else x.tdiv y) ∧
      computes (.vremVv d a b m dt) (.vremVx d a b m dt) false (onValues fun x y _ => if y = 0 then x else x - x.tdiv y * y) ∧
      computes (.vabsdVv d a b m dt) (.vabsdVx d a b m dt) false (onValues fun x y _ => max (x - y) (y - x)) ∧
      computes (.vminVv d a b m dt) (.vminVx d a b m dt) false (onValues fun x y _ => min x y) ∧
      computes (.vmaxVv d a b m dt) (.vmaxVx d a b m dt) false (onValues fun x y _ => max x y) ∧
      computes (.vsaddVv d a b m dt) (.vsaddVx d a b m dt) false (onValues fun x y _ => max lo (min hi (x + y))) ∧
      computes (.vssubVv d a b m dt) (.vssubVx d a b m dt) false (onValues fun x y _ => max lo (min hi (x - y))) ∧
      computes (.vsllVv d a b m dt) (.vsllVx d a b m dt) false (fun x y _ => x * 2 ^ (y % bits) % 2 ^ bits) ∧
      computes (.vsrlVv d a b m dt) (.vsrlVx d a b m dt) false (fun x y _ => x / 2 ^ (y % bits)) ∧
      computes (.vsraVv d a b m dt) (.vsraVx d a b m dt) false (fun x y _ => narrow (signedOf bits x / 2 ^ (y % bits))) ∧
      computes (.vfmaVv d a b m dt) (.vfmaVx d a b m dt) true (onValues fun x y z => x * y + z) ∧
      computes (.vfmsVv d a b m dt) (.vfmsVx d a b m dt) true (onValues fun x y z => x * y - z) ∧
      computes (.vfnmaVv d a b m dt) (.vfnmaVx d a b m dt) true (onValues fun x y z => z - x * y)

/-- Raw bits (R275-R278, R284, R286): the operations that a class does not change, immediates and index vectors, the mask logic, and the
two that count or pick bits. Compares (R279) under an integer class: each writes Q[d].e with the outcome on the exact values,
vector-vector or against the captured scalar. -/
def Obligations.BitElementsAndCompares : Prop :=
  (∀ (s : State) (r : Rule) (e : Nat) (d a b : Reg) (m : Fin 4) (dt : Bool) (j k : BitVec 8),
    let n := 2 ^ (r.vtype.toNat % 4)
    let bits := 8 * n
    let av := s.ctx.elem r.wb a.val n e
    let bv := s.ctx.elem r.wb b.val n e
    let x := r.opB.toNat % 2 ^ bits
    let narrow := fun i : Int => (i % 2 ^ bits).toNat
    let two := fun (vv vx : Instr) (f : Nat → Nat → Nat) =>
      (r.instr = vv → s.mayFire r e m n [a, b, d] → FiresV s r e d n (f av bv) 0) ∧
      (r.instr = vx → s.mayFire r e m n [a, d] → FiresV s r e d n (f av x) 0)
    let one := fun (i : Instr) (m : Fin 4) (srcs : List Reg) (v : Nat) =>
      r.instr = i → s.mayFire r e m n (srcs ++ [d]) → FiresV s r e d n v 0
    let logic := fun (i : Instr) (f : Bool → Bool → Bool) => d.val < 8 → r.instr = i → s.mayFire r e 0 n [] →
      FiresQ s r e d.val (f (s.ctx.maskBit a.val e) (s.ctx.maskBit b.val e))
    two (.vandVv d a b m dt) (.vandVx d a b m dt) (fun x y => x &&& y) ∧
    two (.vorVv d a b m dt) (.vorVx d a b m dt) (fun x y => x ||| y) ∧
    two (.vxorVv d a b m dt) (.vxorVx d a b m dt) (fun x y => x ^^^ y) ∧
    two (.vandnVv d a b m dt) (.vandnVx d a b m dt) (fun x y => x &&& (2 ^ bits - 1 - y)) ∧
    two (.vsgnjVv d a b m dt) (.vsgnjVx d a b m dt) (fun x y => x % 2 ^ (bits - 1) + y / 2 ^ (bits - 1) * 2 ^ (bits - 1)) ∧
    (r.vtype.toNat / 4 % 8 ≤ 1 →
      one (.vaddi d a j m) m [a] (narrow (av + j.toInt)) ∧ one (.vslli d a j m) m [a] (av * 2 ^ (j.toNat % bits) % 2 ^ bits) ∧
      one (.vsrli d a j m) m [a] (av / 2 ^ (j.toNat % bits)) ∧
      one (.vsrai d a j m) m [a] (narrow (signedOf bits av / 2 ^ (j.toNat % bits)))) ∧
    one (.vidx d j k) 0 [] (narrow (j.toInt + e * k.toInt)) ∧ one (.vbcsti d j) 0 [] (narrow j.toInt) ∧
    one (.vbcst d a) 0 [] (r.opA.toNat % 2 ^ bits) ∧
    one (.vpopc d a m dt) m [a] ((List.range bits).filter fun i => av.testBit i).length ∧
    logic (.qand d a b) and ∧ logic (.qor d a b) or ∧ logic (.qxor d a b) xor ∧ logic (.qandn d a b) (fun x y => x && !y) ∧
    (d.val < 8 → r.instr = .qset d a → s.mayFire r e 0 n [] → FiresQ s r e d.val (r.opA.getLsbD (e % 64))) ∧
    (d.val < 8 → r.instr = .vbitq d a b m dt → s.mayFire r e m n [a] →
      FiresQ s r e d.val (decide (r.opB.toNat < bits) && av.testBit r.opB.toNat))) ∧
  ∀ (s : State) (r : Rule) (e : Nat) (d a b : Reg) (m : Fin 4) (dt : Bool), d.val < 8 →
    let cls := r.vtype.toNat / 4 % 8
    let n := 2 ^ (r.vtype.toNat % 4)
    let bits := 8 * n
    let value := fun c : Nat => if cls = 0 then signedOf bits c else ((c % 2 ^ bits : Nat) : Int)
    let x := value (s.ctx.elem r.wb a.val n e)
    let y := value (s.ctx.elem r.wb b.val n e)
    let z := value r.opB.toNat
    let vv := fun (i : Instr) (v : Bool) => r.instr = i → s.mayFire r e m n [a, b] → FiresQ s r e d.val v
    let vx := fun (i : Instr) (v : Bool) => r.instr = i → s.mayFire r e m n [a] → FiresQ s r e d.val v
    cls ≤ 1 →
      vv (.veqVv d a b m dt) (x == y) ∧ vv (.vneVv d a b m dt) (x != y) ∧ vv (.vltVv d a b m dt) (decide (x < y)) ∧
      vv (.vle d a b m dt) (decide (x ≤ y)) ∧
      vx (.veqVx d a b m dt) (x == z) ∧ vx (.vneVx d a b m dt) (x != z) ∧ vx (.vltVx d a b m dt) (decide (x < z)) ∧
      vx (.vge d a b m dt) (decide (z ≤ x))

/-- Permutes into another register (R281, R282): element e takes the element of V[a] that the permute names, a scalar shifted in, 0 from
beyond the register, or stays. -/
def Obligations.PermutesMoveElements : Prop :=
  ∀ (s : State) (r : Rule) (e : Nat) (d a b : Reg) (m : Fin 4) (dt : Bool), d ≠ a → d ≠ b →
    let n := 2 ^ (r.vtype.toNat % 4)
    let top := 4096 / n
    let k := r.opB.toNat
    let src := fun i : Nat => s.ctx.elem r.wb a.val n i
    let sound := fun i : Nat => s.sound (r.place a n i) n
    let takes := fun (i : Instr) (source : Option Nat) (v : Nat) =>
      r.instr = i → s.mayFire r e m n [d] → (∀ j, source = some j → j < top ∧ sound j) → FiresV s r e d n v 0
    let x := k % 2 ^ (8 * n)
    let p := s.ctx.elem r.wb b.val n e
    takes (.vrev d a m dt) (some (r.vl - 1 - e)) (src (r.vl - 1 - e)) ∧
    (k ≤ e → takes (.vshup d a b m dt) (some (e - k)) (src (e - k))) ∧
    (e < k → takes (.vshup d a b m dt) none (s.ctx.elem r.wb d.val n e)) ∧
    (e + k < top → takes (.vshdn d a b m dt) (some (e + k)) (src (e + k))) ∧ (top ≤ e + k → takes (.vshdn d a b m dt) none 0) ∧
    (e = 0 → takes (.vinsup d a b m dt) none x) ∧ (0 < e → takes (.vinsup d a b m dt) (some (e - 1)) (src (e - 1))) ∧
    (e + 1 = r.vl → takes (.vinsdn d a b m dt) none x) ∧
    (e + 1 < r.vl → takes (.vinsdn d a b m dt) (some (e + 1)) (src (e + 1))) ∧
    (s.mayFire r e m n [b] →
      (p < top → takes (.vpick d a b m dt) (some p) (src p)) ∧ (top ≤ p → takes (.vpick d a b m dt) none 0))

/-- Compress, expand and the integer reductions (R256, R280, R283): a selected element goes to, or comes from, the place that the
selected ones below it count; a reduction folds its active elements in one element that starts from V[b].0. -/
def Obligations.GathersAndReductions : Prop :=
  ∀ (s : State) (r : Rule) (e : Nat) (d a b : Reg) (m : Fin 4) (dt : Bool), d ≠ a →
    let cls := r.vtype.toNat / 4 % 8
    let n := 2 ^ (r.vtype.toNat % 4)
    let bits := 8 * n
    let value := fun c : Nat => if cls = 0 then signedOf bits c else ((c % 2 ^ bits : Nat) : Int)
    let active := fun i : Nat => m == 0 || s.ctx.maskBit m.val i
    let selected := fun i : Nat => active i && s.ctx.maskBit b.val i
    let k := ((List.range e).filter selected).length
    let src := fun i : Nat => s.ctx.elem r.wb a.val n i
    let sound := fun (x : Reg) (i : Nat) => s.sound (r.place x n i) n
    let live := (List.range r.vl).filter active
    let start := s.ctx.elem r.wb b.val n 0
    let folds := fun (i : Instr) (v : Nat) =>
      r.instr = i → e = 0 → s.mayFire r 0 0 n [b, d] → (∀ j ∈ live, sound a j) → FiresV s r 0 d n v 0
    (r.instr = .vcompress d a b m dt → s.mayFire r e 0 n [] →
      (selected e = true → sound a e → sound d k → FiresAt s r e d n k (src e) 0) ∧
      (selected e = false → FiresAt s r e d n e (s.ctx.elem r.wb d.val n e) 0)) ∧
    (r.instr = .vexpand d a b m dt → s.mayFire r e 0 n [] →
      (selected e = true → sound a k → sound d e → FiresAt s r e d n e (src k) 0) ∧
      (selected e = false → FiresAt s r e d n e (s.ctx.elem r.wb d.val n e) 0)) ∧
    (cls ≤ 1 →
      let total := ((value start + (live.map fun i => value (src i)).sum) % 2 ^ bits).toNat
      let least := live.foldl (fun x i => if value (src i) < value x then src i else x) start
      let most := live.foldl (fun x i => if value x < value (src i) then src i else x) start
      folds (.vredsumO d a b m dt) total ∧ folds (.vredsumT d a b m dt) total ∧ folds (.vredmin d a b m dt) least ∧
      folds (.vredmax d a b m dt) most)

/-- Float elements (R242, R247, R248, R253, R257, R275): a NaN operand gives the canonical NaN and no flag; sums, products, quotients and the
functions round the exact result once, and raise its flags with those of the operation. Rounding (R247, R248) keeps a value that the format
represents, whatever the mode, and raises no flag for it. -/
def Obligations.FloatElementsRoundOnce : Prop :=
  (∀ (s : State) (r : Rule) (e : Nat) (d a b : Reg) (m : Fin 4) (dt : Bool),
    let cls := r.vtype.toNat / 4 % 8
    let sew := r.vtype.toNat % 4
    let frm := r.vtype.toNat / 1024 % 8
    let sat := r.vtype.toNat / 2 ^ 13 % 2 == 1
    let n := 2 ^ sew
    let f := formatOf cls sew
    let x := f.value (s.ctx.elem r.wb a.val n e)
    let y := f.value (s.ctx.elem r.wb b.val n e)
    let z := f.value (s.ctx.elem r.wb d.val n e)
    let gives := fun (i : Instr) (srcs : List Reg) (p : Val × Nat) =>
      let v := f.round frm sat p.1
      r.instr = i → s.mayFire r e m n (srcs ++ [d]) → FiresV s r e d n v.1 (v.2 ||| p.2)
    cls = 2 ∨ cls = 3 →
      (x = .nan ∨ y = .nan → ∀ i ∈ [.vaddVv d a b m dt, .vsubVv d a b m dt, .vrsubVv d a b m dt, .vmulVv d a b m dt, .vdivVv d a b m dt,
          .vabsdVv d a b m dt, .vminVv d a b m dt, .vmaxVv d a b m dt],
        r.instr = i → s.mayFire r e m n [a, b, d] → FiresV s r e d n f.cnan 0) ∧
      gives (.vaddVv d a b m dt) [a, b] (x.add frm y) ∧ gives (.vsubVv d a b m dt) [a, b] (x.add frm y.neg) ∧
      gives (.vrsubVv d a b m dt) [a, b] (y.add frm x.neg) ∧ gives (.vmulVv d a b m dt) [a, b] (x.mul y) ∧
      gives (.vdivVv d a b m dt) [a, b] (x.div y) ∧ gives (.vfmaVv d a b m dt) [a, b, d] (x.fma frm y z) ∧
      gives (.vfmsVv d a b m dt) [a, b, d] (x.fma frm y z.neg) ∧ gives (.vfnmaVv d a b m dt) [a, b, d] (x.neg.fma frm y z) ∧
      gives (.vsqrt d a m dt) [a] x.sqrt ∧ gives (.vrcp d a m dt) [a] x.rcp ∧ gives (.vrsqrt d a m dt) [a] x.rsqrt ∧
      gives (.vexp2 d a m dt) [a] x.exp2 ∧ gives (.vlog2 d a m dt) [a] x.log2) ∧
  ∀ f ∈ [binary16, binary32, binary64, bfloat16, e4m3, e5m2], ∀ (frm code : Nat) (sat : Bool), code < 2 ^ (1 + f.w + f.t) →
    (∀ neg num exp sticky, f.value code = .fin neg num exp sticky → f.round frm sat (f.value code) = (code, 0)) ∧
    (∀ neg, f.value code = .inf neg → f.round frm sat (f.value code) = (code, 0)) ∧
    (f.value code = .nan → f.round frm sat (f.value code) = (f.cnan, 0) ∧ f.value f.cnan = .nan ∧ f.cnan < 2 ^ (f.w + f.t))

/-- Float elements beside those that round one operation (R242, R256, R274, R275, R279, R283): the vector-scalar forms, minimum, maximum and
distance, the compares under every float class and under bfp, and the reductions, which add in element order, or in the tree whose inactive and
missing leaves are -0; a NaN gives the canonical NaN, and a reduction without active elements V[b].0. -/
def Obligations.FloatComparesAndReductions : Prop :=
  ∀ (s : State) (r : Rule) (e : Nat) (d a b : Reg) (m : Fin 4) (dt : Bool),
    let cls := r.vtype.toNat / 4 % 8
    let sew := r.vtype.toNat % 4
    let frm := r.vtype.toNat / 1024 % 8
    let sat := r.vtype.toNat / 2 ^ 13 % 2 == 1
    let n := 2 ^ sew
    let f := formatOf cls sew
    let av := s.ctx.elem r.wb a.val n e
    let bv := s.ctx.elem r.wb b.val n e
    let dv := s.ctx.elem r.wb d.val n e
    let xv := r.opB.toNat % 2 ^ (8 * n)
    let rounded := fun p : Val × Nat => ((f.round frm sat p.1).1, (f.round frm sat p.1).2 ||| p.2)
    let sum := fun u v : Nat => rounded ((f.value u).add frm (f.value v))
    let nan := fun u v : Nat => f.value u = .nan ∨ f.value v = .nan
    let below := fun u v : Nat =>
      (f.value u).lt (f.value v) || ((f.value u).eq (f.value v) && (f.value u).isNeg && !(f.value v).isNeg)
    let least := fun u v : Nat => if nan u v then f.cnan else if below u v then u else v
    let most := fun u v : Nat => if nan u v then f.cnan else if below u v then v else u
    let size := fun v : Val => match v with
      | .fin _ num exp sticky => Val.fin false num exp sticky
      | .inf _ => .inf false
      | .nan => .nan
    let apart := fun u v : Nat => let p := (f.value u).add frm (f.value v).neg; rounded (size p.1, p.2)
    let vv := fun (i : Instr) (p : Nat × Nat) => r.instr = i → s.mayFire r e m n [a, b, d] → FiresV s r e d n p.1 p.2
    let vx := fun (i : Instr) (p : Nat × Nat) => r.instr = i → s.mayFire r e m n [a, d] → FiresV s r e d n p.1 p.2
    let x := f.value av
    let y := f.value xv
    let z := f.value dv
    let holds := fun (i j : Instr) (p : Nat → Nat → Bool) => d.val < 8 →
      (r.instr = i → s.mayFire r e m n [a, b] → FiresQ s r e d.val (p av bv)) ∧
      (r.instr = j → s.mayFire r e m n [a] → FiresQ s r e d.val (p av xv))
    let ordered := fun (p : Val → Val → Bool) (u v : Nat) => if nan u v then false else p (f.value u) (f.value v)
    let active := fun i : Nat => m == 0 || s.ctx.maskBit m.val i
    let src := fun i : Nat => s.ctx.elem r.wb a.val n i
    let live := (List.range r.vl).filter active
    let start := s.ctx.elem r.wb b.val n 0
    let folds := fun (i : Instr) (p : Nat × Nat) =>
      r.instr = i → s.mayFire r 0 0 n [b, d] → (∀ j ∈ live, s.sound (r.place a n j) n) →
        if live = [] then FiresV s r 0 d n (if f.value start = .nan then f.cnan else start) 0 else FiresV s r 0 d n p.1 p.2
    (cls = 2 ∨ cls = 3 →
      vv (.vminVv d a b m dt) (least av bv, 0) ∧ vx (.vminVx d a b m dt) (least av xv, 0) ∧
      vv (.vmaxVv d a b m dt) (most av bv, 0) ∧ vx (.vmaxVx d a b m dt) (most av xv, 0) ∧
      vv (.vabsdVv d a b m dt) (apart av bv) ∧ vx (.vabsdVx d a b m dt) (apart av xv) ∧
      vx (.vaddVx d a b m dt) (rounded (x.add frm y)) ∧ vx (.vsubVx d a b m dt) (rounded (x.add frm y.neg)) ∧
      vx (.vrsubVx d a b m dt) (rounded (y.add frm x.neg)) ∧ vx (.vmulVx d a b m dt) (rounded (x.mul y)) ∧
      vx (.vdivVx d a b m dt) (rounded (x.div y)) ∧ vx (.vfmaVx d a b m dt) (rounded (x.fma frm y z)) ∧
      vx (.vfmsVx d a b m dt) (rounded (x.fma frm y z.neg)) ∧ vx (.vfnmaVx d a b m dt) (rounded (x.neg.fma frm y z)) ∧
      holds (.vltVv d a b m dt) (.vltVx d a b m dt) (ordered fun u v => u.lt v) ∧
      (d.val < 8 → r.instr = .vle d a b m dt → s.mayFire r e m n [a, b] → FiresQ s r e d.val (ordered (fun u v => !v.lt u) av bv)) ∧
      (d.val < 8 → r.instr = .vge d a b m dt → s.mayFire r e m n [a] → FiresQ s r e d.val (ordered (fun u v => !u.lt v) av xv)) ∧
      folds (.vredsumO d a b m dt)
        (live.foldl (fun (p : Nat × Nat) i => let q := sum p.1 (src i); (q.1, p.2 ||| q.2)) (start, 0)) ∧
      (∀ depth, r.vl ≤ 2 ^ depth → (depth = 0 ∨ 2 ^ (depth - 1) < r.vl) →
        let root := treeNode sum (fun i => if i < r.vl ∧ active i = true then src i else 2 ^ (f.w + f.t)) depth 0
        let p := sum start root.1
        folds (.vredsumT d a b m dt) (p.1, root.2 ||| p.2)) ∧
      folds (.vredmin d a b m dt) (live.foldl (fun u i => least u (src i)) start, 0) ∧
      folds (.vredmax d a b m dt) (live.foldl (fun u i => most u (src i)) start, 0)) ∧
    (2 ≤ cls → cls ≤ 5 →
      holds (.veqVv d a b m dt) (.veqVx d a b m dt) (ordered fun u v => u.eq v) ∧
      holds (.vneVv d a b m dt) (.vneVx d a b m dt) (fun u v => !ordered (fun u v => u.eq v) u v)) ∧
    (cls = 6 →
      let same := fun u v : Nat => u % 2 ^ (r.vtype.toNat / 32 % 8 + 2) == v % 2 ^ (r.vtype.toNat / 32 % 8 + 2)
      holds (.veqVv d a b m dt) (.veqVx d a b m dt) same ∧ holds (.vneVv d a b m dt) (.vneVx d a b m dt) fun u v => !same u v)

/-- Conversions and the moves beside them (R140, R245, R250-R252, R276, R287-R289): `vcvt` into a register group of the destination's width,
bfp blocks made and read, `vmerge`, and `vmv.sx`. Groups of one word that lie apart. -/
def Obligations.ConversionsAndMerges : Prop :=
  ∀ (s : State) (r : Rule) (e : Nat) (d a b : Reg) (m : Fin 4) (dt : Bool),
    let cls := r.vtype.toNat / 4 % 8
    let sew := r.vtype.toNat % 4
    let frm := r.vtype.toNat / 1024 % 8
    let sat := r.vtype.toNat / 2 ^ 13 % 2 == 1
    let n := 2 ^ sew
    let code := s.ctx.elem r.wb a.val n e
    let only := fun f : Nat => decide (f = e)
    let writes := fun (at' k : Nat) (p : Nat × Nat) => FiresBytes s r e only (bytesAt at' k p.1) p.2
    let clear := fun (at' k src w : Nat) => ∀ i, i < r.vl → i ≠ e →
      at' + k ≤ vaddr r.wb src (i * w) ∨ vaddr r.wb src (i * w) + w ≤ at'
    let intOf := fun (c bits x : Nat) => if c = 0 then signedOf bits x else ((x % 2 ^ bits : Nat) : Int)
    let range := fun (c bits : Nat) => if c = 0 then ((-2 ^ (bits - 1), 2 ^ (bits - 1) - 1) : Int × Int) else (0, 2 ^ bits - 1)
    let clamp := fun (x : Int × Int) (i : Int) => max x.1 (min x.2 i)
    let raw := fun (bits : Nat) (i : Int) => (i % 2 ^ bits).toNat
    (r.instr = .vcvt d a b m dt → cls ≤ 5 → b.val / 4 ≤ 5 → s.mayFire r e m n [a] →
      let kind := b.val / 4
      let k := 2 ^ (b.val % 4)
      let at' := vaddr r.wb d.val (e * k)
      let into := range kind (8 * k)
      let v := if cls ≤ 1 then Val.ofInt (intOf cls (8 * n) code) else (formatOf cls sew).value code
      s.sound at' k → clear at' k a.val n →
      (2 ≤ kind → writes at' k ((formatOf kind (b.val % 4)).round frm sat v)) ∧
      (kind ≤ 1 → cls ≤ 1 →
        let i := intOf cls (8 * n) code
        writes at' k (raw (8 * k) (if sat then clamp into i else i), 0)) ∧
      (kind ≤ 1 → 2 ≤ cls →
        (v = .nan → writes at' k (0, 16)) ∧
        (∀ neg, v = .inf neg → writes at' k (raw (8 * k) (if neg then into.1 else into.2), 16)) ∧
        (∀ neg num exp sticky, v = .fin neg num exp sticky →
          let w := roundShift frm neg num (-exp) sticky
          let i : Int := if neg then -(w.1 : Int) else w.1
          writes at' k (if clamp into i = i then (raw (8 * k) i, if w.2 then 1 else 0) else (raw (8 * k) (clamp into i), 16))))) ∧
    (cls = 6 →
      let bits := r.vtype.toNat / 32 % 8 + 2
      let block := 16 * 2 ^ (r.vtype.toNat / 256 % 4)
      let step := fun scale : Nat => (scale : Int) - 127 - ((bits : Int) - 2)
      (r.instr = .vfrombfp d a b m dt → s.mayFire r e m 1 [a] →
        let at' := vaddr r.wb d.val (e * 4)
        let mant := signedOf bits (s.ctx.elem r.wb a.val 1 e)
        let scale := s.ctx.elem r.wb b.val 1 (e / block)
        s.sound (vaddr r.wb b.val (e / block)) 1 → s.sound at' 4 → clear at' 4 a.val 1 →
        (∀ i, i < r.vl → i ≠ e → at' + 4 ≤ vaddr r.wb b.val (i / block) ∨ vaddr r.wb b.val (i / block) + 1 ≤ at') →
        writes at' 4 (binary32.round frm false
          (if scale = 255 then .nan else .fin (decide (mant < 0)) mant.natAbs (step scale) false))) ∧
      (r.instr = .vtobfp d a b m dt → e % block = 0 → s.mayFire r e 0 1 [] → d ≠ b →
        let mine := fun i : Nat => decide (e ≤ i) && decide (i < e + block) && decide (i < r.vl)
        let live := (List.range r.vl).filter fun i => mine i && (m == 0 || s.ctx.maskBit m.val i)
        let vals := live.map fun i => binary32.value (s.ctx.elem r.wb a.val 4 i)
        let p := toBfpBlock bits frm vals
        let wide := fun i : Nat => s.sound (vaddr r.wb a.val (i * 4)) 4
        (∀ i ∈ live, wide i ∧ s.sound (vaddr r.wb d.val i) 1) → s.sound (vaddr r.wb b.val (e / block)) 1 →
        (∀ i, i < r.vl → vaddr r.wb a.val (i * 4) / 4096 ≠ (r.wb + d.val) % 1024 ∧ vaddr r.wb a.val (i * 4) / 4096 ≠ (r.wb + b.val) % 1024) →
        FiresBytes s r e mine (fun x => if x = vaddr r.wb b.val (e / block) then some (BitVec.ofNat 8 p.1)
          else ((live.zip p.2.1).find? fun y => vaddr r.wb d.val y.1 == x).map fun y => BitVec.ofInt 8 y.2) p.2.2)) ∧
    (r.instr = .vmergeVv d a b m dt →
      let src := if s.ctx.maskBit m.val e then b else a
      s.mayFire r e 0 n [src, d] → FiresV s r e d n (s.ctx.elem r.wb src.val n e) 0) ∧
    (r.instr = .vmergeVx d a b m dt →
      (s.ctx.maskBit m.val e = true → s.mayFire r e 0 n [d] → FiresV s r e d n (r.opB.toNat % 2 ^ (8 * n)) 0) ∧
      (s.ctx.maskBit m.val e = false → s.mayFire r e 0 n [a, d] → FiresV s r e d n code 0)) ∧
    (r.instr = .vmvSx d a b → e = r.opB.toNat → e < 4096 / n → s.stands r e 0 → s.spanClear r e →
      s.sound (vaddr r.wb d.val (e * n)) n → writes (vaddr r.wb d.val (e * n)) n (r.opA.toNat % 2 ^ (8 * n), 0))

/-! ## What elements access -/

/-- Vector loads (R112, R148, R163, R187-R189, R207, R227, R233): an element at its address, whose index words are captured first where the
load overwrites them, meets the causes of its address, then reads the records of collecting mode, then its bytes at the snapshotted scope, each
from a record, from a younger read that went before it (log 87), or as R153 says; it writes them to V[v].e, or holds them until it may. A
`vldxo` waits for its lower elements. `vldff` first finds the failing elements: a failure of the lowest active one is its fault, any other
trims vl. `vspld` reads the scratchpad, within its task's range. -/
def Obligations.LoadElementsRead : Prop :=
  ∀ (s : State) (r : Rule) (e : Nat) (v b i : Reg) (m : Fin 4) (dt : Bool), s.wf = true →
    let g := s.ctx.agent
    let n := 2 ^ (r.vtype.toNat % 4)
    let scope := if (coreOf g).isSome then scopeOf r.vtype else max (scopeOf r.vtype) 3
    let only := fun f : Nat => decide (f = e)
    let word := fun j : Nat => (BitVec.ofNat 32 (s.ctx.v.readNat (vaddr r.wb i.val (4 * j)) 4)).signExtend 64
    let wordAt := fun j : Nat => s.sound (vaddr r.wb i.val (4 * j)) 4
    let below := ∀ j, j < e → r.done.getLsbD j = true ∨ (r.holding j).isSome = true
    let meetsIndex := ∃ x y, x < r.vl * n ∧ y < r.vl * 4 ∧ vaddr r.wb v.val x = vaddr r.wb i.val y
    let takes := fun (u : State) (byte : Nat → Byte) => Completes (exec (.elementFire g 0 e) s) fun t =>
      (∀ k, k < n → t.ctx.v.read (r.place v n e + k) = byte k) ∧
      (∀ x, ¬ (r.place v n e ≤ x ∧ x < r.place v n e + n) → t.ctx.v.read x = s.ctx.v.read x) ∧
      t.ctx.fflags = s.ctx.fflags ∧ t.ctx.q = s.ctx.q ∧ WorksOnly s t r only ∧ SameMemory u t
    let reads := fun va : Word =>
      let acc := r.acc s.ctx e
      if isCanonical va = false then FaultsAt s r e e .loadfault va
      else if va.toNat % n ≠ 0 then FaultsAt s r e e .align va
      else match s.ownBytes { acc with scope := 0, scalar := false } va n (r.lists s.ctx) with
        | (.error (c, _), _) => FaultsAt s r e e c va
        | (.ok none, _) => StaysAs s r e
        | (.ok (some own), u) => match u.translate acc.place (u.tenantOf g) .load u.ctx.user va with
          | .error c => FaultsAt s r e e c va
          | .ok p =>
            let byte := fun (k : Nat) (y : Byte) => ((own[k]?).getD none).getD y
            (p.attr = .remote → (coreOf g).isNone = true → FaultsAt s r e e .loadfault va) ∧
            (p.attr = .remote → (coreOf g).isSome = true → match findRemote acc p.pa .load u.ctx.remotes with
              | none => StaysAs s r e ∧ Completes (exec (.elementFire g 0 e) s) fun t => t.out = u.out ++ [.remote p.owner p.pa .load []]
              | some q => (q.lost = true → FaultsAt s r e e .dataloss va) ∧
                (q.lost = false → q.answer = none → StaysAs s r e) ∧
                (q.lost = false → ∀ bs, q.answer = some bs → takes u fun k => byte k ((bs[k]?).getD 0))) ∧
            (p.attr ≠ .remote → (p.pa + n - 1) / 128 = p.pa / 128 →
              if u.loadWaits g scope p.pa n then StaysAs s r e
              else match u.loadError g scope p.pa n p.zero with
                | some c => FaultsAt s r e e c va
                | none => u.loadMisses g scope p.pa n = false ∨ u.takesLine g (p.pa / 128) p.zero →
                  takes u fun k => byte k ((u.ctx.aheadByte r.seq (p.pa + k)).getD (u.readByte g scope (p.pa + k))))
    let loads := fun (w : Instr) (va : Word) => r.instr = w → s.mayFire r e m n [v] → r.detached = false → r.eng.orphan = false →
      r.seq < 2 ^ 62 → match r.holding e with
        | some x => FiresV s r e v n x 0
        | none => reads va
    let indexed := fun (w : Instr) (ordered : Bool) => r.instr = w → s.mayFire r e m n [v] → r.detached = false → r.eng.orphan = false →
      r.seq < 2 ^ 62 → match r.holding e with
        | some x => FiresV s r e v n x 0
        | none =>
          (r.eng.index = [] → meetsIndex → (∀ j, j < r.vl → r.done.getLsbD j = false → wordAt j) →
            Completes (exec (.elementFire g 0 e) s) fun t =>
              t.ctx.rules.head? = some { r with eng := { r.eng with index := (List.range r.vl).map fun j => (word j).toNat } } ∧
              t.ctx.v = s.ctx.v) ∧
          (r.eng.index = [] → ¬ meetsIndex → wordAt e →
            (ordered = true → ¬ below → StaysAs s r e) ∧ (ordered = false ∨ below → reads (r.opA + word e))) ∧
          (r.eng.index ≠ [] →
            (ordered = true → ¬ below → StaysAs s r e) ∧
            (ordered = false ∨ below → reads (r.opA + BitVec.ofNat 64 ((r.eng.index[e]?).getD 0))))
    let step := fun j : Nat => r.opA + BitVec.ofNat 64 (j * n)
    let cause := fun j : Nat =>
      if isCanonical (step j) = false then some Cause.loadfault else if (step j).toNat % n ≠ 0 then some .align
      else match s.translate (placeOf g) (s.tenantOf g) .load s.ctx.user (step j) with
        | .error c => some c
        | .ok _ => none
    let live := fun j : Nat => r.vstart ≤ j ∧ j < r.vl ∧ (m = 0 ∨ s.ctx.maskBit m.val j = true)
    loads (.vld v b m dt) (step e) ∧ (r.eng.phase ≠ 0 → loads (.vldff v b m dt) (step e)) ∧
    loads (.vlds v b i m dt) (r.opA + BitVec.ofNat 64 e * r.opB) ∧
    indexed (.vldx v b i m dt) false ∧ indexed (.vldxo v b i m dt) true ∧
    (r.instr = .vldff v b m dt → r.eng.phase = 0 → s.mayFire r e m n [v] → r.detached = false → r.eng.orphan = false →
      (∀ j, live j → r.done.getLsbD j = false) →
      ((∀ j, live j → cause j = none) → Completes (exec (.elementFire g 0 e) s) fun t =>
        t.ctx.rules.head? = some { r with eng := { r.eng with phase := 1 } } ∧ t.ctx.vl = s.ctx.vl ∧ t.ctx.v = s.ctx.v) ∧
      (∀ j c, live j → (∀ k, k < j → ¬ live k) → cause j = some c → FaultsAt s r e j c (step j)) ∧
      (∀ j c, live j → (∃ k, k < j ∧ live k) → (∀ k, k < j → live k → cause k = none) → cause j = some c →
        Completes (exec (.elementFire g 0 e) s) fun t =>
          t.ctx.rules.head? = some { r with vl := j, eng := { r.eng with phase := 1 } } ∧ t.ctx.vl = BitVec.ofNat 64 j ∧
          t.ctx.v = s.ctx.v)) ∧
    (r.instr = .vspld v b m dt → s.mayFire r e m n [v] → r.detached = false → r.eng.orphan = false → match r.holding e with
      | some x => FiresV s r e v n x 0
      | none =>
        let off := step e
        let lo := (s.tenant (s.tenantOf g)).spbase.toNat
        let hi := lo + ((s.ctx.task).map (·.scratch)).getD 0
        (off.toNat < lo ∨ hi ≤ off.toNat → FaultsAt s r e e .loadfault off) ∧
        (lo ≤ off.toNat → off.toNat < hi → hi < off.toNat + n → FaultsAt s r e e .loadfault (BitVec.ofNat 64 hi)) ∧
        (lo ≤ off.toNat → off.toNat + n ≤ hi →
          if off.toNat % n ≠ 0 then FaultsAt s r e e .align off
          else if s.scratchWaits g off n then Completes (exec (.elementFire g 0 e) s) fun t =>
            t.ctx.v = s.ctx.v ∧ t.ctx.rules.head? = some (if (lookup? e r.eng.waits).isSome then r
              else { r with eng := { r.eng with waits := r.eng.waits ++ [(e, s.now)] } })
          else if s.scratchLost g off n then FaultsAt s r e e .dataloss off
          else takes s fun k => (s.core (scratchCore g)).scratch.read (off.toNat + k)))

/-- Vector stores, their records, and vector atomics (R158, R163, R186-R192, R207, R227-R232, R428, R432): an element stores V[v].e, the causes
of its address first, at its address, or in collecting mode a record of it, or void records where its mask bit is clear, in the slot that it has
reserved, ELFULL where it has none; a `vstxo` waits for its lower elements. An atomic replaces the old value at the place that R158 fixes by the
new one, and V[v].e takes the old one. `vspst` stores into the scratchpad, within its task's range. That ELFULL comes before a cause of the
target is the model's choice (log 89). -/
def Obligations.StoreElementsWrite : Prop :=
  ∀ (s : State) (r : Rule) (e : Nat) (v b i : Reg) (m : Fin 4) (dt : Bool), s.wf = true →
    let g := s.ctx.agent
    let n := 2 ^ (r.vtype.toNat % 4)
    let only := fun f : Nat => decide (f = e)
    let word := fun j : Nat => (BitVec.ofNat 32 (s.ctx.v.readNat (vaddr r.wb i.val (4 * j)) 4)).signExtend 64
    let wordAt := fun j : Nat => s.sound (vaddr r.wb i.val (4 * j)) 4
    let below := ∀ j, j < e → r.done.getLsbD j = true ∨ (r.holding j).isSome = true
    let x := s.ctx.elem r.wb v.val n e
    let base := r.detached = false ∧ r.eng.orphan = false
    let step := fun j : Nat => r.opA + BitVec.ofNat 64 (j * n)
    let ends := fun (p : State → Prop) => Completes (exec (.elementFire g 0 e) s) fun t => p t ∧
      t.ctx.fflags = s.ctx.fflags ∧ t.ctx.q = s.ctx.q ∧ WorksOnly s t r only
    let stores := fun va : Word =>
      let acc := r.acc s.ctx e
      if isCanonical va = false then FaultsAt s r e e .storefault va
      else if va.toNat % n ≠ 0 then FaultsAt s r e e .align va
      else match s.translate acc.place (s.tenantOf g) .store s.ctx.user va with
        | .error c => FaultsAt s r e e c va
        | .ok p =>
          (p.attr = .remote → (coreOf g).isNone = true → FaultsAt s r e e .storefault va) ∧
          (p.attr = .remote → (coreOf g).isSome = true → match findRemote acc p.pa .store s.ctx.remotes with
            | none => StaysAs s r e ∧
              Completes (exec (.elementFire g 0 e) s) fun t => t.out = s.out ++ [.remote p.owner p.pa .store (toBytes n x)]
            | some q => (q.lost = true → FaultsAt s r e e .dataloss va) ∧ (q.lost = false → q.answer = none → StaysAs s r e) ∧
              (q.lost = false → q.answer ≠ none → ends fun t => t.ctx.v = s.ctx.v ∧ SameMemory s t)) ∧
          (p.attr ≠ .remote → (p.pa + n - 1) / 128 = p.pa / 128 →
            (if (coreOf g).isSome then s.l1Keeps g (p.pa / 128) else s.homeKeeps (s.tenantOf g) (p.pa / 128) p.zero) →
            ends fun t => t.ctx.v = s.ctx.v ∧ Stored s t g p.pa (toBytes n x))
    let size := 16 + 16 * ((n + 15) / 16)
    let slot := r.slotAddr e
    let active := m = 0 ∨ s.ctx.maskBit m.val e = true
    let puts := fun (data : List Byte) (marks : Ctx → Ctx) =>
      slot.toNat % 128 + size ≤ 128 → match s.translate (placeOf g) (s.tenantOf g) .store s.ctx.user slot with
        | .error c => FaultsAt s r e e c slot
        | .ok p => p.attr ≠ .remote → (p.pa + size - 1) / 128 = p.pa / 128 → s.l1Keeps g (p.pa / 128) → ends fun t =>
          t.ctx.v = s.ctx.v ∧ Stored s t g p.pa data ∧ t.ctx.filter = (marks s.ctx).filter
    let records := fun va : Word =>
      (r.r ≤ e → FaultsAt s r e e .elfull 0) ∧
      (e < r.r → ¬ active → puts (List.replicate size 0) id) ∧
      (e < r.r → active →
        if isCanonical va = false then FaultsAt s r e e .storefault va
        else if va.toNat % n ≠ 0 then FaultsAt s r e e .align va
        else puts (recordBytes va (toBytes n x)) fun c => c.markFilter va n)
    let plain := fun (w : Instr) (va : Word) => r.instr = w → base → (r.cdepth = 0 → s.mayFire r e m n [v] → stores va) ∧
      (r.cdepth ≠ 0 → (coreOf g).isSome = true → s.mayFire r e 0 n [v] → records va)
    let indexed := fun (w : Instr) (ordered : Bool) => r.instr = w → base → (r.eng.index = [] → wordAt e) →
      let va := r.opA + if r.eng.index = [] then word e else BitVec.ofNat 64 ((r.eng.index[e]?).getD 0)
      (r.cdepth = 0 → s.mayFire r e m n [v] →
        (ordered = true → ¬ below → StaysAs s r e) ∧ (ordered = false ∨ below → stores va)) ∧
      (r.cdepth ≠ 0 → (coreOf g).isSome = true → s.mayFire r e 0 n [v] → records va)
    let atomic := fun (w : Instr) (m : Fin 4) (ops : List Reg) (carried : Option RemoteOp) (y : Nat) (new : Nat → Option Nat) =>
      r.instr = w → base → s.mayFire r e m n ops → (r.eng.index = [] → wordAt e) →
      let captures := r.eng.index = [] ∧ ∃ x y, x < r.vl * n ∧ y < r.vl * 4 ∧ vaddr r.wb v.val x = vaddr r.wb i.val y
      (captures → (∀ j, j < r.vl → r.done.getLsbD j = false → wordAt j) → Completes (exec (.elementFire g 0 e) s) fun t =>
        t.ctx.rules.head? = some { r with eng := { r.eng with index := (List.range r.vl).map fun j => (word j).toNat } } ∧
        t.ctx.v = s.ctx.v) ∧
      (¬ captures →
      let va := r.opA + if r.eng.index = [] then word e else BitVec.ofNat 64 ((r.eng.index[e]?).getD 0)
      let acc := r.acc s.ctx e
      let scope := scopeOf r.vtype
      let local' := (coreOf g).isSome && decide (scope ≤ 1)
      let operand := if carried = some .cas then toBytes n y ++ toBytes n x else toBytes n x ++ toBytes n 0
      let takes := fun (old : Nat) (p : State → Prop) => ends fun t => p t ∧
        ∀ a, t.ctx.v.read a = (bytesAt (r.place v n e) n old a).getD (s.ctx.v.read a)
      if isCanonical va = false then FaultsAt s r e e .storefault va
      else if va.toNat % n ≠ 0 then FaultsAt s r e e .align va
      else match s.translate acc.place (s.tenantOf g) .atomic s.ctx.user va with
        | .error c => FaultsAt s r e e c va
        | .ok p =>
          (p.attr = .remote → (coreOf g).isNone = true ∨ carried = none → FaultsAt s r e e .storefault va) ∧
          (p.attr = .remote → (coreOf g).isSome = true → ∀ op, carried = some op →
            match (s.fillTlb acc.place (s.tenantOf g) .atomic va).remoteAtomic acc p op n operand new with
            | .fault c _ => FaultsAt s r e e c va
            | .wait _ => StaysAs s r e
            | .ok bs _ => takes (ofBytes bs) fun t => SameMemory s t) ∧
          (p.attr ≠ .remote → (p.pa + n - 1) / 128 = p.pa / 128 → match s.lineError p.pa n p.zero with
            | some c => FaultsAt s r e e c va
            | none =>
              (if local' then (s.loadMisses g scope p.pa n = false ∨ s.takesLine g (p.pa / 128) p.zero) ∧ s.l1Keeps g (p.pa / 128)
               else s.homeKeeps (s.tenantOf g) (p.pa / 128) p.zero) →
              if ¬ local' ∧ ∃ k, coreOf g = some k ∧ s.touchesPending k p.pa n = true then StaysAs s r e
              else
                let byte := fun k : Nat => if local' then s.readByte g scope (p.pa + k) else s.homeByte (p.pa + k)
                let old := ofBytes ((List.range n).map byte)
                takes old fun t => match new old with
                  | some w => if local' then Stored s t g p.pa (toBytes n w)
                      else (∀ k, k < n → some (t.homeByte (p.pa + k)) = (toBytes n w)[k]?) ∧
                        ∀ h a, ¬ (p.pa ≤ a ∧ a < p.pa + n) → SameByte s t h a
                  | none => SameMemory s t))
    let value := fun c : Nat => if r.vtype.toNat / 4 % 8 = 0 then signedOf (8 * n) c else ((c % 2 ^ (8 * n) : Nat) : Int)
    let int := r.vtype.toNat / 4 % 8 ≤ 1
    let next : Reg := ⟨(v.val + 1) % 128, Nat.mod_lt _ (by decide)⟩
    let wanted := s.ctx.elem r.wb (v.val + 1) n e
    plain (.vst v b m dt) (step e) ∧ plain (.vsts v b i m dt) (r.opA + BitVec.ofNat 64 e * r.opB) ∧
    indexed (.vstx v b i m dt) false ∧ indexed (.vstxo v b i m dt) true ∧
    atomic (.vamoadd v b i m dt) m [v] (some .add) 0 (fun old => some ((old + x) % 2 ^ (8 * n))) ∧
    (int → atomic (.vamomin v b i m dt) m [v] none 0 (fun old => some (if value x < value old then x else old)) ∧
      atomic (.vamomax v b i m dt) m [v] none 0 (fun old => some (if value old < value x then x else old))) ∧
    atomic (.vamoswap v b i m dt) m [v] (some .swap) 0 (fun _ => some x) ∧
    atomic (.vamocas v b i) 0 [v, next] (some .cas) wanted (fun old => if old = x then some wanted else none) ∧
    (r.instr = .vspst v b m dt → base → s.mayFire r e m n [v] →
      let off := step e
      let lo := (s.tenant (s.tenantOf g)).spbase.toNat
      let hi := lo + ((s.ctx.task).map (·.scratch)).getD 0
      (off.toNat < lo ∨ hi ≤ off.toNat → FaultsAt s r e e .storefault off) ∧
      (lo ≤ off.toNat → off.toNat < hi → hi < off.toNat + n → FaultsAt s r e e .storefault (BitVec.ofNat 64 hi)) ∧
      (lo ≤ off.toNat → off.toNat + n ≤ hi →
        if off.toNat % n ≠ 0 then FaultsAt s r e e .align off
        else (s.core (scratchCore g)).scratch.wf = true → ends fun t => t.ctx.v = s.ctx.v ∧ (∀ h a, SameByte s t h a) ∧
          ∀ k a, (t.core k).scratch.read a = if k = scratchCore g ∧ off.toNat ≤ a ∧ a < off.toNat + n
            then BitVec.ofNat 8 (x / 256 ^ (a - off.toNat)) else (s.core k).scratch.read a))

/-- Bit planes, captured layouts and copies (R203, R205, R208, R210, R212, R215, R216, R422): `vpst` writes the region of R208 from the
mantissas of V[v] and the scales of V[x], `vpld` reads it back, `cpls` and `cpld` capture their levels, and a transfer of a copy, once both its
sides pass their checks, moves its bytes from its source to its destination; after the last one the copy's tag is set. That a transfer reads and
writes as one event, and which of several faults of one is reported, are the model's choices (log 75). -/
def Obligations.PlanesLayoutsAndCopies : Prop :=
  (∀ (s : State) (r : Rule) (v b x : Reg), s.stands r 0 0 → r.eng.orphan = false → r.vl ≤ 4096 →
    let g := s.ctx.agent
    let bits := r.vtype.toNat / 32 % 8 + 2
    let code := r.vtype.toNat / 256 % 4
    let n := r.vl
    let scales := n / (16 * 2 ^ code)
    let pstride := 64 * (((n + 7) / 8 + 63) / 64)
    let soff := 64 + bits * pstride
    let len := 64 * ((soff + scales + 63) / 64)
    let addr := r.opA.toNat
    let lo := (s.tenant (s.tenantOf g)).spbase.toNat
    let hi := lo + ((s.ctx.task).map (·.scratch)).getD 0
    let pad := (s.core (scratchCore g)).scratch
    let inside := r.opA.toNat % 64 = 0 ∧ lo ≤ addr ∧ addr + len ≤ hi
    let checks := fun fault : Cause =>
      (addr % 64 ≠ 0 → FaultsAt s r 0 0 .align r.opA) ∧
      (addr % 64 = 0 → addr < lo ∨ hi ≤ addr → FaultsAt s r 0 0 fault r.opA) ∧
      (addr % 64 = 0 → lo ≤ addr → addr < hi → hi < addr + len → FaultsAt s r 0 0 fault (BitVec.ofNat 64 hi))
    let sound := (∀ e, e < n → s.sound (vaddr r.wb v.val e) 1) ∧ ∀ j, j < scales → s.sound (vaddr r.wb x.val j) 1
    let number := fun (f : Nat → Byte) (o k : Nat) => ofBytes ((List.range k).map fun i => f (o + i))
    bits ≤ 8 →
    (r.instr = .vpst v b x → checks .storefault ∧
      (inside → sound → pad.wf = true → Completes (exec (.elementFire g 0 0) s) fun t =>
        let at' := fun o : Nat => (t.core (scratchCore g)).scratch.read (addr + o)
        at' 0 = 1 ∧ at' 1 = BitVec.ofNat 8 bits ∧ at' 2 = BitVec.ofNat 8 code ∧ at' 3 = 0 ∧ number at' 4 4 = n ∧
        number at' 8 4 = pstride ∧ number at' 12 4 = soff ∧ (∀ o, 16 ≤ o → o < 64 → at' o = 0) ∧
        (∀ k o q, k < bits → o < pstride → q < 8 → (at' (64 + k * pstride + o)).getLsbD q =
          (decide (8 * o + q < n) && (s.ctx.elem r.wb v.val 1 (8 * o + q)).testBit (bits - 1 - k))) ∧
        (∀ j, j < scales → (at' (soff + j)).toNat = s.ctx.elem r.wb x.val 1 j) ∧
        (∀ k a, ¬ (k = scratchCore g ∧ addr ≤ a ∧ a < addr + soff + scales) → (t.core k).scratch.read a = (s.core k).scratch.read a) ∧
        (∀ h a, SameByte s t h a) ∧ t.ctx.v = s.ctx.v ∧ t.ctx.q = s.ctx.q ∧ WorksOnly s t r fun e => decide (e = 0))) ∧
    (r.instr = .vpld v b x → r.holding 0 = none → checks .loadfault ∧
      (inside → sound →
        let at' := fun o : Nat => pad.read (addr + o)
        let legal := at' 0 = 1 ∧ (at' 1).toNat = bits ∧ (at' 2).toNat = code ∧ number at' 4 4 = n ∧ number at' 8 4 = pstride ∧
          number at' 12 4 = soff
        if s.scratchWaits g r.opA len then Completes (exec (.elementFire g 0 0) s) fun t =>
          t.ctx.v = s.ctx.v ∧ t.ctx.rules.head? = some (if (lookup? 0 r.eng.waits).isSome then r
            else { r with eng := { r.eng with waits := r.eng.waits ++ [(0, s.now)] } })
        else if s.scratchLost g r.opA len then FaultsAt s r 0 0 .dataloss r.opA
        else (¬ legal → FaultsAt s r 0 0 .illcfg 0) ∧
          (legal → Completes (exec (.elementFire g 0 0) s) fun t =>
            let bit := fun k e : Nat => (at' (64 + k * pstride + e / 8)).getLsbD (e % 8)
            (∀ e, e < n → (v ≠ x ∨ scales ≤ e) → ∀ q, q < 8 →
              (t.ctx.v.read (vaddr r.wb v.val e)).getLsbD q = bit (if q < bits then bits - 1 - q else 0) e) ∧
            (∀ j, j < scales → t.ctx.v.read (vaddr r.wb x.val j) = at' (soff + j)) ∧
            (∀ a, (∀ e, e < n → a ≠ vaddr r.wb v.val e) → (∀ j, j < scales → a ≠ vaddr r.wb x.val j) →
              t.ctx.v.read a = s.ctx.v.read a) ∧
            t.ctx.fflags = s.ctx.fflags ∧ t.ctx.q = s.ctx.q ∧ WorksOnly s t r (fun e => decide (e = 0)) ∧ SameMemory s t))) ∧
    let ls := (List.range n).map fun i => BitVec.ofNat 64 (s.ctx.elem r.wb v.val 8 i)
    let captured := fun t : State => t.ctx.v = s.ctx.v ∧ t.ctx.x = s.ctx.x ∧ RulesAfter s t r (fun e => decide (e = 0)) ∧ SameMemory s t
    let first := ((ls.head?).map fun l => l.toNat / 2 ^ 40).getD 0
    (∀ i, i < n → s.sound (vaddr r.wb v.val (i * 8)) 8) →
    (r.instr = .cpls v →
      (first = 0 ∨ 65536 < first → FaultsAt s r 0 0 .illcfg 0) ∧
      (0 < first → first ≤ 65536 → Completes (exec (.elementFire g 0 0) s) fun t =>
        t.ctx.srcLayout = ls ∧ t.ctx.dstLayout = s.ctx.dstLayout ∧ captured t)) ∧
    (r.instr = .cpld v → Completes (exec (.elementFire g 0 0) s) fun t =>
      t.ctx.dstLayout = ls ∧ t.ctx.srcLayout = s.ctx.srcLayout ∧ captured t)) ∧
  ∀ (s : State) (r : Rule) (d a b : Reg) (j : Nat), s.stands r 0 0 → r.eng.orphan = false → j ∈ r.transfersLeft →
    let g := s.ctx.agent
    let n := transferBytes r.eng.src
    let lo := (s.tenant (s.tenantOf g)).spbase.toNat
    let hi := lo + ((s.ctx.task).map (·.scratch)).getD 0
    let out := fun w : Word => if w.toNat < lo ∨ hi ≤ w.toNat then some w else if hi < w.toNat + n then some (BitVec.ofNat 64 hi) else none
    let acc := r.transferAcc s g j
    let run := exec (.copyTransfer g 0 j) s
    let faults := fun (c : Cause) (va : Word) => Completes run fun t =>
      t.ctx.rules.head? = some { r with fault := some (c, 0, va) } ∧ t.ctx.v = s.ctx.v ∧ t.ctx.ctb = s.ctx.ctb
    let moved := fun (w : State) (q : State → Prop) => Completes run fun t =>
      q t ∧ t.ctx.v = s.ctx.v ∧ t.ctx.x = s.ctx.x ∧
      if r.transfersLeft = [j] then
        t.ctx.ctb = s.ctx.ctb ||| (BitVec.ofNat 64 (2 ^ d.val) &&& s.ctx.tagMask) ∧ RulesAfter w t r fun e => decide (e = 0)
      else t.ctx.ctb = s.ctx.ctb ∧
        t.ctx.rules.head? = some { r with eng := { r.eng with xfers := r.eng.xfers ++ [j] } }
    let lands := fun (u : State) (scratch : Bool) (bs : List Byte) =>
      if scratch then (u.core (scratchCore g)).scratch.wf = true → moved u fun t => (∀ h x, SameByte u t h x) ∧
        ∀ k x, (t.core k).scratch.read x = if k = scratchCore g ∧ (r.dstAt j).toNat ≤ x ∧ x < (r.dstAt j).toNat + bs.length
          then (bs[x - (r.dstAt j).toNat]?).getD 0 else (u.core k).scratch.read x
      else match u.writeSpan { acc with elem := acc.elem + 2048 } (r.dstAt j) 514 bs with
        | (.error (c, va), _) => faults c va
        | (.ok false, _) => Completes run fun t => t.ctx.rules.head? = some r ∧ t.ctx.v = s.ctx.v ∧ t.ctx.ctb = s.ctx.ctb
        | (.ok true, w) => moved u fun t => (∀ h x, SameByte w t h x) ∧ ∀ k x, (t.core k).scratch.read x = (w.core k).scratch.read x
    let copies := fun (i : Instr) (fromPad toPad : Bool) => r.instr = i →
      let srcBad := if fromPad then none else s.spanFault acc .load (r.srcAt j) 3 n
      let dstBad := if toPad then (if n = 0 then none else out (r.dstAt j)).map fun x => (Cause.storefault, x)
        else s.spanFault acc .store (r.dstAt j) 3 n
      match srcBad, dstBad with
      | some (c, va), _ => faults c va
      | none, some (c, va) => faults c va
      | none, none =>
        if fromPad then
          match if n = 0 then none else out (r.srcAt j) with
          | some va => faults .loadfault va
          | none =>
            if s.scratchWaits g (r.srcAt j) n then Completes run fun t =>
              t.ctx.v = s.ctx.v ∧ t.ctx.rules.head? = some (if (lookup? j r.eng.waits).isSome then r
                else { r with eng := { r.eng with waits := r.eng.waits ++ [(j, s.now)] } })
            else if s.scratchLost g (r.srcAt j) n then faults .dataloss (r.srcAt j)
            else lands s toPad ((s.core (scratchCore g)).scratch.readBytes (r.srcAt j).toNat n)
        else match s.readSpan acc (r.srcAt j) 514 n with
          | (.error (c, va), _) => faults c va
          | (.ok none, _) => Completes run fun t => t.ctx.rules.head? = some r ∧ t.ctx.v = s.ctx.v ∧ t.ctx.ctb = s.ctx.ctb
          | (.ok (some bs), u) => lands u toPad bs
    copies (.cpgoMm d a b) false false ∧ copies (.cpgoMs d a b) false true ∧ copies (.cpgoSm d a b) true false ∧
    copies (.cpgoSs d a b) true true

/-- Matrix elements (R292, R296, R300-R302, R305-R308, R427): a row of `mop`, `mops` and `mvw`, or a column of `mopm`, adds the products of
its operand words to each cell, int8 into the accumulator and bfp into the partial word with wrap, any other format with one rounding to nearest
even for each word; `mops` takes the elements that its metadata select, `mvw` the weights with their low bits dropped, `mopm` the words of its
column in memory. `mwl` keeps the words of its columns and, after the last, gives them to its buffer in one step; `mfold` scales the partial
words in; the tile moves carry accumulator words. -/
def Obligations.MatrixElementsCompute : Prop :=
  ∀ (s : State) (r : Rule) (e : Nat) (t : Fin 4) (d a b c : Reg) (m : Fin 4) (tile : Nat),
    let g := s.ctx.agent
    let core := s.core (scratchCore g)
    let mt := r.mtype.toNat
    let fmt := mt % 16
    let width := mt / 16 % 8 + 2
    let mv := mt / 2 ^ 8 % 128 + 1
    let nv := mt / 2 ^ 16 % 128 + 1
    let kd := mt / 2 ^ 24 % 8 + 1
    let size := if fmt ≤ 2 then 8 else if fmt ≤ 4 then 16 else if fmt = 5 then 32 else width
    let count := 32 / size
    let float := if fmt = 1 then e4m3 else if fmt = 2 then e5m2 else if fmt = 3 then bfloat16 else if fmt = 4 then binary16 else binary32
    let part := fun w q : Nat => w / 2 ^ (size * q) % 2 ^ size
    let word := fun (x : Reg) (i : Nat) => s.ctx.elem r.wb x.val 4 i
    let soundWords := fun (x : Reg) (lo n : Nat) => ∀ i, i < n → s.sound (vaddr r.wb x.val ((lo + i) * 4)) 4
    let pairs := fun u w : Nat => (List.range count).map fun q => (part u q, part w q)
    let adds := fun (old : Nat) (words : List (List (Nat × Nat))) =>
      let total : Int := (words.map fun ps => (ps.map fun p => signedOf size p.1 * signedOf size p.2).sum).sum
      let acc : Nat := old % 2 ^ 32
      let rest : Nat := old / 2 ^ 32
      if fmt = 0 then ((((acc : Int) + total) % 2 ^ 32).toNat + 2 ^ 32 * rest, 0)
      else if fmt = 6 then (acc + 2 ^ 32 * (((rest : Int) + total) % 2 ^ 32).toNat, 0)
      else
        let p := words.foldl (fun (p : Nat × Nat) ps =>
          let x := dot (binary32.value p.1) (ps.map fun y => (float.value y.1, float.value y.2))
          let y := binary32.round 0 false x.1
          (y.1, p.2 ||| (x.2 ||| y.2))) (acc, 0)
        (p.1 + 2 ^ 32 * rest, p.2)
    let flagsOf := fun (n : Nat) (f : Nat → Nat × Nat) => (List.range n).foldl (fun x j => x ||| (f j).2) 0
    let row := fun (words : Nat → List (List (Nat × Nat))) =>
      let f := fun j : Nat => adds (core.cell tile e j) (words j)
      FiresCells s s r e tile (fun i j => if i = e ∧ j < nv then some (f j).1 else none) (flagsOf nv f)
    let named := fun x : Nat => s.ctx.tileMap.toList[x]? = some (some tile) ∧ tile < 4
    let free := fun x i h j w : Nat => s.placesLost g [.cells x i h j w] = false
    let base := fmt < 7 ∧ width ≤ 8 ∧ r.detached = false ∧ r.eng.orphan = false ∧ r.seq < 2 ^ 62
    let one := s.stands r 0 0
    let only := fun f : Nat => decide (f = e)
    let index := r.opB.toNat % 128
    base → s.wf = true →
    (r.instr = .mop t a b m → s.stands r e m → e < mv → named t.val → free t.val e 1 0 nv →
      soundWords a (e * kd) kd → soundWords b 0 (nv * kd) →
      row fun j => (List.range kd).map fun w => pairs (word a (e * kd + w)) (word b (j * kd + w))) ∧
    (r.instr = .mops t a b c m → s.stands r e m → e < mv → named t.val → free t.val e 1 0 nv →
      soundWords a (e * (kd / 2)) (kd / 2) → soundWords c e 1 → soundWords b 0 (nv * kd) →
      let nibble := fun k : Nat => word c e / 2 ^ (4 * k) % 16
      let kept := fun p : Nat => part (if p / count < kd / 2 then word a (e * (kd / 2) + p / count) else 0) (p % count)
      ((∃ k, k < kd ∧ nibble k / 4 ≤ nibble k % 4) → FaultsAt s r e e .sparsemeta 0) ∧
      ((∀ k, k < kd → nibble k % 4 < nibble k / 4) → row fun j => (List.range kd).map fun k =>
        let w := word b (j * kd + k)
        [(kept (2 * k), part w (nibble k % 4)), (kept (2 * k + 1), part w (nibble k / 4))])) ∧
    (∀ weights, r.instr = .mvw t a b c m → s.stands r e m → e < mv → named t.val → free t.val e 1 0 nv → s.weightsLost g r = false →
      soundWords a (e * kd) kd → core.weights.toList[b.val]? = some (some weights) →
      let low := if fmt = 6 ∧ 0 < r.opA.toNat then width - r.opA.toNat else 0
      row fun j => (List.range kd).map fun w =>
        (pairs (word a (e * kd + w)) ((lookup? (8 * j + w) weights.words).getD 0)).map fun p => (p.1, p.2 / 2 ^ low * 2 ^ low)) ∧
    (∀ pa : Nat → Phys, r.instr = .mopm t a b c m → s.stands r e m → e < nv → named t.val → free t.val 0 mv e 1 →
      soundWords a 0 (mv * kd) →
      let at' := fun w : Nat => r.opB + BitVec.ofNat 64 w * r.opA + BitVec.ofNat 64 (4 * e)
      let scope := if (coreOf g).isSome then scopeOf r.vtype else max (scopeOf r.vtype) 3
      let column := fun (u : State) (ws : List Nat) =>
        let f := fun i : Nat => adds (core.cell tile i e) ((List.range kd).map fun w => pairs (word a (i * kd + w)) ((ws[w]?).getD 0))
        FiresCells s u r e tile (fun i j => if i < mv ∧ j = e then some (f i).1 else none) (flagsOf mv f)
      (match s.readColumn g r r.opB r.opA e kd 0 with
        | (.error (x, va), _) => FaultsAt s r e e x va
        | (.ok none, _) => StaysAs s r e
        | (.ok (some ws), u) => column u ws) ∧
      (r.lists s.ctx = [] → s.ctx.ahead = [] →
        (∀ w, w < kd → isCanonical (at' w) = true ∧ (at' w).toNat % 4 = 0 ∧
          (at' w).toNat / 65536 = (at' 0).toNat / 65536 ∧
          s.translate (placeOf g) (s.tenantOf g) .load s.ctx.user (at' w) = .ok (pa w) ∧ (pa w).attr ≠ .remote ∧
          s.loadWaits g scope (pa w).pa 4 = false ∧ s.loadMisses g scope (pa w).pa 4 = false ∧
          s.loadError g scope (pa w).pa 4 (pa w).zero = none) →
        column s ((List.range kd).map fun w => ofBytes ((List.range 4).map fun k => s.readByte g scope ((pa w).pa + k))))) ∧
    (r.instr = .mwl d a b →
      let cols := r.opB.toNat / 2 ^ 8 % 128 + 1
      let depth := r.opB.toNat / 2 ^ 16 % 8 + 1
      (s.stands r e 0 → e < cols → r.done.getLsbD cols = false → match s.readColumn g r r.opA (r.opB >>> 32) e depth 0 with
        | (.error (x, va), _) => FaultsAt s r e e x va
        | (.ok none, _) => StaysAs s r e
        | (.ok (some ws), u) => Completes (exec (.elementFire g 0 e) s) fun z =>
          (∃ q, z.ctx.rules.head? = some q ∧ q.eng.chunks = r.eng.chunks ++ [(e, ws.flatMap fun w => toBytes 4 w)]) ∧
          z.ctx.v = s.ctx.v ∧ WorksOnly s z r only ∧ SameMemory u z) ∧
      (s.stands r e 0 → e = cols → (∃ j, j < cols ∧ r.done.getLsbD j = false) → r.eng.held = [] → StaysAs s r e) ∧
      (s.stands r e 0 → e = cols → (∀ j, j < cols → r.done.getLsbD j = true) →
        (s.bufferRead (scratchCore g) d.val = true → StaysAs s r e) ∧
        (s.bufferRead (scratchCore g) d.val = false → d.val < 2 → Completes (exec (.elementFire g 0 e) s) fun z =>
          (∃ x, (z.core (scratchCore g)).weights.toList[d.val]? = some (some x) ∧ x.format = BitVec.ofNat 64 (r.opB.toNat % 2 ^ 19) ∧
            ∀ j w bs, j < cols → w < depth → lookup? j r.eng.chunks = some bs →
              lookup? (8 * j + w) x.words = some (ofBytes ((bs.drop (4 * w)).take 4))) ∧
          (∀ k i, k ≠ scratchCore g ∨ i ≠ d.val → (z.core k).weights.toList[i]? = (s.core k).weights.toList[i]?) ∧
          z.ctx.v = s.ctx.v ∧ SameMemory s z))) ∧
    (d.val < 4 → r.instr = .mfold d a b → s.stands r e 0 → e < mv → named d.val → free d.val e 1 0 nv →
      s.sound (vaddr r.wb a.val e) 1 → (∀ j, j < nv → s.sound (vaddr r.wb b.val j) 1) →
      let scale := fun x : Nat => (x : Int) - 127 - ((width : Int) - 2)
      let f := fun j : Nat =>
        let sa := s.ctx.elem r.wb a.val 1 e
        let sb := s.ctx.elem r.wb b.val 1 j
        let p := signedOf 32 (core.cell tile e j / 2 ^ 32)
        let sum := (binary32.value (core.cell tile e j % 2 ^ 32)).add 0 (.fin (decide (p < 0)) p.natAbs (scale sa + scale sb) false)
        let x := binary32.round 0 false sum.1
        if sa = 255 ∨ sb = 255 then (binary32.cnan, 0) else (x.1, sum.2 ||| x.2)
      FiresCells s s r e tile (fun i j => if i = e ∧ j < nv then some (f j).1 else none) (flagsOf nv f)) ∧
    (one → e = 0 → named d.val → r.instr = .mzero d → FiresCells s s r 0 tile (fun _ _ => some 0) 0) ∧
    (one → e = 0 → named d.val → r.instr = .mwr d a b → soundWords a 0 nv →
      FiresCells s s r 0 tile (fun i j => if i = index ∧ j < nv then some (core.cell tile i j / 2 ^ 32 * 2 ^ 32 + word a j) else none) 0) ∧
    (one → e = 0 → named a.val → soundWords d 0 nv → free a.val index 1 0 nv → r.instr = .mrd d a b →
      FiresBytes s r 0 only (fun x => ((List.range nv).find? fun j => vaddr r.wb d.val (j * 4) == x / 4 * 4).map fun j =>
        BitVec.ofNat 8 (core.cell tile index j / 256 ^ (x % 4))) 0) ∧
    (one → e = 0 → named a.val → soundWords d 0 mv → free a.val 0 mv index 1 → r.instr = .mrdc d a b →
      FiresBytes s r 0 only (fun x => ((List.range mv).find? fun i => vaddr r.wb d.val (i * 4) == x / 4 * 4).map fun i =>
        BitVec.ofNat 8 (core.cell tile i index / 256 ^ (x % 4))) 0)

/-- Work lists and `lpush` (R326, R327, R344, R346-R348, R424): an operation waits for the stores of its core to its lines, meets the faults of
the whole instruction, and is then performed at once: a push appends V[b]'s elements that are not done, up to a faulting one, each at the tail,
`wlins` only those that the seen set of the epoch lacks; a pop takes the oldest entries into V[d] and their count into X[b]; close and clear
write the state words. `lpush` writes the record with its stamp and check into the next free slot and notifies the queue. How the slots of the
seen set are used is the model's choice (log 21). -/
def Obligations.ListElements : Prop :=
  (∀ (s : State) (r : Rule) (e : Nat) (d a b : Reg), s.stands r e 0 → r.eng.orphan = false → r.vl ≤ 4096 →
    let g := s.ctx.agent
    let t := s.tenantOf g
    let user := s.ctx.user
    let n := 2 ^ (r.vtype.toNat % 4)
    let at' := fun (x : Reg) (i : Nat) => vaddr r.wb x.val (i * n)
    let elems := ((List.range r.vl).filter fun i => !r.done.getLsbD i).map fun i => (i, s.ctx.elem r.wb b.val n i)
    let run := exec (.elementFire g 0 e) s
    let keeps := fun z u : State => (∀ x, z.homeByte x = u.homeByte x) ∧ z.ctx.q = s.ctx.q ∧ z.ctx.fflags = s.ctx.fflags ∧ z.ctx.pc = s.ctx.pc
    let gone := fun z : State => ∀ p ∈ z.ctx.rules, p ∈ s.ctx.rules.tail
    let closes := fun (u : State) (l : WorkList) => u.closeList (placeOf g) t user r.opA l
    let opens := fun (op : ListOp) (x : Nat) (bad : WorkList → Prop) (p : WorkList → State → Prop) =>
      let busy := ∃ line ∈ (s.listTouch g r op x).rd, s.linesDone (sameCore g) false (128 * line) 128 = false
      (busy → StaysAs s r e) ∧
      (¬ busy → match s.openList (placeOf g) t user r.opA with
        | .error (c, va) => FaultsAt s r e 0 c va
        | .ok (l, line) => (bad l → FaultsAt s r e 0 .illcfg r.opA) ∧ (¬ bad l → p l (s.noteList t line)))
    let pushes := fun (op : ListOp) (ins : Bool) => e < max 1 r.vl → (∀ i, i < r.vl → s.sound (at' b i) n) →
      opens op b.val (fun l => n ≠ l.esize ∨ (ins = true ∧ l.dedup = 0)) fun l u =>
        let p := u.pushAll (placeOf g) t user r.opA ins l elems
        Completes run fun z => keeps z (closes p.2.2.1 p.2.1) ∧ z.ctx.v = s.ctx.v ∧ z.ctx.x = s.ctx.x ∧ match p.2.2.2 with
          | none => gone z
          | some (c, i, va) => z.ctx.rules.head? = some { r with done := (r.finish p.1).done, fault := some (c, i, va) }
    let states := fun (op : ListOp) (f : WorkList → WorkList) => e = 0 → opens op 0 (fun _ => False) fun l u =>
      Completes run fun z => keeps z (closes u (f l)) ∧ gone z ∧ z.ctx.v = s.ctx.v ∧ z.ctx.x = s.ctx.x
    (r.instr = .wlpush a b → pushes .push false) ∧ (r.instr = .wlins a b → pushes .ins true) ∧
    (r.instr = .wlpop d a b → e < max 1 r.vl → (∀ i, i < r.vl → s.sound (at' d i) n) →
      opens (.pop d b) 0 (fun l => n ≠ l.esize) fun l u =>
        let m := min r.vl l.held
        match u.popAll (placeOf g) t user l m 0 with
        | .error (c, i, va) => FaultsAt s r e i c va
        | .ok vs => Completes run fun z => keeps z (closes u { l with head := l.head + m }) ∧ gone z ∧
          (∀ x : Reg, z.getX x = if x = b ∧ b ≠ 0 then BitVec.ofNat 64 m else s.getX x) ∧
          ∀ y, z.ctx.v.read y = match (List.range m).find? fun i => decide (at' d i ≤ y ∧ y < at' d i + n) with
            | some i => BitVec.ofNat 8 ((vs[i]?).getD 0 / 256 ^ (y - at' d i))
            | none => s.ctx.v.read y) ∧
    (r.instr = .wlclose a → states .close fun l => { l with closed := true }) ∧
    (r.instr = .wlclear a → states .clear fun l => { l with closed := false, epoch := (l.epoch + 1) % 2 ^ 63 }) ∧
    (r.instr = .lpush a b → e = 0 → match if r.opB.toNat < 64 then s.queue t r.opB.toNat else none with
      | none => FaultsAt s r 0 0 .illcfg 0
      | some q =>
        if q.device = false ∨ q.state = .off ∨ q.state = .drain then FaultsAt s r 0 0 .illcfg 0
        else if r.opA.toNat % 128 ≠ 0 then FaultsAt s r 0 0 .align r.opA
        else if isCanonical r.opA = false then FaultsAt s r 0 0 .loadfault r.opA
        else if s.olderPerformed g 0 = false then StaysAs s r 0
        else match s.loadAt (r.lookAcc s.ctx 0 0) r.opA 128 [] with
          | .fault c _ => FaultsAt s r 0 0 c r.opA
          | .wait _ => StaysAs s r 0
          | .ok bs u =>
            let p := u.notifyWord t q
            let head := bs.take 0x70 ++ toBytes 8 (p + 1).toNat
            let slot := q.base + BitVec.ofNat 64 (128 * (p.toNat % 2 ^ q.lslots))
            if 2 ^ q.lslots ≤ (p - q.consumed).toNat then StaysAs s r 0
            else match u.deviceWriteSpan t true slot 2 (head ++ toBytes 4 (crc32c head) ++ bs.drop 0x7C) with
              | .error (c, _) => FaultsAt s r 0 0 c slot
              | .ok w => Completes run fun z => keeps z (w.notifyQueue t q.number (p + 1)) ∧
                z.queue t q.number = (w.notifyQueue t q.number (p + 1)).queue t q.number ∧ gone z ∧ z.ctx.v = s.ctx.v ∧
                z.ctx.x = s.ctx.x)) ∧
  ∀ (s : State) (place : Place) (t : Nat) (user : Bool) (desc : Word) (l : WorkList), s.wf = true →
    (∀ f ∈ s.flights, ∀ c ∈ f.bytes, c.1 / 128 = f.line) →
    let opened := s.openList place t user desc
    let reads := fun (va : Word) (n : Nat) => s.placeRead place t user va n
    let written := fun (u : State) (pa : Nat) (bs : List Byte) =>
      (∀ i, i < bs.length → some (u.homeByte (pa + i)) = bs[i]?) ∧ ∀ x, ¬ (pa ≤ x ∧ x < pa + bs.length) → u.homeByte x = s.homeByte x
    (∀ va n p, s.translate place t .load user va = .ok p → p.attr ≠ .remote → s.lineError p.pa n p.zero = none → 0 < n →
      (p.pa + n - 1) / 128 = p.pa / 128 → s.fillKeeps t (p.pa / 128) p.zero →
      reads va n = .ok ((List.range n).map fun i => s.homeByte (p.pa + i))) ∧
    (∀ va bs p, s.translate place t .store user va = .ok p → p.attr ≠ .remote → bs ≠ [] →
      (p.pa + bs.length - 1) / 128 = p.pa / 128 → s.fillKeeps t (p.pa / 128) p.zero →
      ∃ u, s.placeWrite place t user va bs = .ok u ∧ written u p.pa bs) ∧
    (∀ p, s.translate place t .load user desc = .ok p → p.pa % 64 = 0 → s.fillKeeps t (p.pa / 128) p.zero →
      written (s.closeList place t user desc l) (p.pa + 0x20) l.state) ∧
    (isCanonical desc = false → opened = .error (.loadfault, desc)) ∧
    (isCanonical desc = true → desc.toNat % 64 ≠ 0 → opened = .error (.align, desc)) ∧
    (isCanonical desc = true → desc.toNat % 64 = 0 → match s.translate place t .load user desc with
      | .error c => opened = .error (c, desc)
      | .ok p =>
        ((t, p.pa / 128, true) ∈ s.lists → opened = .error (.dataloss, desc)) ∧
        ((t, p.pa / 128, true) ∉ s.lists → match reads desc 64 with
          | .error c => opened = .error (c, desc)
          | .ok bs =>
            let f := fun o n : Nat => ofBytes ((bs.drop o).take n)
            let legal := 1 ≤ f 0 4 ∧ (f 4 1 = 4 ∨ f 4 1 = 8) ∧ f 5 3 = 0 ∧ f 8 8 % 128 = 0 ∧ f 0x10 8 % 128 = 0 ∧
              (if f 0x10 8 = 0 then f 0x18 4 = 0 else 64 ≤ f 0x18 4 ∧ f 0x18 4 ≤ 2 ^ 28 ∧ popcount 32 (f 0x18 4) = 1) ∧ f 0x1C 4 = 0 ∧
              f 0x38 8 = 0
            (¬ legal → opened = .error (.illcfg, desc)) ∧
            (legal → ∃ x, opened = .ok (x, p.pa / 128) ∧ x.cap = f 0 4 ∧ x.esize = f 4 1 ∧ x.spill = BitVec.ofNat 64 (f 8 8) ∧
              x.dedup = BitVec.ofNat 64 (f 0x10 8) ∧ x.dslots = f 0x18 4 ∧ x.state = (bs.drop 0x20).take 24))) ∧
    (∀ v, let tail := l.spill + BitVec.ofNat 64 (l.esize * (l.tail % l.cap))
      let appends := fun u : State => if l.cap ≤ l.tail - l.head then Pushed.fault .wlfull desc
        else match u.placeWrite place t user tail (toBytes l.esize v) with
          | .error c => .fault c tail
          | .ok w => .ok { l with tail := l.tail + 1 } w
      let push := s.pushOne place t user desc
      (l.closed = true → ∀ ins, push ins l v = .fault .illcfg desc) ∧ (l.closed = false → push false l v = appends s) ∧
      (l.closed = false → match s.probeSeen place t user l v l.dslots v with
        | .present => push true l v = .ok l s
        | .full => push true l v = .fault .wlfull desc
        | .fault c va => push true l v = .fault c va
        | .room slot => (l.cap ≤ l.tail - l.head → push true l v = .fault .wlfull desc) ∧
          (l.tail - l.head < l.cap → match s.placeWrite place t user slot (toBytes 8 v ++ toBytes 8 (l.epoch + 1)) with
            | .error c => push true l v = .fault c slot
            | .ok u => push true l v = appends u)) ∧
      ∀ seen : Nat → List Byte,
        let slot := fun k : Nat => l.dedup + BitVec.ofNat 64 (16 * ((v + k) % l.dslots))
        (∀ k, k < l.dslots → reads (slot k) 16 = .ok (seen k)) →
        let used := fun k : Nat => ofBytes ((seen k).drop 8) = l.epoch + 1
        let other := fun k : Nat => used k ∧ ofBytes ((seen k).take 8) ≠ v
        let probe := s.probeSeen place t user l v l.dslots v
        (∀ k, k < l.dslots → (∀ j, j < k → other j) → used k → ofBytes ((seen k).take 8) = v → probe = .present) ∧
        (∀ k, k < l.dslots → (∀ j, j < k → other j) → ¬ used k → probe = .room (slot k)) ∧
        ((∀ k, k < l.dslots → other k) → probe = .full)) ∧
    (∀ ins e v rest, s.pushAll place t user desc ins l [] = ([], l, s, none) ∧
      (∀ c va, s.pushOne place t user desc ins l v = .fault c va →
        s.pushAll place t user desc ins l ((e, v) :: rest) = ([], l, s, some (c, e, va))) ∧
      ∀ x u, s.pushOne place t user desc ins l v = .ok x u → ∀ es y w f, u.pushAll place t user desc ins x rest = (es, y, w, f) →
        s.pushAll place t user desc ins l ((e, v) :: rest) = (e :: es, y, w, f)) ∧
    ∀ (n k : Nat) (entry : Nat → List Byte),
      let va := fun i : Nat => l.spill + BitVec.ofNat 64 (l.esize * ((l.head + k + i) % l.cap))
      ((∀ i, i < n → reads (va i) l.esize = .ok (entry i)) →
        s.popAll place t user l n k = .ok ((List.range n).map fun i => ofBytes (entry i))) ∧
      ∀ j c, j < n → (∀ i, i < j → reads (va i) l.esize = .ok (entry i)) → reads (va j) l.esize = .error c →
        s.popAll place t user l n k = .error (c, k + j, va j)

/-- `spool` and `fsend` (R311, R313-R319, R354, R356, R358, R360): the descriptor and the bag list are read and checked first; a bag's entries
are read, each buffer then pools the rows of its own in the order of the list, and the bag completes from the partials in the order of the
buffers, into its elements of V[d] at once. A message enters the queue of its tag once there is a place. -/
def Obligations.PoolingAndMessages : Prop :=
  (∀ (s : State) (r : Rule) (e : Nat) (d a b : Reg), s.stands r e 0 → r.eng.orphan = false → r.instr = .spool d a b → r.vl ≤ 4096 →
    let g := s.ctx.agent
    let n := 2 ^ (r.vtype.toNat % 4)
    let run := exec (.elementFire g 0 e) s
    let acc := fun i : Nat => r.lookAcc s.ctx 0 i
    let same := fun z : State => z.ctx.v = s.ctx.v ∧ z.ctx.q = s.ctx.q ∧ z.ctx.fflags = s.ctx.fflags ∧ z.ctx.x = s.ctx.x ∧ z.ctx.pc = s.ctx.pc
    let becomes := fun q : Rule => Completes run fun z => z.ctx.rules.head? = some q ∧ same z
    let field := fun i : Nat => (r.eng.header[i]?).getD 0
    let off := fun i : Nat => field (8 + i)
    let w := field 7
    let bag := e / w
    let lo := off bag
    let hi := off (bag + 1)
    let made := fun u : Nat => ∃ p ∈ r.eng.parts, p.bag = bag ∧ p.buffer = u
    let fails := fun (c : Cause) (va : Word) => becomes { r with eng := { r.eng with acks := bag :: r.eng.acks }, fault := some (c, e, va) }
    let entry := fun i : Nat => r.opA + BitVec.ofNat 64 ((8 + 4 * (r.eng.header.length - 8) + 7) / 8 * 8 + 8 * i)
    (r.eng.phase = 0 → e < max 1 r.vl →
      if isCanonical r.opB = false then FaultsAt s r e 0 .loadfault r.opB
      else if r.opB.toNat % 64 ≠ 0 then FaultsAt s r e 0 .align r.opB
      else if isCanonical r.opA = false then FaultsAt s r e 0 .loadfault r.opA
      else if r.opA.toNat % 8 ≠ 0 then FaultsAt s r e 0 .align r.opA
      else match s.readSpan (acc 0) r.opB 2 64 with
        | (.error (c, va), _) => FaultsAt s r e 0 c va
        | (.ok none, _) => StaysAs s r e
        | (.ok (some bs), u) =>
          let f := fun o k : Nat => ofBytes ((bs.drop o).take k)
          let slice := (f 0x10 4 + 15) / 16 * f 0x14 4
          let shape := fun w : Nat => 1 ≤ w ∧ w ≤ 2048 ∧ ((f 0x18 1 = 0 ∧ f 0x14 4 = 4 * w) ∨ (f 0x18 1 = 1 ∧ f 0x14 4 = 2 * w) ∨
            (f 0x18 1 = 2 ∧ f 0x14 4 = w) ∨ (f 0x18 1 = 3 ∧ w % 32 = 0 ∧ 32 * f 0x14 4 = 33 * w))
          let legal := f 0 8 % 65536 = 0 ∧ f 8 8 % 65536 = 0 ∧ (f 8 8 = 0 ∨ slice ≤ f 8 8) ∧ 1 ≤ f 0x10 4 ∧ f 0x19 1 < 4 ∧
            f 0x1A 1 < 2 ∧ ofBytes (bs.drop 0x1B) = 0 ∧ r.vtype.toNat % 4 = if f 0x1A 1 = 0 then 2 else 1
          (¬ (legal ∧ ∃ w, shape w) → FaultsAt s r e 0 .illcfg r.opB) ∧
          ∀ w, legal → shape w → match u.readSpan (acc 4) r.opA 2 8 with
            | (.error (c, va), _) => FaultsAt s r e 0 c va
            | (.ok none, _) => StaysAs s r e
            | (.ok (some head), _) =>
              let bags := ofBytes (head.take 4)
              if 4096 < bags ∨ ofBytes (head.drop 4) ≠ 0 ∨ r.vl < bags * w then FaultsAt s r e 0 .illcfg r.opA
              else becomes { r with eng := { r.eng with
                phase := 1
                header := [f 0 8, if f 8 8 = 0 then (slice + 65535) / 65536 * 65536 else f 8 8, f 0x10 4, f 0x14 4, f 0x18 1, f 0x19 1,
                  f 0x1A 1, w, bags] } }) ∧
    (r.eng.phase = 1 → e < max 1 r.vl → r.eng.header.length = 9 → field 0 < 2 ^ 64 →
      match s.readSpan (acc 8) (r.opA + 8) 131 (4 * (off 0 + 1)) with
        | (.error (c, va), _) => FaultsAt s r e 0 c va
        | (.ok none, _) => StaysAs s r e
        | (.ok (some bs), _) =>
          let at' := fun i : Nat => ofBytes ((bs.drop (4 * i)).take 4)
          let legal := at' 0 = 0 ∧ (∀ i, i < off 0 → at' i ≤ at' (i + 1)) ∧ at' (off 0) ≤ 2 ^ 24
          let q := { r.finish (span (off 0 * w) r.vl) with eng := { r.eng with
            phase := 2, header := r.eng.header.take 8 ++ (List.range (off 0 + 1)).map at' } }
          (¬ legal → FaultsAt s r e 0 .illcfg r.opA) ∧
          (legal → (∃ f, f < off 0 * w ∧ f < r.vl ∧ r.done.getLsbD f = false) → becomes q) ∧
          (legal → (∀ f, f < r.vl → off 0 * w ≤ f ∨ r.done.getLsbD f = true) → Completes run fun z =>
            (∀ p ∈ z.ctx.rules, p ∈ s.ctx.rules.tail) ∧ same z)) ∧
    (2 ≤ r.eng.phase → e < r.vl → 0 < w → bag * w + w ≤ r.vl → bag + 10 ≤ r.eng.header.length →
      (∀ i, bag * w ≤ i → i < bag * w + w → r.done.getLsbD i = false → s.sound (vaddr r.wb d.val (i * n)) n) →
      (r.leader bag ≠ some e → StaysAs s r e) ∧
      (r.leader bag = some e → lookup? bag r.eng.chunks = none →
        ∀ (u : Nat → State) (bs : Nat → List Byte), u lo = s →
        let acc := r.lookAcc s.ctx e 256
        let reads := fun i : Nat => (u i).loadAt acc (entry i) 8 [] = .ok (bs i) (u (i + 1))
        ((∀ i, lo ≤ i → i < hi → reads i) →
          becomes { r with eng := { r.eng with chunks := r.eng.chunks ++ [(bag, (span lo hi).flatMap bs)] } }) ∧
        ∀ j, lo ≤ j → j < hi → (∀ i, lo ≤ i → i < j → reads i) →
          (∀ c v, (u j).loadAt acc (entry j) 8 [] = .fault c v → fails c (entry j)) ∧
          ∀ v, (u j).loadAt acc (entry j) 8 [] = .wait v → StaysAs s r e) ∧
      (∀ bs, r.leader bag = some e → lookup? bag r.eng.chunks = some bs →
        let es := (List.range (hi - lo)).map fun i =>
          (entry (lo + i), ofBytes ((bs.drop (8 * i)).take 4), ofBytes ((bs.drop (8 * i + 4)).take 4))
        (∀ u, u < 16 → (∀ j, j < u → made j) → ¬ made u → match s.poolBuffer g r.key r.table u es none with
          | (.error (c, va), _) => fails c va
          | (.ok none, _) => StaysAs s r e
          | (.ok (some sums), _) => becomes { r with eng := { r.eng with parts := r.eng.parts ++ [⟨bag, u, sums⟩] } }) ∧
        ((∀ u, u < 16 → made u) →
          let partials := ((List.range 16).map fun u => ((r.eng.parts.find? fun p => p.bag == bag && p.buffer == u).map (·.sums)).getD []).filter
            (· != [])
          let out := fun c : Nat => r.table.combine (hi - lo) c partials
          let flags := (List.range w).foldl (fun f c => f ||| (out c).2) (partials.foldl (fun f p => f ||| (p[0]?).getD 0) 0)
          FiresBytes s r e (fun f => decide (bag * w ≤ f ∧ f < bag * w + w))
            (fun y => ((r.bagLeft bag).find? fun i => decide (vaddr r.wb d.val (i * n) ≤ y ∧ y < vaddr r.wb d.val (i * n) + n)).map
              fun i => BitVec.ofNat 8 ((out (i - bag * w)).1 / 256 ^ (y - vaddr r.wb d.val (i * n)))) flags)))) ∧
  (∀ (s : State) (g : Agent) (key : Word) (t : Table) (buffer count : Nat) (es : List (Word × Nat × Nat)),
    let add := fun x y : Nat =>
      let p := (binary32.value x).add 0 (binary32.value y)
      ((binary32.round 0 false p.1).1, (binary32.round 0 false p.1).2 ||| p.2)
    let mul := fun x y : Nat =>
      let p := (binary32.value x).mul (binary32.value y)
      ((binary32.round 0 false p.1).1, (binary32.round 0 false p.1).2 ||| p.2)
    let more := fun x y : Nat =>
      let u := binary32.value x
      let v := binary32.value y
      if u = .nan ∨ v = .nan then binary32.cnan else if u.lt v || (u.eq v && u.isNeg && !v.isNeg) then y else x
    let step := fun x y : Nat => if t.mode = 3 then (more x y, 0) else add x y
    let mine := es.filter fun x => x.2.1 % 16 == buffer
    let row := fun x : Word × Nat × Nat => t.base + BitVec.ofNat 64 (x.2.1 % 16 * t.stride + x.2.1 / 16 * t.rowbytes)
    (∀ (u : Nat → State) (bs : Nat → List Byte), u 0 = s → (∀ x ∈ es, x.2.1 < t.rows) →
      (∀ i x, mine[i]? = some x → (u i).rowBytes g key x.2.1 (row x) 67 (row x) t.rowbytes = (.ok (some (bs i)), u (i + 1))) →
      let elem := fun i c : Nat =>
        let f := fun o k : Nat => ofBytes (((bs i).drop o).take k)
        binary32.round 0 false (if t.efmt = 0 then binary32.value (f (4 * c) 4) else if t.efmt = 1 then bfloat16.value (f (2 * c) 2)
          else if t.efmt = 2 then e4m3.value (f c 1) else bfpValue 8 (f c 1) (f (t.width + c / 32) 1))
      let term := fun i c : Nat =>
        let x := elem i c
        let y := if t.mode = 1 then mul (((mine[i]?).map (·.2.2)).getD 0) x.1 else (x.1, 0)
        (y.1, x.2 ||| y.2)
      let column := fun c : Nat => (List.range mine.length).foldl (fun (z : Nat × Nat) i =>
        let y := term i c
        let p := if t.mode = 3 ∧ i = 0 then (y.1, 0) else step z.1 y.1
        (p.1, z.2 ||| y.2 ||| p.2)) (2 ^ 31, 0)
      s.poolBuffer g key t buffer es none = (.ok (some (if mine = [] then [] else
        (List.range t.width).foldl (fun f c => f ||| (column c).2) 0 :: (List.range t.width).map fun c => (column c).1)), u mine.length)) ∧
    (∀ front at' no wt rest, es = front ++ (at', no, wt) :: rest → (∀ x ∈ front, x.2.1 < t.rows ∧ x.2.1 % 16 ≠ buffer) → t.rows ≤ no →
      s.poolBuffer g key t buffer es none = (.error (.loadfault, at'), s)) ∧
    ∀ (c : Nat) (parts : List (List Nat)),
      let at' := fun p : List Nat => (p[c + 1]?).getD 0
      let narrow := if t.ofmt = 0 then binary32 else bfloat16
      t.combine count c parts = match parts with
        | [] => (0, 0)
        | p :: ps =>
          let z := ps.foldl (fun (z : Nat × Nat) q => ((step z.1 (at' q)).1, z.2 ||| (step z.1 (at' q)).2)) (at' p, 0)
          let mean := (binary32.value z.1).div (Val.ofInt count)
          let x := if t.mode = 2 then (mean.1, mean.2) else (binary32.value z.1, 0)
          if t.mode ≠ 2 ∧ t.ofmt = 0 then z else ((narrow.round 0 false x.1).1, z.2 ||| x.2 ||| (narrow.round 0 false x.1).2)) ∧
  ∀ (s : State) (r : Rule) (d a b : Reg), s.stands r 0 0 → r.eng.orphan = false → r.instr = .fsend d a b → r.vl ≤ 4096 →
    let g := s.ctx.agent
    let t := s.tenantOf g
    let n := 2 ^ (r.vtype.toNat % 4)
    (∀ e, e < r.vl → s.sound (vaddr r.wb b.val (e * n)) n) →
    match s.translate (placeOf g) t .load s.ctx.user r.opA with
      | .error c => FaultsAt s r 0 0 c r.opA
      | .ok p =>
        let slice := s.homeSlice (p.pa / 128)
        let low := ∃ x y own, g = .handler x y own ∧ d.val ≤ own
        let message : Message := ⟨r.opA, (List.range r.vl).flatMap fun e => toBytes n (s.ctx.elem r.wb b.val n e), match g with
          | .ctx id => id
          | .handler _ own _ => 0x8000 + own⟩
        (p.attr = .remote ∨ s.chainOn t slice = none ∨ low → FaultsAt s r 0 0 .illcfg r.opA) ∧
        ∀ ch, p.attr ≠ .remote → s.chainOn t slice = some ch → ¬ low →
          ((ch.tags[d.val]?).getD 0 = 0 → FaultsAt s r 0 0 .illcfg r.opA) ∧
          ((ch.tags[d.val]?).getD 0 ≠ 0 →
            let held := (4 ≤ scopeOf r.vtype ∧ s.olderPerformed g 0 = false) ∨ 16 ≤ (ch.waiting d.val).length
            (held → StaysAs s r 0) ∧
            (¬ held → Completes (exec (.elementFire g 0 0) s) fun z =>
              (∃ ch', z.chainOn t slice = some ch' ∧ ch' = { ch with queues := ch'.queues } ∧
                ch'.waiting d.val = ch.waiting d.val ++ [message] ∧ ∀ k, k ≠ d.val → ch'.waiting k = ch.waiting k) ∧
              (∀ t' k, t' ≠ t ∨ k ≠ slice → z.chainOn t' k = s.chainOn t' k) ∧ (∀ p ∈ z.ctx.rules, p ∈ s.ctx.rules.tail) ∧
              z.ctx.v = s.ctx.v ∧ z.ctx.x = s.ctx.x ∧ z.ctx.pc = s.ctx.pc ∧ SameMemory s z))

/-- `kvsel` (R202, R216, R356, R363-R365): the descriptor is read and checked, the tag is cleared once no older rule will set it, the pages are
scored and ranked, the index words written, and the chosen pages copied, rank by rank; then the tag is set. Scores are sums of exact products in
element order, each step rounded once, from -0; a page of a higher score ranks first, one of a NaN last, one of equal score by its number. -/
def Obligations.SelectionsCopyPages : Prop :=
  (∀ (s : State) (r : Rule) (a : Reg), s.stands r 0 0 → r.eng.orphan = false → r.instr = .kvsel a →
    let g := s.ctx.agent
    let run := exec (.elementFire g 0 0) s
    let lo := (s.tenant (s.tenantOf g)).spbase.toNat
    let hi := lo + ((s.ctx.task).map (·.scratch)).getD 0
    let out := fun off n : Nat => if off < lo ∨ hi ≤ off then some (BitVec.ofNat 64 off) else if hi < off + n then some (BitVec.ofNat 64 hi) else none
    let field := fun i : Nat => (r.eng.header[i]?).getD 0
    let tag := BitVec.ofNat 64 (2 ^ field 7)
    let same := fun z : State => z.ctx.v = s.ctx.v ∧ z.ctx.q = s.ctx.q ∧ z.ctx.fflags = s.ctx.fflags ∧ z.ctx.x = s.ctx.x ∧ z.ctx.pc = s.ctx.pc
    let becomes := fun (q : Rule) (ctb : Word) (p : State → Prop) => Completes run fun z =>
      z.ctx.rules.head? = some q ∧ z.ctx.ctb = ctb ∧ same z ∧ p z
    let pad := fun (u : State) (off : Nat) (bs : List Byte) (z : State) => (∀ h x, SameByte u z h x) ∧
      ∀ k x, (z.core k).scratch.read x = if k = scratchCore g ∧ off ≤ x ∧ x < off + bs.length then (bs[x - off]?).getD 0
        else (u.core k).scratch.read x
    let writes := fun (u : State) (idx : List Nat) => (u.core (scratchCore g)).scratch.wf = true → field 8 < 2 ^ 64 →
      becomes { r with eng := { r.eng with index := idx, phase := 3 } } s.ctx.ctb (pad u (field 8) (idx.flatMap fun w => toBytes 4 w))
    (r.eng.phase = 0 →
      if isCanonical r.opA = false then FaultsAt s r 0 0 .loadfault r.opA
      else if r.opA.toNat % 64 ≠ 0 then FaultsAt s r 0 0 .align r.opA
      else match s.readSpan (r.lookAcc s.ctx 0 0) r.opA 2 64 with
        | (.error (c, va), _) => FaultsAt s r 0 0 c va
        | (.ok none, _) => StaysAs s r 0
        | (.ok (some bs), _) =>
          let f := fun o k : Nat => ofBytes ((bs.drop o).take k)
          let legal := f 0 8 % 4 = 0 ∧ f 8 8 % 4 = 0 ∧ 1 ≤ f 0x10 4 ∧ f 0x10 4 ≤ 2 ^ 24 ∧ 1 ≤ f 0x14 2 ∧ f 0x14 2 ≤ 256 ∧ 1 ≤ f 0x16 1 ∧
            f 0x16 1 ≤ 64 ∧ f 0x17 1 < 64 ∧ s.ctx.tagMask.getLsbD (f 0x17 1) = true ∧ f 0x20 4 % 128 = 0 ∧ 128 ≤ f 0x20 4 ∧
            f 0x20 4 ≤ 65536 ∧ f 0x24 4 = 0 ∧ f 0x28 8 % 128 = 0 ∧ ofBytes (bs.drop 0x30) = 0 ∧
            ∃ ch ∈ s.chains, ch.tenant = s.tenantOf g
          (¬ legal → FaultsAt s r 0 0 .illcfg r.opA) ∧
          (legal → match out (f 0x28 8) (256 + f 0x16 1 * f 0x20 4) with
            | some off => FaultsAt s r 0 0 .loadfault off
            | none => becomes { r with eng := { r.eng with
                phase := 1, header := [f 0 8, f 8 8, f 0x10 4, f 0x14 2, f 0x16 1, f 0x18 8, f 0x20 4, f 0x17 1, f 0x28 8] } } s.ctx.ctb
                fun z => ∀ k x, (z.core k).scratch.read x = (s.core k).scratch.read x)) ∧
    (r.eng.phase = 1 →
      (s.ctx.tagAwaited 0 (field 7) = true → StaysAs s r 0) ∧
      (s.ctx.tagAwaited 0 (field 7) = false →
        becomes { r with eng := { r.eng with phase := 2 } } (s.ctx.ctb &&& ~~~ tag) (SameMemory s))) ∧
    (r.eng.phase = 2 →
      (r.eng.index ≠ [] → writes s r.eng.index) ∧
      (r.eng.index = [] → match s.homeRead g r.key 10 (BitVec.ofNat 64 (field 0)) (4 * field 3) with
        | (.error (c, va), _) => FaultsAt s r 0 0 c va
        | (.ok none, _) => StaysAs s r 0
        | (.ok (some query), u) => match u.scorePages g r.key r.eng.header query (field 2) 0 [] with
          | (.error (c, va), _) => FaultsAt s r 0 0 c va
          | (.ok none, _) => StaysAs s r 0
          | (.ok (some ranks), v) => writes v (ranks.map (·.1) ++ List.replicate (64 - ranks.length) 0xFFFFFFFF))) ∧
    (r.eng.phase = 3 →
      (r.ranksLeft = [] → Completes run fun z => z.ctx.ctb = s.ctx.ctb ||| (tag &&& s.ctx.tagMask) ∧
        (∀ p ∈ z.ctx.rules, p ∈ s.ctx.rules.tail) ∧ same z ∧ SameMemory s z) ∧
      (∀ j page rest, r.ranksLeft = (j, page) :: rest →
        let acc := r.transferAcc s g (1 + j)
        let src := BitVec.ofNat 64 (field 5 + field 6 * page)
        let dst := field 8 + 256 + field 6 * j
        dst < 2 ^ 64 → 0 < field 6 → match s.spanFault acc .load src 3 (field 6), out dst (field 6) with
          | some (c, va), _ => FaultsAt s r 0 0 c va
          | none, some off => FaultsAt s r 0 0 .storefault off
          | none, none => match s.readSpan acc src 514 (field 6) with
            | (.error (c, va), _) => FaultsAt s r 0 0 c va
            | (.ok none, _) => rest = [] → StaysAs s r 0
            | (.ok (some bs), u) => (u.core (scratchCore g)).scratch.wf = true →
              becomes { r with eng := { r.eng with xfers := r.eng.xfers ++ [j] } } s.ctx.ctb (pad u dst bs)))) ∧
  (∀ (r : Rule) (j page : Nat), (j, page) ∈ r.ranksLeft ↔
    r.eng.index[j]? = some page ∧ j ∉ r.eng.xfers ∧ ∀ i, i ≤ j → r.eng.index[i]? ≠ some 0xFFFFFFFF) ∧
  ∀ (s : State) (g : Agent) (key : Word) (h : List Nat) (query : List Byte) (n : Nat) (u : Nat → State) (rows : Nat → List Byte),
    let d := (h[3]?).getD 0
    let k := (h[4]?).getD 0
    let read := fun i : Nat => (u i).homeRead g key 10 (BitVec.ofNat 64 ((h[1]?).getD 0 + 4 * d * i)) (4 * d)
    let number := fun (bs : List Byte) (i : Nat) => binary32.value (ofBytes ((bs.drop (4 * i)).take 4))
    let score := fun i : Nat => (List.range d).foldl (fun acc j =>
      (binary32.round 0 false (((number query j).fma 0 (number (rows i) j) (binary32.value acc)).1)).1) (2 ^ 31)
    let first := fun x y : Nat × Nat =>
      let a := binary32.value x.2
      let b := binary32.value y.2
      if a = .nan then b = .nan ∧ x.1 < y.1 else b = .nan ∨ b.lt a = true ∨ (a.lt b = false ∧ x.1 < y.1)
    let upTo := fun j : Nat => ∀ i, i < j → read i = (.ok (some (rows i)), u (i + 1))
    u 0 = s →
    (upTo n → ∃ ranks, s.scorePages g key h query n 0 [] = (.ok (some ranks), u n) ∧ ranks.length = min k n ∧ (ranks.map (·.1)).Nodup ∧
      (∀ x ∈ ranks, x.1 < n ∧ x.2 = score x.1) ∧ ranks.Pairwise first ∧
      ∀ i, i < n → i ∉ ranks.map (·.1) → ∀ x ∈ ranks, first x (i, score i)) ∧
    ∀ j v, j < n → upTo j →
      (∀ c va, read j = (.error (c, va), v) → s.scorePages g key h query n 0 [] = (.error (c, va), v)) ∧
      (read j = (.ok none, v) → s.scorePages g key h query n 0 [] = (.ok none, v))

/-- `coll` (R8, R242, R251, R252, R366-R370): the descriptor and the group table are read and checked, the call takes its number and sends its
chunks, takes those of ranks on this module, writes rbuf, then the status words, and then sets its tag or counts. A reduction is the tree of
R369 on the ranks' elements. How calls of one module meet, and when a call takes its number, are the model's choices (log 77); what an outcome
but OK leaves of rbuf is open (log 17). -/
def Obligations.CollectivesExchangeData : Prop :=
  (∀ (s : State) (r : Rule) (a : Reg), s.stands r 0 0 → r.eng.orphan = false → r.instr = .coll a →
    let g := s.ctx.agent
    let t := s.tenantOf g
    let run := exec (.elementFire g 0 0) s
    let field := fun i : Nat => (r.eng.header[i]?).getD 0
    let va := fun i : Nat => BitVec.ofNat 64 (field i)
    let count := field 4
    let n := field 12
    let me := field 13
    let here := fun j : Nat => field (14 + j) % 4096 = Config.moduleNumber % 4096
    let size := if field 1 = 1 then 2 else if field 1 = 3 then 8 else 4
    let sent := if field 0 = 0 ∨ field 0 = 2 then count * size else n * count * size
    let tag := BitVec.ofNat 64 (2 ^ field 7)
    let same := fun z : State => z.ctx.v = s.ctx.v ∧ z.ctx.q = s.ctx.q ∧ z.ctx.fflags = s.ctx.fflags ∧ z.ctx.x = s.ctx.x ∧ z.ctx.pc = s.ctx.pc
    let becomes := fun (q : Rule) (ctb : Word) (p : State → Prop) => Completes run fun z =>
      z.ctx.rules.head? = some q ∧ z.ctx.ctb = ctb ∧ same z ∧ p z
    let any := fun _ : State => True
    let ended := fun (ctb : Word) (p : State → Prop) => Completes run fun z =>
      (∀ q ∈ z.ctx.rules, q ∈ s.ctx.rules.tail) ∧ z.ctx.ctb = ctb ∧ same z ∧ p z
    let own := fun bs : List Byte =>
      let f := fun o k : Nat => ofBytes ((bs.drop o).take k)
      let size := if f 1 1 = 1 then 2 else if f 1 1 = 3 then 8 else 4
      f 0 1 < 4 ∧ f 1 1 < 4 ∧ f 2 1 < 3 ∧ f 3 1 < 3 ∧ (f 0 1 < 2 ∨ f 2 1 = 0) ∧ (f 3 1 = 0 ∨ (f 2 1 = 0 ∧ f 0 1 < 2)) ∧
      (f 3 1 = 2 → f 1 1 = 0) ∧ 1 ≤ f 4 4 ∧ f 4 4 ≤ 2 ^ 28 ∧ f 8 8 % size = 0 ∧ f 0x10 8 % size = 0 ∧ f 0x18 8 % 8 = 0 ∧
      f 0x20 1 < 2 ∧ (f 0x20 1 = 0 → f 0x21 1 < 64 ∧ s.ctx.tagMask.getLsbD (f 0x21 1) = true) ∧ (f 0x20 1 = 1 → f 0x21 1 = 0) ∧
      f 0x22 2 = 0 ∧ f 0x24 4 < 64 ∧ (∃ p ∈ (s.tenant t).ports, p.1 = f 0x24 4) ∧
      (if f 0x20 1 = 1 then f 0x28 8 % 8 = 0 else f 0x28 8 = 0) ∧ f 0x30 8 % 8 = 0 ∧ f 0x38 8 = 0
    let numbered := ((lookup? (field 9) (s.tenant t).calls).getD 0)
    let call := numbered :: r.eng.header.take 5 ++ [n] ++ r.eng.header.drop 14
    let begins := fun (q : Rule) (u : State) (p : State → Prop) =>
      becomes q (if field 8 = 0 then s.ctx.ctb &&& ~~~ tag else s.ctx.ctb) fun z => p z ∧
        (lookup? (field 9) (z.tenant t).calls = some (numbered + 1)) ∧ (z.tenant t).made = (s.tenant t).made ++ [⟨field 9, call, false⟩] ∧
        SameMemory u z
    (r.eng.phase = 0 →
      if isCanonical r.opA = false then FaultsAt s r 0 0 .loadfault r.opA
      else if r.opA.toNat % 64 ≠ 0 then FaultsAt s r 0 0 .align r.opA
      else match s.readSpan (r.lookAcc s.ctx 0 0) r.opA 2 64 with
        | (.error (c, x), _) => FaultsAt s r 0 0 c x
        | (.ok none, _) => StaysAs s r 0
        | (.ok (some bs), _) => (¬ own bs → FaultsAt s r 0 0 .illcfg r.opA) ∧
          (own bs → becomes { r with eng := { r.eng with
            phase := 1, chunks := [(0, bs)], xfers := [], src := [BitVec.ofNat 64 (ofBytes ((bs.drop 0x18).take 8))] } } s.ctx.ctb any)) ∧
    (∀ group, r.eng.phase = 1 → r.eng.src = [group] →
      (r.eng.xfers = [] → match s.readSpan (r.lookAcc s.ctx 0 4) group 2 8 with
        | (.error (c, x), _) => FaultsAt s r 0 0 c x
        | (.ok none, _) => StaysAs s r 0
        | (.ok (some bs), _) =>
          becomes { r with eng := { r.eng with xfers := [ofBytes (bs.take 4), ofBytes (bs.drop 4)] } } s.ctx.ctb any) ∧
      (∀ n me bs, r.eng.xfers = [n, me] → n < 2 ^ 32 → me < 2 ^ 32 → lookup? 0 r.eng.chunks = some bs → own bs →
        match s.readSpan (r.lookAcc s.ctx 0 8) (group + 8) 131 (4 * min 4096 n) with
          | (.error (c, x), _) => FaultsAt s r 0 0 c x
          | (.ok none, _) => StaysAs s r 0
          | (.ok (some es), _) =>
            let f := fun o k : Nat => ofBytes ((bs.drop o).take k)
            let entries := (List.range n).map fun j => ofBytes ((es.drop (4 * j)).take 4)
            let one := f 4 4 * if f 1 1 = 1 then 2 else if f 1 1 = 3 then 8 else 4
            let from' := if f 0 1 = 1 ∨ f 0 1 = 3 then n * one else one
            let into := if f 0 1 = 2 ∨ f 0 1 = 3 then n * one else one
            let legal := 1 ≤ n ∧ n ≤ 4096 ∧ me < n ∧ (∀ x ∈ entries, x / 2 ^ 12 % 16 = 0 ∧ x / 2 ^ 16 < 64) ∧
              entries[me]? = some (Config.moduleNumber % 2 ^ 12 + 2 ^ 16 * f 0x24 4) ∧
              ((f 0 1 = 0 ∧ f 8 8 = f 0x10 8) ∨ f 8 8 + from' ≤ f 0x10 8 ∨ f 0x10 8 + into ≤ f 8 8)
            (¬ legal → FaultsAt s r 0 0 .illcfg r.opA) ∧
            (legal → becomes { r with eng := { r.eng with
              phase := 2, chunks := [], xfers := []
              header := [f 0 1, f 1 1, f 2 1, f 3 1, f 4 4, f 8 8, f 0x10 8, if f 0x20 1 = 0 then f 0x21 1 else 64, f 0x20 1, f 0x24 4,
                f 0x28 8, f 0x30 8, n, me] ++ entries } } s.ctx.ctb any))) ∧
    (r.eng.phase = 2 →
      let waits := (field 8 = 0 ∧ s.ctx.tagAwaited 0 (field 7) = true) ∨ s.collFirst g r = false
      let gone := ∃ x ∈ r.eng.header.drop 14, x % 4096 ∈ s.modulesLost
      let known := field 1 < 4 ∧ ∃ x ∈ s.tenants, x.id = t
      let ends := fun o : Nat => o ≠ 4 → begins { r with eng := { r.eng with call := numbered, phase := 4, index := [o] } } s any
      (waits → StaysAs s r 0) ∧ (¬ waits → known → gone → ends 1) ∧
      (¬ waits → known → ¬ gone → ∀ o rest, r.eng.index = o :: rest → ends o) ∧
      (¬ waits → known → ¬ gone → r.eng.index = [] →
        (s.collTurn g r = false → StaysAs s r 0) ∧
        (s.collTurn g r = true → match s.collFault g r with
          | some (c, x) => FaultsAt s r 0 0 c x
          | none => match s.readSpan (r.lookAcc s.ctx 1 0) (va 5) (sent / 128 + 2) sent with
            | (.error _, u) => begins { r with eng := { r.eng with call := numbered, phase := 4, index := [2] } } u any
            | (.ok none, _) => StaysAs s r 0
            | (.ok (some bs), u) =>
              let piece := fun j : Nat =>
                if field 0 = 1 ∧ field 3 = 2 then
                  let lo := j * count / 32 * 32
                  (bs.drop (lo * size)).take ((min (n * count) (((j + 1) * count + 31) / 32 * 32) - lo) * size)
                else if field 0 = 1 ∨ field 0 = 3 then (bs.drop (j * count * size)).take (count * size)
                else bs.take (count * size)
              let others := (List.range n).filter (· != me)
              begins { r with eng := { r.eng with
                call := numbered, phase := 3, acks := [me]
                chunks := (me, piece me) :: (others.filter fun j => decide (here j)).map fun j => (n + j, piece j) } } u
                fun z => z.out = u.out ++ (others.filter fun j => !decide (here j)).map fun j => .chunk (field 9) (field (14 + j)) call (piece j)))) ∧
    (r.eng.phase = 3 →
      let gone := s.rankGone g r = true
      let differs := ∃ m ∈ (s.tenant t).made, m.call.head? = some r.eng.call ∧ m.call ≠ r.callOf ∧
        ∃ j, j < n ∧ here j ∧ j ≠ me ∧ field (14 + j) / 2 ^ 16 = m.endpoint
      let all := ∀ j, j < n → (lookup? j r.eng.chunks).isSome = true ∧ j ∈ r.eng.acks
      (gone → becomes { r with eng := { r.eng with phase := 4, index := [1] } } s.ctx.ctb (SameMemory s)) ∧
      (¬ gone → differs → becomes { r with eng := { r.eng with
        phase := 4, index := [4], acks := r.eng.acks.filter (· != me), chunks := r.eng.chunks.filter fun x => x.1 != me } } s.ctx.ctb (SameMemory s)) ∧
      (¬ gone → ¬ differs → all → becomes { r with eng := { r.eng with phase := 4, index := [0] } } s.ctx.ctb (SameMemory s)) ∧
      (¬ gone → ¬ differs → ¬ all → ∀ j h i x bs, j < n → lookup? j r.eng.chunks = none →
        (∀ l, l < j → lookup? l r.eng.chunks = none → s.collPeer g r l = none) → s.collPeer g r j = some (h, i, x) → h ≠ g →
        s.ruleAt h i = some x → x.callOf = r.callOf → lookup? (n + me) x.eng.chunks = some bs → bs ≠ [] →
        becomes { r with eng := { r.eng with chunks := r.eng.chunks ++ [(j, bs)] } } s.ctx.ctb fun z => SameMemory s z ∧
          z.ruleAt h i = some { x with eng := { x.eng with acks := if me ∈ x.eng.acks then x.eng.acks else x.eng.acks ++ [me] } }) ∧
      (¬ gone → ¬ differs → ¬ all → (∀ j, j < n → lookup? j r.eng.chunks = none → s.collPeer g r j = none) → StaysAs s r 0)) ∧
    (∀ o rest, r.eng.phase = 4 → r.eng.index = o :: rest →
      (o = 4 → becomes { r with eng := { r.eng with phase := 5 } } s.ctx.ctb (SameMemory s)) ∧
      (o ≠ 4 →
        let bytes := s.collBuffer g r o
        match s.writeSpan (r.lookAcc s.ctx 2 0) (va 6) (bytes.length / 128 + 2) bytes with
        | (.ok true, w) => becomes { r with eng := { r.eng with phase := 5 } } s.ctx.ctb fun z =>
          (∀ h x, SameByte w z h x) ∧ z.junk = w.junk + bytes.length
        | (.ok false, _) => StaysAs s r 0
        | (.error _, w) => becomes { r with eng := { r.eng with
            phase := 5, index := [2], acks := r.eng.acks.filter (· != me), chunks := r.eng.chunks.filter fun x => x.1 != me } } s.ctx.ctb
            fun z => ∀ h x, SameByte w z h x)) ∧
    (r.eng.phase = 5 →
      let told := fun p : Nat → Bool => (List.range n).map fun j => if p j then (1 : Nat) else 0
      let words := (r.eng.index[0]?).getD 0 ::
        if field 0 = 3 then told (fun j => decide (j ∈ r.eng.acks)) ++ told fun j => (lookup? j r.eng.chunks).isSome else []
      match s.writeSpan (r.lookAcc s.ctx 3 0) (va 11) 600 (words.flatMap fun w => toBytes 8 w) with
      | (.ok false, _) => StaysAs s r 0
      | (_, w) => becomes { r with eng := { r.eng with phase := 6 } } s.ctx.ctb fun z => ∀ h x, SameByte w z h x) ∧
    (r.eng.phase = 6 →
      (field 8 = 0 → ended (s.ctx.ctb ||| (tag &&& s.ctx.tagMask)) (SameMemory s)) ∧
      (field 8 ≠ 0 → s.storesDone g = false → StaysAs s r 0) ∧
      (field 8 ≠ 0 → s.storesDone g = true →
        match s.atomicAt { r.lookAcc s.ctx 4 0 with scope := max 4 (scopeOf r.vtype) } (va 10) 8 (some .add) (toBytes 8 1 ++ toBytes 8 0)
            fun old => some ((old + 1) % 2 ^ 64) with
        | .wait _ => StaysAs s r 0
        | .ok _ w | .fault _ w => ended s.ctx.ctb fun z => ∀ h x, SameByte w z h x))) ∧
  ∀ (r : Rule),
    let field := fun i : Nat => (r.eng.header[i]?).getD 0
    let dtype := field 1
    let wire := field 3
    let count := field 4
    let n := field 12
    let size := if dtype = 1 then 2 else if dtype = 3 then 8 else 4
    let chunk := fun j : Nat => (lookup? j r.eng.chunks).getD []
    let values := fun j : Nat => (List.range ((chunk j).length / size)).map fun i => ofBytes (((chunk j).drop (size * i)).take size)
    let f := if dtype = 0 then binary32 else bfloat16
    let v := f.value
    let int := fun x : Nat => signedOf (8 * size) x
    let code := fun i : Int => (i % 2 ^ (8 * size)).toNat
    let below := fun x y : Nat => (v x).lt (v y) || ((v x).eq (v y) && (v x).isNeg && !(v y).isNeg)
    let op := fun x y : Nat =>
      if dtype < 2 then
        if field 2 = 0 then (f.round 0 false ((v x).add 0 (v y)).1).1
        else if v x = .nan ∨ v y = .nan then f.cnan
        else if field 2 = 1 then (if below x y then y else x) else if below x y then x else y
      else if field 2 = 0 then code (int x + int y)
      else if field 2 = 1 then code (max (int x) (int y)) else code (min (int x) (int y))
    let narrow := fun x : Val => bfloat16.value (bfloat16.round 0 false x).1
    let hop := fun xs : List Nat =>
      if wire = 0 then xs
      else if wire = 1 then xs.map fun x => if dtype = 0 then (binary32.round 0 false (narrow (v x))).1 else if dtype = 1 then x
        else code ((narrow (Val.ofInt (int x))).toInt 0).1
      else (List.range ((xs.length + 31) / 32)).flatMap fun j =>
        let p := toBfpBlock 8 0 (((xs.drop (32 * j)).take 32).map binary32.value)
        p.2.1.map fun m => (binary32.round 0 false (bfpValue 8 (codeOf 8 m) p.1)).1
    let plain := fun x : Nat => if dtype < 2 ∧ v x = .nan then f.cnan else x
    let skip := if field 0 = 1 ∧ wire = 2 then field 13 * count - field 13 * count / 32 * 32 else 0
    dtype < 4 → field 2 < 3 → wire < 3 → 1 ≤ n → n ≤ 4096 →
      (2 ≤ field 0 → collResult r = (List.range n).flatMap chunk) ∧
      (field 0 < 2 → ∀ sum : Bool → Nat → Nat → List Nat, (∀ top lo, sum top lo (lo + 1) = values lo) →
        (∀ top lo hi k, lo + 2 ^ k < hi → hi ≤ lo + 2 ^ (k + 1) → sum top lo hi =
          let xs := ((sum false lo (lo + 2 ^ k)).zip (sum false (lo + 2 ^ k) hi)).map fun p => op p.1 p.2
          if top then xs else hop xs) →
        collResult r = (((sum true 0 n).drop skip).take count).flatMap fun x => toBytes size (plain x)) ∧
      ∀ (s : State) (g : Agent) (o : Nat), s.collBuffer g r 0 = collResult r ∧ (o ≠ 0 →
        let one := count * size
        (s.collBuffer g r o).length = (if 2 ≤ field 0 then n * one else one) ∧
        (2 ≤ field 0 → ∀ j i b, j < n → i < one → (lookup? j r.eng.chunks).bind (fun bs => bs[i]?) = some b →
          (s.collBuffer g r o)[j * one + i]? = some b))

/-! ## Collecting mode and effect lists -/

/-- `ccall` (R225) and `cret` (R226), outside a routine: the handle opens over the region and the depth rises, with the link in x1 after
X[d]; the return seals the handle, gives it to the frame's register and goes to the old x1. The taddr of an illegal region, and that the
word waits while an older load still reads records of the region, are the model's choices (logs 60 and 76). The list operations (R222,
R232, R236, R237): views take a new sealed handle, at most 8 segments and 4 steps a chain; `eldrop` frees a handle, `elinfo` counts the
records that keep a byte once an owning device has answered for those on a remote page, and `elgrow`, at level S, adds a region to an open
list. The taddr of an illegal region or record, and that `elgrow` waits while an older load still reads records of the region, are the
model's choices (logs 60 and 76). -/
def Obligations.CollectingModeAndListViews : Prop :=
  (∀ (s : State) (d a b : Reg) (h : Nat) (base cap : Word) (u : State), s.ctx.routine = none →
    let depth := s.ctx.cdepth
    let active := s.ctx.activeHandle
    let frame := (s.ctx.frames.toList[depth - 1]?).getD {}
    (depth = 4 ∨ (∀ j, j < 16 → (s.ctx.handle j).state ≠ .free) → exec (.ccall d a b) s = .next (s.raise .illcfg 0)) ∧
    (depth < 4 → s.LowestFree h → s.fenced → Stalls s (exec (.ccall d a b) s)) ∧
    (depth < 4 → s.LowestFree h → ¬ s.fenced → Canonical (s.getX b) → (s.getX b).toNat % 8 = 0 → s.Descriptor (s.getX b) base cap u →
      (u.ctx.regionRead base cap = true → Stalls u (exec (.ccall d a b) s)) ∧
      (u.ctx.regionRead base cap = false → u.ctx.regionOk base cap = false → exec (.ccall d a b) s = .next (u.raise .illcfg (s.getX b))) ∧
      (u.ctx.regionRead base cap = false → u.ctx.regionOk base cap = true → Completes (exec (.ccall d a b) s) fun t =>
        (∀ x : Reg, t.getX x = if x = 1 then s.ctx.pc + 4 else if x = d ∧ d ≠ 0 then BitVec.ofNat 64 h else u.getX x) ∧
        t.ctx.pc = s.getX a ∧ t.ctx.cdepth = depth + 1 ∧ t.ctx.activeHandle = h ∧
        t.ctx.handle h = { state := .opened, segs := [{ base := base, capacity := cap, used := 0, steps := [] }] } ∧
        (∀ j, j ≠ h → t.ctx.handle j = u.ctx.handle j) ∧
        t = { u with ctx := { u.ctx with
          x := t.ctx.x, pc := t.ctx.pc, handles := t.ctx.handles, frames := t.ctx.frames, cdepth := t.ctx.cdepth, hold := .run
          remotes := t.ctx.remotes } })) ∧
    (depth = 0 → exec .cret s = .next (s.raise .illcfg 0)) ∧ (depth ≠ 0 → s.recorders → Stalls s (exec .cret s)) ∧
    (depth ≠ 0 → ¬ s.recorders → active < 16 → Completes (exec .cret s) fun t =>
      (∀ x : Reg, t.getX x = if x = frame.d ∧ frame.d ≠ 0 then BitVec.ofNat 64 active else s.getX x) ∧ t.ctx.pc = s.getX 1 ∧
      t.ctx.cdepth = depth - 1 ∧ t.ctx.handle active = { s.ctx.handle active with state := .sealed } ∧
      (∀ j, j ≠ active → t.ctx.handle j = s.ctx.handle j) ∧ (t.ctx.filter = if depth = 1 then 0 else s.ctx.filter) ∧
      t = { s with ctx := { s.ctx with
        x := t.ctx.x, pc := t.ctx.pc, handles := t.ctx.handles, cdepth := t.ctx.cdepth, filter := t.ctx.filter, hold := .run
        remotes := t.ctx.remotes } })) ∧
  (∀ (s : State) (d a b : Reg) (h : Nat) (base cap : Word) (u : State),
    let x := (s.ctx.handle (s.getX a).toNat).segs
    let y := (s.ctx.handle (s.getX b).toNat).segs
    let arg := fun k : Nat => s.getX ⟨(b.val + k) % 128, Nat.mod_lt _ (by decide)⟩
    let stops := fun i : Instr => exec i s = .next (s.raise .illcfg 0)
    let makes := fun (i : Instr) (segs : List Segment) =>
      exec i s = .next (s.onward ((s.ctx.setHandle h { state := .sealed, segs := segs }).setX d (BitVec.ofNat 64 h)))
    let chained := fun (i : Instr) (t : ChainStep) =>
      (¬ s.Names (s.getX a) .sealed ∨ (∀ j, j < 16 → (s.ctx.handle j).state ≠ .free) ∨ (∃ g ∈ x, 4 ≤ g.steps.length) → stops i) ∧
      (s.Names (s.getX a) .sealed → s.LowestFree h → (∀ g ∈ x, g.steps.length < 4) →
        makes i (x.map fun g => { g with steps := g.steps ++ [t] }))
    (¬ s.Names (s.getX a) .sealed ∨ ¬ s.Names (s.getX b) .sealed ∨ (∀ j, j < 16 → (s.ctx.handle j).state ≠ .free) ∨
      8 < x.length + y.length → stops (.elcat d a b)) ∧
    (s.Names (s.getX a) .sealed → s.Names (s.getX b) .sealed → s.LowestFree h → x.length + y.length ≤ 8 →
      makes (.elcat d a b) (x ++ y)) ∧
    chained (.elfilt d a b) { rebase := false, lo := s.getX b, hi := arg 1, delta := 0 } ∧
    chained (.elrebase d a b) { rebase := true, lo := s.getX b, hi := arg 1, delta := arg 2 } ∧
    (¬ s.Names (s.getX a) .sealed → stops (.eldrop a) ∧ stops (.elinfo d a)) ∧
    (s.Names (s.getX a) .sealed →
      exec (.eldrop a) s = .next (s.onward (s.ctx.setHandle (s.getX a).toNat { state := .free, segs := [] })) ∧
      match s.viewRecords (s.ctx.laneAcc s.ctx.instrPc 0) x with
      | (.error (c, va), t) => exec (.elinfo d a) s = .next (t.raise c va)
      | (.ok none, t) => exec (.elinfo d a) s = .next { t with ctx := { t.ctx with hold := .stall } }
      | (.ok (some v), t) =>
        (∀ r, v.1.find? (fun r => !r.1.legal) = some r → exec (.elinfo d a) s = .next (t.raise .illcfg r.1.place)) ∧
        ((∀ r ∈ v.1, r.1.legal = true) → match v.2 with
          | some (c, va) => exec (.elinfo d a) s = .next (t.raise c va)
          | none => WritesX t (exec (.elinfo d a) s) d (· = BitVec.ofNat 64
              (v.1.filter fun r => !r.1.data.isEmpty && !(r.1.pieces r.2).isEmpty).length))) ∧
    (s.atUser → exec (.elgrow a b) s = .next (s.raise .priv 0)) ∧
    (¬ s.atUser → ¬ s.Names (s.getX a) .opened ∨ 8 ≤ x.length → stops (.elgrow a b)) ∧
    (¬ s.atUser → s.Names (s.getX a) .opened → x.length < 8 → s.fenced → Stalls s (exec (.elgrow a b) s)) ∧
    (¬ s.atUser → s.Names (s.getX a) .opened → x.length < 8 → ¬ s.fenced → Canonical (s.getX b) → (s.getX b).toNat % 8 = 0 →
      s.Descriptor (s.getX b) base cap u →
      exec (.elgrow a b) s = .next (if u.ctx.regionRead base cap then { u with ctx := { u.ctx with hold := .stall } }
        else if u.ctx.regionOk base cap
        then u.onward (u.ctx.setHandle (s.getX a).toNat { s.ctx.handle (s.getX a).toNat with
          segs := x ++ [{ base := base, capacity := cap, used := 0, steps := [] }] })
        else u.raise .illcfg (s.getX b))))

/-! ## Microcode -/

/-- Words of the microcode space (R47 step 4, R49, R50, R52, R89): ILLOP inside a routine, UNIMPL where no entry matches, else the routine
of the first matching entry is entered with x116-x123 kept and loaded; a twin word is such a word. -/
def Obligations.TriggersEnterRoutines : Prop :=
  ∀ (s : State) (w : BitVec 32) (d a b c : Reg) (t : Fin 4) (m : Fin 4) (dt : Bool),
    let r := exec (.microcodeTrigger w) s
    let hits := fun e : MicroEntry => w.toNat / 2 ^ 26 = e.major ∧ w.toNat % 2 ^ 26 &&& e.mask = e.value
    let twin := fun (i : Instr) (major : Nat) (native : Instr) => ∀ v : BitVec 32, encode native = [v.toNat] →
      exec i s = exec (.microcodeTrigger (BitVec.ofNat 32 (major * 2 ^ 26 + v.toNat % 2 ^ 26))) s
    (s.ctx.routine ≠ none → r = .next (s.raise .illop 0)) ∧
    (s.ctx.routine = none → (∀ e ∈ s.bundle.entries, ¬ hits e) → r = .next (s.raise .unimpl 0)) ∧
    (s.ctx.routine = none → ∀ before e after, s.bundle.entries = before ++ e :: after → (∀ x ∈ before, ¬ hits x) → hits e →
      Completes r fun z =>
        z.ctx.routine = some { word := w, pc := s.ctx.pc, entry := e.entry, words := e.words, fmt := e.fmt, off := 0 } ∧
        (∀ k, k < 8 → z.ctx.outer.toList[k]? = s.ctx.x.toList[116 + k]?) ∧
        (∀ x : Reg, x.val < 116 ∨ 124 ≤ x.val → z.getX x = s.getX x) ∧
        z.getX 117 = w.setWidth 64 ∧ z.getX 116 = triggerImm e.fmt w.toNat ∧ z.getX 118 = triggerMods e.fmt w.toNat ∧
        (e.fmt = 1 → z.getX 116 = (w.setWidth 12).signExtend 64) ∧ (e.fmt ≠ 10 → z.getX 119 = 0) ∧
        (∀ x : Reg, 120 ≤ x.val → x.val < 124 → z.getX x = 0) ∧
        z = { s with ctx := { s.ctx with routine := z.ctx.routine, outer := z.ctx.outer, x := z.ctx.x, hold := .run } }) ∧
    twin (.vtobfpTwin d a b m dt) 0x3D (.vtobfp d a b m dt) ∧ twin (.vfrombfpTwin d a b m dt) 0x3D (.vfrombfp d a b m dt) ∧
    twin (.kvselTwin a) 0x3E (.kvsel a) ∧ twin (.mopsTwin t a b c m) 0x3A (.mops t a b c m) ∧ twin (.mwlTwin d a b) 0x3C (.mwl d a b) ∧
    twin (.mvwTwin t a b c m) 0x3B (.mvw t a b c m) ∧ exec .ureject s = .next (s.raise .illop 0)

/-! ## Traps, returns and ends -/

/-- `trap` and `ecall` with nothing older under way (R399-R403, R409): the frame, the bank and the level area are saved, tstat rises one
depth, and the handler starts at tvec with its own configuration; at depth 2, and at depth 0 with tvec 0, the task ends (R404). That a trap
inside a routine resumes at its next word (log 51), and that the frame holds the tstat of the handler that starts (log 66), are the model's
choices. -/
def Obligations.TrapWordsEnterTheHandler : Prop :=
  ∀ (s : State) (id : Nat), s.ctx.agent = .ctx id → s.ctx.rules = [] → s.ctx.queue = [] → s.wf = true →
    (∀ f ∈ s.flights, f.agent = s.ctx.agent → f.stage = .acked) → (∀ r ∈ s.ctx.remotes, r.begun = false) →
    let g := s.ctx.agent
    let c := s.ctx
    let depth := c.tstat.toNat % 4
    let stacked := c.tstat.toNat / 4 % 2 = 1
    let lost := c.tstat.toNat / 8 % 2 = 1 ∨ ¬ stacked
    let next := c.routine.map fun r => { r with off := r.off + 1 }
    let off := match next with
      | none => 0
      | some r => r.off % 4096
    let rpc := match c.routine with
      | none => c.pc + 4
      | some r => r.pc
    let stat := BitVec.ofNat 64 ((depth + 1) % 4 + (if depth ≠ 0 ∧ stacked then 4 else 0) + (if depth ≠ 0 ∧ lost then 8 else 0) +
      (if c.routine.isSome then 16 else 0) + off * 65536)
    let all := BitVec.allOnes 64
    let fatal := depth = 2 ∨ (depth = 0 ∧ c.tvec = 0)
    let goes := fun (i : Instr) (cause : Cause) (code : Nat) =>
      let p : Pending := { cause := cause, pc := s.wordPc, rpc := rpc, next := true }
      let z : State := { s with ctx := { c with routine := next, pending := some p, hold := .stall } }
      let f : TrapFrame := { cause := code, pc := s.wordPc, elem := 0, addr := 0, rule := all, tstat := stat, rpc := rpc }
      let slot := if depth = 0 then 0x20000 else 0x30000
      let place := if depth = 0 then 0x6000 else 0x6080
      let words : List Word := [BitVec.ofNat 64 code, s.wordPc, 0, 0, all, stat, rpc, s.now]
      (fatal → Completes (exec i s) fun t => t.ctx.task = none ∧ t.ctx.hold = .idle ∧ t.ctx.x = c.x) ∧
      (¬ fatal → ∀ u v, (((z.grainsDue g).saveSlot g slot []).bind fun s => s.saveLevel g depth) = some u → u.saveFrame g place f = some v →
        Completes (exec i s) fun t =>
          t.ctx.tcause = BitVec.ofNat 64 code ∧ t.ctx.tpc = s.wordPc ∧ t.ctx.telem = 0 ∧ t.ctx.taddr = 0 ∧ t.ctx.trule = all ∧
          t.ctx.tstat = stat ∧ t.ctx.hvl = c.vl ∧ t.ctx.hvtype = c.vtype ∧ t.ctx.hvstart = c.vstart ∧
          t.ctx.vl = 0 ∧ t.ctx.vtype = 0x4002 ∧ t.ctx.vstart = 0 ∧ t.ctx.fflags = 0 ∧
          t.ctx.wb = BitVec.ofNat 64 ((c.wb.toNat + 512) % 1024) ∧ t.ctx.cdepth = 0 ∧ t.ctx.strip = {} ∧
          t.ctx.pc = c.tvec ∧ t.ctx.routine = none ∧ t.ctx.hold = .run ∧ t.ctx.pending = none ∧
          t.ctx.x = c.x ∧ t.ctx.q = c.q ∧ t.ctx.v = c.v ∧ t.ctx.handles = c.handles ∧ t.ctx.task = c.task ∧
          (∀ q, u.translate (.core (id / 8)) (s.tenantOf g) .store false (c.ctximg + BitVec.ofNat 64 (0x420000 + place)) = .ok q →
            ∀ k, k < 128 → some (t.homeByte (q.pa + k)) =
              (words.flatMap (fun w => toBytes 8 w.toNat) ++ List.replicate 64 0)[k]?))
    goes .trap .trapinsn 0x18 ∧ goes .ecall .ecall 0x19

/-- `rtr` (R411): PRIV at level U; it waits until every rule of its depth has retired and its stores are performed at lane scope; else
the level below comes back: its registers from the level area, its configuration from the bank, and its pc from the frame. -/
def Obligations.ReturnRestoresTheLevelBelow : Prop :=
  ∀ (s : State) (area frame outer : List Byte),
    let g := s.ctx.agent
    let depth := s.ctx.tstat.toNat % 4
    let drained := s.ctx.queue = [] ∧ ∀ r ∈ s.ctx.rules, r.detached = true
    let plain := s.ctx.tstat.toNat / 4 % 2 = 0 ∧ s.ctx.tstat.toNat / 8 % 2 = 0
    let word := fun (bs : List Byte) (o : Nat) => BitVec.ofNat 64 (ofBytes ((bs.drop o).take 8))
    (s.atUser → exec .rtr s = .next (s.raise .priv 0)) ∧ (¬ s.atUser → ¬ (drained ∧ s.released 0) → Stalls s (exec .rtr s)) ∧
    (¬ s.atUser → drained → s.released 0 → (depth = 1 ∧ plain) ∨ depth = 2 →
      s.blockLoad g (0x2000 * (depth - 1)) 0x1880 = some area → s.blockLoad g (if depth = 1 then 0x6000 else 0x6080) 128 = some frame →
      s.blockLoad g 0x6000 128 = some outer → Completes (exec .rtr s) fun t =>
        (∀ x : Reg, t.getX x = if x = 0 then 0 else word area (8 * x.val)) ∧
        t.ctx.pc = word frame 48 ∧ t.ctx.tstat.toNat % 4 = depth - 1 ∧
        (∀ i, 2 ≤ i → i < 64 → t.ctx.tstat.getLsbD i = s.ctx.tstat.getLsbD i) ∧
        t.ctx.vtype = s.ctx.hvtype ∧ t.ctx.vl = BitVec.ofNat 64 (min s.ctx.hvl.toNat (4096 / 2 ^ (s.ctx.hvtype.toNat % 4))) ∧
        t.ctx.vstart = s.ctx.hvstart ∧ t.ctx.mtype = word area 0x420 ∧ t.ctx.fflags = word area 0x430 &&& 0x1F ∧
        ((word frame 40).toNat / 16 % 2 = 0 → t.ctx.routine = none) ∧
        (depth = 2 → t.ctx.tcause = word outer 0 ∧ t.ctx.tpc = word outer 8 ∧ t.ctx.telem = word outer 16 ∧
          t.ctx.taddr = word outer 24 ∧ t.ctx.trule = word outer 32) ∧
        (depth = 1 → t.ctx.tcause = s.ctx.tcause ∧ t.ctx.tpc = s.ctx.tpc) ∧
        t.ctx.tvec = s.ctx.tvec ∧ t.ctx.v = s.ctx.v ∧ t.ctx.hold = .run ∧ t.hbm = s.hbm ∧ t.l2 = s.l2 ∧ t.cores = s.cores)

/-- The ends of a task and of a handler (R40, R355, R359, R404, R410): `halt` at level S is fatal, after the release of R326; at level U it is refused in
collecting mode, waits for rules and for its stores and those ordered before them (R156), and then frees what the task held; a fetch at the
exit address is a `halt`; `fdone` ends a handler. That the word at the exit address is ILLOP in a fabric handler (log 47), that `fdone` outside
one is ILLOP (log 20), and that a fatal `halt` waits (log 82) are the model's choices. -/
def Obligations.TasksAndHandlersEnd : Prop :=
  ∀ (s : State),
    let g := s.ctx.agent
    let quiet := s.ctx.queue = [] ∧ (∀ r ∈ s.ctx.rules, r.detached = true) ∧
      (∀ f ∈ s.flights, f.agent = g → f.stage = .acked) ∧ ∀ i ∈ s.ctx.acquired, s.underway i = false
    let ended := fun t : State =>
      t.ctx.agent = g ∧ t.ctx.task = none ∧ t.ctx.hold = .idle ∧ t.ctx.queue = [] ∧ t.ctx.tagMap = [] ∧ t.ctx.cdepth = 0 ∧
      t.ctx.tileMap = Vector.replicate 4 none ∧ t.ctx.handles = Vector.replicate 16 {} ∧ t.ctx.x = s.ctx.x ∧
      ∀ id, g = .ctx id → (t.core (id / 8)).held (id % 8) = 0 ∧ ∀ i : Nat, (t.core (id / 8)).tileOwner.toList[i]? ≠ some (some id)
    let atExit := s.ctx.pc = 0x00FFFFFFFFFFF000 ∧ s.ctx.routine = none ∧ (s.ctx.hold = .run ∨ s.ctx.hold = .stall)
    let stored := ∀ f ∈ s.flights, f.agent = g → f.stage = .acked
    (¬ s.atUser → ¬ stored → Stalls s (exec .halt s)) ∧
    (¬ s.atUser → (∃ r ∈ s.ctx.remotes, r.begun = true) → (∀ a b n e, s.ctx.hold ≠ .memory a b n e) → Stalls s (exec .halt s)) ∧
    (¬ s.atUser → stored → (∀ r ∈ s.ctx.remotes, r.begun = false) → Completes (exec .halt s) ended) ∧
    (s.atUser → s.ctx.cdepth ≠ 0 → exec .halt s = .next (s.raise .nocollect 0)) ∧
    (s.atUser → s.ctx.cdepth = 0 → ¬ quiet → Stalls s (exec .halt s)) ∧
    (s.atUser → s.ctx.cdepth = 0 → quiet → Completes (exec .halt s) ended) ∧
    (∀ id, g = .ctx id → atExit → exec .exitAddressFetch s = exec .halt s) ∧
    (∀ a b c, g = .handler a b c → atExit → exec .exitAddressFetch s = .next (s.raise .illop 0)) ∧
    (¬ atExit → exec .exitAddressFetch s = .next s) ∧
    (∀ id, g = .ctx id → exec .fdone s = .next (s.raise .illop 0)) ∧
    (∀ a b c, g = .handler a b c →
      let idle := s.ctx.rules = [] ∧ s.ctx.queue = [] ∧ ∀ f ∈ s.flights, f.agent = g → f.stage = .acked
      (¬ idle → Stalls s (exec .fdone s)) ∧
      (idle → exec .fdone s = .next { s with ctx := { Ctx.reset g with task := s.ctx.task, seq := s.ctx.seq } }))

/-- The bank and the rule slots in memory (R401, R412, R413): PRIV at level U; the words wait for an older `fence.sv` and, which is the
model's choice (log 68), for the store queue; then a cause of the address or of a page comes first; else the bank is stacked or reloaded, and
the copy of the slot of the depth is stored or read. A copy with a valid record that breaks R401 is ILLCFG (the order of a record's checks, and
which words are legal, are log 46's); else the records up to the first that is not valid are the new slot. -/
def Obligations.BankAndSlotsMove : Prop :=
  ∀ (s : State) (a : Reg) (u : State) (bs : List Byte),
    let addr := s.getX a
    let acc := s.laneAcc
    let word := fun o : Nat => BitVec.ofNat 64 (ofBytes ((bs.drop o).take 8))
    let free := ¬ s.fenced ∧ s.released 0
    let bank := toBytes 8 s.ctx.hvl.toNat ++ toBytes 8 s.ctx.hvtype.toNat ++ toBytes 8 s.ctx.hvstart.toNat
    let checked := fun (i : Instr) (k : Access) (align n : Nat) =>
      (s.atUser → exec i s = .next (s.raise .priv 0)) ∧
      (¬ s.atUser → ¬ free → Stalls s (exec i s)) ∧
      (¬ s.atUser → free → ¬ Canonical addr → exec i s = .next (s.raise (faultOf k) addr)) ∧
      (¬ s.atUser → free → Canonical addr → addr.toNat % align ≠ 0 → exec i s = .next (s.raise .align addr)) ∧
      (¬ s.atUser → free → Canonical addr → addr.toNat % align = 0 → ∀ c va, s.spanFault acc k addr 4 n = some (c, va) →
        exec i s = .next (s.raise c va))
    let clear := fun (k : Access) (align n : Nat) => ¬ s.atUser ∧ free ∧ s.spanCause k addr align n = none
    checked (.stkvec a) .store 8 24 ∧ checked (.unstkvec a) .load 8 24 ∧ checked (.strule a) .store 4096 0xD800 ∧
    checked (.ldrule a) .load 4096 0xD800 ∧
    (clear .store 8 24 → s.writeSpan acc addr 2 bank = (.ok true, u) → Completes (exec (.stkvec a) s) fun t =>
      t = u.onward { u.ctx with stkaddr := addr, tstat := t.ctx.tstat } ∧
      ∀ i, i < 64 → t.ctx.tstat.getLsbD i = (decide (i = 2) || u.ctx.tstat.getLsbD i)) ∧
    (clear .load 8 24 → s.readSpan acc addr 2 24 = (.ok (some bs), u) →
      (¬ LegalVtype (word 8) → exec (.unstkvec a) s = .next (u.raise .illcfg 0)) ∧
      (LegalVtype (word 8) → Completes (exec (.unstkvec a) s) fun t =>
        t = u.onward { u.ctx with hvl := word 0, hvtype := word 8, hvstart := word 16, tstat := t.ctx.tstat } ∧
        ∀ i, i < 64 → t.ctx.tstat.getLsbD i = (decide (i ≠ 2 ∧ i ≠ 3) && u.ctx.tstat.getLsbD i))) ∧
    let user := fun c : Ctx => c.tstat.toNat % 4 = 1
    let copy := fun c : Ctx => if user c then c.userImg else c.hndImg
    (clear .store 4096 0xD800 → s.writeSpan acc addr 434 (((copy s.ctx).filter fun x => x.length == 0xD800).getD (slotBytes s.ctx.slot)) =
      (.ok true, u) → exec (.strule a) s = .next u.advance) ∧
    (clear .load 4096 0xD800 → s.readSpan acc addr 434 0xD800 = (.ok (some bs), u) →
      let field := fun k o n : Nat => ofBytes ((bs.drop (64 * k + o)).take n)
      let long := fun k o : Nat => BitVec.ofNat 64 (field k o 8)
      let valid := fun k : Nat => field k 0x0C 1 % 2 = 1
      let mode := fun k : Nat => field k 0x0D 1
      let breaks := fun k : Nat => match slotWord (field k 8 4) with
        | none => True
        | some i =>
          16 ≤ field k 0x0C 1 ∨ 4 < mode k % 8 ∨ mode k / 8 % 2 = 1 ∨ (mode k % 8 = 0 ∧ mode k ≠ 0) ∨ 1016 < field k 0x0E 2 ∨
          field k 0x0E 2 % 8 ≠ 0 ∨ ¬ LegalVtype (long k 0x10) ∨ ¬ LegalMtype (long k 0x18) ∨
          (∃ n, n < 4 ∧ (long k 0x18).toNat / 2 ^ (28 + n) % 2 = 1 ∧ u.ctx.tileMask / 2 ^ n % 2 = 0) ∨
          4096 / 2 ^ (field k 0x10 8 % 4) < field k 0x20 4 ∨
          ((∃ x y z, i = .cpgoMm x y z ∨ i = .cpgoMs x y z ∨ i = .cpgoSm x y z ∨ i = .cpgoSs x y z) ∧
            ¬ (field k 0x28 8 % 8 = field k 0x28 8 / 16 % 8 ∧ 1 ≤ field k 0x28 8 % 8 ∧ field k 0x28 8 % 8 ≤ 6)) ∨
          legalUnder i u.ctx (mode k % 8) (field k 0x20 4) (long k 0x10) (long k 0x18) = false
      ((∃ k, k < 96 ∧ valid k ∧ breaks k) → exec (.ldrule a) s = .next (u.raise .illcfg 0)) ∧
      ((∀ k, k < 96 → valid k → ¬ breaks k) → Completes (exec (.ldrule a) s) fun t =>
        (∀ n, n ≤ 96 → (∀ k, k < n → valid k) → (n < 96 → ¬ valid n) → t.ctx.slot.length = n) ∧
        (∀ k r, t.ctx.slot[k]? = some r →
          r.pc = long k 0 ∧ slotWord (field k 8 4) = some r.instr ∧ r.vtype = long k 0x10 ∧ r.mtype = long k 0x18 ∧
          r.vl = field k 0x20 4 ∧ r.r = field k 0x24 4 ∧ r.wb = field k 0x0E 2 ∧ r.opA = long k 0x30 ∧ r.opB = long k 0x38 ∧
          r.cdepth = mode k % 8 ∧ r.chandle = mode k / 16) ∧
        copy t.ctx = some bs ∧
        (if user u.ctx then t.ctx.hndSlot = u.ctx.hndSlot ∧ t.ctx.hndImg = u.ctx.hndImg
         else t.ctx.userSlot = u.ctx.userSlot ∧ t.ctx.userImg = u.ctx.userImg) ∧
        (∀ x ∈ t.lostUnits, x ∈ u.lostUnits) ∧ (∀ x ∈ u.lostUnits, (∀ n, x ≠ .rule u.ctx.agent n) → x ∈ t.lostUnits) ∧
        t = { u.onward { u.ctx with
          userSlot := t.ctx.userSlot, hndSlot := t.ctx.hndSlot, userImg := t.ctx.userImg, hndImg := t.ctx.hndImg
          seq := u.ctx.seq + 96 } with lostUnits := t.lostUnits }))

/-- `tlbinv` and `icinv` (R414, R415): PRIV at level U; they wait for older accesses, and for stores, those ordered before theirs too (R156); then the tenant's cached translations of
the address, or all of them for x0, are gone from every core and I/O die, and the tenant's code line from the caches of its cores and chains. -/
def Obligations.CachedTranslationsAndCodeGo : Prop :=
  ∀ (s : State) (a : Reg),
    let t := s.tenantOf s.ctx.agent
    let va := (s.getX a).toNat % 2 ^ 57
    let quiet := (∀ q ∈ s.ctx.rules ++ s.ctx.queue, touchesMemory q.instr = false) ∧
      (∀ f ∈ s.flights, f.agent = s.ctx.agent → f.stage = .acked) ∧ ∀ i ∈ s.ctx.acquired, s.underway i = false
    let hit := fun e : TlbEntry => e.tenant = t ∧ (a = 0 ∨ (Canonical (s.getX a) ∧ e.page = va / 2 ^ e.bits))
    let tableHit := fun e : TableEntry => e.tenant = t ∧ (a = 0 ∨ (Canonical (s.getX a) ∧ e.region = va / 2 ^ levelShift e.level))
    let cut := fun x y : Tlb =>
      (∀ e, e ∈ y.leaves ↔ e ∈ x.leaves ∧ ¬ hit e) ∧ ∀ e, e ∈ y.tables ↔ e ∈ x.tables ∧ ¬ tableHit e
    let code := fun e : CodeLine => e.tenant = t ∧ e.line = (s.getX a).toNat / 128
    (s.atUser → exec (.tlbinv a) s = .next (s.raise .priv 0) ∧ exec (.icinv a) s = .next (s.raise .priv 0)) ∧
    (¬ s.atUser → ¬ quiet → Stalls s (exec (.tlbinv a) s) ∧ Stalls s (exec (.icinv a) s)) ∧
    (¬ s.atUser → quiet →
      (Completes (exec (.tlbinv a) s) fun z =>
        (∀ k, cut (s.core k).tlb (z.core k).tlb) ∧ (∀ d : Nat, cut ((s.ioTlb.toList[d]?).getD {}) ((z.ioTlb.toList[d]?).getD {})) ∧
        (∀ (k i : Nat) (e : TlbEntry), e ∈ ((z.core k).micro.toList[i]?).getD [] ↔ e ∈ ((s.core k).micro.toList[i]?).getD [] ∧ ¬ hit e) ∧
        (if s.underWay t then z.ctx = { s.ctx with hold := .stall } else (∀ x, z.getX x = s.ctx.leaves 1 x (s.getX x)) ∧ MovesBy 1 s z ∧ SameContext s z) ∧ SameMemory s z) ∧
      (Completes (exec (.icinv a) s) fun z =>
        (∀ k, k ∈ (s.tenant t).cores → ∀ e, e ∈ (z.core k).icache ↔ e ∈ (s.core k).icache ∧ ¬ code e) ∧
        (∀ k, k ∉ (s.tenant t).cores → z.core k = s.core k) ∧
        (∀ c ∈ z.chains, c.tenant = t → ∀ e ∈ c.icache, ¬ code e) ∧ (∀ x, z.getX x = s.ctx.leaves 1 x (s.getX x)) ∧ MovesBy 1 s z ∧ SameContext s z ∧ SameMemory s z ∧
        z = { s with ctx := z.ctx, cores := z.cores, chains := z.chains }))

/-! ## Events of the memory hierarchy -/

/-- The events of a store on its way (R152, R155, R161, R168, R170, R184): the store queue empties into the L1 oldest first; a store is
performed at its home slice once no older store of its core to the line still waits, at its buffer chip in the order of its home slice,
and acknowledged; before its time each has no effect. What the model keeps of stores that loads have heard of (`trails`, R156) is its own (log 76). -/
def Obligations.StoresArriveInOrder : Prop :=
  ∀ (s : State) (k : Nat),
    (s.flights[k]? = none → ∀ i ∈ [.homeSliceStore k, .capacityStorePerformed k, .storeAcknowledge k], exec i s = .next s) ∧
    ∀ (f : Flight) (pa : Nat) (bs : List Byte), s.wf = true → s.flights[k]? = some f → f.bytes = cellsAt pa bs → f.line = pa / 128 →
      bs ≠ [] → (pa + bs.length - 1) / 128 = pa / 128 →
      let older := fun p : Flight → Prop => ∀ j e, j < k → s.flights[j]? = some e → e.line = f.line → p e
      let due := f.stage = .toHome ∧ older fun e => coreOf e.agent = coreOf f.agent → e.stage ≠ .toHome
      let buffered := f.stage = .toBuffer ∧ f.capacity = true ∧ older fun e => ¬ (e.stage = .toBuffer ∧ e.capacity = true)
      let oldest := f.stage = .queued ∧ ∀ j e, j < k → s.flights[j]? = some e → e.agent = f.agent → e.stage ≠ .queued
      let ended := f.stage = .acked ∨ (f.stage = .toBuffer ∧ f.capacity = false)
      let inside := fun x => pa ≤ x ∧ x < pa + bs.length
      (∀ n, coreOf f.agent = some n → oldest → let t := s.queueStoreAt k
        (∃ e, (t.core n).l1Find f.line = some e ∧ ∀ i, i < bs.length → lookup? (pa % 128 + i) e.bytes = bs[i]?) ∧
        (∀ x, t.homeByte x = s.homeByte x) ∧ (∀ m, t.core m = { s.core m with l1 := (t.core m).l1 }) ∧
        t = { s with cores := t.cores, trails := t.trails, flights := s.flights.eraseIdx k ++ [{ f with stage := .toHome }] }) ∧
      (¬ oldest → s.queueStoreAt k = s) ∧
      (due → s.fillKeeps f.tenant f.line f.zero → Completes (exec (.homeSliceStore k) s) fun t =>
        (∀ i, i < bs.length → some (t.homeByte (pa + i)) = bs[i]?) ∧ (∀ x, ¬ inside x → t.homeByte x = s.homeByte x) ∧
        (∀ n, coreOf f.agent ≠ some n → (t.core n).l1Find f.line = none) ∧
        (∀ n, t.core n = { s.core n with l1 := (t.core n).l1 }) ∧
        t = { s with
          cores := t.cores, l2 := t.l2, mismatch := t.mismatch, lostUnits := t.lostUnits, trails := t.trails
          flights := s.flights.eraseIdx k ++ [{ f with stage := .toBuffer }] }) ∧
      (¬ due → exec (.homeSliceStore k) s = .next s) ∧
      (buffered → Completes (exec (.capacityStorePerformed k) s) fun t =>
        (∀ i, i < bs.length → some (t.hbm.read (pa + i)) = bs[i]?) ∧ (∀ x, ¬ inside x → t.hbm.read x = s.hbm.read x) ∧
        t = { s with hbm := t.hbm, flights := s.flights.set k { f with stage := .acked } }) ∧
      (¬ buffered → exec (.capacityStorePerformed k) s = .next s) ∧
      (ended → exec (.storeAcknowledge k) s = .next { s with flights := s.flights.eraseIdx k }) ∧
      (¬ ended → exec (.storeAcknowledge k) s = .next s)

/-- Fills (R118, R123, R128, R167, R170, R171, R381, R384): a cache takes the line or the leaf, memory reads as before, and a context
none of whose elements is mapped onto a span is gone from the span's former owners. That a fill acts only on a line, or a page, that a context
of the tenant asks for (log 83), and where the lines of an image and their presence bits stand (log 31), are the model's choices. -/
def Obligations.FillsKeepMemory : Prop :=
  ∀ (s : State) (tenant core line : Nat), s.wf = true →
    (∀ hint, s.l2Wanted tenant line hint = false → exec (.l2MissFill tenant line hint) s = .next s) ∧
    (∀ hint, s.l2Wanted tenant line hint = true → (s.l2Find line).isSome = true ∨ hint = false → s.fillKeeps tenant line hint →
      Completes (exec (.l2MissFill tenant line hint) s) fun t =>
        (t.l2Find line).isSome = true ∧ (∀ x, t.homeByte x = s.homeByte x) ∧ t = { s with l2 := t.l2 }) ∧
    (s.l2Wanted tenant line true = true → s.l2Find line = none → Completes (exec (.l2MissFill tenant line true) s) fun t =>
      ∃ e, t.l2Find line = some e ∧ e.zero = true ∧ e.data = [] ∧ e.dirty = false ∧ ∀ o, o < 128 → t.homeByte (128 * line + o) = 0) ∧
    ((∀ hint, s.l1Wanted tenant core line hint = false) → exec (.l1LineFill tenant core line) s = .next s) ∧
    (∀ hint, s.l1Wanted tenant core line hint = true → (hint = false → s.l1Wanted tenant core line true = false) →
        (s.l2Find line).isSome = true ∨ hint = false → s.fillKeeps tenant line hint →
        Completes (exec (.l1LineFill tenant core line) s) fun t =>
      (∃ e, (t.core core).l1Find line = some e ∧ ∀ o, o < 128 → lookup? o e.bytes =
        some (match youngestByte (fun f => f.leaves core) (128 * line + o) s.flights with
          | some (b, _) => b
          | none => (((s.core core).l1Find line).bind fun x => lookup? o x.bytes).getD (s.homeByte (128 * line + o)))) ∧
      (∀ x, t.homeByte x = s.homeByte x) ∧ (∀ k, t.core k = { s.core k with l1 := (t.core k).l1 }) ∧
      (∀ k, k ≠ core → t.core k = s.core k) ∧ t = { s with cores := t.cores, l2 := t.l2 }) ∧
    (∀ va acc, (∀ c ∈ s.tenantCtx tenant (some core), s.asksPage c va acc = false) →
      exec (.pageWalkComplete tenant core va acc) s = .next s) ∧
    (∀ va acc, (∃ c ∈ s.tenantCtx tenant (some core), s.asksPage c va acc = true) →
        Completes (exec (.pageWalkComplete tenant core va acc) s) fun t =>
      let a := va.toNat % 2 ^ 57
      let owner := s.tenant tenant
      let w := s.walk (s.core core).tlb.tables owner acc a
      let missed := cachedLeaf (s.core core).tlb.leaves tenant a = none
      (∀ e passed, missed → w = .ok (e, passed) → (owner.resolve a e).complete = true →
        (t.core core).tlb.leaves.head? = some (owner.resolve a e)) ∧
      (¬ missed ∨ (∃ c, w = .error c) → t.core core = s.core core) ∧ (∀ k, k ≠ core → t.core k = s.core k) ∧
      t.core core = { s.core core with tlb := (t.core core).tlb } ∧ t = { s with cores := t.cores }) ∧
    (∀ span, let former := fun (t : State) (i : Nat) => ((t.core core).former.toList[i]?).getD []
      Completes (exec (.spanHandover core span) s) fun t =>
        (∀ j, j ∈ former t span ↔ j ∈ former s span ∧ (s.getCtx (.ctx (8 * core + j))).mapsOn span = true) ∧
        (∀ i, i ≠ span → former t i = former s i) ∧ (∀ k, k ≠ core → t.core k = s.core k) ∧
        t.core core = { s.core core with former := (t.core core).former } ∧ t = { s with cores := t.cores }) ∧
    (∀ a b c, exec (.registerLineFill (.handler a b c) line) s = .next s) ∧
    ∀ id, let g := Agent.ctx id
      let c := s.getCtx g
      let here := (id % 8, line)
      let k := s.core (id / 8)
      let held := c.allBacked = true ∨ line ∈ c.backed
      let va := c.ctximg + BitVec.ofNat 64 (256 * line)
      let gets := fun (u v : State) (o n : Nat) (bs : List Byte) =>
        u.imageGet g (c.ctximg + BitVec.ofNat 64 o) n = .ok (bs, v)
      let wanted := s.lineWanted g line = true
      (¬ wanted → exec (.registerLineFill g line) s = .next s) ∧
      (wanted → here ∈ k.rf ∨ (¬ held ∧ k.rf.length < 8192) → Completes (exec (.registerLineFill g line) s) fun t =>
        here ∈ (t.core (id / 8)).rf ∧ (∀ n, t.core n = { s.core n with rf := (t.core n).rf }) ∧ t = { s with cores := t.cores }) ∧
      (wanted → here ∉ k.rf → held → ∀ x, s.imageGet g va 128 = .error x → exec (.registerLineFill g line) s = .next s) ∧
      (wanted → here ∉ k.rf → held → k.rf.length < 8192 → ∀ u v w lo hi pres, gets s u (256 * line) 128 lo →
        gets u v (256 * line + 128) 128 hi → gets v w (0x400000 + 8 * line) 8 pres →
        Completes (exec (.registerLineFill g line) s) fun t =>
          here ∈ (t.core (id / 8)).rf ∧
          (∀ o, o < 256 → some ((t.getCtx g).v.read (256 * line + o)) = (lo ++ hi)[o]?) ∧
          (∀ x, ¬ (256 * line ≤ x ∧ x < 256 * line + 256) → (t.getCtx g).v.read x = c.v.read x) ∧
          (∀ x, x ∈ (t.getCtx g).absent ↔
            (x ∈ c.absent ∧ x / 64 ≠ line) ∨ ∃ i, i < 64 ∧ x = 64 * line + i ∧ ofBytes pres / 2 ^ i % 2 = 0) ∧
          (∀ x, t.homeByte x = w.homeByte x) ∧ (∀ h, h ≠ g → t.getCtx h = s.getCtx h)) ∧
      ∀ x n p, s.translate (.core (id / 8)) (s.tenantOf g) .load false x = .ok p → s.lineError p.pa n p.zero = none → 0 < n →
        (p.pa + n - 1) / 128 = p.pa / 128 → s.fillKeeps (s.tenantOf g) (p.pa / 128) p.zero →
        ∃ bs u, s.imageGet g x n = .ok (bs, u) ∧ bs.length = n ∧ (∀ o, o < n → bs[o]? = some (s.homeByte (p.pa + o))) ∧
          ∀ y, u.homeByte y = s.homeByte y

/-! ## Events of engines and of the fabric -/

/-- The engine events (R205, R215, R216, R303, R317, R318, R358, R364, R370): each is the firing of an element, or one piece of the work, of
a rule of its kind, and has no effect on any other; a scratchpad wait that has lasted its limit raises EMPTYWAIT. -/
def Obligations.EngineEventsAdvanceTheirRules : Prop :=
  ∀ (s : State) (g : Agent) (k j bag buffer : Nat) (r : Rule), s.ruleAt g k = some r →
    let word := fun f : Reg → Reg → Reg → Instr => ∃ x y z, r.instr = f x y z
    let done := r.done.getLsbD 0 = true
    let made := fun u : Nat => ∃ p ∈ r.eng.parts, p.bag = bag ∧ p.buffer = u
    let left := fun e : Nat => e < r.vl ∧ r.done.getLsbD e = false
    let pools := word .spool ∧ 2 ≤ r.eng.phase
    let fires := fun (i : Instr) (p : Prop) (e : Nat) =>
      (p → exec i s = .next (s.fireElement g k e)) ∧ (¬ p → exec i s = .next s)
    let first := k = 0 ∧ r.fault = none ∧ r.detached = false ∧ (s.getCtx g).hold ≠ .stopped
    let called := (∃ x, r.instr = .coll x) ∧ ¬ done ∧ (4 ≤ r.eng.phase ∨ (r.eng.phase = 3 ∧ r.collAll = true))
    let stands := fun t : State => ∃ q, t.ruleAt g k = some q ∧ q.key = r.key ∧ q.collStands = true
    fires (.mwlComplete g k) (word .mwl) (r.opB.toNat / 2 ^ 8 % 128 + 1) ∧
    (∀ e, left e → (∀ i, i < e → ¬ left i) → fires (.spoolHeaderRead g k) (word .spool ∧ r.eng.phase < 2) e) ∧
    ((∀ e, ¬ left e) → fires (.spoolHeaderRead g k) (word .spool ∧ r.eng.phase < 2) 0) ∧
    (∀ e, r.leader bag = some e → fires (.spoolBagComplete g k bag) (pools ∧ ∀ u, u < 16 → made u) e) ∧
    (r.leader bag = none → exec (.spoolBagComplete g k bag) s = .next s) ∧
    fires (.kvselScoreMerge g k) ((∃ x, r.instr = .kvsel x) ∧ r.eng.phase = 2) 0 ∧
    fires (.fsendAccept g k) (word .fsend) 0 ∧
    (¬ called → exec (.collComplete g k) s = .next s) ∧
    (called → ∃ n, n ≤ 4 ∧ ∃ f : Nat → State, f 0 = s ∧ (∀ i, i < n → stands (f i) ∧ f (i + 1) = (f i).fireElement g k 0) ∧
      (n = 4 ∨ ¬ stands (f n)) ∧ exec (.collComplete g k) s = .next (f n)) ∧
    (copySpaces r.instr = none → exec (.copyTransfer g k j) s = .next s) ∧
    (∀ u sp, first → ¬ done → copySpaces r.instr = some sp → j ∈ r.transfersLeft → s.transferAt g k r j sp = .part u →
      (∀ q, u.ruleAt g k = some q → q.transfersLeft ≠ []) → exec (.copyTransfer g k j) s = .next u) ∧
    (∀ u e es, first → pools → buffer < 16 → ¬ made buffer → r.leader bag = some e → e < r.vl → r.vl ≤ 4096 →
      r.entries bag = some es → s.bufferPartial g k r bag buffer es = .part u →
      exec (.spoolBufferPartial g k bag buffer) s = .next u) ∧
    (¬ (pools ∧ buffer < 16 ∧ ¬ made buffer) ∨ r.leader bag = none ∨ r.entries bag = none →
      exec (.spoolBufferPartial g k bag buffer) s = .next s) ∧
    (∀ v b m dt since, r.instr = .vspld v b m dt → lookup? j r.eng.waits = some since →
      let n := 2 ^ (r.vtype.toNat % 4)
      let off := r.opA + BitVec.ofNat 64 (j * n)
      let late := s.emptyLimit g ≤ (s.now - since).toNat ∧ r.fault = none ∧ r.done.getLsbD j = false ∧
        (s.getCtx g).faultBefore k = false ∧ s.scratchWaits g off n = true
      (late → exec (.emptywaitTimeout g k j) s = .next (s.faultAt g k (.emptywait, j, off))) ∧
      (¬ late → exec (.emptywaitTimeout g k j) s = .next s)) ∧
    (∀ v b x since, r.instr = .vpld v b x → lookup? j r.eng.waits = some since →
      let bits := r.vtype.toNat / 32 % 8 + 2
      let scales := r.vl / (16 * 2 ^ (r.vtype.toNat / 256 % 4))
      let len := 64 * ((64 + bits * (64 * (((r.vl + 7) / 8 + 63) / 64)) + scales + 63) / 64)
      let late := s.emptyLimit g ≤ (s.now - since).toNat ∧ r.fault = none ∧ r.done.getLsbD j = false ∧
        (s.getCtx g).faultBefore k = false ∧ s.scratchWaits g r.opA len = true
      (late → exec (.emptywaitTimeout g k j) s = .next (s.faultAt g k (.emptywait, j, r.opA))) ∧
      (¬ late → exec (.emptywaitTimeout g k j) s = .next s)) ∧
    (∀ sp since, copySpaces r.instr = some sp → lookup? j r.eng.waits = some since →
      let late := s.emptyLimit g ≤ (s.now - since).toNat ∧ r.fault = none ∧ j ∈ r.transfersLeft ∧
        (s.getCtx g).faultBefore k = false ∧ s.scratchWaits g (r.srcAt j) (transferBytes r.eng.src) = true
      (late → exec (.emptywaitTimeout g k j) s = .next (s.faultAt g k (.emptywait, 0, r.srcAt j))) ∧
      (¬ late → exec (.emptywaitTimeout g k j) s = .next s)) ∧
    (lookup? j r.eng.waits = none → exec (.emptywaitTimeout g k j) s = .next s)

/-- The fabric's events (R163, R354, R358, R367, R368, R370, R371, R424): an idle handler takes the oldest message of its tag, a peer's chunk or
acknowledgement is noted once, a call that waits past its limit ends TIMEOUT, or PEERLOST where a rank of it is declared lost, at once if it
has sent and else once it has taken its number, and a remote access is answered or lost. How calls of an endpoint are numbered, and that chunks
arrive by this event only from ranks on other modules, are the model's choices (log 77). -/
def Obligations.FabricEventsDeliver : Prop :=
  ∀ (s : State),
    (∀ (tenant slice tag : Nat),
      let g := Agent.handler tenant slice tag
      let starts := fun (ch : Chain) (m : Message) (entry : Word) =>
        s.chainOn tenant slice = some ch ∧ ch.faulted = false ∧ (ch.waiting tag).head? = some m ∧ ch.tags[tag]? = some entry ∧
        (s.getCtx g).hold = .idle
      ((¬ ∃ ch m entry, starts ch m entry) → exec (.handlerStart tenant slice tag) s = .next s) ∧
      ∀ ch m entry, starts ch m entry → Completes (exec (.handlerStart tenant slice tag) s) fun t =>
        let c := t.getCtx g
        let n := m.payload.length
        c.pc = entry ∧ c.hold = .run ∧ c.message = some m ∧ c.vl = BitVec.ofNat 64 n ∧ c.vtype = 0xC000 ∧
        (∀ x : Reg, c.getX x = if x = 2 then m.addr else if x = 3 then BitVec.ofNat 64 n
          else if x = 4 then BitVec.ofNat 64 m.sender else if x = 5 then BitVec.ofNat 64 tag else 0) ∧
        (∀ o, o < n → some (c.v.read o) = m.payload[o]?) ∧ (∀ o, n ≤ o → c.v.read o = 0) ∧
        (∀ h, h ≠ g → t.getCtx h = s.getCtx h) ∧
        (∃ ch', t.chainOn tenant slice = some ch' ∧ ch' = { ch with queues := ch'.queues } ∧ ch'.waiting tag = (ch.waiting tag).tail ∧
          ∀ n, n ≠ tag → ch'.waiting n = ch.waiting n) ∧
        t = { s with ctx := t.ctx, others := t.others, chains := t.chains }) ∧
    (∀ (g : Agent) (k peer : Nat) (acked : Bool) (call : List Nat) (data : List Byte) (r : Rule), s.ruleAt g k = some r →
      let e := r.eng
      let field := fun i : Nat => (e.header[i]?).getD 0
      let stands := (∃ x, r.instr = .coll x) ∧ 2 ≤ e.phase ∧ r.done.getLsbD 0 = false
      let due := stands ∧ e.phase = 3 ∧ peer < field 12 ∧ peer ≠ field 13 ∧ field (14 + peer) % 4096 ≠ Config.moduleNumber % 4096 ∧
        (call[0]?).getD 0 = e.call
      let wrong := call ≠ r.callOf ∨ (data ≠ [] ∧ data.length ≠ chunkBytes e.header)
      let makes := fun (i : Instr) (p : Rule → Prop) => Completes (exec i s) fun t =>
        ∃ q, t.getCtx g = { s.getCtx g with rules := (s.getCtx g).rules.set k q } ∧ (∀ h, h ≠ g → t.getCtx h = s.getCtx h) ∧
          p q ∧ t = { s with ctx := t.ctx, others := t.others }
      let ends := fun (outcome : Nat) (q : Rule) =>
        q = { r with eng := { e with phase := 4, index := [outcome], acks := q.eng.acks, chunks := q.eng.chunks } } ∧
        (∀ p, p ∈ q.eng.acks ↔ p ∈ e.acks ∧ ¬ (outcome = 4 ∧ p = field 13)) ∧
        ∀ p, lookup? p q.eng.chunks = if outcome = 4 ∧ p = field 13 then none else lookup? p e.chunks
      (¬ due → exec (.collChunkArrival g k peer acked ⟨call, data⟩) s = .next s) ∧
      (due → wrong → makes (.collChunkArrival g k peer acked ⟨call, data⟩) (ends 4)) ∧
      (due → ¬ wrong → makes (.collChunkArrival g k peer acked ⟨call, data⟩) fun q =>
        q = { r with eng := { e with chunks := q.eng.chunks, acks := q.eng.acks } } ∧
        (∀ p, lookup? p q.eng.chunks =
          if p = peer ∧ data ≠ [] then some ((lookup? p e.chunks).getD data) else lookup? p e.chunks) ∧
        (∀ p, p ∈ q.eng.acks ↔ p ∈ e.acks ∨ (p = peer ∧ acked = true))) ∧
      let rank := fun j : Nat => field (14 + j)
      let overdue := stands ∧ (s.tenant (s.tenantOf g)).wlimit.toNat ≤ (s.now - e.since).toNat ∧
        (e.phase = 2 ∨ (e.phase = 3 ∧ r.collAll = false))
      let gone := (∃ x ∈ e.header.drop 14, x % 4096 ∈ s.modulesLost) ∨
        (3 ≤ e.phase ∧ ∃ m ∈ (s.tenant (s.tenantOf g)).made, m.call.head? = some e.call ∧ m.lost = true ∧
          ∃ j, j < field 12 ∧ rank j % 4096 = Config.moduleNumber % 4096 ∧ j ≠ field 13 ∧ rank j / 2 ^ 16 = m.endpoint)
      let outcome := fun n : Nat => (n = 1 ∧ gone) ∨ (n = 3 ∧ ¬ gone)
      (overdue → ∀ n, outcome n →
        (e.phase = 2 → makes (.collTimeout g k) fun q => q = { r with eng := { e with index := [n] } }) ∧
        (e.phase = 3 → makes (.collTimeout g k) (ends n))) ∧
      (¬ overdue → exec (.collTimeout g k) s = .next s)) ∧
    ∀ (g : Agent) (k : Nat) (ok : Bool) (data : List Byte) (q : Remote), (s.getCtx g).remotes[k]? = some q →
      let becomes := fun (i : Instr) (q' : Remote) => Completes (exec i s) fun t =>
        t.getCtx g = { s.getCtx g with remotes := (s.getCtx g).remotes.set k q' } ∧ (∀ h, h ≠ g → t.getCtx h = s.getCtx h) ∧
        t = { s with ctx := t.ctx, others := t.others }
      becomes (.owningDeviceAcknowledge g k ok data)
        (if q.answer ≠ none ∨ q.lost = true then q else if ok then { q with answer := some data } else { q with lost := true }) ∧
      becomes (.remoteAccessTimeout g k)
        (if q.answer = none ∧ 10000000 ≤ (s.now - q.issued).toNat then { q with lost := true } else q)

/-! ## Events of contexts -/

/-- TRAP_ENTRY of a rule's fault (R319, R396, R400, R402-R404): it waits until the faulting rule stands first, the stores are acknowledged,
every access that has left the module is answered and used, and a `spool` has no bag left that goes on; then
the frame names the element, the address and rule 0, and the handler starts at tvec one depth up. That it waits until the context's own stores are
acknowledged (log 32), and that the frame holds the tstat of the handler that starts (log 66), are the model's choices. -/
def Obligations.ElementFaultsTrap : Prop :=
  ∀ (s : State) (id : Nat),
    let g := Agent.ctx id
    let c := s.getCtx g
    let live := c.rules.filter fun r => !r.detached
    let quiet := ∀ f ∈ s.flights, f.agent = g → f.stage = .acked
    let settled := quiet ∧ ∀ q ∈ c.remotes, q.begun = false
    let takes := (∀ y p, c.hold ≠ .saved y p) ∧ (∀ a b, c.hold ≠ .barrier a b true) ∧ c.hold ≠ .stopped
    (¬ takes → exec (.trapEntry g) s = .next s) ∧
    (live = [] → c.pending = none → exec (.trapEntry g) s = .next s) ∧
    ∀ r rs, live = r :: rs →
      (r.fault = none → exec (.trapEntry g) s = .next s) ∧ (¬ quiet → exec (.trapEntry g) s = .next s) ∧
      ((∃ q ∈ c.remotes, q.begun = true) → (∀ a b n x, c.hold ≠ .memory a b n x) → exec (.trapEntry g) s = .next s) ∧
      (r.poolsOn = true → exec (.trapEntry g) s = .next s) ∧
      ∀ cause e addr, r.fault = some (cause, e, addr) → takes → settled → r.poolsOn = false → cause ≠ .queuegone →
        let depth := c.tstat.toNat % 4
        let f : TrapFrame :=
          { cause := causeCode cause, pc := r.pc, elem := e, addr := addr, rule := 0, tstat := c.trapStat false, rpc := c.instrPc }
        let fatal := depth = 2 ∨ (depth = 0 ∧ c.tvec = 0)
        (fatal → Completes (exec (.trapEntry g) s) fun t => (t.getCtx g).task = none ∧ (t.getCtx g).hold = .idle) ∧
        (¬ fatal → ∀ u, (((s.grainsDue g).saveSlot g (if depth = 0 then 0x20000 else 0x30000) c.records).bind fun s =>
            (s.saveLevel g depth).bind fun s => s.saveFrame g (if depth = 0 then 0x6000 else 0x6080) f) = some u →
          Completes (exec (.trapEntry g) s) fun t =>
            let d := t.getCtx g
            d.tcause = BitVec.ofNat 64 (causeCode cause) ∧ d.tpc = r.pc ∧ d.telem = BitVec.ofNat 64 e ∧ d.taddr = addr ∧ d.trule = 0 ∧
            d.tstat.toNat % 4 = (depth + 1) % 4 ∧ d.pc = c.tvec ∧ d.routine = none ∧ d.hold = .run ∧ d.x = c.x ∧ d.queue = [] ∧
            d.hvl = c.vl ∧ d.hvtype = c.vtype ∧ d.hvstart = c.vstart ∧ d.task = c.task ∧ (depth = 0 → d.userSlot = c.records) ∧
            ∀ h, h ≠ g → t.getCtx h = s.getCtx h)

/-- PREEMPT and RESUME_TASK (R337, R339, R340, R417, R418): a context whose request's time has come, or that is parked with one, and that has no
atomic under way at an owning device, stops: it is saved where its image can be written and its claimed tiles hold no error, and else ended. A
saved task that a context can hold again, its own one or a free one, and whose claimed tiles can be read back, goes on with the registers of its
level area, unless its core may serve, or is kept for, a launch that stands before its own (log 23). That a task saved while parked resumes
past its park is the model's choice (log 41). -/
def Obligations.TasksAreSavedAndResumed : Prop :=
  ∀ (s : State) (id : Nat), id < 1536 →
    let g := Agent.ctx id
    let c := s.getCtx g
    let isSaved := (∃ y p, c.hold = .saved y p) ∨ ∃ a b, c.hold = .barrier a b true
    let due := ∃ by', c.yieldBy = some by' ∧ c.task ≠ none ∧ ¬ isSaved ∧ (∀ r ∈ c.remotes, r.op ∈ [.load, .store, .ifence]) ∧
      (by'.toNat ≤ s.now.toNat ∨ ∃ since w, c.hold = .park since w)
    (¬ due → exec (.preempt g) s = .next s) ∧
    (due → Stops s (exec (.preempt g) s) g false) ∧
    let may := fun (target : Nat) (g : Agent) => ∃ k l, (s.getCtx g).task = some k ∧ s.launchOf k = some l ∧ target < 1536 ∧
      s.canResume (s.getCtx g) (target / 8) = true ∧
      (g = .ctx target ∨ (s.getCtx (.ctx target)).isSaved = true ∨
        ((s.getCtx (.ctx target)).task = none ∧ (s.getCtx (.ctx target)).hold = .idle)) ∧
      let holds := fun (u : State) (x : Launch) => u.canHold k.tenant (target / 8) (x.needs (s.tenant k.tenant)) = true
      (∀ x ∈ s.inOrder k.tenant, ranksFirst x.rank l.rank = true →
        if x.flag 4 then s.fits k.tenant x = false else ¬ (holds s x ∧ s.ticketFor k.tenant (target / 8) x = true)) ∧
      ∀ x xs, s.inOrder k.tenant = x :: xs → ranksFirst x.rank l.rank = true → s.fits k.tenant x = false →
        holds (s.vacant k.tenant) x → x.flag 4 = false ∧
          ∀ c ∈ s.allCtx, c.yieldBy ≠ none → ∀ j, c.task = some j → j.tenant ≠ k.tenant
    (∀ h target, ¬ may target h → exec (.resumeTask h target) s = .next s) ∧
    ∀ target area, may target g →
      (target ≠ id → (s.getCtx (.ctx target)).task = none ∧ ∀ x ∈ (s.core (id / 8)).rf, x.1 ≠ id % 8) →
      let h := Agent.ctx target
      let u := if target = id then s else s.rename g h
      u.blockLoad h (0x2000 * (c.tstat.toNat % 4)) 0x1880 = some area →
      (∀ n, n < 4 → (Nat.lor c.claims (claimOf (BitVec.ofNat 64 (ofBytes ((area.drop 0x420).take 8))))).testBit n = true →
        u.blockLoad h (0x40000 + 0x20000 * n) 0x10000 ≠ none ∧ u.blockLoad h (0x50000 + 0x20000 * n) 0x10000 ≠ none) →
      Completes (exec (.resumeTask g target) s) fun t =>
        let d := t.getCtx h
        (target ≠ id → (t.getCtx g).task = none) ∧
        let word := fun o : Nat => BitVec.ofNat 64 (ofBytes ((area.drop o).take 8))
        (∀ x : Reg, d.getX x = if x = 0 then 0 else word (8 * x.val)) ∧ d.pc = word 0x400 ∧ d.mtype = word 0x420 ∧
        d.fflags = word 0x430 &&& 0x1F ∧ d.vstart = word 0x418 ∧ d.preSlot = [] ∧ d.task = c.task ∧ d.tvec = c.tvec ∧
        (∀ y p, c.hold = .saved y p → d.hold = .run) ∧ (∀ a b, c.hold = .barrier a b true → d.hold = .barrier a b false)

/-- BARRIER_COMPLETE and BARRIERDEAD (R341, R342, R404, R424): when every participant has arrived as often as the one held, all that are held at
that arrival or an older one go on at the next word, and each follows what the participants have released (R156; log 76); when no barrier of the
launch can complete, whomever it waits for, its held participants meet BARRIERDEAD, one after the other. -/
def Obligations.BarriersCompleteOrDie : Prop :=
  ∀ (s : State),
    (∀ (g : Agent) (pod : Bool),
      let c := s.getCtx g
      let r := exec (.barrierComplete g pod) s
      ((∀ sc id sv, c.hold ≠ .barrier sc id sv) → r = .next s) ∧
      ∀ sc id sv, c.hold = .barrier sc id sv →
        let all := (∀ x ∈ s.allCtx, takesPart sc c x = true → c.arrived sc id ≤ x.arrived sc id) ∧ (sc = 5 → pod = true)
        (¬ all → r = .next s) ∧
        (all → ∃ pass : Ctx → Ctx,
          let follows := fun x y : Ctx => pass x = { y with acquired := (pass x).acquired } ∧ ∀ i, i ∈ (pass x).acquired ↔
            (i ∈ x.acquired ∨ ∃ z ∈ s.allCtx, takesPart sc c z = true ∧ i ∈ z.released) ∧ s.underway i = true
          (∀ x, takesPart sc c x = true → x.hold = .barrier sc id false → x.arrived sc id ≤ c.arrived sc id → follows x (x.advance 1)) ∧
          (∀ x, takesPart sc c x = true → x.hold ≠ .barrier sc id false ∨ c.arrived sc id < x.arrived sc id → follows x x) ∧
          (∀ x, takesPart sc c x = false → pass x = x) ∧
          r = .next { s with ctx := pass s.ctx, others := s.others.map pass })) ∧
    ∀ (tenant launch : Nat),
      let there := s.tasksOf tenant launch
      let pod := ∃ c ∈ there, ∃ id sv, c.hold = .barrier 5 id sv
      let awaited := fun x : Ctx => (pod ∧ x ∈ s.allCtx ∧ ∃ c ∈ there, takesPart 5 c x = true) ∨ (¬ pod ∧ x ∈ there)
      let stuck := there ≠ [] ∧ ∀ c, awaited c → (∃ sc id sv, c.hold = .barrier sc id sv) ∧ c.pending = none ∧
        ∃ x ∈ s.allCtx, ∃ sc id sv, c.hold = .barrier sc id sv ∧ takesPart sc c x = true ∧ x.arrived sc id < c.arrived sc id
      let lost := s.launchAt tenant launch fun l => l.dead = true
      (¬ (stuck ∨ lost) → exec (.barrierdead tenant launch) s = .next s) ∧
      (stuck ∨ lost → (s.allCtx.map Ctx.agent).Nodup → (∀ c ∈ there, ∃ id, c.agent = .ctx id) → ∃ f : Nat → State,
        let held := there.filter fun c => c.atBarrier && c.pending.isNone
        f 0 = s ∧ (∀ i c, held[i]? = some c → MeetsBarrierdead (f i) (f (i + 1)) c.agent) ∧
        exec (.barrierdead tenant launch) s = .next (f held.length))

/-! ## Queues, launches and dispatch -/

/-- The queue events (R328, R330, R351): a notify makes an IDLE queue fetch, a fetch holds, polls or consumes, a poll backs off to 16 µs, stalls
after 100 µs with its interrupt, a STALLED queue notified without a hardware slot takes one later, and a drain ends OFF from its slot. That such a
queue takes its slot later, and that a drain takes one first, are the model's choices (log 85). -/
def Obligations.QueuesFollowTheirStates : Prop :=
  ∀ (s : State) (t n : Nat) (q : Queue), s.queue t n = some q →
    let now := s.now
    let becomes := fun (i : Instr) (p : Queue → Prop) => Completes (exec i s) fun u => u.queueHas t n p
    let full := 256 ≤ (s.tenant t).launches.length
    let record := s.arrivedRecord t q
    let consumes := fun i : Instr => Completes (exec i s) fun u =>
      u.queueHas t n (fun x => x.consumed = q.consumed + 1 ∧ x.produced = q.produced) ∧ (u.tenant t).consumed = (s.tenant t).consumed + 1
    let polls := q.state ≠ .off ∧ ∃ since last gap, q.state = .poll since last gap
    (∀ p, q.mapped = true → q.state = .idle → s.queueAt t q.notify = some q →
      becomes (.notifyKick t q.notify p) fun x => x.produced = p ∧
        x.state = if q.consumed.toNat < p.toNat then .fetch else .idle) ∧
    (∀ a p, s.queueAt t a = none → s.hostWrite (.io 0) t a (toBytes 8 p.toNat) = none → exec (.notifyKick t a p) s = .next s) ∧
    (∀ a p u, s.queueAt t a = none → s.hostWrite (.io 0) t a (toBytes 8 p.toNat) = some u → exec (.notifyKick t a p) s = .next u) ∧
    (q.state = .fetch → q.consumed.toNat < q.produced.toNat →
      (full → becomes (.slotFetch t n) fun x => x = { q with state := .held }) ∧
      (¬ full → record = none → becomes (.slotFetch t n) fun x => x = { q with state := .poll now now 500 }) ∧
      (¬ full → ∀ bs, record = some bs → consumes (.slotFetch t n))) ∧
    (q.state = .fetch → q.produced.toNat ≤ q.consumed.toNat → becomes (.slotFetch t n) fun x => x = { q with state := .idle }) ∧
    (q.state ≠ .fetch → q.state ≠ .idle → ¬ (q.state = .stalled ∧ q.mapped = false ∧ q.woken = true) →
      exec (.slotFetch t n) s = .next s) ∧
    (q.state = .stalled → q.mapped = false → q.woken = true → s.mappedQueues.length < 256 →
      becomes (.slotFetch t n) fun x => x = { q with
        mapped := true, produced := s.notifyWord t q, state := .poll now now 500, woken := false }) ∧
    (∀ since last gap, q.state = .poll since last gap →
      ((now - last).toNat < gap.toNat → exec (.queuePollTimer t n) s = .next s) ∧
      (gap.toNat ≤ (now - last).toNat →
        (record = none → becomes (.queuePollTimer t n) fun x =>
          ∃ g, x = { q with state := .poll since now g } ∧ g.toNat = min 16000 (2 * gap.toNat)) ∧
        (∀ bs, record = some bs → full → becomes (.queuePollTimer t n) fun x => x = { q with state := .held }) ∧
        (∀ bs, record = some bs → ¬ full → consumes (.queuePollTimer t n))) ∧
      ((now - since).toNat < 100000 → exec (.queueStallTimeout t n) s = .next s) ∧
      (100000 ≤ (now - since).toNat → Completes (exec (.queueStallTimeout t n) s) fun u =>
        u.queueHas t n (fun x => x = { q with state := .stalled }) ∧
        u = (s.mapQueue t n fun x => { x with state := .stalled }).interrupt t q.fvec 1 0 (BitVec.ofNat 64 n))) ∧
    (¬ polls → exec (.queuePollTimer t n) s = .next s ∧ exec (.queueStallTimeout t n) s = .next s) ∧
    (q.state = .drain → q.mapped = true → becomes (.queueDrainEnd t n) fun x => x = { q with mapped := false, state := .off }) ∧
    (q.state = .drain → q.mapped = false → let u := s.takeSlot t n
      (u.queueHas t n (fun x => x.mapped = false) → exec (.queueDrainEnd t n) s = .next u) ∧
      (u.queueHas t n (fun x => x.mapped = true) → becomes (.queueDrainEnd t n) fun x => x.mapped = false ∧ x.state = .off)) ∧
    (q.state ≠ .drain → exec (.queueDrainEnd t n) s = .next s)

/-- The events of a launch (R325, R326, R331-R333, R335, R103): its triggers and start time make it READY with its tickets split over the dies, a
trigger off a normal page ends it with the outcome BADRECORD, told by its status word and its interrupt, and its deadline marks it late, and
drops it where its record says so. That a trigger once met stays met is the model's choice (log 58). -/
def Obligations.LaunchesBecomeReady : Prop :=
  ∀ (s : State) (t id : Nat) (l : Launch) (trig : Fin 2), findLaunch id (s.tenant t).launches = some l →
    ∀ i ∈ [.launchStartTime t id, .launchTriggerWrite t id trig],
      (l.state ≠ .waiting → exec i s = .next s) ∧
      (l.state = .waiting → ∀ a b, s.triggersMet t l = some (a, b) →
        let go := a = true ∧ b = true ∧ l.field 0x38 8 ≤ s.now.toNat
        (¬ go → exec i s = .next (s.mapLaunch t id fun l => { l with met0 := a, met1 := b })) ∧
        (go → l.fromList = false → l.flag 4 = false → 0 < l.field 0x28 8 → (∃ k ∈ (s.tenant t).cores, (s.core k).stopped = false) →
          (∀ k ∈ (s.tenant t).cores, k < 192) →
          Completes (exec i s) fun u =>
            let total := l.field 0x28 8
            let alive := (s.tenant t).cores.filter fun k => !(s.core k).stopped
            let below := fun d : Nat => (alive.filter fun k => decide (k / 48 < d)).length
            u.launchAt t id (fun x => x.state = .ready ∧ x.ranges.length = 4 ∧
              ∀ d, d < 4 → x.ranges[d]? = some (total * below d / alive.length, total * below (d + 1) / alive.length)) ∧
            ∀ k, u.core k = if l.flag 0 = true ∧ k ∈ (s.tenant t).cores then { s.core k with icache := [] } else s.core k)) ∧
      (l.state = .waiting → s.triggersMet t l = none → l.running = 0 → Completes (exec i s) fun u =>
        findLaunch id (u.tenant t).launches = none ∧
        let status := BitVec.ofNat 64 (4 + (if l.late = true ∨ l.deadline < s.now.toNat then 16 else 0) + (if l.actFault then 32 else 0) +
          l.failed % 2 ^ 32 * 2 ^ 32)
        (l.doneKind 0 = false → l.doneKind 2 = false → l.doneKind 1 = true → (s.tenant t).pendInts.length < 1024 →
          (u.tenant t).pendInts = (s.tenant t).pendInts ++
            [{ vector := l.field 0x62 2, kind := 0, lost := (s.tenant t).lostInts, status := status, now := s.now, source := l.record }]) ∧
        ∀ p, l.doneKind 0 = false → l.doneKind 2 = true → s.wf = true →
          s.translate (.io 0) t .store true (l.doneAddr + 8) = .ok p → p.attr ≠ .remote → (p.pa + 7) / 128 = p.pa / 128 →
          s.fillKeeps t (p.pa / 128) p.zero → ∀ k, k < 8 → u.homeByte (p.pa + k) = status.extractLsb' (8 * k) 8) ∧
      let late := l.deadline < s.now.toNat
      let drops := l.flag 2 = true ∧ l.state ≠ .draining
      (¬ late → exec (.launchDeadline t id) s = .next s) ∧
      (late → ¬ drops → exec (.launchDeadline t id) s = .next (s.mapLaunch t id fun l => { l with late := true })) ∧
      (late → drops → 0 < l.running → Completes (exec (.launchDeadline t id) s) fun u => u.launchAt t id fun x =>
        x.state = .draining ∧ x.outcome = 1 ∧ x.late = true ∧ x.ranges = [] ∧ x.extra = [] ∧ x.running = l.running) ∧
      (late → drops → l.running = 0 → Completes (exec (.launchDeadline t id) s) fun u =>
        findLaunch id (u.tenant t).launches = none)

/-- DISPATCH_TASK (R40, R332, R334, R335): the first launch in order gets its next ticket placed on the lowest free context of the core, and the
task starts there as its kernel and its record say; with nothing to serve, nothing happens. -/
def Obligations.DispatchStartsTasks : Prop :=
  ∀ (s : State) (t core : Nat),
    (s.inOrder t = [] → exec (.dispatchTask t core) s = .next s) ∧
    ∀ l ls h k v l' u id, s.inOrder t = l :: ls → core ∈ (s.tenant t).cores → l.flag 4 = false →
      (s.tenant t).code.find? (fun h => h.id == l.code) = some h → h.kernels[l.kernel]? = some k →
      s.canHold t core (l.needs (s.tenant t)) = true → (∀ c ∈ s.tasksOf t l.id, s.canResume c core = false) →
      s.takeTicket t core l = .run v l' u → s.freeContext core = some id →
      Completes (exec (.dispatchTask t core) s) fun z =>
        let c := z.getCtx (.ctx id)
        let args := l.field 0x18 8
        id / 8 = core ∧ c.pc = k.entry ∧ c.hold = .run ∧ c.vtype = 0x24002 ∧ c.vl = 0 ∧ c.tstat = 0 ∧ c.cdepth = 0 ∧ c.routine = none ∧
        c.rules.filter (fun r => !r.detached) = [] ∧ c.queue = [] ∧ c.tvec = (s.tenant t).tvecdef ∧ c.tagMask = k.tags ∧
        (∀ x : Reg, c.getX x = if x = 1 then 0x00FFFFFFFFFFF000 else if x = 2 then BitVec.ofNat 64 v
          else if x = 3 then (if l.field 0x20 4 = 0 then 0 else BitVec.ofNat 64 args) else if x = 4 then c.ctximg + 0x4F0000
          else if x = 5 then BitVec.ofNat 64 l.id else 0) ∧
        ∃ y, c.task = some y ∧ y.tenant = t ∧ y.launch = l.id ∧ y.ticket = BitVec.ofNat 64 v ∧ y.launchid = BitVec.ofNat 64 l.id ∧
          y.scratch = l.field 0x14 4 ∧ y.gang = false

/-! ## The host and the management core -/

/-- RMA and interrupts (R328, R387-R389): a write within 1 MiB is performed where every page translates, at a notify address as a kick, which fails where the word cannot be written, a read returns the bytes, an atomic
returns the old word, every other request completes as failed with nothing changed, and an acknowledgement frees the oldest interrupt's place. -/
def Obligations.RemoteMemoryAccessCompletes : Prop :=
  ∀ (s : State) (t port : Nat) (va : Word) (data : List Byte) (n : Nat) (op : RmaOp) (x y : Word), s.wf = true →
    let fails := fun i : Instr => exec i s = .next { s with out := s.out ++ [.completion false []] }
    let place := s.rmaPlace t port
    let target := s.translate place t .store true va
    let word := s.translate place t .atomic true va
    let mapped := ∃ p, target = .ok p ∧ p.attr ≠ .remote
    let kick := data.length = 8 ∧ mapped ∧ ∃ q, s.queueAt t va = some q
    (∀ q, data.length = 8 → mapped → s.queueAt t va = some q →
      let u := s.fillTlb place t .store va
      let count := BitVec.ofNat 64 (ofBytes data)
      let tells := fun z : State => exec (.rmaWrite ⟨t, port⟩ va data) s = .next { z with out := z.out ++ [.completion true []] }
      (q.mapped = true → tells (u.notifySlot t q.number count)) ∧
      (q.mapped = false → match u.placeWrite place t true q.notify (toBytes 8 count.toNat) with
        | .ok z => tells (z.kickQueue t q.number)
        | .error _ => fails (.rmaWrite ⟨t, port⟩ va data))) ∧
    (data ≠ [] → (∃ c, target = .error c) → fails (.rmaWrite ⟨t, port⟩ va data)) ∧
    (¬ kick → 2 ^ 20 < data.length ∨ s.hostWrite place t va data = none → fails (.rmaWrite ⟨t, port⟩ va data)) ∧
    (¬ kick → data ≠ [] → va.toNat % 128 + data.length ≤ 128 → ∀ p, target = .ok p → p.attr ≠ .remote →
      (p.pa + data.length - 1) / 128 = p.pa / 128 → s.fillKeeps t (p.pa / 128) p.zero →
      Completes (exec (.rmaWrite ⟨t, port⟩ va data) s) fun z =>
        (∀ k, k < data.length → some (z.homeByte (p.pa + k)) = data[k]?) ∧
        (∀ a, ¬ (p.pa ≤ a ∧ a < p.pa + data.length) → z.homeByte a = s.homeByte a) ∧ z.out = s.out ++ [.completion true []] ∧
        z.tenants = s.tenants ∧ z.ctx = s.ctx ∧ z.others = s.others) ∧
    (2 ^ 20 < n → fails (.rmaRead ⟨t, port⟩ va n)) ∧
    (n ≤ 2 ^ 20 → match s.placeReadSpan place t true va (n / 128 + 2) n with
      | .ok bs => exec (.rmaRead ⟨t, port⟩ va n) s = .next { s with out := s.out ++ [.completion true bs] }
      | .error _ => fails (.rmaRead ⟨t, port⟩ va n)) ∧
    (va.toNat % 8 ≠ 0 ∨ (∃ c, word = .error c) → fails (.rmaAtomic ⟨t, port⟩ va op x y)) ∧
    (va.toNat % 8 = 0 → ∀ p, word = .ok p → p.attr ≠ .remote → s.lineError p.pa 8 p.zero = none → (p.pa + 7) / 128 = p.pa / 128 →
      s.fillKeeps t (p.pa / 128) p.zero → Completes (exec (.rmaAtomic ⟨t, port⟩ va op x y) s) fun z =>
        let old := (List.range 8).map fun k => s.homeByte (p.pa + k)
        let v := BitVec.ofNat 64 (ofBytes old)
        let w := match op with
          | .add => v + x
          | .swap => x
          | .cas => if v = y then x else v
        (∀ k, k < 8 → z.homeByte (p.pa + k) = w.extractLsb' (8 * k) 8) ∧
        (∀ a, ¬ (p.pa ≤ a ∧ a < p.pa + 8) → z.homeByte a = s.homeByte a) ∧ z.out = s.out ++ [.completion true old] ∧
        z.tenants = s.tenants ∧ z.ctx = s.ctx ∧ z.others = s.others) ∧
    Completes (exec (.interruptDeliveryAck t) s) fun z =>
      z = { s with tenants := z.tenants } ∧ (z.tenant t).pendInts = ((s.tenant t).pendInts.drop 1) ∧
      ∀ u, u ≠ t → z.tenant u = s.tenant u

/-- Requests of tenants and windows (R374, R376, R382, R390): create, destroy, and set a window, each by the operator's key; a destroyed
tenant's cores are as after reset and the memory of its windows reads as zero, as does what another tenant's window covered before it was
revoked in a window that takes it; a revoked window leaves no cached translation. The layout of the signed operands (log 25), that a request's
sequence is recorded only where it is done and that tenants extend measurement register 2 alone (log 48), and when a revoked range is cleared
(log 86), are the model's choices. -/
def Obligations.TenantsAreMadeAndCleared : Prop :=
  ∀ (s : State) (h : MgmtHeader) (r : TenantReq) (i : Nat) (w : Window),
    let a := s.tenant h.tenant
    let lives := ∃ b, findTenant h.tenant s.tenants = some b
    let others := fun t : State => ∀ u, u ≠ h.tenant → t.tenant u = { s.tenant u with stale := (t.tenant u).stale }
    let rest := (a.windows.filter fun x => x.1 != i).map (·.2)
    let old := (lookup? i a.windows).toList
    Answers s (.createTenant h r) h 0x0001 .operator (tenantReqBytes r) [] (s.tenantOk h.tenant r = true) (fun t =>
      let b := t.tenant h.tenant
      b.id = h.tenant ∧ b.cores = r.cores ∧ b.wayMask = r.wayMask ∧ b.groups = r.groups ∧ b.capSlots = r.capSlots ∧
      b.windows.map (·.2) = r.windows ∧ b.keys = [r.key] ∧ b.mustSign = r.mustSign ∧ b.endpoints = r.endpoints ∧
      b.spbase = BitVec.ofNat 64 r.spbase ∧ b.launches = [] ∧ b.queues = [] ∧ others t ∧
      (∀ k ∈ r.cores, t.core k = { Core.reset with l1Kib := r.l1Kib }) ∧
      ∀ m, m ≠ 2 → t.measures.toList[m]? = s.measures.toList[m]?) ∧
    Answers s (.destroyTenant h) h 0x0002 .operator [] [] lives (fun t =>
      findTenant h.tenant t.tenants = none ∧
      (∀ k ∈ a.cores, t.core k = { Core.reset with stopped := (s.core k).stopped }) ∧
      ((s.allCtx.map Ctx.agent).Nodup → ∀ c ∈ t.allCtx, ∀ id k, c.agent = .ctx id → c.task = some k → k.tenant ≠ h.tenant) ∧ (∀ c ∈ t.chains, c.tenant ≠ h.tenant) ∧
      (∀ f ∈ t.flights, f.tenant ≠ h.tenant) ∧
      ∀ x ∈ a.windows, x.2.dbase % 65536 = 0 → ∀ pa, x.2.dbase ≤ pa → pa < x.2.dbase + x.2.size → t.homeByte pa = 0) ∧
    Answers s (.setWindow h i none) h 0x0003 .operator (toBytes 1 i ++ List.replicate 32 0) [] (lives ∧ i < 16) (fun t =>
      t.tenant h.tenant = { a with
        windows := a.windows.filter fun x => x.1 != i, revoked := a.revoked ++ old
        stale := a.stale ++ old.map fun x => (x.dbase, x.dbase + x.size) } ∧ (∀ u, u ≠ h.tenant → t.tenant u = s.tenant u) ∧
      (∀ k, t.core k = { s.core k with tlb := (t.core k).tlb, micro := (t.core k).micro }) ∧
      (∀ x ∈ old, ∀ k, ∀ e ∈ (t.core k).tlb.leaves, e.tenant = h.tenant → e.window ≠ some x) ∧
      t = { s with tenants := t.tenants, sequences := t.sequences, out := t.out, cores := t.cores, ioTlb := t.ioTlb }) ∧
    Answers s (.setWindow h i (some w)) h 0x0003 .operator (toBytes 1 i ++ windowBytes w) []
      (lives ∧ i < 16 ∧ s.windowFree h.tenant a.groups rest w = true) (fun t =>
        t.tenant h.tenant = { a with
          windows := (a.windows.filter fun x => x.1 != i) ++ [(i, w)], revoked := a.revoked ++ old
          stale := (t.tenant h.tenant).stale } ∧ others t ∧
        ∀ b ∈ s.tenants, b.id ≠ h.tenant → ∀ x ∈ b.stale, x.1 % 128 = 0 → ∀ pa, x.1 ≤ pa → pa < x.2 → w.dbase ≤ pa →
          pa < w.dbase + w.size → t.homeByte pa = 0)

/-- Requests of a tenant's queues, chains, keys and endpoints (R327, R330, R353, R362, R374, R390): each is done for a legal record and refused
else. The layout of the signed operands (log 25), and that an active queue is refused, a new one starts at consumed 0, a key of a known id
replaces the old one, and a refused request records no sequence (log 48), are the model's choices. -/
def Obligations.TenantResourcesAreConfigured : Prop :=
  ∀ (s : State) (h : MgmtHeader) (n port : Nat) (qr : QueueReq) (cr : ChainReq) (kid : Word) (bs : List Byte),
    let t := h.tenant
    let a := s.tenant t
    let lives := ∃ b, findTenant t s.tenants = some b
    let tells := fun (i : Instr) (op : Nat) (operands : List Byte) (legal : Prop) (p : State → Prop) =>
      lives → Answers s i h op .tenant operands [] legal fun u => p u ∧ ∀ o, o ≠ t → u.tenant o = s.tenant o
    let active := ∃ q, s.queue t n = some q ∧ q.state ≠ .off
    let chain := ∃ c, s.chainOn t n = some c
    let faulted := ∃ c, s.chainOn t n = some c ∧ c.faulted = true
    let apart := fun k : Word × List Byte => k.1 ≠ kid
    let handler := fun tag : Nat => Agent.handler t n tag
    tells (.configureQueue h n qr) 0x0010 (toBytes 8 n ++ queueReqBytes qr) (n < 64 ∧ queueReqOk qr = true ∧ ¬ active) (fun u =>
      u.queueHas t n fun q => q = { number := n, base := BitVec.ofNat 64 qr.base, lslots := qr.lslots, device := qr.kind == 1, fvec := qr.fvec
                                    notify := BitVec.ofNat 64 qr.notify, state := .idle, consumed := 0, produced := 0, mapped := false
                                    kicked := 0 }) ∧
    (lives → Answers s (.destroyQueue h n) h 0x0011 .tenant (toBytes 8 n) [] active fun u => u.queueHas t n fun q => q.state = .drain) ∧
    tells (.buildChain h cr) 0x0020 (chainReqBytes cr) (s.chainOk t cr = true) (fun u =>
      u.chains = s.chains ++ [{ tenant := t, slice := cr.slice, first := cr.first, rods := cr.rods, fvec := cr.fvec
                                tags := cr.tags.map (BitVec.ofNat 64) }]) ∧
    tells (.freeChain h n) 0x0021 (toBytes 8 n) chain (fun u =>
      u.chainOn t n = none ∧ ∀ tag, (u.getCtx (handler tag)).task = none ∧ (u.getCtx (handler tag)).hold = .idle) ∧
    tells (.retryChain h n) 0x0022 (toBytes 8 n) faulted (fun u => u.chainOn t n ≠ none ∧
      (∀ c, u.chainOn t n = some c → c.faulted = false ∧ c.fault = none) ∧
      ∀ c tag p m entry, s.chainOn t n = some c → c.fault = some (tag, p) → (s.getCtx (handler tag)).message = some m →
        c.tags[tag]? = some entry → (u.getCtx (handler tag)).hold = .run ∧ (u.getCtx (handler tag)).pc = entry ∧
          (u.getCtx (handler tag)).message = some m) ∧
    tells (.discardMessage h n) 0x0023 (toBytes 8 n) faulted (fun u => u.chainOn t n ≠ none ∧
      (∀ c, u.chainOn t n = some c → c.faulted = false ∧ c.fault = none) ∧
      ∀ c tag p, s.chainOn t n = some c → c.fault = some (tag, p) →
        (u.getCtx (handler tag)).hold = .idle ∧ (u.getCtx (handler tag)).message = none) ∧
    tells (.registerKey h kid bs) 0x0030 (toBytes 8 kid.toNat ++ bs)
      (bs.length = 32 ∧ (a.keys.filter fun k => k.1 != kid).length < 8) (fun u =>
        ∀ k, k ∈ (u.tenant t).keys ↔ (k ∈ a.keys ∧ apart k) ∨ k = (kid, bs)) ∧
    tells (.removeKey h kid) 0x0031 (toBytes 8 kid.toNat) (∃ k ∈ a.keys, ¬ apart k) (fun u =>
      ∀ k, k ∈ (u.tenant t).keys ↔ k ∈ a.keys ∧ apart k) ∧
    tells (.configureEndpoint h n port bs) 0x0040 (toBytes 8 n ++ toBytes 8 port ++ bs) (n < a.endpoints ∧ n < 64 ∧ port < 8) (fun u =>
      ∀ p, p ∈ (u.tenant t).ports ↔ (p ∈ a.ports ∧ p.1 ≠ n) ∨ p = (n, port, bs))

/-- Microcode, classes, attestation and objects (R53, R92, R93, R95, R390-R392): a bundle that passes waits until no task runs and no image
stands in a routine; the accepted classes and the report are returned; an opcode of no row gets status 3; without good firmware only the
two read requests are answered, with status 2. That a bundle extends measurement register 1 alone and that a refused request records no sequence
(log 48), and the number of a loaded object's handle and the loader's corners (log 15), are the model's choices. -/
def Obligations.FirmwareAnswersItsRequests : Prop :=
  ∀ (s : State) (h : MgmtHeader) (op : Nat) (bs file : List Byte) (base : Word) (templates : List (Word × Nat)),
    let known := [0x0001, 0x0002, 0x0003, 0x0010, 0x0011, 0x0020, 0x0021, 0x0022, 0x0023, 0x0030, 0x0031, 0x0040, 0x0050, 0x0051, 0x0060]
    let reply := fun (status : Nat) =>
      (.next { s with out := s.out ++ [.response (BitVec.ofNat 64 h.seq) status []] } : Result)
    let quiet := ∀ c ∈ s.allCtx, (¬ ∃ id k, c.agent = .ctx id ∧ c.task = some k ∧ c.isSaved = false) ∧ c.routine = none ∧
      c.userRtn = none ∧ c.hndRtn = none
    let loads := exec (.loadObject h.tenant ⟨file, templates⟩ base) s
    let lives := ∃ b, findTenant h.tenant s.tenants = some b
    let tells := fun (status handle : Nat) (data : List Byte) => loads = .next { s with out := s.out ++ [.loaded status handle data] }
    Answers s (.loadMicrocodeBundle h bs) h 0x0050 .operator bs [] (∃ b, parseBundle bs = some b)
      (fun t => t.newBundle = parseBundle bs ∧ t.bundle = s.bundle ∧ ∀ m, m ≠ 1 → t.measures.toList[m]? = s.measures.toList[m]?) ∧
    (∀ b, s.newBundle = some b → quiet →
      exec .microcodeInstall s = .next { s with bundle := b, newBundle := none, classes := acceptedFor b }) ∧
    (s.newBundle = none ∨ ¬ quiet → exec .microcodeInstall s = .next s) ∧
    Answers s (.readAcceptedClasses h) h 0x0051 .either [] (classBytes s.classes) True
      (fun t => t = { s with sequences := t.sequences, out := t.out }) ∧
    Answers s (.attest h bs) h 0x0060 .either bs (s.report bs ++ Config.identitySign (s.report bs)) (bs.length = 32)
      (fun t => t = { s with sequences := t.sequences, out := t.out }) ∧
    (s.firmware = false → exec (.readAcceptedClasses h) s = reply 2 ∧ exec (.attest h bs) s = reply 2 ∧
      exec (.loadMicrocodeBundle h bs) s = .next s) ∧
    (s.firmware = true → op ∉ known → exec (.unknownOpcode h op) s = reply 3) ∧
    (s.firmware = false ∨ op ∈ known → exec (.unknownOpcode h op) s = .next s) ∧
    (¬ lives ∨ s.firmware = false → loads = .next s) ∧
    (lives → s.firmware = true →
      (∀ e, s.objectStatus h.tenant file = some e → tells e 0 []) ∧
      (s.objectStatus h.tenant file = none →
        (chooseText s.classes file = none → sectionOf file 7 = none → tells 2 0 []) ∧
        (chooseText s.classes file = none → sectionOf file 7 ≠ none → tells 1 0 (classBytes s.classes)) ∧
        ∀ i, chooseText s.classes file = some i → match s.loadSections h.tenant file i base.toNat templates with
          | .error e => tells e 0 []
          | .ok (id, u) => id = (s.tenant h.tenant).code.length + 1 ∧
              loads = .next { u with out := u.out ++ [.loaded 0 id []] } ∧
              (u.tenant h.tenant).code.length = (s.tenant h.tenant).code.length + 1))

/-! ## The module -/

/-- Power-on, time, temperature and supplies (R20, R391, R393, R420): power-on leaves the state after reset and runs firmware that passes its
check, whose measure goes to register 0 (log 48: the model's choice, and so are the other values after power-on, log 1); a thermal step lowers
the die's clock and tells each tenant with a core on the die by one interrupt (of vector rvec and kind 4: the model's choice, log 42). The loss of a compute die
(R169, R423, R424): its cores run nothing any more, no task is left on it, and while another die lives no line has its home there; a die
that is lost already, or that the package does not have, changes nothing. -/
def Obligations.ModuleEventsAct : Prop :=
  (∀ (s : State) (ns : Word) (die : Nat) (up : Bool),
    (Completes (exec .powerOn s) fun t =>
      t.firmware = Config.sigValid Config.vendorKey Config.flashImage Config.flashSignature ∧
      t = { State.reset with
        moves := s.moves, out := s.out, linkUp := s.linkUp, firmware := t.firmware, measures := t.measures, classes := t.classes } ∧
      (t.firmware = true → t.classes = acceptedFor State.reset.bundle ∧
        t.measures.toList[0]? = some (sha256 (List.replicate 32 0 ++ sha256 Config.flashImage))) ∧
      (t.firmware = false → t.classes = [] ∧ t.measures = State.reset.measures)) ∧
    exec (.timeBaseSync ns) s = .next { s with now := ns } ∧
    exec (.railOutOfRange up) s = .next { s with linkUp := up } ∧
    ((s.tenants.map (·.id)).Nodup → Completes (exec (.thermalClockStep die) s) fun t =>
      (∀ d, d < 4 → t.clockSteps.toList[d]? = some ((s.clockSteps.toList[d]?).getD 0 + if d = die then 1 else 0)) ∧
      (∀ a ∈ s.tenants, (∀ k ∈ a.cores, k / 48 ≠ die) → t.tenant a.id = a) ∧
      (∀ a ∈ s.tenants, (∃ k ∈ a.cores, k / 48 = die) → t.tenant a.id =
        if a.pendInts.length < 1024 then { a with
            pendInts := a.pendInts ++
              [{ vector := a.rvec.toNat, kind := 4, lost := a.lostInts, status := 0, now := s.now, source := 0 }]
            lostInts := 0 }
        else { a with lostInts := a.lostInts + 1 }) ∧
      t = { s with clockSteps := t.clockSteps, tenants := t.tenants, out := t.out })) ∧
  ∀ (s : State) (die : Nat),
    (4 ≤ die ∨ die ∈ s.diesLost → exec (.dieLoss die) s = .next s) ∧
    (die < 4 → die ∉ s.diesLost → Completes (exec (.dieLoss die) s) fun t =>
      t.diesLost = s.diesLost ++ [die] ∧ (∀ k, k / 48 = die → (t.core k).stopped = true) ∧
      (∀ k, k / 48 ≠ die → (t.core k).stopped = (s.core k).stopped) ∧
      (∀ c ∈ t.allCtx, ∀ id, c.agent = .ctx id → id < 1536 → id / 384 = die → c.task = none) ∧
      (∀ c ∈ t.chains, c.slice / 48 ≠ die) ∧
      ((∃ d, d < 4 ∧ d ≠ die ∧ d ∉ s.diesLost) → ∀ line, t.homeSlice line / 48 ≠ die) ∧
      t.now = s.now ∧ t.bundle = s.bundle ∧ t.moves = s.moves)

/-- The module right after reset (R169, R391, R420): memory reads as zero, every line has the home of the first HomeMap, no firmware runs, and
no context has a task; that the registers are zero and an L1 has 512 KiB where the spec gives no value (log 1), and that the bundle's directory is
empty (log 50), are the model's choices. -/
def Obligations.ResetValues : Prop :=
  State.reset.wf = true ∧ (∀ pa, State.reset.homeByte pa = 0) ∧ (∀ g scope pa, State.reset.readByte g scope pa = 0) ∧
  (∀ line, State.reset.homeSlice line = foldLine line % 3072 % 192) ∧
  (∀ g, (State.reset.getCtx g).task = none ∧ (State.reset.getCtx g).hold = .idle ∧ ∀ x, (State.reset.getCtx g).getX x = 0) ∧
  (∀ k, State.reset.core k = Core.reset) ∧ (∀ k, (State.reset.core k).l1Kib = 512) ∧ State.reset.firmware = false ∧
  State.reset.tenants = [] ∧ State.reset.chains = [] ∧ State.reset.bundle.id = 3 ∧ State.reset.bundle.entries = [] ∧
  (∀ m ∈ State.reset.measures.toList, m = List.replicate 32 0)

/-! ## Steps -/

/-- A step (R31, R47, R130, R338): with nothing on the agenda and a context that may run, the bytes fetched at its pc decode to an
instruction, and the step is `exec` of it and what follows a word; bytes that decode to nothing are ILLOP, or at level U PRIV where they
name a system register whatever their zero field holds (log 37); a fetch takes the bytes that the
home slice of the pc holds; an event on the agenda is `exec` of the event (log 2, log 5). -/
def Obligations.StepRunsTheDecodedInstruction : Prop :=
  ∀ (s u : State) (bs rest : List Byte) (i : Instr),
    (∀ ms, s.moves = .event i :: ms → step s = exec i { s with moves := ms }) ∧
    (s.moves = [] → s.canRun s.ctx = true → s.ctx.routine = none → s.ctx.pc.toNat ≠ 0x00FFFFFFFFFFF000 →
      s.fetchBytes = (.ok bs, u) →
      (decode bs = .ok (i, rest) → (∀ id, u.ctx.agent = .ctx id → step s = onNext State.finish (exec i u)) ∧
        (∀ a b c, u.ctx.agent = .handler a b c → step s =
          onNext State.finish (if handlerMay i then exec i u else .next (u.raise .illop 0)))) ∧
      let w := ofBytes (bs.take 4)
      let system := w / 2 ^ 26 = 0x17 ∧ 0x100 ≤ w % 1024 ∧ w / 1024 % 4 < 2
      (∀ e id, decode bs = .error e → s.ctx.agent = .ctx id → system → s.atUser → step s = .next (u.raise .priv 0).finish) ∧
      (∀ e, decode bs = .error e → ¬ (system ∧ s.atUser) → step s = .next (u.raise .illop 0).finish)) ∧
    (s.moves = [] → s.canRun s.ctx = true → ∀ q, s.ctx.routine = some q → q.off < q.words →
      q.read (s.routineWord q q.off) (s.routineWord q (q.off + 1)) = .ok i →
      (∀ id, s.ctx.agent = .ctx id → step s = onNext State.finish (exec i s))) ∧
    ∀ p, s.ctx.pc.toNat % 4 = 0 → s.translate (placeOf s.ctx.agent) (s.tenantOf s.ctx.agent) .fetch s.ctx.user s.ctx.pc = .ok p →
      p.pa % 128 = s.ctx.pc.toNat % 128 →
      (∀ e ∈ s.codeCache s.ctx.agent, ¬ (e.tenant = s.tenantOf s.ctx.agent ∧ e.line = s.ctx.pc.toNat / 128)) →
      s.lineError (p.pa - p.pa % 128) 128 p.zero = none → s.fillKeeps (s.tenantOf s.ctx.agent) (p.pa / 128) p.zero →
      (s.fetchWord s.ctx.pc).1 = .ok ((List.range 4).map fun k => s.homeByte (p.pa + k))

/-- Every step of every state answers a next state, no fault and no refusal, and keeps the canonical form of every memory: device memory, the
lines of the L2, each scratchpad and each vector image. -/
def Obligations.StepsGoOnAndKeepMemoryCanonical : Prop := ∀ s : State, Completes (step s) fun t => s.wf = true → t.wf = true

/-! ## Encoding -/

/-- Every well-formed instruction decodes from its own bytes with every operand at every value (R24-R46), and bytes that decode are those of the
instruction that they decode to, which is well formed (R47). -/
def Obligations.DecodingAndEncodingAgree : Prop :=
  (∀ (i : Instr) (rest : List Byte), i.isWord = true → i.wf = true → decode (encodeBytes i ++ rest) = .ok (i, rest)) ∧
  ∀ (bs rest : List Byte) (i : Instr), decode bs = .ok (i, rest) → i.wf = true ∧ bs = encodeBytes i ++ rest

/-- Words written out from the encodings of R33-R46 decode to the instructions that they stand for. -/
def Obligations.WordsOfTheTablesDecode : Prop :=
  let word := fun (n : Nat) (i : Instr) => decodeTableWord 32 n = some i
  word (0x01 * 2 ^ 26 + 5 * 2 ^ 19 + 6 * 2 ^ 12 + 7 * 2 ^ 5) (.add 5 6 7) ∧
  word (0x02 * 2 ^ 26 + 5 * 2 ^ 19 + 6 * 2 ^ 12 + 0xFFF) (.addi 5 6 0xFFF) ∧
  word (0x13 * 2 ^ 26 + 1 * 2 ^ 19 + 0x7FFFF) (.jal 1 0x7FFFF) ∧
  word (0x10 * 2 ^ 26 + 3 * 2 ^ 19 + 4 * 2 ^ 12 + 8) (.bge 3 4 8)
end

