-- ==== Sys2Proof/Laws/Memory.lean ====
section
/-! SUPPORT. The laws of memory in its canonical form: every operation keeps the form, a byte written reads back, and every other
byte reads as before. -/

namespace Sys2Proof.Machine

/-- A form that starts higher also starts lower. -/
theorem Memory.wfFrom_mono {m : Memory} {lo hi : Nat} (h : lo ≤ hi) (w : Memory.wfFrom hi m = true) : Memory.wfFrom lo m = true := by
  cases m with
  | nil => rfl
  | cons c t => obtain ⟨k, b⟩ := c; simp [Memory.wfFrom] at w ⊢; exact ⟨⟨by omega, w.1.2⟩, w.2⟩

/-- Below its first address a memory reads as zero. -/
theorem Memory.read_below {m : Memory} {lo a : Nat} (w : Memory.wfFrom lo m = true) (h : a < lo) : m.read a = 0 := by
  cases m with
  | nil => rfl
  | cons c t =>
    obtain ⟨k, b⟩ := c
    simp [Memory.wfFrom] at w
    have h1 : k ≠ a := by omega
    have h2 : a < k := by omega
    simp [Memory.read, h1, h2]

/-- A write keeps the form from any address below its own. -/
theorem Memory.wfFrom_write {m : Memory} {lo a : Nat} {b : Byte} (w : Memory.wfFrom lo m = true) (h : lo ≤ a) :
    Memory.wfFrom lo (m.write a b) = true := by
  induction m generalizing lo with
  | nil => by_cases hb : b = 0#8 <;> simp [Memory.write, Memory.wfFrom, hb, h]
  | cons c t ih =>
    obtain ⟨k, c⟩ := c
    simp only [Memory.wfFrom, Bool.and_eq_true, decide_eq_true_eq] at w
    obtain ⟨⟨h1, h2⟩, h3⟩ := w
    replace h2 : _ ≠ 0#8 := h2
    unfold Memory.write
    by_cases hak : a < k
    · by_cases hb : b = 0#8
      · simp [hak, hb, Memory.wfFrom, h1, h2, h3]
      · have : a + 1 ≤ k := hak
        simp [hak, hb, Memory.wfFrom, h, h2, h3, this]
    · by_cases e : a = k
      · subst e
        by_cases hb : b = 0#8
        · simp [hb, Memory.wfFrom_mono (Nat.le_succ_of_le h) h3]
        · simp [hb, Memory.wfFrom, h, h3]
      · simp [hak, e, Memory.wfFrom, h1, h2, ih h3 (by omega)]

/-- A write keeps the canonical form. -/
theorem Memory.wf_write {m : Memory} {a : Nat} {b : Byte} (w : m.wf = true) : (m.write a b).wf = true :=
  Memory.wfFrom_write w (Nat.zero_le a)

/-- What a memory reads after a write. -/
theorem Memory.read_writeFrom {m : Memory} {lo a x : Nat} {b : Byte} (w : Memory.wfFrom lo m = true) :
    (m.write a b).read x = if x = a then b else m.read x := by
  induction m generalizing lo with
  | nil =>
    by_cases hb : b = 0#8 <;> by_cases hx : x = a <;> simp [Memory.write, Memory.read, hb, hx]
    intro h; exact absurd h.symm hx
  | cons c t ih =>
    obtain ⟨k, c⟩ := c
    simp only [Memory.wfFrom, Bool.and_eq_true, decide_eq_true_eq] at w
    obtain ⟨⟨h1, h2⟩, h3⟩ := w
    replace h2 : _ ≠ 0#8 := h2
    unfold Memory.write
    by_cases hak : a < k
    · by_cases hb : b = 0#8
      · subst hb
        by_cases hx : x = a
        · subst hx; have : k ≠ x := by omega
          simp [hak, Memory.read, this]
        · simp [hak, hx]
      · by_cases hx : x = a
        · subst hx; simp [hak, hb, Memory.read]
        · by_cases hxa : x < a
          · have h4 : k ≠ x := by omega
            have h5 : x < k := by omega
            simp [hak, hb, Memory.read, hx, Ne.symm hx, hxa, h4, h5]
          · simp [hak, hb, Memory.read, hx, Ne.symm hx, hxa]
    · by_cases e : a = k
      · subst e
        by_cases hx : x = a
        · subst hx
          by_cases hb : b = 0#8
          · simp [hb, Memory.read_below h3 (Nat.lt_succ_self x)]
          · simp [hb, Memory.read]
        · by_cases hb : b = 0#8
          · by_cases hxa : x < a
            · have := Memory.read_below h3 (show x < a + 1 by omega)
              simp [hb, Memory.read, hx, Ne.symm hx, hxa, this]
            · simp [hb, Memory.read, hx, Ne.symm hx, hxa]
          · simp [hb, Memory.read, hx, Ne.symm hx]
      · by_cases hxk : k = x
        · subst hxk
          have : k ≠ a := fun h => e h.symm
          simp [hak, e, Memory.read, this]
        · by_cases hlt : x < k
          · have : x ≠ a := by omega
            simp [hak, e, Memory.read, hxk, hlt, this]
          · simp [hak, e, Memory.read, hxk, hlt, ih h3]

/-- A byte written reads back, and every other byte reads as before. -/
theorem Memory.read_write {m : Memory} {a x : Nat} {b : Byte} (w : m.wf = true) :
    (m.write a b).read x = if x = a then b else m.read x := Memory.read_writeFrom w

/-- Writing cells keeps the canonical form. -/
theorem Memory.wf_writeCells {m : Memory} {cs : List Host.Cell} (w : m.wf = true) : (m.writeCells cs).wf = true := by
  induction cs generalizing m with
  | nil => exact w
  | cons c t ih => exact ih (Memory.wf_write w)

/-- Writing bytes keeps the canonical form. -/
theorem Memory.wf_writeBytes {m : Memory} {a : Nat} {bs : List Byte} (w : m.wf = true) : (m.writeBytes a bs).wf = true := by
  induction bs generalizing m a with
  | nil => exact w
  | cons b t ih => exact ih (Memory.wf_write w)

/-- What a memory reads after bytes were written. -/
theorem Memory.read_writeBytes {m : Memory} {a x : Nat} {bs : List Byte} (w : m.wf = true) :
    (m.writeBytes a bs).read x = if a ≤ x ∧ x < a + bs.length then (bs[x - a]?).getD 0 else m.read x := by
  induction bs generalizing m a with
  | nil => simp [Memory.writeBytes] <;> omega
  | cons b t ih =>
    simp only [Memory.writeBytes, List.length_cons]
    rw [ih (Memory.wf_write w), Memory.read_write w]
    by_cases hx : x = a
    · subst hx
      have h1 : ¬ (x + 1 ≤ x ∧ x < x + 1 + t.length) := by omega
      have h2 : x ≤ x ∧ x < x + (t.length + 1) := by omega
      rw [if_neg h1, if_pos rfl, if_pos h2]; simp
    · by_cases h : a + 1 ≤ x ∧ x < a + 1 + t.length
      · have h2 : a ≤ x ∧ x < a + (t.length + 1) := by omega
        rw [if_pos h, if_pos h2]
        have : x - a = (x - (a + 1)) + 1 := by omega
        simp [this]
      · have h2 : ¬ (a ≤ x ∧ x < a + (t.length + 1)) := by omega
        rw [if_neg h, if_neg hx, if_neg h2]

/-- Addresses that no cell names read as before. -/
theorem Memory.read_writeCells_other {m : Memory} {cs : List Host.Cell} {x : Nat} (w : m.wf = true) (h : ∀ c ∈ cs, c.1 ≠ x) :
    (m.writeCells cs).read x = m.read x := by
  induction cs generalizing m with
  | nil => rfl
  | cons c t ih =>
    obtain ⟨a, b⟩ := c
    have hx : x ≠ a := fun e => h (a, b) (List.mem_cons_self ..) e.symm
    simp only [Memory.writeCells]
    rw [ih (Memory.wf_write w) (fun c hc => h c (List.mem_cons_of_mem _ hc)), Memory.read_write w, if_neg hx]

/-- Keeping some cells keeps the form. -/
theorem Memory.wfFrom_filter {m : Memory} {lo : Nat} (p : Host.Cell → Bool) (w : Memory.wfFrom lo m = true) :
    Memory.wfFrom lo (List.filter p m) = true := by
  induction m generalizing lo with
  | nil => rfl
  | cons c t ih =>
    obtain ⟨k, b⟩ := c
    simp only [Memory.wfFrom, Bool.and_eq_true, decide_eq_true_eq] at w
    obtain ⟨⟨h1, h2⟩, h3⟩ := w
    replace h2 : _ ≠ 0#8 := h2
    by_cases hp : p (k, b) = true
    · simp [List.filter, hp, Memory.wfFrom, h1, h2, ih h3]
    · simp [List.filter, hp, ih (Memory.wfFrom_mono (by omega : lo ≤ k + 1) h3)]

/-- Clearing a run keeps the canonical form. -/
theorem Memory.wf_clear {m : Memory} {lo hi : Nat} (w : m.wf = true) : (m.clear lo hi).wf = true := Memory.wfFrom_filter _ w

/-- What is left of a memory by an address test reads as before where the test holds, else as zero. -/
theorem Memory.read_filterFrom {m : Memory} {lo x : Nat} (p : Nat → Bool) (w : Memory.wfFrom lo m = true) :
    Memory.read (List.filter (fun c : Host.Cell => p c.1) m) x = if p x then m.read x else 0 := by
  induction m generalizing lo with
  | nil => simp [Memory.read]
  | cons c t ih =>
    obtain ⟨k, b⟩ := c
    simp only [Memory.wfFrom, Bool.and_eq_true, decide_eq_true_eq] at w
    obtain ⟨⟨h1, h2⟩, h3⟩ := w
    replace h2 : _ ≠ 0#8 := h2
    have below := fun h : x < k + 1 => Memory.read_below h3 h
    by_cases hk : k = x
    · subst hk
      by_cases hp : p k = true
      · simp [List.filter, hp, Memory.read]
      · simp [List.filter, hp, ih h3]
    · by_cases hlt : x < k
      · by_cases hp : p k = true
        · simp [List.filter, hp, Memory.read, hk, hlt]
        · simp [List.filter, hp, ih h3, Memory.read, hk, hlt, below (by omega)]
      · by_cases hp : p k = true
        · simp [List.filter, hp, Memory.read, hk, hlt, ih h3]
        · simp [List.filter, hp, Memory.read, hk, hlt, ih h3]

/-- A cleared run reads as zero, and every other byte as before. -/
theorem Memory.read_clear {m : Memory} {lo hi x : Nat} (w : m.wf = true) :
    (m.clear lo hi).read x = if x < lo ∨ hi ≤ x then m.read x else 0 := by
  unfold Memory.clear
  rw [Memory.read_filterFrom (fun a => decide (a < lo) || decide (hi ≤ a)) w]
  simp

/-- A slice keeps the form, counted from its start. -/
theorem Memory.wfFrom_shift {m : Memory} {lo d : Nat} (h : d ≤ lo) (w : Memory.wfFrom lo m = true) :
    Memory.wfFrom (lo - d) (m.map fun c => (c.1 - d, c.2)) = true := by
  induction m generalizing lo with
  | nil => rfl
  | cons c t ih =>
    obtain ⟨k, b⟩ := c
    simp only [Memory.wfFrom, Bool.and_eq_true, decide_eq_true_eq] at w
    obtain ⟨⟨h1, h2⟩, h3⟩ := w
    replace h2 : _ ≠ 0#8 := h2
    have := ih (by omega : d ≤ k + 1) h3
    rw [show k + 1 - d = k - d + 1 by omega] at this
    simp only [List.map_cons, Memory.wfFrom, this, Bool.and_eq_true, decide_eq_true_eq, and_true]
    exact ⟨by omega, h2⟩

/-- What a shifted memory reads. -/
theorem Memory.read_shift {m : Memory} {lo d x : Nat} (h : d ≤ lo) (w : Memory.wfFrom lo m = true) :
    Memory.read (m.map fun c => (c.1 - d, c.2)) x = m.read (x + d) := by
  induction m generalizing lo with
  | nil => rfl
  | cons c t ih =>
    obtain ⟨k, b⟩ := c
    simp only [Memory.wfFrom, Bool.and_eq_true, decide_eq_true_eq] at w
    obtain ⟨⟨h1, h2⟩, h3⟩ := w
    replace h2 : _ ≠ 0#8 := h2
    have := ih (by omega : d ≤ k + 1) h3
    simp only [List.map_cons, Memory.read, this]
    by_cases e : k = x + d
    · simp [e]
    · have e' : k - d ≠ x := by omega
      by_cases l : x + d < k
      · have l' : x < k - d := by omega
        simp [e, e', l, l']
      · have l' : ¬ x < k - d := by omega
        simp [e, e', l, l']

/-- The cells of a run keep the form from its start. -/
theorem Memory.wfFrom_run {m : Memory} {lo hi b : Nat} (w : Memory.wfFrom b m = true) :
    Memory.wfFrom lo (List.filter (fun c : Host.Cell => decide (lo ≤ c.1) && decide (c.1 < hi)) m) = true := by
  induction m generalizing b lo with
  | nil => rfl
  | cons c t ih =>
    obtain ⟨k, v⟩ := c
    simp only [Memory.wfFrom, Bool.and_eq_true, decide_eq_true_eq] at w
    obtain ⟨⟨h1, h2⟩, h3⟩ := w
    replace h2 : _ ≠ 0#8 := h2
    by_cases hp : lo ≤ k ∧ k < hi
    · have h4 := Memory.wfFrom_filter (fun c : Host.Cell => decide (lo ≤ c.1) && decide (c.1 < hi)) h3
      simp [List.filter, hp.1, hp.2, Memory.wfFrom, h2, h4]
    · have : (decide (lo ≤ k) && decide (k < hi)) = false := by simp; omega
      simp only [List.filter, this]
      exact ih h3

/-- A slice keeps the canonical form. -/
theorem Memory.wf_slice {m : Memory} {lo hi : Nat} (w : m.wf = true) : (m.slice lo hi).wf = true := by
  have := Memory.wfFrom_shift (Nat.le_refl lo) (Memory.wfFrom_run (lo := lo) (hi := hi) w)
  simpa [Memory.wf, Memory.slice] using this

/-- A slice reads as its memory does from its start on. -/
theorem Memory.read_slice {m : Memory} {lo hi x : Nat} (w : m.wf = true) :
    (m.slice lo hi).read x = if x + lo < hi then m.read (x + lo) else 0 := by
  unfold Memory.slice
  rw [Memory.read_shift (Nat.le_refl lo) (Memory.wfFrom_run w),
      Memory.read_filterFrom (fun a => decide (lo ≤ a) && decide (a < hi)) w]
  simp

/-- After reset the memory has its canonical form. -/
theorem State.reset_hbm_wf : State.reset.hbm.wf = true := rfl

end Sys2Proof.Machine
end

