-- ==== Sys2Proof/Laws/Caches.lean ====
section
/-! SUPPORT. What a fill of the L2 and of an L1, a store that leaves its core, and a filled translation cache change of what agents
read. -/

namespace Sys2Proof.Machine

/-- The byte that a core's L1 holds of an address, else what the home slice holds. -/
def State.near (s : State) (k pa : Nat) : Byte :=
  (((s.core k).l1Find (pa / 128)).bind fun e => lookup? (pa % 128) e.bytes).getD (s.homeByte pa)

/-- What an agent reads: a store of its core on its way, else what its core's L1 and the home slice hold, and what is pending of another
context above core scope only at the home slice (R153, R167, R168). -/
theorem State.readByte_eq (s : State) (g : Agent) (scope pa : Nat) : s.readByte g scope pa =
    match coreOf g with
    | none => s.homeByte pa
    | some k =>
      match youngestByte (fun f => f.leaves k) pa s.flights with
      | some (b, w) => if scope ≤ 1 ∨ w = g then b else s.homeByte pa
      | none =>
        if scope ≤ 1 then s.near k pa
        else
          match youngestByte (fun f => decide (f.stage = .toBuffer) && decide (coreOf f.agent = some k)) pa s.flights with
          | some (_, w) => if w = g then s.near k pa else s.homeByte pa
          | none => s.near k pa := by
  have hn : ∀ k, (match (match ((s.core k).l1Find (pa / 128)).bind fun e => lookup? (pa % 128) e.bytes with
      | some b => ByteSource.value b
      | none => ByteSource.home) with
      | .value b => b
      | _ => s.homeByte pa) = s.near k pa := by
    intro k
    unfold State.near
    cases ((s.core k).l1Find (pa / 128)).bind fun e => lookup? (pa % 128) e.bytes <;> rfl
  unfold State.readByte State.byteSource
  cases coreOf g with
  | none => rfl
  | some k =>
    dsimp only
    cases youngestByte (fun f => f.leaves k) pa s.flights with
    | some x => by_cases h : scope ≤ 1 ∨ x.2 = g <;> simp only [h, if_true, if_false]
    | none =>
      by_cases h : scope ≤ 1
      · simp only [h, if_true]; exact hn k
      · simp only [h, if_false]
        cases youngestByte (fun f => decide (f.stage = .toBuffer) && decide (coreOf f.agent = some k)) pa s.flights with
        | some x =>
          by_cases h : x.2 = g
          · simp only [h, if_true]; exact hn k
          · simp only [h, if_false]
        | none => exact hn k

/-- What an agent reads of an address depends on the stores in flight, the home slices, and, where no store of its core to the address is on
its way, on what the L1 of its core holds. -/
theorem State.readByte_congr' {s t : State} {pa : Nat} (hf : t.flights = s.flights) (hh : t.homeByte pa = s.homeByte pa)
    (hn : ∀ k, youngestByte (fun f => f.leaves k) pa s.flights = none → t.near k pa = s.near k pa) (g : Agent) (scope : Nat) :
    t.readByte g scope pa = s.readByte g scope pa := by
  simp only [State.readByte_eq, hf, hh]
  cases coreOf g with
  | none => rfl
  | some k =>
    dsimp only
    cases hy : youngestByte (fun f => f.leaves k) pa s.flights with
    | some x => rfl
    | none => simp only [hn k hy]

/-- The same for both streams of an agent above core scope. -/
theorem SameByte.of_near {s t : State} {pa : Nat} (hf : t.flights = s.flights) (hh : t.homeByte pa = s.homeByte pa)
    (hn : ∀ k, youngestByte (fun f => f.leaves k) pa s.flights = none → t.near k pa = s.near k pa) (g : Agent) : SameByte s t g pa := by
  have h := State.readByte_congr' hf hh hn g 2
  refine ⟨h, ?_⟩
  unfold State.scalarByte State.queuedByte
  rw [hf]
  exact congrArg _ h

/-- Memory behind stores that have not reached a home slice (R161). -/
theorem State.behind_wf {s : State} (h : s.hbm.wf = true) : s.behind.wf = true := by
  unfold State.behind
  generalize s.flights = l
  revert h
  generalize s.hbm = m
  induction l generalizing m with
  | nil => intro h; exact h
  | cons f t ih =>
    intro h
    refine ih _ ?_
    show (if f.toChip = true then m.writeCells f.bytes else m).wf = true
    split
    · exact Memory.wf_writeCells h
    · exact h

/-- What stands behind the L2 depends on memory and the stores in flight alone. -/
@[simp] theorem State.behind_l2 (s : State) (l : List L2Line) : ({ s with l2 := l } : State).behind = s.behind := rfl

/-- Where a tenant has a way free, nothing goes. -/
theorem State.l2Room_eq {s : State} {t line : Nat}
    (h : (s.l2.filter fun e => e.owner == t && homeSet e.line == homeSet line && s.homeSlice e.line == s.homeSlice line).length <
      max 1 (popcount 16 (s.tenant t).wayMask)) : s.l2Room t line = s := by
  simp only [State.l2Room, h, if_true]

/-- A fill of the L2 that keeps every line changes no byte that a home slice holds. -/
theorem State.homeByte_l2Fill {s : State} {t line : Nat} {z : Bool} (hw : s.hbm.wf = true) (h : s.fillKeeps t line z) (pa : Nat) :
    (s.l2Fill t line z).homeByte pa = s.homeByte pa := by
  unfold State.l2Fill
  cases e : s.l2Find line with
  | some x =>
    have hx : x.line = line := by
      have := List.find?_some e; simpa using this
    simp only [State.homeByte, State.l2Find, List.find?_cons, List.find?_filter]
    by_cases hp : pa / 128 = line
    · subst hp
      rw [hx]; simp [State.l2Find] at e; simp [e]
    · have h1 : (x.line == pa / 128) = false := by rw [hx]; simp; exact fun k => hp k.symm
      rw [h1]
      have h2 : (fun a : L2Line => (decide (a.line != line) : Bool) && decide ((a.line == pa / 128) = true)) =
          fun a => a.line == pa / 128 := by
        funext a
        by_cases q : a.line = pa / 128 <;> simp [q, hp]
      simp [h2]
      have h3 : (fun a : L2Line => !decide (a.line = line) && decide (a.line = pa / 128)) = fun a => a.line == pa / 128 := by
        funext a
        by_cases q : a.line = pa / 128 <;> simp [q, hp]
      rw [h3]
  | none =>
    have hk : z = false ∧ s.l2Room t line = s := by
      cases h with
      | inl h => simp [e] at h
      | inr h => exact ⟨h.1, State.l2Room_eq h.2⟩
    simp only [hk.1, hk.2]
    simp only [State.homeByte, State.l2Find, List.find?_cons]
    by_cases hp : pa / 128 = line
    · subst hp
      simp [State.l2Find] at e
      have h0 : s.l2.find? (fun x => x.line == pa / 128) = none := by simpa using e
      simp [h0, Memory.read_slice (State.behind_wf hw)]
      have h4 : pa % 128 + 128 * (pa / 128) < 128 * (pa / 128) + 128 := by omega
      have h5 : pa % 128 + 128 * (pa / 128) = pa := by omega
      rw [if_pos h4, h5]
    · have h1 : (line == pa / 128) = false := by simp; exact fun k => hp k.symm
      simp [h1]

/-- A fill of the L2 keeps what is in flight. -/
theorem State.l2Fill_frame (s : State) (t line : Nat) (z : Bool) :
    (s.l2Fill t line z).ctx = s.ctx ∧ (s.l2Fill t line z).flights = s.flights ∧ (s.l2Fill t line z).others = s.others := by
  unfold State.l2Fill State.l2Room State.l2Evict State.invalidateL1
  split
  · exact ⟨rfl, rfl, rfl⟩
  · dsimp only
    split
    · exact ⟨rfl, rfl, rfl⟩
    · split
      · split <;> exact ⟨rfl, rfl, rfl⟩
      · exact ⟨rfl, rfl, rfl⟩

/-- A fill that keeps every line evicts nothing, from any cache. -/
theorem State.l2Fill_cores {s : State} {t line : Nat} {z : Bool} (h : s.fillKeeps t line z) :
    (s.l2Fill t line z).cores = s.cores ∧ (s.l2Fill t line z).hbm = s.hbm := by
  unfold State.l2Fill
  cases e : s.l2Find line with
  | some x => exact ⟨rfl, rfl⟩
  | none =>
    cases h with
    | inl h => simp [e] at h
    | inr h => simp only [State.l2Room_eq h.2]; exact ⟨trivial, trivial⟩

/-! ## Cores -/

/-- The value of a key after an assignment. -/
theorem lookup?_assign {α : Type} (k j : Nat) (a : α) (l : List (Nat × α)) :
    lookup? j (assign k a l) = if j = k then some a else lookup? j l := by
  induction l with
  | nil => by_cases h : k = j <;> simp [assign, lookup?, h, eq_comm]
  | cons c t ih =>
    obtain ⟨x, b⟩ := c
    by_cases hx : x = k
    · subst hx
      by_cases h : x = j
      · subst h; simp [assign, lookup?]
      · have h' : j ≠ x := Ne.symm h
        simp [assign, lookup?, h, h']
    · by_cases h : x = j
      · subst h; simp [assign, lookup?, hx]
      · simp [assign, lookup?, hx, h, ih]

/-- A core after one was changed. -/
theorem State.core_mapCore (s : State) (k j : Nat) (f : Core → Core) :
    (s.mapCore k f).core j = if j = k then f (s.core k) else s.core j := by
  unfold State.mapCore State.setCore
  show (lookup? j (assign k (f (s.core k)) s.cores)).getD Core.reset = _
  rw [lookup?_assign]
  by_cases h : j = k <;> simp [h]
  rfl

/-- A core changed in its translation caches alone. -/
theorem State.mapTlb_frame (s : State) (k : Nat) (f : Core → Core)
    (hf : ∀ c, f c = { c with tlb := (f c).tlb, micro := (f c).micro }) :
    s.mapCore k f = { s with cores := (s.mapCore k f).cores, ioTlb := (s.mapCore k f).ioTlb } ∧
    ∀ i, (s.mapCore k f).core i =
      { s.core i with tlb := ((s.mapCore k f).core i).tlb, micro := ((s.mapCore k f).core i).micro } := by
  refine ⟨rfl, fun i => ?_⟩
  rw [State.core_mapCore]
  split
  · next h => subst h; exact hf _
  · rfl

/-- A filled translation cache changes nothing but the translation caches of one place. -/
theorem State.fillTlb_frame (s : State) (p : Place) (t : Nat) (acc : Access) (va : Word) :
    (s.fillTlb p t acc va) = { s with cores := (s.fillTlb p t acc va).cores, ioTlb := (s.fillTlb p t acc va).ioTlb } ∧
    ∀ k, (s.fillTlb p t acc va).core k = { s.core k with tlb := ((s.fillTlb p t acc va).core k).tlb,
                                                          micro := ((s.fillTlb p t acc va).core k).micro } := by
  unfold State.fillTlb
  cases p with
  | core k => exact State.mapTlb_frame s k _ fun c => rfl
  | io d => exact ⟨rfl, fun k => rfl⟩
  | span k i =>
    dsimp only
    split
    · exact ⟨rfl, fun k => rfl⟩
    · refine State.mapTlb_frame s k _ fun c => ?_
      split <;> rfl

/-- What an agent reads depends on the stores in flight, the lines of the L1s and the home slices alone. -/
theorem State.readByte_congr {s t : State} (hf : t.flights = s.flights) (hl : ∀ k n, (t.core k).l1Find n = (s.core k).l1Find n)
    (hh : ∀ pa, t.homeByte pa = s.homeByte pa) (g : Agent) (scope pa : Nat) : t.readByte g scope pa = s.readByte g scope pa :=
  State.readByte_congr' hf (hh pa) (fun k _ => by unfold State.near; rw [hl, hh]) g scope

/-- The same for both streams of an agent. -/
theorem SameByte.of_l1Find {s t : State} (hf : t.flights = s.flights) (hl : ∀ k n, (t.core k).l1Find n = (s.core k).l1Find n)
    (hh : ∀ pa, t.homeByte pa = s.homeByte pa) (g : Agent) (pa : Nat) : SameByte s t g pa :=
  SameByte.of_near hf (hh pa) (fun k _ => by unfold State.near; rw [hl, hh]) g

/-- An L1 holds the same lines once one of them is the most recently used (R167). -/
theorem Core.l1Find_l1Touch (c : Core) (line n : Nat) : (c.l1Touch line).l1Find n = c.l1Find n := by
  unfold Core.l1Touch
  cases e : c.l1Find line with
  | none => rfl
  | some x =>
    have hx : x.line = line := by have := List.find?_some e; simpa using this
    by_cases hp : n = line
    · subst hp
      simp only [Core.l1Find] at e ⊢
      simp [hx, e]
    · have h1 : ¬ line = n := fun k => hp k.symm
      have h2 : (fun a : L1Line => !decide (a.line = line) && decide (a.line = n)) = fun a => a.line == n := by
        funext a
        by_cases q : a.line = n <;> simp [q, hp]
      simp [Core.l1Find, List.find?_filter, hx, h1, h2]

/-- A filled translation cache changes no byte that an agent reads. -/
theorem State.readByte_fillTlb (s : State) (p : Place) (t : Nat) (acc : Access) (va : Word) (g : Agent) (scope pa : Nat) :
    (s.fillTlb p t acc va).readByte g scope pa = s.readByte g scope pa := by
  have h := s.fillTlb_frame p t acc va
  apply State.readByte_congr
  · rw [h.1]
  · intro k n; rw [h.2]; rfl
  · intro pa; rw [h.1]; rfl

/-- Nothing changes where nothing changes. -/
theorem OnlyCaches.rfl' (s : State) : OnlyCaches s s := ⟨rfl, fun _ => rfl⟩

/-- Changes of caches add up. -/
theorem OnlyCaches.trans {s t u : State} (a : OnlyCaches s t) (b : OnlyCaches t u) : OnlyCaches s u := by
  refine ⟨?_, fun k => ?_⟩
  · rw [b.1, a.1]
  · rw [b.2 k, a.2 k]

/-- A lookup in a list whose values were mapped. -/
theorem lookup?_mapVal {α : Type} (f : Nat → α → α) (k : Nat) (l : List (Nat × α)) :
    lookup? k (l.map fun c => (c.1, f c.1 c.2)) = (lookup? k l).map (f k) := by
  induction l with
  | nil => rfl
  | cons c t ih =>
    obtain ⟨j, a⟩ := c
    by_cases h : j = k
    · subst h; simp [lookup?]
    · simp [lookup?, h, ih]

/-- A core after every listed core was changed, where the change leaves a core as reset leaves it unchanged. -/
theorem State.core_mapCores (s : State) (f : Nat → Core → Core) (hf : ∀ k, f k Core.reset = Core.reset) (k : Nat) :
    ({ s with cores := s.cores.map fun c => (c.1, f c.1 c.2) } : State).core k = f k (s.core k) := by
  unfold State.core
  rw [lookup?_mapVal]
  cases lookup? k s.cores with
  | none => simp [hf]
  | some c => rfl

/-- A line dropped from L1s: nothing else of a core changes. -/
theorem State.invalidateL1_caches (s : State) (line : Nat) (x : Option Nat) : OnlyCaches s (s.invalidateL1 line x) := by
  let f : Nat → Core → Core := fun k c => if some k = x then c else { c with l1 := c.l1.filter fun e => e.line != line }
  have e : s.invalidateL1 line x = { s with cores := s.cores.map fun c => (c.1, f c.1 c.2) } := by
    unfold State.invalidateL1
    congr 1
    apply List.map_congr_left
    intro c _
    simp only [f]; split <;> rfl
  refine ⟨rfl, fun k => ?_⟩
  rw [e, State.core_mapCores s f (by intro k; simp only [f]; split <;> rfl)]
  simp only [f]; split <;> rfl

/-- A line written back and dropped. -/
theorem State.l2Evict_caches (s : State) (e : L2Line) : OnlyCaches s (s.l2Evict e) := by
  unfold State.l2Evict
  dsimp only
  split
  · exact OnlyCaches.trans (t := { s with l2 := _, hbm := _ }) ⟨rfl, fun _ => rfl⟩ (State.invalidateL1_caches _ _ _)
  · exact OnlyCaches.trans (t := { s with l2 := _ }) ⟨rfl, fun _ => rfl⟩ (State.invalidateL1_caches _ _ _)

/-- Other lines in the L2. -/
theorem State.setL2_caches (s : State) (l : List L2Line) : OnlyCaches s { s with l2 := l } := ⟨rfl, fun _ => rfl⟩

/-- Another L1 of a core. -/
theorem State.mapL1_caches (s : State) (k : Nat) (f : Core → Core) (hf : ∀ c, f c = { c with l1 := (f c).l1 }) :
    OnlyCaches s (s.mapCore k f) := by
  refine ⟨rfl, fun i => ?_⟩
  rw [State.core_mapCore]
  split
  · next h => subst h; rw [hf]
  · rfl

/-- A fill of the L2 changes caches and the memory behind them alone. -/
theorem State.l2Fill_caches (s : State) (t line : Nat) (z : Bool) : OnlyCaches s (s.l2Fill t line z) := by
  unfold State.l2Fill
  split
  · exact State.setL2_caches ..
  · have hr : OnlyCaches s (s.l2Room t line) := by
      unfold State.l2Room
      dsimp only
      split
      · exact OnlyCaches.rfl' s
      · split
        · exact State.l2Evict_caches _ _
        · exact OnlyCaches.rfl' s
    exact OnlyCaches.trans hr (State.setL2_caches ..)

/-- A fill of an L1 changes caches and the memory behind them alone. -/
theorem State.l1Fill_caches (s : State) (t k line : Nat) (z : Bool) : OnlyCaches s (s.l1Fill t k line z) := by
  unfold State.l1Fill
  dsimp only
  exact OnlyCaches.trans (State.l2Fill_caches s t line z)
    (OnlyCaches.trans (State.mapL1_caches _ _ _ fun c => rfl) (State.setL2_caches ..))

/-! ## Fills of an L1 -/

/-- The cells of consecutive bytes, looked up. -/
theorem lookup?_cellsAt (a i : Nat) (bs : List Byte) :
    lookup? i (cellsAt a bs) = if a ≤ i then bs[i - a]? else none := by
  induction bs generalizing a with
  | nil => simp [cellsAt, lookup?]
  | cons b t ih =>
    simp only [cellsAt, lookup?, ih]
    by_cases h : a = i
    · subst h; simp
    · by_cases h2 : a ≤ i
      · have h3 : a + 1 ≤ i := by omega
        have h4 : i - a = (i - (a + 1)) + 1 := by omega
        simp [h, h2, h3, h4]
      · have h3 : ¬ a + 1 ≤ i := by omega
        simp [h, h2, h3]

/-- A lookup in cells whose values were mapped. -/
theorem lookup?_map (f : Nat × Byte → Byte) (i : Nat) (l : List Host.Cell) :
    lookup? i (l.map fun c => (c.1, f c)) = (lookup? i l).map fun b => f (i, b) := by
  induction l with
  | nil => rfl
  | cons c t ih =>
    obtain ⟨k, b⟩ := c
    by_cases h : k = i
    · subst h; simp [lookup?]
    · simp [lookup?, h, ih]

/-- The bytes of a run at home. -/
theorem State.homeBytes_get (s : State) (pa n i : Nat) (h : i < n) : (s.homeBytes pa n)[i]? = some (s.homeByte (pa + i)) := by
  induction n generalizing pa i with
  | zero => omega
  | succ n ih =>
    cases i with
    | zero => simp [State.homeBytes]
    | succ i => simp [State.homeBytes, ih (pa + 1) i (by omega)]; congr 1; omega

/-- The first line of a list that was changed in fields other than its number. -/
theorem find?_map_line (l : List L2Line) (f : L2Line → L2Line) (hf : ∀ e, (f e).line = e.line) (n : Nat) :
    (l.map f).find? (fun e => e.line == n) = (l.find? fun e => e.line == n).map f := by
  induction l with
  | nil => rfl
  | cons c t ih =>
    by_cases h : c.line == n
    · simp [h, hf]
    · simp [h, hf, ih]

/-- Changing lines of the L2 in fields other than number and data changes no byte at home. -/
theorem State.homeByte_mapL2 (s : State) (f : L2Line → L2Line) (hl : ∀ e, (f e).line = e.line) (hd : ∀ e, (f e).data = e.data)
    (pa : Nat) : ({ s with l2 := s.l2.map f } : State).homeByte pa = s.homeByte pa := by
  unfold State.homeByte State.l2Find
  simp only [find?_map_line _ f hl]
  cases s.l2.find? fun e => e.line == pa / 128 with
  | none => rfl
  | some e => simp [hd]

/-- The line that an L1 has taken. -/
theorem Core.l1Find_l1Put (c : Core) (e : L1Line) : (c.l1Put e).l1Find e.line = some e := by
  simp [Core.l1Put, Core.l1Find]

/-- Another line of an L1 that takes one stays, or goes where the set has no way free. -/
theorem Core.l1Find_l1Put_other (c : Core) (e : L1Line) {n : Nat} (h : n ≠ e.line) :
    (c.l1Put e).l1Find n = c.l1Find n ∨
      ((c.l1Put e).l1Find n = none ∧
        8 ≤ (c.l1.filter fun x => x.line != e.line && x.line % c.l1Sets == e.line % c.l1Sets).length ∧
        n % c.l1Sets = e.line % c.l1Sets) := by
  have h1 : (e.line == n) = false := by simpa using fun k => h k.symm
  have hr : (c.l1.filter fun x => x.line != e.line).find? (fun x => x.line == n) = c.l1.find? fun x => x.line == n := by
    rw [List.find?_filter]
    congr 1
    funext a
    by_cases q : a.line = n <;> simp [q, h]
  have hm : (c.l1.filter fun x => x.line != e.line).filter (fun x => x.line % c.l1Sets == e.line % c.l1Sets) =
      c.l1.filter fun x => x.line != e.line && x.line % c.l1Sets == e.line % c.l1Sets := by
    rw [List.filter_filter]
    congr 1
    funext a
    exact Bool.and_comm ..
  unfold Core.l1Put Core.l1Find
  dsimp only
  rw [List.find?_cons_of_neg (by simp [h1])]
  split
  · exact .inl hr
  · next hlt =>
    rw [hm] at hlt ⊢
    cases hv : (c.l1.filter fun x => x.line != e.line && x.line % c.l1Sets == e.line % c.l1Sets).getLast? with
    | none => rw [List.getLast?_eq_none_iff] at hv; simp [hv] at hlt
    | some v =>
      dsimp only
      by_cases hn : v.line = n
      · refine .inr ⟨?_, by omega, ?_⟩
        · rw [List.find?_eq_none]
          intro x hx
          simp only [List.mem_filter, bne_iff_ne] at hx
          simpa [hn] using hx.2
        · have := List.mem_of_getLast? hv
          simp only [List.mem_filter, Bool.and_eq_true, beq_iff_eq] at this
          rw [← hn]; exact this.2.2
      · refine .inl ?_
        rw [← hr, List.find?_filter]
        congr 1
        funext a
        by_cases q : a.line = n
        · simp [q, Ne.symm hn]
        · simp [q]

/-- What a core's L1 holds of an address after it took a line whose bytes are as `f` gives them: of the line `f`, of another line what it held,
where it keeps that. -/
theorem State.near_l1Put {s : State} {k line : Nat} {bytes : List Host.Cell} {f : Nat → Byte}
    (hb : ∀ o, o < 128 → (lookup? o bytes).getD (s.homeByte (128 * line + o)) = f (128 * line + o))
    (hk : let mates := (s.core k).l1.filter fun x => x.line != line && x.line % (s.core k).l1Sets == line % (s.core k).l1Sets
      mates.length < 8 ∨ ∀ x ∈ mates, s.l1Agrees k x.line) (j pa : Nat)
    (hy : youngestByte (fun f => f.leaves j) pa s.flights = none) :
    (s.mapCore k fun c => c.l1Put { line := line, bytes := bytes }).near j pa =
      if j = k ∧ pa / 128 = line then f pa else s.near j pa := by
  have hh : (s.mapCore k fun c => c.l1Put { line := line, bytes := bytes }).homeByte pa = s.homeByte pa := rfl
  unfold State.near
  rw [State.core_mapCore, hh]
  by_cases hj : j = k
  · subst hj
    rw [if_pos rfl]
    by_cases hl : pa / 128 = line
    · rw [if_pos ⟨rfl, hl⟩]
      have hput := Core.l1Find_l1Put (s.core j) { line := line, bytes := bytes }
      have hpa : 128 * line + pa % 128 = pa := by omega
      have := hb (pa % 128) (Nat.mod_lt _ (by decide))
      rw [hpa] at this
      rw [hl, hput]
      exact this
    · rw [if_neg (by simp [hl])]
      rcases Core.l1Find_l1Put_other (s.core j) { line := line, bytes := bytes } hl with h | ⟨h, h8, hset⟩
      · rw [h]
      · rw [h]
        rcases hk with hk | hk
        · exact absurd h8 (by simpa using hk)
        · cases hf : (s.core j).l1Find (pa / 128) with
          | none => rfl
          | some e =>
            have hmem : e ∈ (s.core j).l1 := List.mem_of_find?_eq_some hf
            have hline : e.line = pa / 128 := by have := List.find?_some hf; simpa using this
            have hag := hk e (by
              simp only [List.mem_filter, Bool.and_eq_true, beq_iff_eq, bne_iff_ne]
              exact ⟨hmem, by rw [hline]; exact hl, by rw [hline]; exact hset⟩) e hmem rfl (pa % 128)
            simp only [Option.bind_some, Option.bind_none, Option.getD_none]
            cases hv : lookup? (pa % 128) e.bytes with
            | none => rfl
            | some b =>
              have := hag b (Nat.mod_lt _ (by decide)) hv
              rw [hline, show 128 * (pa / 128) + pa % 128 = pa by omega, hy] at this
              simpa using this.symm
  · rw [if_neg hj, if_neg (by simp [hj])]

/-- A fill of an L1 line that keeps every line changes no byte that an agent reads. -/
theorem State.l1Fill_reads {s : State} {t k line : Nat} {z : Bool} (hw : s.hbm.wf = true) (h : s.fillKeeps t line z)
    (hk : let mates := (s.core k).l1.filter fun x => x.line != line && x.line % (s.core k).l1Sets == line % (s.core k).l1Sets
      mates.length < 8 ∨ ∀ x ∈ mates, s.l1Agrees k x.line) :
    (∀ pa, (s.l1Fill t k line z).homeByte pa = s.homeByte pa) ∧
    ∀ pa j, youngestByte (fun f => f.leaves j) pa s.flights = none → (s.l1Fill t k line z).near j pa = s.near j pa := by
  have hu := s.l2Fill_frame t line z
  have hc : (s.l2Fill t line z).cores = s.cores := (State.l2Fill_cores h).1
  have hcore : ∀ i, (s.l2Fill t line z).core i = s.core i := fun i => by unfold State.core; rw [hc]
  have hhome := State.homeByte_l2Fill hw h
  have hnear : ∀ j pa, (s.l2Fill t line z).near j pa = s.near j pa := fun j pa => by unfold State.near; rw [hcore, hhome]
  unfold State.l1Fill
  dsimp only
  generalize s.l2Fill t line z = u at hu hcore hhome hnear
  let put : State := u.mapCore k fun c => c.l1Put
    { line := line
      bytes := (cellsAt 0 (u.homeBytes (128 * line) 128)).map fun c => (c.1,
        match youngestByte (fun f => f.leaves k) (128 * line + c.1) u.flights with
        | some (b, _) => b
        | none => (lookup? c.1 ((((u.core k).l1Find line).map (·.bytes)).getD [])).getD c.2) }
  have hp : ∀ pa, put.homeByte pa = u.homeByte pa := fun _ => rfl
  have hm : ∀ pa, ({ put with l2 := put.l2.map fun (e : L2Line) =>
      if e.line == line && !e.sharers.contains k then { e with sharers := k :: e.sharers } else e } : State).homeByte pa = put.homeByte pa := by
    intro pa
    refine State.homeByte_mapL2 put _ ?_ ?_ pa
    · intro e; split <;> rfl
    · intro e; split <;> rfl
  refine ⟨fun pa => ((hm pa).trans (hp pa)).trans (hhome pa), fun pa j hy => ?_⟩
  have hl : ∀ o, o < 128 → lookup? o (cellsAt 0 (u.homeBytes (128 * line) 128)) = some (u.homeByte (128 * line + o)) := by
    intro o ho; rw [lookup?_cellsAt]; simp [State.homeBytes_get _ _ _ _ ho]
  have hput := State.near_l1Put (s := u) (k := k) (line := line)
    (bytes := (cellsAt 0 (u.homeBytes (128 * line) 128)).map fun c => (c.1,
        match youngestByte (fun f => f.leaves k) (128 * line + c.1) u.flights with
        | some (b, _) => b
        | none => (lookup? c.1 ((((u.core k).l1Find line).map (·.bytes)).getD [])).getD c.2))
    (f := fun pa => match youngestByte (fun f => f.leaves k) pa u.flights with
        | some (b, _) => b
        | none => u.near k pa)
    (by
      intro o ho
      rw [lookup?_map (fun c => match youngestByte (fun f => f.leaves k) (128 * line + c.1) u.flights with
        | some (b, _) => b
        | none => (lookup? c.1 ((((u.core k).l1Find line).map (·.bytes)).getD [])).getD c.2), hl o ho]
      simp only [Option.map_some, Option.getD_some]
      cases youngestByte (fun f => f.leaves k) (128 * line + o) u.flights with
      | some x => rfl
      | none =>
        dsimp only
        unfold State.near
        rw [show (128 * line + o) / 128 = line by omega, show (128 * line + o) % 128 = o by omega]
        cases (u.core k).l1Find line with
        | none => simp [lookup?]
        | some e => rfl)
    (by
      rw [hcore]
      rcases hk with hk | hk
      · exact .inl hk
      · refine .inr fun x hx e he hel o b ho hb => ?_
        rw [hcore] at he
        rw [hu.2.1, hhome]
        exact hk x hx e he hel o b ho hb)
    j pa (by rw [hu.2.1]; exact hy)
  have hrest : ({ put with l2 := put.l2.map fun (e : L2Line) =>
      if e.line == line && !e.sharers.contains k then { e with sharers := k :: e.sharers } else e } : State).near j pa = put.near j pa := by
    have hco : ({ put with l2 := put.l2.map fun (e : L2Line) =>
      if e.line == line && !e.sharers.contains k then { e with sharers := k :: e.sharers } else e } : State).core j = put.core j := rfl
    unfold State.near
    rw [hm, hco]
  refine hrest.trans (hput.trans ?_)
  split
  · next hj =>
    obtain ⟨rfl, _⟩ := hj
    rw [hu.2.1, hy]
    exact hnear ..
  · exact hnear ..

end Sys2Proof.Machine
end

