-- ==== Sys2Proof/Laws/Scalar.lean ====
section
/-! SUPPORT. What the shared operations of the scalar words do, said once: X[d] written and read, moving past a word, a result
written, a jump, a branch. -/

namespace Sys2Proof.Machine

/-- What X[x] reads as after a write of X[d] (R259). -/
theorem Ctx.getX_setX (c : Ctx) (d x : Reg) (v : Word) : (c.setX d v).getX x = if x = d ∧ d ≠ 0 then v else c.getX x := by
  unfold Ctx.setX Ctx.getX
  by_cases hd : d.val = 0
  · have hd0 : d = 0 := Fin.ext hd
    subst hd0; simp
  · have hd0 : d ≠ 0 := fun h => hd (by simp [h])
    by_cases hx : x.val = 0
    · have hne : x ≠ d := by intro h; subst h; exact hd hx
      simp [hx, hne]
    · by_cases h : x = d
      · subst h; simp [hd, hd0]
      · have h' : d.val ≠ x.val := fun e => h (Fin.ext e.symm)
        simp [hd, hx, h, h']

/-- The same of the context whose turn it is. -/
theorem State.getX_setX (s : State) (d x : Reg) (v : Word) : (s.setX d v).getX x = if x = d ∧ d ≠ 0 then v else s.getX x :=
  Ctx.getX_setX s.ctx d x v

/-- A write of X[d] changes registers x only. -/
theorem Ctx.setX_eq (c : Ctx) (d : Reg) (v : Word) : c.setX d v = { c with x := (c.setX d v).x } := by
  unfold Ctx.setX; split <;> rfl

/-- Where only the context whose turn it is changes, memory reads as before. -/
theorem SameMemory.of_ctx {s t : State} (h : t = { s with ctx := t.ctx }) : SameMemory s t :=
  ⟨fun g pa => by rw [h]; exact ⟨rfl, rfl⟩, fun k a => by rw [h]; rfl⟩

/-- Moving past words that are not the last of a routine. -/
theorem Ctx.advance_mid {c : Ctx} {n : Nat} (h : ∀ r, c.routine = some r → r.off + n < r.words) :
    c.advance n =
      { c with
        hold := .run, remotes := (c.forget c.instrPc none).remotes
        pc := if c.routine.isSome then c.pc else c.pc + BitVec.ofNat 64 (4 * n)
        routine := c.routine.map fun r => { r with off := r.off + n } } := by
  unfold Ctx.advance
  cases hr : c.routine with
  | none => simp [Ctx.forget, Ctx.instrPc, hr]
  | some r => simp [Ctx.forget, Ctx.instrPc, hr, h r hr]

/-- The end of a routine gives x116 to x123 their values of before the trigger back (R50, R52). -/
theorem Ctx.endRoutine_getX (c : Ctx) (r : Routine) (x : Reg) :
    (c.endRoutine r).getX x = if x.val < 116 then c.getX x else (c.outer.toList[x.val - 116]?).getD (c.getX x) := by
  unfold Ctx.endRoutine Ctx.getX
  by_cases h0 : x.val = 0
  · simp [h0]
  simp only [h0, if_false, List.range, List.range.loop, List.foldl, Vector.getElem_setIfInBounds]
  by_cases h : x.val < 116
  · rw [if_pos h]; repeat rw [if_neg (by omega)]
  · rw [if_neg h]
    by_cases h2 : x.val < 124
    · have : x.val = 116 ∨ x.val = 117 ∨ x.val = 118 ∨ x.val = 119 ∨ x.val = 120 ∨ x.val = 121 ∨ x.val = 122 ∨ x.val = 123 := by omega
      rcases this with e | e | e | e | e | e | e | e <;> simp [e]
    · have b : c.outer.toList[x.val - 116]? = none := by simp; omega
      rw [b]; repeat rw [if_neg (by omega)]
      rfl

/-- What the registers x hold behind a word. -/
theorem Ctx.advance_getX (c : Ctx) (n : Nat) (x : Reg) : (c.advance n).getX x = c.leaves n x (c.getX x) := by
  unfold Ctx.advance Ctx.leaves Ctx.forget
  cases hr : c.routine with
  | none => rfl
  | some r =>
    dsimp only
    split
    · next h => simp [h, Ctx.getX]
    · next h =>
      rw [Ctx.endRoutine_getX]
      by_cases hx : x.val < 116 <;> simp [h, hx, Ctx.getX]

/-- Moving past a word changes registers x, the position, `hold` and the remote accesses of the word alone. -/
theorem Ctx.advance_frame (c : Ctx) (n : Nat) :
    c.advance n = { c with x := (c.advance n).x, pc := (c.advance n).pc, routine := (c.advance n).routine, hold := .run
                           remotes := (c.advance n).remotes } := by
  unfold Ctx.advance Ctx.forget Ctx.endRoutine
  cases hr : c.routine with
  | none => simp
  | some r => dsimp only; split <;> rfl

/-- Where execution goes behind a word. -/
theorem Ctx.advance_moves (s : State) (n : Nat) : MovesBy n s { s with ctx := s.ctx.advance n } := by
  unfold MovesBy Ctx.advance Ctx.forget Ctx.endRoutine
  cases hr : s.ctx.routine with
  | none => simp
  | some r => dsimp only; split <;> simp_all

/-- A result written into X[d] over `n` words. -/
theorem writesXOver_of {s : State} {d : Reg} {v : Word} {n : Nat} {p : Word → Prop} (hv : p v) :
    WritesXOver n s (done { s.setX d v with ctx := (s.setX d v).ctx.advance n }) d p := by
  have hc : (s.setX d v).ctx = { s.ctx with x := (s.setX d v).ctx.x } := by unfold State.setX; exact Ctx.setX_eq ..
  refine ⟨_, rfl, ⟨v, hv, fun x => ?_⟩, ?_, ?_, SameMemory.of_ctx rfl⟩
  · have h := Ctx.advance_getX (s.setX d v).ctx n x
    have e := State.getX_setX s d x v
    unfold State.getX at e ⊢
    rw [h, e]
    unfold Ctx.leaves
    rw [hc]
  · have h := Ctx.advance_moves (s.setX d v) n
    unfold MovesBy at h ⊢
    rw [hc] at h ⊢
    exact h
  · unfold OnlyScalars
    rw [Ctx.advance_frame, hc]
    rfl

/-- What a word that writes X[d] does. -/
theorem writeResult_writesX {s : State} {d : Reg} {v : Word} {p : Word → Prop} (hv : p v) :
    WritesX s (writeResult d v s) d p := writesXOver_of hv

/-- A word that only moves on. -/
theorem advance_passes (s : State) : Passes s (done s.advance) :=
  ⟨_, rfl, fun x => Ctx.advance_getX s.ctx 1 x, Ctx.advance_moves s 1, by
    unfold OnlyScalars State.advance; rw [Ctx.advance_frame], SameMemory.of_ctx rfl⟩

/-- What a jump that links does outside a routine. -/
theorem jumpTo_jumpsTo {s : State} {pc link : Word} {d : Reg} (hr : s.ctx.routine = none) :
    JumpsTo s (done ((s.jumpTo pc).setX d link)) pc d link := by
  have ha : s.ctx.advance 1 = { s.ctx with hold := .run, remotes := (s.ctx.forget s.ctx.instrPc none).remotes,
                                           pc := s.ctx.pc + BitVec.ofNat 64 4, routine := none } := by
    rw [Ctx.advance_mid (by intro r h; rw [hr] at h; cases h)]; simp [hr]
  refine ⟨_, rfl, ?_, ?_, ?_, ?_, ?_⟩
  · rw [State.setX, Ctx.setX_eq]; rfl
  · rw [State.setX, Ctx.setX_eq]; simp [State.jumpTo, Ctx.outside, ha]
  · intro x; rw [State.getX_setX]; simp [State.jumpTo, Ctx.outside, ha, State.getX, Ctx.getX]
  · unfold OnlyScalars State.setX; rw [Ctx.setX_eq]; simp [State.jumpTo, Ctx.outside, ha]
  · apply SameMemory.of_ctx; rfl

/-- A conditional branch outside a routine. -/
theorem branchIf_outside {s : State} {taken : Bool} {o : BitVec 12} (hr : s.ctx.routine = none) :
    BranchesTo s (branchIf taken o s) taken o := by
  have h0 : ∀ (s : State) (w : Word), s.setX 0 w = s := fun s w => rfl
  have key := fun pc => jumpTo_jumpsTo (s := s) (pc := pc) (link := 0) (d := 0) hr
  unfold BranchesTo
  cases taken with
  | true => simpa [branchIf, hr, h0, off12] using key (s.ctx.pc + off12 o)
  | false =>
    have e : s.advance = s.jumpTo (s.ctx.pc + 4) := by
      simp [State.advance, State.jumpTo, Ctx.outside, Ctx.advance, hr, Ctx.forget]
    simpa [branchIf, hr, h0, e] using key (s.ctx.pc + 4)

/-- A conditional branch inside a routine. -/
theorem branchIf_inside {s : State} {taken : Bool} {o : BitVec 12} {q : Routine} (hr : s.ctx.routine = some q) :
    BranchesInside s (branchIf taken o s) taken o q := by
  unfold BranchesInside branchIf
  simp only [hr]
  split
  · rfl
  · cases taken with
    | true => exact ⟨_, rfl, rfl, rfl, fun _ => rfl, rfl, SameMemory.of_ctx rfl⟩
    | false => exact advance_passes s

end Sys2Proof.Machine
end

