-- ==== Sys2Proof/Laws/Access.lean ====
section
/-! SUPPORT. What a load, a store and an atomic of one line come to once they translate, and what they leave. -/

namespace Sys2Proof.Machine

/-- The state that a translated load or atomic leaves in the caches. -/
abbrev State.filled (s : State) (q : Acc) (acc : Access) (va : Word) : State := s.fillTlb q.place (s.tenantOf q.g) acc va

/-- A filled translation cache leaves the home slices as they are. -/
theorem State.homeByte_fillTlb (s : State) (p : Place) (t : Nat) (acc : Access) (va : Word) (pa : Nat) :
    (s.fillTlb p t acc va).homeByte pa = s.homeByte pa := by rw [(s.fillTlb_frame p t acc va).1]; rfl

/-- Where a load takes its bytes from after a filled translation cache. -/
theorem State.byteSource_fillTlb (s : State) (p : Place) (t : Nat) (acc : Access) (va : Word) (g : Agent) (scope pa : Nat) :
    (s.fillTlb p t acc va).byteSource g scope pa = s.byteSource g scope pa := by
  have h := s.fillTlb_frame p t acc va
  have hl : ∀ k n, ((s.fillTlb p t acc va).core k).l1Find n = (s.core k).l1Find n := fun k n => by rw [h.2]; rfl
  unfold State.byteSource
  simp only [hl]
  rw [h.1]

/-- What the store queue of an agent holds after a filled translation cache. -/
theorem State.queuedByte_fillTlb (s : State) (p : Place) (t : Nat) (acc : Access) (va : Word) (g : Agent) (pa : Nat) :
    (s.fillTlb p t acc va).queuedByte g pa = s.queuedByte g pa := by rw [(s.fillTlb_frame p t acc va).1]; rfl

/-- Whether a load waits after a filled translation cache. -/
theorem State.loadWaits_fillTlb (s : State) (p : Place) (t : Nat) (acc : Access) (va : Word) (g : Agent) (scope pa n : Nat) :
    (s.fillTlb p t acc va).loadWaits g scope pa n = s.loadWaits g scope pa n := by
  induction n generalizing pa with
  | zero => rfl
  | succ n ih => simp only [State.loadWaits, State.byteSource_fillTlb, ih]

/-- Whether a load misses after a filled translation cache. -/
theorem State.loadMisses_fillTlb (s : State) (p : Place) (t : Nat) (acc : Access) (va : Word) (g : Agent) (scope pa n : Nat) :
    (s.fillTlb p t acc va).loadMisses g scope pa n = s.loadMisses g scope pa n := by
  induction n generalizing pa with
  | zero => rfl
  | succ n ih => simp only [State.loadMisses, State.byteSource_fillTlb, ih]

/-- The error of a line after a filled translation cache. -/
theorem State.lineError_fillTlb (s : State) (p : Place) (t : Nat) (acc : Access) (va : Word) (pa n : Nat) (z : Bool) :
    (s.fillTlb p t acc va).lineError pa n z = s.lineError pa n z := by rw [(s.fillTlb_frame p t acc va).1]; rfl

/-- The error of a load after a filled translation cache. -/
theorem State.loadError_fillTlb (s : State) (p : Place) (t : Nat) (acc : Access) (va : Word) (g : Agent) (scope pa n : Nat) (z : Bool) :
    (s.fillTlb p t acc va).loadError g scope pa n z = s.loadError g scope pa n z := by
  unfold State.loadError
  rw [State.loadMisses_fillTlb, State.lineError_fillTlb, show (s.fillTlb p t acc va).mismatch = s.mismatch by
    rw [(s.fillTlb_frame p t acc va).1]]

/-- A filled translation cache keeps what the L2 holds and what a fill of it keeps. -/
theorem State.fillKeeps_fillTlb (s : State) (p : Place) (t : Nat) (acc : Access) (va : Word) (u line : Nat) (z : Bool)
    (h : s.fillKeeps u line z) : (s.fillTlb p t acc va).fillKeeps u line z := by
  rw [(s.fillTlb_frame p t acc va).1]; exact h

/-- What an L1 keeps after a filled translation cache. -/
theorem State.l1Keeps_fillTlb (s : State) (p : Place) (t : Nat) (acc : Access) (va : Word) (g : Agent) (line : Nat)
    (h : s.l1Keeps g line) : (s.fillTlb p t acc va).l1Keeps g line := by
  have hf := s.fillTlb_frame p t acc va
  have hl : ∀ k, ((s.fillTlb p t acc va).core k).l1 = (s.core k).l1 ∧ ((s.fillTlb p t acc va).core k).l1Sets = (s.core k).l1Sets :=
    fun k => by rw [hf.2]; exact ⟨rfl, rfl⟩
  have hfl : (s.fillTlb p t acc va).flights = s.flights := by rw [hf.1]
  unfold State.l1Keeps at h ⊢
  cases hg : coreOf g with
  | none => trivial
  | some k =>
    rw [hg] at h
    simp only [hl]
    rcases h with h | h
    · exact .inl h
    · refine .inr fun x hx e he hel o b ho hb => ?_
      rw [(hl k).1] at he
      rw [State.homeByte_fillTlb, hfl]
      exact h x hx e he hel o b ho hb

/-- What a load's misses leave: the context, the stores in flight and all but L1s as they were; and where the fill keeps every
line, every byte reads as before. -/
theorem State.loadFill_frame (s : State) (g : Agent) (scope pa n : Nat) (z : Bool) :
    let u := s.loadFill g (s.tenantOf g) scope pa n z
    u.ctx = s.ctx ∧ u.flights = s.flights ∧ OnlyCaches s u ∧
    (s.hbm.wf = true → (s.loadMisses g scope pa n = false ∨ s.takesLine g (pa / 128) z) →
      (∀ x, u.homeByte x = s.homeByte x) ∧ (∀ k a, (u.core k).scratch.read a = (s.core k).scratch.read a) ∧
      ∀ x k, youngestByte (fun f => f.leaves k) x s.flights = none → u.near k x = s.near k x) := by
  have hs : ∀ {u : State}, OnlyCaches s u → ∀ k a, (u.core k).scratch.read a = (s.core k).scratch.read a :=
    fun h k a => by rw [h.2 k]
  have h2 := s.l2Fill_frame (s.tenantOf g) (pa / 128) z
  unfold State.loadFill
  cases hg : coreOf g with
  | none =>
    dsimp only
    split
    · next hm =>
      have l2 : OnlyCaches s (s.l2Fill (s.tenantOf g) (pa / 128) z) := State.l2Fill_caches ..
      refine ⟨h2.1, h2.2.1, l2, fun hw hk => ?_⟩
      have hk := (hk.resolve_left (by simp [hm])).1
      have hh := State.homeByte_l2Fill hw hk
      exact ⟨hh, hs l2, fun x k _ => by unfold State.near State.core; rw [(State.l2Fill_cores hk).1, hh]⟩
    · exact ⟨rfl, rfl, OnlyCaches.rfl' s, fun _ _ => ⟨fun _ => rfl, fun _ _ => rfl, fun _ _ _ => rfl⟩⟩
  | some k =>
    dsimp only
    split
    · next hm =>
      have l1 := State.l1Fill_caches s (s.tenantOf g) k (pa / 128) z
      refine ⟨h2.1, h2.2.1, l1, fun hw hk => ?_⟩
      have hk := hk.resolve_left (by simp [hm])
      have hk2 := hk.2
      unfold State.l1Keeps at hk2
      rw [hg] at hk2
      have r := State.l1Fill_reads (k := k) hw hk.1 hk2
      exact ⟨r.1, hs l1, r.2⟩
    · have l1 := State.mapL1_caches s k (fun c => c.l1Touch (pa / 128)) fun c => by unfold Core.l1Touch; split <;> rfl
      refine ⟨rfl, rfl, l1, fun _ _ => ⟨fun _ => rfl, hs l1, fun x j _ => ?_⟩⟩
      unfold State.near
      rw [State.core_mapCore]
      split
      · next h => subst h; rw [Core.l1Find_l1Touch]; rfl
      · rfl

/-- What the stores that a load is ordered behind leave: the context whose turn it is notes them, and nothing else changes (R156). -/
theorem State.hear_frame (s : State) (pa n : Nat) :
    s.hear s.ctx.agent pa n = { s with ctx := { s.ctx with heard := (s.hear s.ctx.agent pa n).ctx.heard } } := by
  unfold State.hear
  split
  · rfl
  · dsimp only
    split
    · rfl
    · simp only [State.mapCtx, State.getCtx, State.setCtx, if_true]

/-- The bytes of a load. -/
theorem State.loadBytes_get (s : State) (g : Agent) (scope pa n i : Nat) (h : i < n) :
    (s.loadBytes g scope pa n)[i]? = some (s.readByte g scope (pa + i)) := by
  induction n generalizing pa i with
  | zero => omega
  | succ n ih =>
    cases i with
    | zero => simp [State.loadBytes, State.readByte] <;> cases s.byteSource g scope pa <;> rfl
    | succ i => simp [State.loadBytes, ih (pa + 1) i (by omega)]; congr 1; omega

/-- How many bytes a load takes. -/
theorem State.loadBytes_length (s : State) (g : Agent) (scope pa n : Nat) : (s.loadBytes g scope pa n).length = n := by
  induction n generalizing pa with
  | zero => rfl
  | succ n ih => simp [State.loadBytes, ih]

/-- A load that translates to a page of this device: it waits, faults, or takes bytes; what it leaves is a filled cache, and what it is
ordered behind. -/
theorem State.loadAt_eq {s : State} {q : Acc} {va : Word} {n : Nat} {own : List (Option Byte)} {p : Phys}
    (ht : s.translate q.place (s.tenantOf q.g) .load q.user va = .ok p) (ha : p.attr ≠ .remote) :
    s.loadAt q va n own =
      let u := s.fillTlb q.place (s.tenantOf q.g) .load va
      if s.loadWaits q.g q.scopeFor p.pa n then .wait u
      else match s.loadError q.g q.scopeFor p.pa n p.zero with
        | some c => .fault c u
        | none =>
          let w := (u.loadFill q.g (s.tenantOf q.g) q.scopeFor p.pa n p.zero).hear q.g p.pa n
          let merge := fun (bs : List Byte) (top : List (Option Byte)) => (bs.zip (top ++ List.replicate n none)).map fun x => x.2.getD x.1
          let bs := w.loadBytes q.g q.scopeFor p.pa n
          if q.scalar then .ok (merge (merge bs (w.queueBytes q.g p.pa n)) own) w
          else let r := w.vectorRead q.g (ruleOfKey q.key) p.pa bs
            .ok (merge r.1 own) r.2 := by
  unfold State.loadAt
  simp only [ht]
  cases h : p.attr with
  | remote => exact absurd h ha
  | normal => simp only [State.loadWaits_fillTlb, State.loadError_fillTlb] <;> rfl
  | capacity => simp only [State.loadWaits_fillTlb, State.loadError_fillTlb] <;> rfl

/-- A filled translation cache changes caches alone. -/
theorem State.fillTlb_caches (s : State) (p : Place) (t : Nat) (acc : Access) (va : Word) :
    OnlyCaches s (s.fillTlb p t acc va) := by
  have h := s.fillTlb_frame p t acc va
  exact ⟨by rw [h.1], fun k => by rw [h.2]⟩

/-- Memory reads as before after a filled translation cache. -/
theorem State.fillTlb_memory (s : State) (p : Place) (t : Nat) (acc : Access) (va : Word) :
    SameMemory s (s.fillTlb p t acc va) := by
  have h := s.fillTlb_frame p t acc va
  refine ⟨fun g pa => ⟨State.readByte_fillTlb .., ?_⟩, fun k a => by rw [h.2]⟩
  unfold State.scalarByte
  rw [State.queuedByte_fillTlb, State.readByte_fillTlb]

/-- What a load that takes bytes leaves. -/
theorem State.loadFilled_frame (s : State) (q : Acc) (hq : q.g = s.ctx.agent) (va : Word) (pa n : Nat) (z : Bool) :
    let u := ((s.fillTlb q.place (s.tenantOf q.g) .load va).loadFill q.g (s.tenantOf q.g) q.scopeFor pa n z).hear q.g pa n
    u.ctx = { s.ctx with heard := u.ctx.heard } ∧ u.flights = s.flights ∧ OnlyCaches s u ∧
    (s.hbm.wf = true → (s.loadMisses q.g q.scopeFor pa n = false ∨ s.takesLine q.g (pa / 128) z) →
      SameMemory s u ∧ ∀ x, u.readByte q.g q.scopeFor x = s.readByte q.g q.scopeFor x) := by
  intro u
  let v := s.fillTlb q.place (s.tenantOf q.g) .load va
  have hf := s.fillTlb_frame q.place (s.tenantOf q.g) .load va
  have hvt : v.tenantOf q.g = s.tenantOf q.g := by simp only [v]; rw [hf.1]; rfl
  have hvf : v.flights = s.flights := by simp only [v]; rw [hf.1]
  have h := v.loadFill_frame q.g q.scopeFor pa n z
  rw [hvt] at h
  let w := v.loadFill q.g (s.tenantOf q.g) q.scopeFor pa n z
  have hwc : w.ctx = s.ctx := h.1.trans (by simp only [v]; rw [hf.1])
  have hu : u = { w with ctx := { w.ctx with heard := u.ctx.heard } } := by
    have := w.hear_frame pa n
    rw [hwc, ← hq] at this
    rw [hwc]
    exact this
  have huf : u.flights = w.flights := by rw [hu]
  have hun : ∀ k x, u.near k x = w.near k x := fun k x => by rw [hu]; rfl
  have huh : ∀ x, u.homeByte x = w.homeByte x := fun x => by rw [hu]; rfl
  have ho : OnlyCaches w u := by rw [hu]; exact ⟨rfl, fun _ => rfl⟩
  refine ⟨by rw [hu, hwc], (huf.trans h.2.1).trans hvf, (State.fillTlb_caches ..).trans (h.2.2.1.trans ho), fun hw hk => ?_⟩
  have hv : v.hbm.wf = true := by simp only [v]; rw [hf.1]; exact hw
  have hk' : v.loadMisses q.g q.scopeFor pa n = false ∨ v.takesLine q.g (pa / 128) z := by
    cases hk with
    | inl h => left; simp only [v]; rw [State.loadMisses_fillTlb]; exact h
    | inr h => right; exact ⟨by rw [hvt]; exact State.fillKeeps_fillTlb _ _ _ _ _ _ _ _ h.1, State.l1Keeps_fillTlb _ _ _ _ _ _ _ h.2⟩
  have k := h.2.2.2 hv hk'
  have hh : ∀ x, u.homeByte x = v.homeByte x := fun x => (huh x).trans (k.1 x)
  have hn : ∀ x j, youngestByte (fun f => f.leaves j) x v.flights = none → u.near j x = v.near j x :=
    fun x j hy => (hun j x).trans (k.2.2 x j hy)
  refine ⟨⟨fun g x => ?_, fun c a => ?_⟩, fun x => ?_⟩
  · have hm := (State.fillTlb_memory s q.place (s.tenantOf q.g) .load va).1 g x
    have hb := SameByte.of_near (huf.trans h.2.1) (hh x) (hn x) g
    exact ⟨hb.1.trans hm.1, hb.2.trans hm.2⟩
  · rw [ho.2 c]; exact (k.2.1 c a).trans ((State.fillTlb_memory ..).2 c a)
  · rw [State.readByte_congr' (huf.trans h.2.1) (hh x) (hn x)]; exact State.readByte_fillTlb ..

/-! ## Little-endian numbers -/

/-- Byte k of a little-endian number (R3). -/
theorem ofBytes_byte (bs : List Byte) (k : Nat) : ofBytes bs / 2 ^ (8 * k) % 256 = ((bs[k]?).getD 0).toNat := by
  induction bs generalizing k with
  | nil => simp [ofBytes]
  | cons b t ih =>
    cases k with
    | zero => simp [ofBytes]; omega
    | succ k =>
      have : ofBytes (b :: t) / 2 ^ (8 * (k + 1)) = ofBytes t / 2 ^ (8 * k) := by
        rw [show 8 * (k + 1) = 8 + 8 * k by omega, Nat.pow_add, ← Nat.div_div_eq_div_mul]
        congr 1
        simp [ofBytes]; omega
      rw [this, ih]; simp

/-- A number of n bytes is below 2^(8n). -/
theorem ofBytes_lt (bs : List Byte) : ofBytes bs < 2 ^ (8 * bs.length) := by
  induction bs with
  | nil => simp [ofBytes]
  | cons b t ih =>
    have : b.toNat < 256 := b.isLt
    rw [List.length_cons, show 8 * (t.length + 1) = 8 * t.length + 8 by omega, Nat.pow_add]
    simp only [ofBytes]; omega

/-- A result written by a word, in whatever state it leaves the caches. -/
theorem writeResult_over {s u : State} {d : Reg} {v : Word} (hc : u.ctx = { s.ctx with heard := u.ctx.heard })
    (ho : OnlyCaches s u)
    (hs : SameMemory s u) :
    Completes (writeResult d v u) fun t =>
      (∀ x, t.getX x = s.ctx.leaves 1 x (if x = d ∧ d ≠ 0 then v else s.getX x)) ∧ MovesBy 1 s t ∧ SameButOrder s t ∧ OnlyCaches s t ∧
      t.flights = u.flights ∧ SameMemory s t := by
  obtain ⟨t, ht, ⟨w, hw, hx⟩, hmv, hon, hsm⟩ := writeResult_writesX (s := u) (p := fun w => w = v) (d := d) rfl
  subst hw
  refine ⟨t, ht, fun x => ?_, ?_, ?_, ?_, ?_, ?_⟩
  · rw [hx x]; unfold State.getX Ctx.leaves; rw [hc]; rfl
  · unfold MovesBy at hmv ⊢; rw [hc] at hmv; exact hmv
  · unfold OnlyScalars at hon
    unfold SameButOrder
    rw [hon, hc]
  · have : OnlyCaches u t := by unfold OnlyScalars at hon; rw [hon]; exact ⟨rfl, fun _ => rfl⟩
    exact OnlyCaches.trans ho this
  · unfold OnlyScalars at hon; rw [hon]
  · exact ⟨fun g pa => ⟨(hsm.1 g pa).1.trans (hs.1 g pa).1, (hsm.1 g pa).2.trans (hs.1 g pa).2⟩, fun k a => (hsm.2 k a).trans (hs.2 k a)⟩

/-- The offset of a scalar access. -/
theorem off9_eq (o : BitVec 9) (n : Nat) : off9 o n = BitVec.ofInt 64 (o.toInt * n) := by
  unfold off9
  apply BitVec.eq_of_toInt_eq
  rw [BitVec.toInt_mul, BitVec.toInt_signExtend_of_le (by decide), BitVec.toInt_ofInt, BitVec.toInt_ofNat']
  simp

/-! ## Reading records -/

/-- Nothing changes but caches and the memory behind them, remote accesses of the context whose turn it is and what has left the module, and
what the model keeps of the order of reads; memory stays in canonical form. -/
def OnlyReads (s t : State) : Prop :=
  t = { s with ctx := { s.ctx with remotes := t.ctx.remotes, heard := t.ctx.heard, ahead := t.ctx.ahead }
               cores := t.cores, l2 := t.l2, hbm := t.hbm, ioTlb := t.ioTlb, flights := t.flights, stores := t.stores, trails := t.trails
               mismatch := t.mismatch, lostUnits := t.lostUnits, out := t.out } ∧
  (s.hbm.wf = true → t.hbm.wf = true)

theorem OnlyReads.refl (s : State) : OnlyReads s s := ⟨rfl, id⟩

theorem OnlyReads.trans {s t u : State} (a : OnlyReads s t) (b : OnlyReads t u) : OnlyReads s u :=
  ⟨by rw [b.1, a.1], b.2 ∘ a.2⟩

/-- Changes of caches alone are such. -/
theorem OnlyReads.of_caches {s t : State} (h : OnlyCaches s t) (hc : t.ctx = s.ctx) (hw : s.hbm.wf = true → t.hbm.wf = true) :
    OnlyReads s t := ⟨by rw [h.1, hc], hw⟩

/-- The state that an access leaves. -/
def Got.left {α : Type} : Got α → State
  | .ok _ s | .wait s | .fault _ s => s

/-- What follows a value changes nothing more than both parts do. -/
theorem Seen.andThen_reads {α β : Type} {s : State} {r : Seen α} {f : α → State → Seen β} (h : OnlyReads s r.2)
    (hf : ∀ a t, OnlyReads s t → OnlyReads s (f a t).2) : OnlyReads s (r.andThen f).2 := by
  obtain ⟨e, t⟩ := r
  cases e with
  | error e => exact h
  | ok o => cases o with
    | none => exact h
    | some a => exact hf a t h

/-- What memory holds after a line was written back. -/
theorem State.l2Evict_hbm (s : State) (e : L2Line) : (s.l2Evict e).hbm =
    if e.dirty then (s.hbm.clear (128 * e.line) (128 * e.line + 128)).writeCells (e.data.map fun c => (128 * e.line + c.1, c.2))
    else s.hbm := by
  unfold State.l2Evict State.invalidateL1
  dsimp only
  split <;> rfl

/-- A fill of the L2 keeps memory in canonical form. -/
theorem State.l2Fill_wf {s : State} {t line : Nat} {z : Bool} (h : s.hbm.wf = true) : (s.l2Fill t line z).hbm.wf = true := by
  have hr : (s.l2Room t line).hbm.wf = true := by
    unfold State.l2Room
    dsimp only
    split
    · exact h
    · split
      · rw [State.l2Evict_hbm]
        split
        · exact Memory.wf_writeCells (Memory.wf_clear h)
        · exact h
      · exact h
  unfold State.l2Fill
  cases s.l2Find line with
  | some x => simp only; exact h
  | none => simp only; exact hr

/-- So does what a load leaves in the caches. -/
theorem State.loadFill_wf {s : State} {g : Agent} {t scope pa n : Nat} {z : Bool} (h : s.hbm.wf = true) :
    (s.loadFill g t scope pa n z).hbm.wf = true := by
  have h2 := State.l2Fill_wf (t := t) (line := pa / 128) (z := z) h
  unfold State.loadFill State.l1Fill
  cases coreOf g with
  | none => dsimp only; split <;> assumption
  | some k => dsimp only; split <;> assumption

/-- The context whose turn it is asks an owning device. -/
theorem State.remoteAt_reads {s : State} {q : Acc} {owner tpa n : Nat} {op : RemoteOp} {bytes : List Byte} (hg : q.g = s.ctx.agent) :
    OnlyReads s (s.remoteAt q owner tpa op n bytes).left := by
  unfold State.remoteAt State.getCtx State.setCtx
  simp only [hg, if_true, Ctx.forget]
  split
  · exact ⟨rfl, id⟩
  · split
    · exact ⟨rfl, id⟩
    · split <;> exact ⟨rfl, id⟩

/-- Bytes that a read takes, and that may be kept for older ones (R148). -/
theorem State.vectorRead_reads {s : State} {g : Agent} (hg : g = s.ctx.agent) (seq : Option Nat) (pa : Nat) (bs : List Byte) :
    OnlyReads s (s.vectorRead g seq pa bs).2 := by
  unfold State.vectorRead
  split
  · exact OnlyReads.refl s
  · dsimp only
    split
    · subst hg; simp only [State.getCtx, State.setCtx, if_true]; exact ⟨rfl, id⟩
    · exact OnlyReads.refl s

/-- A load of the context whose turn it is reads and changes nothing else. -/
theorem State.loadAt_reads {s : State} {q : Acc} (hg : q.g = s.ctx.agent) (va : Word) (n : Nat) (own : List (Option Byte)) :
    OnlyReads s (s.loadAt q va n own).left := by
  cases ht : s.translate q.place (s.tenantOf q.g) .load q.user va with
  | error c => unfold State.loadAt; simp only [ht]; exact OnlyReads.refl s
  | ok p =>
    have hf := s.fillTlb_frame q.place (s.tenantOf q.g) .load va
    have hu : OnlyReads s (s.fillTlb q.place (s.tenantOf q.g) .load va) := ⟨by rw [hf.1], by rw [hf.1]; exact id⟩
    by_cases ha : p.attr = .remote
    · unfold State.loadAt
      simp only [ht, ha]
      have hug : q.g = (s.fillTlb q.place (s.tenantOf q.g) .load va).ctx.agent := by rw [hf.1]; exact hg
      generalize s.fillTlb q.place (s.tenantOf q.g) .load va = u at hu hug
      split
      · exact hu
      · have hr := State.remoteAt_reads (s := u) (q := q) (owner := p.owner) (tpa := p.pa) (op := .load) (n := n) (bytes := []) hug
        cases e : u.remoteAt q p.owner p.pa .load n [] with
        | ok a w => rw [e] at hr; exact hu.trans hr
        | wait w => rw [e] at hr; exact hu.trans hr
        | fault c w => rw [e] at hr; exact hu.trans hr
    · rw [State.loadAt_eq ht ha]
      dsimp only
      split
      · exact hu
      · split
        · exact hu
        · have hl := s.loadFilled_frame q hg va p.pa n p.zero
          have hw : s.hbm.wf = true →
              (((s.fillTlb q.place (s.tenantOf q.g) .load va).loadFill q.g (s.tenantOf q.g) q.scopeFor p.pa n p.zero).hear q.g p.pa n).hbm.wf = true := by
            intro h
            have h1 := State.loadFill_wf (s := s.fillTlb q.place (s.tenantOf q.g) .load va) (g := q.g) (t := s.tenantOf q.g)
              (scope := q.scopeFor) (pa := p.pa) (n := n) (z := p.zero) (hu.2 h)
            have hc := ((s.fillTlb q.place (s.tenantOf q.g) .load va).loadFill_frame q.g q.scopeFor p.pa n p.zero).1
            rw [show (s.fillTlb q.place (s.tenantOf q.g) .load va).tenantOf q.g = s.tenantOf q.g by rw [hf.1]; rfl] at hc
            have h2 := State.hear_frame ((s.fillTlb q.place (s.tenantOf q.g) .load va).loadFill q.g (s.tenantOf q.g) q.scopeFor p.pa n p.zero) p.pa n
            rw [hc, show (s.fillTlb q.place (s.tenantOf q.g) .load va).ctx = s.ctx by rw [hf.1], ← hg] at h2
            rw [h2]; exact h1
          generalize ((s.fillTlb q.place (s.tenantOf q.g) .load va).loadFill q.g (s.tenantOf q.g) q.scopeFor p.pa n p.zero).hear q.g p.pa n = w
            at hl hw
          have hr : OnlyReads s w := ⟨by rw [hl.2.2.1.1, hl.1], hw⟩
          split
          · exact hr
          · exact hr.trans (State.vectorRead_reads (by rw [hl.1]; exact hg) ..)

/-- Reading a region asks owning devices, fills caches, and changes nothing else. -/
theorem State.scan_reads {s : State} {q : Acc} (hg : q.g = s.ctx.agent) (va : Word) (fuel n : Nat) : OnlyReads s (s.scan q va fuel n).2 := by
  induction fuel generalizing s va n with
  | zero => exact OnlyReads.refl s
  | succ fuel ih =>
    unfold State.scan
    dsimp only
    split
    · exact OnlyReads.refl s
    · refine Seen.andThen_reads ?_ fun a t h => Seen.andThen_reads (h.trans (ih ?_ _ _)) fun _ _ h => h
      · have h := State.loadAt_reads (s := s) (q := { q with scope := 0, scalar := false, elem := q.elem + 2 ^ 19 }) hg va
          (min n (128 - va.toNat % 128)) []
        split <;> (next e => rw [e] at h; exact h)
      · rw [hg, h.1]

/-- So does reading the records of the context's lists. -/
theorem State.ownBytes_reads {s : State} {q : Acc} (hg : q.g = s.ctx.agent) (va : Word) (n : Nat) (ms : List (Nat × List Segment)) :
    OnlyReads s (s.ownBytes q va n ms).2 := by
  have at' : ∀ {t : State}, OnlyReads s t → q.g = t.ctx.agent := fun h => by rw [hg, h.1]
  have rec' : ∀ {t : State} (va : Word), OnlyReads s t → OnlyReads s (t.recordAt q va).2 := by
    intro t va h
    unfold State.recordAt
    refine Seen.andThen_reads (h.trans (State.scan_reads (at' h) ..)) fun a u hu => ?_
    dsimp only
    split
    · exact hu
    · exact Seen.andThen_reads (hu.trans (State.scan_reads (at' hu) ..)) fun _ _ h => h
  have from' : ∀ (fuel : Nat) {t : State} (un : List (Word × Nat)) (va : Word) (left : Nat), OnlyReads s t →
      OnlyReads s (t.recordsFrom q un va fuel left).2 := by
    intro fuel
    induction fuel with
    | zero => intro t un va left h; exact h
    | succ fuel ih =>
      intro t un va left h
      unfold State.recordsFrom
      split
      · exact h
      · split
        · exact ih _ _ _ h
        · have hr := rec' va h
          split
          · next e => rw [e] at hr; exact hr
          · next e => rw [e] at hr; exact hr
          · next e => rw [e] at hr; exact Seen.andThen_reads (ih _ _ _ hr) fun _ _ h => h
  have list : ∀ (xs : List Segment) {t : State} (un : List (Word × Nat)), OnlyReads s t → OnlyReads s (t.listRecords q un xs).2 := by
    intro xs
    induction xs with
    | nil => intro t un h; exact h
    | cons x xs ih =>
      intro t un h
      exact Seen.andThen_reads (from' _ _ _ _ h) fun _ u hu => Seen.andThen_reads (ih _ hu) fun _ _ h => h
  have own : ∀ (ms : List (Nat × List Segment)) {t : State}, OnlyReads s t → OnlyReads s (t.ownBytes q va n ms).2 := by
    intro ms
    induction ms with
    | nil => intro t h; exact h
    | cons m ms ih =>
      intro t h
      exact Seen.andThen_reads (list _ _ h) fun _ u hu => Seen.andThen_reads (ih hu) fun _ _ h => h
  exact own ms (OnlyReads.refl s)

/-! ## Scalar loads -/

/-- The byte that a load takes from what stands on top, else from below. -/
theorem mergeBytes_get {bs : List Byte} {top : List (Option Byte)} {n k : Nat} {b : Byte} (hk : k < n) (hb : bs[k]? = some b) :
    ((bs.zip (top ++ List.replicate n none)).map fun x : Byte × Option Byte => x.2.getD x.1)[k]? = some (((top[k]?).getD none).getD b) := by
  have h1 : (top ++ List.replicate n none)[k]? = some ((top[k]?).getD none) := by
    by_cases hlt : k < top.length
    · rw [List.getElem?_append_left hlt]; simp [hlt]
    · rw [List.getElem?_append_right (by omega), List.getElem?_eq_none (by omega : top.length ≤ k), List.getElem?_replicate,
        if_pos (by omega)]; rfl
  rw [List.getElem?_map, show (bs.zip (top ++ List.replicate n none))[k]? = some (b, (top[k]?).getD none) from
    List.getElem?_zip_eq_some.2 ⟨hb, h1⟩]; rfl

/-- Where every agent's stores in flight are the same, so is what their store queues hold. -/
theorem State.queueBytes_get (s : State) (g : Agent) (pa n k : Nat) (h : k < n) :
    ((s.queueBytes g pa n)[k]?).getD none = s.queuedByte g (pa + k) := by
  simp [State.queueBytes, State.queuedByte, h]

/-- The place whose translation caches a scalar access uses (R384). -/
theorem State.scalarAcc_place (s : State) : s.scalarAcc.place = placeOf s.ctx.agent := by
  unfold State.scalarAcc Acc.place; cases s.ctx.agent <;> rfl

/-- What a word does that waits for the answer of an owning device (R163, R371). -/
theorem State.remoteAt_remotely {s u : State} {r : Result} {q : Acc} {acc : Access} {addr : Word} {id owner tpa n : Nat} {op : RemoteOp}
    {bytes : List Byte} {f : List Byte → State → Result} {answered : List Byte → Prop} (hg : s.ctx.agent = .ctx id)
    (hu : u.ctx = s.ctx) (ho : OnlyCaches s u) (hm : SameMemory s u) (hq : q.g = s.ctx.agent) (hk : q.key = s.ctx.instrPc)
    (hr : r = match u.remoteAt q owner tpa op n bytes with
      | .ok bs s => f bs s
      | .wait s => done s.stall
      | .fault c s => trap c addr s)
    (ha : ∀ bs, r = f ((bs ++ List.replicate n 0).take n) u → answered bs) :
    Remotely s r acc addr owner tpa q.elem op bytes answered := by
  have hc : u.getCtx q.g = s.ctx := by unfold State.getCtx; rw [hq, hu, if_pos rfl]
  have hset : ∀ rs : List Remote, u.setCtx { s.ctx with remotes := rs } = { u with ctx := { s.ctx with remotes := rs } } := fun rs => by
    unfold State.setCtx; rw [hu, if_pos rfl]
  unfold Remotely
  rw [hg]
  simp only
  unfold State.remoteAt findRemote at hr
  simp only [hc, hk] at hr
  cases hf : s.ctx.remotes.find? fun x => x.key == s.ctx.instrPc && x.elem == q.elem && x.tpa == tpa && decide (x.op = op) with
  | none =>
    simp only [hf] at hr
    simp only
    rw [hset] at hr
    have e := ho.1
    refine ⟨_, hr, ⟨_, rfl, rfl, rfl, rfl, rfl, ?_, rfl, rfl⟩, ?_, ?_, ?_⟩
    · simp only; rw [e]
    · simp only [State.stall]; rw [e]
    · refine ⟨?_, fun k => ?_⟩
      · simp only [State.stall]; rw [e]
      · exact ho.2 k
    · exact ⟨fun g pa => hm.1 g pa, fun k a => hm.2 k a⟩
  | some x =>
    simp only [hf] at hr
    simp only
    refine ⟨fun hl => ?_, fun hl hn => ?_, fun hl bs hb => ?_⟩
    · rw [if_pos hl] at hr
      rw [show s.ctx.forget s.ctx.instrPc (some (q.elem / 2 ^ 20)) =
        { s.ctx with remotes := (s.ctx.forget s.ctx.instrPc (some (q.elem / 2 ^ 20))).remotes } from rfl, hset] at hr
      refine ⟨_, hr, rfl, ⟨?_, fun k => ho.2 k⟩, ?_⟩
      · conv => lhs; rw [ho.1]
      · exact ⟨fun g pa => hm.1 g pa, fun k a => hm.2 k a⟩
    · rw [if_neg (by simp [hl]), hn] at hr
      refine ⟨_, hr, ?_, ⟨?_, fun k => ho.2 k⟩, ?_⟩
      · simp only [State.stall]; rw [hu]
      · simp only [State.stall]; conv => lhs; rw [ho.1]
      · exact ⟨fun g pa => hm.1 g pa, fun k a => hm.2 k a⟩
    · rw [if_neg (by simp [hl]), hb] at hr
      exact ha bs hr

/-- What a scalar load does once its records are read. -/
theorem State.loadAt_loadsFrom {s : State} {d : Reg} {addr : Word} {n : Nat} {signed : Bool} {f : Nat → Word} {own : List (Option Byte)}
    (hw : s.hbm.wf = true)
    (hf : ∀ bs : List Byte, bs.length = n → Widened n signed (f (ofBytes bs)) ∧
      ∀ k, k < n → (f (ofBytes bs)).extractLsb' (8 * k) 8 = (bs[k]?).getD 0) :
    LoadsFrom s (match s.loadAt s.scalarAcc addr n own with
      | .ok bs s => writeResult d (f (ofBytes bs)) s
      | .wait s => done s.stall
      | .fault c s => trap c addr s) d addr n signed own := by
  unfold LoadsFrom
  intro g
  cases ht : s.translate (placeOf g) (s.tenantOf g) .load s.ctx.user addr with
  | error c =>
    have ht' : s.translate s.scalarAcc.place (s.tenantOf s.scalarAcc.g) .load s.scalarAcc.user addr = .error c := by
      rw [State.scalarAcc_place]; exact ht
    simp only
    unfold State.loadAt
    simp only [ht']
  | ok p =>
    have ht' : s.translate s.scalarAcc.place (s.tenantOf s.scalarAcc.g) .load s.scalarAcc.user addr = .ok p := by
      rw [State.scalarAcc_place]; exact ht
    have hfc : (s.fillTlb s.scalarAcc.place (s.tenantOf s.scalarAcc.g) .load addr).ctx = s.ctx := by rw [(State.fillTlb_frame ..).1]
    simp only
    refine ⟨fun ha => ?_, ?_⟩
    · unfold State.loadAt
      simp only [ht', ha]
      cases hg : s.scalarAcc.g with
      | handler a b c =>
        have hg' : s.ctx.agent = .handler a b c := hg
        unfold Remotely
        rw [hg']
        exact ⟨_, rfl, by rw [← hg, hfc], by rw [← hg]; exact State.fillTlb_caches .., by rw [← hg]; exact State.fillTlb_memory ..⟩
      | ctx id =>
        rw [← hg]
        refine State.remoteAt_remotely (q := s.scalarAcc) (n := n) (id := id) (f := fun bs t => writeResult d (f (ofBytes ((bs.zip (own ++ List.replicate n none)).map fun x => x.2.getD x.1))) t)
          hg hfc (State.fillTlb_caches ..) (State.fillTlb_memory ..) rfl rfl ?_ ?_
        · simp only [hg]
          generalize State.remoteAt _ s.scalarAcc p.owner p.pa .load n [] = y
          cases y <;> rfl
        · intro bs hr
          generalize hb : List.map (fun x : Byte × Option Byte => x.2.getD x.1) (List.zip ((bs ++ List.replicate n 0).take n)
            (own ++ List.replicate n none)) = out at hr
          have hl : out.length = n := by rw [← hb]; simp [List.length_zip]
          obtain ⟨t, ht, hx, hmv, hcx, hoc, hff, hss⟩ := writeResult_over (d := d) (v := f (ofBytes out))
            (u := s.fillTlb s.scalarAcc.place (s.tenantOf s.scalarAcc.g) .load addr) (by rw [hfc]) (State.fillTlb_caches ..) (State.fillTlb_memory ..)
          refine ⟨t, hr.trans ht, ⟨_, (hf out hl).1, fun k hk => ?_, hx⟩, hmv, hcx, hoc, hss⟩
          rw [(hf out hl).2 k hk, ← hb, mergeBytes_get hk (b := (bs[k]?).getD 0) ?_]
          · rfl
          · rw [List.getElem?_take_of_lt hk, List.getElem?_append]
            split
            · next h => simp [h]
            · next h =>
              rw [List.getElem?_replicate, if_pos (by omega), List.getElem?_eq_none (Nat.le_of_not_lt h)]; rfl
    intro ha hline
    have hs : s.scalarAcc.scopeFor = s.scalarScope := by
      unfold State.scalarAcc Acc.scopeFor State.scalarScope
      cases s.ctx.agent <;> rfl
    rw [State.loadAt_eq (q := s.scalarAcc) ht' ha]
    simp only [hs]
    have hfr := s.loadFilled_frame s.scalarAcc rfl addr p.pa n p.zero
    simp only [hs] at hfr
    by_cases hwt : s.loadWaits g s.scalarScope p.pa n
    · have : s.loadWaits s.scalarAcc.g s.scalarScope p.pa n = true := hwt
      rw [if_pos hwt, if_pos this]
      refine ⟨_, rfl, ?_, ?_, ?_⟩
      · simp only [State.stall]; rw [(State.fillTlb_frame ..).1]
      · exact OnlyCaches.trans (State.fillTlb_caches ..) ⟨rfl, fun _ => rfl⟩
      · exact State.fillTlb_memory ..
    · have : ¬ s.loadWaits s.scalarAcc.g s.scalarScope p.pa n = true := hwt
      rw [if_neg hwt, if_neg this]
      have hge : s.loadError s.scalarAcc.g s.scalarScope p.pa n p.zero = s.loadError g s.scalarScope p.pa n p.zero := rfl
      rw [hge]
      cases he : s.loadError g s.scalarScope p.pa n p.zero with
      | some c =>
        simp only
        refine ⟨_, rfl, ?_, State.fillTlb_caches .., State.fillTlb_memory ..⟩
        rw [(State.fillTlb_frame ..).1]
      | none =>
        simp only
        intro hk
        obtain ⟨hc, hfl, hon, hr⟩ := hfr
        obtain ⟨hsm, hrd⟩ := hr hw hk
        generalize hu : ((s.fillTlb s.scalarAcc.place (s.tenantOf s.scalarAcc.g) .load addr).loadFill s.scalarAcc.g
          (s.tenantOf s.scalarAcc.g) s.scalarScope p.pa n p.zero).hear s.scalarAcc.g p.pa n = u at *
        have hgs : s.scalarAcc.g = g := rfl
        rw [hgs] at hrd ⊢
        have hlen := State.loadBytes_length u g s.scalarScope p.pa n
        rw [if_pos (show s.scalarAcc.scalar = true from rfl)]
        generalize hb : List.map (fun x : Byte × Option Byte => x.2.getD x.1) (List.zip (List.map (fun x : Byte × Option Byte => x.2.getD x.1)
            ((u.loadBytes g s.scalarScope p.pa n).zip (u.queueBytes g p.pa n ++ List.replicate n none))) (own ++ List.replicate n none)) = bs
        have hbl : bs.length = n := by
          rw [← hb]; simp [List.length_zip, hlen, State.queueBytes]
        obtain ⟨t, ht, hx, hmv, hcx, hoc, hff, hss⟩ := writeResult_over (d := d) (v := f (ofBytes bs)) hc hon hsm
        refine ⟨t, ht, ⟨f (ofBytes bs), (hf bs hbl).1, fun k hk => ?_, hx⟩, hmv, hcx, hoc, hff.trans hfl, hss⟩
        rw [(hf bs hbl).2 k hk, ← hb,
          mergeBytes_get hk (mergeBytes_get hk (State.loadBytes_get u g s.scalarScope p.pa n k hk)), State.queueBytes_get _ _ _ _ _ hk,
          hrd (p.pa + k)]
        unfold State.scalarByte State.queuedByte
        rw [hfl]; rfl

/-- An older `fence.sv` holds the scalar stream back, as the words of the scalar stream ask it. -/
theorem State.fenced_iff (s : State) : s.fenced ↔ s.ctx.svHeld = true := by
  unfold State.fenced Ctx.svHeld
  cases s.ctx.svFence with
  | none => simp
  | some n => simp only [List.any_eq_true, Option.some.injEq, exists_eq_left', Bool.and_eq_true, decide_eq_true_eq]

/-- What a scalar load does. -/
theorem loadScalar_loadsX {s : State} {d a : Reg} {o : BitVec 9} {n : Nat} {signed : Bool} {f : Nat → Word} (hw : s.hbm.wf = true)
    (hf : ∀ bs : List Byte, bs.length = n → Widened n signed (f (ofBytes bs)) ∧
      ∀ k, k < n → (f (ofBytes bs)).extractLsb' (8 * k) 8 = (bs[k]?).getD 0) :
    LoadsX s (loadScalar d a o n f s) d a o n signed := by
  unfold LoadsX
  intro addr
  have e : s.getX a + off9 o n = addr := by simp only [addr, off9_eq]
  unfold loadScalar
  simp only [e, State.fenced_iff]
  refine ⟨fun h => by rw [if_pos h]; rfl, fun h => ?_⟩
  rw [if_neg h]
  by_cases h1 : isCanonical addr = false
  · rw [if_pos h1, if_pos h1]
  rw [if_neg h1, if_neg h1]
  by_cases h2 : addr.toNat % n ≠ 0
  · rw [if_pos h2, if_pos h2]
  rw [if_neg h2, if_neg h2]
  have hr : s.ownBytes { s.scalarAcc with scope := 0, scalar := false } addr n s.scalarLists = s.recordsFor addr n := rfl
  have ha : OnlyReads s (s.recordsFor addr n).2 := by rw [← hr]; exact State.ownBytes_reads rfl ..
  unfold State.loadOwn
  rw [hr]
  generalize s.recordsFor addr n = x at ha
  obtain ⟨y, t⟩ := x
  replace ha : OnlyReads s t := ha
  cases y with
  | error c => rfl
  | ok z =>
    cases z with
    | none => rfl
    | some own =>
      have hq : s.scalarAcc = t.scalarAcc := by rw [ha.1]; rfl
      simp only [hq]
      exact State.loadAt_loadsFrom (ha.2 hw) hf

end Sys2Proof.Machine
end

