-- ==== Sys2Proof/Laws/Issue.lean ====
section
/-! SUPPORT. What the issue of a vector word does, said once: a cause, a wait, or a snapshot in the vector queue. -/

namespace Sys2Proof.Machine

/-- The places below n are done. -/
theorem getLsbD_lowOnes (n e : Nat) (h : e < 4096) : (lowOnes n).getLsbD e = decide (e < n) := by
  unfold lowOnes
  rw [BitVec.getLsbD_ofNat, Nat.testBit_two_pow_sub_one]
  simp [h] <;> omega

/-- An older `vldff` has vl unresolved, as the issue rule asks it. -/
theorem State.vlOpen_iff (s : State) : s.vlOpen ↔ s.ctx.vlUnresolved = true := by
  unfold State.vlOpen Ctx.vlUnresolved
  rw [List.any_eq_true]
  constructor
  · rintro ⟨q, hq, v, c, m, dt, hi, hp⟩
    exact ⟨q, hq, by simp [hi, hp]⟩
  · rintro ⟨q, hq, h⟩
    refine ⟨q, hq, ?_⟩
    cases hi : q.instr <;> simp [hi] at h
    exact ⟨_, _, _, _, rfl, h⟩

/-- The snapshot of a word is one. -/
theorem State.snapshot_isSnapshot (s : State) (i : Instr) (a b : Word) :
    IsSnapshot s i a b (({ s.snapshot i with opA := a, opB := b } : Rule).begun) := by
  refine ⟨rfl, ?_, rfl, rfl, rfl, rfl, rfl, rfl, rfl, rfl, rfl, rfl, rfl, rfl, rfl⟩
  cases h : s.ctx.routine <;> simp [Rule.begun, State.snapshot, Ctx.instrPc, h]

/-- The elements below vstart of a begun snapshot are done. -/
theorem State.snapshot_fromVstart (s : State) (r : Rule) (h : r.vstart = s.ctx.vstart.toNat) : FromVstart s r.begun :=
  ⟨h, fun e he => by rw [← h]; exact getLsbD_lowOnes _ e he⟩

/-- A word whose checks find a cause meets it. -/
theorem issueRule_some (c : Cause) (r : Rule) (s : State) : issueRule (some c) r s = .next (s.raise c 0) := rfl

/-- A word whose checks find none waits, or enters the vector queue. -/
theorem issueRule_issues {s : State} {i : Instr} {a b : Word} {r : Rule} {p : Rule → Prop} (hs : IsSnapshot s i a b r.begun)
    (hp : p r.begun) : Issues s (issueRule none r s) i a b p := by
  have hq : s.ctx.queueFull = true ↔ 32 ≤ s.ctx.queue.length := by unfold Ctx.queueFull; exact decide_eq_true_iff
  unfold Issues issueRule
  constructor
  · intro h
    rw [State.vlOpen_iff, ← hq] at h
    rw [if_pos (by simpa using h)]
    rfl
  · intro h
    rw [State.vlOpen_iff, ← hq] at h
    rw [if_neg (by simpa using h)]
    exact ⟨_, rfl, r.begun, hs, hp, rfl⟩

/-- A word whose class must stand in a row issues where it does, and is else ILLOP (R272). -/
theorem issueClass_issuesWhere {s : State} {i : Instr} {a b : Word} {r : Rule} {p : Rule → Prop} {row : ClassRow} {legal : Prop}
    (hl : legal ↔ row.allows (clsOf s.ctx.vtype) = true) (he : exec i s = issueClass row r s) (hs : IsSnapshot s i a b r.begun)
    (hp : p r.begun) : IssuesWhere s legal .illop i a b p := by
  unfold IssuesWhere
  rw [he]
  unfold issueClass
  constructor
  · intro h; rw [if_pos (hl.mp h)]; exact issueRule_issues hs hp
  · intro h; rw [if_neg fun x => h (hl.mpr x)]; rfl

end Sys2Proof.Machine
end

