-- ==== Sys2Proof/Laws/State.lean ====
section
/-! SUPPORT. What each shared update leaves of the fields of the state and of a context: one lemma per field and update, so that no
proof unfolds a record update. -/

namespace Sys2Proof.Machine

/-! ### X[r] is written -/

@[simp] theorem State.setX_ctx (s : State) (r : Reg) (w : Word) : (s.setX r w).ctx = s.ctx.setX r w := rfl
@[simp] theorem State.setX_others (s : State) (r : Reg) (w : Word) : (s.setX r w).others = s.others := rfl
@[simp] theorem State.setX_served (s : State) (r : Reg) (w : Word) : (s.setX r w).served = s.served := rfl
@[simp] theorem State.setX_cores (s : State) (r : Reg) (w : Word) : (s.setX r w).cores = s.cores := rfl
@[simp] theorem State.setX_hbm (s : State) (r : Reg) (w : Word) : (s.setX r w).hbm = s.hbm := rfl
@[simp] theorem State.setX_l2 (s : State) (r : Reg) (w : Word) : (s.setX r w).l2 = s.l2 := rfl
@[simp] theorem State.setX_homeMap (s : State) (r : Reg) (w : Word) : (s.setX r w).homeMap = s.homeMap := rfl
@[simp] theorem State.setX_flights (s : State) (r : Reg) (w : Word) : (s.setX r w).flights = s.flights := rfl
@[simp] theorem State.setX_stores (s : State) (r : Reg) (w : Word) : (s.setX r w).stores = s.stores := rfl
@[simp] theorem State.setX_trails (s : State) (r : Reg) (w : Word) : (s.setX r w).trails = s.trails := rfl
@[simp] theorem State.setX_now (s : State) (r : Reg) (w : Word) : (s.setX r w).now = s.now := rfl
@[simp] theorem State.setX_mismatch (s : State) (r : Reg) (w : Word) : (s.setX r w).mismatch = s.mismatch := rfl
@[simp] theorem State.setX_lostUnits (s : State) (r : Reg) (w : Word) : (s.setX r w).lostUnits = s.lostUnits := rfl
@[simp] theorem State.setX_bundle (s : State) (r : Reg) (w : Word) : (s.setX r w).bundle = s.bundle := rfl
@[simp] theorem State.setX_newBundle (s : State) (r : Reg) (w : Word) : (s.setX r w).newBundle = s.newBundle := rfl
@[simp] theorem State.setX_classes (s : State) (r : Reg) (w : Word) : (s.setX r w).classes = s.classes := rfl
@[simp] theorem State.setX_tenants (s : State) (r : Reg) (w : Word) : (s.setX r w).tenants = s.tenants := rfl
@[simp] theorem State.setX_chains (s : State) (r : Reg) (w : Word) : (s.setX r w).chains = s.chains := rfl
@[simp] theorem State.setX_ioTlb (s : State) (r : Reg) (w : Word) : (s.setX r w).ioTlb = s.ioTlb := rfl
@[simp] theorem State.setX_lists (s : State) (r : Reg) (w : Word) : (s.setX r w).lists = s.lists := rfl
@[simp] theorem State.setX_sequences (s : State) (r : Reg) (w : Word) : (s.setX r w).sequences = s.sequences := rfl
@[simp] theorem State.setX_measures (s : State) (r : Reg) (w : Word) : (s.setX r w).measures = s.measures := rfl
@[simp] theorem State.setX_firmware (s : State) (r : Reg) (w : Word) : (s.setX r w).firmware = s.firmware := rfl
@[simp] theorem State.setX_linkUp (s : State) (r : Reg) (w : Word) : (s.setX r w).linkUp = s.linkUp := rfl
@[simp] theorem State.setX_clockSteps (s : State) (r : Reg) (w : Word) : (s.setX r w).clockSteps = s.clockSteps := rfl
@[simp] theorem State.setX_diesLost (s : State) (r : Reg) (w : Word) : (s.setX r w).diesLost = s.diesLost := rfl
@[simp] theorem State.setX_modulesLost (s : State) (r : Reg) (w : Word) : (s.setX r w).modulesLost = s.modulesLost := rfl
@[simp] theorem State.setX_out (s : State) (r : Reg) (w : Word) : (s.setX r w).out = s.out := rfl
@[simp] theorem State.setX_junk (s : State) (r : Reg) (w : Word) : (s.setX r w).junk = s.junk := rfl
@[simp] theorem State.setX_moves (s : State) (r : Reg) (w : Word) : (s.setX r w).moves = s.moves := rfl

/-! ### The word is done -/

@[simp] theorem State.advance_ctx (s : State) : (s.advance).ctx = s.ctx.advance 1 := rfl
@[simp] theorem State.advance_others (s : State) : (s.advance).others = s.others := rfl
@[simp] theorem State.advance_served (s : State) : (s.advance).served = s.served := rfl
@[simp] theorem State.advance_cores (s : State) : (s.advance).cores = s.cores := rfl
@[simp] theorem State.advance_hbm (s : State) : (s.advance).hbm = s.hbm := rfl
@[simp] theorem State.advance_l2 (s : State) : (s.advance).l2 = s.l2 := rfl
@[simp] theorem State.advance_homeMap (s : State) : (s.advance).homeMap = s.homeMap := rfl
@[simp] theorem State.advance_flights (s : State) : (s.advance).flights = s.flights := rfl
@[simp] theorem State.advance_stores (s : State) : (s.advance).stores = s.stores := rfl
@[simp] theorem State.advance_trails (s : State) : (s.advance).trails = s.trails := rfl
@[simp] theorem State.advance_now (s : State) : (s.advance).now = s.now := rfl
@[simp] theorem State.advance_mismatch (s : State) : (s.advance).mismatch = s.mismatch := rfl
@[simp] theorem State.advance_lostUnits (s : State) : (s.advance).lostUnits = s.lostUnits := rfl
@[simp] theorem State.advance_bundle (s : State) : (s.advance).bundle = s.bundle := rfl
@[simp] theorem State.advance_newBundle (s : State) : (s.advance).newBundle = s.newBundle := rfl
@[simp] theorem State.advance_classes (s : State) : (s.advance).classes = s.classes := rfl
@[simp] theorem State.advance_tenants (s : State) : (s.advance).tenants = s.tenants := rfl
@[simp] theorem State.advance_chains (s : State) : (s.advance).chains = s.chains := rfl
@[simp] theorem State.advance_ioTlb (s : State) : (s.advance).ioTlb = s.ioTlb := rfl
@[simp] theorem State.advance_lists (s : State) : (s.advance).lists = s.lists := rfl
@[simp] theorem State.advance_sequences (s : State) : (s.advance).sequences = s.sequences := rfl
@[simp] theorem State.advance_measures (s : State) : (s.advance).measures = s.measures := rfl
@[simp] theorem State.advance_firmware (s : State) : (s.advance).firmware = s.firmware := rfl
@[simp] theorem State.advance_linkUp (s : State) : (s.advance).linkUp = s.linkUp := rfl
@[simp] theorem State.advance_clockSteps (s : State) : (s.advance).clockSteps = s.clockSteps := rfl
@[simp] theorem State.advance_diesLost (s : State) : (s.advance).diesLost = s.diesLost := rfl
@[simp] theorem State.advance_modulesLost (s : State) : (s.advance).modulesLost = s.modulesLost := rfl
@[simp] theorem State.advance_out (s : State) : (s.advance).out = s.out := rfl
@[simp] theorem State.advance_junk (s : State) : (s.advance).junk = s.junk := rfl
@[simp] theorem State.advance_moves (s : State) : (s.advance).moves = s.moves := rfl

/-! ### The word executes again -/

@[simp] theorem State.stall_ctx (s : State) : (s.stall).ctx = { s.ctx with hold := .stall } := rfl
@[simp] theorem State.stall_others (s : State) : (s.stall).others = s.others := rfl
@[simp] theorem State.stall_served (s : State) : (s.stall).served = s.served := rfl
@[simp] theorem State.stall_cores (s : State) : (s.stall).cores = s.cores := rfl
@[simp] theorem State.stall_hbm (s : State) : (s.stall).hbm = s.hbm := rfl
@[simp] theorem State.stall_l2 (s : State) : (s.stall).l2 = s.l2 := rfl
@[simp] theorem State.stall_homeMap (s : State) : (s.stall).homeMap = s.homeMap := rfl
@[simp] theorem State.stall_flights (s : State) : (s.stall).flights = s.flights := rfl
@[simp] theorem State.stall_stores (s : State) : (s.stall).stores = s.stores := rfl
@[simp] theorem State.stall_trails (s : State) : (s.stall).trails = s.trails := rfl
@[simp] theorem State.stall_now (s : State) : (s.stall).now = s.now := rfl
@[simp] theorem State.stall_mismatch (s : State) : (s.stall).mismatch = s.mismatch := rfl
@[simp] theorem State.stall_lostUnits (s : State) : (s.stall).lostUnits = s.lostUnits := rfl
@[simp] theorem State.stall_bundle (s : State) : (s.stall).bundle = s.bundle := rfl
@[simp] theorem State.stall_newBundle (s : State) : (s.stall).newBundle = s.newBundle := rfl
@[simp] theorem State.stall_classes (s : State) : (s.stall).classes = s.classes := rfl
@[simp] theorem State.stall_tenants (s : State) : (s.stall).tenants = s.tenants := rfl
@[simp] theorem State.stall_chains (s : State) : (s.stall).chains = s.chains := rfl
@[simp] theorem State.stall_ioTlb (s : State) : (s.stall).ioTlb = s.ioTlb := rfl
@[simp] theorem State.stall_lists (s : State) : (s.stall).lists = s.lists := rfl
@[simp] theorem State.stall_sequences (s : State) : (s.stall).sequences = s.sequences := rfl
@[simp] theorem State.stall_measures (s : State) : (s.stall).measures = s.measures := rfl
@[simp] theorem State.stall_firmware (s : State) : (s.stall).firmware = s.firmware := rfl
@[simp] theorem State.stall_linkUp (s : State) : (s.stall).linkUp = s.linkUp := rfl
@[simp] theorem State.stall_clockSteps (s : State) : (s.stall).clockSteps = s.clockSteps := rfl
@[simp] theorem State.stall_diesLost (s : State) : (s.stall).diesLost = s.diesLost := rfl
@[simp] theorem State.stall_modulesLost (s : State) : (s.stall).modulesLost = s.modulesLost := rfl
@[simp] theorem State.stall_out (s : State) : (s.stall).out = s.out := rfl
@[simp] theorem State.stall_junk (s : State) : (s.stall).junk = s.junk := rfl
@[simp] theorem State.stall_moves (s : State) : (s.stall).moves = s.moves := rfl

/-! ### Control goes to an address -/

@[simp] theorem State.jumpTo_ctx (s : State) (pc : Word) : (s.jumpTo pc).ctx = { (s.ctx.advance 1).outside with pc := pc } := rfl
@[simp] theorem State.jumpTo_others (s : State) (pc : Word) : (s.jumpTo pc).others = s.others := rfl
@[simp] theorem State.jumpTo_served (s : State) (pc : Word) : (s.jumpTo pc).served = s.served := rfl
@[simp] theorem State.jumpTo_cores (s : State) (pc : Word) : (s.jumpTo pc).cores = s.cores := rfl
@[simp] theorem State.jumpTo_hbm (s : State) (pc : Word) : (s.jumpTo pc).hbm = s.hbm := rfl
@[simp] theorem State.jumpTo_l2 (s : State) (pc : Word) : (s.jumpTo pc).l2 = s.l2 := rfl
@[simp] theorem State.jumpTo_homeMap (s : State) (pc : Word) : (s.jumpTo pc).homeMap = s.homeMap := rfl
@[simp] theorem State.jumpTo_flights (s : State) (pc : Word) : (s.jumpTo pc).flights = s.flights := rfl
@[simp] theorem State.jumpTo_stores (s : State) (pc : Word) : (s.jumpTo pc).stores = s.stores := rfl
@[simp] theorem State.jumpTo_trails (s : State) (pc : Word) : (s.jumpTo pc).trails = s.trails := rfl
@[simp] theorem State.jumpTo_now (s : State) (pc : Word) : (s.jumpTo pc).now = s.now := rfl
@[simp] theorem State.jumpTo_mismatch (s : State) (pc : Word) : (s.jumpTo pc).mismatch = s.mismatch := rfl
@[simp] theorem State.jumpTo_lostUnits (s : State) (pc : Word) : (s.jumpTo pc).lostUnits = s.lostUnits := rfl
@[simp] theorem State.jumpTo_bundle (s : State) (pc : Word) : (s.jumpTo pc).bundle = s.bundle := rfl
@[simp] theorem State.jumpTo_newBundle (s : State) (pc : Word) : (s.jumpTo pc).newBundle = s.newBundle := rfl
@[simp] theorem State.jumpTo_classes (s : State) (pc : Word) : (s.jumpTo pc).classes = s.classes := rfl
@[simp] theorem State.jumpTo_tenants (s : State) (pc : Word) : (s.jumpTo pc).tenants = s.tenants := rfl
@[simp] theorem State.jumpTo_chains (s : State) (pc : Word) : (s.jumpTo pc).chains = s.chains := rfl
@[simp] theorem State.jumpTo_ioTlb (s : State) (pc : Word) : (s.jumpTo pc).ioTlb = s.ioTlb := rfl
@[simp] theorem State.jumpTo_lists (s : State) (pc : Word) : (s.jumpTo pc).lists = s.lists := rfl
@[simp] theorem State.jumpTo_sequences (s : State) (pc : Word) : (s.jumpTo pc).sequences = s.sequences := rfl
@[simp] theorem State.jumpTo_measures (s : State) (pc : Word) : (s.jumpTo pc).measures = s.measures := rfl
@[simp] theorem State.jumpTo_firmware (s : State) (pc : Word) : (s.jumpTo pc).firmware = s.firmware := rfl
@[simp] theorem State.jumpTo_linkUp (s : State) (pc : Word) : (s.jumpTo pc).linkUp = s.linkUp := rfl
@[simp] theorem State.jumpTo_clockSteps (s : State) (pc : Word) : (s.jumpTo pc).clockSteps = s.clockSteps := rfl
@[simp] theorem State.jumpTo_diesLost (s : State) (pc : Word) : (s.jumpTo pc).diesLost = s.diesLost := rfl
@[simp] theorem State.jumpTo_modulesLost (s : State) (pc : Word) : (s.jumpTo pc).modulesLost = s.modulesLost := rfl
@[simp] theorem State.jumpTo_out (s : State) (pc : Word) : (s.jumpTo pc).out = s.out := rfl
@[simp] theorem State.jumpTo_junk (s : State) (pc : Word) : (s.jumpTo pc).junk = s.junk := rfl
@[simp] theorem State.jumpTo_moves (s : State) (pc : Word) : (s.jumpTo pc).moves = s.moves := rfl

/-! ### A word enters the vector queue -/

@[simp] theorem State.enqueue_ctx (s : State) (r : Rule) : (s.enqueue r).ctx = Ctx.advance { s.ctx with queue := s.ctx.queue ++ [r], vstart := 0, seq := s.ctx.seq + 1 } 1 := rfl
@[simp] theorem State.enqueue_others (s : State) (r : Rule) : (s.enqueue r).others = s.others := rfl
@[simp] theorem State.enqueue_served (s : State) (r : Rule) : (s.enqueue r).served = s.served := rfl
@[simp] theorem State.enqueue_cores (s : State) (r : Rule) : (s.enqueue r).cores = s.cores := rfl
@[simp] theorem State.enqueue_hbm (s : State) (r : Rule) : (s.enqueue r).hbm = s.hbm := rfl
@[simp] theorem State.enqueue_l2 (s : State) (r : Rule) : (s.enqueue r).l2 = s.l2 := rfl
@[simp] theorem State.enqueue_homeMap (s : State) (r : Rule) : (s.enqueue r).homeMap = s.homeMap := rfl
@[simp] theorem State.enqueue_flights (s : State) (r : Rule) : (s.enqueue r).flights = s.flights := rfl
@[simp] theorem State.enqueue_stores (s : State) (r : Rule) : (s.enqueue r).stores = s.stores := rfl
@[simp] theorem State.enqueue_trails (s : State) (r : Rule) : (s.enqueue r).trails = s.trails := rfl
@[simp] theorem State.enqueue_now (s : State) (r : Rule) : (s.enqueue r).now = s.now := rfl
@[simp] theorem State.enqueue_mismatch (s : State) (r : Rule) : (s.enqueue r).mismatch = s.mismatch := rfl
@[simp] theorem State.enqueue_lostUnits (s : State) (r : Rule) : (s.enqueue r).lostUnits = s.lostUnits := rfl
@[simp] theorem State.enqueue_bundle (s : State) (r : Rule) : (s.enqueue r).bundle = s.bundle := rfl
@[simp] theorem State.enqueue_newBundle (s : State) (r : Rule) : (s.enqueue r).newBundle = s.newBundle := rfl
@[simp] theorem State.enqueue_classes (s : State) (r : Rule) : (s.enqueue r).classes = s.classes := rfl
@[simp] theorem State.enqueue_tenants (s : State) (r : Rule) : (s.enqueue r).tenants = s.tenants := rfl
@[simp] theorem State.enqueue_chains (s : State) (r : Rule) : (s.enqueue r).chains = s.chains := rfl
@[simp] theorem State.enqueue_ioTlb (s : State) (r : Rule) : (s.enqueue r).ioTlb = s.ioTlb := rfl
@[simp] theorem State.enqueue_lists (s : State) (r : Rule) : (s.enqueue r).lists = s.lists := rfl
@[simp] theorem State.enqueue_sequences (s : State) (r : Rule) : (s.enqueue r).sequences = s.sequences := rfl
@[simp] theorem State.enqueue_measures (s : State) (r : Rule) : (s.enqueue r).measures = s.measures := rfl
@[simp] theorem State.enqueue_firmware (s : State) (r : Rule) : (s.enqueue r).firmware = s.firmware := rfl
@[simp] theorem State.enqueue_linkUp (s : State) (r : Rule) : (s.enqueue r).linkUp = s.linkUp := rfl
@[simp] theorem State.enqueue_clockSteps (s : State) (r : Rule) : (s.enqueue r).clockSteps = s.clockSteps := rfl
@[simp] theorem State.enqueue_diesLost (s : State) (r : Rule) : (s.enqueue r).diesLost = s.diesLost := rfl
@[simp] theorem State.enqueue_modulesLost (s : State) (r : Rule) : (s.enqueue r).modulesLost = s.modulesLost := rfl
@[simp] theorem State.enqueue_out (s : State) (r : Rule) : (s.enqueue r).out = s.out := rfl
@[simp] theorem State.enqueue_junk (s : State) (r : Rule) : (s.enqueue r).junk = s.junk := rfl
@[simp] theorem State.enqueue_moves (s : State) (r : Rule) : (s.enqueue r).moves = s.moves := rfl

/-! ### A core is stored -/

@[simp] theorem State.setCore_ctx (s : State) (k : Nat) (c : Core) : (s.setCore k c).ctx = s.ctx := rfl
@[simp] theorem State.setCore_others (s : State) (k : Nat) (c : Core) : (s.setCore k c).others = s.others := rfl
@[simp] theorem State.setCore_served (s : State) (k : Nat) (c : Core) : (s.setCore k c).served = s.served := rfl
@[simp] theorem State.setCore_cores (s : State) (k : Nat) (c : Core) : (s.setCore k c).cores = assign k c s.cores := rfl
@[simp] theorem State.setCore_hbm (s : State) (k : Nat) (c : Core) : (s.setCore k c).hbm = s.hbm := rfl
@[simp] theorem State.setCore_l2 (s : State) (k : Nat) (c : Core) : (s.setCore k c).l2 = s.l2 := rfl
@[simp] theorem State.setCore_homeMap (s : State) (k : Nat) (c : Core) : (s.setCore k c).homeMap = s.homeMap := rfl
@[simp] theorem State.setCore_flights (s : State) (k : Nat) (c : Core) : (s.setCore k c).flights = s.flights := rfl
@[simp] theorem State.setCore_stores (s : State) (k : Nat) (c : Core) : (s.setCore k c).stores = s.stores := rfl
@[simp] theorem State.setCore_trails (s : State) (k : Nat) (c : Core) : (s.setCore k c).trails = s.trails := rfl
@[simp] theorem State.setCore_now (s : State) (k : Nat) (c : Core) : (s.setCore k c).now = s.now := rfl
@[simp] theorem State.setCore_mismatch (s : State) (k : Nat) (c : Core) : (s.setCore k c).mismatch = s.mismatch := rfl
@[simp] theorem State.setCore_lostUnits (s : State) (k : Nat) (c : Core) : (s.setCore k c).lostUnits = s.lostUnits := rfl
@[simp] theorem State.setCore_bundle (s : State) (k : Nat) (c : Core) : (s.setCore k c).bundle = s.bundle := rfl
@[simp] theorem State.setCore_newBundle (s : State) (k : Nat) (c : Core) : (s.setCore k c).newBundle = s.newBundle := rfl
@[simp] theorem State.setCore_classes (s : State) (k : Nat) (c : Core) : (s.setCore k c).classes = s.classes := rfl
@[simp] theorem State.setCore_tenants (s : State) (k : Nat) (c : Core) : (s.setCore k c).tenants = s.tenants := rfl
@[simp] theorem State.setCore_chains (s : State) (k : Nat) (c : Core) : (s.setCore k c).chains = s.chains := rfl
@[simp] theorem State.setCore_ioTlb (s : State) (k : Nat) (c : Core) : (s.setCore k c).ioTlb = s.ioTlb := rfl
@[simp] theorem State.setCore_lists (s : State) (k : Nat) (c : Core) : (s.setCore k c).lists = s.lists := rfl
@[simp] theorem State.setCore_sequences (s : State) (k : Nat) (c : Core) : (s.setCore k c).sequences = s.sequences := rfl
@[simp] theorem State.setCore_measures (s : State) (k : Nat) (c : Core) : (s.setCore k c).measures = s.measures := rfl
@[simp] theorem State.setCore_firmware (s : State) (k : Nat) (c : Core) : (s.setCore k c).firmware = s.firmware := rfl
@[simp] theorem State.setCore_linkUp (s : State) (k : Nat) (c : Core) : (s.setCore k c).linkUp = s.linkUp := rfl
@[simp] theorem State.setCore_clockSteps (s : State) (k : Nat) (c : Core) : (s.setCore k c).clockSteps = s.clockSteps := rfl
@[simp] theorem State.setCore_diesLost (s : State) (k : Nat) (c : Core) : (s.setCore k c).diesLost = s.diesLost := rfl
@[simp] theorem State.setCore_modulesLost (s : State) (k : Nat) (c : Core) : (s.setCore k c).modulesLost = s.modulesLost := rfl
@[simp] theorem State.setCore_out (s : State) (k : Nat) (c : Core) : (s.setCore k c).out = s.out := rfl
@[simp] theorem State.setCore_junk (s : State) (k : Nat) (c : Core) : (s.setCore k c).junk = s.junk := rfl
@[simp] theorem State.setCore_moves (s : State) (k : Nat) (c : Core) : (s.setCore k c).moves = s.moves := rfl

/-! ### A core is changed -/

@[simp] theorem State.mapCore_ctx (s : State) (k : Nat) (f : Core → Core) : (s.mapCore k f).ctx = s.ctx := rfl
@[simp] theorem State.mapCore_others (s : State) (k : Nat) (f : Core → Core) : (s.mapCore k f).others = s.others := rfl
@[simp] theorem State.mapCore_served (s : State) (k : Nat) (f : Core → Core) : (s.mapCore k f).served = s.served := rfl
@[simp] theorem State.mapCore_cores (s : State) (k : Nat) (f : Core → Core) : (s.mapCore k f).cores = assign k (f (s.core k)) s.cores := rfl
@[simp] theorem State.mapCore_hbm (s : State) (k : Nat) (f : Core → Core) : (s.mapCore k f).hbm = s.hbm := rfl
@[simp] theorem State.mapCore_l2 (s : State) (k : Nat) (f : Core → Core) : (s.mapCore k f).l2 = s.l2 := rfl
@[simp] theorem State.mapCore_homeMap (s : State) (k : Nat) (f : Core → Core) : (s.mapCore k f).homeMap = s.homeMap := rfl
@[simp] theorem State.mapCore_flights (s : State) (k : Nat) (f : Core → Core) : (s.mapCore k f).flights = s.flights := rfl
@[simp] theorem State.mapCore_stores (s : State) (k : Nat) (f : Core → Core) : (s.mapCore k f).stores = s.stores := rfl
@[simp] theorem State.mapCore_trails (s : State) (k : Nat) (f : Core → Core) : (s.mapCore k f).trails = s.trails := rfl
@[simp] theorem State.mapCore_now (s : State) (k : Nat) (f : Core → Core) : (s.mapCore k f).now = s.now := rfl
@[simp] theorem State.mapCore_mismatch (s : State) (k : Nat) (f : Core → Core) : (s.mapCore k f).mismatch = s.mismatch := rfl
@[simp] theorem State.mapCore_lostUnits (s : State) (k : Nat) (f : Core → Core) : (s.mapCore k f).lostUnits = s.lostUnits := rfl
@[simp] theorem State.mapCore_bundle (s : State) (k : Nat) (f : Core → Core) : (s.mapCore k f).bundle = s.bundle := rfl
@[simp] theorem State.mapCore_newBundle (s : State) (k : Nat) (f : Core → Core) : (s.mapCore k f).newBundle = s.newBundle := rfl
@[simp] theorem State.mapCore_classes (s : State) (k : Nat) (f : Core → Core) : (s.mapCore k f).classes = s.classes := rfl
@[simp] theorem State.mapCore_tenants (s : State) (k : Nat) (f : Core → Core) : (s.mapCore k f).tenants = s.tenants := rfl
@[simp] theorem State.mapCore_chains (s : State) (k : Nat) (f : Core → Core) : (s.mapCore k f).chains = s.chains := rfl
@[simp] theorem State.mapCore_ioTlb (s : State) (k : Nat) (f : Core → Core) : (s.mapCore k f).ioTlb = s.ioTlb := rfl
@[simp] theorem State.mapCore_lists (s : State) (k : Nat) (f : Core → Core) : (s.mapCore k f).lists = s.lists := rfl
@[simp] theorem State.mapCore_sequences (s : State) (k : Nat) (f : Core → Core) : (s.mapCore k f).sequences = s.sequences := rfl
@[simp] theorem State.mapCore_measures (s : State) (k : Nat) (f : Core → Core) : (s.mapCore k f).measures = s.measures := rfl
@[simp] theorem State.mapCore_firmware (s : State) (k : Nat) (f : Core → Core) : (s.mapCore k f).firmware = s.firmware := rfl
@[simp] theorem State.mapCore_linkUp (s : State) (k : Nat) (f : Core → Core) : (s.mapCore k f).linkUp = s.linkUp := rfl
@[simp] theorem State.mapCore_clockSteps (s : State) (k : Nat) (f : Core → Core) : (s.mapCore k f).clockSteps = s.clockSteps := rfl
@[simp] theorem State.mapCore_diesLost (s : State) (k : Nat) (f : Core → Core) : (s.mapCore k f).diesLost = s.diesLost := rfl
@[simp] theorem State.mapCore_modulesLost (s : State) (k : Nat) (f : Core → Core) : (s.mapCore k f).modulesLost = s.modulesLost := rfl
@[simp] theorem State.mapCore_out (s : State) (k : Nat) (f : Core → Core) : (s.mapCore k f).out = s.out := rfl
@[simp] theorem State.mapCore_junk (s : State) (k : Nat) (f : Core → Core) : (s.mapCore k f).junk = s.junk := rfl
@[simp] theorem State.mapCore_moves (s : State) (k : Nat) (f : Core → Core) : (s.mapCore k f).moves = s.moves := rfl

/-! ### A tenant is changed -/

@[simp] theorem State.mapTenant_ctx (s : State) (t : Nat) (f : Tenant → Tenant) : (s.mapTenant t f).ctx = s.ctx := rfl
@[simp] theorem State.mapTenant_others (s : State) (t : Nat) (f : Tenant → Tenant) : (s.mapTenant t f).others = s.others := rfl
@[simp] theorem State.mapTenant_served (s : State) (t : Nat) (f : Tenant → Tenant) : (s.mapTenant t f).served = s.served := rfl
@[simp] theorem State.mapTenant_cores (s : State) (t : Nat) (f : Tenant → Tenant) : (s.mapTenant t f).cores = s.cores := rfl
@[simp] theorem State.mapTenant_hbm (s : State) (t : Nat) (f : Tenant → Tenant) : (s.mapTenant t f).hbm = s.hbm := rfl
@[simp] theorem State.mapTenant_l2 (s : State) (t : Nat) (f : Tenant → Tenant) : (s.mapTenant t f).l2 = s.l2 := rfl
@[simp] theorem State.mapTenant_homeMap (s : State) (t : Nat) (f : Tenant → Tenant) : (s.mapTenant t f).homeMap = s.homeMap := rfl
@[simp] theorem State.mapTenant_flights (s : State) (t : Nat) (f : Tenant → Tenant) : (s.mapTenant t f).flights = s.flights := rfl
@[simp] theorem State.mapTenant_stores (s : State) (t : Nat) (f : Tenant → Tenant) : (s.mapTenant t f).stores = s.stores := rfl
@[simp] theorem State.mapTenant_trails (s : State) (t : Nat) (f : Tenant → Tenant) : (s.mapTenant t f).trails = s.trails := rfl
@[simp] theorem State.mapTenant_now (s : State) (t : Nat) (f : Tenant → Tenant) : (s.mapTenant t f).now = s.now := rfl
@[simp] theorem State.mapTenant_mismatch (s : State) (t : Nat) (f : Tenant → Tenant) : (s.mapTenant t f).mismatch = s.mismatch := rfl
@[simp] theorem State.mapTenant_lostUnits (s : State) (t : Nat) (f : Tenant → Tenant) : (s.mapTenant t f).lostUnits = s.lostUnits := rfl
@[simp] theorem State.mapTenant_bundle (s : State) (t : Nat) (f : Tenant → Tenant) : (s.mapTenant t f).bundle = s.bundle := rfl
@[simp] theorem State.mapTenant_newBundle (s : State) (t : Nat) (f : Tenant → Tenant) : (s.mapTenant t f).newBundle = s.newBundle := rfl
@[simp] theorem State.mapTenant_classes (s : State) (t : Nat) (f : Tenant → Tenant) : (s.mapTenant t f).classes = s.classes := rfl
@[simp] theorem State.mapTenant_tenants (s : State) (t : Nat) (f : Tenant → Tenant) : (s.mapTenant t f).tenants = s.tenants.map fun a => if a.id = t then f a else a := rfl
@[simp] theorem State.mapTenant_chains (s : State) (t : Nat) (f : Tenant → Tenant) : (s.mapTenant t f).chains = s.chains := rfl
@[simp] theorem State.mapTenant_ioTlb (s : State) (t : Nat) (f : Tenant → Tenant) : (s.mapTenant t f).ioTlb = s.ioTlb := rfl
@[simp] theorem State.mapTenant_lists (s : State) (t : Nat) (f : Tenant → Tenant) : (s.mapTenant t f).lists = s.lists := rfl
@[simp] theorem State.mapTenant_sequences (s : State) (t : Nat) (f : Tenant → Tenant) : (s.mapTenant t f).sequences = s.sequences := rfl
@[simp] theorem State.mapTenant_measures (s : State) (t : Nat) (f : Tenant → Tenant) : (s.mapTenant t f).measures = s.measures := rfl
@[simp] theorem State.mapTenant_firmware (s : State) (t : Nat) (f : Tenant → Tenant) : (s.mapTenant t f).firmware = s.firmware := rfl
@[simp] theorem State.mapTenant_linkUp (s : State) (t : Nat) (f : Tenant → Tenant) : (s.mapTenant t f).linkUp = s.linkUp := rfl
@[simp] theorem State.mapTenant_clockSteps (s : State) (t : Nat) (f : Tenant → Tenant) : (s.mapTenant t f).clockSteps = s.clockSteps := rfl
@[simp] theorem State.mapTenant_diesLost (s : State) (t : Nat) (f : Tenant → Tenant) : (s.mapTenant t f).diesLost = s.diesLost := rfl
@[simp] theorem State.mapTenant_modulesLost (s : State) (t : Nat) (f : Tenant → Tenant) : (s.mapTenant t f).modulesLost = s.modulesLost := rfl
@[simp] theorem State.mapTenant_out (s : State) (t : Nat) (f : Tenant → Tenant) : (s.mapTenant t f).out = s.out := rfl
@[simp] theorem State.mapTenant_junk (s : State) (t : Nat) (f : Tenant → Tenant) : (s.mapTenant t f).junk = s.junk := rfl
@[simp] theorem State.mapTenant_moves (s : State) (t : Nat) (f : Tenant → Tenant) : (s.mapTenant t f).moves = s.moves := rfl

/-! ### A chain is changed -/

@[simp] theorem State.mapChain_ctx (s : State) (t sl : Nat) (f : Chain → Chain) : (s.mapChain t sl f).ctx = s.ctx := rfl
@[simp] theorem State.mapChain_others (s : State) (t sl : Nat) (f : Chain → Chain) : (s.mapChain t sl f).others = s.others := rfl
@[simp] theorem State.mapChain_served (s : State) (t sl : Nat) (f : Chain → Chain) : (s.mapChain t sl f).served = s.served := rfl
@[simp] theorem State.mapChain_cores (s : State) (t sl : Nat) (f : Chain → Chain) : (s.mapChain t sl f).cores = s.cores := rfl
@[simp] theorem State.mapChain_hbm (s : State) (t sl : Nat) (f : Chain → Chain) : (s.mapChain t sl f).hbm = s.hbm := rfl
@[simp] theorem State.mapChain_l2 (s : State) (t sl : Nat) (f : Chain → Chain) : (s.mapChain t sl f).l2 = s.l2 := rfl
@[simp] theorem State.mapChain_homeMap (s : State) (t sl : Nat) (f : Chain → Chain) : (s.mapChain t sl f).homeMap = s.homeMap := rfl
@[simp] theorem State.mapChain_flights (s : State) (t sl : Nat) (f : Chain → Chain) : (s.mapChain t sl f).flights = s.flights := rfl
@[simp] theorem State.mapChain_stores (s : State) (t sl : Nat) (f : Chain → Chain) : (s.mapChain t sl f).stores = s.stores := rfl
@[simp] theorem State.mapChain_trails (s : State) (t sl : Nat) (f : Chain → Chain) : (s.mapChain t sl f).trails = s.trails := rfl
@[simp] theorem State.mapChain_now (s : State) (t sl : Nat) (f : Chain → Chain) : (s.mapChain t sl f).now = s.now := rfl
@[simp] theorem State.mapChain_mismatch (s : State) (t sl : Nat) (f : Chain → Chain) : (s.mapChain t sl f).mismatch = s.mismatch := rfl
@[simp] theorem State.mapChain_lostUnits (s : State) (t sl : Nat) (f : Chain → Chain) : (s.mapChain t sl f).lostUnits = s.lostUnits := rfl
@[simp] theorem State.mapChain_bundle (s : State) (t sl : Nat) (f : Chain → Chain) : (s.mapChain t sl f).bundle = s.bundle := rfl
@[simp] theorem State.mapChain_newBundle (s : State) (t sl : Nat) (f : Chain → Chain) : (s.mapChain t sl f).newBundle = s.newBundle := rfl
@[simp] theorem State.mapChain_classes (s : State) (t sl : Nat) (f : Chain → Chain) : (s.mapChain t sl f).classes = s.classes := rfl
@[simp] theorem State.mapChain_tenants (s : State) (t sl : Nat) (f : Chain → Chain) : (s.mapChain t sl f).tenants = s.tenants := rfl
@[simp] theorem State.mapChain_chains (s : State) (t sl : Nat) (f : Chain → Chain) : (s.mapChain t sl f).chains = s.chains.map fun (c : Chain) => if c.tenant = t && c.slice = sl then f c else c := rfl
@[simp] theorem State.mapChain_ioTlb (s : State) (t sl : Nat) (f : Chain → Chain) : (s.mapChain t sl f).ioTlb = s.ioTlb := rfl
@[simp] theorem State.mapChain_lists (s : State) (t sl : Nat) (f : Chain → Chain) : (s.mapChain t sl f).lists = s.lists := rfl
@[simp] theorem State.mapChain_sequences (s : State) (t sl : Nat) (f : Chain → Chain) : (s.mapChain t sl f).sequences = s.sequences := rfl
@[simp] theorem State.mapChain_measures (s : State) (t sl : Nat) (f : Chain → Chain) : (s.mapChain t sl f).measures = s.measures := rfl
@[simp] theorem State.mapChain_firmware (s : State) (t sl : Nat) (f : Chain → Chain) : (s.mapChain t sl f).firmware = s.firmware := rfl
@[simp] theorem State.mapChain_linkUp (s : State) (t sl : Nat) (f : Chain → Chain) : (s.mapChain t sl f).linkUp = s.linkUp := rfl
@[simp] theorem State.mapChain_clockSteps (s : State) (t sl : Nat) (f : Chain → Chain) : (s.mapChain t sl f).clockSteps = s.clockSteps := rfl
@[simp] theorem State.mapChain_diesLost (s : State) (t sl : Nat) (f : Chain → Chain) : (s.mapChain t sl f).diesLost = s.diesLost := rfl
@[simp] theorem State.mapChain_modulesLost (s : State) (t sl : Nat) (f : Chain → Chain) : (s.mapChain t sl f).modulesLost = s.modulesLost := rfl
@[simp] theorem State.mapChain_out (s : State) (t sl : Nat) (f : Chain → Chain) : (s.mapChain t sl f).out = s.out := rfl
@[simp] theorem State.mapChain_junk (s : State) (t sl : Nat) (f : Chain → Chain) : (s.mapChain t sl f).junk = s.junk := rfl
@[simp] theorem State.mapChain_moves (s : State) (t sl : Nat) (f : Chain → Chain) : (s.mapChain t sl f).moves = s.moves := rfl

/-! ### A context is stored -/

@[simp] theorem State.setCtx_served (s : State) (c : Ctx) : (s.setCtx c).served = s.served := by unfold State.setCtx; split <;> rfl
@[simp] theorem State.setCtx_cores (s : State) (c : Ctx) : (s.setCtx c).cores = s.cores := by unfold State.setCtx; split <;> rfl
@[simp] theorem State.setCtx_hbm (s : State) (c : Ctx) : (s.setCtx c).hbm = s.hbm := by unfold State.setCtx; split <;> rfl
@[simp] theorem State.setCtx_l2 (s : State) (c : Ctx) : (s.setCtx c).l2 = s.l2 := by unfold State.setCtx; split <;> rfl
@[simp] theorem State.setCtx_homeMap (s : State) (c : Ctx) : (s.setCtx c).homeMap = s.homeMap := by unfold State.setCtx; split <;> rfl
@[simp] theorem State.setCtx_flights (s : State) (c : Ctx) : (s.setCtx c).flights = s.flights := by unfold State.setCtx; split <;> rfl
@[simp] theorem State.setCtx_stores (s : State) (c : Ctx) : (s.setCtx c).stores = s.stores := by unfold State.setCtx; split <;> rfl
@[simp] theorem State.setCtx_trails (s : State) (c : Ctx) : (s.setCtx c).trails = s.trails := by unfold State.setCtx; split <;> rfl
@[simp] theorem State.setCtx_now (s : State) (c : Ctx) : (s.setCtx c).now = s.now := by unfold State.setCtx; split <;> rfl
@[simp] theorem State.setCtx_mismatch (s : State) (c : Ctx) : (s.setCtx c).mismatch = s.mismatch := by unfold State.setCtx; split <;> rfl
@[simp] theorem State.setCtx_lostUnits (s : State) (c : Ctx) : (s.setCtx c).lostUnits = s.lostUnits := by unfold State.setCtx; split <;> rfl
@[simp] theorem State.setCtx_bundle (s : State) (c : Ctx) : (s.setCtx c).bundle = s.bundle := by unfold State.setCtx; split <;> rfl
@[simp] theorem State.setCtx_newBundle (s : State) (c : Ctx) : (s.setCtx c).newBundle = s.newBundle := by unfold State.setCtx; split <;> rfl
@[simp] theorem State.setCtx_classes (s : State) (c : Ctx) : (s.setCtx c).classes = s.classes := by unfold State.setCtx; split <;> rfl
@[simp] theorem State.setCtx_tenants (s : State) (c : Ctx) : (s.setCtx c).tenants = s.tenants := by unfold State.setCtx; split <;> rfl
@[simp] theorem State.setCtx_chains (s : State) (c : Ctx) : (s.setCtx c).chains = s.chains := by unfold State.setCtx; split <;> rfl
@[simp] theorem State.setCtx_ioTlb (s : State) (c : Ctx) : (s.setCtx c).ioTlb = s.ioTlb := by unfold State.setCtx; split <;> rfl
@[simp] theorem State.setCtx_lists (s : State) (c : Ctx) : (s.setCtx c).lists = s.lists := by unfold State.setCtx; split <;> rfl
@[simp] theorem State.setCtx_sequences (s : State) (c : Ctx) : (s.setCtx c).sequences = s.sequences := by unfold State.setCtx; split <;> rfl
@[simp] theorem State.setCtx_measures (s : State) (c : Ctx) : (s.setCtx c).measures = s.measures := by unfold State.setCtx; split <;> rfl
@[simp] theorem State.setCtx_firmware (s : State) (c : Ctx) : (s.setCtx c).firmware = s.firmware := by unfold State.setCtx; split <;> rfl
@[simp] theorem State.setCtx_linkUp (s : State) (c : Ctx) : (s.setCtx c).linkUp = s.linkUp := by unfold State.setCtx; split <;> rfl
@[simp] theorem State.setCtx_clockSteps (s : State) (c : Ctx) : (s.setCtx c).clockSteps = s.clockSteps := by unfold State.setCtx; split <;> rfl
@[simp] theorem State.setCtx_diesLost (s : State) (c : Ctx) : (s.setCtx c).diesLost = s.diesLost := by unfold State.setCtx; split <;> rfl
@[simp] theorem State.setCtx_modulesLost (s : State) (c : Ctx) : (s.setCtx c).modulesLost = s.modulesLost := by unfold State.setCtx; split <;> rfl
@[simp] theorem State.setCtx_out (s : State) (c : Ctx) : (s.setCtx c).out = s.out := by unfold State.setCtx; split <;> rfl
@[simp] theorem State.setCtx_junk (s : State) (c : Ctx) : (s.setCtx c).junk = s.junk := by unfold State.setCtx; split <;> rfl
@[simp] theorem State.setCtx_moves (s : State) (c : Ctx) : (s.setCtx c).moves = s.moves := by unfold State.setCtx; split <;> rfl

/-! ### The front end turns to a context -/

@[simp] theorem State.turnTo_served (s : State) (g : Agent) : (s.turnTo g).served = s.served := by unfold State.turnTo; split <;> rfl
@[simp] theorem State.turnTo_cores (s : State) (g : Agent) : (s.turnTo g).cores = s.cores := by unfold State.turnTo; split <;> rfl
@[simp] theorem State.turnTo_hbm (s : State) (g : Agent) : (s.turnTo g).hbm = s.hbm := by unfold State.turnTo; split <;> rfl
@[simp] theorem State.turnTo_l2 (s : State) (g : Agent) : (s.turnTo g).l2 = s.l2 := by unfold State.turnTo; split <;> rfl
@[simp] theorem State.turnTo_homeMap (s : State) (g : Agent) : (s.turnTo g).homeMap = s.homeMap := by unfold State.turnTo; split <;> rfl
@[simp] theorem State.turnTo_flights (s : State) (g : Agent) : (s.turnTo g).flights = s.flights := by unfold State.turnTo; split <;> rfl
@[simp] theorem State.turnTo_stores (s : State) (g : Agent) : (s.turnTo g).stores = s.stores := by unfold State.turnTo; split <;> rfl
@[simp] theorem State.turnTo_trails (s : State) (g : Agent) : (s.turnTo g).trails = s.trails := by unfold State.turnTo; split <;> rfl
@[simp] theorem State.turnTo_now (s : State) (g : Agent) : (s.turnTo g).now = s.now := by unfold State.turnTo; split <;> rfl
@[simp] theorem State.turnTo_mismatch (s : State) (g : Agent) : (s.turnTo g).mismatch = s.mismatch := by unfold State.turnTo; split <;> rfl
@[simp] theorem State.turnTo_lostUnits (s : State) (g : Agent) : (s.turnTo g).lostUnits = s.lostUnits := by unfold State.turnTo; split <;> rfl
@[simp] theorem State.turnTo_bundle (s : State) (g : Agent) : (s.turnTo g).bundle = s.bundle := by unfold State.turnTo; split <;> rfl
@[simp] theorem State.turnTo_newBundle (s : State) (g : Agent) : (s.turnTo g).newBundle = s.newBundle := by unfold State.turnTo; split <;> rfl
@[simp] theorem State.turnTo_classes (s : State) (g : Agent) : (s.turnTo g).classes = s.classes := by unfold State.turnTo; split <;> rfl
@[simp] theorem State.turnTo_tenants (s : State) (g : Agent) : (s.turnTo g).tenants = s.tenants := by unfold State.turnTo; split <;> rfl
@[simp] theorem State.turnTo_chains (s : State) (g : Agent) : (s.turnTo g).chains = s.chains := by unfold State.turnTo; split <;> rfl
@[simp] theorem State.turnTo_ioTlb (s : State) (g : Agent) : (s.turnTo g).ioTlb = s.ioTlb := by unfold State.turnTo; split <;> rfl
@[simp] theorem State.turnTo_lists (s : State) (g : Agent) : (s.turnTo g).lists = s.lists := by unfold State.turnTo; split <;> rfl
@[simp] theorem State.turnTo_sequences (s : State) (g : Agent) : (s.turnTo g).sequences = s.sequences := by unfold State.turnTo; split <;> rfl
@[simp] theorem State.turnTo_measures (s : State) (g : Agent) : (s.turnTo g).measures = s.measures := by unfold State.turnTo; split <;> rfl
@[simp] theorem State.turnTo_firmware (s : State) (g : Agent) : (s.turnTo g).firmware = s.firmware := by unfold State.turnTo; split <;> rfl
@[simp] theorem State.turnTo_linkUp (s : State) (g : Agent) : (s.turnTo g).linkUp = s.linkUp := by unfold State.turnTo; split <;> rfl
@[simp] theorem State.turnTo_clockSteps (s : State) (g : Agent) : (s.turnTo g).clockSteps = s.clockSteps := by unfold State.turnTo; split <;> rfl
@[simp] theorem State.turnTo_diesLost (s : State) (g : Agent) : (s.turnTo g).diesLost = s.diesLost := by unfold State.turnTo; split <;> rfl
@[simp] theorem State.turnTo_modulesLost (s : State) (g : Agent) : (s.turnTo g).modulesLost = s.modulesLost := by unfold State.turnTo; split <;> rfl
@[simp] theorem State.turnTo_out (s : State) (g : Agent) : (s.turnTo g).out = s.out := by unfold State.turnTo; split <;> rfl
@[simp] theorem State.turnTo_junk (s : State) (g : Agent) : (s.turnTo g).junk = s.junk := by unfold State.turnTo; split <;> rfl
@[simp] theorem State.turnTo_moves (s : State) (g : Agent) : (s.turnTo g).moves = s.moves := by unfold State.turnTo; split <;> rfl

/-! ### X[r] of a context is written -/

@[simp] theorem Ctx.setX_agent (c : Ctx) (r : Reg) (w : Word) : (c.setX r w).agent = c.agent := by unfold Ctx.setX; split <;> rfl
@[simp] theorem Ctx.setX_origin (c : Ctx) (r : Reg) (w : Word) : (c.setX r w).origin = c.origin := by unfold Ctx.setX; split <;> rfl
@[simp] theorem Ctx.setX_pc (c : Ctx) (r : Reg) (w : Word) : (c.setX r w).pc = c.pc := by unfold Ctx.setX; split <;> rfl
@[simp] theorem Ctx.setX_v (c : Ctx) (r : Reg) (w : Word) : (c.setX r w).v = c.v := by unfold Ctx.setX; split <;> rfl
@[simp] theorem Ctx.setX_backed (c : Ctx) (r : Reg) (w : Word) : (c.setX r w).backed = c.backed := by unfold Ctx.setX; split <;> rfl
@[simp] theorem Ctx.setX_allBacked (c : Ctx) (r : Reg) (w : Word) : (c.setX r w).allBacked = c.allBacked := by unfold Ctx.setX; split <;> rfl
@[simp] theorem Ctx.setX_dirty (c : Ctx) (r : Reg) (w : Word) : (c.setX r w).dirty = c.dirty := by unfold Ctx.setX; split <;> rfl
@[simp] theorem Ctx.setX_absent (c : Ctx) (r : Reg) (w : Word) : (c.setX r w).absent = c.absent := by unfold Ctx.setX; split <;> rfl
@[simp] theorem Ctx.setX_q (c : Ctx) (r : Reg) (w : Word) : (c.setX r w).q = c.q := by unfold Ctx.setX; split <;> rfl
@[simp] theorem Ctx.setX_vl (c : Ctx) (r : Reg) (w : Word) : (c.setX r w).vl = c.vl := by unfold Ctx.setX; split <;> rfl
@[simp] theorem Ctx.setX_vtype (c : Ctx) (r : Reg) (w : Word) : (c.setX r w).vtype = c.vtype := by unfold Ctx.setX; split <;> rfl
@[simp] theorem Ctx.setX_vstart (c : Ctx) (r : Reg) (w : Word) : (c.setX r w).vstart = c.vstart := by unfold Ctx.setX; split <;> rfl
@[simp] theorem Ctx.setX_mtype (c : Ctx) (r : Reg) (w : Word) : (c.setX r w).mtype = c.mtype := by unfold Ctx.setX; split <;> rfl
@[simp] theorem Ctx.setX_wb (c : Ctx) (r : Reg) (w : Word) : (c.setX r w).wb = c.wb := by unfold Ctx.setX; split <;> rfl
@[simp] theorem Ctx.setX_fflags (c : Ctx) (r : Reg) (w : Word) : (c.setX r w).fflags = c.fflags := by unfold Ctx.setX; split <;> rfl
@[simp] theorem Ctx.setX_strip (c : Ctx) (r : Reg) (w : Word) : (c.setX r w).strip = c.strip := by unfold Ctx.setX; split <;> rfl
@[simp] theorem Ctx.setX_cdepth (c : Ctx) (r : Reg) (w : Word) : (c.setX r w).cdepth = c.cdepth := by unfold Ctx.setX; split <;> rfl
@[simp] theorem Ctx.setX_frames (c : Ctx) (r : Reg) (w : Word) : (c.setX r w).frames = c.frames := by unfold Ctx.setX; split <;> rfl
@[simp] theorem Ctx.setX_userFrames (c : Ctx) (r : Reg) (w : Word) : (c.setX r w).userFrames = c.userFrames := by unfold Ctx.setX; split <;> rfl
@[simp] theorem Ctx.setX_hndFrames (c : Ctx) (r : Reg) (w : Word) : (c.setX r w).hndFrames = c.hndFrames := by unfold Ctx.setX; split <;> rfl
@[simp] theorem Ctx.setX_handles (c : Ctx) (r : Reg) (w : Word) : (c.setX r w).handles = c.handles := by unfold Ctx.setX; split <;> rfl
@[simp] theorem Ctx.setX_filter (c : Ctx) (r : Reg) (w : Word) : (c.setX r w).filter = c.filter := by unfold Ctx.setX; split <;> rfl
@[simp] theorem Ctx.setX_srcLayout (c : Ctx) (r : Reg) (w : Word) : (c.setX r w).srcLayout = c.srcLayout := by unfold Ctx.setX; split <;> rfl
@[simp] theorem Ctx.setX_dstLayout (c : Ctx) (r : Reg) (w : Word) : (c.setX r w).dstLayout = c.dstLayout := by unfold Ctx.setX; split <;> rfl
@[simp] theorem Ctx.setX_ctb (c : Ctx) (r : Reg) (w : Word) : (c.setX r w).ctb = c.ctb := by unfold Ctx.setX; split <;> rfl
@[simp] theorem Ctx.setX_tagMask (c : Ctx) (r : Reg) (w : Word) : (c.setX r w).tagMask = c.tagMask := by unfold Ctx.setX; split <;> rfl
@[simp] theorem Ctx.setX_tagMap (c : Ctx) (r : Reg) (w : Word) : (c.setX r w).tagMap = c.tagMap := by unfold Ctx.setX; split <;> rfl
@[simp] theorem Ctx.setX_tileMap (c : Ctx) (r : Reg) (w : Word) : (c.setX r w).tileMap = c.tileMap := by unfold Ctx.setX; split <;> rfl
@[simp] theorem Ctx.setX_claims (c : Ctx) (r : Reg) (w : Word) : (c.setX r w).claims = c.claims := by unfold Ctx.setX; split <;> rfl
@[simp] theorem Ctx.setX_hvl (c : Ctx) (r : Reg) (w : Word) : (c.setX r w).hvl = c.hvl := by unfold Ctx.setX; split <;> rfl
@[simp] theorem Ctx.setX_hvtype (c : Ctx) (r : Reg) (w : Word) : (c.setX r w).hvtype = c.hvtype := by unfold Ctx.setX; split <;> rfl
@[simp] theorem Ctx.setX_hvstart (c : Ctx) (r : Reg) (w : Word) : (c.setX r w).hvstart = c.hvstart := by unfold Ctx.setX; split <;> rfl
@[simp] theorem Ctx.setX_tstat (c : Ctx) (r : Reg) (w : Word) : (c.setX r w).tstat = c.tstat := by unfold Ctx.setX; split <;> rfl
@[simp] theorem Ctx.setX_tcause (c : Ctx) (r : Reg) (w : Word) : (c.setX r w).tcause = c.tcause := by unfold Ctx.setX; split <;> rfl
@[simp] theorem Ctx.setX_tpc (c : Ctx) (r : Reg) (w : Word) : (c.setX r w).tpc = c.tpc := by unfold Ctx.setX; split <;> rfl
@[simp] theorem Ctx.setX_telem (c : Ctx) (r : Reg) (w : Word) : (c.setX r w).telem = c.telem := by unfold Ctx.setX; split <;> rfl
@[simp] theorem Ctx.setX_taddr (c : Ctx) (r : Reg) (w : Word) : (c.setX r w).taddr = c.taddr := by unfold Ctx.setX; split <;> rfl
@[simp] theorem Ctx.setX_trule (c : Ctx) (r : Reg) (w : Word) : (c.setX r w).trule = c.trule := by unfold Ctx.setX; split <;> rfl
@[simp] theorem Ctx.setX_tvec (c : Ctx) (r : Reg) (w : Word) : (c.setX r w).tvec = c.tvec := by unfold Ctx.setX; split <;> rfl
@[simp] theorem Ctx.setX_ctximg (c : Ctx) (r : Reg) (w : Word) : (c.setX r w).ctximg = c.ctximg := by unfold Ctx.setX; split <;> rfl
@[simp] theorem Ctx.setX_stkaddr (c : Ctx) (r : Reg) (w : Word) : (c.setX r w).stkaddr = c.stkaddr := by unfold Ctx.setX; split <;> rfl
@[simp] theorem Ctx.setX_rules (c : Ctx) (r : Reg) (w : Word) : (c.setX r w).rules = c.rules := by unfold Ctx.setX; split <;> rfl
@[simp] theorem Ctx.setX_queue (c : Ctx) (r : Reg) (w : Word) : (c.setX r w).queue = c.queue := by unfold Ctx.setX; split <;> rfl
@[simp] theorem Ctx.setX_userSlot (c : Ctx) (r : Reg) (w : Word) : (c.setX r w).userSlot = c.userSlot := by unfold Ctx.setX; split <;> rfl
@[simp] theorem Ctx.setX_hndSlot (c : Ctx) (r : Reg) (w : Word) : (c.setX r w).hndSlot = c.hndSlot := by unfold Ctx.setX; split <;> rfl
@[simp] theorem Ctx.setX_preSlot (c : Ctx) (r : Reg) (w : Word) : (c.setX r w).preSlot = c.preSlot := by unfold Ctx.setX; split <;> rfl
@[simp] theorem Ctx.setX_routine (c : Ctx) (r : Reg) (w : Word) : (c.setX r w).routine = c.routine := by unfold Ctx.setX; split <;> rfl
@[simp] theorem Ctx.setX_outer (c : Ctx) (r : Reg) (w : Word) : (c.setX r w).outer = c.outer := by unfold Ctx.setX; split <;> rfl
@[simp] theorem Ctx.setX_userRtn (c : Ctx) (r : Reg) (w : Word) : (c.setX r w).userRtn = c.userRtn := by unfold Ctx.setX; split <;> rfl
@[simp] theorem Ctx.setX_hndRtn (c : Ctx) (r : Reg) (w : Word) : (c.setX r w).hndRtn = c.hndRtn := by unfold Ctx.setX; split <;> rfl
@[simp] theorem Ctx.setX_task (c : Ctx) (r : Reg) (w : Word) : (c.setX r w).task = c.task := by unfold Ctx.setX; split <;> rfl
@[simp] theorem Ctx.setX_want (c : Ctx) (r : Reg) (w : Word) : (c.setX r w).want = c.want := by unfold Ctx.setX; split <;> rfl
@[simp] theorem Ctx.setX_pending (c : Ctx) (r : Reg) (w : Word) : (c.setX r w).pending = c.pending := by unfold Ctx.setX; split <;> rfl
@[simp] theorem Ctx.setX_hold (c : Ctx) (r : Reg) (w : Word) : (c.setX r w).hold = c.hold := by unfold Ctx.setX; split <;> rfl
@[simp] theorem Ctx.setX_yieldBy (c : Ctx) (r : Reg) (w : Word) : (c.setX r w).yieldBy = c.yieldBy := by unfold Ctx.setX; split <;> rfl
@[simp] theorem Ctx.setX_arrivals (c : Ctx) (r : Reg) (w : Word) : (c.setX r w).arrivals = c.arrivals := by unfold Ctx.setX; split <;> rfl
@[simp] theorem Ctx.setX_remotes (c : Ctx) (r : Reg) (w : Word) : (c.setX r w).remotes = c.remotes := by unfold Ctx.setX; split <;> rfl
@[simp] theorem Ctx.setX_message (c : Ctx) (r : Reg) (w : Word) : (c.setX r w).message = c.message := by unfold Ctx.setX; split <;> rfl
@[simp] theorem Ctx.setX_stripLoop (c : Ctx) (r : Reg) (w : Word) : (c.setX r w).stripLoop = c.stripLoop := by unfold Ctx.setX; split <;> rfl
@[simp] theorem Ctx.setX_stripCount (c : Ctx) (r : Reg) (w : Word) : (c.setX r w).stripCount = c.stripCount := by unfold Ctx.setX; split <;> rfl
@[simp] theorem Ctx.setX_seq (c : Ctx) (r : Reg) (w : Word) : (c.setX r w).seq = c.seq := by unfold Ctx.setX; split <;> rfl
@[simp] theorem Ctx.setX_svFence (c : Ctx) (r : Reg) (w : Word) : (c.setX r w).svFence = c.svFence := by unfold Ctx.setX; split <;> rfl
@[simp] theorem Ctx.setX_userFence (c : Ctx) (r : Reg) (w : Word) : (c.setX r w).userFence = c.userFence := by unfold Ctx.setX; split <;> rfl
@[simp] theorem Ctx.setX_hndFence (c : Ctx) (r : Reg) (w : Word) : (c.setX r w).hndFence = c.hndFence := by unfold Ctx.setX; split <;> rfl
@[simp] theorem Ctx.setX_userImg (c : Ctx) (r : Reg) (w : Word) : (c.setX r w).userImg = c.userImg := by unfold Ctx.setX; split <;> rfl
@[simp] theorem Ctx.setX_hndImg (c : Ctx) (r : Reg) (w : Word) : (c.setX r w).hndImg = c.hndImg := by unfold Ctx.setX; split <;> rfl
@[simp] theorem Ctx.setX_ahead (c : Ctx) (r : Reg) (w : Word) : (c.setX r w).ahead = c.ahead := by unfold Ctx.setX; split <;> rfl
@[simp] theorem Ctx.setX_released (c : Ctx) (r : Reg) (w : Word) : (c.setX r w).released = c.released := by unfold Ctx.setX; split <;> rfl
@[simp] theorem Ctx.setX_heard (c : Ctx) (r : Reg) (w : Word) : (c.setX r w).heard = c.heard := by unfold Ctx.setX; split <;> rfl
@[simp] theorem Ctx.setX_acquired (c : Ctx) (r : Reg) (w : Word) : (c.setX r w).acquired = c.acquired := by unfold Ctx.setX; split <;> rfl

/-! ### The remote accesses of an instruction are over -/

@[simp] theorem Ctx.forget_agent (c : Ctx) (k : Word) (e : Option Nat) : (c.forget k e).agent = c.agent := rfl
@[simp] theorem Ctx.forget_origin (c : Ctx) (k : Word) (e : Option Nat) : (c.forget k e).origin = c.origin := rfl
@[simp] theorem Ctx.forget_pc (c : Ctx) (k : Word) (e : Option Nat) : (c.forget k e).pc = c.pc := rfl
@[simp] theorem Ctx.forget_x (c : Ctx) (k : Word) (e : Option Nat) : (c.forget k e).x = c.x := rfl
@[simp] theorem Ctx.forget_v (c : Ctx) (k : Word) (e : Option Nat) : (c.forget k e).v = c.v := rfl
@[simp] theorem Ctx.forget_backed (c : Ctx) (k : Word) (e : Option Nat) : (c.forget k e).backed = c.backed := rfl
@[simp] theorem Ctx.forget_allBacked (c : Ctx) (k : Word) (e : Option Nat) : (c.forget k e).allBacked = c.allBacked := rfl
@[simp] theorem Ctx.forget_dirty (c : Ctx) (k : Word) (e : Option Nat) : (c.forget k e).dirty = c.dirty := rfl
@[simp] theorem Ctx.forget_absent (c : Ctx) (k : Word) (e : Option Nat) : (c.forget k e).absent = c.absent := rfl
@[simp] theorem Ctx.forget_q (c : Ctx) (k : Word) (e : Option Nat) : (c.forget k e).q = c.q := rfl
@[simp] theorem Ctx.forget_vl (c : Ctx) (k : Word) (e : Option Nat) : (c.forget k e).vl = c.vl := rfl
@[simp] theorem Ctx.forget_vtype (c : Ctx) (k : Word) (e : Option Nat) : (c.forget k e).vtype = c.vtype := rfl
@[simp] theorem Ctx.forget_vstart (c : Ctx) (k : Word) (e : Option Nat) : (c.forget k e).vstart = c.vstart := rfl
@[simp] theorem Ctx.forget_mtype (c : Ctx) (k : Word) (e : Option Nat) : (c.forget k e).mtype = c.mtype := rfl
@[simp] theorem Ctx.forget_wb (c : Ctx) (k : Word) (e : Option Nat) : (c.forget k e).wb = c.wb := rfl
@[simp] theorem Ctx.forget_fflags (c : Ctx) (k : Word) (e : Option Nat) : (c.forget k e).fflags = c.fflags := rfl
@[simp] theorem Ctx.forget_strip (c : Ctx) (k : Word) (e : Option Nat) : (c.forget k e).strip = c.strip := rfl
@[simp] theorem Ctx.forget_cdepth (c : Ctx) (k : Word) (e : Option Nat) : (c.forget k e).cdepth = c.cdepth := rfl
@[simp] theorem Ctx.forget_frames (c : Ctx) (k : Word) (e : Option Nat) : (c.forget k e).frames = c.frames := rfl
@[simp] theorem Ctx.forget_userFrames (c : Ctx) (k : Word) (e : Option Nat) : (c.forget k e).userFrames = c.userFrames := rfl
@[simp] theorem Ctx.forget_hndFrames (c : Ctx) (k : Word) (e : Option Nat) : (c.forget k e).hndFrames = c.hndFrames := rfl
@[simp] theorem Ctx.forget_handles (c : Ctx) (k : Word) (e : Option Nat) : (c.forget k e).handles = c.handles := rfl
@[simp] theorem Ctx.forget_filter (c : Ctx) (k : Word) (e : Option Nat) : (c.forget k e).filter = c.filter := rfl
@[simp] theorem Ctx.forget_srcLayout (c : Ctx) (k : Word) (e : Option Nat) : (c.forget k e).srcLayout = c.srcLayout := rfl
@[simp] theorem Ctx.forget_dstLayout (c : Ctx) (k : Word) (e : Option Nat) : (c.forget k e).dstLayout = c.dstLayout := rfl
@[simp] theorem Ctx.forget_ctb (c : Ctx) (k : Word) (e : Option Nat) : (c.forget k e).ctb = c.ctb := rfl
@[simp] theorem Ctx.forget_tagMask (c : Ctx) (k : Word) (e : Option Nat) : (c.forget k e).tagMask = c.tagMask := rfl
@[simp] theorem Ctx.forget_tagMap (c : Ctx) (k : Word) (e : Option Nat) : (c.forget k e).tagMap = c.tagMap := rfl
@[simp] theorem Ctx.forget_tileMap (c : Ctx) (k : Word) (e : Option Nat) : (c.forget k e).tileMap = c.tileMap := rfl
@[simp] theorem Ctx.forget_claims (c : Ctx) (k : Word) (e : Option Nat) : (c.forget k e).claims = c.claims := rfl
@[simp] theorem Ctx.forget_hvl (c : Ctx) (k : Word) (e : Option Nat) : (c.forget k e).hvl = c.hvl := rfl
@[simp] theorem Ctx.forget_hvtype (c : Ctx) (k : Word) (e : Option Nat) : (c.forget k e).hvtype = c.hvtype := rfl
@[simp] theorem Ctx.forget_hvstart (c : Ctx) (k : Word) (e : Option Nat) : (c.forget k e).hvstart = c.hvstart := rfl
@[simp] theorem Ctx.forget_tstat (c : Ctx) (k : Word) (e : Option Nat) : (c.forget k e).tstat = c.tstat := rfl
@[simp] theorem Ctx.forget_tcause (c : Ctx) (k : Word) (e : Option Nat) : (c.forget k e).tcause = c.tcause := rfl
@[simp] theorem Ctx.forget_tpc (c : Ctx) (k : Word) (e : Option Nat) : (c.forget k e).tpc = c.tpc := rfl
@[simp] theorem Ctx.forget_telem (c : Ctx) (k : Word) (e : Option Nat) : (c.forget k e).telem = c.telem := rfl
@[simp] theorem Ctx.forget_taddr (c : Ctx) (k : Word) (e : Option Nat) : (c.forget k e).taddr = c.taddr := rfl
@[simp] theorem Ctx.forget_trule (c : Ctx) (k : Word) (e : Option Nat) : (c.forget k e).trule = c.trule := rfl
@[simp] theorem Ctx.forget_tvec (c : Ctx) (k : Word) (e : Option Nat) : (c.forget k e).tvec = c.tvec := rfl
@[simp] theorem Ctx.forget_ctximg (c : Ctx) (k : Word) (e : Option Nat) : (c.forget k e).ctximg = c.ctximg := rfl
@[simp] theorem Ctx.forget_stkaddr (c : Ctx) (k : Word) (e : Option Nat) : (c.forget k e).stkaddr = c.stkaddr := rfl
@[simp] theorem Ctx.forget_rules (c : Ctx) (k : Word) (e : Option Nat) : (c.forget k e).rules = c.rules := rfl
@[simp] theorem Ctx.forget_queue (c : Ctx) (k : Word) (e : Option Nat) : (c.forget k e).queue = c.queue := rfl
@[simp] theorem Ctx.forget_userSlot (c : Ctx) (k : Word) (e : Option Nat) : (c.forget k e).userSlot = c.userSlot := rfl
@[simp] theorem Ctx.forget_hndSlot (c : Ctx) (k : Word) (e : Option Nat) : (c.forget k e).hndSlot = c.hndSlot := rfl
@[simp] theorem Ctx.forget_preSlot (c : Ctx) (k : Word) (e : Option Nat) : (c.forget k e).preSlot = c.preSlot := rfl
@[simp] theorem Ctx.forget_routine (c : Ctx) (k : Word) (e : Option Nat) : (c.forget k e).routine = c.routine := rfl
@[simp] theorem Ctx.forget_outer (c : Ctx) (k : Word) (e : Option Nat) : (c.forget k e).outer = c.outer := rfl
@[simp] theorem Ctx.forget_userRtn (c : Ctx) (k : Word) (e : Option Nat) : (c.forget k e).userRtn = c.userRtn := rfl
@[simp] theorem Ctx.forget_hndRtn (c : Ctx) (k : Word) (e : Option Nat) : (c.forget k e).hndRtn = c.hndRtn := rfl
@[simp] theorem Ctx.forget_task (c : Ctx) (k : Word) (e : Option Nat) : (c.forget k e).task = c.task := rfl
@[simp] theorem Ctx.forget_want (c : Ctx) (k : Word) (e : Option Nat) : (c.forget k e).want = c.want := rfl
@[simp] theorem Ctx.forget_pending (c : Ctx) (k : Word) (e : Option Nat) : (c.forget k e).pending = c.pending := rfl
@[simp] theorem Ctx.forget_hold (c : Ctx) (k : Word) (e : Option Nat) : (c.forget k e).hold = c.hold := rfl
@[simp] theorem Ctx.forget_yieldBy (c : Ctx) (k : Word) (e : Option Nat) : (c.forget k e).yieldBy = c.yieldBy := rfl
@[simp] theorem Ctx.forget_arrivals (c : Ctx) (k : Word) (e : Option Nat) : (c.forget k e).arrivals = c.arrivals := rfl
@[simp] theorem Ctx.forget_message (c : Ctx) (k : Word) (e : Option Nat) : (c.forget k e).message = c.message := rfl
@[simp] theorem Ctx.forget_stripLoop (c : Ctx) (k : Word) (e : Option Nat) : (c.forget k e).stripLoop = c.stripLoop := rfl
@[simp] theorem Ctx.forget_stripCount (c : Ctx) (k : Word) (e : Option Nat) : (c.forget k e).stripCount = c.stripCount := rfl
@[simp] theorem Ctx.forget_seq (c : Ctx) (k : Word) (e : Option Nat) : (c.forget k e).seq = c.seq := rfl
@[simp] theorem Ctx.forget_svFence (c : Ctx) (k : Word) (e : Option Nat) : (c.forget k e).svFence = c.svFence := rfl
@[simp] theorem Ctx.forget_userFence (c : Ctx) (k : Word) (e : Option Nat) : (c.forget k e).userFence = c.userFence := rfl
@[simp] theorem Ctx.forget_hndFence (c : Ctx) (k : Word) (e : Option Nat) : (c.forget k e).hndFence = c.hndFence := rfl
@[simp] theorem Ctx.forget_userImg (c : Ctx) (k : Word) (e : Option Nat) : (c.forget k e).userImg = c.userImg := rfl
@[simp] theorem Ctx.forget_hndImg (c : Ctx) (k : Word) (e : Option Nat) : (c.forget k e).hndImg = c.hndImg := rfl
@[simp] theorem Ctx.forget_ahead (c : Ctx) (k : Word) (e : Option Nat) : (c.forget k e).ahead = c.ahead := rfl
@[simp] theorem Ctx.forget_released (c : Ctx) (k : Word) (e : Option Nat) : (c.forget k e).released = c.released := rfl
@[simp] theorem Ctx.forget_heard (c : Ctx) (k : Word) (e : Option Nat) : (c.forget k e).heard = c.heard := rfl
@[simp] theorem Ctx.forget_acquired (c : Ctx) (k : Word) (e : Option Nat) : (c.forget k e).acquired = c.acquired := rfl

/-! ### Flags are raised -/

@[simp] theorem Ctx.raise_agent (c : Ctx) (n : Nat) : (c.raise n).agent = c.agent := rfl
@[simp] theorem Ctx.raise_origin (c : Ctx) (n : Nat) : (c.raise n).origin = c.origin := rfl
@[simp] theorem Ctx.raise_pc (c : Ctx) (n : Nat) : (c.raise n).pc = c.pc := rfl
@[simp] theorem Ctx.raise_x (c : Ctx) (n : Nat) : (c.raise n).x = c.x := rfl
@[simp] theorem Ctx.raise_v (c : Ctx) (n : Nat) : (c.raise n).v = c.v := rfl
@[simp] theorem Ctx.raise_backed (c : Ctx) (n : Nat) : (c.raise n).backed = c.backed := rfl
@[simp] theorem Ctx.raise_allBacked (c : Ctx) (n : Nat) : (c.raise n).allBacked = c.allBacked := rfl
@[simp] theorem Ctx.raise_dirty (c : Ctx) (n : Nat) : (c.raise n).dirty = c.dirty := rfl
@[simp] theorem Ctx.raise_absent (c : Ctx) (n : Nat) : (c.raise n).absent = c.absent := rfl
@[simp] theorem Ctx.raise_q (c : Ctx) (n : Nat) : (c.raise n).q = c.q := rfl
@[simp] theorem Ctx.raise_vl (c : Ctx) (n : Nat) : (c.raise n).vl = c.vl := rfl
@[simp] theorem Ctx.raise_vtype (c : Ctx) (n : Nat) : (c.raise n).vtype = c.vtype := rfl
@[simp] theorem Ctx.raise_vstart (c : Ctx) (n : Nat) : (c.raise n).vstart = c.vstart := rfl
@[simp] theorem Ctx.raise_mtype (c : Ctx) (n : Nat) : (c.raise n).mtype = c.mtype := rfl
@[simp] theorem Ctx.raise_wb (c : Ctx) (n : Nat) : (c.raise n).wb = c.wb := rfl
@[simp] theorem Ctx.raise_fflags (c : Ctx) (n : Nat) : (c.raise n).fflags = raiseFlags c.fflags n := rfl
@[simp] theorem Ctx.raise_strip (c : Ctx) (n : Nat) : (c.raise n).strip = c.strip := rfl
@[simp] theorem Ctx.raise_cdepth (c : Ctx) (n : Nat) : (c.raise n).cdepth = c.cdepth := rfl
@[simp] theorem Ctx.raise_frames (c : Ctx) (n : Nat) : (c.raise n).frames = c.frames := rfl
@[simp] theorem Ctx.raise_userFrames (c : Ctx) (n : Nat) : (c.raise n).userFrames = c.userFrames := rfl
@[simp] theorem Ctx.raise_hndFrames (c : Ctx) (n : Nat) : (c.raise n).hndFrames = c.hndFrames := rfl
@[simp] theorem Ctx.raise_handles (c : Ctx) (n : Nat) : (c.raise n).handles = c.handles := rfl
@[simp] theorem Ctx.raise_filter (c : Ctx) (n : Nat) : (c.raise n).filter = c.filter := rfl
@[simp] theorem Ctx.raise_srcLayout (c : Ctx) (n : Nat) : (c.raise n).srcLayout = c.srcLayout := rfl
@[simp] theorem Ctx.raise_dstLayout (c : Ctx) (n : Nat) : (c.raise n).dstLayout = c.dstLayout := rfl
@[simp] theorem Ctx.raise_ctb (c : Ctx) (n : Nat) : (c.raise n).ctb = c.ctb := rfl
@[simp] theorem Ctx.raise_tagMask (c : Ctx) (n : Nat) : (c.raise n).tagMask = c.tagMask := rfl
@[simp] theorem Ctx.raise_tagMap (c : Ctx) (n : Nat) : (c.raise n).tagMap = c.tagMap := rfl
@[simp] theorem Ctx.raise_tileMap (c : Ctx) (n : Nat) : (c.raise n).tileMap = c.tileMap := rfl
@[simp] theorem Ctx.raise_claims (c : Ctx) (n : Nat) : (c.raise n).claims = c.claims := rfl
@[simp] theorem Ctx.raise_hvl (c : Ctx) (n : Nat) : (c.raise n).hvl = c.hvl := rfl
@[simp] theorem Ctx.raise_hvtype (c : Ctx) (n : Nat) : (c.raise n).hvtype = c.hvtype := rfl
@[simp] theorem Ctx.raise_hvstart (c : Ctx) (n : Nat) : (c.raise n).hvstart = c.hvstart := rfl
@[simp] theorem Ctx.raise_tstat (c : Ctx) (n : Nat) : (c.raise n).tstat = c.tstat := rfl
@[simp] theorem Ctx.raise_tcause (c : Ctx) (n : Nat) : (c.raise n).tcause = c.tcause := rfl
@[simp] theorem Ctx.raise_tpc (c : Ctx) (n : Nat) : (c.raise n).tpc = c.tpc := rfl
@[simp] theorem Ctx.raise_telem (c : Ctx) (n : Nat) : (c.raise n).telem = c.telem := rfl
@[simp] theorem Ctx.raise_taddr (c : Ctx) (n : Nat) : (c.raise n).taddr = c.taddr := rfl
@[simp] theorem Ctx.raise_trule (c : Ctx) (n : Nat) : (c.raise n).trule = c.trule := rfl
@[simp] theorem Ctx.raise_tvec (c : Ctx) (n : Nat) : (c.raise n).tvec = c.tvec := rfl
@[simp] theorem Ctx.raise_ctximg (c : Ctx) (n : Nat) : (c.raise n).ctximg = c.ctximg := rfl
@[simp] theorem Ctx.raise_stkaddr (c : Ctx) (n : Nat) : (c.raise n).stkaddr = c.stkaddr := rfl
@[simp] theorem Ctx.raise_rules (c : Ctx) (n : Nat) : (c.raise n).rules = c.rules := rfl
@[simp] theorem Ctx.raise_queue (c : Ctx) (n : Nat) : (c.raise n).queue = c.queue := rfl
@[simp] theorem Ctx.raise_userSlot (c : Ctx) (n : Nat) : (c.raise n).userSlot = c.userSlot := rfl
@[simp] theorem Ctx.raise_hndSlot (c : Ctx) (n : Nat) : (c.raise n).hndSlot = c.hndSlot := rfl
@[simp] theorem Ctx.raise_preSlot (c : Ctx) (n : Nat) : (c.raise n).preSlot = c.preSlot := rfl
@[simp] theorem Ctx.raise_routine (c : Ctx) (n : Nat) : (c.raise n).routine = c.routine := rfl
@[simp] theorem Ctx.raise_outer (c : Ctx) (n : Nat) : (c.raise n).outer = c.outer := rfl
@[simp] theorem Ctx.raise_userRtn (c : Ctx) (n : Nat) : (c.raise n).userRtn = c.userRtn := rfl
@[simp] theorem Ctx.raise_hndRtn (c : Ctx) (n : Nat) : (c.raise n).hndRtn = c.hndRtn := rfl
@[simp] theorem Ctx.raise_task (c : Ctx) (n : Nat) : (c.raise n).task = c.task := rfl
@[simp] theorem Ctx.raise_want (c : Ctx) (n : Nat) : (c.raise n).want = c.want := rfl
@[simp] theorem Ctx.raise_pending (c : Ctx) (n : Nat) : (c.raise n).pending = c.pending := rfl
@[simp] theorem Ctx.raise_hold (c : Ctx) (n : Nat) : (c.raise n).hold = c.hold := rfl
@[simp] theorem Ctx.raise_yieldBy (c : Ctx) (n : Nat) : (c.raise n).yieldBy = c.yieldBy := rfl
@[simp] theorem Ctx.raise_arrivals (c : Ctx) (n : Nat) : (c.raise n).arrivals = c.arrivals := rfl
@[simp] theorem Ctx.raise_remotes (c : Ctx) (n : Nat) : (c.raise n).remotes = c.remotes := rfl
@[simp] theorem Ctx.raise_message (c : Ctx) (n : Nat) : (c.raise n).message = c.message := rfl
@[simp] theorem Ctx.raise_stripLoop (c : Ctx) (n : Nat) : (c.raise n).stripLoop = c.stripLoop := rfl
@[simp] theorem Ctx.raise_stripCount (c : Ctx) (n : Nat) : (c.raise n).stripCount = c.stripCount := rfl
@[simp] theorem Ctx.raise_seq (c : Ctx) (n : Nat) : (c.raise n).seq = c.seq := rfl
@[simp] theorem Ctx.raise_svFence (c : Ctx) (n : Nat) : (c.raise n).svFence = c.svFence := rfl
@[simp] theorem Ctx.raise_userFence (c : Ctx) (n : Nat) : (c.raise n).userFence = c.userFence := rfl
@[simp] theorem Ctx.raise_hndFence (c : Ctx) (n : Nat) : (c.raise n).hndFence = c.hndFence := rfl
@[simp] theorem Ctx.raise_userImg (c : Ctx) (n : Nat) : (c.raise n).userImg = c.userImg := rfl
@[simp] theorem Ctx.raise_hndImg (c : Ctx) (n : Nat) : (c.raise n).hndImg = c.hndImg := rfl
@[simp] theorem Ctx.raise_ahead (c : Ctx) (n : Nat) : (c.raise n).ahead = c.ahead := rfl
@[simp] theorem Ctx.raise_released (c : Ctx) (n : Nat) : (c.raise n).released = c.released := rfl
@[simp] theorem Ctx.raise_heard (c : Ctx) (n : Nat) : (c.raise n).heard = c.heard := rfl
@[simp] theorem Ctx.raise_acquired (c : Ctx) (n : Nat) : (c.raise n).acquired = c.acquired := rfl

/-! ### An element is written -/

@[simp] theorem Ctx.setElem_agent (c : Ctx) (wb name n e val : Nat) : (c.setElem wb name n e val).agent = c.agent := by unfold Ctx.setElem Ctx.touchLine; dsimp only; split <;> rfl
@[simp] theorem Ctx.setElem_origin (c : Ctx) (wb name n e val : Nat) : (c.setElem wb name n e val).origin = c.origin := by unfold Ctx.setElem Ctx.touchLine; dsimp only; split <;> rfl
@[simp] theorem Ctx.setElem_pc (c : Ctx) (wb name n e val : Nat) : (c.setElem wb name n e val).pc = c.pc := by unfold Ctx.setElem Ctx.touchLine; dsimp only; split <;> rfl
@[simp] theorem Ctx.setElem_x (c : Ctx) (wb name n e val : Nat) : (c.setElem wb name n e val).x = c.x := by unfold Ctx.setElem Ctx.touchLine; dsimp only; split <;> rfl
@[simp] theorem Ctx.setElem_v (c : Ctx) (wb name n e val : Nat) : (c.setElem wb name n e val).v = c.v.writeBytes (vaddr wb name (e * n)) (toBytes n val) := by unfold Ctx.setElem Ctx.touchLine; dsimp only; split <;> rfl
@[simp] theorem Ctx.setElem_backed (c : Ctx) (wb name n e val : Nat) : (c.setElem wb name n e val).backed = c.backed := by unfold Ctx.setElem Ctx.touchLine; dsimp only; split <;> rfl
@[simp] theorem Ctx.setElem_allBacked (c : Ctx) (wb name n e val : Nat) : (c.setElem wb name n e val).allBacked = c.allBacked := by unfold Ctx.setElem Ctx.touchLine; dsimp only; split <;> rfl
@[simp] theorem Ctx.setElem_absent (c : Ctx) (wb name n e val : Nat) : (c.setElem wb name n e val).absent = c.absent := by unfold Ctx.setElem Ctx.touchLine; dsimp only; split <;> rfl
@[simp] theorem Ctx.setElem_q (c : Ctx) (wb name n e val : Nat) : (c.setElem wb name n e val).q = c.q := by unfold Ctx.setElem Ctx.touchLine; dsimp only; split <;> rfl
@[simp] theorem Ctx.setElem_vl (c : Ctx) (wb name n e val : Nat) : (c.setElem wb name n e val).vl = c.vl := by unfold Ctx.setElem Ctx.touchLine; dsimp only; split <;> rfl
@[simp] theorem Ctx.setElem_vtype (c : Ctx) (wb name n e val : Nat) : (c.setElem wb name n e val).vtype = c.vtype := by unfold Ctx.setElem Ctx.touchLine; dsimp only; split <;> rfl
@[simp] theorem Ctx.setElem_vstart (c : Ctx) (wb name n e val : Nat) : (c.setElem wb name n e val).vstart = c.vstart := by unfold Ctx.setElem Ctx.touchLine; dsimp only; split <;> rfl
@[simp] theorem Ctx.setElem_mtype (c : Ctx) (wb name n e val : Nat) : (c.setElem wb name n e val).mtype = c.mtype := by unfold Ctx.setElem Ctx.touchLine; dsimp only; split <;> rfl
@[simp] theorem Ctx.setElem_wb (c : Ctx) (wb name n e val : Nat) : (c.setElem wb name n e val).wb = c.wb := by unfold Ctx.setElem Ctx.touchLine; dsimp only; split <;> rfl
@[simp] theorem Ctx.setElem_fflags (c : Ctx) (wb name n e val : Nat) : (c.setElem wb name n e val).fflags = c.fflags := by unfold Ctx.setElem Ctx.touchLine; dsimp only; split <;> rfl
@[simp] theorem Ctx.setElem_strip (c : Ctx) (wb name n e val : Nat) : (c.setElem wb name n e val).strip = c.strip := by unfold Ctx.setElem Ctx.touchLine; dsimp only; split <;> rfl
@[simp] theorem Ctx.setElem_cdepth (c : Ctx) (wb name n e val : Nat) : (c.setElem wb name n e val).cdepth = c.cdepth := by unfold Ctx.setElem Ctx.touchLine; dsimp only; split <;> rfl
@[simp] theorem Ctx.setElem_frames (c : Ctx) (wb name n e val : Nat) : (c.setElem wb name n e val).frames = c.frames := by unfold Ctx.setElem Ctx.touchLine; dsimp only; split <;> rfl
@[simp] theorem Ctx.setElem_userFrames (c : Ctx) (wb name n e val : Nat) : (c.setElem wb name n e val).userFrames = c.userFrames := by unfold Ctx.setElem Ctx.touchLine; dsimp only; split <;> rfl
@[simp] theorem Ctx.setElem_hndFrames (c : Ctx) (wb name n e val : Nat) : (c.setElem wb name n e val).hndFrames = c.hndFrames := by unfold Ctx.setElem Ctx.touchLine; dsimp only; split <;> rfl
@[simp] theorem Ctx.setElem_handles (c : Ctx) (wb name n e val : Nat) : (c.setElem wb name n e val).handles = c.handles := by unfold Ctx.setElem Ctx.touchLine; dsimp only; split <;> rfl
@[simp] theorem Ctx.setElem_filter (c : Ctx) (wb name n e val : Nat) : (c.setElem wb name n e val).filter = c.filter := by unfold Ctx.setElem Ctx.touchLine; dsimp only; split <;> rfl
@[simp] theorem Ctx.setElem_srcLayout (c : Ctx) (wb name n e val : Nat) : (c.setElem wb name n e val).srcLayout = c.srcLayout := by unfold Ctx.setElem Ctx.touchLine; dsimp only; split <;> rfl
@[simp] theorem Ctx.setElem_dstLayout (c : Ctx) (wb name n e val : Nat) : (c.setElem wb name n e val).dstLayout = c.dstLayout := by unfold Ctx.setElem Ctx.touchLine; dsimp only; split <;> rfl
@[simp] theorem Ctx.setElem_ctb (c : Ctx) (wb name n e val : Nat) : (c.setElem wb name n e val).ctb = c.ctb := by unfold Ctx.setElem Ctx.touchLine; dsimp only; split <;> rfl
@[simp] theorem Ctx.setElem_tagMask (c : Ctx) (wb name n e val : Nat) : (c.setElem wb name n e val).tagMask = c.tagMask := by unfold Ctx.setElem Ctx.touchLine; dsimp only; split <;> rfl
@[simp] theorem Ctx.setElem_tagMap (c : Ctx) (wb name n e val : Nat) : (c.setElem wb name n e val).tagMap = c.tagMap := by unfold Ctx.setElem Ctx.touchLine; dsimp only; split <;> rfl
@[simp] theorem Ctx.setElem_tileMap (c : Ctx) (wb name n e val : Nat) : (c.setElem wb name n e val).tileMap = c.tileMap := by unfold Ctx.setElem Ctx.touchLine; dsimp only; split <;> rfl
@[simp] theorem Ctx.setElem_claims (c : Ctx) (wb name n e val : Nat) : (c.setElem wb name n e val).claims = c.claims := by unfold Ctx.setElem Ctx.touchLine; dsimp only; split <;> rfl
@[simp] theorem Ctx.setElem_hvl (c : Ctx) (wb name n e val : Nat) : (c.setElem wb name n e val).hvl = c.hvl := by unfold Ctx.setElem Ctx.touchLine; dsimp only; split <;> rfl
@[simp] theorem Ctx.setElem_hvtype (c : Ctx) (wb name n e val : Nat) : (c.setElem wb name n e val).hvtype = c.hvtype := by unfold Ctx.setElem Ctx.touchLine; dsimp only; split <;> rfl
@[simp] theorem Ctx.setElem_hvstart (c : Ctx) (wb name n e val : Nat) : (c.setElem wb name n e val).hvstart = c.hvstart := by unfold Ctx.setElem Ctx.touchLine; dsimp only; split <;> rfl
@[simp] theorem Ctx.setElem_tstat (c : Ctx) (wb name n e val : Nat) : (c.setElem wb name n e val).tstat = c.tstat := by unfold Ctx.setElem Ctx.touchLine; dsimp only; split <;> rfl
@[simp] theorem Ctx.setElem_tcause (c : Ctx) (wb name n e val : Nat) : (c.setElem wb name n e val).tcause = c.tcause := by unfold Ctx.setElem Ctx.touchLine; dsimp only; split <;> rfl
@[simp] theorem Ctx.setElem_tpc (c : Ctx) (wb name n e val : Nat) : (c.setElem wb name n e val).tpc = c.tpc := by unfold Ctx.setElem Ctx.touchLine; dsimp only; split <;> rfl
@[simp] theorem Ctx.setElem_telem (c : Ctx) (wb name n e val : Nat) : (c.setElem wb name n e val).telem = c.telem := by unfold Ctx.setElem Ctx.touchLine; dsimp only; split <;> rfl
@[simp] theorem Ctx.setElem_taddr (c : Ctx) (wb name n e val : Nat) : (c.setElem wb name n e val).taddr = c.taddr := by unfold Ctx.setElem Ctx.touchLine; dsimp only; split <;> rfl
@[simp] theorem Ctx.setElem_trule (c : Ctx) (wb name n e val : Nat) : (c.setElem wb name n e val).trule = c.trule := by unfold Ctx.setElem Ctx.touchLine; dsimp only; split <;> rfl
@[simp] theorem Ctx.setElem_tvec (c : Ctx) (wb name n e val : Nat) : (c.setElem wb name n e val).tvec = c.tvec := by unfold Ctx.setElem Ctx.touchLine; dsimp only; split <;> rfl
@[simp] theorem Ctx.setElem_ctximg (c : Ctx) (wb name n e val : Nat) : (c.setElem wb name n e val).ctximg = c.ctximg := by unfold Ctx.setElem Ctx.touchLine; dsimp only; split <;> rfl
@[simp] theorem Ctx.setElem_stkaddr (c : Ctx) (wb name n e val : Nat) : (c.setElem wb name n e val).stkaddr = c.stkaddr := by unfold Ctx.setElem Ctx.touchLine; dsimp only; split <;> rfl
@[simp] theorem Ctx.setElem_rules (c : Ctx) (wb name n e val : Nat) : (c.setElem wb name n e val).rules = c.rules := by unfold Ctx.setElem Ctx.touchLine; dsimp only; split <;> rfl
@[simp] theorem Ctx.setElem_queue (c : Ctx) (wb name n e val : Nat) : (c.setElem wb name n e val).queue = c.queue := by unfold Ctx.setElem Ctx.touchLine; dsimp only; split <;> rfl
@[simp] theorem Ctx.setElem_userSlot (c : Ctx) (wb name n e val : Nat) : (c.setElem wb name n e val).userSlot = c.userSlot := by unfold Ctx.setElem Ctx.touchLine; dsimp only; split <;> rfl
@[simp] theorem Ctx.setElem_hndSlot (c : Ctx) (wb name n e val : Nat) : (c.setElem wb name n e val).hndSlot = c.hndSlot := by unfold Ctx.setElem Ctx.touchLine; dsimp only; split <;> rfl
@[simp] theorem Ctx.setElem_preSlot (c : Ctx) (wb name n e val : Nat) : (c.setElem wb name n e val).preSlot = c.preSlot := by unfold Ctx.setElem Ctx.touchLine; dsimp only; split <;> rfl
@[simp] theorem Ctx.setElem_routine (c : Ctx) (wb name n e val : Nat) : (c.setElem wb name n e val).routine = c.routine := by unfold Ctx.setElem Ctx.touchLine; dsimp only; split <;> rfl
@[simp] theorem Ctx.setElem_outer (c : Ctx) (wb name n e val : Nat) : (c.setElem wb name n e val).outer = c.outer := by unfold Ctx.setElem Ctx.touchLine; dsimp only; split <;> rfl
@[simp] theorem Ctx.setElem_userRtn (c : Ctx) (wb name n e val : Nat) : (c.setElem wb name n e val).userRtn = c.userRtn := by unfold Ctx.setElem Ctx.touchLine; dsimp only; split <;> rfl
@[simp] theorem Ctx.setElem_hndRtn (c : Ctx) (wb name n e val : Nat) : (c.setElem wb name n e val).hndRtn = c.hndRtn := by unfold Ctx.setElem Ctx.touchLine; dsimp only; split <;> rfl
@[simp] theorem Ctx.setElem_task (c : Ctx) (wb name n e val : Nat) : (c.setElem wb name n e val).task = c.task := by unfold Ctx.setElem Ctx.touchLine; dsimp only; split <;> rfl
@[simp] theorem Ctx.setElem_want (c : Ctx) (wb name n e val : Nat) : (c.setElem wb name n e val).want = c.want := by unfold Ctx.setElem Ctx.touchLine; dsimp only; split <;> rfl
@[simp] theorem Ctx.setElem_pending (c : Ctx) (wb name n e val : Nat) : (c.setElem wb name n e val).pending = c.pending := by unfold Ctx.setElem Ctx.touchLine; dsimp only; split <;> rfl
@[simp] theorem Ctx.setElem_hold (c : Ctx) (wb name n e val : Nat) : (c.setElem wb name n e val).hold = c.hold := by unfold Ctx.setElem Ctx.touchLine; dsimp only; split <;> rfl
@[simp] theorem Ctx.setElem_yieldBy (c : Ctx) (wb name n e val : Nat) : (c.setElem wb name n e val).yieldBy = c.yieldBy := by unfold Ctx.setElem Ctx.touchLine; dsimp only; split <;> rfl
@[simp] theorem Ctx.setElem_arrivals (c : Ctx) (wb name n e val : Nat) : (c.setElem wb name n e val).arrivals = c.arrivals := by unfold Ctx.setElem Ctx.touchLine; dsimp only; split <;> rfl
@[simp] theorem Ctx.setElem_remotes (c : Ctx) (wb name n e val : Nat) : (c.setElem wb name n e val).remotes = c.remotes := by unfold Ctx.setElem Ctx.touchLine; dsimp only; split <;> rfl
@[simp] theorem Ctx.setElem_message (c : Ctx) (wb name n e val : Nat) : (c.setElem wb name n e val).message = c.message := by unfold Ctx.setElem Ctx.touchLine; dsimp only; split <;> rfl
@[simp] theorem Ctx.setElem_stripLoop (c : Ctx) (wb name n e val : Nat) : (c.setElem wb name n e val).stripLoop = c.stripLoop := by unfold Ctx.setElem Ctx.touchLine; dsimp only; split <;> rfl
@[simp] theorem Ctx.setElem_stripCount (c : Ctx) (wb name n e val : Nat) : (c.setElem wb name n e val).stripCount = c.stripCount := by unfold Ctx.setElem Ctx.touchLine; dsimp only; split <;> rfl
@[simp] theorem Ctx.setElem_seq (c : Ctx) (wb name n e val : Nat) : (c.setElem wb name n e val).seq = c.seq := by unfold Ctx.setElem Ctx.touchLine; dsimp only; split <;> rfl
@[simp] theorem Ctx.setElem_svFence (c : Ctx) (wb name n e val : Nat) : (c.setElem wb name n e val).svFence = c.svFence := by unfold Ctx.setElem Ctx.touchLine; dsimp only; split <;> rfl
@[simp] theorem Ctx.setElem_userFence (c : Ctx) (wb name n e val : Nat) : (c.setElem wb name n e val).userFence = c.userFence := by unfold Ctx.setElem Ctx.touchLine; dsimp only; split <;> rfl
@[simp] theorem Ctx.setElem_hndFence (c : Ctx) (wb name n e val : Nat) : (c.setElem wb name n e val).hndFence = c.hndFence := by unfold Ctx.setElem Ctx.touchLine; dsimp only; split <;> rfl
@[simp] theorem Ctx.setElem_userImg (c : Ctx) (wb name n e val : Nat) : (c.setElem wb name n e val).userImg = c.userImg := by unfold Ctx.setElem Ctx.touchLine; dsimp only; split <;> rfl
@[simp] theorem Ctx.setElem_hndImg (c : Ctx) (wb name n e val : Nat) : (c.setElem wb name n e val).hndImg = c.hndImg := by unfold Ctx.setElem Ctx.touchLine; dsimp only; split <;> rfl
@[simp] theorem Ctx.setElem_ahead (c : Ctx) (wb name n e val : Nat) : (c.setElem wb name n e val).ahead = c.ahead := by unfold Ctx.setElem Ctx.touchLine; dsimp only; split <;> rfl
@[simp] theorem Ctx.setElem_released (c : Ctx) (wb name n e val : Nat) : (c.setElem wb name n e val).released = c.released := by unfold Ctx.setElem Ctx.touchLine; dsimp only; split <;> rfl
@[simp] theorem Ctx.setElem_heard (c : Ctx) (wb name n e val : Nat) : (c.setElem wb name n e val).heard = c.heard := by unfold Ctx.setElem Ctx.touchLine; dsimp only; split <;> rfl
@[simp] theorem Ctx.setElem_acquired (c : Ctx) (wb name n e val : Nat) : (c.setElem wb name n e val).acquired = c.acquired := by unfold Ctx.setElem Ctx.touchLine; dsimp only; split <;> rfl

/-! ### A mask bit is written -/

@[simp] theorem Ctx.setMaskBit_agent (c : Ctx) (n e : Nat) (b : Bool) : (c.setMaskBit n e b).agent = c.agent := by unfold Ctx.setMaskBit; split <;> rfl
@[simp] theorem Ctx.setMaskBit_origin (c : Ctx) (n e : Nat) (b : Bool) : (c.setMaskBit n e b).origin = c.origin := by unfold Ctx.setMaskBit; split <;> rfl
@[simp] theorem Ctx.setMaskBit_pc (c : Ctx) (n e : Nat) (b : Bool) : (c.setMaskBit n e b).pc = c.pc := by unfold Ctx.setMaskBit; split <;> rfl
@[simp] theorem Ctx.setMaskBit_x (c : Ctx) (n e : Nat) (b : Bool) : (c.setMaskBit n e b).x = c.x := by unfold Ctx.setMaskBit; split <;> rfl
@[simp] theorem Ctx.setMaskBit_v (c : Ctx) (n e : Nat) (b : Bool) : (c.setMaskBit n e b).v = c.v := by unfold Ctx.setMaskBit; split <;> rfl
@[simp] theorem Ctx.setMaskBit_backed (c : Ctx) (n e : Nat) (b : Bool) : (c.setMaskBit n e b).backed = c.backed := by unfold Ctx.setMaskBit; split <;> rfl
@[simp] theorem Ctx.setMaskBit_allBacked (c : Ctx) (n e : Nat) (b : Bool) : (c.setMaskBit n e b).allBacked = c.allBacked := by unfold Ctx.setMaskBit; split <;> rfl
@[simp] theorem Ctx.setMaskBit_dirty (c : Ctx) (n e : Nat) (b : Bool) : (c.setMaskBit n e b).dirty = c.dirty := by unfold Ctx.setMaskBit; split <;> rfl
@[simp] theorem Ctx.setMaskBit_absent (c : Ctx) (n e : Nat) (b : Bool) : (c.setMaskBit n e b).absent = c.absent := by unfold Ctx.setMaskBit; split <;> rfl
@[simp] theorem Ctx.setMaskBit_vl (c : Ctx) (n e : Nat) (b : Bool) : (c.setMaskBit n e b).vl = c.vl := by unfold Ctx.setMaskBit; split <;> rfl
@[simp] theorem Ctx.setMaskBit_vtype (c : Ctx) (n e : Nat) (b : Bool) : (c.setMaskBit n e b).vtype = c.vtype := by unfold Ctx.setMaskBit; split <;> rfl
@[simp] theorem Ctx.setMaskBit_vstart (c : Ctx) (n e : Nat) (b : Bool) : (c.setMaskBit n e b).vstart = c.vstart := by unfold Ctx.setMaskBit; split <;> rfl
@[simp] theorem Ctx.setMaskBit_mtype (c : Ctx) (n e : Nat) (b : Bool) : (c.setMaskBit n e b).mtype = c.mtype := by unfold Ctx.setMaskBit; split <;> rfl
@[simp] theorem Ctx.setMaskBit_wb (c : Ctx) (n e : Nat) (b : Bool) : (c.setMaskBit n e b).wb = c.wb := by unfold Ctx.setMaskBit; split <;> rfl
@[simp] theorem Ctx.setMaskBit_fflags (c : Ctx) (n e : Nat) (b : Bool) : (c.setMaskBit n e b).fflags = c.fflags := by unfold Ctx.setMaskBit; split <;> rfl
@[simp] theorem Ctx.setMaskBit_strip (c : Ctx) (n e : Nat) (b : Bool) : (c.setMaskBit n e b).strip = c.strip := by unfold Ctx.setMaskBit; split <;> rfl
@[simp] theorem Ctx.setMaskBit_cdepth (c : Ctx) (n e : Nat) (b : Bool) : (c.setMaskBit n e b).cdepth = c.cdepth := by unfold Ctx.setMaskBit; split <;> rfl
@[simp] theorem Ctx.setMaskBit_frames (c : Ctx) (n e : Nat) (b : Bool) : (c.setMaskBit n e b).frames = c.frames := by unfold Ctx.setMaskBit; split <;> rfl
@[simp] theorem Ctx.setMaskBit_userFrames (c : Ctx) (n e : Nat) (b : Bool) : (c.setMaskBit n e b).userFrames = c.userFrames := by unfold Ctx.setMaskBit; split <;> rfl
@[simp] theorem Ctx.setMaskBit_hndFrames (c : Ctx) (n e : Nat) (b : Bool) : (c.setMaskBit n e b).hndFrames = c.hndFrames := by unfold Ctx.setMaskBit; split <;> rfl
@[simp] theorem Ctx.setMaskBit_handles (c : Ctx) (n e : Nat) (b : Bool) : (c.setMaskBit n e b).handles = c.handles := by unfold Ctx.setMaskBit; split <;> rfl
@[simp] theorem Ctx.setMaskBit_filter (c : Ctx) (n e : Nat) (b : Bool) : (c.setMaskBit n e b).filter = c.filter := by unfold Ctx.setMaskBit; split <;> rfl
@[simp] theorem Ctx.setMaskBit_srcLayout (c : Ctx) (n e : Nat) (b : Bool) : (c.setMaskBit n e b).srcLayout = c.srcLayout := by unfold Ctx.setMaskBit; split <;> rfl
@[simp] theorem Ctx.setMaskBit_dstLayout (c : Ctx) (n e : Nat) (b : Bool) : (c.setMaskBit n e b).dstLayout = c.dstLayout := by unfold Ctx.setMaskBit; split <;> rfl
@[simp] theorem Ctx.setMaskBit_ctb (c : Ctx) (n e : Nat) (b : Bool) : (c.setMaskBit n e b).ctb = c.ctb := by unfold Ctx.setMaskBit; split <;> rfl
@[simp] theorem Ctx.setMaskBit_tagMask (c : Ctx) (n e : Nat) (b : Bool) : (c.setMaskBit n e b).tagMask = c.tagMask := by unfold Ctx.setMaskBit; split <;> rfl
@[simp] theorem Ctx.setMaskBit_tagMap (c : Ctx) (n e : Nat) (b : Bool) : (c.setMaskBit n e b).tagMap = c.tagMap := by unfold Ctx.setMaskBit; split <;> rfl
@[simp] theorem Ctx.setMaskBit_tileMap (c : Ctx) (n e : Nat) (b : Bool) : (c.setMaskBit n e b).tileMap = c.tileMap := by unfold Ctx.setMaskBit; split <;> rfl
@[simp] theorem Ctx.setMaskBit_claims (c : Ctx) (n e : Nat) (b : Bool) : (c.setMaskBit n e b).claims = c.claims := by unfold Ctx.setMaskBit; split <;> rfl
@[simp] theorem Ctx.setMaskBit_hvl (c : Ctx) (n e : Nat) (b : Bool) : (c.setMaskBit n e b).hvl = c.hvl := by unfold Ctx.setMaskBit; split <;> rfl
@[simp] theorem Ctx.setMaskBit_hvtype (c : Ctx) (n e : Nat) (b : Bool) : (c.setMaskBit n e b).hvtype = c.hvtype := by unfold Ctx.setMaskBit; split <;> rfl
@[simp] theorem Ctx.setMaskBit_hvstart (c : Ctx) (n e : Nat) (b : Bool) : (c.setMaskBit n e b).hvstart = c.hvstart := by unfold Ctx.setMaskBit; split <;> rfl
@[simp] theorem Ctx.setMaskBit_tstat (c : Ctx) (n e : Nat) (b : Bool) : (c.setMaskBit n e b).tstat = c.tstat := by unfold Ctx.setMaskBit; split <;> rfl
@[simp] theorem Ctx.setMaskBit_tcause (c : Ctx) (n e : Nat) (b : Bool) : (c.setMaskBit n e b).tcause = c.tcause := by unfold Ctx.setMaskBit; split <;> rfl
@[simp] theorem Ctx.setMaskBit_tpc (c : Ctx) (n e : Nat) (b : Bool) : (c.setMaskBit n e b).tpc = c.tpc := by unfold Ctx.setMaskBit; split <;> rfl
@[simp] theorem Ctx.setMaskBit_telem (c : Ctx) (n e : Nat) (b : Bool) : (c.setMaskBit n e b).telem = c.telem := by unfold Ctx.setMaskBit; split <;> rfl
@[simp] theorem Ctx.setMaskBit_taddr (c : Ctx) (n e : Nat) (b : Bool) : (c.setMaskBit n e b).taddr = c.taddr := by unfold Ctx.setMaskBit; split <;> rfl
@[simp] theorem Ctx.setMaskBit_trule (c : Ctx) (n e : Nat) (b : Bool) : (c.setMaskBit n e b).trule = c.trule := by unfold Ctx.setMaskBit; split <;> rfl
@[simp] theorem Ctx.setMaskBit_tvec (c : Ctx) (n e : Nat) (b : Bool) : (c.setMaskBit n e b).tvec = c.tvec := by unfold Ctx.setMaskBit; split <;> rfl
@[simp] theorem Ctx.setMaskBit_ctximg (c : Ctx) (n e : Nat) (b : Bool) : (c.setMaskBit n e b).ctximg = c.ctximg := by unfold Ctx.setMaskBit; split <;> rfl
@[simp] theorem Ctx.setMaskBit_stkaddr (c : Ctx) (n e : Nat) (b : Bool) : (c.setMaskBit n e b).stkaddr = c.stkaddr := by unfold Ctx.setMaskBit; split <;> rfl
@[simp] theorem Ctx.setMaskBit_rules (c : Ctx) (n e : Nat) (b : Bool) : (c.setMaskBit n e b).rules = c.rules := by unfold Ctx.setMaskBit; split <;> rfl
@[simp] theorem Ctx.setMaskBit_queue (c : Ctx) (n e : Nat) (b : Bool) : (c.setMaskBit n e b).queue = c.queue := by unfold Ctx.setMaskBit; split <;> rfl
@[simp] theorem Ctx.setMaskBit_userSlot (c : Ctx) (n e : Nat) (b : Bool) : (c.setMaskBit n e b).userSlot = c.userSlot := by unfold Ctx.setMaskBit; split <;> rfl
@[simp] theorem Ctx.setMaskBit_hndSlot (c : Ctx) (n e : Nat) (b : Bool) : (c.setMaskBit n e b).hndSlot = c.hndSlot := by unfold Ctx.setMaskBit; split <;> rfl
@[simp] theorem Ctx.setMaskBit_preSlot (c : Ctx) (n e : Nat) (b : Bool) : (c.setMaskBit n e b).preSlot = c.preSlot := by unfold Ctx.setMaskBit; split <;> rfl
@[simp] theorem Ctx.setMaskBit_routine (c : Ctx) (n e : Nat) (b : Bool) : (c.setMaskBit n e b).routine = c.routine := by unfold Ctx.setMaskBit; split <;> rfl
@[simp] theorem Ctx.setMaskBit_outer (c : Ctx) (n e : Nat) (b : Bool) : (c.setMaskBit n e b).outer = c.outer := by unfold Ctx.setMaskBit; split <;> rfl
@[simp] theorem Ctx.setMaskBit_userRtn (c : Ctx) (n e : Nat) (b : Bool) : (c.setMaskBit n e b).userRtn = c.userRtn := by unfold Ctx.setMaskBit; split <;> rfl
@[simp] theorem Ctx.setMaskBit_hndRtn (c : Ctx) (n e : Nat) (b : Bool) : (c.setMaskBit n e b).hndRtn = c.hndRtn := by unfold Ctx.setMaskBit; split <;> rfl
@[simp] theorem Ctx.setMaskBit_task (c : Ctx) (n e : Nat) (b : Bool) : (c.setMaskBit n e b).task = c.task := by unfold Ctx.setMaskBit; split <;> rfl
@[simp] theorem Ctx.setMaskBit_want (c : Ctx) (n e : Nat) (b : Bool) : (c.setMaskBit n e b).want = c.want := by unfold Ctx.setMaskBit; split <;> rfl
@[simp] theorem Ctx.setMaskBit_pending (c : Ctx) (n e : Nat) (b : Bool) : (c.setMaskBit n e b).pending = c.pending := by unfold Ctx.setMaskBit; split <;> rfl
@[simp] theorem Ctx.setMaskBit_hold (c : Ctx) (n e : Nat) (b : Bool) : (c.setMaskBit n e b).hold = c.hold := by unfold Ctx.setMaskBit; split <;> rfl
@[simp] theorem Ctx.setMaskBit_yieldBy (c : Ctx) (n e : Nat) (b : Bool) : (c.setMaskBit n e b).yieldBy = c.yieldBy := by unfold Ctx.setMaskBit; split <;> rfl
@[simp] theorem Ctx.setMaskBit_arrivals (c : Ctx) (n e : Nat) (b : Bool) : (c.setMaskBit n e b).arrivals = c.arrivals := by unfold Ctx.setMaskBit; split <;> rfl
@[simp] theorem Ctx.setMaskBit_remotes (c : Ctx) (n e : Nat) (b : Bool) : (c.setMaskBit n e b).remotes = c.remotes := by unfold Ctx.setMaskBit; split <;> rfl
@[simp] theorem Ctx.setMaskBit_message (c : Ctx) (n e : Nat) (b : Bool) : (c.setMaskBit n e b).message = c.message := by unfold Ctx.setMaskBit; split <;> rfl
@[simp] theorem Ctx.setMaskBit_stripLoop (c : Ctx) (n e : Nat) (b : Bool) : (c.setMaskBit n e b).stripLoop = c.stripLoop := by unfold Ctx.setMaskBit; split <;> rfl
@[simp] theorem Ctx.setMaskBit_stripCount (c : Ctx) (n e : Nat) (b : Bool) : (c.setMaskBit n e b).stripCount = c.stripCount := by unfold Ctx.setMaskBit; split <;> rfl
@[simp] theorem Ctx.setMaskBit_seq (c : Ctx) (n e : Nat) (b : Bool) : (c.setMaskBit n e b).seq = c.seq := by unfold Ctx.setMaskBit; split <;> rfl
@[simp] theorem Ctx.setMaskBit_svFence (c : Ctx) (n e : Nat) (b : Bool) : (c.setMaskBit n e b).svFence = c.svFence := by unfold Ctx.setMaskBit; split <;> rfl
@[simp] theorem Ctx.setMaskBit_userFence (c : Ctx) (n e : Nat) (b : Bool) : (c.setMaskBit n e b).userFence = c.userFence := by unfold Ctx.setMaskBit; split <;> rfl
@[simp] theorem Ctx.setMaskBit_hndFence (c : Ctx) (n e : Nat) (b : Bool) : (c.setMaskBit n e b).hndFence = c.hndFence := by unfold Ctx.setMaskBit; split <;> rfl
@[simp] theorem Ctx.setMaskBit_userImg (c : Ctx) (n e : Nat) (b : Bool) : (c.setMaskBit n e b).userImg = c.userImg := by unfold Ctx.setMaskBit; split <;> rfl
@[simp] theorem Ctx.setMaskBit_hndImg (c : Ctx) (n e : Nat) (b : Bool) : (c.setMaskBit n e b).hndImg = c.hndImg := by unfold Ctx.setMaskBit; split <;> rfl
@[simp] theorem Ctx.setMaskBit_ahead (c : Ctx) (n e : Nat) (b : Bool) : (c.setMaskBit n e b).ahead = c.ahead := by unfold Ctx.setMaskBit; split <;> rfl
@[simp] theorem Ctx.setMaskBit_released (c : Ctx) (n e : Nat) (b : Bool) : (c.setMaskBit n e b).released = c.released := by unfold Ctx.setMaskBit; split <;> rfl
@[simp] theorem Ctx.setMaskBit_heard (c : Ctx) (n e : Nat) (b : Bool) : (c.setMaskBit n e b).heard = c.heard := by unfold Ctx.setMaskBit; split <;> rfl
@[simp] theorem Ctx.setMaskBit_acquired (c : Ctx) (n e : Nat) (b : Bool) : (c.setMaskBit n e b).acquired = c.acquired := by unfold Ctx.setMaskBit; split <;> rfl

/-! ### A word of a context is done -/

/-- A word that is done changes the position, and at the end of a routine the temporaries; nothing else. -/
theorem Ctx.advance_record (c : Ctx) (n : Nat) : c.advance n =
    { c with x := (c.advance n).x, pc := (c.advance n).pc, routine := (c.advance n).routine, hold := .run,
             remotes := (c.forget c.instrPc none).remotes } := by
  unfold Ctx.advance
  cases hr : c.routine with
  | none => simp [Ctx.forget, Ctx.instrPc, hr]
  | some r => by_cases ho : r.off + n < r.words <;> simp [Ctx.forget, Ctx.instrPc, Ctx.endRoutine, hr, ho]

@[simp] theorem Ctx.advance_agent (c : Ctx) (n : Nat) : (c.advance n).agent = c.agent := by rw [Ctx.advance_record]
@[simp] theorem Ctx.advance_origin (c : Ctx) (n : Nat) : (c.advance n).origin = c.origin := by rw [Ctx.advance_record]
@[simp] theorem Ctx.advance_v (c : Ctx) (n : Nat) : (c.advance n).v = c.v := by rw [Ctx.advance_record]
@[simp] theorem Ctx.advance_backed (c : Ctx) (n : Nat) : (c.advance n).backed = c.backed := by rw [Ctx.advance_record]
@[simp] theorem Ctx.advance_allBacked (c : Ctx) (n : Nat) : (c.advance n).allBacked = c.allBacked := by rw [Ctx.advance_record]
@[simp] theorem Ctx.advance_dirty (c : Ctx) (n : Nat) : (c.advance n).dirty = c.dirty := by rw [Ctx.advance_record]
@[simp] theorem Ctx.advance_absent (c : Ctx) (n : Nat) : (c.advance n).absent = c.absent := by rw [Ctx.advance_record]
@[simp] theorem Ctx.advance_q (c : Ctx) (n : Nat) : (c.advance n).q = c.q := by rw [Ctx.advance_record]
@[simp] theorem Ctx.advance_vl (c : Ctx) (n : Nat) : (c.advance n).vl = c.vl := by rw [Ctx.advance_record]
@[simp] theorem Ctx.advance_vtype (c : Ctx) (n : Nat) : (c.advance n).vtype = c.vtype := by rw [Ctx.advance_record]
@[simp] theorem Ctx.advance_vstart (c : Ctx) (n : Nat) : (c.advance n).vstart = c.vstart := by rw [Ctx.advance_record]
@[simp] theorem Ctx.advance_mtype (c : Ctx) (n : Nat) : (c.advance n).mtype = c.mtype := by rw [Ctx.advance_record]
@[simp] theorem Ctx.advance_wb (c : Ctx) (n : Nat) : (c.advance n).wb = c.wb := by rw [Ctx.advance_record]
@[simp] theorem Ctx.advance_fflags (c : Ctx) (n : Nat) : (c.advance n).fflags = c.fflags := by rw [Ctx.advance_record]
@[simp] theorem Ctx.advance_strip (c : Ctx) (n : Nat) : (c.advance n).strip = c.strip := by rw [Ctx.advance_record]
@[simp] theorem Ctx.advance_cdepth (c : Ctx) (n : Nat) : (c.advance n).cdepth = c.cdepth := by rw [Ctx.advance_record]
@[simp] theorem Ctx.advance_records (c : Ctx) (n : Nat) : (c.advance n).frames = c.frames := by rw [Ctx.advance_record]
@[simp] theorem Ctx.advance_userFrames (c : Ctx) (n : Nat) : (c.advance n).userFrames = c.userFrames := by rw [Ctx.advance_record]
@[simp] theorem Ctx.advance_hndFrames (c : Ctx) (n : Nat) : (c.advance n).hndFrames = c.hndFrames := by rw [Ctx.advance_record]
@[simp] theorem Ctx.advance_handles (c : Ctx) (n : Nat) : (c.advance n).handles = c.handles := by rw [Ctx.advance_record]
@[simp] theorem Ctx.advance_filter (c : Ctx) (n : Nat) : (c.advance n).filter = c.filter := by rw [Ctx.advance_record]
@[simp] theorem Ctx.advance_srcLayout (c : Ctx) (n : Nat) : (c.advance n).srcLayout = c.srcLayout := by rw [Ctx.advance_record]
@[simp] theorem Ctx.advance_dstLayout (c : Ctx) (n : Nat) : (c.advance n).dstLayout = c.dstLayout := by rw [Ctx.advance_record]
@[simp] theorem Ctx.advance_ctb (c : Ctx) (n : Nat) : (c.advance n).ctb = c.ctb := by rw [Ctx.advance_record]
@[simp] theorem Ctx.advance_tagMask (c : Ctx) (n : Nat) : (c.advance n).tagMask = c.tagMask := by rw [Ctx.advance_record]
@[simp] theorem Ctx.advance_tagMap (c : Ctx) (n : Nat) : (c.advance n).tagMap = c.tagMap := by rw [Ctx.advance_record]
@[simp] theorem Ctx.advance_tileMap (c : Ctx) (n : Nat) : (c.advance n).tileMap = c.tileMap := by rw [Ctx.advance_record]
@[simp] theorem Ctx.advance_claims (c : Ctx) (n : Nat) : (c.advance n).claims = c.claims := by rw [Ctx.advance_record]
@[simp] theorem Ctx.advance_hvl (c : Ctx) (n : Nat) : (c.advance n).hvl = c.hvl := by rw [Ctx.advance_record]
@[simp] theorem Ctx.advance_hvtype (c : Ctx) (n : Nat) : (c.advance n).hvtype = c.hvtype := by rw [Ctx.advance_record]
@[simp] theorem Ctx.advance_hvstart (c : Ctx) (n : Nat) : (c.advance n).hvstart = c.hvstart := by rw [Ctx.advance_record]
@[simp] theorem Ctx.advance_tstat (c : Ctx) (n : Nat) : (c.advance n).tstat = c.tstat := by rw [Ctx.advance_record]
@[simp] theorem Ctx.advance_tcause (c : Ctx) (n : Nat) : (c.advance n).tcause = c.tcause := by rw [Ctx.advance_record]
@[simp] theorem Ctx.advance_tpc (c : Ctx) (n : Nat) : (c.advance n).tpc = c.tpc := by rw [Ctx.advance_record]
@[simp] theorem Ctx.advance_telem (c : Ctx) (n : Nat) : (c.advance n).telem = c.telem := by rw [Ctx.advance_record]
@[simp] theorem Ctx.advance_taddr (c : Ctx) (n : Nat) : (c.advance n).taddr = c.taddr := by rw [Ctx.advance_record]
@[simp] theorem Ctx.advance_trule (c : Ctx) (n : Nat) : (c.advance n).trule = c.trule := by rw [Ctx.advance_record]
@[simp] theorem Ctx.advance_tvec (c : Ctx) (n : Nat) : (c.advance n).tvec = c.tvec := by rw [Ctx.advance_record]
@[simp] theorem Ctx.advance_ctximg (c : Ctx) (n : Nat) : (c.advance n).ctximg = c.ctximg := by rw [Ctx.advance_record]
@[simp] theorem Ctx.advance_stkaddr (c : Ctx) (n : Nat) : (c.advance n).stkaddr = c.stkaddr := by rw [Ctx.advance_record]
@[simp] theorem Ctx.advance_rules (c : Ctx) (n : Nat) : (c.advance n).rules = c.rules := by rw [Ctx.advance_record]
@[simp] theorem Ctx.advance_queue (c : Ctx) (n : Nat) : (c.advance n).queue = c.queue := by rw [Ctx.advance_record]
@[simp] theorem Ctx.advance_userSlot (c : Ctx) (n : Nat) : (c.advance n).userSlot = c.userSlot := by rw [Ctx.advance_record]
@[simp] theorem Ctx.advance_hndSlot (c : Ctx) (n : Nat) : (c.advance n).hndSlot = c.hndSlot := by rw [Ctx.advance_record]
@[simp] theorem Ctx.advance_preSlot (c : Ctx) (n : Nat) : (c.advance n).preSlot = c.preSlot := by rw [Ctx.advance_record]
@[simp] theorem Ctx.advance_outer (c : Ctx) (n : Nat) : (c.advance n).outer = c.outer := by rw [Ctx.advance_record]
@[simp] theorem Ctx.advance_userRtn (c : Ctx) (n : Nat) : (c.advance n).userRtn = c.userRtn := by rw [Ctx.advance_record]
@[simp] theorem Ctx.advance_hndRtn (c : Ctx) (n : Nat) : (c.advance n).hndRtn = c.hndRtn := by rw [Ctx.advance_record]
@[simp] theorem Ctx.advance_task (c : Ctx) (n : Nat) : (c.advance n).task = c.task := by rw [Ctx.advance_record]
@[simp] theorem Ctx.advance_want (c : Ctx) (n : Nat) : (c.advance n).want = c.want := by rw [Ctx.advance_record]
@[simp] theorem Ctx.advance_pending (c : Ctx) (n : Nat) : (c.advance n).pending = c.pending := by rw [Ctx.advance_record]
@[simp] theorem Ctx.advance_hold (c : Ctx) (n : Nat) : (c.advance n).hold = .run := by rw [Ctx.advance_record]
@[simp] theorem Ctx.advance_yieldBy (c : Ctx) (n : Nat) : (c.advance n).yieldBy = c.yieldBy := by rw [Ctx.advance_record]
@[simp] theorem Ctx.advance_arrivals (c : Ctx) (n : Nat) : (c.advance n).arrivals = c.arrivals := by rw [Ctx.advance_record]
@[simp] theorem Ctx.advance_remotes (c : Ctx) (n : Nat) : (c.advance n).remotes = (c.forget c.instrPc none).remotes := by rw [Ctx.advance_record]
@[simp] theorem Ctx.advance_message (c : Ctx) (n : Nat) : (c.advance n).message = c.message := by rw [Ctx.advance_record]
@[simp] theorem Ctx.advance_stripLoop (c : Ctx) (n : Nat) : (c.advance n).stripLoop = c.stripLoop := by rw [Ctx.advance_record]
@[simp] theorem Ctx.advance_stripCount (c : Ctx) (n : Nat) : (c.advance n).stripCount = c.stripCount := by rw [Ctx.advance_record]
@[simp] theorem Ctx.advance_seq (c : Ctx) (n : Nat) : (c.advance n).seq = c.seq := by rw [Ctx.advance_record]
@[simp] theorem Ctx.advance_svFence (c : Ctx) (n : Nat) : (c.advance n).svFence = c.svFence := by rw [Ctx.advance_record]
@[simp] theorem Ctx.advance_userFence (c : Ctx) (n : Nat) : (c.advance n).userFence = c.userFence := by rw [Ctx.advance_record]
@[simp] theorem Ctx.advance_hndFence (c : Ctx) (n : Nat) : (c.advance n).hndFence = c.hndFence := by rw [Ctx.advance_record]
@[simp] theorem Ctx.advance_userImg (c : Ctx) (n : Nat) : (c.advance n).userImg = c.userImg := by rw [Ctx.advance_record]
@[simp] theorem Ctx.advance_hndImg (c : Ctx) (n : Nat) : (c.advance n).hndImg = c.hndImg := by rw [Ctx.advance_record]
@[simp] theorem Ctx.advance_ahead (c : Ctx) (n : Nat) : (c.advance n).ahead = c.ahead := by rw [Ctx.advance_record]
@[simp] theorem Ctx.advance_released (c : Ctx) (n : Nat) : (c.advance n).released = c.released := by rw [Ctx.advance_record]
@[simp] theorem Ctx.advance_heard (c : Ctx) (n : Nat) : (c.advance n).heard = c.heard := by rw [Ctx.advance_record]
@[simp] theorem Ctx.advance_acquired (c : Ctx) (n : Nat) : (c.advance n).acquired = c.acquired := by rw [Ctx.advance_record]

end Sys2Proof.Machine
end

