-- ==== Sys2Proof/Laws/Stores.lean ====
section
/-! SUPPORT. What a store changes: at its home slice, on its way, and at a buffer chip; and what `storeBytes` does. -/

namespace Sys2Proof.Machine

/-! ## Cells of consecutive bytes -/

/-- Writing the cells of consecutive bytes is writing the bytes. -/
theorem Memory.writeCells_cellsAt (m : Memory) (a : Nat) (bs : List Byte) : m.writeCells (cellsAt a bs) = m.writeBytes a bs := by
  induction bs generalizing m a with
  | nil => rfl
  | cons b t ih => simp [cellsAt, Memory.writeCells, Memory.writeBytes, ih]

/-- The offsets in a line of bytes that lie in it. -/
theorem cellsAt_offsets (a : Nat) (bs : List Byte) (h : a % 128 + bs.length ≤ 128) :
    (cellsAt a bs).map (fun c : Host.Cell => (c.1 % 128, c.2)) = cellsAt (a % 128) bs := by
  induction bs generalizing a with
  | nil => rfl
  | cons b t ih =>
    simp only [List.length_cons] at h
    simp only [cellsAt, List.map_cons, List.cons.injEq, true_and]
    cases t with
    | nil => rfl
    | cons c u =>
      simp only [List.length_cons] at h
      have h1 : (a + 1) % 128 = a % 128 + 1 := by omega
      have := ih (a + 1) (by simp only [List.length_cons]; omega)
      rw [h1] at this
      exact this

/-! ## The home slice -/

/-- Every line of the L2 has its data in canonical form. -/
theorem State.wf_l2 {s : State} (h : s.wf = true) : s.hbm.wf = true ∧ ∀ e ∈ s.l2, e.data.wf = true := by
  simp only [State.wf, Bool.and_eq_true, List.all_eq_true] at h
  exact ⟨h.1.1.1, h.1.1.2⟩

/-- The L2 holds the line after a fill. -/
theorem State.l2Find_l2Fill (s : State) (t line : Nat) (z : Bool) : ((s.l2Fill t line z).l2Find line).isSome = true := by
  unfold State.l2Fill
  cases e : s.l2Find line with
  | some x =>
    have : x.line = line := by have := List.find?_some e; simpa using this
    simp [State.l2Find, this]
  | none => simp [State.l2Find]

/-- The lines of the L2 stay in canonical form over a fill that keeps every line. -/
theorem State.l2Fill_data {s : State} {t line : Nat} {z : Bool} (hw : s.hbm.wf = true) (hd : ∀ e ∈ s.l2, e.data.wf = true)
    (h : s.fillKeeps t line z) : ∀ e ∈ (s.l2Fill t line z).l2, e.data.wf = true := by
  unfold State.l2Fill
  cases c : s.l2Find line with
  | some x =>
    intro e he
    simp only [List.mem_cons, List.mem_filter] at he
    cases he with
    | inl he => rw [he]; exact hd x (List.mem_of_find?_eq_some c)
    | inr he => exact hd e he.1
  | none =>
    have hk : z = false ∧ s.l2Room t line = s := by
      cases h with
      | inl h => simp [c] at h
      | inr h => exact ⟨h.1, State.l2Room_eq h.2⟩
    intro e he
    simp only [hk.1, hk.2, List.mem_cons] at he
    cases he with
    | inl he => rw [he]; exact Memory.wf_slice (State.behind_wf hw)
    | inr he => exact hd e he

/-- Marks of errors are not what memory holds. -/
theorem State.homeByte_repair (s : State) (w : Nat → Nat → Bool) (x : Nat) : (s.repair w).homeByte x = s.homeByte x := rfl

/-- Lines dropped from L1s leave the home slices as they are. -/
theorem State.homeByte_invalidateL1 (s : State) (l : Nat) (k : Option Nat) (x : Nat) : (s.invalidateL1 l k).homeByte x = s.homeByte x := rfl

/-- The trails of stores are not what memory holds. -/
theorem State.overwritten_frame (s : State) (w : Agent → Bool) (bs : List Host.Cell) :
    s.overwritten w bs = { s with trails := (s.overwritten w bs).trails } := by
  unfold State.overwritten
  split <;> rfl

theorem State.homeByte_overwritten (s : State) (w : Agent → Bool) (bs : List Host.Cell) (x : Nat) :
    (s.overwritten w bs).homeByte x = s.homeByte x := by
  rw [State.overwritten_frame]; rfl

theorem State.overwritten_caches (s : State) (w : Agent → Bool) (bs : List Host.Cell) : OnlyCaches s (s.overwritten w bs) := by
  rw [State.overwritten_frame]; exact ⟨rfl, fun _ => rfl⟩

/-- Nor are they when a store is written into an L1. -/
theorem State.leaveTrail_frame (s : State) (f : Flight) : s.leaveTrail f = { s with trails := (s.leaveTrail f).trails } := by
  unfold State.leaveTrail
  dsimp only
  split
  · exact State.overwritten_frame ..
  · rw [State.overwritten_frame]

/-- A store of consecutive bytes of one line performed at its home slice. -/
theorem State.homeByte_homeWrite {s : State} {t pa : Nat} {bs : List Byte} {cap z : Bool} {w : Option Nat} (hw : s.hbm.wf = true)
    (hd : ∀ e ∈ s.l2, e.data.wf = true) (h : s.fillKeeps t (pa / 128) z) (hb : pa % 128 + bs.length ≤ 128) (x : Nat) :
    (s.homeWrite t (pa / 128) (cellsAt pa bs) cap z w).homeByte x =
      if pa ≤ x ∧ x < pa + bs.length then (bs[x - pa]?).getD 0 else s.homeByte x := by
  unfold State.homeWrite
  dsimp only
  rw [State.homeByte_overwritten, State.homeByte_repair, State.homeByte_invalidateL1, cellsAt_offsets pa bs hb]
  have hkeep := State.homeByte_l2Fill hw h x
  have hdata := State.l2Fill_data hw hd h
  have hsome := State.l2Find_l2Fill s t (pa / 128) z
  generalize s.l2Fill t (pa / 128) z = u at hkeep hdata hsome
  rw [← hkeep]
  unfold State.homeByte State.l2Find
  simp only
  rw [find?_map_line _ _ (fun e => by split <;> rfl)]
  by_cases hx : x / 128 = pa / 128
  · rw [hx]
    unfold State.l2Find at hsome
    cases hc : u.l2.find? fun e => e.line == pa / 128 with
    | none => rw [hc] at hsome; simp at hsome
    | some e =>
      have he : (e.line == pa / 128) = true := by have := List.find?_some hc; simpa using this
      have hew : e.data.wf = true := hdata e (List.mem_of_find?_eq_some hc)
      simp only [Option.map_some, he, if_true]
      rw [Memory.writeCells_cellsAt, Memory.read_writeBytes hew]
      by_cases hin : pa ≤ x ∧ x < pa + bs.length
      · have h1 : pa % 128 ≤ x % 128 ∧ x % 128 < pa % 128 + bs.length := by omega
        rw [if_pos hin, if_pos h1]
        congr 2; omega
      · have h1 : ¬ (pa % 128 ≤ x % 128 ∧ x % 128 < pa % 128 + bs.length) := by omega
        rw [if_neg hin, if_neg h1]
  · have hin : ¬ (pa ≤ x ∧ x < pa + bs.length) := by omega
    rw [if_neg hin]
    cases hc : u.l2.find? fun e => e.line == x / 128 with
    | none => rfl
    | some e =>
      have he : e.line = x / 128 := by have := List.find?_some hc; simpa using this
      have : ¬ (e.line == pa / 128) = true := by rw [he]; simpa using hx
      simp only [Option.map_some]
      rw [if_neg this]

/-- A store performed at its home slice changes caches alone and nothing in flight. -/
theorem State.homeWrite_frame (s : State) (t line : Nat) (bs : List Host.Cell) (cap z : Bool) (w : Option Nat) :
    (s.homeWrite t line bs cap z w).ctx = s.ctx ∧ (s.homeWrite t line bs cap z w).flights = s.flights ∧
    OnlyCaches s (s.homeWrite t line bs cap z w) := by
  have h := s.l2Fill_frame t line z
  unfold State.homeWrite
  dsimp only
  refine ⟨by rw [State.overwritten_frame]; exact h.1, by rw [State.overwritten_frame]; exact h.2.1, OnlyCaches.trans (State.l2Fill_caches s t line z) (OnlyCaches.trans (State.setL2_caches _ _)
    (OnlyCaches.trans (State.invalidateL1_caches _ line w) (OnlyCaches.trans ⟨rfl, fun _ => rfl⟩ (State.overwritten_caches _ _ _))))⟩

/-! ## Stores on their way -/

/-- The youngest store of some once one more is on its way. -/
theorem youngestByte_append (p : Flight → Bool) (pa : Nat) (l : List Flight) (f : Flight) :
    youngestByte p pa (l ++ [f]) =
      if p f && (lookup? pa f.bytes).isSome then (lookup? pa f.bytes).map fun b => (b, f.agent) else youngestByte p pa l := by
  induction l with
  | nil =>
    simp only [List.nil_append, youngestByte]
    by_cases h : p f = true
    · simp only [h, if_true]; cases lookup? pa f.bytes <;> simp
    · simp [h]
  | cons g t ih =>
    simp only [List.cons_append, youngestByte, ih]
    by_cases h : (p f && (lookup? pa f.bytes).isSome) = true
    · rw [if_pos h, if_pos h]
      simp only [Bool.and_eq_true] at h
      obtain ⟨b, hb⟩ := Option.isSome_iff_exists.1 h.2
      simp [hb]
    · rw [if_neg h, if_neg h]

/-- A store that some do not count, or that does not cover the byte, changes nothing of the youngest of those. -/
theorem youngestByte_skip {p : Flight → Bool} {pa : Nat} {l : List Flight} {f : Flight} (h : p f = false ∨ lookup? pa f.bytes = none) :
    youngestByte p pa (l ++ [f]) = youngestByte p pa l := by
  rw [youngestByte_append, if_neg]
  rcases h with h | h <;> simp [h]

/-- A store that is not yet at its home slice is not behind it (R161). -/
theorem State.homeByte_append {s : State} {f : Flight} (h : f.toChip = false) (x : Nat) :
    ({ s with flights := s.flights ++ [f] } : State).homeByte x = s.homeByte x := by
  have hb : ({ s with flights := s.flights ++ [f] } : State).behind = s.behind := by simp [State.behind, List.foldl_append, h]
  unfold State.homeByte State.l2Find
  rw [hb]

/-- The cells of consecutive bytes, looked up outside them. -/
theorem lookup?_cellsAt_outside {pa x : Nat} {bs : List Byte} (h : ¬ (pa ≤ x ∧ x < pa + bs.length)) : lookup? x (cellsAt pa bs) = none := by
  rw [lookup?_cellsAt]
  by_cases h1 : pa ≤ x
  · rw [if_pos h1]; exact List.getElem?_eq_none (by omega)
  · rw [if_neg h1]

/-- The cells of consecutive bytes, looked up inside them. -/
theorem lookup?_cellsAt_inside {pa i : Nat} {bs : List Byte} (h : i < bs.length) : lookup? (pa + i) (cellsAt pa bs) = some bs[i] := by
  rw [lookup?_cellsAt, if_pos (by omega), show pa + i - pa = i by omega]; exact List.getElem?_eq_getElem h

/-- A byte that one more store on its way does not cover reads as before. -/
theorem SameByte.of_append {s : State} {f : Flight} {n : Nat} {g : Agent} {x : Nat} (hc : f.toChip = false) (hf : lookup? x f.bytes = none) :
    SameByte s { s with flights := s.flights ++ [f], stores := n } g x := by
  have hh : ({ s with flights := s.flights ++ [f], stores := n } : State).homeByte x = s.homeByte x := State.homeByte_append hc x
  have hb : ({ s with flights := s.flights ++ [f], stores := n } : State).byteAt g x = s.byteAt g x := by
    unfold State.byteAt
    rw [State.readByte_eq, State.readByte_eq, hh]
    cases coreOf g with
    | none => rfl
    | some j =>
      have hn : ({ s with flights := s.flights ++ [f], stores := n } : State).near j x = s.near j x := by unfold State.near; rw [hh]; rfl
      simp only [youngestByte_skip (.inr hf), hn]
  refine ⟨hb, ?_⟩
  unfold State.scalarByte State.queuedByte
  simp only [youngestByte_skip (.inr hf)]
  exact congrArg _ hb

/-- The valid bytes of a line of an L1 after one was written. -/
theorem lookup?_putCell (a i : Nat) (b : Byte) (cs : List Host.Cell) : lookup? i (putCell a b cs) = if a = i then some b else lookup? i cs := by
  induction cs with
  | nil => rfl
  | cons c t ih =>
    obtain ⟨k, d⟩ := c
    unfold putCell
    split
    · rfl
    · split
      · next h => subst h; simp only [lookup?]; split <;> rfl
      · next h =>
        simp only [lookup?, ih]
        by_cases hk : k = i
        · rw [if_pos hk, if_pos hk, if_neg (by omega)]
        · rw [if_neg hk, if_neg hk]

/-- After several were written. -/
theorem lookup?_putCells (i : Nat) (cs ds : List Host.Cell) (h : ∀ c ∈ ds, c.1 ≠ i) : lookup? i (putCells cs ds) = lookup? i cs := by
  induction ds generalizing cs with
  | nil => rfl
  | cons c t ih =>
    obtain ⟨k, d⟩ := c
    unfold putCells
    rw [ih _ fun x hx => h x (List.mem_cons_of_mem _ hx), lookup?_putCell, if_neg (h (k, d) (List.mem_cons_self ..))]

/-- A store written into an L1 that keeps its lines leaves what agents read of every other byte, where no store of the core covers it. -/
theorem State.near_l1Store {s : State} {g : Agent} {k pa : Nat} {bs : List Byte} (hk : coreOf g = some k) (hl : s.l1Keeps g (pa / 128))
    (hb : pa % 128 + bs.length ≤ 128) {x j : Nat} (hx : ¬ (pa ≤ x ∧ x < pa + bs.length))
    (hy : youngestByte (fun f => f.leaves j) x s.flights = none) :
    (s.mapCore k fun c => c.l1Store (pa / 128) (cellsAt pa bs)).near j x = s.near j x := by
  have hput := State.near_l1Put (s := s) (k := k) (line := pa / 128)
    (bytes := putCells ((((s.core k).l1Find (pa / 128)).map (·.bytes)).getD []) ((cellsAt pa bs).map fun b => (b.1 % 128, b.2)))
    (f := fun y => (lookup? (y % 128) (putCells ((((s.core k).l1Find (pa / 128)).map (·.bytes)).getD [])
      ((cellsAt pa bs).map fun b => (b.1 % 128, b.2)))).getD (s.homeByte y))
    (by intro o ho; rw [show (128 * (pa / 128) + o) % 128 = o by omega])
    (by unfold State.l1Keeps at hl; rw [hk] at hl; exact hl) j x hy
  have he : (s.mapCore k fun c => c.l1Store (pa / 128) (cellsAt pa bs)) = s.mapCore k fun c => c.l1Put
      { line := pa / 128
        bytes := putCells ((((s.core k).l1Find (pa / 128)).map (·.bytes)).getD []) ((cellsAt pa bs).map fun b => (b.1 % 128, b.2)) } := rfl
  rw [he, hput]
  split
  · next h =>
    obtain ⟨rfl, hp⟩ := h
    rw [lookup?_putCells]
    · unfold State.near
      rw [hp]
      cases (s.core j).l1Find (pa / 128) with
      | none => simp [lookup?]
      | some e => rfl
    · rw [cellsAt_offsets pa bs hb]
      intro c hc
      have : ∀ (a : Nat) (l : List Byte), ∀ d ∈ cellsAt a l, a ≤ d.1 ∧ d.1 < a + l.length := by
        intro a l
        induction l generalizing a with
        | nil => intro d hd; simp [cellsAt] at hd
        | cons b t ih =>
          intro d hd
          simp only [cellsAt, List.mem_cons] at hd
          rcases hd with rfl | hd
          · simp
          · have := ih (a + 1) d hd; simp only [List.length_cons]; omega
      have := this _ _ c hc
      omega
  · rfl

/-- A store that a context sends is seen by its vector stream above core scope, and by no other agent; the home slices are as they
were. -/
theorem State.sendStore_stored {s : State} {g : Agent} {t pa : Nat} {bs : List Byte} {cap z : Bool} (hg : (coreOf g).isSome = true)
    (hl : s.l1Keeps g (pa / 128)) (hb : pa % 128 + bs.length ≤ 128) :
    let u := s.sendStore g t (pa / 128) (cellsAt pa bs) cap z
    Stored s u g pa bs ∧ OnlyCaches s u ∧ u.ctx = s.ctx := by
  obtain ⟨k, hk⟩ := Option.isSome_iff_exists.1 hg
  unfold State.sendStore
  simp only [hk]
  have hc := State.mapL1_caches s k (fun c => c.l1Store (pa / 128) (cellsAt pa bs)) (fun c => rfl)
  let f : Flight := { agent := g, tenant := t, line := pa / 128, bytes := cellsAt pa bs, capacity := cap, zero := z, id := s.stores
                      after := (s.getCtx g).released.filter s.underway, stage := .toHome }
  have hf : f.toChip = false := by simp [f, Flight.toChip]
  have hn := fun x j => State.near_l1Store (s := s) (j := j) (x := x) hk hl hb
  generalize hm : (s.mapCore k fun c => c.l1Store (pa / 128) (cellsAt pa bs)) = m at hc hn
  have hmf : m.flights = s.flights := by rw [← hm]; rfl
  have hmc : m.ctx = s.ctx := by rw [← hm]; rfl
  have hmh : ∀ x, m.homeByte x = s.homeByte x := fun x => by rw [← hm]; rfl
  have hms : m.stores = s.stores := by rw [← hm]; rfl
  rw [State.leaveTrail_frame]
  refine ⟨⟨?_, ?_, ?_, fun _ x => ?_⟩, OnlyCaches.trans hc ⟨rfl, fun _ => rfl⟩, hmc⟩
  · intro i hi
    unfold State.byteAt
    rw [State.readByte_eq]
    simp [hk, youngestByte_append, Flight.leaves, lookup?_cellsAt_inside hi]
  · intro h x hx
    have h1 : SameByte s m h x := SameByte.of_near hmf (hmh x) (fun j hy => hn x j hx hy) h
    have h2 := SameByte.of_append (s := m) (g := h) (f := f) (n := s.stores + 1) hf (lookup?_cellsAt_outside hx)
    exact ⟨h2.1.trans h1.1, h2.2.trans h1.2⟩
  · intro c a
    show (m.core c).scratch.read a = _
    rw [hc.2 c]
  · exact (State.homeByte_append (s := m) hf x).trans (hmh x)

/-- A store that enters the store queue of a context is seen by its scalar stream alone (R184). -/
theorem State.queueStore_queued {s : State} {g : Agent} {t pa : Nat} {bs : List Byte} {cap z : Bool} (hg : (coreOf g).isSome = true) :
    let u := s.queueStore g t (pa / 128) (cellsAt pa bs) cap z
    StoreQueued s u g pa bs ∧ OnlyCaches s u ∧ u.ctx = s.ctx := by
  obtain ⟨k, hk⟩ := Option.isSome_iff_exists.1 hg
  unfold State.queueStore
  simp only [hk]
  refine ⟨⟨?_, fun h x hx => ?_, fun h x => ?_, fun _ _ => rfl, fun x => ?_⟩, ⟨rfl, fun _ => rfl⟩, trivial⟩
  · intro i hi
    unfold State.scalarByte State.queuedByte
    simp [youngestByte_append, Flight.queuedOf, lookup?_cellsAt_inside hi]
  · exact SameByte.of_append (by simp [Flight.toChip]) (lookup?_cellsAt_outside hx)
  · have hh := fun f (hc : f.toChip = false) => State.homeByte_append (s := s) (f := f) hc x
    unfold State.byteAt
    rw [State.readByte_eq, State.readByte_eq]
    have h0 := hh { agent := g, tenant := t, line := pa / 128, bytes := cellsAt pa bs, capacity := cap, zero := z, seq := (s.getCtx g).seq
                    id := s.stores, after := (s.getCtx g).released.filter s.underway, stage := .queued } (by simp [Flight.toChip])
    cases coreOf h with
    | none => exact h0
    | some j =>
      dsimp only
      rw [youngestByte_skip (.inl (by simp [Flight.leaves])), youngestByte_skip (.inl (by simp))]
      unfold State.near
      have h1 : ∀ (v : State), v.homeByte x = s.homeByte x → v.cores = s.cores →
          (((v.core j).l1Find (x / 128)).bind fun e => lookup? (x % 128) e.bytes).getD (v.homeByte x) =
            (((s.core j).l1Find (x / 128)).bind fun e => lookup? (x % 128) e.bytes).getD (s.homeByte x) := by
        intro v hv hvc; unfold State.core; rw [hv, hvc]
      have h2 := h1 { s with
        flights := s.flights ++ [{ agent := g, tenant := t, line := pa / 128, bytes := cellsAt pa bs, capacity := cap, zero := z
                                   seq := (s.getCtx g).seq, id := s.stores, after := (s.getCtx g).released.filter s.underway
                                   stage := .queued }], stores := s.stores + 1 } h0 rfl
      rw [h2]
      rw [show ({ s with
        flights := s.flights ++ [{ agent := g, tenant := t, line := pa / 128, bytes := cellsAt pa bs, capacity := cap, zero := z
                                   seq := (s.getCtx g).seq, id := s.stores, after := (s.getCtx g).released.filter s.underway
                                   stage := .queued }], stores := s.stores + 1 } : State).homeByte x = s.homeByte x from h0]
  · exact State.homeByte_append (by simp [Flight.toChip]) x

/-- A store takes the place of reads that went before it there: only the context's own notes of those change (R148). -/
theorem State.dropAhead_frame (s : State) (pa n : Nat) :
    s.dropAhead s.ctx.agent pa n = { s with ctx := { s.ctx with ahead := (s.dropAhead s.ctx.agent pa n).ctx.ahead } } := by
  unfold State.dropAhead
  dsimp only
  split
  · rfl
  · simp only [State.getCtx, State.setCtx, if_true]

/-- A store that leaves its store queue changes an L1 and what is in flight alone (R184). -/
theorem State.queueStoreAt_caches (s : State) (k : Nat) : OnlyCaches s (s.queueStoreAt k) ∧ (s.queueStoreAt k).ctx = s.ctx := by
  unfold State.queueStoreAt
  split
  · next f hf =>
    split
    · next c hc =>
      split
      · have hl := State.leaveTrail_frame (s.mapCore c fun x => x.l1Store f.line f.bytes) f
        refine ⟨OnlyCaches.trans (State.mapL1_caches s c (fun x => x.l1Store f.line f.bytes) fun c => rfl) ?_, ?_⟩
        · dsimp only; rw [hl]; exact ⟨rfl, fun _ => rfl⟩
        · dsimp only; rw [hl]; rfl
      · exact ⟨OnlyCaches.rfl' s, rfl⟩
    · exact ⟨OnlyCaches.rfl' s, rfl⟩
  · exact ⟨OnlyCaches.rfl' s, rfl⟩

/-- So do all of them. -/
theorem State.drainQueue_caches (s : State) (g : Agent) : OnlyCaches s (s.drainQueue g) ∧ (s.drainQueue g).ctx = s.ctx := by
  unfold State.drainQueue
  generalize (s.storeQueue g).length = n
  induction n generalizing s with
  | zero => exact ⟨OnlyCaches.rfl' s, rfl⟩
  | succ n ih =>
    unfold State.emptyQueue
    split
    · exact ⟨OnlyCaches.rfl' s, rfl⟩
    · have h : OnlyCaches s (s.leaveQueue g) ∧ (s.leaveQueue g).ctx = s.ctx := by
        unfold State.leaveQueue
        split
        · exact State.queueStoreAt_caches ..
        · exact ⟨OnlyCaches.rfl' s, rfl⟩
      exact ⟨OnlyCaches.trans h.1 (ih _).1, (ih _).2.trans h.2⟩

/-- What a scalar store of a context does outside collecting mode. -/
theorem storeBytes_storesAt {s : State} {addr : Word} {align : Nat} {bs : List Byte} (hn : s.ctx.collecting = false)
    (hg : (coreOf s.ctx.agent).isSome = true) : StoresAt s (storeBytes addr align bs s) addr align bs := by
  unfold StoresAt storeBytes
  dsimp only
  have hw : (s.ctx.svHeld || decide (Config.storeQueue ≤ (s.storeQueue s.ctx.agent).length)) = true ↔
      s.fenced ∨ 16 ≤ (s.storeQueue s.ctx.agent).length := by rw [State.fenced_iff, Bool.or_eq_true, decide_eq_true_iff]; rfl
  refine ⟨fun h => by rw [if_pos (hw.2 h)]; rfl, fun h => ?_⟩
  rw [if_neg fun x => h (hw.1 x)]
  unfold State.scalarTarget
  by_cases h1 : isCanonical addr = false
  · rw [if_pos h1, if_pos h1]; rfl
  rw [if_neg h1, if_neg h1]
  by_cases h2 : addr.toNat % align ≠ 0
  · rw [if_pos h2, if_pos h2]
  rw [if_neg h2, if_neg h2, if_neg (by simp [hn])]
  unfold State.storeAt
  rw [State.scalarAcc_place]
  have hq : s.scalarAcc.g = s.ctx.agent ∧ s.scalarAcc.user = s.ctx.user ∧ s.scalarAcc.scalar = true := ⟨rfl, rfl, rfl⟩
  simp only [hq.1, hq.2.1, hq.2.2, if_true, hg]
  cases ht : s.translate (placeOf s.ctx.agent) (s.tenantOf s.ctx.agent) .store s.ctx.user addr with
  | error c => rfl
  | ok p =>
    refine ⟨fun ha => ?_, fun ha _ _ => ?_⟩
    · simp only [ha]
      cases hc : s.ctx.agent with
      | handler a b c => rw [hc] at hg; cases hg
      | ctx id =>
        rw [← hc]
        have hfc : (s.fillTlb (placeOf s.ctx.agent) (s.tenantOf s.ctx.agent) .store addr).ctx = s.ctx := by rw [(State.fillTlb_frame ..).1]
        refine State.remoteAt_remotely (q := s.scalarAcc) (n := 0) (id := id) (f := fun _ t => done t.advance)
          hc hfc (State.fillTlb_caches ..) (State.fillTlb_memory ..) rfl rfl ?_ ?_
        · simp only [hc]
          generalize State.remoteAt _ s.scalarAcc p.owner p.pa .store 0 bs = y
          cases y <;> rfl
        · intro _ hr
          have hadv := Ctx.advance_frame s.ctx 1
          refine ⟨_, hr, fun x => ?_, ?_, ?_, ?_, ?_⟩
          · unfold State.getX State.advance; rw [hfc]; exact Ctx.advance_getX ..
          · have h := Ctx.advance_moves s 1
            unfold MovesBy State.advance at *; rw [hfc]; exact h
          · unfold SameButOrder State.advance; simp only [hfc]; rw [hadv]
          · exact OnlyCaches.trans (State.fillTlb_caches ..) ⟨rfl, fun _ => rfl⟩
          · have h := State.fillTlb_memory s (placeOf s.ctx.agent) (s.tenantOf s.ctx.agent) .store addr
            exact ⟨fun g x => h.1 g x, fun k a => h.2 k a⟩
    let u := (s.fillTlb (placeOf s.ctx.agent) (s.tenantOf s.ctx.agent) .store addr).dropAhead s.ctx.agent p.pa bs.length
    have hfr := s.fillTlb_frame (placeOf s.ctx.agent) (s.tenantOf s.ctx.agent) .store addr
    have hfc : (s.fillTlb (placeOf s.ctx.agent) (s.tenantOf s.ctx.agent) .store addr).ctx = s.ctx := by rw [hfr.1]
    have hud : u = { s.fillTlb (placeOf s.ctx.agent) (s.tenantOf s.ctx.agent) .store addr with
        ctx := { s.ctx with ahead := u.ctx.ahead } } := by
      have := State.dropAhead_frame (s.fillTlb (placeOf s.ctx.agent) (s.tenantOf s.ctx.agent) .store addr) p.pa bs.length
      rw [hfc] at this; exact this
    have hu : u.ctx = { s.ctx with ahead := u.ctx.ahead } := by rw [hud]
    have hsm : SameMemory s u := by
      have h := State.fillTlb_memory s (placeOf s.ctx.agent) (s.tenantOf s.ctx.agent) .store addr
      rw [hud]
      exact ⟨fun g x => h.1 g x, fun k a => h.2 k a⟩
    have huh : ∀ x, u.homeByte x = s.homeByte x := fun x => by rw [hud]; exact State.homeByte_fillTlb ..
    have huc : OnlyCaches s u := by
      have h := State.fillTlb_caches s (placeOf s.ctx.agent) (s.tenantOf s.ctx.agent) .store addr
      rw [hud]
      exact ⟨by conv => lhs; rw [h.1], fun k => h.2 k⟩
    have key : ∀ cap : Bool, Completes (done (u.queueStore s.ctx.agent (s.tenantOf s.ctx.agent) (p.pa / 128) (cellsAt p.pa bs) cap p.zero).advance)
        fun t => StoreQueued s t s.ctx.agent p.pa bs ∧ (∀ x, t.getX x = s.ctx.leaves 1 x (s.getX x)) ∧ MovesBy 1 s t ∧ SameButOrder s t ∧ OnlyCaches s t := by
      intro cap
      obtain ⟨hs, hc, hx⟩ := State.queueStore_queued (s := u) (g := s.ctx.agent) (t := s.tenantOf s.ctx.agent) (pa := p.pa) (bs := bs)
        (cap := cap) (z := p.zero) hg
      generalize u.queueStore s.ctx.agent (s.tenantOf s.ctx.agent) (p.pa / 128) (cellsAt p.pa bs) cap p.zero = v at hs hc hx
      have hv : v.ctx = { s.ctx with ahead := u.ctx.ahead } := hx.trans hu
      generalize u.ctx.ahead = ah at hv
      have hadv : v.advance = { v with ctx := v.ctx.advance 1 } := rfl
      have hvx : ∀ x, v.ctx.getX x = s.ctx.getX x := fun x => by rw [hv]; rfl
      have hof : SameMemory v v.advance := SameMemory.of_ctx rfl
      refine ⟨_, rfl, ⟨fun k hk => ?_, fun h x hx => ?_, fun h x => ?_, fun k a => ?_, fun x => ?_⟩, fun x => ?_, ?_, ?_, ?_⟩
      · rw [(hof.1 _ _).2]; exact hs.1 k hk
      · have a1 := hof.1 h x; have a2 := hs.2.1 h x hx; have a3 := hsm.1 h x
        exact ⟨a1.1.trans (a2.1.trans a3.1), a1.2.trans (a2.2.trans a3.2)⟩
      · exact (hof.1 h x).1.trans ((hs.2.2.1 h x).trans (hsm.1 h x).1)
      · exact (hof.2 k a).trans ((hs.2.2.2.1 k a).trans (hsm.2 k a))
      · rw [hadv]; exact (hs.2.2.2.2 x).trans (huh x)
      · unfold State.getX; rw [hadv, Ctx.advance_getX, hvx]; unfold Ctx.leaves; rw [hv]
      · have h := Ctx.advance_moves v 1
        unfold MovesBy at h ⊢
        rw [hadv]; rw [hv] at h ⊢; exact h
      · unfold SameButOrder; rw [hadv, Ctx.advance_frame, hv]
      · have : OnlyCaches v v.advance := ⟨rfl, fun _ => rfl⟩
        exact OnlyCaches.trans huc (OnlyCaches.trans hc this)
    cases h : p.attr with
    | remote => exact absurd h ha
    | normal => simp only [h]; exact key _
    | capacity => simp only [h]; exact key _

end Sys2Proof.Machine
end

