-- ==== Sys2Proof/Laws/Traps.lean ====
section
/-! SUPPORT. What taking a trap does, said once: where it waits, where it enters the handler, where it ends the task. -/

namespace Sys2Proof.Machine

/-- The trap frame of a context's trap at the depth in force. -/
def Ctx.frameOf (c : Ctx) (cause : Cause) (pc rpc : Word) (elem : Nat) (addr rule : Word) (event : Bool) : TrapFrame :=
  { cause := causeCode cause, pc := pc, elem := elem, addr := addr, rule := rule, tstat := c.trapStat event, rpc := rpc }

/-- Where the state block takes the records, the level area and the frame, a trap below depth 2 with a handler enters it. -/
theorem State.enterTrap_enters {s u v : State} {id : Nat} {cause : Cause} {pc rpc addr rule : Word} {elem : Nat} {event : Bool}
    (hd : depthOf (s.getCtx (.ctx id)).tstat < 2) (hv : depthOf (s.getCtx (.ctx id)).tstat = 0 → (s.getCtx (.ctx id)).tvec ≠ 0)
    (hq : cause ≠ .queuegone)
    (hu : (((s.grainsDue (.ctx id)).saveSlot (.ctx id) (if depthOf (s.getCtx (.ctx id)).tstat = 0 then 0x20000 else 0x30000) (s.getCtx (.ctx id)).records).bind
      fun s' => s'.saveLevel (.ctx id) (depthOf (s.getCtx (.ctx id)).tstat)) = some u)
    (hf : u.saveFrame (.ctx id) (if depthOf (s.getCtx (.ctx id)).tstat = 0 then 0x6000 else 0x6080)
      ((s.getCtx (.ctx id)).frameOf cause pc rpc elem addr rule event) = some v) :
    s.enterTrap (.ctx id) cause pc rpc elem addr rule event = (v.endPark (.ctx id)).mapCtx (.ctx id) fun c =>
      c.enterHandler ((s.getCtx (.ctx id)).frameOf cause pc rpc elem addr rule event) (s.getCtx (.ctx id)).records
        (depthOf (s.getCtx (.ctx id)).tstat) := by
  unfold State.enterTrap
  have h : ¬ (depthOf (s.getCtx (.ctx id)).tstat = 2 ∨ (depthOf (s.getCtx (.ctx id)).tstat = 0 ∧ (s.getCtx (.ctx id)).tvec = 0) ∨
      cause = .queuegone) := by
    rintro (h | h | h)
    · omega
    · exact hv h.1 h.2
    · exact hq h
  simp only [if_neg h]
  rw [hu, Option.bind_some]
  change (match u.saveFrame (.ctx id) _ ((s.getCtx (.ctx id)).frameOf cause pc rpc elem addr rule event) with
    | none => _
    | some s => _) = _
  rw [hf]
  rfl

/-- A trap at depth 2, at depth 0 without a handler, or of cause QUEUEGONE ends the task (R404). -/
theorem State.enterTrap_fatal {s : State} {id : Nat} {cause : Cause} {pc rpc addr rule : Word} {elem : Nat} {event : Bool}
    (h : depthOf (s.getCtx (.ctx id)).tstat = 2 ∨
      (depthOf (s.getCtx (.ctx id)).tstat = 0 ∧ (s.getCtx (.ctx id)).tvec = 0) ∨ cause = .queuegone) :
    s.enterTrap (.ctx id) cause pc rpc elem addr rule event = s.fatal (.ctx id)
      { (s.getCtx (.ctx id)).frameOf cause pc rpc elem addr rule event with tstat := (s.getCtx (.ctx id)).tstat } := by
  unfold State.enterTrap
  simp only [if_pos h]
  rfl

/-- A scalar fault with no rule standing and every begun element complete is taken (R396). -/
theorem State.takeTrap_pending {s : State} {g : Agent} {p : Pending} (ht : (s.getCtx g).takesTraps = true)
    (hr : (s.getCtx g).rules.filter (fun r => !r.detached) = []) (hp : (s.getCtx g).pending = some p)
    (hq : (s.getCtx g).queue.isEmpty = true) (hb : s.begunDone g = true) :
    s.takeTrap g =
      (if p.next then s.mapCtx g Ctx.pastWord else s).enterTrap g p.cause p.pc p.rpc p.elem p.addr noRule p.event := by
  unfold State.takeTrap
  simp [ht, hr, hp, hq, hb]

/-- Every begun element is complete where the stores are performed and no begun access has left the module (R396). -/
theorem State.begunDone_of {s : State} {g : Agent} (hs : s.storesDone g = true) (hb : ∀ r ∈ (s.getCtx g).remotes, r.begun = false) :
    s.begunDone g = true := by
  simp only [State.begunDone, hs, Bool.true_and, List.all_eq_true]
  intro r h; simp [hb r h]

/-- The trap of a scalar word with nothing older under way, and no access of its own that has left the module, is taken at once. -/
theorem State.raiseAt_takes {s : State} {cause : Cause} {rpc addr : Word} {elem : Nat} {event : Bool} (hr : s.ctx.rules = [])
    (hq : s.ctx.queue = [])
    (hs : s.storesDone s.ctx.agent = true) (hb : ∀ r ∈ s.ctx.remotes, r.begun = false) :
    s.raiseAt cause rpc elem addr event =
      ({ s with ctx := { s.ctx with
        pending := some { cause := cause, pc := s.ctx.instrPc, rpc := rpc, elem := elem, addr := addr, event := event },
        hold := .stall } } : State).enterTrap s.ctx.agent cause s.ctx.instrPc rpc elem addr noRule event := by
  unfold State.raiseAt State.raisePending
  dsimp only
  generalize hp : (({ cause := cause, pc := s.ctx.instrPc, rpc := rpc, elem := elem, addr := addr, event := event } : Pending)) = p
  generalize hc : ({ s.ctx with pending := some p, hold := .stall } : Ctx) = c
  have hg : ({ s with ctx := c } : State).getCtx s.ctx.agent = c := by subst hc; simp [State.getCtx]
  have h := State.takeTrap_pending (s := { s with ctx := c }) (g := s.ctx.agent) (p := p)
    (by rw [hg, ← hc]; rfl) (by rw [hg, ← hc]; simp [hr]) (by rw [hg, ← hc]) (by rw [hg, ← hc]; simp [hq])
    (State.begunDone_of (by exact hs) (by rw [hg, ← hc]; exact hb))
  rw [h, ← hp]
  rfl

/-- The trap of a scalar word waits while an older rule stands that has met no cause (R396). -/
theorem State.raiseAt_waits {s : State} {cause : Cause} {rpc addr : Word} {elem : Nat} {event : Bool} {r : Rule} {rs : List Rule}
    (hr : s.ctx.rules.filter (fun x => !x.detached) = r :: rs) (hf : r.fault = none) :
    s.raiseAt cause rpc elem addr event =
      { s with ctx := { s.ctx with
        pending := some { cause := cause, pc := s.ctx.instrPc, rpc := rpc, elem := elem, addr := addr, event := event },
        hold := .stall } } := by
  unfold State.raiseAt State.raisePending State.takeTrap
  simp only [State.getCtx, if_true, Ctx.takesTraps, hr, hf]
  simp

end Sys2Proof.Machine
end

