-- ==== Sys2Proof/Tests/Slice0.lean ====
section
/-! SUPPORT. Tests: ill-formed terms that the check refuses, words written out from the spec's encodings, single steps on small
states with results from the spec, and for every statement with hypotheses states and operands that meet them. -/

namespace Sys2Proof.Tests

set_option Elab.async false

open Sys2Proof Sys2Proof.Machine

/-! ## Ill-formed terms -/

/-- R28: a mask register above q7, a tile above t3, a weight buffer above wb1, a copy tag above 63, a route tag above 7. -/
theorem test_wf_register_ranges :
    (Instr.qand 8 0 0).wf = false ∧ (Instr.qand 7 7 7).wf = true ∧ (Instr.veqVv 8 0 0 0 false).wf = false ∧
    (Instr.mzero 4).wf = false ∧ (Instr.mzero 3).wf = true ∧ (Instr.mwl 2 0 0).wf = false ∧ (Instr.mwl 1 0 0).wf = true ∧
    (Instr.mvw 0 0 2 0 0).wf = false ∧ (Instr.cpgoMm 64 0 0).wf = false ∧ (Instr.cpgoMm 63 0 0).wf = true ∧
    (Instr.fsend 8 0 0).wf = false ∧ (Instr.fsend 7 0 0).wf = true := by decide

/-- R30, R41: dt without a mask, vmerge without a mask. R27: a shift amount of 64. -/
theorem test_wf_masks_and_amounts :
    (Instr.vaddVv 1 2 3 0 true).wf = false ∧ (Instr.vaddVv 1 2 3 1 true).wf = true ∧ (Instr.vmergeVv 1 2 3 0 false).wf = false ∧
    (Instr.vmergeVx 1 2 3 3 false).wf = true ∧ (Instr.vslli 1 2 64 0).wf = false ∧ (Instr.vslli 1 2 63 0).wf = true := by decide

/-- R44: a type code with bit 5 set, one of class bfp, one of a pair that vtype does not allow. R45: register names that run past 127. -/
theorem test_wf_codes :
    (Instr.vcvt 2 3 13 0 false).wf = true ∧ (Instr.vcvt 2 3 0b0101101 0 false).wf = false ∧ (Instr.vcvt 2 3 0b0011000 0 false).wf = false ∧
    (Instr.vcvt 2 3 0b0001100 0 false).wf = false ∧ (Instr.vamocas 127 0 0).wf = false ∧ (Instr.vamocas 126 0 0).wf = true ∧
    (Instr.elfilt 0 0 127).wf = false ∧ (Instr.elrebase 0 0 126).wf = false ∧ (Instr.elrebase 0 0 125).wf = true := by decide

/-- Writes of vstart, fflags and ctximg are rows of their own; a word of majors 0x3A-0x3F that a twin word takes is no plain trigger. -/
theorem test_wf_rows :
    (Instr.ctlWr 1 0x002).wf = false ∧ (Instr.ctlWr 1 0x029).wf = true ∧ (Instr.microcodeTrigger 0xE8000001).wf = false ∧
    (Instr.microcodeTrigger 0xE8000000).wf = true ∧ (Instr.microcodeTrigger 0x64000000).wf = false := by decide

/-! ## Words of the spec -/

/-- The worked encodings of 02_encoding.md. -/
theorem test_decode_worked :
    decodeTableWord 32 0x641840A8 = some (.vaddVv 3 4 5 1 false) ∧ decodeTableWord 32 0xC0414010 = some (.vld 8 20 2 false) ∧
    decodeTableWord 32 0xC0414014 = some (.vld 8 20 2 true) ∧ decodeTableWord 32 0xC0414004 = none ∧
    decodeTableWord 32 0xB81031A0 = some (.vcvt 2 3 13 0 false) ∧ decodeTableWord 32 0xD9142C61 = some (.mops 1 10 11 12 0) ∧
    decodeTableWord 32 0x5C380011 = some (.ctlRd 7 0x011) ∧ decodeTableWord 32 0x5C000802 = some .ecall ∧
    decodeTableWord 64 (0x24012345 + 2 ^ 32 * 0x08500678) = some (.lim 0x12345 0x08500678) := by decide +kernel

/-- Scalar majors (R34-R36), field by field. -/
theorem test_decode_scalar :
    decodeTableWord 32 0b000001_0000101_0000110_0000111_00000 = some (.add 5 6 7) ∧
    decodeTableWord 32 0b000001_0000101_0000110_0000000_11110 = some (.bswap 5 6) ∧
    decodeTableWord 32 0b000001_0000101_0000110_0000001_11110 = none ∧ decodeTableWord 32 0b000001_0000101_0000110_0000000_11111 = none ∧
    decodeTableWord 32 0b000010_0000101_0000110_111111111111 = some (.addi 5 6 0xFFF) ∧
    decodeTableWord 32 0b000110_0000101_0000110_100000_111111 = some (.srai 5 6 63) ∧
    decodeTableWord 32 0b000110_0000101_0000110_100001_111111 = none ∧
    decodeTableWord 32 0b001010_0000101_1000000000000000001 = some (.pcrel 5 0x40001) ∧
    decodeTableWord 32 0b001011_0000101_0000110_110_100000000 = some (.ldWn 5 6 0x100) ∧
    decodeTableWord 32 0b001100_0000101_0000110_100_000000000 = none ∧
    decodeTableWord 32 0b001100_0000101_0000110_011_000000001 = some (.stD 5 6 1) ∧
    decodeTableWord 32 0b010000_0000101_0000110_100000000000 = some (.bge 5 6 0x800) ∧
    decodeTableWord 32 0b010011_0000001_1111111111111111111 = some (.jal 1 0x7FFFF) ∧
    decodeTableWord 32 0b010101_0000101_0000110_0000111_11001 = some (.amocasW 5 6 7) := by decide +kernel

/-- System majors (R37-R39). -/
theorem test_decode_system :
    decodeTableWord 32 0b010110_0000000_0000000_000000000100 = some .fenceFull ∧
    decodeTableWord 32 0b010110_0000101_0000110_000000100001 = some (.waitGe 5 6) ∧
    decodeTableWord 32 0b010110_0000001_0000000_000000110000 = none ∧
    decodeTableWord 32 0b010111_0000000_0000110_010000101001 = some (.ctlWr 6 0x029) ∧
    decodeTableWord 32 0b010111_0000000_0000110_010000000010 = some (.ctlWrVstart 6) ∧
    decodeTableWord 32 0b010111_0000000_0000110_100000001001 = some (.strule 6) ∧
    decodeTableWord 32 0b010111_0000000_0000000_110000000000 = none := by decide +kernel

/-- Vector majors (R41-R44). -/
theorem test_decode_vector :
    decodeTableWord 32 0b011000_0000101_0000110_0000111_00000 = some (.vset 5 6 7) ∧
    decodeTableWord 32 0b011000_0000101_0000110_0000000_01011 = none ∧
    decodeTableWord 32 0b100100_0000101_0000110_0000111_11_1_11 = some (.vmergeVx 5 6 7 3 true) ∧
    decodeTableWord 32 0b100101_0000101_0000110_10000000_01_00 = some (.vaddi 5 6 0x80 1) ∧
    decodeTableWord 32 0b100110_0000101_10000001_01111110_000 = some (.vidx 5 0x81 0x7E) ∧
    decodeTableWord 32 0b101000_0000111_0000110_0000101_00_0_11 = some (.vge 7 6 5 0 false) ∧
    decodeTableWord 32 0b101011_0000101_0000110_0000111_10_1_01 = some (.vredsumT 5 6 7 2 true) ∧
    decodeTableWord 32 0b101101_0000101_0000111_0000000_01_0_00 = some (.qpopc 5 7 1) ∧
    decodeTableWord 32 0b110010_0000101_0000110_0000111_00_0_11 = some (.vstxo 5 6 7 0 false) ∧
    decodeTableWord 32 0b110100_0000101_0000110_0000111_00_0_10 = some (.vpst 5 6 7) := by decide +kernel

/-- Engine, object and matrix majors (R45, R46), twin words (R89), triggers and reserved majors (R33). -/
theorem test_decode_engines :
    decodeTableWord 32 0b110101_0111111_0000110_0000111_00011 = some (.cpgoMs 63 6 7) ∧
    decodeTableWord 32 0b110101_1000000_0000110_0000111_00011 = none ∧
    decodeTableWord 32 0b110101_0000101_0000110_0000111_11010 = some (.elrebase 5 6 7) ∧
    decodeTableWord 32 0b110111_0000001_0000110_0000111_00101 = some (.mwl 1 6 7) ∧
    decodeTableWord 32 0b111000_10_0000110_0000111_0001000_11_0 = some (.mopm 2 6 7 8 3) ∧
    decodeTableWord 32 0b111010_01_0001010_0001011_0001100_00_1 = some (.mopsTwin 1 10 11 12 0) ∧
    decodeTableWord 32 0xFC000007 = some (.microcodeTrigger 0xFC000007) ∧ decodeTableWord 32 0 = none ∧
    decodeTableWord 32 0b111001_00000000000000000000000001 = none := by decide +kernel

/-- A lim alone, with a partner of zeros, is the pair that is ILLOP at the lim's pc (R32). -/
theorem test_decode_lim_alone : decodeTableWord 32 0x24012345 = some (.lim 0x12345 0) := by decide +kernel

/-- The example words of 05_elements.md R131. -/
theorem test_words_configuration : ((
    [(0x602860E0, .vset 5 6 7), (0x60286001, .vsetl 5 6), (0x60008002, .mset 8), (0x60009003, .wbase 9), (0x6050B004, .vstrip 10 11),
     (0x6050B005, .vstripI 10 11), (0x60000006, .vnext), (0x606031A7, .vmvXs 12 3 13), (0x6020E1E8, .vmvSx 4 14 15),
     (0x60310009, .vbcst 6 16), (0x6011100A, .qset 2 17), (0x6019400C, .vpresq 3 20)] : List (Nat × Instr)).all fun p =>
    decodeTableWord 32 p.1 == some p.2) = true := by decide +kernel

/-- The example words of 07_memory.md R183-R199. -/
theorem test_words_memory : ((
    [(0x2C2861FF, .ldB 5 6 0x1FF), (0x2C286402, .ldW 5 6 2), (0x302863FF, .stH 5 6 0x1FF), (0x30006700, .stD 0 6 0x100),
     (0x542860E0, .amoaddD 5 6 7), (0x542860E8, .amoswapD 5 6 7), (0x542860F7, .amomaxnW 5 6 7), (0x542860F9, .amocasW 5 6 7),
     (0xC0414001, .vldff 8 20 0 false), (0xC0414002, .vst 8 20 0 false), (0xC44142A0, .vlds 8 20 21 0 false),
     (0xC44142A2, .vsts 8 20 21 0 false), (0xC8414500, .vldx 8 20 40 0 false), (0xC8414502, .vstx 8 20 40 0 false),
     (0xCC414500, .vamoadd 8 20 40 0 false), (0xD441450F, .vamocas 8 20 40), (0x58000000, .fenceSv), (0x58000001, .fenceVs),
     (0x58000002, .fenceRel), (0x58000003, .fenceAcq), (0x58000005, .ifence), (0x58009050, .zline 9)] : List (Nat × Instr)).all fun p =>
    decodeTableWord 32 p.1 == some p.2) = true := by decide +kernel

/-- The example words of 08_copies.md R211-R217. -/
theorem test_words_copies : ((
    [(0xD401E000, .cpls 30), (0xD4288122, .cpgoMm 5 8 9), (0xD4288123, .cpgoMs 5 8 9), (0xD4288124, .cpgoSm 5 8 9),
     (0xD4288125, .cpgoSs 5 8 9), (0xD4286006, .cwany 5 6), (0xD4006007, .cwall 6), (0xD4286008, .cffr 5 6), (0xD4006009, .ctclr 6)] : List (Nat × Instr)).all fun p =>
    decodeTableWord 32 p.1 == some p.2) = true := by decide +kernel

/-- The example words of 09_effects.md R224, R235. -/
theorem test_words_effects : ((
    [(0xD42860F6, .ccall 5 6 7), (0xD4000017, .cret), (0xD42860F8, .elcat 5 6 7), (0xD4605119, .elfilt 12 5 8),
     (0xD468C1DA, .elrebase 13 12 14), (0xD400501B, .elapply 5), (0xD400601C, .eldrop 6), (0xD428601D, .elinfo 5 6)] : List (Nat × Instr)).all fun p =>
    decodeTableWord 32 p.1 == some p.2) = true := by decide +kernel

/-- The example words of 11_scalar.md R260-R266. -/
theorem test_words_arithmetic : ((
    [(0x0450A160, .add 10 10 11), (0x042860E9, .rot 5 6 7), (0x042860F1, .mulh 5 6 7), (0x042860F4, .divn 5 6 7),
     (0x04286018, .clz 5 6), (0x0870E001, .addi 14 14 1), (0x0C2860FF, .andi 5 6 255), (0x10286FFF, .ori 5 6 0xFFF),
     (0x14286FFF, .xori 5 6 0xFFF), (0x1C286FFB, .slti 5 6 0xFFB), (0x2028600A, .sltni 5 6 10), (0x1878E003, .slli 15 14 3),
     (0x1828643F, .srli 5 6 63), (0x18286801, .srai 5 6 1), (0x18286C20, .roti 5 6 32), (0x50001000, .jalr 0 1 0),
     (0x4C080010, .jal 1 16)] : List (Nat × Instr)).all fun p =>
    decodeTableWord 32 p.1 == some p.2) = true := by decide +kernel

/-- The example words of 12_vector_ops.md R273. -/
theorem test_words_vector_arithmetic : ((
    [(0x64082060, .vaddVv 1 2 3 0 false), (0x68082061, .vdivVv 1 2 3 0 false), (0x6C08206A, .vsaddVv 1 2 3 1 false),
     (0x70082062, .vxorVv 1 2 3 0 false), (0x74082063, .vsgnjVv 1 2 3 0 false), (0x78082073, .vmergeVv 1 2 3 2 false),
     (0x94082FD0, .vaddi 1 2 0xFD 0), (0x940821F7, .vsrai 1 2 31 1), (0x98300020, .vidx 6 0 4), (0x9837F801, .vbcsti 6 0xFF),
     (0x9C1040A3, .vle 2 4 5 0 false), (0xA0104123, .vge 2 4 9 0 false), (0xA4307040, .vcompress 6 7 2 0 false),
     (0xA4307102, .vpick 6 7 8 0 false), (0xA8307120, .vshup 6 7 9 0 false), (0xAC307101, .vredsumT 6 7 8 0 false),
     (0xB0081043, .qandn 1 1 2), (0xB410110A, .vbitq 2 1 8 1 false), (0xB4482000, .qpopc 9 2 0), (0xB8307101, .vtobfp 6 7 8 0 false),
     (0xBC307002, .vrsqrt 6 7 0 false)] : List (Nat × Instr)).all fun p =>
    decodeTableWord 32 p.1 == some p.2) = true := by decide +kernel

/-- The example words of 13_matrix.md R298, 14_pooling.md. -/
theorem test_words_matrix : ((
    [(0xDA081402, .mop 2 4 5 1), (0xE01050A8, .mopm 0 8 20 21 0), (0xE30C0449, .mvw 3 6 1 9 0), (0xDC080000, .mzero 1),
     (0xDC0942A1, .mfold 1 20 21), (0xDC3800A2, .mrd 7 0 5), (0xDC0070A3, .mwr 0 7 5), (0xDC3800A4, .mrdc 7 0 5),
     (0xDC008125, .mwl 0 8 9), (0xDC280006, .mstat 5), (0xD420E1EA, .spool 4 14 15)] : List (Nat × Instr)).all fun p =>
    decodeTableWord 32 p.1 == some p.2) = true := by decide +kernel

/-- The example words of 15_scheduling.md, 16_fabric.md. -/
theorem test_words_fabric : ((
    [(0xD4009031, .wlpush 9 1), (0xD4009032, .wlins 9 1), (0xD4508133, .wlpop 10 8 9), (0xD4009014, .wlclose 9),
     (0xD4009015, .wlclear 9), (0xD41080AD, .fsend 2 8 5), (0xD400000E, .fdone)] : List (Nat × Instr)).all fun p =>
    decodeTableWord 32 p.1 == some p.2) = true := by decide +kernel

/-- The example words of 18_recovery.md. -/
theorem test_words_recovery : ((
    [(0x5C480024, .ctlRd 9 0x024), (0x5C005402, .ctlWrVstart 5), (0x5C000800, .trap), (0x5C000801, .rtr), (0x5C000802, .ecall),
     (0x5C000803, .halt), (0x5C005804, .stkvec 5), (0x5C005805, .unstkvec 5), (0x5C006806, .tlbinv 6), (0x5C006807, .icinv 6),
     (0x5C008808, .ldrule 8), (0x5C008809, .strule 8)] : List (Nat × Instr)).all fun p =>
    decodeTableWord 32 p.1 == some p.2) = true := by decide +kernel

/-! ## Small states -/

/-- The windows of tenant 1: over device memory, and over capacity memory. -/
def window0 : Window := { tbase := 0, size := 2 ^ 30, dbase := 0, perm := 7, kind := 0 }
def window1 : Window := { tbase := 2 ^ 30, size := 2 ^ 30, dbase := Config.capBase, perm := 7, kind := 1 }

/-- A page of 1 GiB of tenant 1, readable, writable, executable and open to level U. -/
def page (n frame : Nat) (attr : PageAttr) (w : Option Window) : TlbEntry :=
  { tenant := 1, page := n, bits := 30, frame := frame, perm := 15, attr := attr, zero := false, window := w }

/-- A core of tenant 1 whose context 0 holds one span; page 0 is device memory, page 1 capacity memory, page 2 on device 5. -/
def core0 : Core :=
  { spans := (Vector.replicate 8 none).set 0 (some 0), want := (Vector.replicate 8 0).set 0 1
    tlb := { leaves := [page 0 0 .normal (some window0), page 1 (2 ^ 30) .capacity (some window1), page 2 (5 * 2 ^ 40) .remote none] }
    rf := (List.range 64).map fun k => (0, k) }

/-- A tenant with one core, a window over device memory and one over capacity memory. -/
def tenant1 : Tenant :=
  { id := 1, cores := [0], tvecdef := 0x8000
    windows := [(0, window0), (1, window1)] }

/-- A context that runs a task: vl 4, 32-bit int elements, scope core, one span. -/
def ctx0 : Ctx :=
  { agent := .ctx 0, pc := 0x1000, vl := 4, vtype := 0x24002, hold := .run, ctximg := 0x20000000, tvec := 0x8000
    task := some { tenant := 1, launch := 7, launchid := 7 } }

/-- The state of that context, its core and its tenant. -/
def base : State := { State.reset with ctx := ctx0, cores := [(0, core0)], tenants := [tenant1] }

/-- The state with registers set. -/
def regs (l : List (Reg × Word)) (s : State := base) : State := l.foldl (fun s p => s.setX p.1 p.2) s

/-- The state with other fields of the context. -/
def withCtx (f : Ctx → Ctx) (s : State := base) : State := { s with ctx := f s.ctx }

/-- The state after an instruction. -/
def after (i : Instr) (s : State) : State :=
  match exec i s with
  | .next t => t
  | _ => s

/-- X[1] after an instruction. -/
def x1 (i : Instr) (s : State) : Word := (after i s).getX 1

/-- The cause that waits for its trap, or has been taken, after an instruction. -/
def caught (i : Instr) (s : State) : Word := (after i s).ctx.tcause

/-- The state inside a routine. -/
def inside (off words : Nat) (s : State := base) : State :=
  withCtx (fun c => { c with routine := some { word := 0xFC000000, pc := 0x2000, entry := 0, words := words, fmt := 1, off := off } }) s

/-- The state at level S, trap depth d. -/
def atDepth (d : Word) (s : State := base) : State := withCtx (fun c => { c with tstat := d }) s

/-- A store on its way: of bytes of 0x55 at an address, by a context of core 0. -/
def flight (id pa n : Nat) (stage : Stage) : Flight :=
  { agent := .ctx id, tenant := 1, line := pa / 128, bytes := cellsAt pa (List.replicate n 0x55), capacity := false, stage := stage }

/-- A rule that stands in the window, of the configuration of `ctx0`. -/
def rule (i : Instr) : Rule := { pc := 0x1000, instr := i, vtype := 0x24002, vl := 4, issued := true, strip := none }

/-- The state with a rule that stands first. -/
def standing (r : Rule) (s : State := base) : State := withCtx (fun c => { c with rules := [r] }) s

/-- The place that device address 0x3000 has. -/
def at3000 : Phys := { pa := 0x3000, attr := .normal, owner := 0, zero := false }

/-- An evaluation that gives a value. -/
theorem ok_of {ε α : Type} [DecidableEq α] {r : Except ε α} {a : α}
    (h : (match r with | .ok b => decide (b = a) | .error _ => false) = true) : r = .ok a := by
  cases r <;> simp_all

/-- An evaluation that gives an error. -/
theorem error_of {ε α : Type} [DecidableEq ε] {r : Except ε α} {e : ε}
    (h : (match r with | .error b => decide (b = e) | .ok _ => false) = true) : r = .error e := by
  cases r <;> simp_all

/-- A handler of tenant 1 on slice 3, tag 2, that serves a message. -/
def handlerBase : State :=
  { base with
    ctx := { Ctx.reset (.handler 1 3 2) with pc := 0x1000, hold := .run, vtype := 0xC000, task := some { tenant := 1, launch := 0 } }
    others := [ctx0], ioTlb := Vector.replicate 2 { leaves := [page 0 0 .normal (some window0)] }
    chains := [{ tenant := 1, slice := 3, first := 0, rods := 1, fvec := 9, tags := [0, 0, 0x1000, 0, 0, 0, 0, 0] }] }

/-- A context of a gang, and its launch. -/
def gangBase : State :=
  { withCtx (fun c => { c with task := some { tenant := 1, launch := 7, gang := true, gangkey := 5 } }) with
    tenants := [{ tenant1 with launches := [{ id := 7, queue := 0, arrival := 0, record := 0, fields := [], code := 1, kernel := 0 }] }] }

/-! ## Scalar words -/

/-- R243, R261: the corners of the divisions, the high halves, the counts. -/
theorem test_scalar_functions :
    x1 (.div 1 2 3) (regs [(2, BitVec.intMin 64), (3, BitVec.allOnes 64)]) = BitVec.intMin 64 ∧
    x1 (.rem 1 2 3) (regs [(2, 7), (3, 0)]) = 7 ∧ x1 (.divn 1 2 3) (regs [(2, 7)]) = BitVec.allOnes 64 ∧
    x1 (.div 1 2 3) (regs [(2, BitVec.ofInt 64 (-7)), (3, 2)]) = BitVec.ofInt 64 (-3) ∧
    x1 (.rem 1 2 3) (regs [(2, BitVec.ofInt 64 (-7)), (3, 2)]) = BitVec.ofInt 64 (-1) ∧
    x1 (.mulh 1 2 3) (regs [(2, BitVec.allOnes 64), (3, BitVec.allOnes 64)]) = 0 ∧
    x1 (.mulhn 1 2 3) (regs [(2, BitVec.allOnes 64), (3, BitVec.allOnes 64)]) = BitVec.ofInt 64 (-2) ∧
    x1 (.clz 1 2) (regs [(2, 0)]) = 64 ∧ x1 (.clz 1 2) (regs [(2, 1)]) = 63 ∧ x1 (.ctz 1 2) (regs [(2, 0)]) = 64 ∧
    x1 (.popc 1 2) (regs [(2, 0xFF00FF)]) = 16 ∧ x1 (.sxb 1 2) (regs [(2, 0x80)]) = BitVec.ofInt 64 (-128) ∧
    x1 (.bswap 1 2) (regs [(2, 0x0102030405060708)]) = 0x0807060504030201 ∧ x1 (.rot 1 2 3) (regs [(2, 1), (3, 1)]) = 2 ^ 63 ∧
    x1 (.sra 1 2 3) (regs [(2, BitVec.ofInt 64 (-8)), (3, 65)]) = BitVec.ofInt 64 (-4) := by decide +kernel

/-- R259: x0 stays zero. R31, R32: a lim pair. R264: pcrel, the trigger's pc in a routine. -/
theorem test_scalar_forms :
    (after (.add 0 2 3) (regs [(2, 7)])).getX 0 = 0 ∧ x1 (.slti 1 2 0xFFF) (regs [(2, BitVec.ofInt 64 (-2))]) = 1 ∧
    x1 (.lim 0x12345 0x08080678) base = 0x12345678 ∧ (after (.lim 0x12345 0x08080678) base).ctx.pc = 0x1008 ∧
    x1 (.pcrel 1 1) base = 0x2000 ∧ x1 (.pcrel 1 1) (inside 0 2) = 0x3000 ∧ caught (.lim 1 0) base = 0x01 ∧
    (after (.lim 1 0) base).ctx.pc = 0x8000 := by decide +kernel

/-- ImmediateOperationsAndLimPairs: a partner that is none, and a jalr partner with an aligned target. -/
theorem test_witness_lim :
    (0 : BitVec 32).toNat / 2 ^ 26 ∉ [0x02, 0x03, 0x04, 0x05, 0x07, 0x08, 0x14] ∧ base.ctx.routine = none ∧
    ((regs [(2, 0x100)]).getX 2 + (((0 : BitVec 19) ++ (0xFFC : BitVec 12) : BitVec 31)).signExtend 64).toNat % 4 = 0 := by decide +kernel

/-- BranchesJumpsAndRoutineEnds: both places of a word, an aligned and a misaligned target; R265, R266. -/
theorem test_branches :
    base.ctx.routine = none ∧ (inside 0 2).ctx.routine ≠ none ∧ ((regs [(2, 0x100)]).getX 2 + (4 : BitVec 12).signExtend 64).toNat % 4 = 0 ∧
    ((regs [(2, 0x100)]).getX 2 + (2 : BitVec 12).signExtend 64).toNat % 4 ≠ 0 ∧
    (after (.bltn 2 3 0xFFF) (regs [(2, 1), (3, 2)])).ctx.pc = 0xFFC ∧ (after (.blt 2 3 4) (regs [(2, 1), (3, BitVec.allOnes 64)])).ctx.pc = 0x1004 ∧
    (after (.jal 1 2) base).ctx.pc = 0x1008 ∧ x1 (.jal 1 2) base = 0x1004 ∧ (after (.jalr 2 2 4) (regs [(2, 0x100)])).ctx.pc = 0x104 ∧
    caught (.jalr 1 2 2) (regs [(2, 0x100)]) = 0x0C ∧ (after (.jalr 1 2 2) (regs [(2, 0x100)])).ctx.taddr = 0x102 := by decide +kernel

/-- BranchesJumpsAndRoutineEnds: the last word of a routine. -/
theorem test_routine_end :
    (inside 1 2).ctx.routine = some { word := 0xFC000000, pc := 0x2000, entry := 0, words := 2, fmt := 1, off := 1 } ∧ 2 ≤ 1 + 1 ∧
    (after (.add 1 2 3) (regs [(116, 9), (2, 1)] (inside 1 2))).ctx.pc = 0x2004 ∧
    (after (.add 1 2 3) (regs [(116, 9), (2, 1)] (inside 1 2))).getX 116 = 0 ∧
    x1 (.add 1 2 3) (regs [(116, 9), (2, 1)] (inside 1 2)) = 1 := by decide +kernel

/-! ## Scalar memory -/

/-- LoadsReadAndWiden, and the waits: an address of a page of this device, in one line, that no store stands against. -/
theorem test_witness_loads :
    base.hbm.wf = true ∧ base.scalarTarget .load 0x3000 8 = .ok at3000 ∧ at3000.attr ≠ .remote ∧
    (at3000.pa + 8 - 1) / 128 = at3000.pa / 128 ∧ base.loadWaits base.ctx.agent base.scalarScope at3000.pa 8 = false ∧
    base.loadError base.ctx.agent base.scalarScope at3000.pa 8 false = none ∧ base.takesLine base.ctx.agent (at3000.pa / 128) at3000.zero := by
  refine ⟨by decide, ok_of (by decide +kernel), by decide, by decide, by decide +kernel, by decide +kernel, by unfold State.fillKeeps; decide +kernel, Or.inl ?_⟩
  decide +kernel

/-- The causes that come first (R174, R175, R380), another context's pending store (R168), an error of the line (R419). -/
theorem test_witness_loads_stopped :
    base.scalarTarget .load 0x3001 8 = .error .align ∧ base.scalarTarget .load (2 ^ 60) 8 = .error .loadfault ∧
    base.scalarTarget .load 0x1C0000000 8 = .error .loadfault ∧
    ({ base with flights := [flight 1 0x3000 8 .toHome] } : State).loadWaits (.ctx 0) 2 0x3000 8 = true ∧
    ({ base with mismatch := [0x3000 / 128] } : State).loadError (.ctx 0) 1 0x3000 8 false = some .integrity := by
  refine ⟨error_of ?_, error_of ?_, error_of ?_, ?_, ?_⟩ <;> decide +kernel

/-- StoresWriteTheirBytes: a context, and a handler whose line the L2 has room for; R184: the low bytes, little-endian; R200. -/
theorem test_witness_stores :
    base.wf = true ∧ base.ctx.collecting = false ∧ base.scalarTarget .store 0x3000 8 = .ok at3000 ∧
    (coreOf base.ctx.agent).isSome = true ∧ handlerBase.wf = true ∧ handlerBase.ctx.collecting = false ∧
    handlerBase.scalarTarget .store 0x3000 128 = .ok at3000 ∧ handlerBase.fillKeeps 1 (0x3000 / 128) false ∧
    base.scalarTarget .store 0x3080 128 = .ok { at3000 with pa := 0x3080 } ∧ base.scalarTarget .store 0x3040 128 = .error .align := by
  refine ⟨by decide +kernel, by decide, ok_of ?_, by decide, by decide +kernel, by decide, ok_of ?_, ?_, ok_of ?_,
    error_of ?_⟩ <;> first | decide +kernel | skip
  unfold State.fillKeeps
  decide +kernel

theorem test_stores :
    (let t := after (.stW 1 2 0) (regs [(1, 0xAABBCCDD), (2, 0x3000)])
     t.scalarByte (.ctx 0) 2 0x3000 = 0xDD ∧ t.scalarByte (.ctx 0) 2 0x3003 = 0xAA ∧ t.scalarByte (.ctx 0) 2 0x3004 = 0 ∧
     t.byteAt (.ctx 0) 0x3000 = 0 ∧ (t.queueStoreAt 0).byteAt (.ctx 0) 0x3000 = 0xDD ∧ t.homeByte 0x3000 = 0) ∧
    (after (.stB 1 2 0x1FF) (regs [(1, 0x77), (2, 0x3001)] handlerBase)).homeByte 0x3000 = 0x77 ∧
    (after (.zline 2) (regs [(2, 0x3000)] { base with flights := [flight 0 0x3000 8 .toHome] })).scalarByte (.ctx 0) 2 0x3003 = 0 ∧
    x1 (.ldB 1 2 0) (regs [(2, 0x3000)] { base with hbm := [(0x3000, 0x80)] }) = BitVec.ofInt 64 (-128) ∧
    x1 (.ldBn 1 2 0x1FF) (regs [(2, 0x3001)] { base with hbm := [(0x3000, 0x80)] }) = 0x80 ∧
    x1 (.ldH 1 2 0) (regs [(2, 0x3000)] { base with hbm := [(0x3000, 0x34), (0x3001, 0x12)] }) = 0x1234 ∧
    caught (.ldD 1 2 0) (regs [(2, 0x3001)]) = 0x0C ∧ caught (.stD 1 2 0) (regs [(2, 2 ^ 60)]) = 0x0A := by decide +kernel

/-- AtomicsReadModifyWrite: at core scope in the L1, and at die scope with and without a pending store of the core; R186. -/
theorem test_witness_atomics :
    base.scalarTarget .atomic 0x3000 8 = .ok at3000 ∧ base.lineError 0x3000 8 false = none ∧ base.fillKeeps 1 (0x3000 / 128) false ∧
    scopeOf base.ctx.vtype = 1 ∧ scopeOf (0x2C002 : Word) = 3 ∧ base.touchesPending 0 0x3000 8 = false ∧
    ({ base with flights := [flight 0 0x3000 8 .toHome] } : State).touchesPending 0 0x3000 8 = true ∧
    (withCtx fun c => { c with cdepth := 1 }).ctx.collecting = true := by
  refine ⟨ok_of ?_, ?_, ?_, ?_, ?_, ?_, ?_, ?_⟩ <;> first | decide +kernel | skip
  unfold State.fillKeeps
  decide +kernel

theorem test_atomics :
    (let s := regs [(1, 5), (2, 0x3000), (3, 9)] { base with hbm := [(0x3000, 0x05), (0x3003, 0x80)] }
     let t := after (.amoaddW 1 2 3) s
     t.getX 1 = BitVec.ofInt 64 (5 - 2 ^ 31) ∧ t.byteAt (.ctx 0) 0x3000 = 14 ∧ t.byteAt (.ctx 0) 0x3003 = 0x80 ∧
     (after (.amocasW 1 2 3) s).byteAt (.ctx 0) 0x3000 = 5 ∧ (after (.amomaxW 1 2 3) s).byteAt (.ctx 0) 0x3003 = 0 ∧
     (after (.amomaxnW 1 2 3) s).byteAt (.ctx 0) 0x3003 = 0x80) ∧
    (let s := regs [(2, 0x3000), (3, 9)] (withCtx (fun c => { c with vtype := 0x2C002 }) { base with hbm := [(0x3000, 0x05)] })
     (after (.amoaddD 1 2 3) s).homeByte 0x3000 = 14 ∧ (after (.amocasD 1 2 3) (regs [(1, 5)] s)).homeByte 0x3000 = 9) := by
  decide +kernel

/-- FencesWaitForOlderAccesses: quiet, an older access, an unacknowledged store, a full queue; R165, R195. -/
theorem test_fences :
    let busy := standing (rule (.vld 8 20 0 false))
    let sent : State := withCtx (fun c => { c with vtype := 0x2C002 }) { base with flights := [flight 0 0x3000 8 .toBuffer] }
    touchesMemory (.vld 8 20 0 false) = true ∧ readsMemory (.vld 8 20 0 false) = true ∧ 2 ≤ (0x2C002 : Word).toNat / 2 ^ 14 % 8 ∧
    (after .fenceSv base).ctx.svFence = none ∧ (after .fenceSv busy).ctx.svFence = some 0 ∧ (after .fenceSv busy).ctx.pc = 0x1004 ∧ (after .fenceRel base).ctx.pc = 0x1004 ∧
    (after .fenceRel sent).ctx.pc = 0x1000 ∧ (after .fenceFull sent).ctx.pc = 0x1000 ∧ (after .fenceAcq sent).ctx.pc = 0x1004 ∧
    (after .fenceAcq busy).ctx.pc = 0x1000 ∧ (after .fenceVs base).ctx.queue.length = 1 ∧
    (after .fenceVs (withCtx fun c => { c with queue := List.replicate 32 (rule .fenceVs) })).ctx.pc = 0x1000 ∧
    ((after .ifence { base with cores := [(0, { core0 with icache := [{ tenant := 1, line := 32, bytes := [] }] })] }).core 0).icache = [] ∧
    (after .ifence sent).ctx.pc = 0x1000 := by decide +kernel

/-- WaitsCompleteOnTheirCondition: a met and an unmet condition (the hypotheses of `test_witness_loads` hold of base), a wait that stands,
before and after its limit, and one on a remote page; R343. -/
theorem test_waits :
    let s := regs [(1, 7), (2, 0x3000)]
    let waits := withCtx (fun c => { c with hold := .memory 0 false 1 2 }) s
    let far := withCtx (fun c => { c with hold := .memory 0 false 1 2 }) (regs [(1, 7), (2, 2 ^ 31)])
    let late : State := { waits with now := 10, tenants := [{ tenant1 with wlimit := 10 }] }
    (after (.waitNe 1 2) s).getX 1 = 0 ∧ (after (.waitNe 1 2) s).ctx.pc = 0x1004 ∧
    (after (.waitGe 1 2) s).ctx.hold = .memory 0 true 1 2 ∧ 0 < (s.tenant (s.tenantOf s.ctx.agent)).wlimit.toNat ∧
    (s.now - 0).toNat < (s.tenant (s.tenantOf s.ctx.agent)).wlimit.toNat ∧
    (after (.waitReread (.ctx 0)) waits).ctx.pc = 0x1004 ∧ (late.tenant 1).wlimit.toNat ≤ (late.now - 0).toNat ∧
    (after (.waitLimitExpiry (.ctx 0)) late).ctx.pc = 0x1004 ∧ waits.waitsRemote (.ctx 0) = false ∧ far.waitsRemote (.ctx 0) = true ∧
    (after (.remoteWaitReread (.ctx 0) 8) far).getX 1 = 8 := by decide +kernel

/-! ## Parking and barriers -/

/-- YieldsParksAndBarriers: no request, one whose time has not come, one whose time has; a park that has nothing left, one that has, a late one. -/
theorem test_witness_parks :
    let asked := fun t : Word => withCtx fun c => { c with yieldBy := some t }
    let parked := fun (rs : List Rule) (w : Bool) (t : Word) =>
      ({ withCtx (fun c => { c with rules := rs, hold := .park 0 w, want := 1 }) with now := t } : State)
    let r := rule (.vld 8 20 0 false)
    base.ctx.yieldBy = none ∧ (asked 5).ctx.yieldBy = some 5 ∧ base.now.toNat ≤ (5 : Word).toNat ∧
    (∀ r ∈ (asked 5).ctx.remotes, r.op ∈ [.load, .store, .ifence]) ∧ (after .yield base).ctx.pc = 0x1004 ∧
    (after .yield (asked 5)).ctx.hold = .saved true false ∧ (after .yield { asked 5 with now := 9 }).ctx.hold = .saved false false ∧
    (∃ x ∈ (standing r).ctx.rules ++ (standing r).ctx.queue, x.detached = false) ∧
    (after .park (standing r)).ctx.hold = .park 0 false ∧ ((after .park (standing r)).core 0).held 0 = 0 ∧
    (parked [r] false 0).ctx.hold = .park 0 false ∧ (100000 : Nat) ≤ ((parked [r] false 100000).now - 0).toNat ∧
    (after (.parkWake (.ctx 0)) (parked [] false 0)).ctx.hold = .run ∧ (after (.parkWake (.ctx 0)) (parked [r] false 0)).ctx.hold = .park 0 false ∧
    (after (.parkTimeout (.ctx 0)) (parked [r] false 100000)).ctx.hold = .run ∧
    (after (.parkTimeout (.ctx 0)) (parked [r] false 99999)).ctx.hold = .park 0 false := by
  refine ⟨?_, ?_, ?_, ?_, ?_, ?_, ?_, ⟨_, List.mem_cons_self .., rfl⟩, ?_, ?_, ?_, ?_, ?_, ?_, ?_, ?_⟩ <;> first | decide +kernel | simp [withCtx, base, ctx0]

/-- YieldsParksAndBarriers: outside a gang, an id above 15, a gang that may arrive at scope die, at scope lane, and a dead launch; R342. -/
theorem test_bar :
    let die := withCtx (fun c => { c with vtype := 0x2C002 }) gangBase
    let lane := withCtx (fun c => { c with vtype := 0x20002 }) gangBase
    let gone : State := { die with tenants := [{ tenant1 with launches :=
      [{ id := 7, queue := 0, arrival := 0, record := 0, fields := [], code := 1, kernel := 0, dead := true }] }] }
    caught (.bar 1) base = 0x03 ∧ caught (.bar 1) (regs [(1, 16)] die) = 0x03 ∧ (after (.bar 1) lane).ctx.pc = 0x1004 ∧
    (after (.bar 1) (regs [(1, 15)] die)).ctx.hold = .barrier 3 15 false ∧ (after (.bar 1) (regs [(1, 15)] die)).ctx.arrived 3 15 = 1 ∧
    caught (.bar 1) gone = 0x1C ∧ (after (.bar 1) { die with flights := [flight 0 0x3000 8 .toHome] }).ctx.hold = .stall := by
  decide +kernel

/-- YieldsParksAndBarriers: its hypotheses. -/
theorem test_witness_bar :
    (∃ k, gangBase.ctx.task = some k ∧ k.gang = true) ∧
    (∃ k l, gangBase.ctx.task = some k ∧ gangBase.launchOf k = some l ∧ l.dead = false) ∧
    (∀ q ∈ gangBase.ctx.rules ++ gangBase.ctx.queue, touchesMemory q.instr = false) := by
  exact ⟨⟨_, rfl, rfl⟩, ⟨_, _, rfl, rfl, rfl⟩, by decide +kernel⟩

/-! ## Configuration, strip loops, control registers -/

/-- VsetSetsTheConfigurationAndDealsSpans: a legal type, an illegal one (R115: 32-bit e4m3), an older `vldff` that has not resolved vl; R116, R132. -/
theorem test_vset :
    let s := regs [(2, 5000), (3, 0x24002)]
    let bad := regs [(2, 5000), (3, 0x12)]
    let open' := standing (rule (.vldff 8 20 0 false)) s
    x1 (.vset 1 2 3) s = 1024 ∧ (after (.vset 1 2 3) s).ctx.vl = 1024 ∧ (after (.vset 1 2 3) s).ctx.vtype = 0x24002 ∧
    caught (.vset 1 2 3) bad = 0x03 ∧ (after (.vset 1 2 3) open').ctx.hold = .stall ∧ x1 (.vsetl 1 2) (regs [(2, 3)]) = 3 ∧
    (after (.vsetl 1 2) open').ctx.hold = .stall := by decide +kernel

theorem test_witness_vset :
    LegalVtype 0x24002 ∧ ¬ LegalVtype 0x12 ∧ ¬ base.vlOpen ∧ (standing (rule (.vldff 8 20 0 false))).vlOpen :=
  ⟨by unfold LegalVtype; decide, by unfold LegalVtype; decide,
   fun ⟨_, h, _⟩ => absurd h (by simp [base, ctx0]), _, List.mem_cons_self .., _, _, _, _, rfl, rfl⟩

/-- VsetSetsTheConfigurationAndDealsSpans: the worked example of R122-R124. -/
theorem test_spans :
    let c : Core := { spans := #v[some 0, some 0, some 0, some 0, some 0, some 0, some 1, some 2], want := #v[8, 1, 2, 0, 0, 0, 0, 0], last := 2 }
    let t := c.renegotiate 0 2
    let u := t.renegotiate 3 4
    t.spans = #v[some 0, some 0, some 2, none, none, none, some 1, some 2] ∧
    u.spans = #v[some 0, some 0, some 2, some 3, some 3, some 3, some 1, some 2] ∧ u.wants 3 = 4 ∧
    (c.renegotiateEnd 0).held 0 = 0 ∧ none ∈ t.spans.toList ∧ t.held 3 = 0 := by decide +kernel

/-- WindowAndMatrixConfiguration: legal and illegal window bases; a legal mtype that claims a tile the task has, one that claims none, one
with a reserved bit, an older rule on the tile, an older load of a weight buffer. -/
theorem test_matrix_configuration :
    let tiles := withCtx fun c => { c with tileMap := #v[some 2, none, none, none] }
    let live := { tiles with cores := [(0, { core0 with cells := [(2 * 16384 + 5, 77), (3 * 16384 + 5, 88)] })] }
    (after (.wbase 1) (regs [(1, 1016)])).ctx.wb = 1016 ∧ caught (.wbase 1) (regs [(1, 1024)]) = 0x03 ∧ caught (.wbase 1) (regs [(1, 4)]) = 0x03 ∧
    (after (.mset 1) (regs [(1, 0x10000000)] tiles)).ctx.mtype = 0x10000000 ∧
    (after (.mset 1) (regs [(1, 0x20000000)] tiles)).ctx.tcause = 0x03 ∧ caught (.mset 1) (regs [(1, 0x80)]) = 0x03 ∧
    ((after (.mset 1) (regs [(1, 0x10000000)] live)).core 0).cell 2 0 5 = 0 ∧ ((after (.mset 1) (regs [(1, 0x10000000)] live)).core 0).cell 3 0 5 = 88 ∧
    (after (.mset 1) (standing (rule (.mzero 0)) (regs [(1, 0x10000000)] tiles))).ctx.hold = .stall ∧
    x1 (.mstat 1) (withCtx (fun c => { c with mtype := 0x10000000 }) tiles) = 0x11 ∧
    (after (.mstat 1) (standing (rule (.mwl 0 8 9)))).ctx.hold = .stall := by decide +kernel

theorem test_witness_matrix_configuration :
    LegalMtype 0x10000000 ∧ ¬ LegalMtype 0x80 ∧ ¬ LegalMtype 7 ∧
    (∃ ph, (withCtx fun c => { c with tileMap := #v[some 2, none, none, none] }).ctx.tileMap.toList[0]? = some (some ph)) :=
  ⟨by unfold LegalMtype; decide, by unfold LegalMtype; decide, by unfold LegalMtype; decide, _, rfl⟩

/-- StripLoopsOpenAndAdvance: no loop, an open one with elements left, one that ends, one inside a routine; R136, R137. -/
theorem test_strips :
    let loop := fun (sc vl : Word) => withCtx fun c =>
      { c with vl := vl, strip := { sc := sc, sb := 0, sbody := 0x1234, sbend := 2000, isOpen := true, independent := false, reg := 5 } }
    (after (.vstrip 1 2) (regs [(2, 2000)])).ctx.vl = 1024 ∧ (after (.vstrip 1 2) (regs [(2, 2000)])).ctx.strip.sc = 2000 ∧
    (after (.vstripI 1 2) (regs [(2, 2000)])).ctx.strip.sbody = 0x1004 ∧ caught (.vstrip 1 2) (loop 2000 1024) = 0x1E ∧ caught .vnext base = 0x1E ∧
    (after .vnext (loop 2000 1024)).ctx.pc = 0x1234 ∧ (after .vnext (loop 2000 1024)).ctx.vl = 976 ∧
    (after .vnext (loop 2000 1024)).getX 5 = 1024 ∧ (after .vnext (loop 976 976)).ctx.strip.isOpen = false ∧
    (after .vnext (loop 976 976)).ctx.pc = 0x1004 ∧ (after .vnext (inside 0 2 (loop 2000 1024))).ctx.pc = 0x1234 ∧
    (after .vnext (standing (rule (.vldff 8 20 0 false)) (loop 2000 1024))).ctx.hold = .stall := by decide +kernel

/-- VectorValuesAnswerTheFrontEnd: an element that is there, one that an older rule still writes, one above VLMAX; mask bits that are
there and that are not; R138, R285. -/
theorem test_moves_out :
    let s := regs [(2, 3)] (withCtx fun c => { c with v := [(4096 * 3 + 12, 0x80), (4096 * 3 + 15, 0xFF)], q := #v[0, 0b1010, 0, 0, 0, 0, 0, 0] })
    x1 (.vmvXs 1 3 2) s = BitVec.ofInt 64 (0x80 - 2 ^ 24) ∧ x1 (.vmvXs 1 3 2) (regs [(2, 1024)] s) = 0 ∧
    (after (.vmvXs 1 3 2) (standing (rule (.vaddVv 3 4 5 0 false)) s)).ctx.hold = .stall ∧
    x1 (.qpopc 1 1 0) s = 2 ∧ x1 (.qfirst 1 1 0) s = 1 ∧ x1 (.qfirst 1 0 0) s = BitVec.allOnes 64 ∧
    (after (.qpopc 1 1 0) (standing (rule (.qand 1 2 3)) s)).ctx.hold = .stall ∧
    absent s.olderAll (.v (4096 * 3 + 12) 4) = false ∧ s.placesLost s.ctx.agent [.v (4096 * 3 + 12) 4] = false ∧
    absent (standing (rule (.vaddVv 3 4 5 0 false)) s).olderAll (.v (4096 * 3 + 12) 4) = true ∧
    present s.olderAll (maskLocs 1 0 4) = true ∧ present (standing (rule (.qand 1 2 3)) s).olderAll (maskLocs 1 0 4) = false ∧
    s.ctx.vl.toNat ≤ 4096 := by decide +kernel

theorem test_witness_line :
    base.lineReady ((4096 * 3 + 12) / 256) := Or.inl (by decide +kernel)

/-- ControlRegistersRead: level U and level S, a number of each kind, an unresolved vl; R39, R386, R405. -/
theorem test_ctl_rd :
    let s : State := { base with now := 99 }
    let sup := atDepth 1 s
    s.atUser ∧ ¬ sup.atUser ∧ x1 (.ctlRd 1 0x011) s = 99 ∧ x1 (.ctlRd 1 0x001) s = 0x24002 ∧ x1 (.ctlRd 1 0x005) s = 1 ∧
    caught (.ctlRd 1 0x024) s = 0x04 ∧ caught (.ctlRd 1 0x3FF) s = 0x04 ∧ caught (.ctlRd 1 0x007) s = 0x01 ∧
    x1 (.ctlRd 1 0x023) sup = 1 ∧ x1 (.ctlRd 1 0x100) sup = 1 ∧ x1 (.ctlRd 1 0x180) sup = 0x8000 ∧ caught (.ctlRd 1 0x107) sup = 0x01 ∧
    (after (.ctlRd 1 0x000) (standing (rule (.vldff 8 20 0 false)) s)).ctx.hold = .stall := by
  refine ⟨rfl, by show ¬ (1 = 0); decide, ?_⟩
  decide +kernel

/-- ControlRegistersAreWritten: both levels, legal values and illegal ones; R39, R386, R405, R408. -/
theorem test_ctl_wr :
    let sup := fun v : Word => regs [(1, v)] (atDepth 1)
    (after (.ctlWrVstart 1) (regs [(1, 7)])).ctx.vstart = 7 ∧ (after (.ctlWrFflags 1) (regs [(1, 0x3F)])).ctx.fflags = 0x1F ∧
    caught (.ctlWr 1 0x029) (regs [(1, 4)]) = 0x04 ∧ (after (.ctlWr 1 0x029) (sup 0x100)).ctx.tvec = 0x100 ∧
    caught (.ctlWr 1 0x029) (sup 2) = 0x03 ∧ (after (.ctlWr 1 0x023) (sup 0xFF)).ctx.tstat = 9 ∧
    caught (.ctlWr 1 0x021) (sup 0x12) = 0x03 ∧ (after (.ctlWrCtximg 1) (sup 0x30000)).ctx.ctximg = 0x30000 ∧
    caught (.ctlWrCtximg 1) (sup 0x3000) = 0x03 ∧ ((after (.ctlWr 1 0x103) (sup 5)).tenant 1).wlimit = 5 ∧
    ((after (.ctlWr 1 0x182) (sup 65536)).tenant 1).rlogsize = 65536 ∧ caught (.ctlWr 1 0x182) (sup 16) = 0x03 ∧
    caught (.ctlWr 1 0x104) (sup (2 ^ 52)) = 0x03 ∧ caught (.ctlWr 1 0x105) (sup 0) = 0x01 ∧ caught (.ctlWr 1 0x101) (regs []) = 0x04 ∧
    Canonical 0x30000 ∧ (atDepth 1).ctx.flagsPending = false := by
  refine ⟨?_, ?_, ?_, ?_, ?_, ?_, ?_, ?_, ?_, ?_, ?_, ?_, ?_, ?_, ?_, by unfold Canonical; decide, ?_⟩ <;> decide +kernel

/-! ## The issue of words that take a rule entry -/

/-- VectorRegisterWordsIssue, VectorMemoryWordsIssue: a class that the row allows and one that it does not, a full
queue, vstart, collecting mode; R107, R111, R129, R272. -/
theorem test_issue :
    let float := withCtx fun c => { c with vtype := 0x2400A, vstart := 1 }
    let t := after (.vaddVx 1 2 3 0 false) (regs [(3, 9)] float)
    t.ctx.queue.map (·.opB) = [9] ∧ t.ctx.queue.map (·.vstart) = [1] ∧ (t.ctx.queue.map fun r => r.done) = [1] ∧ t.ctx.vstart = 0 ∧ t.ctx.pc = 0x1004 ∧
    caught (.vremVv 1 2 3 0 false) float = 0x01 ∧ (after (.vremVv 1 2 3 0 false) base).ctx.queue.length = 1 ∧
    (after (.vandVv 1 2 3 0 false) (withCtx fun c => { c with queue := List.replicate 32 (rule .fenceVs) })).ctx.hold = .stall ∧
    caught (.vredsumO 1 2 3 0 false) float = 0x03 ∧ (after (.vredsumO 1 2 3 0 false) base).ctx.queue.length = 1 ∧
    caught (.vtobfp 1 2 3 0 false) base = 0x01 ∧ caught (.vlog2 1 2 0 false) base = 0x01 ∧
    (after (.vmvSx 1 2 3) (regs [(3, 2)])).ctx.queue.map (·.done) = [3] ∧
    caught (.vamoadd 1 2 3 0 false) float = 0x01 ∧ caught (.vamoadd 1 2 3 0 false) (withCtx fun c => { c with cdepth := 1 }) = 0x12 ∧
    caught (.vpst 1 2 3) base = 0x03 ∧ (after (.vlds 1 2 3 0 false) (regs [(2, 0x3000), (3, 8)])).ctx.queue.map (·.opB) = [8] := by
  decide +kernel

theorem test_witness_planes :
    let s := withCtx fun c => { c with vtype := 0x24018, vl := 16 }
    s.cls = 6 ∧ s.ctx.vl ≠ 0 ∧ s.ctx.vl.toNat % (16 * 2 ^ (s.ctx.vtype.toNat / 256 % 4)) = 0 ∧ s.ctx.vstart = 0 ∧ ¬ s.vlOpen :=
  ⟨by decide, by decide, by decide, rfl, fun ⟨_, h, _⟩ => absurd h (by simp [withCtx, base, ctx0])⟩

/-- VectorMemoryWordsIssue: a list with room, an element from vstart on; R230. -/
theorem test_recording :
    let g : Segment := { base := 0x5000, capacity := 256, used := 32, steps := [] }
    let s := withCtx fun c =>
      { c with cdepth := 1, vstart := 1, handles := c.handles.set 3 { state := .opened, segs := [g] }, frames := c.frames.set 0 { handle := 3, d := 6 } }
    let n := s.ctx.vl.toNat - s.ctx.vstart.toNat
    s.ctx.activeHandle = 3 ∧ s.ctx.cdepth ≠ 0 ∧ s.ctx.queue.length < 32 ∧ (s.ctx.handle 3).segs = [] ++ [g] ∧ s.ctx.appending 3 = false ∧
    s.ctx.shortOf 3 = false ∧ g.used.toNat + n * 32 ≤ g.capacity.toNat ∧ 0 < n ∧
    (after (.vst 8 20 0 false) s).ctx.queue.map (·.slotAddr 1) = [0x5020] ∧ (after (.vst 8 20 0 false) s).ctx.queue.map (·.slotAddr 3) = [0x5060] ∧
    ((after (.vst 8 20 0 false) s).ctx.handle 3).segs.map (·.used) = [128] := by decide +kernel

/-- EngineAndMatrixWordsIssue: collecting mode and not, a layout configuration that is legal and one that is not, vstart, a sealed handle. -/
theorem test_engine_issue :
    let layout := withCtx fun c => { c with vtype := 0x24003, vl := 6 }
    let sealed' := withCtx fun c => { c with handles := c.handles.set 3 { state := .sealed, segs := [] } }
    let coll := withCtx fun c => { c with cdepth := 1 }
    (after (.cpls 30) layout).ctx.queue.length = 1 ∧ caught (.cpls 30) base = 0x03 ∧ caught (.cpls 30) (withCtx (fun c => { c with vl := 7 }) layout) = 0x03 ∧
    (after (.cpgoMm 5 8 9) base).ctx.queue.length = 1 ∧ caught (.cpgoMm 5 8 9) coll = 0x12 ∧ caught (.wlpush 9 1) (withCtx fun c => { c with vstart := 1 }) = 0x03 ∧
    (after (.wlpush 9 1) base).ctx.queue.length = 1 ∧ caught (.spool 4 14 15) (withCtx fun c => { c with vstart := 1 }) = 0x03 ∧
    (after (.spool 4 14 15) base).ctx.queue.length = 1 ∧ caught (.fsend 2 8 5) (withCtx fun c => { c with vl := 65 }) = 0x03 ∧
    (after (.fsend 2 8 5) (withCtx fun c => { c with vl := 64 })).ctx.queue.length = 1 ∧ (after (.cwany 5 6) base).ctx.queue.length = 1 ∧
    caught (.elapply 5) (regs [(5, 3)]) = 0x03 ∧ (after (.elapply 5) (regs [(5, 3)] sealed')).ctx.queue.length = 1 ∧
    (regs [(5, 3)] sealed').Names 3 .sealed ∧ ¬ (regs [(5, 3)]).Names 3 .sealed ∧ ¬ (regs [(5, 16)] sealed').Names 16 .sealed ∧
    (after (.elapply 5) (standing { rule (.vst 8 20 0 false) with cdepth := 1 } (regs [(5, 3)] (withCtx (fun c => { c with cdepth := 1 }) sealed')))).ctx.hold
      = .stall := by
  refine ⟨?_, ?_, ?_, ?_, ?_, ?_, ?_, ?_, ?_, ?_, ?_, ?_, ?_, ?_, ⟨by decide, by decide +kernel⟩, fun h => absurd h.2 (by decide +kernel),
    fun h => absurd h.1 (by decide), ?_⟩ <;> decide +kernel

/-- EngineAndMatrixWordsIssue: a claimed tile and one that is not, formats of `mops`, row 127 and row 128, a format word that breaks R304. -/
theorem test_matrix_issue :
    let m := fun (b : Word) => regs [(5, b)] (withCtx fun c => { c with mtype := 0x11000000 })
    (after (.mop 0 4 5 0) (m 0)).ctx.queue.length = 1 ∧ caught (.mop 1 4 5 0) (m 0) = 0x15 ∧ (after (.mops 0 1 2 3 0) (m 0)).ctx.queue.length = 1 ∧
    caught (.mops 0 1 2 3 0) (withCtx fun c => { c with mtype := 0x10000000 }) = 0x01 ∧ caught (.mfold 0 1 2) (m 0) = 0x01 ∧
    (after (.mrd 7 0 5) (m 127)).ctx.queue.length = 1 ∧ caught (.mrd 7 0 5) (m 128) = 0x03 ∧
    (after (.mwl 0 8 5) (m 0x300)).ctx.queue.length = 1 ∧ caught (.mwl 0 8 5) (m 0x80) = 0x03 := by decide +kernel

/-! ## What elements compute -/

/-- `State.mayFire` as a computation. -/
def mayFireB (s : State) (r : Rule) (e : Nat) (m : Fin 4) (n : Nat) (operands : List Reg) : Bool :=
  let line := fun k : Nat => match s.ctx.agent with
    | .handler _ _ _ => true
    | .ctx id => decide ((id % 8, k) ∈ (s.core (id / 8)).rf)
  decide (s.ctx.rules.head? = some r) && decide (r.fault = none) && decide (s.ctx.hold ≠ .stopped) &&
  decide (ErrUnit.rule s.ctx.agent r.seq ∉ s.lostUnits) && decide (e < r.vl) &&
  decide (r.vl * n ≤ 4096) && !r.done.getLsbD e && (decide (m = 0) || s.ctx.maskBit m.val e) && s.ctx.absent.all (fun x => decide (x < maskGrain 0 0)) && s.ctx.v.wf &&
  (match s.ctx.agent, r.spanOf e with
    | .ctx id, some i => (((s.core (id / 8)).former.toList[i]?).getD []).all fun j => decide (j = id % 8)
    | _, _ => true) &&
  operands.all fun x => line (r.place x n e / 256) && !s.placesLost s.ctx.agent [.v (r.place x n e) n] &&
    !s.ctx.lacks [.v (r.place x n e) n]

theorem mayFire_of {s : State} {r : Rule} {e n : Nat} {m : Fin 4} {ops : List Reg} (h : mayFireB s r e m n ops = true) :
    s.mayFire r e m n ops := by
  simp only [mayFireB, Bool.and_eq_true, Bool.or_eq_true, Bool.not_eq_true', decide_eq_true_eq, List.all_eq_true] at h
  obtain ⟨⟨⟨⟨⟨⟨⟨⟨⟨⟨⟨h1, h2⟩, h3⟩, he⟩, h4⟩, h5⟩, h6⟩, h7⟩, h0⟩, h8⟩, h9⟩, h10⟩ := h
  refine ⟨h1, h2, h3, he, h4, h5, h6, h7, h0, h8, fun id i ha hi => ?_, fun x hx => ?_⟩
  · rw [ha, hi] at h9
    simpa using h9
  · obtain ⟨⟨hl, hp⟩, hk⟩ := h10 x hx
    refine ⟨?_, hp, hk⟩
    unfold State.lineHeld
    cases hg : s.ctx.agent with
    | handler _ _ _ => trivial
    | ctx id => simpa [hg] using hl

/-- The image with elements of `n` bytes in register lines 0 to 63, and a rule that stands first. -/
def vector (r : Rule) (l : List (Nat × Nat × Nat × Nat)) (s : State := base) : State :=
  standing r (withCtx (fun c => l.foldl (fun c p => c.setElem 0 p.1 p.2.1 p.2.2.1 p.2.2.2) c) s)

/-- Element e of V[1] after it has fired. -/
noncomputable def fired (r : Rule) (e n : Nat) (l : List (Nat × Nat × Nat × Nat)) (s : State := base) : Nat × Nat :=
  let t := after (.elementFire (.ctx 0) 0 e) (vector r l s)
  (t.ctx.elem 0 1 n e, t.ctx.fflags.toNat)

/-- A rule of another type: the width code and the class code of R114. -/
def typed (sew cls : Nat) (i : Instr) : Rule := { rule i with vtype := BitVec.ofNat 64 (sew + 4 * cls + 0x4000) }

/-- IntegerElementsCompute, BitElementsAndCompares, FloatElementsRoundOnce: an element that may fire, under a mask and without, at the last
place of a register; a rule done there may not. -/
theorem test_witness_mayFire :
    let r := rule (.vaddVv 1 2 3 0 false)
    let masked' := rule (.vfmaVv 1 2 3 1 false)
    (standing r).mayFire r 3 0 4 [2, 3, 1] ∧
    (standing masked' (withCtx fun c => { c with q := #v[0, 8, 0, 0, 0, 0, 0, 0] })).mayFire masked' 3 1 4 [2, 3, 1, 1] ∧
    ({ r with vl := 1024 } : Rule).vl * 4 ≤ 4096 ∧ ¬ (standing r).mayFire r 4 0 4 [2, 3, 1] :=
  ⟨mayFire_of (by decide +kernel), mayFire_of (by decide +kernel), by decide, fun h => absurd h.2.2.2.2.1 (by decide)⟩

/-- R243, R275: integer elements wrap, saturate and divide as the tables say, and raise no flag. -/
theorem test_integer_elements :
    fired (typed 0 0 (.vsaddVv 1 2 3 0 false)) 1 1 [(2, 1, 1, 100), (3, 1, 1, 100)] = (127, 0) ∧
    fired (typed 0 1 (.vssubVv 1 2 3 0 false)) 1 1 [(2, 1, 1, 100), (3, 1, 1, 101)] = (0, 0) ∧
    fired (typed 0 0 (.vdivVv 1 2 3 0 false)) 1 1 [(2, 1, 1, 100)] = (255, 0) ∧
    fired (typed 0 0 (.vremVv 1 2 3 0 false)) 1 1 [(2, 1, 1, 0xF9), (3, 1, 1, 2)] = (255, 0) ∧
    fired (typed 0 0 (.vdivVv 1 2 3 0 false)) 1 1 [(2, 1, 1, 0x80), (3, 1, 1, 0xFF)] = (0x80, 0) ∧
    fired (typed 0 0 (.vmulhVv 1 2 3 0 false)) 1 1 [(2, 1, 1, 0x80), (3, 1, 1, 0x80)] = (0x40, 0) ∧
    fired (typed 1 0 (.vsraVv 1 2 3 0 false)) 1 2 [(2, 2, 1, 0x8000), (3, 2, 1, 17)] = (0xC000, 0) ∧
    fired { typed 2 0 (.vrsubVx 1 2 3 0 false) with opB := 5 } 1 4 [(2, 4, 1, 7)] = (0xFFFFFFFE, 0) ∧
    fired (typed 2 1 (.vfnmaVv 1 2 3 0 false)) 1 4 [(1, 4, 1, 100), (2, 4, 1, 7), (3, 4, 1, 3)] = (79, 0) := by decide +kernel

/-- R276-R279, R284, R286: immediates, sign copies, index vectors, bit picks, compares. -/
theorem test_bit_elements :
    let mask := fun (r : Rule) (l : List (Nat × Nat × Nat × Nat)) => (after (.elementFire (.ctx 0) 0 1) (vector r l)).ctx.maskBit 2 1
    fired (typed 0 0 (.vaddi 1 2 0xFD 0)) 1 1 [(2, 1, 1, 2)] = (255, 0) ∧ fired (typed 0 0 (.vidx 1 0xFF 4)) 1 1 [] = (3, 0) ∧
    fired (typed 2 2 (.vsgnjVv 1 2 3 0 false)) 1 4 [(2, 4, 1, 0x3F800000), (3, 4, 1, 0x80000000)] = (0xBF800000, 0) ∧
    fired (typed 0 0 (.vpopc 1 2 0 false)) 1 1 [(2, 1, 1, 0xF1)] = (5, 0) ∧
    mask (typed 0 0 (.vltVv 2 2 3 0 false)) [(2, 1, 1, 0x80), (3, 1, 1, 1)] = true ∧
    mask (typed 0 1 (.vltVv 2 2 3 0 false)) [(2, 1, 1, 0x80), (3, 1, 1, 1)] = false ∧
    mask { typed 0 1 (.vbitq 2 3 4 0 false) with opB := 7 } [(3, 1, 1, 0x80)] = true ∧
    mask { typed 0 1 (.vbitq 2 3 4 0 false) with opB := 8 } [(3, 1, 1, 0x80)] = false ∧
    mask { typed 0 0 (.qset 2 3) with opA := 2 } [] = true := by decide +kernel

/-- PermutesMoveElements, GathersAndReductions: each source that the statements name, with its lines resident; R280-R283. -/
theorem test_permutes :
    let l := [(2, 1, 0, 10), (2, 1, 1, 11), (2, 1, 2, 12), (2, 1, 3, 13), (3, 1, 1, 2)]
    let s := withCtx fun c => { c with q := #v[0, 0, 0, 0, 0b1010, 0, 0, 0] }
    fired (typed 0 0 (.vrev 1 2 0 false)) 1 1 l = (12, 0) ∧ fired (typed 0 0 (.vpick 1 2 3 0 false)) 1 1 l = (12, 0) ∧
    fired { typed 0 0 (.vshup 1 2 5 0 false) with opB := 1 } 1 1 l = (10, 0) ∧ fired { typed 0 0 (.vshdn 1 2 5 0 false) with opB := 4095 } 1 1 l = (0, 0) ∧
    fired { typed 0 0 (.vshdn 1 2 5 0 false) with opB := 2 } 1 1 l = (13, 0) ∧ fired { typed 0 0 (.vinsup 1 2 5 0 false) with opB := 7 } 0 1 l = (7, 0) ∧
    fired { typed 0 0 (.vinsdn 1 2 5 0 false) with opB := 7 } 3 1 l = (7, 0) ∧ fired { typed 0 0 (.vinsdn 1 2 5 0 false) with opB := 7 } 1 1 l = (12, 0) ∧
    (after (.elementFire (.ctx 0) 0 3) (vector (typed 0 0 (.vcompress 1 2 4 0 false)) l s)).ctx.elem 0 1 1 1 = 13 ∧
    (after (.elementFire (.ctx 0) 0 3) (vector (typed 0 0 (.vexpand 1 2 4 0 false)) l s)).ctx.elem 0 1 1 3 = 11 ∧
    fired (typed 0 0 (.vredsumT 1 2 3 0 false)) 0 1 l = (46, 0) ∧ fired (typed 0 0 (.vredmin 1 2 4 0 false)) 0 1 (l ++ [(4, 1, 0, 0xFF)]) = (0xFF, 0) ∧
    fired (typed 0 1 (.vredmin 1 2 4 0 false)) 0 1 (l ++ [(4, 1, 0, 0xFF)]) = (10, 0) := by decide +kernel

theorem test_witness_sources :
    let r := typed 0 0 (.vshup 1 2 5 0 false)
    (1 : Reg) ≠ 2 ∧ (standing r).mayFire r 3 0 1 [1] ∧ (standing r).lineHeld (r.place 2 1 2 / 256) ∧
    (standing r).placesLost (standing r).ctx.agent [.v (r.place 2 1 2) 1] = false ∧ (2 : Nat) < 4096 :=
  ⟨by decide, mayFire_of (by decide +kernel), by show (_ : Nat × Nat) ∈ _; decide +kernel, by decide +kernel, by decide⟩

/-- The worked example of R256: four binary16 elements 2048, 1, 1, 1, the initial value in V[3].0. -/
theorem test_float_sums :
    let l := [(2, 2, 0, 0x6800), (2, 2, 1, 0x3C00), (2, 2, 2, 0x3C00), (2, 2, 3, 0x3C00)]
    fired (typed 1 2 (.vredsumO 1 2 3 0 false)) 0 2 l = (0x6800, 1) ∧ fired (typed 1 2 (.vredsumT 1 2 3 0 false)) 0 2 l = (0x6801, 1) := by
  decide +kernel

/-- The worked example of R67: 3.0, -1.5, 0.25 and thirteen zeros as bfp4 of block 16. -/
theorem test_bfp :
    let r : Rule := { typed 0 6 (.vtobfp 1 2 3 0 false) with vl := 16, vtype := BitVec.ofNat 64 (4 * 6 + 32 * 2 + 0x4000) }
    let t := after (.elementFire (.ctx 0) 0 0) (vector r [(2, 4, 0, 0x40400000), (2, 4, 1, 0xBFC00000), (2, 4, 2, 0x3E800000)])
    (t.ctx.elem 0 1 1 0, t.ctx.elem 0 1 1 1, t.ctx.elem 0 1 1 2, t.ctx.elem 0 3 1 0) = (0x06, 0xFD, 0x00, 0x80) := by decide +kernel

/-- FloatElementsRoundOnce: a number, an infinity and a NaN; R247. -/
theorem test_witness_values :
    (match binary32.value 0xBFC00000 with | .fin neg _ _ _ => neg | _ => false) = true ∧ binary64.value 0x7FF0000000000000 = .inf false ∧
    e5m2.value 0xFC = .inf true ∧ bfloat16.value 0x7FC1 = .nan ∧ e4m3.value 0x7F = .nan ∧ (0xBFC00000 : Nat) < 2 ^ (1 + binary32.w + binary32.t) ∧
    (binary32.round 0 false (binary32.value 0xBFC00000)).1 = 0xBFC00000 := by decide +kernel

/-! ## Lists and collecting mode -/

/-- Memory with a region descriptor at 0x4000: base 0x5000, 256 bytes. -/
def region : State := { base with hbm := [(0x4001, 0x50), (0x4009, 0x01)] }

/-- A result with its state. -/
theorem got_of {α : Type} [DecidableEq α] {r : Got α} {a : α} (h : (match r with | .ok b _ => decide (b = a) | _ => false) = true) :
    ∃ s, r = .ok a s := by
  cases r <;> simp_all

/-- CollectingModeAndListViews: a descriptor that reads, a region that is legal, the lowest free handle; R223, R225. -/
theorem test_witness_descriptor :
    (∃ u, region.Descriptor 0x4000 0x5000 256 u) ∧ region.ctx.regionOk 0x5000 256 = true ∧ region.ctx.regionOk 0x5001 256 = false ∧
    region.LowestFree 0 ∧ Canonical (0x4000 : Word) ∧ (0x4000 : Word).toNat % 8 = 0 ∧ region.ctx.cdepth < 4 ∧ region.ctx.routine = none := by
  refine ⟨?_, by decide +kernel, by decide +kernel, ⟨by decide, by decide +kernel, fun _ h => absurd h (by omega)⟩, ?_, by decide, by decide, rfl⟩
  · obtain ⟨v, hv⟩ := got_of (r := region.loadAt region.scalarAcc 0x4000 8 []) (a := [0, 0x50, 0, 0, 0, 0, 0, 0]) (by decide +kernel)
    obtain ⟨u, hu⟩ := got_of
      (r := match region.loadAt region.scalarAcc 0x4000 8 [] with
        | .ok _ v => v.loadAt { v.scalarAcc with elem := 1 } (0x4000 + 8) 8 []
        | _ => .wait region) (a := [0, 1, 0, 0, 0, 0, 0, 0]) (by decide +kernel)
    rw [hv] at hu
    exact ⟨u, _, _, v, hv, hu, by decide, by decide⟩
  · unfold Canonical; decide

/-- A context in collecting mode over handle 0, with sealed lists of one segment in handles 1 and 2. -/
def collecting : State :=
  withCtx fun c => { c with
    cdepth := 1, frames := c.frames.set 0 { handle := 0, d := 6 }
    handles := ((c.handles.set 0 { state := .opened, segs := [{ base := 0x5000, capacity := 256, used := 0, steps := [] }] }).set 1
      { state := .sealed, segs := [{ base := 0x6000, capacity := 64, used := 0, steps := [] }] }).set 2
      { state := .sealed, segs := [{ base := 0x7000, capacity := 64, used := 0, steps := [] }] } }

/-- R225, R226: `ccall` opens, `cret` seals; R232, R236: views, `eldrop`, `elgrow`. -/
theorem test_lists :
    (let t := after (.ccall 5 6 7) (regs [(6, 0x2000), (7, 0x4000)] region)
     t.ctx.pc = 0x2000 ∧ t.getX 1 = 0x1004 ∧ t.getX 5 = 0 ∧ t.ctx.cdepth = 1 ∧ (t.ctx.handle 0).state = .opened) ∧
    (let t := after .cret (regs [(1, 0x1234)] collecting)
     t.ctx.pc = 0x1234 ∧ t.ctx.cdepth = 0 ∧ (t.ctx.handle 0).state = .sealed ∧ t.getX 6 = 0) ∧
    caught .cret base = 0x03 ∧ (after .cret (standing { rule (.vst 8 20 0 false) with cdepth := 1 } collecting)).ctx.hold = .stall ∧
    (let t := after (.elcat 5 6 7) (regs [(6, 1), (7, 2)] collecting)
     t.getX 5 = 3 ∧ (t.ctx.handle 3).segs.map (·.base) = [0x6000, 0x7000]) ∧
    (let t := after (.elrebase 5 6 8) (regs [(6, 1), (8, 0x10), (9, 0x20), (10, 0x100)] collecting)
     (t.ctx.handle 3).segs.map (·.steps) = [[{ rebase := true, lo := 0x10, hi := 0x20, delta := 0x100 }]]) ∧
    ((after (.eldrop 6) (regs [(6, 1)] collecting)).ctx.handle 1).state = .free ∧ caught (.eldrop 6) (regs [(6, 0)] collecting) = 0x03 ∧
    x1 (.elinfo 1 6) (regs [(6, 1)] collecting) = 0 ∧ caught (.elgrow 6 7) collecting = 0x04 ∧
    caught (.elgrow 6 7) (regs [(6, 1), (7, 0x4000)] (atDepth 1 collecting)) = 0x03 ∧
    ((after (.elgrow 6 7) (regs [(7, 0x4000)] (atDepth 1 { collecting with hbm := [(0x4001, 0x80), (0x4009, 0x01)] }))).ctx.handle 0).segs.length = 2 := by
  decide +kernel

/-- CollectingModeAndListViews: the states of handles that the clauses name. -/
theorem test_witness_handles :
    let s := regs [(6, 1), (7, 2)] collecting
    s.Names (s.getX 6) .sealed ∧ s.Names (s.getX 7) .sealed ∧ ¬ s.Names 0 .sealed ∧ s.Names 0 .opened ∧ s.ctx.cdepth ≠ 0 ∧ s.ctx.activeHandle < 16 ∧
    s.LowestFree 3 ∧ (∀ g ∈ (s.ctx.handle 1).segs, g.steps.length < 4) ∧ (match (s.viewRecords (s.ctx.laneAcc s.ctx.instrPc 0) (s.ctx.handle 1).segs).1 with | .ok (some v) => v.2.isNone | _ => false) = true ∧
    ¬ s.recorders ∧ (standing { rule (.vst 8 20 0 false) with cdepth := 1 } collecting).recorders := by
  refine ⟨⟨by decide +kernel, by decide +kernel⟩, ⟨by decide +kernel, by decide +kernel⟩, fun h => absurd h.2 (by decide +kernel),
    ⟨by decide, by decide +kernel⟩, by decide +kernel, by decide +kernel, ⟨by decide, by decide +kernel, ?_⟩, by decide +kernel, by decide +kernel, ?_,
    ⟨_, List.mem_cons_self .., by decide, by decide +kernel, Or.inl rfl⟩⟩
  · intro j h
    match j with
    | 0 => decide +kernel
    | 1 => decide +kernel
    | 2 => decide +kernel
  · rintro ⟨q, h, _⟩
    have he : (regs [(6, 1), (7, 2)] collecting).ctx.rules ++ (regs [(6, 1), (7, 2)] collecting).ctx.queue = [] := by decide +kernel
    rw [he] at h
    cases h

/-! ## Microcode, traps, returns, ends -/

/-- A store with one routine of format S3 for major 0x3A, even words. -/
def routines : State :=
  { base with bundle := { entries := [{ major := 0x3A, mask := 1, value := 0, fmt := 1, entry := 0, words := 2 }], code := [0, 0] } }

/-- TriggersEnterRoutines: a word with an entry, one without, one inside a routine; R49, R50, R52. -/
theorem test_triggers :
    let w : BitVec 32 := 0xE8000FFE
    let t := after (.microcodeTrigger w) (regs [(116, 9)] routines)
    w.toNat / 2 ^ 26 = 0x3A ∧ w.toNat % 2 ^ 26 &&& 1 = 0 ∧ routines.ctx.routine = none ∧
    t.ctx.routine = some { word := w, pc := 0x1000, entry := 0, words := 2, fmt := 1, off := 0 } ∧ t.getX 117 = 0xE8000FFE ∧
    t.getX 116 = 0xFFFFFFFFFFFFFFFE ∧ t.ctx.outer.toList[0]? = some 9 ∧ caught (.microcodeTrigger 0xE8000001) routines = 0x02 ∧
    caught (.microcodeTrigger w) base = 0x02 ∧ (after (.microcodeTrigger w) (inside 0 2 routines)).ctx.tcause = 0x01 ∧
    caught .ureject base = 0x01 ∧ caught (.mwlTwin 0 8 9) base = 0x02 := by decide +kernel

/-- TrapWordsEnterTheHandler: depth 0 and depth 1 with a handler, whose state block takes the records; depth 2, and depth 0 without one. -/
theorem test_traps :
    let t := after .trap base
    let u := after .ecall (atDepth 5)
    t.ctx.tcause = 0x18 ∧ t.ctx.tpc = 0x1000 ∧ t.ctx.tstat = 1 ∧ t.ctx.pc = 0x8000 ∧ t.ctx.hvl = 4 ∧ t.ctx.hvtype = 0x24002 ∧ t.ctx.vtype = 0x4002 ∧
    t.ctx.wb = 512 ∧ t.homeByte (0x20000000 + 0x426000) = 0x18 ∧ t.homeByte (0x20000000 + 0x426031) = 0x10 ∧
    t.homeByte (0x20000000 + 0x426030) = 0x04 ∧ u.ctx.tcause = 0x19 ∧ u.ctx.tstat = 6 ∧
    (after .trap (atDepth 2)).ctx.task = none ∧ (after .trap (withCtx fun c => { c with tvec := 0 })).ctx.hold = .idle ∧
    (after .trap (inside 0 2)).ctx.tstat = 0x10011 ∧ base.ctx.rules = [] ∧ base.ctx.queue = [] ∧ base.wf = true := by decide +kernel

/-- ElementFaultsTrap, TrapWordsEnterTheHandler: the state block takes the slot, the level area and the frame. -/
theorem test_witness_state_block :
    let f : TrapFrame := { cause := 0x18, pc := 0x1000, elem := 0, addr := 0, rule := BitVec.allOnes 64, tstat := 1, rpc := 0x1004 }
    (((base.saveSlot (.ctx 0) 0x20000 []).bind fun s => s.saveLevel (.ctx 0) 0).bind fun u => u.saveFrame (.ctx 0) 0x6000 f).isSome = true ∧
    (((base.saveSlot (.ctx 0) 0x30000 []).bind fun s => s.saveLevel (.ctx 0) 1).bind fun u => u.saveFrame (.ctx 0) 0x6080 f).isSome = true := by
  decide +kernel

/-- ReturnRestoresTheLevelBelow: level U, level S with a rule, depth 1 with a whole bank; R411. -/
theorem test_return :
    let h := after .trap (regs [(5, 77)])
    let t := after .rtr (regs [(5, 1), (6, 2)] h)
    caught .rtr base = 0x04 ∧ (after .rtr (standing (rule (.vld 8 20 0 false)) h)).ctx.hold = .stall ∧ t.getX 5 = 77 ∧ t.getX 6 = 0 ∧ t.ctx.pc = 0x1004 ∧
    t.ctx.tstat = 0 ∧ t.ctx.vl = 4 ∧ t.ctx.vtype = 0x24002 ∧ (h.blockLoad (.ctx 0) 0 0x1880).isSome = true ∧
    (h.blockLoad (.ctx 0) 0x6000 128).isSome = true ∧ (h.blockLoad (.ctx 0) 0x6080 128).isSome = true ∧ h.ctx.tstat.toNat % 4 = 1 ∧
    h.ctx.tstat.toNat / 4 % 2 = 0 ∧ h.ctx.tstat.toNat / 8 % 2 = 0 := by decide +kernel

/-- TasksAndHandlersEnd: level S, collecting mode, older work, a quiet task, the exit address, a handler; R40, R359, R410. -/
theorem test_ends :
    let exit := withCtx fun c => { c with pc := 0x00FFFFFFFFFFF000 }
    let t := after .halt base
    t.ctx.task = none ∧ t.ctx.hold = .idle ∧ (t.core 0).held 0 = 0 ∧ (after .halt (atDepth 1)).ctx.task = none ∧ caught .halt collecting = 0x12 ∧
    (after .halt (standing (rule (.vld 8 20 0 false)))).ctx.hold = .stall ∧ (after .exitAddressFetch exit).ctx.hold = .idle ∧
    (after .exitAddressFetch base).ctx.pc = 0x1000 ∧ caught .fdone base = 0x01 ∧ (after .fdone handlerBase).ctx.hold = .idle ∧
    (after .fdone (standing (rule (.vld 8 20 0 false)) handlerBase)).ctx.hold = .stall ∧
    (after .exitAddressFetch { handlerBase with ctx := { handlerBase.ctx with pc := 0x00FFFFFFFFFFF000 } }).ctx.hold = .stopped := by decide +kernel

/-- BankAndSlotsMove: level U, a misaligned and a non-canonical address, a bank that is stored and one that is reloaded, a slot of no
records; R412, R413. -/
theorem test_bank :
    let s := fun v : Word => regs [(5, v)] (atDepth 1 (withCtx fun c => { c with hvl := 3, hvtype := 0x24002 }))
    caught (.stkvec 5) base = 0x04 ∧ caught (.stkvec 5) (s 0x3004) = 0x0C ∧ caught (.strule 5) (s 0x3008) = 0x0C ∧ caught (.ldrule 5) (s (2 ^ 60)) = 0x09 ∧
    (after (.stkvec 5) (s 0x3000)).ctx.tstat = 5 ∧ (after (.stkvec 5) (s 0x3000)).byteAt (.ctx 0) 0x300A = 2 ∧
    (after (.unstkvec 5) (s 0x3000)).ctx.hvtype = 0 ∧ (after (.unstkvec 5) (s 0x3000)).ctx.tstat = 1 ∧
    (s 0x3000).spanCause .store 0x3000 8 24 = none ∧ (s 0x3000).spanCause .load 0x3000 8 24 = none ∧
    (match (s 0x3000).writeSpan (s 0x3000).laneAcc 0x3000 2 (List.replicate 24 0) with | (.ok true, _) => true | _ => false) = true ∧
    (match (s 0x3000).readSpan (s 0x3000).laneAcc 0x3000 2 24 with | (.ok (some _), _) => true | _ => false) = true := by decide +kernel

/-- A context at level S that moves its slot at an address of a remote page whose answers have all come. -/
def carried (load : Bool) : RemoteOp := if load then .load else .store

def answered (load : Bool) : State :=
  regs [(5, 2 ^ 31)] (atDepth 1 (withCtx fun c => { c with remotes := (List.range 433).map fun i =>
    { key := 0x1000, elem := i, owner := 5, tpa := 128 * i, op := carried load, bytes := [], issued := 0, answer := some [] } }))

theorem answered_find (b : Bool) (q : Acc) (hk : q.key = 0x1000) (he : q.elem < 433) :
    findRemote q (128 * q.elem) (carried b) (answered b).ctx.remotes = some
      { key := 0x1000, elem := q.elem, owner := 5, tpa := 128 * q.elem, op := carried b, bytes := [], issued := 0, answer := some [] } := by
  have hr : (answered b).ctx.remotes = (List.range 433).map fun i =>
    { key := 0x1000, elem := i, owner := 5, tpa := 128 * i, op := carried b, bytes := [], issued := 0, answer := some [] } := rfl
  rw [hr]
  unfold findRemote
  rw [List.find?_map]
  have : (List.range 433).find? ((fun r : Remote => r.key == q.key && r.elem == q.elem && r.tpa == 128 * q.elem && decide (r.op = carried b)) ∘
      fun i => ({ key := 0x1000, elem := i, owner := 5, tpa := 128 * i, op := carried b, bytes := [], issued := 0, answer := some [] } : Remote))
      = some q.elem := by
    rw [List.find?_range_eq_some]
    refine ⟨by simp [hk], by simpa using he, fun j hj => ?_⟩
    have : (j == q.elem) = false := by simp; omega
    simp [this]
  rw [this]
  rfl

/-- Line i of the span. -/
def lineAt (i : Nat) : Word := BitVec.ofNat 64 (0x80000000 + 128 * i)

/-- The access of the span that a context makes. -/
def spanAccess (load : Bool) : Access := if load then .load else .store

theorem answered_translate (b : Bool) (i : Nat) (h : i < 433) :
    (answered b).translate (.core 0) 1 (spanAccess b) false (lineAt i) = .ok { pa := 128 * i, attr := .remote, owner := 5, zero := false } := by
  have key : ∀ b, ((List.range 433).all fun i =>
      match (answered b).translate (.core 0) 1 (spanAccess b) false (lineAt i) with
      | .ok p => decide (p = { pa := 128 * i, attr := .remote, owner := 5, zero := false })
      | .error _ => false) = true := by
    intro b; cases b <;> decide +kernel
  have hk := List.all_eq_true.mp (key b) i (by simpa using h)
  split at hk
  · next q hq => rw [hq, of_decide_eq_true hk]
  · cases hk

theorem answered_fill (b : Bool) (acc : Access) (i : Nat) (h : i < 433) : (answered b).fillTlb (.core 0) 1 acc (lineAt i) = answered b := by
  have key : ∀ b, ((List.range 433).all fun i =>
      (cachedLeaf ((answered b).core 0).tlb.leaves 1 ((lineAt i).toNat % 2 ^ 57)).isSome) = true := by
    intro b; cases b <;> decide +kernel
  have hk := List.all_eq_true.mp (key b) i (by simpa using h)
  obtain ⟨e, he⟩ := Option.isSome_iff_exists.mp hk
  unfold State.fillTlb State.mapCore
  dsimp only
  rw [he]
  rfl

/-- The access of line i. -/
def accAt (i : Nat) : Acc := { g := .ctx 0, scope := 0, user := false, key := 0x1000, elem := i }

theorem answered_remote (b : Bool) (i n : Nat) (bs : List Byte) (h : i < 433) :
    (answered b).remoteAt (accAt i) 5 (128 * i) (carried b) n bs = .ok (List.replicate n 0) (answered b) := by
  have hr := answered_find b (accAt i) rfl h
  unfold State.remoteAt
  have hc : (answered b).getCtx (accAt i).g = (answered b).ctx := rfl
  rw [hc]
  dsimp only
  rw [show (accAt i).elem = i from rfl] at hr
  rw [hr]
  simp

theorem answered_tenant (b : Bool) : (answered b).tenantOf (.ctx 0) = 1 := by cases b <;> decide +kernel

theorem answered_load (i : Nat) (h : i < 433) :
    (answered true).loadAt (accAt i) (lineAt i) 128 [] = .ok (List.replicate 128 0) (answered true) := by
  unfold State.loadAt
  dsimp only
  rw [show (accAt i).g = .ctx 0 from rfl, answered_tenant, show (accAt i).place = .core 0 from rfl, show (accAt i).user = false from rfl,
    show Access.load = spanAccess true from rfl, answered_translate true i h]
  dsimp only
  rw [answered_fill true _ i h]
  rw [show RemoteOp.load = carried true from rfl, answered_remote true i 128 [] h]
  rfl

theorem answered_store (i : Nat) (bs : List Byte) (h : i < 433) :
    (answered false).storeAt (accAt i) (lineAt i) bs = .ok () (answered false) := by
  unfold State.storeAt
  dsimp only
  rw [show (accAt i).g = .ctx 0 from rfl, answered_tenant, show (accAt i).place = .core 0 from rfl, show (accAt i).user = false from rfl,
    show Access.store = spanAccess false from rfl, answered_translate false i h]
  dsimp only
  rw [answered_fill false _ i h]
  rw [show RemoteOp.store = carried false from rfl, answered_remote false i 0 bs h]
  rfl

theorem lineAt_step (i : Nat) : (lineAt i).toNat % 128 = 0 ∧ lineAt i + BitVec.ofNat 64 128 = lineAt (i + 1) := by
  unfold lineAt
  constructor
  · rw [BitVec.toNat_ofNat]; omega
  · rw [← BitVec.ofNat_add]
    rfl

theorem answered_read (k i : Nat) (h : i + k = 432) :
    (answered true).readSpan (accAt i) (lineAt i) (k + 2) (128 * k) = (.ok (some (List.replicate (128 * k) 0)), answered true) := by
  induction k generalizing i with
  | zero => rfl
  | succ k ih =>
    have hs := lineAt_step i
    unfold State.readSpan
    rw [if_neg (by omega), hs.1]
    dsimp only
    rw [show min (128 * (k + 1)) (128 - 0) = 128 by omega, answered_load i (by omega)]
    dsimp only
    rw [hs.2, show ({ accAt i with elem := (accAt i).elem + 1 } : Acc) = accAt (i + 1) from rfl, show 128 * (k + 1) - 128 = 128 * k by omega,
      ih (i + 1) (by omega)]
    dsimp only
    rw [List.replicate_append_replicate, show 128 + 128 * k = 128 * (k + 1) by omega]

theorem answered_lines (k i : Nat) (far : Bool) (bs : List Byte) (h : i + k = 432) (hb : bs.length = 128 * k) :
    (answered false).writeLines (accAt i) far (lineAt i) (k + 2) bs = (.ok true, answered false) := by
  induction k generalizing i bs with
  | zero =>
    have : bs = [] := List.length_eq_zero_iff.mp hb
    subst this
    rfl
  | succ k ih =>
    have hs := lineAt_step i
    have hne : bs.isEmpty = false := by cases bs with | nil => simp at hb | cons _ _ => rfl
    unfold State.writeLines
    rw [hne, hs.1, hb]
    dsimp only [Bool.false_eq_true, if_false]
    rw [show (answered false).translate (accAt i).place ((answered false).tenantOf (accAt i).g) .store (accAt i).user (lineAt i) = _ from
      (answered_tenant false).symm ▸ answered_translate false i (by omega)]
    dsimp only
    rw [if_neg (by decide), show min (128 * (k + 1)) (128 - 0) = 128 by omega, hs.2,
      show ({ accAt i with elem := (accAt i).elem + 1 } : Acc) = accAt (i + 1) from rfl, ih (i + 1) _ (by omega) (by simp [hb]; omega)]
    cases far with
    | false => rfl
    | true =>
      rw [answered_store i _ (by omega), if_pos (decide_eq_true rfl)]
      exact ih (i + 1) _ (by omega) (by simp [hb]; omega)

theorem answered_write (bs : List Byte) (hb : bs.length = 0xD800) :
    (answered false).writeSpan (accAt 0) (lineAt 0) 434 bs = (.ok true, answered false) := by
  have hf : (answered false).spanFault (accAt 0) .store (lineAt 0) 434 0xD800 = none := by decide +kernel
  unfold State.writeSpan
  rw [hb, hf]
  dsimp only
  rw [answered_lines 432 0 true bs rfl hb]
  exact answered_lines 432 0 false bs rfl hb

theorem length_readBytes (m : Memory) (a n : Nat) : (m.readBytes a n).length = n := by
  induction n generalizing a with
  | zero => rfl
  | succ n ih => simp [Memory.readBytes, ih]

/-- BankAndSlotsMove: a span of a slot image that is stored, and one that is read and holds no valid record. -/
theorem test_witness_slots :
    (answered false).writeSpan (answered false).laneAcc 0x80000000 434 (slotBytes (answered false).ctx.slot) = (.ok true, answered false) ∧
    (answered true).readSpan (answered true).laneAcc 0x80000000 434 0xD800 = (.ok (some (List.replicate 0xD800 0)), answered true) ∧
    (∀ k, k < 96 → recValid (List.replicate 0xD800 0) k = false) ∧ (answered true).spanCause .load 0x80000000 4096 0xD800 = none ∧
    (answered false).spanCause .store 0x80000000 4096 0xD800 = none := by
  refine ⟨answered_write _ (length_readBytes ..), answered_read 432 0 rfl, fun k hk => ?_, by decide +kernel, by decide +kernel⟩
  unfold recValid recField
  rw [List.drop_replicate, List.take_replicate, show min 1 (0xD800 - (64 * k + 0x0C)) = 1 by omega]
  rfl

/-- CachedTranslationsAndCodeGo: level U, older work, a cached leaf and a code line that go; R414, R415. -/
theorem test_caches_go :
    let s := regs [(5, 0x1000)] (atDepth 1 { base with cores := [(0, { core0 with icache := [{ tenant := 1, line := 32, bytes := [] }] })] })
    caught (.tlbinv 5) (regs [(5, 0x1000)]) = 0x04 ∧ (after (.tlbinv 5) (standing (rule (.vld 8 20 0 false)) s)).ctx.hold = .stall ∧
    ((after (.tlbinv 5) s).core 0).tlb.leaves.length = 2 ∧ ((after (.tlbinv 0) s).core 0).tlb.leaves = [] ∧ s.ctx.svHeld = false ∧ ((after (.icinv 5) s).core 0).icache = [] ∧
    s.underWay 1 = false := by decide +kernel

/-! ## Events of the memory hierarchy -/

/-- StoresArriveInOrder: a store that is due, one behind another, one at its buffer, one that is over, and none; R152, R161, R168. -/
theorem test_stores_arrive :
    let s := fun (l : List Flight) => ({ base with flights := l } : State)
    let f := flight 0 0x3000 8 .toHome
    let cap : Flight := { flight 0 0x3000 8 .toBuffer with capacity := true }
    let g := { f with line := 97, bytes := cellsAt 0x3080 [1] }
    (s [f]).wf = true ∧ (after (.homeSliceStore 0) (s [f])).homeByte 0x3007 = 0x55 ∧ (after (.homeSliceStore 0) (s [f])).homeByte 0x3008 = 0 ∧
    (after (.homeSliceStore 0) (s [f])).flights.map (·.stage) = [.toBuffer] ∧ (after (.homeSliceStore 1) (s [f, f])).flights = [f, f] ∧
    (after (.homeSliceStore 0) (s [f, g])).flights.map (·.line) = [97, 96] ∧ (after (.homeSliceStore 1) (s [f, g])).homeByte 0x3080 = 1 ∧
    (after (.homeSliceStore 1) (s [f])).flights = [f] ∧ f.bytes = cellsAt 0x3000 (List.replicate 8 0x55) ∧
    (after (.capacityStorePerformed 0) (s [cap])).hbm.read 0x3000 = 0x55 ∧ (after (.capacityStorePerformed 0) (s [f])).flights = [f] ∧
    (after (.storeAcknowledge 0) (s [flight 0 0x3000 8 .acked])).flights = [] ∧
    (after (.storeAcknowledge 0) (s [flight 0 0x3000 8 .toBuffer])).flights = [] ∧ (after (.storeAcknowledge 0) (s [cap])).flights = [cap] := by
  decide +kernel

/-- FillsKeepMemory: lines of the L2 and of an L1 that a load asks for and lines that nothing asks for, a zero line, a leaf, a span that is
handed over, register lines that are resident, fresh, and kept in the image; R118, R123, R128, R167, R171, R381, R384. -/
theorem test_fills :
    let load := { rule (.vld 8 20 0 false) with opA := 0x3000 }
    let mem : State := { base with hbm := [(0x3001, 7)] }
    let s := standing load mem
    let held := fun (r : List Rule) => ({ withCtx (fun c => { c with rules := r }) with cores := [(0, { core0 with former := (Vector.replicate 8 []).set 0 [0] })] } : State)
    let former := fun s : State => (s.core 0).former.toList
    let zeros : State := { s with cores := [(0, { core0 with tlb := { leaves := [{ page 0 0 .normal (some window0) with zero := true }] } })] }
    let image : State := { withCtx (fun c => { c with backed := [128], allBacked := false, rules := [load] }) with hbm := [(0x20000000 + 256 * 128 + 3, 9)] }
    let walked : State := { base with
      cores := [(0, Core.reset)], tenants := [{ tenant1 with ptroot := 0x10000 }]
      hbm := [(0x10000, 0x01), (0x10001, 0x10), (0x10002, 0x01), (0x11000, 0x01), (0x11001, 0x20), (0x11002, 0x01), (0x12000, 0x9F), (0x12001, 0x01)] }
    s.l2Wanted 1 96 false = true ∧ ((after (.l2MissFill 1 96 false) s).l2Find 96).isSome = true ∧ (after (.l2MissFill 1 96 false) s).homeByte 0x3001 = 7 ∧
    mem.l2Wanted 1 96 false = false ∧ (after (.l2MissFill 1 96 false) mem).l2 = [] ∧ s.l2Wanted 1 97 false = false ∧
    s.l2Wanted 1 96 true = false ∧ zeros.l2Wanted 1 96 true = true ∧ (after (.l2MissFill 1 96 true) zeros).homeByte 0x3001 = 0 ∧ s.l2Find 96 = none ∧
    s.l1Wanted 1 0 96 false = true ∧ s.l1Wanted 1 0 96 true = false ∧ (after (.l2MissFill 2 96 false) s).l2 = [] ∧
    ((after (.l1LineFill 2 0 96) s).core 0).l1Find 96 = none ∧ mem.l1Wanted 1 0 96 false = false ∧
    (((after (.l1LineFill 1 0 96) s).core 0).l1Find 96).bind (fun e => lookup? 1 e.bytes) = some 7 ∧
    former (after (.spanHandover 0 0) (held [])) = List.replicate 8 [] ∧
    former (after (.spanHandover 0 0) (held [{ load with spans := [0], lanes := 32 }])) = [0] :: List.replicate 7 [] ∧
    (standing load).lineWanted (.ctx 0) 128 = true ∧ (standing load).lineWanted (.ctx 0) 129 = false ∧ base.lineWanted (.ctx 0) 128 = false ∧
    ((after (.registerLineFill (.ctx 0) 128) (standing load)).core 0).rf.contains (0, 128) = true ∧
    ((after (.registerLineFill (.ctx 0) 128) base).core 0).rf.contains (0, 128) = false ∧ image.lineWanted (.ctx 0) 128 = true ∧
    (after (.registerLineFill (.ctx 0) 128) image).ctx.v.read (256 * 128 + 3) = 9 ∧ image.lineError (0x20000000 + 256 * 128) 128 false = none ∧
    (match image.translate (.core 0) 1 .load false (0x20000000 + 256 * 128) with | .ok p => decide (p.pa = 0x20000000 + 256 * 128) | _ => false) = true ∧
    walked.asksPage walked.ctx 0x1234 .fetch = true ∧ walked.asksPage walked.ctx 0x1234 .load = false ∧
    ((after (.pageWalkComplete 1 0 0x1234 .fetch) walked).core 0).tlb.leaves.map (fun e => (e.bits, e.frame, e.perm)) = [(30, 0, 15)] ∧
    ((after (.pageWalkComplete 1 0 0x1234 .load) walked).core 0).tlb.leaves = [] ∧
    cachedLeaf (walked.core 0).tlb.leaves 1 0x1234 = none := by decide +kernel

/-- FillsKeepMemory: room for the lines, a handler's line. -/
theorem test_witness_fills :
    base.wf = true ∧ base.fillKeeps 1 96 false ∧ (base.l2Fill 1 (0x20000000 / 128) false).fillKeeps 1 (0x20000000 / 128 + 1) false ∧
    ({ base with l2 := [{ line := 96, data := [], dirty := false, zero := true, owner := 1, sharers := [] }] } : State).fillKeeps 1 96 true := by
  refine ⟨by decide +kernel, ?_, ?_, ?_⟩ <;> unfold State.fillKeeps <;> decide +kernel

/-! ## Events of engines and of the fabric -/

/-- A copy of two transfers of 64 bytes within the scratchpad, and a task that has 4 KiB of it. -/
def copyRule : Rule :=
  { rule (.cpgoSs 5 8 9) with opA := 0, opB := 1024, eng := { src := [0x400000000000, 0x20000000040], dst := [0x400000000000, 0x20000000040] } }

def copying : State :=
  { withCtx (fun c => { c with rules := [copyRule], task := some { tenant := 1, launch := 7, scratch := 4096 }, tagMap := [(5, 5)] }) with
    cores := [(0, { core0 with scratch := [(64, 3)] })] }

/-- A spool whose header is read: one empty bag of two columns. -/
def pooling (phase : Nat) (parts : List Partial) : Rule :=
  { rule (.spool 4 14 15) with eng := { phase := phase, parts := parts, chunks := [(0, [])], header := [0, 0, 32, 8, 0, 0, 0, 2, 0, 0] } }

/-- EngineEventsAdvanceTheirRules: each event with a rule of its kind and with another, the last buffer, a late wait; R205, R215, R317, R318. -/
theorem test_engines :
    let r := copyRule
    let all := (List.range 16).map fun u => ({ bag := 0, buffer := u, sums := [] } : Partial)
    let wait := fun t : Word => ({ withCtx (fun c => { c with
      rules := [rule (.vst 8 20 0 false), { rule (.vspld 8 20 0 false) with opA := 1024, eng := { waits := [(0, 0)] } }]
      task := some { tenant := 1, launch := 7, scratch := 4096 } }) with
      others := [{ Ctx.reset (.ctx 1) with rules := [copyRule], task := some { tenant := 1, launch := 7, scratch := 4096 } }], now := t } : State)
    r.transfersLeft = [0, 1] ∧ copySpaces r.instr = some (true, true) ∧ copySpaces (.mwl 0 8 9) = none ∧
    ((after (.copyTransfer (.ctx 0) 0 1) copying).core 0).scratch.read 1088 = 3 ∧
    (after (.copyTransfer (.ctx 0) 0 1) copying).ctx.rules.map (·.eng.xfers) = [[1]] ∧
    (match copying.transferAt (.ctx 0) 0 r 1 (true, true) with | .part u => decide (((u.ruleAt (.ctx 0) 0).map Rule.transfersLeft) = some [0]) | _ => false) = true ∧
    (after (.copyTransfer (.ctx 0) 0 1) (standing (rule (.mwl 0 8 9)))).ctx.rules.length = 1 ∧
    (pooling 2 []).leader 0 = some 0 ∧ (pooling 2 []).entries 0 = some [] ∧
    (match (standing (pooling 2 [])).bufferPartial (.ctx 0) 0 (pooling 2 []) 0 15 [] with | .part _ => true | _ => false) = true ∧
    (after (.spoolBufferPartial (.ctx 0) 0 0 15) (standing (pooling 2 []))).ctx.rules.map (·.eng.parts.length) = [1] ∧
    (after (.spoolBufferPartial (.ctx 0) 0 0 16) (standing (pooling 2 []))).ctx.rules = [pooling 2 []] ∧
    (after (.spoolBagComplete (.ctx 0) 0 0) (standing (pooling 2 all))).ctx.rules.map (fun r => r.done.getLsbD 0 && r.done.getLsbD 1 && !r.done.getLsbD 2) = [true] ∧
    (wait 0).scratchWaits (.ctx 0) 1024 4 = true ∧ (wait 0).emptyLimit (.ctx 0) = 285 ∧
    (after (.emptywaitTimeout (.ctx 0) 1 0) (wait 285)).ctx.rules.map (·.fault) = [none, some (.emptywait, 0, 1024)] ∧
    (after (.emptywaitTimeout (.ctx 0) 1 0) (wait 284)).ctx.rules.map (·.fault) = [none, none] ∧
    lookup? 0 ({ waits := [(0, 0)] } : Engine).waits = some 0 ∧ (wait 0).ctx.faultBefore 1 = false := by decide +kernel

/-- FabricEventsDeliver: a handler that may start and one that is busy, a chunk that fits and one that does not, a late call, an answer, a
refusal, a loss; R354, R358, R368, R370, R371. -/
theorem test_fabric :
    let m : Message := { addr := 0x7000, payload := [1, 2, 3], sender := 77 }
    let idle : State := { base with chains := [{ tenant := 1, slice := 3, first := 0, rods := 1, fvec := 9, tags := [0, 0, 0x1000, 0, 0, 0, 0, 0], queues := [(2, m)] }] }
    let c := (after (.handlerStart 1 3 2) idle).getCtx (.handler 1 3 2)
    let sent := withCtx fun c => { c with remotes := [{ key := 0, elem := 0, owner := 5, tpa := 0, op := .load, bytes := [], issued := 0 }] }
    c.pc = 0x1000 ∧ c.hold = .run ∧ c.getX 2 = 0x7000 ∧ c.getX 3 = 3 ∧ c.getX 4 = 77 ∧ c.getX 5 = 2 ∧ c.v.read 2 = 3 ∧ c.vl = 3 ∧
    ((after (.handlerStart 1 3 2) idle).chains.map (·.queues)) = [[]] ∧ (idle.chainOn 1 3).isSome = true ∧ (idle.getCtx (.handler 1 3 2)).hold = .idle ∧
    ((after (.handlerStart 1 3 2) { handlerBase with chains := idle.chains }).chains.map (·.queues)) = [[(2, m)]] ∧
    (after (.owningDeviceAcknowledge (.ctx 0) 0 true [9]) sent).ctx.remotes.map (·.answer) = [some [9]] ∧
    (after (.owningDeviceAcknowledge (.ctx 0) 0 false []) sent).ctx.remotes.map (·.lost) = [true] ∧
    (after (.remoteAccessTimeout (.ctx 0) 0) { sent with now := 9999999 }).ctx.remotes.map (·.lost) = [false] ∧
    (after (.remoteAccessTimeout (.ctx 0) 0) { sent with now := 10000000 }).ctx.remotes.map (·.lost) = [true] := by decide +kernel

/-- A call of two ranks that waits for rank 0, which lies on another module. -/
def call1 (far : Nat) : Rule :=
  { rule (.coll 5) with eng := { phase := 3, call := 6, header := [0, 0, 0, 0, 2, 0, 0, 0, 0, 0, 0, 0, 2, 1, far, Config.moduleNumber] } }

theorem not_here : isHere (Config.moduleNumber + 1) = false := by
  unfold isHere
  rw [decide_eq_false_iff_not]
  omega

/-- FabricEventsDeliver: the chunk that a call awaits, one of a call that differs, one of the rank itself, one of a rank that is none, one of
an earlier call; R367, R368. -/
theorem test_chunks (far : Nat) (h : isHere far = false) :
    let s := standing (call1 far)
    let r := call1 far
    exec (.collChunkArrival (.ctx 0) 0 0 true ⟨r.callOf, List.replicate 8 7⟩) s =
      .next (s.mapRule (.ctx 0) 0 fun r => r.collTakes 0 true (List.replicate 8 7)) ∧
    exec (.collChunkArrival (.ctx 0) 0 0 true ⟨r.callOf ++ [1], []⟩) s = .next (s.mapRule (.ctx 0) 0 fun r => r.collEnds 4) ∧
    exec (.collChunkArrival (.ctx 0) 0 1 true ⟨r.callOf, []⟩) s = .next s ∧ exec (.collChunkArrival (.ctx 0) 0 2 true ⟨r.callOf, []⟩) s = .next s ∧
    exec (.collChunkArrival (.ctx 0) 0 0 true ⟨[5], []⟩) s = .next s ∧ r.collAll = false := by
  have hf : isHere ((call1 far).rankOf 0) = false := h
  have run : ∀ peer call data, exec (.collChunkArrival (.ctx 0) 0 peer true ⟨call, data⟩) (standing (call1 far)) =
      if (call1 far).collStands = false || (call1 far).eng.phase ≠ 3 || 2 ≤ peer || peer = 1 || isHere ((call1 far).rankOf peer) ||
        nth call 0 ≠ 6 then .next (standing (call1 far))
      else if call ≠ (call1 far).callOf || (!data.isEmpty && decide (data.length ≠ 8)) then
        .next ((standing (call1 far)).mapRule (.ctx 0) 0 fun r => r.collEnds 4)
      else .next ((standing (call1 far)).mapRule (.ctx 0) 0 fun r => r.collTakes peer true data) := fun _ _ _ => rfl
  have hs : (call1 far).collStands = true := by simp [Rule.collStands, call1, rule]
  have hp : (call1 far).eng.phase = 3 := rfl
  have hc : nth (call1 far).callOf 0 = 6 := rfl
  refine ⟨?_, ?_, ?_, ?_, ?_, rfl⟩
  · rw [run, hf, hs, hp, hc]
    simp
  · rw [run, hf, hs, hp, show nth ((call1 far).callOf ++ [1]) 0 = 6 from rfl]
    simp
  · rw [run]
    simp
  · rw [run]
    simp
  · rw [run]
    simp [nth]

/-- FabricEventsDeliver: a call that waits past its limit and one that does not; R370. -/
theorem test_call_limit :
    let late := fun now : Word => ({ standing (call1 5) with now := now, tenants := [{ tenant1 with wlimit := 10 }] } : State)
    (after (.collTimeout (.ctx 0) 0) (late 10)).ctx.rules.map (fun r => (r.eng.phase, r.eng.index)) = [(4, [3])] ∧
    (after (.collTimeout (.ctx 0) 0) (late 9)).ctx.rules.map (fun r => (r.eng.phase, r.eng.index)) = [(3, [])] := by decide +kernel

/-! ## Traps, tasks and launches -/

/-- ElementFaultsTrap: a fault that traps, one that waits for a store, one without a handler, a rule without a fault, a saved task; R396, R402. -/
theorem test_element_faults :
    let r := { rule (.vld 8 20 0 false) with fault := some (.loadfault, 1, 0x9000) }
    let t := after (.trapEntry (.ctx 0)) (standing r)
    let kept := standing r (withCtx fun c => { c with hold := .saved false false })
    t.ctx.tcause = 0x09 ∧ t.ctx.tpc = 0x1000 ∧ t.ctx.telem = 1 ∧ t.ctx.taddr = 0x9000 ∧ t.ctx.trule = 0 ∧ t.ctx.tstat = 1 ∧ t.ctx.pc = 0x8000 ∧
    t.ctx.hold = .run ∧ t.ctx.userSlot = (standing r).ctx.records ∧
    (after (.trapEntry (.ctx 0)) { standing r with flights := [flight 0 0x3000 8 .toBuffer] }).ctx.tstat = 0 ∧
    (after (.trapEntry (.ctx 0)) (standing { r with fault := none })).ctx.tstat = 0 ∧ (after (.trapEntry (.ctx 0)) kept).ctx.tstat = 0 ∧
    (after (.trapEntry (.ctx 0)) base).ctx.tstat = 0 ∧
    (after (.trapEntry (.ctx 0)) (standing r (withCtx fun c => { c with tvec := 0 }))).ctx.task = none ∧
    (after (.trapEntry (.ctx 0)) (standing r (atDepth 2))).ctx.hold = .idle ∧ (standing r).ctx.pending = none := by decide +kernel

/-- A launch of the tenant's table: 8 tickets, no trigger, deadline 100. -/
def launch1 : Launch :=
  { id := 7, queue := 0, arrival := 0, record := 0, code := 1, kernel := 0
    fields := List.replicate 0x28 0 ++ toBytes 8 8 ++ toBytes 8 100 ++ List.replicate 0x28 0 }

/-- The tenant with a launch and the code that it names. -/
def withLaunch (l : Launch) (s : State := base) : State :=
  { s with tenants := [{ tenant1 with
      launches := [l], code := [{ id := 1, base := 0, size := 64, kernels := [{ entry := 0x5000, spans := 1, tiles := 0, tags := 3, scratch := 0, gang := false }] }] }] }

/-- The words of a level area at 0x20000000 whose x5 is 9 and whose pc is 0x3000. -/
def levelArea : Memory := [(0x20000000 + 0x420028, 9), (0x20000000 + 0x420401, 0x30)]

/-- TasksAreSavedAndResumed: a request whose time has come, one that is early, none; a saved task that goes on, one of a launch that waits
behind another; R339, R417, R418. -/
theorem test_saved_tasks :
    let due := withCtx (fun c => { c with yieldBy := some 0, tagMap := [(3, 3)] }) (regs [(5, 77)])
    let t := after (.preempt (.ctx 0)) due
    let kept := withLaunch launch1 { withCtx (fun c => { c with hold := .saved false false }) with hbm := levelArea }
    let u := after (.resumeTask (.ctx 0) 0) kept
    t.ctx.hold = .saved false false ∧ t.ctx.tagMap = [] ∧ t.ctx.yieldBy = none ∧ (t.core 0).held 0 = 0 ∧ t.getX 5 = 77 ∧
    (after (.preempt (.ctx 0)) { due with ctx := { due.ctx with yieldBy := some 5 } }).ctx.hold = .run ∧ (after (.preempt (.ctx 0)) base).ctx.hold = .run ∧
    u.ctx.hold = .run ∧ u.ctx.pc = 0x3000 ∧ u.getX 5 = 9 ∧ (kept.blockLoad (.ctx 0) 0 0x1880).isSome = true ∧ kept.canResume kept.ctx 0 = true ∧
    kept.inOrder 1 = [] ∧ kept.launchOf { tenant := 1, launch := 7, launchid := 7 } = some launch1 ∧
    (after (.resumeTask (.ctx 0) 0) (withLaunch launch1)).ctx.hold = .run ∧ (after (.resumeTask (.ctx 0) 0) (withLaunch launch1)).ctx.pc = 0x1000 := by
  decide +kernel

/-- BarriersCompleteOrDie: a barrier of the core that all reached, one that another context has not, one that can never complete, a launch
that lost a participant; R341, R342, R424. -/
theorem test_barriers :
    let task : Task := { tenant := 1, launch := 7, gang := true, gangkey := 5 }
    let held := fun (n m : Nat) (hold : Hold) => ({ gangBase with
      ctx := { gangBase.ctx with hold := .barrier 4 0 false, arrivals := [(4, 0, n)] }
      others := [{ Ctx.reset (.ctx 1) with task := some task, hold := hold, arrivals := [(4, 0, m)], pc := 0x2000, ctximg := 0x21000000 }] } : State)
    let t := after (.barrierComplete (.ctx 0) false) (held 1 1 (.barrier 4 0 false))
    t.ctx.hold = .run ∧ t.ctx.pc = 0x1004 ∧ t.others.map (·.pc) = [0x2004] ∧
    (after (.barrierComplete (.ctx 0) false) (held 2 1 .run)).ctx.hold = .barrier 4 0 false ∧
    (after (.barrierComplete (.ctx 1) false) (held 2 1 .run)).ctx.hold = .barrier 4 0 false ∧
    (after (.barrierdead 1 7) (held 2 1 .run)).ctx.tcause = 0 ∧
    (held 2 1 .run).ctx.arrived 4 0 = 2 := by decide +kernel

/-- BarriersCompleteOrDie: every task of a launch held where none can complete, and a launch that is dead. -/
theorem test_barriers_dead :
    let task : Task := { tenant := 1, launch := 7, gang := true, gangkey := 5 }
    let two := fun (dead : Bool) => ({ gangBase with
      ctx := { gangBase.ctx with hold := .barrier 4 0 false, arrivals := [(4, 0, 1)] }
      others := [{ Ctx.reset (.ctx 1) with task := some task, hold := .barrier 4 1 false, arrivals := [(4, 1, 1)], ctximg := 0x21000000, tvec := 0x9000 }]
      tenants := [{ tenant1 with launches := [{ launch1 with dead := dead }] }] } : State)
    let t := after (.barrierdead 1 7) (two false)
    (two false).launchDead 1 7 = true ∧ t.ctx.tcause = 0x1C ∧ t.ctx.pc = 0x8000 ∧ t.others.map (·.tcause) = [0x1C] ∧
    t.others.map (·.pc) = [0x9000] ∧ (two true).launchAt 1 7 (fun l => l.dead = true) := by
  refine ⟨by decide +kernel, by decide +kernel, by decide +kernel, by decide +kernel, by decide +kernel, ?_⟩
  exact ⟨_, rfl, rfl⟩

/-- A queue of the tenant at 0x3000 with two slots. -/
def queue1 (st : QueueState) (consumed produced : Word) : Queue :=
  { number := 3, base := 0x3000, lslots := 1, device := true, fvec := 6, notify := 0x7000, state := st, consumed := consumed, produced := produced
    mapped := true, kicked := 0 }

/-- The caches of the I/O dies. -/
def ioLeaves : Vector Tlb 2 := Vector.replicate 2 { leaves := [page 0 0 .normal (some window0), page 1 (2 ^ 30) .capacity (some window1)] }

/-- The tenant with that queue. -/
def withQueue (q : Queue) (s : State := base) : State := { s with tenants := [{ tenant1 with queues := [q] }], ioTlb := ioLeaves }

/-- A record of the queue, with its sequence number and its check. -/
def recordAt (n : Nat) : Memory :=
  let b := List.replicate 0x70 0 ++ toBytes 8 n
  (cellsAt 0x3000 (b ++ toBytes 4 (crc32c b))).filter fun c => c.2 != 0

/-- QueuesFollowTheirStates: a kick, a fetch that finds no record, a record, no place, nothing to fetch; R327, R328, R330. -/
theorem test_queue_fetch :
    let full := fun (s : State) => ({ s with tenants := s.tenants.map fun t => { t with launches := List.replicate 256 launch1 } } : State)
    let state := fun (s : State) => (s.tenant 1).queues.map (·.state)
    let fetch := withQueue (queue1 .fetch 0 1)
    let found := withQueue (queue1 .fetch 0 1) { base with hbm := recordAt 1 }
    let t := after (.slotFetch 1 3) found
    state (after (.notifyKick 1 0x7000 4) (withQueue (queue1 .idle 3 3))) = [.fetch] ∧
    state (after (.notifyKick 1 0x7000 3) (withQueue (queue1 .idle 3 3))) = [.idle] ∧
    (after (.notifyKick 1 0x9000 4) fetch).homeByte 0x9000 = 4 ∧ fetch.hostWrite (.io 0) 1 (2 ^ 60) (toBytes 8 4) = none ∧
    (after (.notifyKick 1 (2 ^ 60) 4) fetch).homeByte 0x9000 = 0 ∧
    state (after (.slotFetch 1 3) fetch) = [.poll 0 0 500] ∧ fetch.arrivedRecord 1 (queue1 .fetch 0 1) = none ∧
    state (after (.slotFetch 1 3) (full fetch)) = [.held] ∧ (found.arrivedRecord 1 (queue1 .fetch 0 1)).isSome = true ∧
    (t.tenant 1).queues.map (·.consumed) = [1] ∧ (t.tenant 1).consumed = 1 ∧ state t = [.idle] ∧
    state (after (.slotFetch 1 3) (withQueue (queue1 .fetch 2 2))) = [.idle] ∧
    state (after (.slotFetch 1 3) (withQueue (queue1 .stalled 0 1))) = [.stalled] := by decide +kernel

/-- QueuesFollowTheirStates: polls that are early, that find none and that find one, the longest interval, a stall and its interrupt, a drain;
R330. -/
theorem test_queue_polls :
    let state := fun (s : State) => (s.tenant 1).queues.map (·.state)
    let poll := fun (now gap : Word) => withQueue (queue1 (.poll 0 0 gap) 0 1) { base with now := now }
    let found := withQueue (queue1 (.poll 0 0 500) 0 1) { base with now := 500, hbm := recordAt 1 }
    let stall := after (.queueStallTimeout 1 3) (poll 100000 16000)
    let drained := after (.queueDrainEnd 1 3) (withQueue (queue1 .drain 0 1))
    state (after (.queuePollTimer 1 3) (poll 499 500)) = [.poll 0 0 500] ∧ state (after (.queuePollTimer 1 3) (poll 500 500)) = [.poll 0 500 1000] ∧
    state (after (.queuePollTimer 1 3) (poll 16000 16000)) = [.poll 0 16000 16000] ∧
    (after (.queuePollTimer 1 3) found |>.tenant 1).queues.map (·.consumed) = [1] ∧
    state (after (.queueStallTimeout 1 3) (poll 99999 16000)) = [.poll 0 0 16000] ∧ state stall = [.stalled] ∧
    (stall.tenant 1).pendInts.map (fun i => (i.vector, i.kind, i.source)) = [(6, 1, 3)] ∧ state drained = [.off] ∧
    (drained.tenant 1).queues.map (·.mapped) = [false] ∧ state (after (.queueDrainEnd 1 3) (poll 0 500)) = [.poll 0 0 500] := by decide +kernel

/-- LaunchesBecomeReady: a launch that may go, one before its start, one with a trigger, one whose trigger lies in capacity memory, one that is
late, one that is late and dropped; R103, R331, R333, R335. -/
theorem test_launches :
    let put := fun (o : Nat) (bs : List Byte) (l : Launch) => ({ l with fields := l.fields.take o ++ bs ++ l.fields.drop (o + bs.length) } : Launch)
    let s := fun (l : Launch) => ({ withLaunch l with ioTlb := ioLeaves } : State)
    let states := fun (s : State) => (s.tenant 1).launches.map (·.state)
    let later := put 0x38 (toBytes 8 50) launch1
    let trig := put 0x40 (toBytes 8 0x7000 ++ toBytes 8 1) launch1
    let bad := put 0x40 (toBytes 8 (2 ^ 30) ++ toBytes 8 1) launch1
    let drop := put 3 [4] launch1
    let ready := after (.launchStartTime 1 7) (s launch1)
    states ready = [.ready] ∧ (ready.tenant 1).launches.map (·.ranges) = [[(0, 8), (8, 8), (8, 8), (8, 8)]] ∧
    states (after (.launchStartTime 1 7) (s later)) = [.waiting] ∧ states (after (.launchStartTime 1 7) { s later with now := 50 }) = [.ready] ∧
    states (after (.launchTriggerWrite 1 7 0) (s trig)) = [.waiting] ∧ (s trig).triggersMet 1 trig = some (false, true) ∧
    states (after (.launchTriggerWrite 1 7 0) { s trig with hbm := [(0x7000, 1)] }) = [.ready] ∧
    (s bad).triggersMet 1 bad = none ∧ states (after (.launchTriggerWrite 1 7 1) (s bad)) = [] ∧
    states (after (.launchStartTime 1 7) (s { launch1 with state := .draining })) = [.draining] ∧
    ((after (.launchDeadline 1 7) (s launch1)).tenant 1).launches.map (·.late) = [false] ∧
    ((after (.launchDeadline 1 7) { s launch1 with now := 101 }).tenant 1).launches.map (·.late) = [true] ∧
    ((after (.launchDeadline 1 7) { s { drop with running := 1 } with now := 101 }).tenant 1).launches.map (fun l => (l.state, l.outcome, l.late)) = [(.draining, 1, true)] ∧
    states (after (.launchDeadline 1 7) { s drop with now := 101 }) = [] := by decide +kernel

/-- DispatchStartsTasks: nothing to serve, and the first ticket of a launch; R40, R332, R334. -/
theorem test_dispatch :
    let s := withLaunch { launch1 with state := .ready, ranges := [(5, 8), (8, 8), (8, 8), (8, 8)] } { base with ctx := Ctx.reset (.ctx 0), cores := [(0, Core.reset)] }
    let l := { launch1 with state := LaunchState.ready, ranges := [(5, 8), (8, 8), (8, 8), (8, 8)] }
    let c := (after (.dispatchTask 1 0) s).getCtx (.ctx 0)
    s.inOrder 1 = [l] ∧ s.canHold 1 0 (l.needs (s.tenant 1)) = true ∧ s.freeContext 0 = some 0 ∧ s.tasksOf 1 7 = [] ∧
    (match s.takeTicket 1 0 l with | .run v l' _ => decide (v = 5 ∧ l'.ranges = [(6, 8), (8, 8), (8, 8), (8, 8)]) | _ => false) = true ∧
    c.pc = 0x5000 ∧ c.hold = .run ∧ c.vtype = 0x24002 ∧ c.getX 1 = 0x00FFFFFFFFFFF000 ∧ c.getX 2 = 5 ∧ c.getX 3 = 0 ∧ c.getX 4 = c.ctximg + 0x4F0000 ∧
    c.getX 5 = 7 ∧ c.tvec = 0x8000 ∧ c.tagMask = 3 ∧ c.tagMap = [(0, 0), (1, 1)] ∧ (c.task.map (·.ticket)) = some 5 ∧
    (after (.dispatchTask 1 0) base).ctx.pc = 0x1000 ∧ base.inOrder 1 = [] := by decide +kernel

/-! ## The host, the management core and the module -/

/-- RemoteMemoryAccessCompletes: a write and a read, one too long, a page that is not there, a kick, atomics that fit and that do not, an
acknowledgement; R328, R387-R389. -/
theorem test_rma :
    let s := withQueue (queue1 .idle 0 0) { base with hbm := [(0x3000, 5)] }
    let w := after (.rmaWrite ⟨1, 0⟩ 0x3001 [7, 8]) s
    let out := fun (i : Instr) => (after i s).out
    let ints := ({ base with tenants := [{ tenant1 with pendInts := [⟨1, 2, 3, 4, 5, 6⟩] }] } : State)
    w.homeByte 0x3001 = 7 ∧ w.homeByte 0x3002 = 8 ∧ w.homeByte 0x3000 = 5 ∧ w.out = [.completion true []] ∧
    out (.rmaWrite ⟨1, 0⟩ (2 ^ 31) [7]) = [.completion false []] ∧ s.hostWrite (.io 0) 1 (2 ^ 31) [7] = none ∧
    out (.rmaRead ⟨1, 0⟩ 0x3000 2) = [.completion true [5, 0]] ∧ out (.rmaRead ⟨1, 0⟩ 0x3000 (2 ^ 20 + 1)) = [.completion false []] ∧
    out (.rmaRead ⟨1, 0⟩ (2 ^ 31) 2) = [.completion false []] ∧
    ((after (.rmaWrite ⟨1, 0⟩ 0x7000 (toBytes 8 4)) s).tenant 1).queues.map (·.produced) = [4] ∧
    out (.rmaAtomic ⟨1, 0⟩ 0x3000 .add 3 0) = [.completion true [5, 0, 0, 0, 0, 0, 0, 0]] ∧
    (after (.rmaAtomic ⟨1, 0⟩ 0x3000 .add 3 0) s).homeByte 0x3000 = 8 ∧ (after (.rmaAtomic ⟨1, 0⟩ 0x3000 .swap 3 0) s).homeByte 0x3000 = 3 ∧
    (after (.rmaAtomic ⟨1, 0⟩ 0x3000 .cas 3 4) s).homeByte 0x3000 = 5 ∧ (after (.rmaAtomic ⟨1, 0⟩ 0x3000 .cas 3 5) s).homeByte 0x3000 = 3 ∧
    out (.rmaAtomic ⟨1, 0⟩ 0x3004 .add 3 0) = [.completion false []] ∧ out (.rmaAtomic ⟨1, 0⟩ (2 ^ 31) .add 3 0) = [.completion false []] ∧
    (match s.translate (.io 0) 1 .atomic true 0x3000 with | .ok p => decide (p = at3000) | _ => false) = true ∧ s.wf = true ∧
    s.lineError 0x3000 8 false = none ∧ ((after (.interruptDeliveryAck 1) ints).tenant 1).pendInts = [] := by decide +kernel

theorem test_witness_rma_fill : (withQueue (queue1 .idle 0 0)).fillKeeps 1 (0x3000 / 128) false := by
  unfold State.fillKeeps
  decide +kernel

/-- A request's header, signed by the operator. -/
def header1 : MgmtHeader := { tenant := 2, flags := 0, oplen := 0, seq := 9, operator := true, keyId := 0, sig := [] }

/-- A legal creation of tenant 2 on core 4, with one window in group 3. -/
def create2 : TenantReq :=
  { cores := [4], wayMask := 0x00F0, groups := [3], capSlots := 2, windows := [{ tbase := 0, size := 65536, dbase := 3 * 48 * 2 ^ 30, perm := 7, kind := 0 }]
    l1Kib := 1024, spbase := 256, mustSign := false, endpoints := 1, regs := { given := 0, words := List.replicate 10 0 }
    key := (1, List.replicate 32 7), pool := 0x10000 }

/-- The module beside a tenant that leaves room for another. -/
def roomy : State :=
  { base with tenants := [{ tenant1 with wayMask := 0x000F, groups := [0], capSlots := 1 }], firmware := true }

/-- TenantsAreMadeAndCleared, TenantResourcesAreConfigured, FirmwareAnswersItsRequests: whatever the signature check answers, a request that
is signed validly and in order is admitted; one by a key that may not sign it is not; R390. -/
theorem test_witness_admitted :
    (∀ bs, Config.sigValid Config.operatorKey (requestBytes 0x0001 header1 bs) [] = true →
      roomy.accepts 0x0001 header1 .operator bs = .ok Config.operatorKey) ∧
    roomy.accepts 0x0001 { header1 with operator := false } .operator [] = .error 1 ∧ roomy.accepts 0x0010 header1 .tenant [] = .error 1 ∧
    roomy.firmware = true := by
  refine ⟨fun bs h => ?_, by rfl, by rfl, by rfl⟩
  unfold State.accepts
  rw [show roomy.keyOf header1 .operator = some Config.operatorKey from rfl]
  dsimp only
  rw [show header1.sig = [] from rfl, h]
  rfl

/-- TenantsAreMadeAndCleared: requests that are legal, and each with one field that is not; R374, R376, R382, R431. -/
theorem test_tenants :
    let made := roomy.addTenant 2 create2
    let w : Window := { tbase := 65536, size := 65536, dbase := 3 * 48 * 2 ^ 30 + 65536, perm := 1, kind := 0 }
    roomy.tenantOk 2 create2 = true ∧ roomy.tenantOk 1 create2 = false ∧ roomy.tenantOk 16 create2 = false ∧
    roomy.tenantOk 2 { create2 with cores := [0] } = false ∧ roomy.tenantOk 2 { create2 with cores := [192] } = false ∧
    roomy.tenantOk 2 { create2 with wayMask := 0x0018 } = false ∧ roomy.tenantOk 2 { create2 with groups := [0] } = false ∧
    roomy.tenantOk 2 { create2 with capSlots := 1 } = false ∧ roomy.tenantOk 2 { create2 with l1Kib := 256 } = false ∧
    roomy.tenantOk 2 { create2 with spbase := 100 } = false ∧ roomy.tenantOk 2 { create2 with regs := { given := 1024, words := [] } } = false ∧
    (made.core 4).l1Kib = 1024 ∧ (made.tenant 2).cores = [4] ∧ (made.tenant 2).spbase = 256 ∧ made.tenants.map (·.id) = [1, 2] ∧
    made.windowFree 2 [3] ((made.tenant 2).windows.map (·.2)) w = true ∧ made.windowFree 2 [3] [w] w = false ∧ made.windowFree 2 [2] [] w = false ∧
    made.windowFree 1 [3] [] w = true ∧ made.windowFree 1 [3] [] { w with dbase := 3 * 48 * 2 ^ 30 } = false ∧
    (made.removeTenant 2).tenants.map (·.id) = [1] ∧ ({ made with hbm := [(3 * 48 * 2 ^ 30 + 1, 9)] } : State).homeByte (3 * 48 * 2 ^ 30 + 1) = 9 ∧
    (({ made with hbm := [(3 * 48 * 2 ^ 30 + 1, 9)] } : State).removeTenant 2).homeByte (3 * 48 * 2 ^ 30 + 1) = 0 := by decide +kernel

/-- TenantResourcesAreConfigured: legal records and records that are not; R327, R353. -/
theorem test_resources :
    let q : QueueReq := { base := 0x3000, lslots := 1, kind := 1, fvec := 255, zero := 0, notify := 0x7008 }
    let c : ChainReq := { slice := 191, first := 4, rods := 4, fvec := 1, zero := 0, tags := List.replicate 8 0x1000 }
    let faulted : State := { handlerBase with chains := handlerBase.chains.map fun c => { c with faulted := true } }
    queueReqOk q = true ∧ queueReqOk { q with base := 0x3040 } = false ∧ queueReqOk { q with lslots := 0 } = false ∧ queueReqOk { q with lslots := 16 } = true ∧
    queueReqOk { q with lslots := 17 } = false ∧ queueReqOk { q with kind := 2 } = false ∧ queueReqOk { q with fvec := 256 } = false ∧
    queueReqOk { q with zero := 1 } = false ∧ queueReqOk { q with notify := 4 } = false ∧
    base.chainOk 1 c = true ∧ base.chainOk 1 { c with slice := 192 } = false ∧ base.chainOk 1 { c with first := 2 } = false ∧
    base.chainOk 1 { c with rods := 3 } = false ∧ base.chainOk 1 { c with tags := [] } = false ∧ handlerBase.chainOk 1 { c with slice := 3 } = false ∧
    handlerBase.chainOk 2 { c with slice := 3 } = true ∧ handlerBase.chainOk 2 { c with slice := 3, first := 0 } = false ∧
    (handlerBase.chainOn 1 3).isSome = true ∧ (faulted.chainOn 1 3).map (·.faulted) = some true ∧
    ((withQueue (queue1 .idle 0 0)).queue 1 3).isSome = true ∧ (roomy.tenant 1).endpoints = 1 ∧ (findTenant 1 roomy.tenants).isSome = true := by
  decide +kernel

/-- FirmwareAnswersItsRequests: without good firmware, an opcode of no row, an object that is none, a bundle that waits; R391-R393, R96. -/
theorem test_firmware :
    let dead : State := { base with firmware := false }
    let b : Bundle := { base.bundle with id := 5 }
    let ends : State := { after .halt base with newBundle := some b }
    (after (.readAcceptedClasses header1) dead).out = [.response 9 2 []] ∧ (after (.attest header1 []) dead).out = [.response 9 2 []] ∧
    (after (.loadMicrocodeBundle header1 []) dead).out = [] ∧ (after (.unknownOpcode header1 0x0004) roomy).out = [.response 9 3 []] ∧
    (after (.unknownOpcode header1 0x0003) roomy).out = [] ∧ (after (.unknownOpcode header1 0x0004) dead).out = [] ∧
    (after (.loadObject 1 ⟨[], []⟩ 0) dead).out = [] ∧ (after (.loadObject 9 ⟨[], []⟩ 0) roomy).out = [] ∧ (roomy.objectStatus 1 []).isSome = true ∧
    (after (.loadObject 1 ⟨[], []⟩ 0) roomy).out ≠ [] ∧ (after .microcodeInstall ends).bundle = b ∧ (after .microcodeInstall ends).newBundle = none ∧
    (after .microcodeInstall base).bundle = base.bundle ∧ (after .microcodeInstall { base with newBundle := some b }).bundle = base.bundle := by
  decide +kernel

/-- ModuleEventsAct: time, supplies, a thermal step with its interrupt, the loss of a die, of one that is lost and of one that is not there;
R20, R391, R420, R423. -/
theorem test_module :
    let lost := after (.dieLoss 0) base
    let hot := after (.thermalClockStep 0) base
    (after (.timeBaseSync 77) base).now = 77 ∧ (after (.railOutOfRange true) base).linkUp = true ∧ (after (.railOutOfRange false) base).linkUp = false ∧
    (hot.tenant 1).pendInts.map (·.kind) = [4] ∧ hot.clockSteps.toList[0]? = some 1 ∧ hot.clockSteps.toList[1]? = some 0 ∧
    ((after (.thermalClockStep 1) base).tenant 1).pendInts = [] ∧ lost.diesLost = [0] ∧ (lost.core 0).stopped = true ∧ (lost.core 47).stopped = true ∧
    (lost.core 48).stopped = false ∧ lost.ctx.task = none ∧ (after (.dieLoss 0) lost).diesLost = [0] ∧ (after (.dieLoss 4) base).diesLost = [] := by decide +kernel

/-! ## The step -/

/-- The state whose next word is `add x1, x5, x6`, from its encoding in R38. -/
def adding : State := regs [(5, 2), (6, 3)] { base with hbm := [(0x1000, 0xC0), (0x1001, 0x50), (0x1002, 0x08), (0x1003, 0x04)] }

/-- A bundle whose routine at entry 0 is that word. -/
def routineOf (s : State) : State := { s with bundle := { s.bundle with code := [0x040850C0, 0x040850C0] } }

/-- Whether an outcome is a next state of which something holds. -/
def goesOn (r : Host.Outcome State Fault Refusal) (p : State → Bool) : Bool :=
  match r with
  | .next t => p t
  | _ => false

/-- StepRunsTheDecodedInstruction, DecodingAndEncodingAgree: a word of a task, of a handler, of a routine, one of no instruction, an event. -/
theorem test_step :
    let h : State := { handlerBase with hbm := [(0x1000, 0xC0), (0x1001, 0x50), (0x1002, 0x08), (0x1003, 0x04)] }
    let r := routineOf (inside 0 2 (regs [(5, 2), (6, 3)]))
    let q : Routine := { word := 0xFC000000, pc := 0x2000, entry := 0, words := 2, fmt := 1, off := 0 }
    adding.moves = [] ∧ adding.canRun adding.ctx = true ∧ adding.ctx.routine = none ∧
    (match decode [0xC0, 0x50, 0x08, 0x04] with | .ok x => decide (x = (.add 1 5 6, [])) | _ => false) = true ∧
    (match adding.fetchBytes.1 with | .ok b => decide (b = [0xC0, 0x50, 0x08, 0x04]) | _ => false) = true ∧
    goesOn (step adding) (fun t => decide (t.getX 1 = 5 ∧ t.ctx.pc = 0x1004)) = true ∧ h.canRun h.ctx = true ∧ handlerMay (.add 1 5 6) = true ∧
    handlerMay .halt = false ∧ (match h.fetchBytes.1 with | .ok b => decide (b = [0xC0, 0x50, 0x08, 0x04]) | _ => false) = true ∧
    r.canRun r.ctx = true ∧ r.ctx.routine = some q ∧ (match q.read (r.routineWord q 0) (r.routineWord q 1) with | .ok i => decide (i = .add 1 5 6) | _ => false) = true ∧
    goesOn (step r) (fun t => decide (t.getX 1 = 5)) = true ∧ (match decode [0, 0, 0, 0] with | .ok _ => false | _ => true) = true ∧
    goesOn (step base) (fun t => decide (t.ctx.tcause = 1)) = true ∧
    goesOn (step { adding with moves := [.event (.timeBaseSync 7)] }) (fun t => decide (t.now = 7 ∧ t.moves = [] ∧ t.ctx.pc = 0x1000)) = true ∧
    adding.lineError 0x1000 4 false = none ∧ adding.codeCache (.ctx 0) = [] ∧
    (match adding.translate (.core 0) 1 .fetch false 0x1000 with | .ok p => decide (p.pa = 0x1000 ∧ p.zero = false) | _ => false) = true := by
  decide +kernel

/-- StepRunsTheDecodedInstruction: a `ctl.rd` word of a system register whose zero field is not zero, at level U, at level S, and one of a user
register; R47. -/
theorem test_system_word :
    let cause := fun (d : Word) (m : Memory) => match step (atDepth d { base with hbm := m }) with
      | .next t => t.ctx.tcause
      | _ => 0
    let system : Memory := [(0x1001, 0x11), (0x1003, 0x5C)]
    (match decode [0x00, 0x11, 0x00, 0x5C] with | .ok _ => false | .error _ => true) = true ∧
    cause 0 system = 0x04 ∧ cause 1 system = 0x01 ∧ cause 0 [(0x1000, 6), (0x1001, 0x10), (0x1003, 0x5C)] = 0x01 := by decide +kernel

/-! ## What waits, and what an event finds -/

/-- What a context at level S that has an older load and a `fence.sv` behind it may not do yet (WaitsCompleteOnTheirCondition, CollectingModeAndListViews,
BankAndSlotsMove), what waits for the store queue and for the stores (ReturnRestoresTheLevelBelow, TasksAndHandlersEnd), and an `ifence` at pod
scope before and after the other modules' acknowledgement (FencesWaitForOlderAccesses). -/
theorem test_waiting :
    let held := regs [(2, 0x3000), (5, 0x3000)] (atDepth 1 (standing (rule (.vld 8 20 0 false)) (withCtx fun c => { c with svFence := some 5 })))
    let sent := fun st : Stage => atDepth 1 { base with flights := [flight 0 0x3000 8 st] }
    let remote : Remote := { key := 0x1000, elem := 0, owner := 5, tpa := 0, op := .load, bytes := [], issued := 0 }
    let pod := fun (l : List Remote) => withCtx fun c => { c with vtype := 0x34002, remotes := l }
    let stalls := fun (i : Instr) (s : State) => (after i s).ctx.hold = .stall ∧ (after i s).ctx.pc = s.ctx.pc
    held.ctx.svHeld = true ∧ stalls (.waitNe 1 2) held ∧ stalls (.waitGe 1 2) held ∧ stalls (.stkvec 5) held ∧ stalls (.ldrule 5) held ∧
    stalls .rtr (sent .queued) ∧ stalls .halt (sent .toBuffer) ∧ (after .halt (sent .acked)).ctx.task = none ∧
    stalls .halt (atDepth 1 (withCtx fun c => { c with remotes := [{ remote with answer := some [] }] })) ∧
    stalls .ifence (pod []) ∧ (after .ifence (pod [])).out = [.remote 0xFFF 0 .ifence []] ∧
    stalls .ifence (after .ifence (pod [])) ∧
    (after .ifence (pod [{ remote with owner := 0xFFF, op := .ifence, answer := some [] }])).ctx.pc = 0x1004 := by decide +kernel

/-- VectorValuesAnswerTheFrontEnd: an element whose grain a fetched line holds as not present; R117. -/
theorem test_lacks :
    let s := regs [(2, 3)] (withCtx fun c => { c with absent := [4096 * 3 / 4 + 3] })
    s.ctx.lacks [.v (4096 * 3 + 12) 4] = true ∧ absent s.olderAll (.v (4096 * 3 + 12) 4) = false ∧ (after (.vmvXs 1 3 2) s).ctx.hold = .stall := by
  decide +kernel

/-- StoresArriveInOrder: the oldest store of the store queue, and one behind it; R184. -/
theorem test_store_queue :
    let f := flight 0 0x3000 8 .queued
    let s : State := { base with flights := [f, f] }
    (s.queueStoreAt 0).flights.map (·.stage) = [.queued, .toHome] ∧ (s.queueStoreAt 1).flights = [f, f] ∧
    (((s.queueStoreAt 0).core 0).l1Find 96).bind (fun e => lookup? 7 e.bytes) = some 0x55 ∧ (s.queueStoreAt 0).homeByte 0x3007 = 0 ∧
    f.bytes = cellsAt 0x3000 (List.replicate 8 0x55) := by decide +kernel

/-- EngineEventsAdvanceTheirRules, ElementFaultsTrap: a spool with a bag that goes on, a call that has all that it waits for and one that has
not; R318, R319, R370. -/
theorem test_engine_ends :
    let ends := { call1 5 with eng := { (call1 5).eng with phase := 4, index := [0] } }
    let fault := { pooling 2 [] with fault := some (.loadfault, 2, 0x9000) }
    (pooling 2 []).poolsOn = true ∧ (after (.trapEntry (.ctx 0)) (standing fault)).ctx.tstat = 0 ∧
    (pooling 1 []).poolsOn = false ∧ ends.collStands = true ∧
    (after (.collComplete (.ctx 0) 0) (standing (call1 5))).ctx.rules.map (·.eng.phase) = [3] := by decide +kernel

/-- QueuesFollowTheirStates: a STALLED queue that was notified with no hardware slot free takes one, one that was not goes on waiting, and a
queue that drains without a slot takes one first; R328, R330, R351. -/
theorem test_queue_slots :
    let q := { queue1 .stalled 0 1 with mapped := false }
    let state := fun (s : State) => (s.tenant 1).queues.map fun q => (q.state, q.mapped)
    let drain := withQueue { q with state := .drain }
    state (after (.slotFetch 1 3) (withQueue { q with woken := true })) = [(.poll 0 0 500, true)] ∧
    state (after (.slotFetch 1 3) (withQueue q)) = [(.stalled, false)] ∧ (withQueue q).mappedQueues.length < 256 ∧
    state (drain.takeSlot 1 3) = [(.drain, true)] ∧ state (after (.queueDrainEnd 1 3) drain) = [(.off, false)] := by decide +kernel

/-- RemoteMemoryAccessCompletes: a kick at an address that does not translate. -/
theorem test_kick_fails :
    let s := withQueue { queue1 .idle 0 0 with notify := 2 ^ 35 }
    (s.queueAt 1 (2 ^ 35)).isSome = true ∧ (after (.rmaWrite ⟨1, 0⟩ (2 ^ 35) (toBytes 8 4)) s).out = [.completion false []] ∧
    ((after (.rmaWrite ⟨1, 0⟩ (2 ^ 35) (toBytes 8 4)) s).tenant 1).queues.map (·.produced) = [0] := by decide +kernel

/-- TenantsAreMadeAndCleared: a revoked window leaves no cached leaf, and what it held reads as zero in the window of another tenant that takes
the range; R373, R376. -/
theorem test_revoked_range :
    let w : Window := { tbase := 0, size := 65536, dbase := 0x10000, perm := 7, kind := 0 }
    let s := { roomy.addTenant 2 create2 with hbm := [(0x10005, 9)] }
    let t := (s.mapTenant 1 fun a => { a with stale := [(0x10000, 0x20000)] }).putWindow 2 1 (some w)
    let u := base.putWindow 1 0 none
    s.homeByte 0x10005 = 9 ∧ t.homeByte 0x10005 = 0 ∧ (lookup? 1 (t.tenant 2).windows) = some w ∧
    ((u.core 0).tlb.leaves.map (·.page)) = [1, 2] ∧ (u.tenant 1).revoked = [window0] ∧ (u.tenant 1).stale = [(0, 2 ^ 30)] := by decide +kernel

theorem test_witness_step_fill : adding.fillKeeps 1 (0x1000 / 128) false := by
  unfold State.fillKeeps
  decide +kernel

/-! ## What elements access, compute and exchange -/

/-- A rule with a captured base. -/
def based (i : Instr) (a : Word) : Rule := { rule i with opA := a }

/-- The state after an attempt at element e of the rule that stands first. -/
noncomputable def again (e : Nat) (s : State) : State := after (.elementFire (.ctx 0) 0 e) s

/-- The same of a rule set first in a state. -/
noncomputable def shot (r : Rule) (e : Nat) (s : State := base) : State := again e (standing r s)

/-- Elements of `n` bytes of named registers. -/
def elems (n : Nat) (l : List (Nat × Nat × Nat)) (s : State := base) : State :=
  withCtx (fun c => l.foldl (fun c p => c.setElem 0 p.1 n p.2.1 p.2.2) c) s

/-- The fault that the first rule keeps. -/
def metFault (s : State) : Option (Cause × Nat × Word) := s.ctx.rules.head?.bind (·.fault)

/-- The elements of the first rule that are done, as a number; 0 where it has retired. -/
def doneBits (s : State) : Nat := (s.ctx.rules.head?.map fun r => r.done.toNat).getD 0

/-- Memory of some bytes, from addresses on. -/
def filled (l : List (Nat × List Byte)) (s : State := base) : State :=
  { s with hbm := (l.flatMap fun p => cellsAt p.1 p.2).filter fun c => c.2 != 0 }

/-- The state with 4 KiB of scratchpad and copy tag 5. -/
def padded : State := withCtx fun c =>
  { c with task := some { tenant := 1, launch := 7, scratch := 4096 }, tagMap := [(5, 5)], tagMask := 32 }

/-- FloatComparesAndReductions: zeros of both signs, NaNs, the vector-scalar forms, compares, a reduction without active elements, bfp codes;
R274, R275, R279, R283. -/
theorem test_float_compares :
    let two := fun (x y : Nat) => [(2, 4, 1, x), (3, 4, 1, y)]
    let mask := fun (r : Rule) (l : List (Nat × Nat × Nat × Nat)) => (after (.elementFire (.ctx 0) 0 1) (vector r l)).ctx.maskBit 2 1
    let one := 0x3F800000
    fired (typed 2 2 (.vminVv 1 2 3 0 false)) 1 4 (two 0 0x80000000) = (0x80000000, 0) ∧
    fired (typed 2 2 (.vmaxVv 1 2 3 0 false)) 1 4 (two 0 0x80000000) = (0, 0) ∧
    fired (typed 2 2 (.vmaxVv 1 2 3 0 false)) 1 4 (two one 0xFFC00001) = (0x7FC00000, 0) ∧
    fired { typed 2 2 (.vabsdVx 1 2 3 0 false) with opB := 0x40400000 } 1 4 (two one 0) = (0x40000000, 0) ∧
    fired { typed 2 2 (.vrsubVx 1 2 3 0 false) with opB := 0x40400000 } 1 4 (two one 0) = (0x40000000, 0) ∧
    mask (typed 2 2 (.vle 2 2 3 0 false)) (two one one) = true ∧ mask (typed 2 2 (.vle 2 2 3 0 false)) (two one 0x7FC00000) = false ∧
    mask (typed 2 2 (.vneVv 2 2 3 0 false)) (two 0x7FC00000 0x7FC00000) = true ∧ mask (typed 2 2 (.veqVv 2 2 3 0 false)) (two 0 0x80000000) = true ∧
    mask { typed 2 2 (.vge 2 2 3 0 false) with opB := 0x3F800000 } (two one 0) = true ∧
    mask (typed 0 6 (.veqVv 2 2 3 0 false)) [(2, 1, 1, 0x41), (3, 1, 1, 0x01)] = true ∧
    fired (typed 2 2 (.vredmin 1 2 3 1 false)) 0 4 [(3, 4, 0, 5)] = (5, 0) ∧
    fired (typed 2 2 (.vredmax 1 2 3 0 false)) 0 4 [(2, 4, 1, one), (3, 4, 0, 0xBF800000)] = (one, 0) := by decide +kernel

/-- ConversionsAndMerges: a float to a narrow natural that does not fit, to a narrower float, an int to a float; a bfp value, both merges,
the move; R140, R250, R251, R276, R289. -/
theorem test_conversions :
    let f := fun (r : Rule) (n : Nat) (l : List (Nat × Nat × Nat × Nat)) =>
      let t := after (.elementFire (.ctx 0) 0 1) (vector r l)
      (t.ctx.elem 0 1 n 1, t.ctx.fflags.toNat)
    let masked := withCtx fun c => { c with q := #v[0, 2, 0, 0, 0, 0, 0, 0] }
    let merged := fun (r : Rule) (s : State) => (after (.elementFire (.ctx 0) 0 1) (vector r [(2, 4, 1, 7), (3, 4, 1, 8)] s)).ctx.elem 0 1 4 1
    f (typed 2 2 (.vcvt 1 2 4 0 false)) 1 [(2, 4, 1, 0x43964000)] = (255, 16) ∧ f (typed 2 2 (.vcvt 1 2 4 0 false)) 1 [(2, 4, 1, 0x40600000)] = (4, 1) ∧
    f (typed 2 2 (.vcvt 1 2 9 0 false)) 2 [(2, 4, 1, 0x3FC00000)] = (0x3E00, 0) ∧ f (typed 0 0 (.vcvt 1 2 10 0 false)) 4 [(2, 1, 1, 0xFE)] = (0xC0000000, 0) ∧
    f (typed 2 0 (.vcvt 1 2 0 0 false)) 1 [(2, 4, 1, 0x180)] = (0x80, 0) ∧
    f { typed 0 6 (.vfrombfp 1 2 3 0 false) with vtype := BitVec.ofNat 64 (4 * 6 + 32 * 2 + 0x4000) } 4 [(2, 1, 1, 0xFD), (3, 1, 0, 0x80)] = (0xBFC00000, 0) ∧
    merged (rule (.vmergeVv 1 2 3 1 false)) masked = 8 ∧ merged (rule (.vmergeVv 1 2 3 1 false)) base = 7 ∧
    merged { rule (.vmergeVx 1 2 3 1 false) with opB := 9 } masked = 9 ∧ merged { rule (.vmergeVx 1 2 3 1 false) with opB := 9 } base = 7 ∧
    (shot { rule (.vmvSx 1 2 3) with opA := 6, opB := 1, done := BitVec.allOnes 4096 ^^^ 2 } 1).ctx.elem 0 1 4 1 = 6 := by decide +kernel

/-- Words at 0x3000. -/
def rowOf : State := filled [(0x3000, [1, 0, 0, 0, 7, 0, 0, 0, 9, 0, 0, 0, 11])]

/-- LoadElementsRead: each form, an index register that the load overwrites, an ordered load whose lower element is open, held data, the causes
of an address, another context's pending store, an error, a remote page; a `vldff` without a failure, one that trims and one that faults;
`vspld` in its range and beyond; a record of collecting mode; R112, R174, R188, R189, R207, R233. -/
theorem test_loads :
    let get := fun t : State => t.ctx.elem 0 1 4 1
    let at' := elems 4 [(3, 1, 12)] rowOf
    let quad := fun a : Word => { based (.vld 1 20 0 false) a with vtype := 0x28002 }
    let pad : State := { padded with cores := [(0, { core0 with scratch := [(68, 9)] })] }
    let listed := withCtx (fun c => { c with
      cdepth := 1, frames := c.frames.set 0 { handle := 0, d := 6 }
      handles := c.handles.set 0 { state := .opened, segs := [{ base := 0x5000, capacity := 256, used := 32, steps := [] }] } })
      (filled [(0x3004, [7]), (0x5000, recordBytes 0x3004 [5])])
    get (shot (based (.vld 1 20 0 false) 0x3000) 1 rowOf) = 7 ∧ get (shot { based (.vlds 1 20 3 0 false) 0x3000 with opB := 8 } 1 rowOf) = 9 ∧
    get (shot (based (.vldx 1 20 3 0 false) 0x3000) 1 at') = 11 ∧ doneBits (shot (based (.vldxo 1 20 3 0 false) 0x3000) 1 at') = 0 ∧
    get (shot { based (.vldxo 1 20 3 0 false) 0x3000 with done := 1 } 1 at') = 11 ∧
    ((shot (based (.vldx 3 20 3 0 false) 0x3000) 1 at').ctx.rules.map (·.eng.index)) = [[0, 12, 0, 0]] ∧
    get (shot { based (.vld 1 20 0 false) 0x3000 with eng := { held := [(1, 77)] } } 1 rowOf) = 77 ∧
    metFault (shot (based (.vld 1 20 0 false) 0x3001) 1 rowOf) = some (.align, 1, 0x3005) ∧
    metFault (shot (based (.vld 1 20 0 false) (2 ^ 60)) 1 rowOf) = some (.loadfault, 1, 0x1000000000000004) ∧
    metFault (shot (based (.vld 1 20 0 false) 0x3000) 1 { rowOf with mismatch := [0x60] }) = some (.integrity, 1, 0x3004) ∧
    doneBits (shot (quad 0x3000) 1 { rowOf with flights := [flight 1 0x3000 8 .toHome] }) = 0 ∧
    doneBits (shot (quad 0x3000) 1 rowOf) = 2 ∧
    (shot (based (.vld 1 20 0 false) 0x80000000) 1 rowOf).out = [.remote 5 4 .load []] ∧
    (shot (based (.vldff 1 20 0 false) 0x3000) 1 rowOf).ctx.rules.map (fun r => (r.vl, r.eng.phase)) = [(4, 1)] ∧
    (shot (based (.vldff 1 20 0 false) 0xBFFFFFF8) 1 rowOf).ctx.rules.map (fun r => (r.vl, r.eng.phase)) = [(2, 1)] ∧
    (shot (based (.vldff 1 20 0 false) 0xBFFFFFF8) 1 rowOf).ctx.vl = 2 ∧
    metFault (shot (based (.vldff 1 20 0 false) 0xC0000000) 1 rowOf) = some (.loadfault, 0, 0xC0000000) ∧
    get (shot (based (.vspld 1 20 0 false) 64) 1 pad) = 9 ∧ metFault (shot (based (.vspld 1 20 0 false) 4092) 1 pad) = some (.loadfault, 1, 4096) ∧
    metFault (shot (based (.vspld 1 20 0 false) 4087) 1 pad) = some (.align, 1, 4091) ∧
    get (shot { based (.vld 1 20 0 false) 0x3000 with cdepth := 1 } 1 listed) = 5 := by decide +kernel

/-- LoadElementsRead, StoreElementsWrite: what their premises name, of a load and of a store of element 1 within one line, and of one at the end
of a line. -/
theorem test_witness_accesses :
    let r := based (.vld 1 20 0 false) 0x3000
    let s := standing r rowOf
    let p := fun pa : Nat => ({ pa := pa, attr := .normal, owner := 0, zero := false } : Phys)
    s.wf = true ∧ s.mayFire r 1 0 4 [1] ∧ r.detached = false ∧ r.eng.orphan = false ∧ r.seq < 2 ^ 62 ∧ r.holding 1 = none ∧
    (match s.ownBytes { r.acc s.ctx 1 with scope := 0, scalar := false } 0x3004 4 (r.lists s.ctx) with
      | (.ok (some own), u) => decide (own = [] ∧ u = s) | _ => false) = true ∧
    s.translate (.core 0) 1 .load true 0x3004 = .ok (p 0x3004) ∧ s.translate (.core 0) 1 .store true 0x307C = .ok (p 0x307C) ∧
    (0x307C + 4 - 1) / 128 = 0x307C / 128 ∧ s.loadWaits (.ctx 0) 1 0x3004 4 = false ∧ s.loadError (.ctx 0) 1 0x3004 4 false = none ∧
    s.l1Keeps (.ctx 0) (0x3004 / 128) ∧ s.takesLine (.ctx 0) (0x3004 / 128) false ∧ s.homeKeeps 1 (0x3004 / 128) false ∧ (∀ j, j < 0 → r.done.getLsbD j = true) := by
  refine ⟨by decide +kernel, mayFire_of (by decide +kernel), rfl, rfl, by decide, rfl, by decide +kernel, ok_of (by decide +kernel), ok_of (by decide +kernel), by decide,
    by decide +kernel, by decide +kernel, Or.inl (by decide +kernel), ⟨?_, Or.inl (by decide +kernel)⟩, ⟨?_, ?_⟩, fun _ h => absurd h (by omega)⟩
  · unfold State.fillKeeps; decide +kernel
  · unfold State.fillKeeps; decide +kernel
  · intro k e he
    have : ∀ k, (State.core (standing (based (.vld 1 20 0 false) 0x3000) rowOf) k).l1 = [] := by
      intro k
      unfold State.core
      show ((lookup? k [(0, core0)]).getD Core.reset).l1 = []
      unfold lookup?
      by_cases hk : 0 = k
      · subst hk; rfl
      · rw [if_neg hk]
        rfl
    rw [this k] at he
    cases he

/-- StoreElementsWrite: each form, the causes, an ordered store; the atomics at core scope; `vspst`; a record, one without a slot, one of an
inactive element; R186-R192, R207, R230-R232. -/
theorem test_vector_stores :
    let byte := fun (t : State) (a : Nat) => (t.byteAt (.ctx 0) a).toNat
    let s := elems 4 [(1, 1, 0x1234), (3, 1, 12)] rowOf
    let a := fun (x y : Nat) => elems 4 [(1, 1, x), (2, 1, y), (3, 1, 12)] rowOf
    let old := fun t : State => (t.ctx.elem 0 1 4 1, byte t 0x300C)
    let listed := withCtx (fun c => { c with
      cdepth := 1, frames := c.frames.set 0 { handle := 0, d := 6 }
      handles := c.handles.set 0 { state := .opened, segs := [{ base := 0x5000, capacity := 256, used := 128, steps := [] }] } }) s
    let put := { based (.vst 1 20 0 false) 0x3000 with cdepth := 1, r := 4, opD := 0x5000 }
    let record := fun t : State => (List.range 32).map fun k => t.byteAt (.ctx 0) (0x5020 + k)
    byte (shot (based (.vst 1 20 0 false) 0x3000) 1 s) 0x3004 = 0x34 ∧ byte (shot { based (.vsts 1 20 3 0 false) 0x3000 with opB := 8 } 1 s) 0x3008 = 0x34 ∧
    byte (shot (based (.vstx 1 20 3 0 false) 0x3000) 1 s) 0x300C = 0x34 ∧ doneBits (shot (based (.vstxo 1 20 3 0 false) 0x3000) 1 s) = 0 ∧
    byte (shot { based (.vstxo 1 20 3 0 false) 0x3000 with done := 1 } 1 s) 0x300C = 0x34 ∧
    metFault (shot (based (.vst 1 20 0 false) 0x3001) 1 s) = some (.align, 1, 0x3005) ∧
    metFault (shot (based (.vst 1 20 0 false) 0xBFFFFFFC) 1 s) = some (.storefault, 1, 0xC0000000) ∧
    old (shot (based (.vamoadd 1 20 3 0 false) 0x3000) 1 (a 0x1234 0)) = (11, 0x3F) ∧
    old (shot (based (.vamomin 1 20 3 0 false) 0x3000) 1 (a 0xFFFFFFFF 0)) = (11, 0xFF) ∧
    old (shot (based (.vamomax 1 20 3 0 false) 0x3000) 1 (a 0xFFFFFFFF 0)) = (11, 11) ∧
    old (shot (based (.vamoswap 1 20 3 0 false) 0x3000) 1 (a 0x1234 0)) = (11, 0x34) ∧
    old (shot (based (.vamocas 1 20 3) 0x3000) 1 (a 11 5)) = (11, 5) ∧ old (shot (based (.vamocas 1 20 3) 0x3000) 1 (a 10 5)) = (11, 11) ∧
    ((shot (based (.vspst 1 20 0 false) 64) 1 (elems 4 [(1, 1, 9)] padded)).core 0).scratch = [(68, 9)] ∧
    metFault (shot (based (.vspst 1 20 0 false) 4092) 1 padded) = some (.storefault, 1, 4096) ∧
    record (shot put 1 listed) = recordBytes 0x3004 [0x34, 0x12, 0, 0] ∧ metFault (shot { put with r := 1 } 1 listed) = some (.elfull, 1, 0) ∧
    doneBits (shot { put with instr := .vst 1 20 1 false } 1 listed) = 2 ∧
    record (shot { put with instr := .vst 1 20 1 false } 1 listed) = List.replicate 32 0 := by decide +kernel

/-- The layout rule of the planes' worked values: 16 mantissas of 4 bits in one block (R208). -/
def planeRule (i : Instr) (a : Word) : Rule := { based i a with vtype := BitVec.ofNat 64 (4 * 6 + 32 * 2 + 0x4000), vl := 16 }

/-- PlanesLayoutsAndCopies: a region that is written and read back, a misaligned one, one that ends beyond the range, a header that does not fit; the
captured layouts; a copy between memory and the scratchpad; R203, R207, R208, R210, R212, R215. -/
theorem test_planes :
    let s := elems 1 [(1, 0, 0x06), (1, 1, 0xFD), (1, 15, 8), (3, 0, 0x80)] padded
    let t := shot (planeRule (.vpst 1 20 3) 64) 0 s
    let u := shot (planeRule (.vpld 4 20 5) 64) 0 t
    let layout := { rule (.cpls 1) with vtype := 0x24003, vl := 2 }
    let levels := elems 8 [(1, 0, 2 * 2 ^ 40), (1, 1, 7)] padded
    let moves := fun (i : Instr) (a b : Word) => { based i a with opB := b, eng := { src := [0x400000000000], dst := [0x400000000000] } }
    let full : State := { padded with hbm := [(0x3000, 3)], cores := [(0, { core0 with scratch := [(64, 4)] })] }
    let toPad := after (.copyTransfer (.ctx 0) 0 0) (standing (moves (.cpgoMs 5 8 9) 0x3000 128) full)
    let toMem := after (.copyTransfer (.ctx 0) 0 0) (standing (moves (.cpgoSm 5 8 9) 64 0x3080) full)
    t.ctx.rules = [] ∧ (t.core 0).scratch = [(64, 1), (65, 4), (68, 16), (72, 64), (76, 0x40), (77, 1), (128, 2), (129, 0x80), (192, 3), (256, 1),
      (320, 2), (384, 0x80)] ∧
    (u.ctx.elem 0 4 1 0, u.ctx.elem 0 4 1 1, u.ctx.elem 0 4 1 15, u.ctx.elem 0 5 1 0) = (6, 0xFD, 0xF8, 0x80) ∧
    metFault (shot (planeRule (.vpst 1 20 3) 65) 0 s) = some (.align, 0, 65) ∧ metFault (shot (planeRule (.vpst 1 20 3) 4032) 0 s) = some (.storefault, 0, 4096) ∧
    metFault (shot (planeRule (.vpld 4 20 5) 0) 0 t) = some (.illcfg, 0, 0) ∧
    (shot layout 0 levels).ctx.srcLayout = [0x20000000000, 7] ∧ (shot { layout with instr := .cpld 1 } 0 levels).ctx.dstLayout = [0x20000000000, 7] ∧
    metFault (shot layout 0 (elems 8 [(1, 1, 7)] padded)) = some (.illcfg, 0, 0) ∧
    (toPad.core 0).scratch.read 128 = 3 ∧ toPad.ctx.ctb = 32 ∧ toPad.ctx.rules = [] ∧ toMem.byteAt (.ctx 0) 0x3080 = 4 ∧ toMem.ctx.ctb = 32 := by
  decide +kernel

theorem test_witness_planes_stand :
    let r := planeRule (.vpst 1 20 3) 64
    (standing r padded).stands r 0 0 ∧ r.vl ≤ 4096 ∧ (64 : Word).toNat % 64 = 0 ∧ (standing r padded).sound (vaddr r.wb 1 15) 1 ∧
    (standing r padded).spanClear r 0 ∧ copyRule.transfersLeft = [0, 1] ∧ (standing copyRule padded).stands copyRule 0 0 := by
  refine ⟨⟨rfl, rfl, rfl, by decide, by decide +kernel, by decide +kernel, Or.inl rfl, by decide +kernel, by decide +kernel⟩, by decide, by decide,
    ⟨by show (_ : Nat × Nat) ∈ _; decide +kernel, by decide +kernel, by decide +kernel⟩, ?_, by decide +kernel,
    ⟨rfl, rfl, rfl, by decide, by decide +kernel, by decide +kernel, Or.inl rfl, by decide +kernel, by decide +kernel⟩⟩
  intro id i _ hi
  rw [show (planeRule (.vpst 1 20 3) 64).spanOf 0 = none by decide +kernel] at hi
  cases hi

/-- A context whose tile 0 is physical tile 2. -/
def tiled (s : State := base) : State := withCtx (fun c => { c with tileMap := #v[some 2, none, none, none], mtype := 0x10000000 }) s

/-- A matrix rule of a format, of rows, columns and words less 1. -/
def matrixRule (i : Instr) (fmt mv nv kd : Nat) : Rule := { rule i with mtype := BitVec.ofNat 64 (fmt + 256 * mv + 65536 * nv + 2 ^ 24 * kd + 2 ^ 28) }

/-- MatrixElementsCompute: int8, binary32 and bfp4 words, a sparse row and illegal metadata, a column from memory, a row of weights with two planes,
a load of a buffer that ends and one that cannot, a fold, and the moves; R296, R300-R302, R305-R308. -/
theorem test_matrix :
    let cell := fun (t : State) (i j : Nat) => (t.core 0).cell 2 i j
    let sparse := elems 4 [(4, 0, 0x04030201), (5, 0, 0x08070605), (5, 1, 0x0C0B0A09), (6, 0, 0b10011101)] tiled
    let live := tiled { base with cores := [(0, { core0 with cells := [(2 * 16384 + 5, 77 + 2 ^ 32 * 3), (2 * 16384 + 128, 88)] })] }
    let mem := tiled { base with hbm := [(0x3000, 2), (0x3004, 3), (0x3080, 4)] }
    let load := { rule (.mwl 0 8 9) with opA := 0x3000, opB := 0x10100 + 0x80 * 2 ^ 32 }
    let read := { load with done := 3, eng := { chunks := [(0, [2, 0, 0, 0, 4, 0, 0, 0]), (1, [3, 0, 0, 0, 0, 0, 0, 0])] } }
    let weights := tiled { base with cores := [(0, { core0 with weights := #v[none, some { format := 0x10100, words := [(0, 2), (1, 0x17)] }] })] }
    let one := shot (matrixRule (.mop 0 4 5 0) 0 1 1 1) 1 (elems 4 [(4, 2, 0xFF02), (5, 0, 0x0304), (5, 2, 1)] tiled)
    let float := shot (matrixRule (.mop 0 4 5 0) 5 1 1 0) 1 (elems 4 [(4, 1, 0x40000000), (5, 0, 0x40400000), (5, 1, 0x3F800000)] tiled)
    let column := shot { matrixRule (.mopm 0 4 20 21 0) 0 1 1 1 with opB := 0x3000, opA := 0x80 } 1 (elems 4 [(4, 0, 1), (4, 1, 1), (4, 2, 2)] mem)
    cell one 1 0 = 5 ∧ cell one 1 1 = 2 ∧ cell one 0 0 = 0 ∧ cell float 1 0 = 0x40C00000 ∧ cell float 1 1 = 0x40000000 ∧
    cell (shot (matrixRule (.mop 0 4 5 0) (6 + 16 * 2) 1 0 0) 1 (elems 4 [(4, 1, 0xF2), (5, 0, 0x13)] tiled)) 1 0 = 5 * 2 ^ 32 ∧
    cell (shot (matrixRule (.mops 0 4 5 6 0) 0 0 0 1) 0 sparse) 0 0 = 96 ∧
    metFault (shot (matrixRule (.mops 0 4 5 6 0) 0 0 0 1) 0 (elems 4 [(6, 0, 0b10000001)] tiled)) = some (.sparsemeta, 0, 0) ∧
    cell column 0 1 = 3 ∧ cell column 1 1 = 6 ∧
    cell (shot (matrixRule (.mvw 0 4 1 9 0) 0 0 0 0) 0 (elems 4 [(4, 0, 3)] weights)) 0 0 = 6 ∧
    cell (shot { matrixRule (.mvw 0 4 1 9 0) (6 + 16 * 2) 0 0 1 with opA := 2 } 0 (elems 4 [(4, 0, 3), (4, 1, 1)] weights)) 0 0 = 4 * 2 ^ 32 ∧
    (shot load 0 mem).ctx.rules.map (·.eng.chunks) = [[(0, [2, 0, 0, 0, 4, 0, 0, 0])]] ∧
    ((shot read 2 mem).core 0).weights.toList.map (·.map fun w => (w.format, w.words)) = [some (0x10100, [(0, 2), (1, 4), (8, 3), (9, 0)]), none] ∧
    doneBits (shot { read with done := 1 } 2 mem) = 1 ∧
    cell (shot (matrixRule (.mfold 0 1 2) (6 + 16 * 2) 0 5 0) 0 (elems 1 [(1, 0, 127), (2, 5, 128)] live)) 0 5 = 0x3EC00000 ∧
    cell (shot (matrixRule (.mzero 0) 0 0 0 0) 0 live) 0 5 = 0 ∧ cell (shot { matrixRule (.mwr 0 4 5) 0 0 7 0 with opB := 1 } 0 (elems 4 [(4, 5, 8)] live)) 1 5 = 8 ∧
    (shot { matrixRule (.mrd 7 0 5) 0 0 7 0 with opB := 0 } 0 live).ctx.elem 0 7 4 5 = 77 ∧
    (shot { matrixRule (.mrdc 7 0 5) 0 3 7 0 with opB := 0 } 0 live).ctx.elem 0 7 4 1 = 88 := by decide +kernel

theorem test_witness_matrix_stands :
    let r := matrixRule (.mop 0 4 5 0) 6 127 0 0
    let s := standing r tiled
    r.mtype.toNat % 16 < 7 ∧ r.mtype.toNat / 16 % 8 + 2 ≤ 8 ∧ s.stands r 127 0 ∧ s.wf = true ∧ s.ctx.tileMap.toList[0]? = some (some 2) ∧
    s.placesLost (.ctx 0) [.cells 2 127 1 0 1] = false ∧ s.bufferRead 0 1 = false := by
  refine ⟨by decide +kernel, by decide +kernel,
    ⟨rfl, rfl, rfl, by decide, by decide +kernel, by decide +kernel, Or.inl rfl, by decide +kernel, by decide +kernel⟩, by decide +kernel, rfl,
    by decide +kernel, by decide +kernel⟩

/-- A work list at 0x3000: 4 entries of 4 bytes at 0x3100, a seen set of 64 slots at 0x3180, with two entries. -/
def workList (closed : Bool) : State :=
  filled [(0x3000, toBytes 4 4 ++ toBytes 4 4 ++ toBytes 8 0x3100 ++ toBytes 8 0x3180 ++ toBytes 4 64 ++ toBytes 4 0 ++ toBytes 8 1 ++ toBytes 8 3 ++
    toBytes 8 (if closed then 2 ^ 63 else 0)), (0x3104, [0x21, 0, 0, 0, 0x22])]

/-- ListElements: pushes that fit and one that does not, an insertion of a value twice, a closed list, a pop, a close, a clear, a descriptor that
is none, a store on its way; `lpush` to a queue and to none; R344, R346-R348, R326, R327. -/
theorem test_work_lists :
    let word := fun (t : State) (a : Nat) => ofBytes ((List.range 4).map fun k => t.homeByte (a + k))
    let s := elems 4 [(1, 0, 7), (1, 1, 8), (1, 2, 9), (1, 3, 10)] (workList false)
    let most := shot (based (.wlpush 20 1) 0x3000) 0 s
    let ins := shot { based (.wlins 20 1) 0x3000 with vl := 2 } 0 (elems 4 [(1, 0, 7), (1, 1, 7)] (workList false))
    let pop := shot (based (.wlpop 6 20 1) 0x3000) 0 (workList false)
    let queued : State := { withQueue (queue1 .idle 0 0) with hbm := [(0x4000, 5)] }
    let sent := shot { based (.lpush 20 21) 0x4000 with opB := 3 } 0 queued
    metFault most = some (.wlfull, 2, 0x3000) ∧ doneBits most = 3 ∧ word most 0x3028 = 5 ∧ word most 0x310C = 7 ∧ word most 0x3100 = 8 ∧
    (shot { based (.wlpush 20 1) 0x3000 with vl := 2 } 0 s).ctx.rules = [] ∧
    word ins 0x3028 = 4 ∧ word ins (0x3180 + 16 * 7) = 7 ∧ word ins (0x3180 + 16 * 7 + 8) = 1 ∧
    metFault (shot (based (.wlpush 20 1) 0x3000) 0 (workList true)) = some (.illcfg, 0, 0x3000) ∧
    word pop 0x3020 = 3 ∧ pop.ctx.elem 0 6 4 0 = 0x21 ∧ pop.ctx.elem 0 6 4 1 = 0x22 ∧ pop.getX 1 = 2 ∧
    word (shot (based (.wlclose 20) 0x3000) 0 (workList false)) 0x3034 = 2 ^ 31 ∧
    word (shot (based (.wlclear 20) 0x3000) 0 (workList true)) 0x3034 = 0 ∧ word (shot (based (.wlclear 20) 0x3000) 0 (workList true)) 0x3030 = 1 ∧
    metFault (shot (based (.wlclear 20) 0x3040) 0 (workList true)) = some (.illcfg, 0, 0x3040) ∧
    doneBits (shot (based (.wlclear 20) 0x3000) 0 { workList true with flights := [flight 0 0x3000 8 .toHome] }) = 0 ∧
    (sent.tenant 1).queues.map (fun q => (q.state, q.produced)) = [(.fetch, 1)] ∧ word sent 0x3000 = 5 ∧ word sent 0x3070 = 1 ∧
    metFault (shot { based (.lpush 20 21) 0x4000 with opB := 4 } 0 queued) = some (.illcfg, 0, 0) := by decide +kernel

theorem test_witness_lists_stand :
    let r := based (.wlpush 20 1) 0x3000
    let s := standing r (workList false)
    s.stands r 0 0 ∧ s.wf = true ∧ (∀ f ∈ s.flights, ∀ c ∈ f.bytes, c.1 / 128 = f.line) ∧
    (match s.openList (.core 0) 1 true 0x3000 with | .ok (l, line) => decide (l.cap = 4 ∧ l.head = 1 ∧ l.tail = 3 ∧ line = 96) | _ => false) = true ∧
    (∀ line ∈ (s.listTouch (.ctx 0) r .push 1).rd, s.linesDone (sameCore (.ctx 0)) false (128 * line) 128 = true) := by
  refine ⟨⟨rfl, rfl, rfl, by decide, by decide +kernel, by decide +kernel, Or.inl rfl, by decide +kernel, by decide +kernel⟩, by decide +kernel,
    fun _ h => absurd h (by simp [standing, withCtx, workList, filled, base, State.reset]), by decide +kernel, by decide +kernel⟩

/-- A table of two columns in capacity memory, whose rows 16 and 32 lie at its start, and a bag list of two bags: rows 16 and 32, and row 0. -/
def pools : State :=
  let row := fun x y : Nat => toBytes 4 x ++ toBytes 4 y
  standing { based (.spool 4 14 15) 0x5000 with opB := 0x4000 } (filled
    [(0x4000, toBytes 8 0x40000000 ++ toBytes 8 0 ++ toBytes 4 64 ++ toBytes 4 8),
     (0x5000, toBytes 4 2 ++ toBytes 8 0 ++ toBytes 4 2 ++ toBytes 4 3 ++ toBytes 4 0 ++ toBytes 8 16 ++ toBytes 8 32 ++ toBytes 8 0),
     (Config.capBase, row 0x3F800000 0x40000000 ++ row 0x40A00000 0xC0000000 ++ row 0x40A00000 0xC0000000)])

/-- PoolingAndMessages: the header, the offsets, the entries of a bag, its buffers one by one, and its columns; a weighted row; an `fsend` to a chain,
to none, and to a full queue; R313-R318, R354, R358. -/
theorem test_pools :
    let table : Table := { base := 0x40000000, stride := 65536, rows := 64, rowbytes := 8, efmt := 0, mode := 1, ofmt := 0, width := 2, offs := [0, 1] }
    let read := again 0 (again 0 (again 0 pools))
    let full := (List.range 16).foldl (fun s _ => again 0 s) read
    let send := fun (n : Nat) (a : Word) =>
      let t := shot { based (.fsend 2 8 5) a with vl := 1 } 0 (elems 4 [(5, 0, 9)] { base with chains := handlerBase.chains.map fun c =>
        { c with queues := List.replicate n (2, ⟨0, [], 0⟩) } })
      (t.ctx.rules.length, t.chains.map fun c => (c.waiting 2).length)
    (again 0 pools).ctx.rules.map (·.eng.header) = [[0x40000000, 65536, 64, 8, 0, 0, 0, 2, 2]] ∧
    (again 0 (again 0 pools)).ctx.rules.map (·.eng.header) = [[0x40000000, 65536, 64, 8, 0, 0, 0, 2, 0, 2, 3]] ∧
    read.ctx.rules.map (·.eng.chunks) = [[(0, toBytes 8 16 ++ toBytes 8 32)]] ∧
    (again 0 read).ctx.rules.map (·.eng.parts) = [[⟨0, 0, [0, 0x41200000, 0xC0800000]⟩]] ∧
    doneBits full = 0 ∧ doneBits (again 0 full) = 3 ∧ (again 0 full).ctx.elem 0 4 4 0 = 0x41200000 ∧ (again 0 full).ctx.elem 0 4 4 1 = 0xC0800000 ∧
    (match (pools.poolBuffer (.ctx 0) 0 table 0 [(0x5018, 16, 0x40000000)] none).1 with
      | .ok (some l) => decide (l = [0, 0x41200000, 0xC0800000]) | _ => false) = true ∧
    (match (pools.poolBuffer (.ctx 0) 0 table 0 [(0x5018, 64, 0)] none).1 with | .error (c, va) => decide (c = .loadfault ∧ va = 0x5018) | _ => false) = true ∧
    send 0 0x180 = (0, [1]) ∧ send 16 0x180 = (1, [16]) ∧ send 0 0x200 = (1, [0]) := by decide +kernel

/-- A `kvsel` of the two best of three pages of 128 bytes; the second page's score is a NaN. -/
def selecting : State :=
  let word := toBytes 4
  standing (based (.kvsel 5) 0x4000) (filled
    [(0x4000, toBytes 8 0x5000 ++ toBytes 8 0x5100 ++ word 3 ++ toBytes 2 2 ++ [2, 5] ++ toBytes 8 0x6000 ++ word 128 ++ word 0 ++ toBytes 8 1024),
     (0x5000, word 0x3F800000 ++ word 0x40000000),
     (0x5100, word 0x3F800000 ++ word 0x3F800000 ++ word 0x7FC00000 ++ word 0x3F800000 ++ word 0x40000000 ++ word 0x3F800000),
     (0x6000, [11]), (0x6100, [33])] { padded with chains := handlerBase.chains })

/-- SelectionsCopyPages: each phase in turn, the ranks, the pages that land, the tag, and a descriptor that is not legal; R202, R363-R365. -/
theorem test_selection :
    let scored := again 0 (again 0 (again 0 selecting))
    let copied := again 0 (again 0 scored)
    (again 0 selecting).ctx.rules.map (fun r => (r.eng.phase, r.eng.header)) = [(1, [0x5000, 0x5100, 3, 2, 2, 0x6000, 128, 5, 1024])] ∧
    scored.ctx.rules.map (fun r => (r.eng.phase, r.eng.index.take 3)) = [(3, [2, 0, 0xFFFFFFFF])] ∧
    ((scored.core 0).scratch.read 1024, (scored.core 0).scratch.read 1028, (scored.core 0).scratch.read 1279) = (2, 0, 0xFF) ∧
    ((copied.core 0).scratch.read 1280, (copied.core 0).scratch.read 1408) = (33, 11) ∧ copied.ctx.ctb = 0 ∧ (again 0 copied).ctx.ctb = 32 ∧
    (again 0 copied).ctx.rules = [] ∧ metFault (again 0 { selecting with chains := [] }) = some (.illcfg, 0, 0x4000) := by decide +kernel

/-- A call whose data are all there: an operation, a type, a wire format, elements per rank and the chunks. -/
def call2 (op dtype wire count : Nat) (chunks : List (List Byte)) : Rule :=
  { rule (.coll 5) with eng := { phase := 4, index := [0], chunks := chunks.zipIdx.map fun c => (c.2, c.1)
                                 header := [op, dtype, 0, wire, count, 0x5000, 0x6000, 5, 0, 0, 0, 0x7000, chunks.length, 0] ++ List.replicate chunks.length 0 } }

/-- CollectivesExchangeData: the descriptor and the group's head are read, results with each wire, one rank's NaN, chunks in rank order; rbuf, the
status words and the tag; R366-R370. -/
theorem test_collective :
    let word := toBytes 4
    let s := standing (based (.coll 5) 0x4000) (filled
      [(0x4000, [0, 0, 0, 0] ++ word 2 ++ toBytes 8 0x6000 ++ toBytes 8 0x6000 ++ toBytes 8 0x7000 ++ [0, 5, 0, 0] ++ word 0 ++ toBytes 8 0 ++ toBytes 8 0x7100),
       (0x7000, word 1 ++ word 0)] { padded with tenants := [{ tenant1 with ports := [(0, 0, [])] }] })
    let t := again 0 (again 0 (standing (call2 0 0 0 1 [word 0x3F800000, word 0x40000000, word 0x40400000]) padded))
    (again 0 s).ctx.rules.map (fun r => (r.eng.phase, r.eng.src)) = [(1, [0x7000])] ∧
    (again 0 (again 0 s)).ctx.rules.map (fun r => (r.eng.phase, r.eng.xfers)) = [(1, [1, 0])] ∧
    collResult (call2 0 0 0 1 [word 0x3F800000, word 0x40000000, word 0x40400000]) = word 0x40C00000 ∧
    collResult (call2 0 2 1 1 [word 0x7FFFFFFF, word 1]) = word 0x80000000 ∧
    collResult (call2 0 2 1 1 [word 0x7FFFFFFF, word 0, word 1]) = word 0x80000001 ∧
    collResult (call2 0 0 0 1 [word 0x7FFFFFFF]) = word 0x7FC00000 ∧ collResult (call2 2 2 0 1 [word 1, word 2]) = word 1 ++ word 2 ∧
    t.ctx.rules.map (·.eng.phase) = [6] ∧ t.byteAt (.ctx 0) 0x6002 = 0xC0 ∧ t.byteAt (.ctx 0) 0x6003 = 0x40 ∧ t.ctx.ctb = 0 ∧ (again 0 t).ctx.ctb = 32 := by
  decide +kernel

/-- StoresWriteTheirBytes in collecting mode, LoadsReadAndWiden, StoresWriteTheirBytes and AtomicsReadModifyWrite on a remote page: a record and the
segment that counts it, a segment without room, a region line that an older load reads; a request that is sent, one that waits, an answer, a loss;
R163, R227, R230, R231, R371, R428. -/
theorem test_records_and_remotes :
    let s := regs [(1, 7), (2, 0x3000), (3, 2 ^ 31)] collecting
    let t := after (.stW 1 2 1) s
    let segment := fun u : Word => withCtx (fun c => { c with
      handles := c.handles.set 0 { state := .opened, segs := [{ base := 0x5000, capacity := 256, used := u, steps := [] }] } }) s
    let far := regs [(1, 7), (3, 2 ^ 31)]
    let had := fun (op : RemoteOp) (answer : Option (List Byte)) (lost : Bool) => withCtx (fun c => { c with
      remotes := [{ key := 0x1000, elem := 0, owner := 5, tpa := 0, op := op, bytes := [], issued := 0, answer := answer, lost := lost }] }) far
    (List.range 32).map (fun k => t.byteAt (.ctx 0) (0x5000 + k)) = recordBytes 0x3004 [7, 0, 0, 0] ∧ (t.ctx.handle 0).segs.map (·.used) = [32] ∧
    t.ctx.pc = 0x1004 ∧ caught (.stW 1 2 1) (segment 240) = 0x11 ∧ caught (.stW 1 2 1) (segment 224) = 0 ∧ caught (.stW 1 2 1) (regs [(2, 0x3001)] s) = 0x0C ∧
    (after (.stW 1 2 1) (standing (based (.vld 8 20 0 false) 0x5000) s)).ctx.hold = .stall ∧
    (after (.ldD 1 3 0) far).out = [.remote 5 0 .load []] ∧ (after (.ldD 1 3 0) far).ctx.hold = .stall ∧
    (after (.ldD 1 3 0) (had .load none false)).ctx.hold = .stall ∧ (after (.ldD 1 3 0) (had .load none false)).out = [] ∧
    x1 (.ldD 1 3 0) (had .load (some [9]) false) = 9 ∧ caught (.ldD 1 3 0) (had .load none true) = 0x0E ∧
    (after (.stB 1 3 0) far).out = [.remote 5 0 .store [7]] ∧ (after (.stB 1 3 0) (had .store (some []) false)).ctx.pc = 0x1004 ∧
    (after (.amoaddD 1 3 2) far).out = [.remote 5 0 .add (toBytes 8 0 ++ toBytes 8 7)] ∧ x1 (.amoaddD 1 3 2) (had .add (some [4]) false) = 4 ∧
    caught (.amoorD 1 3 2) far = 0x0A := by decide +kernel

/-- The premises of a record, and of a remote access. -/
theorem test_witness_records :
    let s := regs [(1, 7), (2, 0x3000)] collecting
    s.wf = true ∧ s.ctx.collecting = true ∧ (coreOf s.ctx.agent).isSome = true ∧ (s.storeQueue s.ctx.agent).length < 16 ∧ s.ctx.appending 0 = false ∧
    s.ctx.shortOf 0 = false ∧ (s.ctx.handle 0).segs = [] ++ [{ base := 0x5000, capacity := 256, used := 0, steps := [] }] ∧
    s.regionHeld 0x5000 32 = false ∧ (0x5000 : Word).toNat % 128 + 32 ≤ 128 ∧ s.l1Keeps (.ctx 0) (0x5000 / 128) ∧ ¬ s.fenced ∧
    (match s.recordsFor 0x3000 8 with | (.ok (some own), _) => decide (own = List.replicate 8 none) | _ => false) = true ∧
    s.scalarTarget .load (2 ^ 31) 8 = .ok { pa := 0, attr := .remote, owner := 5, zero := false } := by
  refine ⟨by decide +kernel, by decide +kernel, by decide +kernel, by decide +kernel, by decide +kernel, by decide +kernel, by decide +kernel, by decide +kernel,
    by decide, Or.inl (by decide +kernel), ?_, by decide +kernel, ok_of (by decide +kernel)⟩
  rintro ⟨n, h, _⟩
  rw [show (regs [(1, 7), (2, 0x3000)] collecting).ctx.svFence = none by decide +kernel] at h
  cases h

/-- WaitsCompleteOnTheirCondition: a wait on a remote page that stands, with the value that its limit lets it end with, and with one that it does not
take; R343. -/
theorem test_remote_waits :
    let q : Remote := { key := 0x1000, elem := 0, owner := 5, tpa := 0, op := .load, bytes := [], issued := 0 }
    let s := fun now : Word => ({ withCtx (fun c => { c with hold := .memory 0 true 1 2, remotes := [q] }) (regs [(1, 7), (2, 2 ^ 31)]) with
      now := now, tenants := [{ tenant1 with wlimit := 10 }] } : State)
    ((s 0).ctx.remotes.find? fun r => r.key == (s 0).ctx.instrPc && r.elem == 0 && r.tpa == 0 && decide (r.op = .load)) = some q ∧
    (after (.remoteWaitReread (.ctx 0) 7) (s 0)).ctx.pc = 0x1004 ∧ (after (.remoteWaitReread (.ctx 0) 6) (s 0)).ctx.hold = .memory 0 true 1 2 ∧
    (after (.remoteWaitReread (.ctx 0) 6) (s 10)).getX 1 = 6 ∧ (s 0).ctx.rereadDue 0 = false ∧ (after (.waitLimitExpiry (.ctx 0)) (s 9)).ctx.pc = 0x1000 := by
  decide +kernel

/-- YieldsParksAndBarriers, TasksAreSavedAndResumed: a park with a request pending, one with no rule in flight, one whose core has no span left; a
yield behind an atomic that is under way, and one whose image cannot be written; R214, R340, R404. -/
theorem test_stops :
    let r := rule (.vld 8 20 0 false)
    let asked := standing r (withCtx fun c => { c with yieldBy := some 5 })
    let full := withCtx (fun c => c) { base with cores := [(0, { core0 with spans := Vector.replicate 8 (some 1), want := (Vector.replicate 8 0).set 1 8 })] }
    let atomic := withCtx fun c => { c with yieldBy := some 5, remotes := [{ key := 0, elem := 0, owner := 5, tpa := 0, op := .add, bytes := [], issued := 0 }] }
    let unmapped := withCtx fun c => { c with yieldBy := some 5, ctximg := 2 ^ 40 }
    (after .park asked).ctx.hold = .saved false true ∧ (after .park asked).ctx.pc = 0x1004 ∧ (after .park asked).ctx.preSlot = asked.ctx.records ∧
    (after .park base).ctx.hold = .run ∧ ((after .park base).core 0).held 0 = 1 ∧ (after .park full).ctx.hold = .park 0 true ∧
    (after .yield atomic).ctx.hold = .stall ∧ (after .yield unmapped).ctx.task = none ∧ (after .yield unmapped).ctx.hold = .idle ∧
    ((asked.asSaved (.ctx 0)).saveBlock (.ctx 0) false).isSome = true ∧ (asked.asSaved (.ctx 0)).tilesLost (.ctx 0) = false ∧
    ((unmapped.asSaved (.ctx 0)).saveBlock (.ctx 0) false) = none := by decide +kernel

/-- TasksAreSavedAndResumed: a saved task that goes on in a context of another core; R337, R418. -/
theorem test_migration :
    let two := withLaunch launch1 { withCtx (fun c => { c with hold := .saved false false }) with cores := [(0, { core0 with rf := [] }), (1, core0)], hbm := levelArea }
    let s : State := { two with tenants := two.tenants.map fun t => { t with cores := [0, 1] } }
    let t := after (.resumeTask (.ctx 0) 8) s
    s.canResume s.ctx 1 = true ∧ (s.getCtx (.ctx 8)).task = none ∧ (s.core 0).rf = [] ∧ ((s.rename (.ctx 0) (.ctx 8)).blockLoad (.ctx 8) 0 0x1880).isSome = true ∧
    (t.getCtx (.ctx 8)).pc = 0x3000 ∧ (t.getCtx (.ctx 8)).getX 5 = 9 ∧ (t.getCtx (.ctx 8)).hold = .run ∧ (t.getCtx (.ctx 0)).task = none := by
  decide +kernel

/-- FabricEventsDeliver, CollectivesExchangeData: a call past its limit that has sent, and one that has not; with a rank's module lost; one that
its other ranks' numbers do not match; R370, R424. -/
theorem test_call_ends :
    let late := fun (phase : Nat) (lost : List Nat) => ({ standing { call1 5 with eng := { (call1 5).eng with phase := phase } } with
      now := 10, modulesLost := lost, tenants := [{ tenant1 with wlimit := 10 }] } : State)
    let ends := fun (phase : Nat) (lost : List Nat) =>
      (after (.collTimeout (.ctx 0) 0) (late phase lost)).ctx.rules.map (fun r => (r.eng.phase, r.eng.index))
    ends 3 [] = [(4, [3])] ∧ ends 3 [5] = [(4, [1])] ∧ ends 2 [] = [(2, [3])] ∧ ends 2 [5] = [(2, [1])] ∧ ends 1 [] = [(1, [])] := by decide +kernel

/-- CollectivesExchangeData: a call of one rank takes its number and sends nothing; a call of two with a rank's module lost; R367, R370. -/
theorem test_call_steps :
    let alone : Rule := { rule (.coll 5) with eng := { phase := 2, header := [0, 0, 0, 0, 1, 0x3000, 0x6000, 5, 0, 0, 0, 0x7000, 1, 0, Config.moduleNumber] } }
    let s := standing alone (filled [(0x3000, [1, 2, 3, 4])] padded)
    let lost : State := { standing { call1 5 with eng := { (call1 5).eng with phase := 2 } } with modulesLost := [5] }
    s.stands alone 0 0 ∧ (again 0 s).ctx.rules.map (fun r => (r.eng.phase, r.eng.acks)) = [(3, [0])] ∧
    (again 0 s).ctx.rules.map (·.eng.chunks) = [[(0, [1, 2, 3, 4])]] ∧ lookup? 0 ((again 0 s).tenant 1).calls = some 1 ∧
    (again 0 lost).ctx.rules.map (fun r => (r.eng.phase, r.eng.index)) = [(4, [1])] := by
  refine ⟨⟨rfl, rfl, rfl, by decide, by decide +kernel, by decide +kernel, Or.inl rfl, by decide +kernel, by decide +kernel⟩, ?_, ?_, ?_, ?_⟩ <;> decide +kernel

/-- A rule behind a store of its context, beside another context of the core whose copy may still set the bits that it waits for. -/
def lateWait (r : Rule) (t : Word) : State :=
  { withCtx (fun c => { c with rules := [rule (.vst 8 20 0 false), r], task := some { tenant := 1, launch := 7, scratch := 4096 } }) with
    others := [{ Ctx.reset (.ctx 1) with rules := [copyRule], task := some { tenant := 1, launch := 7, scratch := 4096 } }], now := t }

/-- A `vpld` that waits, and a copy whose second transfer does. -/
def lateRead : Rule := { planeRule (.vpld 4 20 5) 1024 with eng := { waits := [(0, 0)] } }
def lateCopy : Rule := { copyRule with
  opA := 1024, opB := 2048, eng := { src := [0x400000000000, 0x20000000040], dst := [0x400000000000, 0x20000000040], waits := [(1, 0)] } }

/-- The faults of the two rules after the limit's event. -/
noncomputable def lateFault (r : Rule) (j : Nat) (t : Word) : List (Option (Cause × Nat × Word)) :=
  (after (.emptywaitTimeout (.ctx 0) 1 j) (lateWait r t)).ctx.rules.map (·.fault)

/-- EngineEventsAdvanceTheirRules: the wait of a `vpld`, and of a transfer, that has lasted its limit, and one that has not; R205, R216. -/
theorem test_late_waits :
    lateFault lateRead 0 285 = [none, some (.emptywait, 0, 1024)] ∧ lateFault lateRead 0 284 = [none, none] ∧
    lateFault lateCopy 1 285 = [none, some (.emptywait, 0, 1088)] ∧ lateFault lateCopy 1 284 = [none, none] ∧ lateFault lateCopy 0 285 = [none, none] := by
  refine ⟨?_, ?_, ?_, ?_, ?_⟩ <;> decide +kernel

/-- LaunchesBecomeReady: a trigger in capacity memory, with the interrupt and the status word that tell it; R326, R331. -/
theorem test_bad_trigger :
    let put := fun (o : Nat) (bs : List Byte) (l : Launch) => ({ l with fields := l.fields.take o ++ bs ++ l.fields.drop (o + bs.length) } : Launch)
    let bad := put 0x40 (toBytes 8 (2 ^ 30) ++ toBytes 8 1) launch1
    let told := put 0x60 [2, 0, 9, 0] bad
    let kept := put 0x68 (toBytes 8 0x6000) (put 0x60 [4] bad)
    let t := fun l : Launch => after (.launchStartTime 1 7) { withLaunch l with ioTlb := ioLeaves, now := 5 }
    (t told).tenants.map (fun a => a.launches.length) = [0] ∧
    ((t told).tenant 1).pendInts.map (fun i => (i.vector, i.kind, i.status)) = [(9, 0, 4)] ∧
    (t kept).homeByte (kept.doneAddr.toNat + 8) = 4 := by decide +kernel

/-- BarriersCompleteOrDie: a participant with a rule under way, whose cause pends, and one at trap depth 2, which ends; R342, R417. -/
theorem test_barriers_pend :
    let held := fun (d : Word) (rs : List Rule) => ({ gangBase with
      ctx := { gangBase.ctx with hold := .barrier 4 0 false, arrivals := [(4, 0, 1)], rules := rs, tstat := d }
      tenants := [{ tenant1 with launches := [{ launch1 with dead := true }] }] } : State)
    (after (.barrierdead 1 7) (held 0 [rule (.vld 8 20 0 false)])).ctx.pending.map (·.cause) = some .barrierdead ∧
    (after (.barrierdead 1 7) (held 0 [rule (.vld 8 20 0 false)])).ctx.tcause = 0 ∧ (after (.barrierdead 1 7) (held 0 [])).ctx.tcause = 0x1C ∧
    (after (.barrierdead 1 7) (held 2 [])).ctx.task = none := by decide +kernel
end Sys2Proof.Tests
end

section
/-! The lane allocation table (R122): what giving, releasing and dealing spans does to it, said once per operation, and from it
what a renegotiation keeps, bounds and deals. -/

namespace Sys2Proof.Machine

/-! ### Lists -/

/-- The number that `firstFrom` finds is in its range and is accepted. -/
theorem firstFrom_some {p : Nat → Bool} {lo n i : Nat} (h : firstFrom p lo n = some i) : i < lo + n ∧ p i = true := by
  induction n generalizing lo with
  | zero => cases h
  | succ n ih =>
    unfold firstFrom at h
    split at h
    · next hp => cases h; exact ⟨by omega, hp⟩
    · obtain ⟨hi, hp⟩ := ih h
      exact ⟨by omega, hp⟩

/-- Where `firstFrom` finds none, it accepts no number of its range. -/
theorem firstFrom_none {p : Nat → Bool} {lo n : Nat} (h : firstFrom p lo n = none) {i : Nat} (hl : lo ≤ i) (hi : i < lo + n) :
    p i = false := by
  induction n generalizing lo with
  | zero => omega
  | succ n ih =>
    unfold firstFrom at h
    split at h
    · cases h
    · next hp =>
      obtain rfl | hlt := Nat.eq_or_lt_of_le hl
      · simpa using hp
      · exact ih h hlt (by omega)

/-- The occurrences of a value in a list of which one place changes from `a` to `b`. -/
theorem count_set_place {α : Type} [BEq α] [LawfulBEq α] [DecidableEq α] {l : List α} {i : Nat} {a : α} (h : l[i]? = some a) (b x : α) :
    (l.set i b).count x + (if a = x then 1 else 0) = l.count x + (if b = x then 1 else 0) := by
  obtain ⟨hi, rfl⟩ := List.getElem?_eq_some_iff.mp h
  have hpos : l[i] = x → 0 < l.count x := fun e => List.count_pos_iff.mpr (e ▸ List.getElem_mem hi)
  rw [List.count_set hi]
  simp only [beq_iff_eq]
  split <;> split <;> simp_all

/-! ### Spans held and free -/

theorem Core.held_eq_count (c : Core) (j : Nat) : c.held j = c.spans.toList.count (some j) :=
  List.count_eq_length_filter.symm

theorem Core.held_pos_iff (c : Core) (j : Nat) : 0 < c.held j ↔ some j ∈ c.spans.toList := by
  rw [Core.held_eq_count, List.count_pos_iff]

theorem Core.held_le (c : Core) (j : Nat) : c.held j ≤ 8 := by
  simpa [Core.held_eq_count] using List.count_le_length (a := some j) (l := c.spans.toList)

theorem Core.freeSpan_some {c : Core} {i : Nat} (h : c.freeSpan = some i) : c.spans.toList[i]? = some none := by
  simpa using (firstFrom_some h).2

theorem Core.freeSpan_none_iff (c : Core) : c.freeSpan = none ↔ none ∉ c.spans.toList := by
  constructor
  · intro h hm
    obtain ⟨i, hi, e⟩ := List.mem_iff_getElem.mp hm
    have h8 : i < 0 + 8 := by simpa using hi
    have := firstFrom_none h (Nat.zero_le i) h8
    simp [List.getElem?_eq_getElem hi, e] at this
  · intro h
    cases hf : c.freeSpan with
    | none => rfl
    | some i => exact absurd (List.mem_of_getElem? (Core.freeSpan_some hf)) h

/-- The table with a want recorded. -/
def Core.setWant (c : Core) (j w : Nat) : Core := { c with want := c.want.setIfInBounds j w }

theorem Core.setWant_held (c : Core) (j w k : Nat) : (c.setWant j w).held k = c.held k := rfl

theorem Core.wants_setWant (c : Core) {j : Nat} (w : Nat) (hj : j < 8) (k : Nat) :
    (c.setWant j w).wants k = if k = j then w else c.wants k := by
  unfold Core.wants Core.setWant
  simp only [Vector.toList_setIfInBounds, List.getElem?_set]
  by_cases h : k = j
  · simp [h, hj]
  · simp [h, Ne.symm h]

theorem Core.wants_of_want {c t : Core} (h : t.want = c.want) (k : Nat) : t.wants k = c.wants k := by
  unfold Core.wants; rw [h]

/-! ### Giving a span -/

@[simp] theorem Core.give_want (c : Core) (j : Nat) : (c.give j).want = c.want := by
  unfold Core.give; split <;> rfl

/-- Where a span is free, one free span takes its new owner. -/
theorem Core.give_spans {c : Core} (j : Nat) (h : none ∈ c.spans.toList) :
    ∃ i, c.spans.toList[i]? = some none ∧ (c.give j).spans.toList = c.spans.toList.set i (some j) := by
  cases hf : c.freeSpan with
  | none => exact absurd h ((Core.freeSpan_none_iff c).mp hf)
  | some i => exact ⟨i, Core.freeSpan_some hf, by simp [Core.give, hf]⟩

theorem Core.give_of_full {c : Core} (j : Nat) (h : none ∉ c.spans.toList) : c.give j = c := by
  simp [Core.give, (Core.freeSpan_none_iff c).mpr h]

theorem Core.held_give {c : Core} (j : Nat) (h : none ∈ c.spans.toList) (k : Nat) :
    (c.give j).held k = c.held k + if j = k then 1 else 0 := by
  obtain ⟨i, hi, hs⟩ := Core.give_spans j h
  simpa [Core.held_eq_count, hs] using count_set_place hi (some j) (some k)

/-- One span less is free. -/
theorem Core.free_give {c : Core} (j : Nat) (h : none ∈ c.spans.toList) :
    (c.give j).spans.toList.count none + 1 = c.spans.toList.count none := by
  obtain ⟨i, hi, hs⟩ := Core.give_spans j h
  simpa [hs] using count_set_place hi (some j) none

/-- No span that has an owner changes hands. -/
theorem Core.give_keeps {c : Core} {i k : Nat} (j : Nat) (h : c.spans.toList[i]? = some (some k)) :
    (c.give j).spans.toList[i]? = some (some k) := by
  by_cases hn : none ∈ c.spans.toList
  · obtain ⟨n, hf, hs⟩ := Core.give_spans j hn
    have hne : n ≠ i := by rintro rfl; simp [hf] at h
    rw [hs, List.getElem?_set_ne hne, h]
  · rw [Core.give_of_full j hn, h]

/-! ### Releasing spans -/

@[simp] theorem Core.release_want (c : Core) (j : Nat) : (c.release j).want = c.want := by
  unfold Core.release; split <;> rfl

/-- A context that holds a span releases one of its own. -/
theorem Core.release_spans {c : Core} {j : Nat} (h : 0 < c.held j) :
    ∃ i, c.spans.toList[i]? = some (some j) ∧ (c.release j).spans.toList = c.spans.toList.set i none := by
  unfold Core.release
  split
  · next i hf =>
    exact ⟨7 - i, by simpa using (firstFrom_some hf).2, by simp⟩
  · next hf =>
    obtain ⟨i, hi, e⟩ := List.mem_iff_getElem.mp ((Core.held_pos_iff c j).mp h)
    have h8 : i < 8 := by simpa using hi
    have := firstFrom_none hf (Nat.zero_le (7 - i)) (by omega)
    simp [show 7 - (7 - i) = i by omega, List.getElem?_eq_getElem hi, e] at this

theorem Core.held_release {c : Core} {j : Nat} (h : 0 < c.held j) : (c.release j).held j + 1 = c.held j := by
  obtain ⟨i, hi, hs⟩ := Core.release_spans h
  simpa [Core.held_eq_count, hs] using count_set_place hi none (some j)

/-- No span of another context is released. -/
theorem Core.release_keeps {c : Core} {i j k : Nat} (hj : 0 < c.held j) (hk : k ≠ j) (h : c.spans.toList[i]? = some (some k)) :
    (c.release j).spans.toList[i]? = some (some k) := by
  obtain ⟨n, hn, hs⟩ := Core.release_spans hj
  have hne : n ≠ i := by rintro rfl; simp [hn, Ne.symm hk] at h
  rw [hs, List.getElem?_set_ne hne, h]

theorem Core.shrink_of_le {c : Core} {j n : Nat} (h : c.held j ≤ n) (fuel : Nat) : c.shrink j n fuel = c := by
  cases fuel with
  | zero => rfl
  | succ fuel => rw [Core.shrink, if_neg (by omega)]

@[simp] theorem Core.shrink_want (c : Core) (j n fuel : Nat) : (c.shrink j n fuel).want = c.want := by
  induction fuel generalizing c with
  | zero => rfl
  | succ fuel ih => unfold Core.shrink; split <;> simp [ih]

theorem Core.held_shrink_le {c : Core} {j n fuel : Nat} (h : c.held j ≤ n + fuel) : (c.shrink j n fuel).held j ≤ n := by
  induction fuel generalizing c with
  | zero => exact h
  | succ fuel ih =>
    unfold Core.shrink
    split
    · next hn => exact ih (by have := Core.held_release (c := c) (j := j) (by omega); omega)
    · omega

theorem Core.shrink_keeps {c : Core} {i j k : Nat} (n fuel : Nat) (hk : k ≠ j) (h : c.spans.toList[i]? = some (some k)) :
    (c.shrink j n fuel).spans.toList[i]? = some (some k) := by
  induction fuel generalizing c with
  | zero => exact h
  | succ fuel ih =>
    unfold Core.shrink
    split
    · next hn => exact ih (Core.release_keeps (by omega) hk h)
    · exact h

/-! ### The deal -/

/-- While a span is free, no context that holds one is short of its want (R122). -/
def Core.Dealt (t : Core) : Prop := none ∈ t.spans.toList → ∀ k, k < 8 → 0 < t.held k → t.wants k ≤ t.held k

/-- A table grows: the wants stand, no span that has an owner changes hands, and no context comes to hold more than it wants. -/
structure Core.Grows (c t : Core) : Prop where
  want  : t.want = c.want
  keeps : ∀ i k : Nat, c.spans.toList[i]? = some (some k) → t.spans.toList[i]? = some (some k)
  bound : ∀ k, t.held k ≤ max (c.held k) (c.wants k)

theorem Core.Grows.trans {a b c : Core} (h : a.Grows b) (g : b.Grows c) : a.Grows c where
  want := g.want.trans h.want
  keeps i k e := g.keeps i k (h.keeps i k e)
  bound k := by
    have hb := h.bound k
    have hc := g.bound k
    rw [Core.wants_of_want h.want] at hc
    omega

/-- The contexts that come back from a park are no part of what grows. -/
theorem Core.grows_back (c : Core) (l : List Nat) : c.Grows { c with back := l } :=
  ⟨rfl, fun _ _ h => h, fun _ => Nat.le_max_left _ _⟩

theorem Core.grows_give {c : Core} {j : Nat} (hf : none ∈ c.spans.toList) (h : c.held j < c.wants j) : c.Grows (c.give j) where
  want := Core.give_want c j
  keeps _ _ := Core.give_keeps j
  bound k := by
    rw [Core.held_give j hf]
    split
    · next e => subst e; omega
    · omega

/-- A context that holds a span still holds one. -/
theorem Core.Grows.held_pos {c t : Core} (h : c.Grows t) {j : Nat} (hj : 0 < c.held j) : 0 < t.held j := by
  obtain ⟨i, hi⟩ := List.mem_iff_getElem?.mp ((Core.held_pos_iff c j).mp hj)
  exact (Core.held_pos_iff t j).mpr (List.mem_of_getElem? (h.keeps i j hi))

/-- The search of the deal goes round all eight contexts: where it finds none, none that holds a span is short of its want. -/
theorem Core.no_short {c : Core} (h : firstFrom (fun i => decide (0 < c.held ((c.last + 1 + i) % 8)) &&
      decide (c.held ((c.last + 1 + i) % 8) < c.wants ((c.last + 1 + i) % 8))) 0 8 = none)
    {k : Nat} (hk : k < 8) (hp : 0 < c.held k) : c.wants k ≤ c.held k := by
  have := firstFrom_none h (i := (k + 15 - c.last % 8) % 8) (Nat.zero_le _) (by omega)
  rw [show (c.last + 1 + (k + 15 - c.last % 8) % 8) % 8 = k by omega] at this
  simpa [hp] using this

/-- One round of the deal: a free span goes to a context that is short of its want, or the deal is over. -/
theorem Core.deal_succ (c : Core) (n : Nat) : ∃ l : List Nat,
    (∃ k, none ∈ c.spans.toList ∧ c.held k < c.wants k ∧ c.deal (n + 1) = (({ c with back := l } : Core).give k).deal n) ∨
    (c.deal (n + 1) = { c with back := l } ∧ c.Dealt) := by
  refine ⟨c.back.filter fun j => decide (c.held j < c.wants j), ?_⟩
  rw [Core.deal]
  dsimp only
  split
  · next j _ _ hb hf =>
    have hj := (List.mem_filter.mp (hb.symm ▸ List.mem_cons_self)).2
    exact .inl ⟨j, List.mem_of_getElem? (Core.freeSpan_some hf), of_decide_eq_true hj, rfl⟩
  · next hs hf =>
    have hi := (firstFrom_some hs).2
    rw [Bool.and_eq_true] at hi
    exact .inl ⟨_, List.mem_of_getElem? (Core.freeSpan_some hf), of_decide_eq_true hi.2, rfl⟩
  · next hback hshort =>
    refine .inr ⟨rfl, fun hn k hk hp => ?_⟩
    obtain ⟨i, hi⟩ := Option.ne_none_iff_exists'.mp fun h => (Core.freeSpan_none_iff c).mp h hn
    have hnil : c.back.filter (fun j => decide (c.held j < c.wants j)) = [] :=
      List.eq_nil_iff_forall_not_mem.mpr fun j hj => by
        obtain ⟨k, r, hb⟩ := List.exists_cons_of_ne_nil (List.ne_nil_of_mem hj)
        exact hback k r i hb hi
    exact Core.no_short (Option.eq_none_iff_forall_ne_some.mpr fun o ho => hshort o i hnil ho hi) hk hp

theorem Core.deal_grows (c : Core) (n : Nat) : c.Grows (c.deal n) := by
  induction n generalizing c with
  | zero => exact Core.grows_back c c.back
  | succ n ih =>
    obtain ⟨l, ⟨k, hf, hk, e⟩ | ⟨e, -⟩⟩ := Core.deal_succ c n
    · rw [e]
      exact ((Core.grows_back c l).trans (Core.grows_give hf hk)).trans (ih _)
    · rw [e]
      exact Core.grows_back c l

/-- With as many rounds as spans are free, the deal comes to its end. -/
theorem Core.deal_dealt {c : Core} {n : Nat} (h : c.spans.toList.count none ≤ n) : (c.deal n).Dealt := by
  induction n generalizing c with
  | zero => exact fun hn => absurd (List.count_pos_iff.mpr hn) (Nat.not_lt.mpr h)
  | succ n ih =>
    obtain ⟨l, ⟨k, hf, hk, e⟩ | ⟨e, hd⟩⟩ := Core.deal_succ c n
    · rw [e]
      exact ih (by have := Core.free_give (c := { c with back := l }) k hf; dsimp only at this; omega)
    · rw [e]
      exact hd

/-- Eight rounds are enough: a core has eight spans. -/
theorem Core.deal_eight_dealt (c : Core) : (c.deal 8).Dealt :=
  Core.deal_dealt (by simpa using List.count_le_length (a := none) (l := c.spans.toList))

/-! ### Renegotiation of a context that goes on -/

/-- What `j` wants after its request: 0 asks for what it holds. -/
def Core.asked (c : Core) (j request : Nat) : Nat := if request = 0 then c.held j else request

/-- The table of a context that goes on with its want recorded and the spans above it released. -/
def Core.cutTo (c : Core) (j w : Nat) : Core := (c.setWant j w).shrink j (max 1 w) 8

/-- The table before the deal: a context that holds no span has got one. -/
def Core.served (c : Core) (j w : Nat) : Core := if (c.cutTo j w).held j = 0 then (c.cutTo j w).give j else c.cutTo j w

theorem Core.renegotiate_eq (c : Core) (j request : Nat) : c.renegotiate j request = (c.served j (c.asked j request)).deal 8 := rfl

theorem Core.wants_served (c : Core) {j : Nat} (w : Nat) (hj : j < 8) (k : Nat) :
    (c.served j w).wants k = if k = j then w else c.wants k := by
  have hw : (c.served j w).want = (c.setWant j w).want := by
    unfold Core.served Core.cutTo; split <;> simp
  rw [← Core.wants_setWant c w hj k]
  exact Core.wants_of_want hw k

theorem Core.served_keeps {c : Core} {i j k : Nat} (w : Nat) (hk : k ≠ j) (h : c.spans.toList[i]? = some (some k)) :
    (c.served j w).spans.toList[i]? = some (some k) := by
  have hc : (c.cutTo j w).spans.toList[i]? = some (some k) := Core.shrink_keeps _ _ hk h
  unfold Core.served
  split
  · exact Core.give_keeps j hc
  · exact hc

theorem Core.held_served_le (c : Core) (j w : Nat) : (c.served j w).held j ≤ max 1 w := by
  have hc : (c.cutTo j w).held j ≤ max 1 w :=
    Core.held_shrink_le (by have := (c.setWant j w).held_le j; omega)
  unfold Core.served
  split
  · next h0 =>
    by_cases hf : none ∈ (c.cutTo j w).spans.toList
    · rw [Core.held_give j hf, h0, if_pos rfl]
      exact Nat.le_max_left 1 w
    · rw [Core.give_of_full j hf]; exact hc
  · exact hc

/-- A context that holds nothing gets a free span. -/
theorem Core.held_served_pos {c : Core} {j : Nat} (w : Nat) (h0 : c.held j = 0) (hf : none ∈ c.spans.toList) :
    0 < (c.served j w).held j := by
  have hc : c.cutTo j w = c.setWant j w := Core.shrink_of_le (c := c.setWant j w) (Nat.le_trans (Nat.le_of_eq h0) (Nat.zero_le _)) 8
  have hg := Core.held_give (c := c.setWant j w) j hf j
  unfold Core.served
  rw [hc, Core.setWant_held, if_pos h0, hg]
  simp

theorem Core.renegotiate_grows (c : Core) (j request : Nat) :
    (c.served j (c.asked j request)).Grows (c.renegotiate j request) := by
  rw [Core.renegotiate_eq]
  exact Core.deal_grows _ 8

theorem Core.renegotiate_dealt (c : Core) (j request : Nat) : (c.renegotiate j request).Dealt := by
  rw [Core.renegotiate_eq]
  exact Core.deal_eight_dealt _

theorem Core.wants_renegotiate (c : Core) {j : Nat} (request : Nat) (hj : j < 8) (k : Nat) :
    (c.renegotiate j request).wants k = if k = j then c.asked j request else c.wants k := by
  rw [Core.wants_of_want (c.renegotiate_grows j request).want, Core.wants_served c _ hj]

theorem Core.held_renegotiate_le (c : Core) {j : Nat} (request : Nat) (hj : j < 8) :
    (c.renegotiate j request).held j ≤ max 1 ((c.renegotiate j request).wants j) := by
  have hb := (c.renegotiate_grows j request).bound j
  have hs := Core.held_served_le c j (c.asked j request)
  rw [Core.wants_served c _ hj, if_pos rfl] at hb
  rw [Core.wants_renegotiate c request hj, if_pos rfl]
  omega

/-! ### Renegotiation of a context that parks or ends -/

/-- The table of a context that gave up its spans and its want. -/
def Core.vacated (c : Core) (j : Nat) : Core :=
  { c with
    spans := c.spans.map fun o => if o = some j then none else o, want := c.want.setIfInBounds j 0
    former := (Vector.range 8).map fun i =>
      if (c.spans.toList[i]?).getD none = some j then c.left i j else (c.former.toList[i]?).getD []
    back := c.back.filter (· != j) }

theorem Core.renegotiateEnd_eq (c : Core) (j : Nat) : c.renegotiateEnd j = (c.vacated j).deal 8 := rfl

theorem Core.renegotiateEnd_grows (c : Core) (j : Nat) : (c.vacated j).Grows (c.renegotiateEnd j) := by
  rw [Core.renegotiateEnd_eq]
  exact Core.deal_grows _ 8

theorem Core.renegotiateEnd_dealt (c : Core) (j : Nat) : (c.renegotiateEnd j).Dealt := by
  rw [Core.renegotiateEnd_eq]
  exact Core.deal_eight_dealt _

theorem Core.wants_vacated (c : Core) {j : Nat} (hj : j < 8) (k : Nat) :
    (c.vacated j).wants k = if k = j then 0 else c.wants k := Core.wants_setWant c 0 hj k

theorem Core.held_vacated (c : Core) (j : Nat) : (c.vacated j).held j = 0 := by
  refine Nat.eq_zero_of_not_pos fun h => ?_
  simp [Core.held_pos_iff, Core.vacated] at h

theorem Core.vacated_keeps {c : Core} {i j k : Nat} (hk : k ≠ j) (h : c.spans.toList[i]? = some (some k)) :
    (c.vacated j).spans.toList[i]? = some (some k) := by
  simp [Core.vacated, Vector.toList_map, h, hk]

theorem Core.wants_renegotiateEnd (c : Core) {j : Nat} (hj : j < 8) (k : Nat) :
    (c.renegotiateEnd j).wants k = if k = j then 0 else c.wants k := by
  rw [Core.wants_of_want (c.renegotiateEnd_grows j).want, Core.wants_vacated c hj]

theorem Core.held_renegotiateEnd (c : Core) {j : Nat} (hj : j < 8) : (c.renegotiateEnd j).held j = 0 := by
  have hb := (c.renegotiateEnd_grows j).bound j
  rw [Core.held_vacated, Core.wants_vacated c hj, if_pos rfl] at hb
  omega

end Sys2Proof.Machine
end

section
/-! `vset` and `vsetl` (R132, R133): which vtype is legal, what the two words write and where they lead, and the statement about
them. -/

namespace Sys2Proof.Machine

/-! ### The legal vtypes -/

/-- The pairs of class and sew code of R115. -/
theorem pairOk_iff (cls sew : Nat) : pairOk cls sew = true ↔
    cls ≤ 1 ∧ sew < 4 ∨ cls = 2 ∧ 1 ≤ sew ∧ sew < 4 ∨ cls = 3 ∧ sew = 1 ∨ (4 ≤ cls ∧ cls ≤ 6) ∧ sew = 0 := by
  match cls with
  | 0 | 1 | 2 | 3 | 4 | 5 | 6 => simp [pairOk]
  | n + 7 => exact iff_of_false (by simp [pairOk]) (by omega)

theorem vtypeOk_iff (v : Word) : vtypeOk v = true ↔ LegalVtype v := by
  have hsew : v.toNat % 4 < 4 := Nat.mod_lt _ (by decide)
  have hpair := pairOk_iff (v.toNat / 4 % 8) (v.toNat % 4)
  simp only [hsew, and_true, and_assoc] at hpair
  have htop : v.toNat / 2 ^ 21 = 0 ↔ v.toNat < 2 ^ 21 := Nat.div_eq_zero_iff_lt (by decide)
  unfold vtypeOk LegalVtype clsOf sewOf frmOf scopeOf spansOf
  simp only [Bool.and_eq_true, decide_eq_true_eq, and_assoc]
  exact and_congr hpair (and_congr_right fun _ => and_congr_right fun _ => and_congr_right fun _ => and_congr_right fun _ =>
    and_congr_right fun _ => htop)

/-! ### What a word that sets vl leaves -/

/-- vl and X[d] take `vl`, vtype becomes `ty`, execution goes on one word further, and nothing else changes but the cores. -/
def SetsVl (s t : State) (d : Reg) (vl ty : Word) : Prop :=
  (∀ x : Reg, t.getX x = s.ctx.leaves 1 x (if x = d ∧ d ≠ 0 then vl else s.getX x)) ∧ MovesBy 1 s t ∧
  t = { s with cores := t.cores, ctx := { s.ctx with
    vl := vl, vtype := ty, x := t.ctx.x, pc := t.ctx.pc, routine := t.ctx.routine, hold := .run, remotes := t.ctx.remotes } }

/-- The context of a word that sets vl, before it is done. -/
def Ctx.setVl (c : Ctx) (d : Reg) (vl ty : Word) : Ctx := { c.setX d vl with vtype := ty, vl := vl }

theorem Ctx.setVl_eq (c : Ctx) (d : Reg) (vl ty : Word) :
    c.setVl d vl ty = { c with x := (c.setX d vl).x, vtype := ty, vl := vl } := by
  unfold Ctx.setVl; rw [Ctx.setX_eq]

theorem Ctx.setVl_agent (c : Ctx) (d : Reg) (vl ty : Word) : (c.setVl d vl ty).agent = c.agent := by rw [Ctx.setVl_eq]

/-- The state of a word that sets vl, before the word is done. -/
def State.setVl (s : State) (d : Reg) (vl ty : Word) : State := { s with ctx := s.ctx.setVl d vl ty }

theorem State.advance_setsVl (s : State) (cs : List (Nat × Core)) (d : Reg) (vl ty : Word) :
    SetsVl s ({ s.setVl d vl ty with cores := cs } : State).advance d vl ty := by
  have hc := Ctx.setVl_eq s.ctx d vl ty
  refine ⟨fun x => ?_, ?_, ?_⟩
  · have hx : (s.ctx.setVl d vl ty).getX x = if x = d ∧ d ≠ 0 then vl else s.getX x := Ctx.getX_setX s.ctx d x vl
    have hl : (s.ctx.setVl d vl ty).leaves 1 x = s.ctx.leaves 1 x := by rw [hc]; rfl
    exact (Ctx.advance_getX (s.ctx.setVl d vl ty) 1 x).trans (by rw [hx, hl])
  · have h := Ctx.advance_moves (s.setVl d vl ty) 1
    unfold MovesBy State.setVl at h ⊢
    rw [hc] at h ⊢
    exact h
  · unfold State.advance State.setVl
    rw [Ctx.advance_frame, hc]

/-! ### Renegotiation at a word -/

theorem State.renegotiate_frame (s : State) (g : Agent) (r : Nat) : s.renegotiate g r = { s with cores := (s.renegotiate g r).cores } := by
  unfold State.renegotiate; cases g <;> rfl

/-- The core of the context whose turn it is renegotiates, whatever becomes of the context. -/
theorem State.renegotiate_renegotiated (s : State) (c : Ctx) (r : Nat) :
    Renegotiated s (({ s with ctx := c } : State).renegotiate s.ctx.agent r) fun _ => r := by
  unfold Renegotiated State.renegotiate
  cases s.ctx.agent with
  | handler _ _ _ => rfl
  | ctx id =>
    refine ⟨?_, fun k hk => ?_⟩
    · rw [State.core_mapCore, if_pos rfl]; rfl
    · rw [State.core_mapCore, if_neg hk]; rfl

/-! ### The two words -/

theorem execVset_illegal {s : State} {b : Reg} (d a : Reg) (h : ¬ LegalVtype (s.getX b)) : execVset d a b s = .next (s.raise .illcfg 0) := by
  have hv : vtypeOk (s.getX b) = false := Bool.eq_false_iff.mpr fun e => h ((vtypeOk_iff _).mp e)
  simp [execVset, hv]

theorem execVset_stalls {s : State} {b : Reg} (d a : Reg) (h : LegalVtype (s.getX b)) (ho : s.vlOpen) : Stalls s (execVset d a b s) := by
  simp [execVset, (vtypeOk_iff _).mpr h, (State.vlOpen_iff s).mp ho, Stalls, State.stall]

/-- The smaller of the count in X[a] and VLMAX of a vtype (R116). -/
def State.vlFor (s : State) (a : Reg) (ty : Word) : Word := BitVec.ofNat 64 (min (s.getX a).toNat (vlmax ty))

theorem execVset_completes {s : State} {b : Reg} (d a : Reg) (h : LegalVtype (s.getX b)) (ho : ¬ s.vlOpen) :
    Completes (execVset d a b s) fun t =>
      SetsVl s t d (s.vlFor a (s.getX b)) (s.getX b) ∧ Renegotiated s t fun _ => spansOf (s.getX b) := by
  rw [State.vlOpen_iff] at ho
  have hu : execVset d a b s = .next ((s.setVl d (s.vlFor a (s.getX b)) (s.getX b)).renegotiate s.ctx.agent (spansOf (s.getX b))).advance := by
    rw [← Ctx.setVl_agent s.ctx d (s.vlFor a (s.getX b)) (s.getX b)]
    simp only [execVset, (vtypeOk_iff _).mpr h, ho]
    rfl
  refine ⟨_, hu, ?_, State.renegotiate_renegotiated s _ _⟩
  rw [State.renegotiate_frame]
  exact State.advance_setsVl s _ d _ _

theorem execVsetl_stalls {s : State} (d a : Reg) (ho : s.vlOpen) : Stalls s (execVsetl d a s) := by
  simp [execVsetl, (State.vlOpen_iff s).mp ho, Stalls, State.stall]

theorem execVsetl_completes {s : State} (d a : Reg) (ho : ¬ s.vlOpen) :
    Completes (execVsetl d a s) fun t => SetsVl s t d (s.vlFor a s.ctx.vtype) s.ctx.vtype ∧ t.cores = s.cores := by
  rw [State.vlOpen_iff] at ho
  have hu : execVsetl d a s = .next (s.setVl d (s.vlFor a s.ctx.vtype) s.ctx.vtype).advance := by
    rw [State.setVl, Ctx.setVl_eq]
    simp only [execVsetl, ho]
    rw [Ctx.setX_eq]
    rfl
  exact ⟨_, hu, State.advance_setsVl s s.cores d _ _, rfl⟩

/-- Settles O10: the two words by their branches; of the table, the want and the release before the deal, and the deal as a table that
grows until no context is short or no span is free. -/
theorem vsetSetsTheConfigurationAndDealsSpans : Obligations.VsetSetsTheConfigurationAndDealsSpans := by
  unfold Obligations.VsetSetsTheConfigurationAndDealsSpans
  constructor
  · intro s d a b
    exact ⟨execVset_illegal d a, execVset_stalls d a, execVset_completes d a, execVsetl_stalls d a, execVsetl_completes d a⟩
  · intro c j request hj
    have hon := c.renegotiate_grows j request
    have hends := c.renegotiateEnd_grows j
    exact ⟨Core.wants_renegotiate c request hj, Core.wants_renegotiateEnd c hj, Core.renegotiate_dealt c j request,
      Core.renegotiateEnd_dealt c j, fun i k hk h => hon.keeps i k (Core.served_keeps _ hk h),
      fun i k hk h => hends.keeps i k (Core.vacated_keeps hk h), Core.held_renegotiate_le c request hj,
      Core.held_renegotiateEnd c hj, fun h0 hf => hon.held_pos (Core.held_served_pos _ h0 hf)⟩

end Sys2Proof.Machine
end

section
/-! The values of the register operations (R261, R243): a lemma says each value that the machine computes in the terms of the table, on
the numbers that the registers hold. -/

namespace Sys2Proof.Machine

/-! ### Logic, shifts and comparisons -/

theorem sub_toNat_add (x y : Word) : ((x - y).toNat + y.toNat) % 2 ^ 64 = x.toNat := by
  rw [← BitVec.toNat_add, BitVec.sub_add_cancel]

theorem andNot_getLsbD (x y : Word) (i : Nat) : (x &&& ~~~y).getLsbD i = (x.getLsbD i && !y.getLsbD i) := by
  rw [BitVec.getLsbD_and, BitVec.getLsbD_not]
  by_cases hi : i < 64
  · simp [hi]
  · simp [BitVec.getLsbD_of_ge x i (by omega)]

theorem shiftLeft_toNat (x : Word) (k : Nat) : (x <<< k).toNat = x.toNat * 2 ^ k % 2 ^ 64 := by
  rw [BitVec.toNat_shiftLeft, Nat.shiftLeft_eq]

theorem ushiftRight_toNat (x : Word) (k : Nat) : (x >>> k).toNat = x.toNat / 2 ^ k := by
  rw [BitVec.toNat_ushiftRight, Nat.shiftRight_eq_div_pow]

theorem sshiftRight_toInt (x : Word) (k : Nat) : (x.sshiftRight k).toInt = x.toInt / 2 ^ k := by
  rw [BitVec.toInt_sshiftRight, Int.shiftRight_eq_div_pow, Int.natCast_pow]
  rfl

/-- A rotation by k takes bit i from bit i + k, counted modulo 64. -/
theorem rotateRight_getLsbD (x : Word) {k i : Nat} (hk : k < 64) (hi : i < 64) :
    (x.rotateRight k).getLsbD i = x.getLsbD ((i + k) % 64) := by
  rw [BitVec.getLsbD_rotateRight, Nat.mod_eq_of_lt hk]
  by_cases h : i < 64 - k
  · rw [Nat.mod_eq_of_lt (show i + k < 64 by omega), Nat.add_comm k i]
    simp [h]
  · rw [show (i + k) % 64 = i - (64 - k) by omega]
    simp [h, hi]

theorem boolWord_slt (x y : Word) : boolWord (x.slt y) = if x.toInt < y.toInt then 1 else 0 := by
  simp [boolWord, BitVec.slt_eq_decide]

theorem boolWord_ult (x y : Word) : boolWord (x.ult y) = if x.toNat < y.toNat then 1 else 0 := by
  simp [boolWord, BitVec.ult_eq_decide]

theorem smaller_toInt (x y : Word) : (if x.slt y then x else y).toInt = min x.toInt y.toInt := by
  simp only [BitVec.slt_eq_decide, decide_eq_true_eq]
  split <;> omega

theorem larger_toInt (x y : Word) : (if x.slt y then y else x).toInt = max x.toInt y.toInt := by
  simp only [BitVec.slt_eq_decide, decide_eq_true_eq]
  split <;> omega

theorem smaller_toNat (x y : Word) : (if x.ult y then x else y).toNat = min x.toNat y.toNat := by
  simp only [BitVec.ult_eq_decide, decide_eq_true_eq]
  split <;> omega

theorem larger_toNat (x y : Word) : (if x.ult y then y else x).toNat = max x.toNat y.toNat := by
  simp only [BitVec.ult_eq_decide, decide_eq_true_eq]
  split <;> omega

/-! ### Bits counted -/

/-- The count goes up from the lowest bit, and so does the list of the places that hold ones. -/
theorem popcount_eq_length (n x : Nat) : popcount n x = ((List.range n).filter fun i => x.testBit i).length := by
  induction n generalizing x with
  | zero => rfl
  | succ n ih =>
    have hshift : ((fun i => x.testBit i) ∘ Nat.succ) = fun i => (x / 2).testBit i := funext fun i => Nat.testBit_succ x i
    rw [popcount, ih, List.range_succ_eq_map, List.filter_cons, List.filter_map, hshift, Nat.testBit_zero]
    obtain h | h := Nat.mod_two_eq_zero_or_one x <;> simp [h, Nat.add_comm]

theorem popcount_toNat (x : Word) : (BitVec.ofNat 64 (popcount 64 x.toNat)).toNat = ((List.range 64).filter fun i => x.getLsbD i).length := by
  have hle : popcount 64 x.toNat ≤ 64 := by
    rw [popcount_eq_length]
    exact Nat.le_trans (List.length_filter_le _ _) (Nat.le_of_eq List.length_range)
  rw [BitVec.toNat_ofNat, Nat.mod_eq_of_lt (by omega), popcount_eq_length]
  rfl

theorem bitOf_eq_getLsbD (x : Word) (i : Nat) : (bitOf x.toNat i == 1) = x.getLsbD i := by
  rw [BitVec.getLsbD, Nat.testBit_eq_decide_div_mod_eq, bitOf]
  rfl

/-- The number that `firstFrom` finds is the lowest that is accepted. -/
theorem firstFrom_lowest {p : Nat → Bool} {lo n i : Nat} (h : firstFrom p lo n = some i) {j : Nat} (hl : lo ≤ j) (hj : j < i) :
    p j = false := by
  induction n generalizing lo with
  | zero => cases h
  | succ n ih =>
    unfold firstFrom at h
    split at h
    · cases h; omega
    · next hp =>
      obtain rfl | hlt := Nat.eq_or_lt_of_le hl
      · simpa using hp
      · exact ih h hlt

/-- A search of the 64 places: either no place is accepted and the answer is 64, or the answer is the lowest that is. -/
theorem firstFrom_places {p : Nat → Bool} {n : Nat} (hn : n = (firstFrom p 0 64).getD 64) :
    (∀ i, i < n → p i = false) ∧ (n = 64 ∨ n < 64 ∧ p n = true) := by
  subst hn
  cases h : firstFrom p 0 64 with
  | none => exact ⟨fun i hi => firstFrom_none h (Nat.zero_le i) (by simpa using hi), .inl rfl⟩
  | some n =>
    obtain ⟨hlt, hp⟩ := firstFrom_some h
    exact ⟨fun i hi => firstFrom_lowest h (Nat.zero_le i) hi, .inr ⟨by simpa using hlt, hp⟩⟩

/-- A word is 0 where all its places hold zeros. -/
theorem eq_zero_of_getLsbD {x : Word} (h : ∀ i, i < 64 → x.getLsbD i = false) : x = 0 :=
  BitVec.eq_of_getLsbD_eq fun i hi => by simpa using h i hi

theorem trailingZeros_eq (x : Word) : trailingZeros x = (firstFrom (fun i => x.getLsbD i) 0 64).getD 64 := by
  simp only [trailingZeros, bitOf_eq_getLsbD]

theorem leadingZeros_eq (x : Word) : leadingZeros x = (firstFrom (fun i => x.getLsbD (63 - i)) 0 64).getD 64 := by
  simp only [leadingZeros, bitOf_eq_getLsbD]

/-- Below the count of zeros at the low end every bit is 0, and at it is a one, if there is any. -/
theorem trailingZeros_spec (x : Word) : let v := BitVec.ofNat 64 (trailingZeros x)
    (∀ i, i < v.toNat → x.getLsbD i = false) ∧ if x = 0 then v.toNat = 64 else x.getLsbD v.toNat = true := by
  obtain ⟨hbelow, hat⟩ := firstFrom_places (trailingZeros_eq x)
  have hv : (BitVec.ofNat 64 (trailingZeros x)).toNat = trailingZeros x := Nat.mod_eq_of_lt (by omega)
  dsimp only
  rw [hv]
  refine ⟨hbelow, ?_⟩
  obtain h64 | ⟨-, hone⟩ := hat
  · rw [if_pos (eq_zero_of_getLsbD fun i hi => hbelow i (h64 ▸ hi)), h64]
  · rw [if_neg (by rintro rfl; simp at hone), hone]

/-- The highest one stands at 63 less the count of zeros above it. -/
theorem leadingZeros_spec (x : Word) : (BitVec.ofNat 64 (leadingZeros x)).toNat = if x = 0 then 64 else 63 - Nat.log2 x.toNat := by
  obtain ⟨habove, hat⟩ := firstFrom_places (leadingZeros_eq x)
  rw [BitVec.toNat_ofNat, Nat.mod_eq_of_lt (by omega)]
  have hzero : ∀ i, 64 - leadingZeros x ≤ i → i < 64 → x.getLsbD i = false := fun i hlo hi => by
    simpa [show 63 - (63 - i) = i by omega] using habove (63 - i) (by omega)
  obtain h64 | ⟨hlt, hone⟩ := hat
  · rw [if_pos (eq_zero_of_getLsbD fun i hi => hzero i (by omega) hi), h64]
  · have hne : x ≠ 0 := by rintro rfl; simp at hone
    have hlow : 2 ^ (63 - leadingZeros x) ≤ x.toNat := Nat.ge_two_pow_of_testBit hone
    have hhigh : x.toNat < 2 ^ (63 - leadingZeros x + 1) := Nat.lt_pow_two_of_testBit _ fun i hi => by
      by_cases h : i < 64
      · exact hzero i (by omega) h
      · exact BitVec.getLsbD_of_ge x i (by omega)
    have hlog : Nat.log2 x.toNat = 63 - leadingZeros x :=
      (Nat.log2_eq_iff (by simpa [BitVec.toNat_eq] using hne)).mpr ⟨hlow, hhigh⟩
    rw [if_neg hne, hlog]
    omega

/-! ### Widths and bytes -/

theorem signExtendLow_eq (x : Word) (n : Nat) (hn : n ≤ 64) : (x.setWidth n).signExtend 64 = (x.extractLsb' 0 n).signExtend 64 := by
  rw [BitVec.setWidth_eq_extractLsb' hn]

theorem zeroExtendLow_toNat (x : Word) (n : Nat) (hn : n ≤ 64) : ((x.setWidth n).setWidth 64).toNat = x.toNat % 2 ^ n := by
  rw [BitVec.toNat_setWidth_of_le hn, BitVec.toNat_setWidth]

theorem toBytes_length (n x : Nat) : (toBytes n x).length = n := by
  induction n generalizing x with
  | zero => rfl
  | succ n ih => rw [toBytes, List.length_cons, ih]

/-- Byte k of the little-endian bytes of a number (R3). -/
theorem toBytes_getElem? {n k : Nat} (hk : k < n) (x : Nat) : (toBytes n x)[k]? = some (BitVec.ofNat 8 (x / 2 ^ (8 * k))) := by
  induction n generalizing x k with
  | zero => omega
  | succ n ih =>
    cases k with
    | zero => simp [toBytes]
    | succ k =>
      rw [toBytes, List.getElem?_cons_succ, ih (by omega), Nat.div_div_eq_div_mul, Nat.mul_succ, Nat.pow_add, Nat.mul_comm (2 ^ (8 * k))]

/-- Byte k of a word made of eight little-endian bytes. -/
theorem ofBytes_extractByte {bs : List Byte} {b : Byte} {k : Nat} (hl : bs.length = 8) (hb : bs[k]? = some b) :
    (BitVec.ofNat 64 (ofBytes bs)).extractLsb' (8 * k) 8 = b := by
  have hlt : ofBytes bs < 2 ^ 64 := by simpa [hl] using ofBytes_lt bs
  apply BitVec.eq_of_toNat_eq
  rw [BitVec.extractLsb'_toNat, BitVec.toNat_ofNat, Nat.mod_eq_of_lt hlt, Nat.shiftRight_eq_div_pow]
  exact (ofBytes_byte bs k).trans (by rw [hb]; rfl)

theorem swapBytes_byte (x : Word) {k : Nat} (hk : k < 8) : (swapBytes x).extractLsb' (8 * (7 - k)) 8 = x.extractLsb' (8 * k) 8 := by
  have hl := toBytes_length 8 x.toNat
  have hb : (toBytes 8 x.toNat).reverse[7 - k]? = some (x.extractLsb' (8 * k) 8) := by
    rw [List.getElem?_reverse (by omega), hl, show 8 - 1 - (7 - k) = k by omega, toBytes_getElem? hk, ← Nat.shiftRight_eq_div_pow]
    rfl
  exact ofBytes_extractByte (by rw [List.length_reverse, hl]) hb

/-! ### Products and quotients -/

/-- The high half of a signed product keeps its value: the exact product is between -2^126 and 2^126. -/
theorem mulHigh_toInt (x y : Word) : (mulHigh x y).toInt = x.toInt * y.toInt / 2 ^ 64 := by
  have hle : x.toInt * y.toInt ≤ 2 ^ (64 * 2 - 2) := BitVec.toInt_mul_toInt_le
  have hge : -2 ^ (64 * 2 - 2) ≤ x.toInt * y.toInt := BitVec.le_toInt_mul_toInt
  exact BitVec.toInt_ofInt_eq_self (by decide) (by omega) (by omega)

theorem mulHighN_toNat (x y : Word) : (mulHighN x y).toNat = x.toNat * y.toNat / 2 ^ 64 := by
  have hlt : x.toNat * y.toNat < 2 ^ 64 * 2 ^ 64 := Nat.mul_lt_mul'' x.isLt y.isLt
  exact Nat.mod_eq_of_lt (Nat.div_lt_of_lt_mul hlt)

/-- The rows of the table of R243 for a signed quotient. -/
theorem quotient_spec (x y : Word) :
    if y = 0 then quotient x y = BitVec.allOnes 64
    else if x = BitVec.intMin 64 ∧ y.toInt = -1 then quotient x y = x
    else (quotient x y).toInt = x.toInt.tdiv y.toInt := by
  unfold quotient
  split
  · rfl
  split
  · next h =>
    obtain ⟨rfl, hy⟩ := h
    obtain rfl : y = -1 := BitVec.toInt_inj.mp hy
    exact BitVec.intMin_sdiv_neg_one
  · next h =>
    refine BitVec.toInt_sdiv_of_ne_or_ne x y ?_
    by_cases hx : x = BitVec.intMin 64
    · exact .inr fun hy => h ⟨hx, by rw [hy]; rfl⟩
    · exact .inl hx

theorem quotientN_spec (x y : Word) :
    if y = 0 then quotientN x y = BitVec.allOnes 64 else (quotientN x y).toNat = x.toNat / y.toNat := by
  unfold quotientN
  split
  · rfl
  · exact BitVec.toNat_udiv

/-- The rows of the table of R243 for a signed remainder: the most negative value by -1 leaves 0, as every division by -1 does. -/
theorem remainder_spec (x y : Word) :
    if y = 0 then remainder x y = x
    else if x = BitVec.intMin 64 ∧ y.toInt = -1 then remainder x y = 0
    else (remainder x y).toInt = x.toInt - x.toInt.tdiv y.toInt * y.toInt := by
  unfold remainder
  split
  · rfl
  split
  · next h => exact BitVec.eq_of_toInt_eq (by rw [BitVec.toInt_srem, h.2]; simp)
  · rw [BitVec.toInt_srem, Int.tmod_def, Int.mul_comm]

theorem remainderN_spec (x y : Word) : if y = 0 then remainderN x y = x else (remainderN x y).toNat = x.toNat % y.toNat := by
  unfold remainderN
  split
  · rfl
  · exact BitVec.toNat_umod

/-! ### The words -/

/-- A word whose meaning is to write a value to X[d] writes what holds of that value. -/
theorem exec_writesX {i : Instr} {s : State} {d : Reg} {v : Word} {p : Word → Prop} (he : exec i s = writeResult d v s) (hv : p v) :
    WritesX s (exec i s) d p := he ▸ writeResult_writesX hv

/-- Settles O1: each word is a write of one value to X[d], and the lemma about the value is its row of the table. -/
theorem registerOperationsWriteTheirTableValue : Obligations.RegisterOperationsWriteTheirTableValue := by
  unfold Obligations.RegisterOperationsWriteTheirTableValue
  constructor
  · intro s d a b x y k
    have hk : k < 64 := Nat.mod_lt _ (by decide)
    exact ⟨exec_writesX rfl (BitVec.toNat_add x y), exec_writesX rfl (sub_toNat_add x y), exec_writesX rfl fun _ => BitVec.getLsbD_and,
      exec_writesX rfl fun _ => BitVec.getLsbD_or, exec_writesX rfl fun _ => BitVec.getLsbD_xor, exec_writesX rfl (andNot_getLsbD x y),
      exec_writesX rfl (shiftLeft_toNat x k), exec_writesX rfl (ushiftRight_toNat x k), exec_writesX rfl (sshiftRight_toInt x k),
      exec_writesX rfl fun _ hi => rotateRight_getLsbD x hk hi, exec_writesX rfl (boolWord_slt x y), exec_writesX rfl (boolWord_ult x y),
      exec_writesX rfl (smaller_toInt x y), exec_writesX rfl (larger_toInt x y), exec_writesX rfl (smaller_toNat x y),
      exec_writesX rfl (larger_toNat x y), exec_writesX rfl (popcount_toNat x), exec_writesX rfl (leadingZeros_spec x),
      exec_writesX rfl (trailingZeros_spec x), exec_writesX rfl (signExtendLow_eq x 8 (by decide)),
      exec_writesX rfl (signExtendLow_eq x 16 (by decide)), exec_writesX rfl (signExtendLow_eq x 32 (by decide)),
      exec_writesX rfl (zeroExtendLow_toNat x 32 (by decide)), exec_writesX rfl fun _ hk => swapBytes_byte x hk⟩
  · intro s d a b x y
    exact ⟨exec_writesX rfl (BitVec.toNat_mul x y), exec_writesX rfl (mulHigh_toInt x y), exec_writesX rfl (mulHighN_toNat x y),
      exec_writesX rfl (quotient_spec x y), exec_writesX rfl (quotientN_spec x y), exec_writesX rfl (remainder_spec x y),
      exec_writesX rfl (remainderN_spec x y)⟩

end Sys2Proof.Machine
end

section
/-! `vmv.xs`, `qpopc` and `qfirst` (R138, R285): the register line that the front end takes, the element in the bytes of the image, the
elements that a mask selects, and the statement about the three words. -/

namespace Sys2Proof.Machine

/-! ### A register line that needs no access to the image -/

/-- Nothing changes but which register lines stand in the register files of the cores (R118). -/
def OnlyLines (s u : State) : Prop := u = { s with cores := u.cores } ∧ ∀ k, u.core k = { s.core k with rf := (u.core k).rf }

theorem OnlyLines.refl (s : State) : OnlyLines s s := ⟨rfl, fun _ => rfl⟩

theorem OnlyLines.mapCore (s : State) (k : Nat) (f : Core → Core) (hf : ∀ c, f c = { c with rf := (f c).rf }) :
    OnlyLines s (s.mapCore k f) := by
  refine ⟨rfl, fun j => ?_⟩
  rw [State.core_mapCore]
  split
  · next h => subst h; exact hf _
  · rfl

theorem OnlyLines.ctx_eq {s u : State} (h : OnlyLines s u) : u.ctx = s.ctx := by rw [h.1]

theorem OnlyLines.placesLost_eq {s u : State} (h : OnlyLines s u) (g : Agent) (ls : List Loc) : u.placesLost g ls = s.placesLost g ls := by
  rw [h.1]; rfl

/-- No agent reads memory through the register files. -/
theorem OnlyLines.sameMemory {s u : State} (h : OnlyLines s u) : SameMemory s u := by
  refine ⟨fun g pa => SameByte.of_l1Find ?_ (fun k n => ?_) (fun pa => ?_) g pa, fun k a => ?_⟩
  · rw [h.1]
  · rw [h.2]; rfl
  · rw [h.1]; rfl
  · rw [h.2]

theorem SameMemory.trans {s t u : State} (h : SameMemory s t) (g : SameMemory t u) : SameMemory s u :=
  ⟨fun a pa => ⟨(g.1 a pa).1.trans (h.1 a pa).1, (g.1 a pa).2.trans (h.1 a pa).2⟩, fun k a => (g.2 k a).trans (h.2 k a)⟩

/-- A core with a register line as its most recently used one. -/
def Core.useLine (c : Core) (j line : Nat) : Core := { c with rf := (j, line) :: c.rf.filter fun x => x != (j, line) }

/-- A ready line is taken without a fault, and nothing else changes: a fresh one finds room. -/
theorem State.needLine_ready {s : State} {line : Nat} (h : s.lineReady line) (pinned : Nat → Nat → Bool) :
    ∃ u, s.needLine s.ctx.agent pinned line = .ok u ∧ OnlyLines s u := by
  unfold State.lineReady at h
  unfold State.needLine
  cases hg : s.ctx.agent with
  | handler _ _ _ => exact ⟨s, rfl, OnlyLines.refl s⟩
  | ctx id =>
    rw [hg] at h
    refine ⟨s.mapCore (id / 8) fun c => c.useLine (id % 8) line, ?_, OnlyLines.mapCore s _ _ fun _ => rfl⟩
    by_cases hin : (id % 8, line) ∈ (s.core (id / 8)).rf
    · simp [hin, Core.useLine]
    · obtain ⟨hall, hbacked, hroom⟩ := h.resolve_left hin
      have hctx : s.getCtx (.ctx id) = s.ctx := if_pos hg
      have hfew : ¬ Config.rfLines ≤ (s.core (id / 8)).rf.length := Nat.not_le.mpr hroom
      simp [hin, hctx, hall, hbacked, hfew, Core.useLine]

/-- A result that a word writes once it has taken its line. -/
theorem writeResult_overLines {s u : State} (h : OnlyLines s u) (d : Reg) (v : Word) :
    Completes (writeResult d v u) fun t => (∀ x : Reg, t.getX x = s.ctx.leaves 1 x (if x = d ∧ d ≠ 0 then v else s.getX x)) ∧
      MovesBy 1 s t ∧ OnlyScalars { s with cores := t.cores } t ∧ SameMemory s t ∧ ∀ k, t.core k = { s.core k with rf := (t.core k).rf } := by
  obtain ⟨t, ht, ⟨_, rfl, hx⟩, hmoves, honly, hmem⟩ := writeResult_writesX (s := u) (d := d) (p := (· = v)) rfl
  have hcores : t.cores = u.cores := by rw [honly]
  refine ⟨t, ht, fun x => ?_, ?_, ?_, h.sameMemory.trans hmem, fun k => ?_⟩
  · rw [hx, h.ctx_eq, State.getX, State.getX, h.ctx_eq]
  · rwa [MovesBy, h.ctx_eq] at hmoves
  · rw [hcores, ← h.1]; exact honly
  · rw [State.core, hcores]; exact h.2 k

/-! ### An element in the image -/

theorem vaddr_of_lt (wb : Nat) (a : Reg) {off : Nat} (h : off < 4096) : vaddr wb a.val off = 4096 * ((wb + a.val) % 1024) + off := by
  rw [vaddr, archReg, Nat.div_eq_of_lt h, Nat.mod_eq_of_lt h, Nat.add_zero, Nat.mod_eq_of_lt a.isLt]

/-- An element lies in one register line: its size divides that of the line. -/
theorem lines_elem (k i : Nat) {w : Nat} (hw : w < 4) :
    (Loc.v (4096 * k + i * 2 ^ w) (2 ^ w)).lines = [(4096 * k + i * 2 ^ w) / 256] := by
  have hlast : (4096 * k + i * 2 ^ w + 2 ^ w - 1) / 256 = (4096 * k + i * 2 ^ w) / 256 := by
    match w, hw with
    | 0, _ | 1, _ | 2, _ | 3, _ => omega
  have hsize : 2 ^ w ≠ 0 := Nat.ne_of_gt (Nat.two_pow_pos w)
  simp only [Loc.lines, if_neg hsize, lineOfByte, hlast, span, Nat.add_sub_cancel_left]
  rfl

theorem Memory.length_readBytes (m : Memory) (a n : Nat) : (m.readBytes a n).length = n := by
  induction n generalizing a with
  | zero => rfl
  | succ n ih => rw [Memory.readBytes, List.length_cons, ih]

theorem Memory.getElem?_readBytes (m : Memory) {n k : Nat} (a : Nat) (h : k < n) : (m.readBytes a n)[k]? = some (m.read (a + k)) := by
  induction n generalizing a k with
  | zero => omega
  | succ n ih =>
    cases k with
    | zero => rfl
    | succ k => rw [Memory.readBytes, List.getElem?_cons_succ, ih _ (by omega), Nat.add_right_comm, Nat.add_assoc]

theorem Memory.readNat_lt (m : Memory) (a n : Nat) : m.readNat a n < 2 ^ (8 * n) := by
  have h := ofBytes_lt (m.readBytes a n)
  rwa [Memory.length_readBytes] at h

theorem Memory.readNat_byte (m : Memory) {n k : Nat} (a : Nat) (h : k < n) :
    m.readNat a n / 2 ^ (8 * k) % 256 = (m.read (a + k)).toNat := by
  rw [Memory.readNat, ofBytes_byte, Memory.getElem?_readBytes m a h]
  rfl

/-! ### An element widened -/

theorem bitsOf_le (vt : Word) : bitsOf vt ≤ 64 := by
  have hsew : sewOf vt < 4 := Nat.mod_lt _ (by decide)
  have hbytes : 2 ^ sewOf vt ≤ 2 ^ 3 := Nat.pow_le_pow_right (by decide) (by omega)
  unfold bitsOf bytesOf
  omega

theorem signedOf_eq_toInt (n x : Nat) : signedOf n x = (BitVec.ofNat n x).toInt := by
  rw [BitVec.toInt_eq_toNat_cond, BitVec.toNat_ofNat]
  rfl

theorem widen_of_signed {vt : Word} (h : clsOf vt = 0) (x : Nat) : widen vt x = (BitVec.ofNat (bitsOf vt) x).signExtend 64 := by
  rw [widen, if_pos h, signedOf_eq_toInt]
  rfl

/-- Below the element's width a widened element is the element. -/
theorem widen_setWidth (vt : Word) (x : Nat) : (widen vt x).setWidth (bitsOf vt) = BitVec.ofNat (bitsOf vt) x := by
  have hle := bitsOf_le vt
  by_cases h : clsOf vt = 0
  · rw [widen_of_signed h]
    refine BitVec.eq_of_getLsbD_eq fun i hi => ?_
    have hi64 : i < 64 := by omega
    rw [BitVec.getLsbD_setWidth, BitVec.getLsbD_signExtend, if_pos hi]
    simp [hi, hi64]
  · rw [widen, if_neg h, BitVec.setWidth_ofNat_of_le hle]

theorem widen_widened (vt : Word) {x : Nat} (hx : x < 2 ^ bitsOf vt) : Widened (bytesOf vt) (clsOf vt = 0) (widen vt x) := by
  have hlow : (widen vt x).setWidth (8 * bytesOf vt) = BitVec.ofNat (bitsOf vt) x := widen_setWidth vt x
  unfold Widened
  rw [hlow]
  by_cases h : clsOf vt = 0
  · simp only [h, decide_true, if_true]
    exact widen_of_signed h x
  · have hzero : widen vt x = BitVec.ofNat 64 x := if_neg h
    have hext : (BitVec.ofNat (bitsOf vt) x).setWidth 64 = BitVec.ofNat 64 x := BitVec.setWidth_ofNat_of_le_of_lt (bitsOf_le vt) hx
    simp only [h, decide_false, Bool.false_eq_true, if_false]
    exact hzero.trans hext.symm

theorem widen_byte (vt : Word) (x : Nat) {k : Nat} (hk : k < bytesOf vt) :
    (widen vt x).extractLsb' (8 * k) 8 = BitVec.ofNat 8 (x / 2 ^ (8 * k)) := by
  have hin : 8 * k + 8 ≤ bitsOf vt := by unfold bitsOf; omega
  rw [← BitVec.extractLsb'_setWidth_of_le hin, widen_setWidth]
  refine BitVec.eq_of_getLsbD_eq fun i hi => ?_
  have hbit : 8 * k + i < bitsOf vt := by omega
  simp only [BitVec.getLsbD_extractLsb', BitVec.getLsbD_ofNat, hi, hbit, decide_true, Bool.true_and, Nat.testBit_div_two_pow]
  rw [Nat.add_comm]

/-! ### `vmv.xs` -/

/-- Where element i of V[a] stands in the image (R117). -/
def State.elemPlace (s : State) (a : Reg) (i : Nat) : Nat := 4096 * ((s.ctx.wb.toNat + a.val) % 1024) + i * 2 ^ s.sew

/-- Element i of V[a] in the vtype in force, widened by its class. -/
def State.widened (s : State) (a : Reg) (i : Nat) : Word :=
  widen s.ctx.vtype (s.ctx.v.readNat (s.elemPlace a i) (2 ^ s.sew))

theorem State.widened_spec (s : State) (a : Reg) (i : Nat) : Widened (2 ^ s.sew) (s.cls = 0) (s.widened a i) ∧
    ∀ k, k < 2 ^ s.sew → (s.widened a i).extractLsb' (8 * k) 8 = s.ctx.v.read (s.elemPlace a i + k) := by
  refine ⟨widen_widened _ (Memory.readNat_lt ..), fun k hk => (widen_byte _ _ hk).trans (BitVec.eq_of_toNat_eq ?_)⟩
  rw [BitVec.toNat_ofNat]
  exact Memory.readNat_byte _ _ hk

/-- The place that `vmv.xs` reads. -/
def State.vmvPlace (s : State) (a b : Reg) : Loc := .v (s.elemPlace a (s.getX b).toNat) (2 ^ s.sew)

section
variable {s : State} {b : Reg} (d a : Reg)

theorem execVmvXs_above (h : vlmax s.ctx.vtype ≤ (s.getX b).toNat) : execVmvXs d a b s = writeResult d 0 s := if_pos h

theorem vaddr_elemPlace {i : Nat} (h : i < vlmax s.ctx.vtype) : vaddr s.ctx.wb.toNat a.val (i * bytesOf s.ctx.vtype) = s.elemPlace a i :=
  vaddr_of_lt _ a (Nat.lt_of_lt_of_le (Nat.mul_lt_mul_of_pos_right h (Nat.two_pow_pos _)) (Nat.div_mul_le_self ..))

theorem vmvPlace_eq (h : (s.getX b).toNat < vlmax s.ctx.vtype) :
    Loc.v (vaddr s.ctx.wb.toNat a.val ((s.getX b).toNat * bytesOf s.ctx.vtype)) (bytesOf s.ctx.vtype) = s.vmvPlace a b := by
  rw [vaddr_elemPlace a h]
  rfl

theorem execVmvXs_absent (h : (s.getX b).toNat < vlmax s.ctx.vtype) (ha : absent s.olderAll (s.vmvPlace a b) = true) :
    Stalls s (execVmvXs d a b s) := by
  unfold execVmvXs
  dsimp only
  rw [if_neg (Nat.not_le.mpr h), vmvPlace_eq a h, if_pos ha]
  rfl

/-- An element that no older rule has to write: the word takes its line, and then the presence bits and the errors decide. -/
theorem execVmvXs_takes (h : (s.getX b).toNat < vlmax s.ctx.vtype) (ha : absent s.olderAll (s.vmvPlace a b) = false)
    (hl : s.lineReady (s.elemPlace a (s.getX b).toNat / 256)) :
    ∃ u, OnlyLines s u ∧ execVmvXs d a b s =
      if s.ctx.lacks [s.vmvPlace a b] then done u.stall
      else if s.placesLost s.ctx.agent [s.vmvPlace a b] then trap .dataloss 0 u
      else writeResult d (s.widened a (s.getX b).toNat) u := by
  obtain ⟨u, hu, honly⟩ := State.needLine_ready hl (s.pinned ((coreOf s.ctx.agent).getD 0))
  have hlines : (s.vmvPlace a b).lines = [s.elemPlace a (s.getX b).toNat / 256] := lines_elem _ _ (Nat.mod_lt _ (by decide))
  refine ⟨u, honly, ?_⟩
  unfold execVmvXs
  dsimp only
  rw [if_neg (Nat.not_le.mpr h), vmvPlace_eq a h, if_neg (Bool.eq_false_iff.mp ha), hlines]
  simp only [State.needLines, hu, honly.ctx_eq, honly.placesLost_eq, Ctx.elem, vaddr_elemPlace a h]
  rfl

/-- The grain of the element is not present in its image: the word waits, and its line stands in the register file. -/
theorem execVmvXs_lacks (h : (s.getX b).toNat < vlmax s.ctx.vtype) (ha : absent s.olderAll (s.vmvPlace a b) = false)
    (hl : s.lineReady (s.elemPlace a (s.getX b).toNat / 256)) (hlacks : s.ctx.lacks [s.vmvPlace a b] = true) :
    Completes (execVmvXs d a b s) fun t =>
      t = { s with ctx := { s.ctx with hold := .stall }, cores := t.cores } ∧ ∀ k, t.core k = { s.core k with rf := (t.core k).rf } := by
  obtain ⟨u, honly, hu⟩ := execVmvXs_takes d a h ha hl
  refine ⟨u.stall, by rw [hu, if_pos hlacks], ?_, honly.2⟩
  rw [State.stall, honly.1]

/-- The element is there: X[d] takes it, widened. -/
theorem execVmvXs_reads (h : (s.getX b).toNat < vlmax s.ctx.vtype) (ha : absent s.olderAll (s.vmvPlace a b) = false)
    (hl : s.lineReady (s.elemPlace a (s.getX b).toNat / 256)) (hlacks : s.ctx.lacks [s.vmvPlace a b] = false)
    (hlost : s.placesLost s.ctx.agent [s.vmvPlace a b] = false) : ∃ u, OnlyLines s u ∧
      execVmvXs d a b s = writeResult d (s.widened a (s.getX b).toNat) u := by
  obtain ⟨u, honly, hu⟩ := execVmvXs_takes d a h ha hl
  exact ⟨u, honly, by rw [hu, if_neg (Bool.eq_false_iff.mp hlacks), if_neg (Bool.eq_false_iff.mp hlost)]⟩

end

/-! ### Selected elements -/

/-- Element e is selected: by the governing mask, and by q register a (R285). -/
def State.Selects (s : State) (a : Nat) (m : Fin 4) (e : Nat) : Prop :=
  (m = 0 ∨ s.ctx.maskBit m.val e = true) ∧ s.ctx.maskBit a e = true

/-- The mask bits below vl are there, and vl is known (R285, R130). -/
def State.MasksReady (s : State) (a : Nat) (m : Fin 4) : Prop :=
  present s.olderAll (maskLocs a m s.ctx.vl.toNat) = true ∧ s.ctx.lacks (maskLocs a m s.ctx.vl.toNat) = false ∧ ¬ s.vlOpen

theorem Ctx.governing_getLsbD (c : Ctx) (m : Fin 4) {e : Nat} (he : e < 4096) :
    (c.governing m).getLsbD e = true ↔ m = 0 ∨ c.maskBit m.val e = true := by
  by_cases hm : m = 0
  · simp only [Ctx.governing, hm, Fin.val_zero, if_true, BitVec.getLsbD_allOnes, decide_eq_true he, true_or]
  · have hv : m.val ≠ 0 := fun h => hm (Fin.ext h)
    simp [Ctx.governing, Ctx.maskBit, hm, hv]

theorem State.selected_of_not_ready {s : State} {a : Nat} {m : Fin 4} (h : ¬ s.MasksReady a m) : s.selected a m = none := by
  refine if_pos ?_
  cases hpresent : present s.olderAll (maskLocs a m s.ctx.vl.toNat) with
  | false => rfl
  | true =>
    cases hlacks : s.ctx.lacks (maskLocs a m s.ctx.vl.toNat) with
    | true => rfl
    | false => exact Decidable.byContradiction fun hknown => h ⟨hpresent, hlacks, fun hopen => hknown ((State.vlOpen_iff s).mp hopen)⟩

/-- The selected elements below vl, from the lowest up. -/
theorem State.selected_of_ready {s : State} {a : Nat} {m : Fin 4} (h : s.MasksReady a m) (hvl : s.ctx.vl.toNat ≤ 4096) :
    ∃ es, s.selected a m = some es ∧ es.Pairwise (· < ·) ∧ ∀ e, e ∈ es ↔ e < s.ctx.vl.toNat ∧ s.Selects a m e := by
  obtain ⟨hpresent, hlacks, hopen⟩ := h
  rw [State.vlOpen_iff] at hopen
  refine ⟨_, if_neg (by simp [hpresent, hlacks, hopen]), List.pairwise_lt_range.filter _, fun e => ?_⟩
  rw [List.mem_filter, List.mem_range, Bool.and_eq_true]
  refine and_congr_right fun he => ?_
  rw [Ctx.governing_getLsbD _ _ (by omega)]
  rfl

/-! ### `qpopc` and `qfirst` -/

section
variable {s : State} {a : Reg} {m : Fin 4} (d : Reg)

theorem execQpopc_stalls (h : ¬ s.MasksReady a.val m) : Stalls s (execQpopc d a m s) := by
  rw [execQpopc, State.selected_of_not_ready h]
  rfl

theorem execQfirst_stalls (h : ¬ s.MasksReady a.val m) : Stalls s (execQfirst d a m s) := by
  rw [execQfirst, State.selected_of_not_ready h]
  rfl

theorem execQpopc_counts (h : s.MasksReady a.val m) (hvl : s.ctx.vl.toNat ≤ 4096) :
    WritesX s (execQpopc d a m s) d fun v => ∃ es : List Nat, es.Nodup ∧
      (∀ e, e ∈ es ↔ e < s.ctx.vl.toNat ∧ s.Selects a.val m e) ∧ v = BitVec.ofNat 64 es.length := by
  obtain ⟨es, hes, hrise, hmem⟩ := State.selected_of_ready h hvl
  rw [execQpopc, hes]
  exact writeResult_writesX ⟨es, hrise.imp Nat.ne_of_lt, hmem, rfl⟩

/-- The selected elements rise, so that the first of them is the lowest. -/
theorem execQfirst_finds (h : s.MasksReady a.val m) (hvl : s.ctx.vl.toNat ≤ 4096) :
    WritesX s (execQfirst d a m s) d fun v =>
      (∃ e, v = BitVec.ofNat 64 e ∧ e < s.ctx.vl.toNat ∧ s.Selects a.val m e ∧ ∀ f, f < e → ¬ s.Selects a.val m f) ∨
      (v = BitVec.allOnes 64 ∧ ∀ e, e < s.ctx.vl.toNat → ¬ s.Selects a.val m e) := by
  obtain ⟨es, hes, hrise, hmem⟩ := State.selected_of_ready h hvl
  rw [execQfirst, hes]
  cases es with
  | nil => exact writeResult_writesX (.inr ⟨rfl, fun e he hs => List.not_mem_nil ((hmem e).mpr ⟨he, hs⟩)⟩)
  | cons e es =>
    obtain ⟨hlt, hsel⟩ := (hmem e).mp List.mem_cons_self
    refine writeResult_writesX (.inl ⟨e, rfl, hlt, hsel, fun f hf hs => ?_⟩)
    obtain rfl | hin := List.mem_cons.mp ((hmem f).mpr ⟨Nat.lt_trans hf hlt, hs⟩)
    · exact Nat.lt_irrefl _ hf
    · exact Nat.lt_asymm hf (List.rel_of_pairwise_cons hrise hin)

end

/-- Settles O13: `vmv.xs` by what its line, the presence bits and the errors decide, the two mask words by whether their masks are
ready. -/
theorem vectorValuesAnswerTheFrontEnd : Obligations.VectorValuesAnswerTheFrontEnd := by
  unfold Obligations.VectorValuesAnswerTheFrontEnd
  constructor
  · intro s d a b i n at' place
    refine ⟨fun h => exec_writesX (execVmvXs_above d a h) rfl, execVmvXs_absent d a, execVmvXs_lacks d a, fun h ha hl hp he => ?_⟩
    obtain ⟨u, honly, hu⟩ := execVmvXs_reads d a h ha hl hp he
    obtain ⟨hwide, hbytes⟩ := s.widened_spec a i
    obtain ⟨t, ht, hx, hrest⟩ := writeResult_overLines honly d (s.widened a i)
    exact ⟨t, hu.trans ht, ⟨_, hwide, hbytes, hx⟩, hrest⟩
  · intro s d a m _ n selected ready
    exact ⟨fun h => ⟨execQpopc_stalls d h, execQfirst_stalls d h⟩,
      fun h hvl => ⟨execQpopc_counts d h hvl, execQfirst_finds d h hvl⟩⟩

end Sys2Proof.Machine
end
